-- ==== Sys2Proof/Word.lean ====
section
/-! DEFINITION. The word types of the block (R6, R12): bytes, 64-bit register words, 64 B lines, AES blocks and keys. -/

namespace Sys2Proof

/-- One byte. -/
abbrev Byte := BitVec 8
/-- A register word, a natural 64-bit quantity (R12). -/
abbrev Word := BitVec 64
/-- A 64 B line of device memory (Table 7 of the scope file); byte j at bits [8j+7:8j] (R52). -/
abbrev Line := BitVec 512
/-- A 16 B block of AES-256; byte j at bits [8j+7:8j] (R93). -/
abbrev Block := BitVec 128
/-- A 256-bit key. -/
abbrev Key := BitVec 256
/-- A 48 B digest; byte j at bits [8j+7:8j]. -/
abbrev Digest := BitVec 384
/-- A byte string, first byte first (R7). -/
abbrev Bytes := List Byte

end Sys2Proof
end

