-- ==== Sys2Proof/Syntax.lean ====
section
/-! DEFINITION. The commands of the block: one constructor of `Instr` for each row of the table of operations and
events (spec/opcode_table.json), with the operands the row's rule gives it. An operand is what the outside party or
the physical outcome supplies (a request's fields, the beat that arrives, whether a self-test passed); everything
else a command needs it takes from the state. -/

namespace Sys2Proof

/-- A memory request on lz_mreq_ with its write data (R49, R52). `data` holds one line for each line of a write. -/
structure MemReq where
  addr : BitVec 40
  len : BitVec 6
  write : Bool
  kidx : BitVec 16
  part : BitVec 6
  gen : BitVec 8
  step : BitVec 12
  cls : BitVec 2
  tid : BitVec 10
  span : BitVec 2
  rdom : BitVec 3
  data : List Line
  deriving DecidableEq, Repr

/-- A fabric request on lz_freq_ with its write data (R60, R263). `data` holds the beats' lines of a STORE;
`op1` and `op2` the operand words of ATOMIC, FLAG_STORE and COPY; `rest` is true when every other bit of that beat is
zero. -/
structure FabReq where
  op : BitVec 3
  aop : BitVec 4
  dest : BitVec 16
  addr : BitVec 40
  len : BitVec 6
  kidx : BitVec 16
  actr : BitVec 12
  part : BitVec 6
  gen : BitVec 8
  step : BitVec 12
  cls : BitVec 2
  rdom : BitVec 3
  tid : BitVec 10
  data : List Line
  op1 : BitVec 64
  op2 : BitVec 64
  rest : Bool
  deriving DecidableEq, Repr

/-- One read beat of a memory controller: two lines with their sideband fields and the error mark (R58, R59). -/
structure DmcBeat where
  lo : Line
  hi : Line
  sbLo : BitVec 64
  sbHi : BitVec 64
  err : Bool
  deriving DecidableEq, Repr

/-- A sealed frame as it stands at a link attachment: the 16 B header, the ciphertext and the tag (R62, R257). -/
structure Frame where
  header : BitVec 128
  body : Bytes
  tag : Block
  deriving DecidableEq, Repr

/-- The outcome of the reads a command makes of device or host memory under its own rules (R314, R208, R368 and the
like): whether every access was admitted and answered, and in device memory verified, and the bytes read, which in host
memory are the sealed ones (R331). Whether the place is readable the command checks itself against the region table. -/
structure ReadOut where
  ok : Bool
  bytes : Bytes
  deriving DecidableEq, Repr

/-- The outcome of a self-test: 0 it passed, otherwise the stage that failed (R141, R223, R272, R427). -/
abbrev TestOut := Nat

/-- What a switch-over concerns (R42): the unit type, by the codes of R421, and, for one that a fault starts, the outcome
of the BIST of the spare it takes. -/
structure SwitchUnit where
  type : Nat
  spare : TestOut := 0
  deriving DecidableEq, Repr

/-- A spare with the outcome of its BIST (R42). -/
structure TestedSpare where
  index : Nat
  out : TestOut := 0
  deriving DecidableEq, Repr

/-- What a mirror record holds (R292, R296): changed items, the others being read from the active copy of the image, whose
lines verify or not; or every item of Table 6. -/
inductive MirrorForm where
  | changes (imageOk : Bool)
  | full
  deriving DecidableEq, Repr

/-- Where a command that a register and a service queue may both carry comes from: a register write on an attach port
(R68), or the in-flight command in place `k` of service queue `q` (R305), whose descriptor the state holds. -/
inductive Origin where
  | reg (port : Nat)
  | svc (q : Nat) (k : Nat)
  deriving DecidableEq, Repr

/-- One register access (R12, R448): the block window offset, whether it writes, 64-bit or 32-bit, the half a 32-bit
access names, and the data. -/
structure RegAccess where
  off : Nat
  write : Bool
  wide : Bool
  hi : Bool
  data : Word
  deriving DecidableEq, Repr

/-- The MCTP messages that arrive on the management pins (R69): a register access on attach port 3, a forwarded CLAIM
record, or an SPDM message. -/
inductive Mctp where
  | reg (a : RegAccess)
  | spdm (msg : Bytes)
  | claim (rec : Bytes)
  deriving DecidableEq, Repr

/-- What a ring entry's read brings (R303): whether the read was answered and, in device memory, verified, and the bytes
as they stand there: 64 B in device memory, 80 B sealed in host memory (R331). -/
structure OpenOut where
  ok : Bool
  bytes : Bytes
  deriving DecidableEq, Repr

/-- The commands (spec/opcode_table.json, in its order). -/
inductive Instr where
  | memoryRequest (g : Nat) (r : MemReq)
  | spanPartTimeout (g : Nat) (tid : BitVec 10)
  | laneGrant (n : Nat) (cycles : Nat)
  | throttleWindow
  | dmcReadData (g : Nat) (tag : BitVec 12) (b : DmcBeat)
  | metadataLineArrival (g : Nat) (tag : BitVec 12) (line : Line) (sb : BitVec 64) (err : Bool)
  | tagVerdict (g : Nat) (tag : BitVec 12)
  | readRelease (g : Nat)
  | rereadVerdict (g : Nat) (tag : BitVec 12)
  | stileRelease (h : Nat)
  | dmcAccessAccept (g : Nat)
  | creditRequest (n : Nat) (slot : BitVec 16)
  | creditDecision
  | nosuccRetry
  | autoStartRetry
  | pageUnlock (n : Nat) (page : Nat)
  | counterEvict (level : Nat) (idx : Nat)
  | nodeRetag (r : Nat)
  | fabricRequest (i : Nat) (r : FabReq)
  | frameClose (flow : BitVec 32) (dest : BitVec 16)
  | frameReceive (port : Nat) (f : Frame) (bad : Bool)
  | flagStoreEffect (w : Nat) (old : ReadOut)
  | breakReceive (src : BitVec 16) (flow : BitVec 32) (q : Word)
  | creditMessage (flow : BitVec 32)
  | responseTimeout (mtag : BitVec 16)
  | flowIdleRelease (flow : BitVec 32) (dest : BitVec 16)
  | flowRekey (flow : BitVec 32) (dest : BitVec 16)
  | copyLocalRead (h : Nat) (r : ReadOut)
  | linkDown (att : Nat)
  | linkUp (att : Nat)
  | stepCommit (step : BitVec 12)
  | stileEvent (step : BitVec 12)
  | stepDone (step : BitVec 12)
  | mirrorTimeout (step : BitVec 12)
  | accHalt (p : BitVec 6)
  | accResume (p : BitVec 6)
  | haltAck (p : BitVec 6)
  | drainAck (p : BitVec 6)
  | drainAckFall (p : BitVec 6)
  | drainOverrun (p : BitVec 6)
  | scrubRequest (p : BitVec 6)
  | scrubDone (p : BitVec 6) (status : BitVec 2)
  | scrubOverrun (p : BitVec 6)
  | rdomFence (d : BitVec 3)
  | rdomFenced (d : BitVec 3)
  | rdomUnfence (d : BitVec 3)
  | fenceOverrun (d : BitVec 3)
  | chunkDescriptor (d : BitVec 256)
  | scanRead (seg : Nat) (r : ReadOut)
  | straddleFetch (seg : Nat)
  | straddleFetchDone (seg : Nat) (r : ReadOut)
  | straddleFetchTimeout (seg : Nat)
  | chunkDispatch (core : Nat)
  | chunkHashed (core : Nat)
  | stvOpen (o : Origin) (ctx : BitVec 8) (r : ReadOut)
  | stvClose (o : Origin) (ctx : BitVec 8)
  | contextFinish (ctx : BitVec 8)
  | stvRead (o : Origin) (ctx : BitVec 8)
  | stvFree (o : Origin) (ctx : BitVec 8)
  | partialRecord (rec : Bytes)
  | finalRecord (rec : Bytes)
  | gatherTimeout (ctx : BitVec 8)
  | stvBistStart (port : Nat) (core : BitVec 7) (out : TestOut)
  | stvBistSwap (port : Nat) (core : BitVec 7) (spare : BitVec 7) (out : TestOut)
  | stvBistReturn (port : Nat) (core : BitVec 7)
  | watchArm (o : Origin) (w : BitVec 6)
  | watchRead (o : Origin) (w : BitVec 6)
  | watchDisarm (o : Origin) (w : BitVec 6)
  | tokOpen (o : Origin) (t : BitVec 13)
  | tokClose (o : Origin) (t : BitVec 13)
  | tokRead (o : Origin) (t : BitVec 13)
  | tokFree (o : Origin) (t : BitVec 13)
  | tokenRecordChained (t : BitVec 13) (r : ReadOut)
  | sheaf (q : Nat) (k : Nat) (r : ReadOut)
  | sheafAppend (q : Nat) (k : Nat)
  | stookClose
  | flush (port : Nat)
  | maxwaitExpiry
  | stookSigned
  | rgnRead (port : Nat) (row : BitVec 14)
  | rgnCreate (o : Origin) (row : BitVec 14) (r : ReadOut)
  | rgnDestroy (o : Origin) (row : BitVec 14) (r : ReadOut)
  | regionFree (row : BitVec 14)
  | rgnSeal (o : Origin) (row : BitVec 14) (r : ReadOut)
  | sealComplete (row : BitVec 14) (manifest : ReadOut) (chunks : List ReadOut)
  | sealGatherTimeout (row : BitVec 14)
  | rgnReset (o : Origin) (row : BitVec 14) (r : ReadOut)
  | rgnAdvance (o : Origin) (row : BitVec 14) (r : ReadOut)
  | advanceComplete (row : BitVec 14)
  | rgnRef (q : Nat) (k : Nat)
  | rgnUnref (q : Nat) (k : Nat)
  | hrwStart (port : Nat) (job : BitVec 4)
  | hrwSuspend (port : Nat) (job : BitVec 4)
  | hrwResume (port : Nat) (job : BitVec 4)
  | hrwRetire (port : Nat) (job : BitVec 4)
  | jobRun
  | harrowPageClose (job : BitVec 4) (page : Nat)
  | harrowPageOpen (job : BitVec 4) (page : Nat) (lines : List (Nat × DmcBeat))
  | harrowMoveAbandon (job : BitVec 4) (page : Nat) (lines : List (Nat × DmcBeat))
  | turnover (job : BitVec 4)
  | headlandMark (job : BitVec 4)
  | keyRead (port : Nat) (slot : BitVec 16)
  | keyAlloc (o : Origin) (slot : BitVec 16)
  | keyRef (o : Origin) (slot : BitVec 16)
  | keyUnref (o : Origin) (slot : BitVec 16)
  | keySucc (port : Nat) (slot : BitVec 16)
  | setLimit (port : Nat) (slot : BitVec 16)
  | slotTeardown (slot : BitVec 16)
  | ledgerRewrap
  | keyRowCheckFail (row : Nat) (spare : TestedSpare)
  | esHealthFail (raw : List Bool)
  | drbgReseed
  | laneBistStart (port : Nat) (n : Nat) (out : TestOut)
  | laneSwap (port : Nat) (n : Nat) (spare : BitVec 6) (out : TestOut)
  | laneReturn (port : Nat) (n : Nat)
  | switchover (unit : SwitchUnit) (n : Nat)
  | portBistStart (port : Nat) (n : Nat) (out : TestOut)
  | portSwap (port : Nat) (n : Nat) (spare : BitVec 6) (out : TestOut)
  | portReturn (port : Nat) (n : Nat)
  | fabGrant (o : Origin)
  | fabRevoke (o : Origin)
  | grantUnreachable
  | actrRead (o : Origin) (c : BitVec 12)
  | actrConfig (o : Origin) (c : BitVec 12)
  | actrRelease (o : Origin) (c : BitVec 12)
  | domJoin (port : Nat)
  | domLeave (port : Nat)
  | domAdvance (port : Nat)
  | ballotPost (port : Nat) (len : BitVec 14)
  | hello (src : BitVec 16) (exch : BitVec 32) (body : Bytes)
  | challenge (src : BitVec 16) (exch : BitVec 32) (body : Bytes)
  | evidence (src : BitVec 16) (exch : BitVec 32) (body : Bytes)
  | admitCmd (src : BitVec 16) (exch : BitVec 32) (status : BitVec 8) (epoch : Word)
  | admissionTimeout
  | prepare (src : BitVec 16) (epoch : Word) (wrap : Bytes) (members : List (BitVec 16)) (gens : List (BitVec 16 × BitVec 8))
  | prepared (src : BitVec 16) (epoch : Word)
  | prepareTimeout
  | commit (src : BitVec 16) (epoch : Word)
  | commitRepeat
  | committed (src : BitVec 16) (epoch : Word)
  | abort (src : BitVec 16) (epoch : Word)
  | epochGraceEnd
  | heartbeatSend
  | heartbeat (src : BitVec 16) (time : Word)
  | lease (src : BitVec 16) (echoed : Word) (seatTime : Word) (leaseEnd : Word) (seatEpoch : Word) (ballotHash : Digest)
  | memberSilent (u : BitVec 16)
  | leaseExpiry
  | ballotLapse
  | fallowRetry
  | leaveTimeout
  | ballot (src : BitVec 16) (rec : Bytes)
  | down (src : BitVec 16) (gen : BitVec 8)
  | records (src : BitVec 16) (recs : List Bytes)
  | leave (src : BitVec 16)
  | domainTick (mw : BitVec 16)
  | pairBootstrap (th : Bytes) (peerId : BitVec 128) (sigs : Bool) (meas : Digest) (peerKey : Bytes) (peerEpoch : Word) (peerPrimary : List (BitVec 32))
  | pairHeartbeat
  | mirror (seq : Word) (kind : BitVec 8) (form : MirrorForm) (items : List (Nat × Nat × Bytes))
  | mirrorAck (seq : Word) (stale : Bool)
  | restoreReq (imageOk : Bool) (unit : BitVec 128)
  | restore (kind : BitVec 2) (empty : Bool) (items : List (Nat × Nat × Bytes)) (ledger : List (Nat × Bytes)) (mem : List (Nat × DmcBeat))
  | partnerLost (byDown : Bool)
  | claimSend
  | claimReceive (rec : Bytes)
  | handoverReceive (cell : BitVec 32)
  | cellRead (port : Nat) (i : BitVec 8)
  | cellHandover (port : Nat) (i : BitVec 8)
  | peerRegisterRequest (port : Nat) (src : BitVec 16) (epoch0 : Bool) (a : RegAccess)
  | sqDoorbell (port : Nat) (q : Nat) (v : Word)
  | descriptorFetch (q : Nat) (d : OpenOut)
  | completionWrite (q : Nat) (k : Nat)
  | queueTimeout (q : Nat) (k : Nat) (drained : Bool)
  | queueDisable (port : Nat) (q : Nat)
  | queueEnable (port : Nat) (q : Nat)
  | nop (q : Nat) (k : Nat)
  | aesEnc (q : Nat) (k : Nat) (src : ReadOut)
  | aesDec (q : Nat) (k : Nat) (src : ReadOut)
  | xtsEnc (q : Nat) (k : Nat) (src : ReadOut)
  | xtsDec (q : Nat) (k : Nat) (src : ReadOut)
  | scuBurst
  | gangStripeDone (q : Nat) (k : Nat) (stripe : Nat) (ok : Bool)
  | keyWrap (q : Nat) (k : Nat)
  | keyImport (q : Nat) (k : Nat) (src : ReadOut)
  | keyOrigin (q : Nat) (k : Nat) (nonce : ReadOut)
  | pkHash (q : Nat) (k : Nat) (src : ReadOut)
  | pkMldsaVerify (q : Nat) (k : Nat) (src : ReadOut)
  | pkEcdsaVerify (q : Nat) (k : Nat) (src : ReadOut)
  | drillStore (q : Nat) (k : Nat) (image : ReadOut)
  | drillRun (q : Nat) (k : Nat) (params : ReadOut) (lines : ReadOut)
  | drillDrop (q : Nat) (k : Nat)
  | hostMboxGo (port : Nat) (m : Nat) (len : BitVec 11)
  | mctpMessage (m : Mctp)
  | atsCompletion (att : Nat) (va : BitVec 52) (pa : BitVec 52) (perm : BitVec 2) (ok : Bool)
  | atsInvalidate (att : Nat) (first : BitVec 52) (last : BitVec 52)
  | hostDmaReadDone (tag : BitVec 10) (seg : Bytes) (rerr : Bool)
  | bounceDoorbell (port : Nat) (c : Nat) (v : Word)
  | bounceTransfer (c : Nat) (d : ReadOut) (src : ReadOut)
  | transferComplete (c : Nat)
  | keywarn (slot : BitVec 16)
  | resetDrain (port : Nat) (p : BitVec 6)
  | resetSquash (port : Nat) (p : BitVec 6)
  | flip (port : Nat) (p : BitVec 6)
  | dirtyLogOr (p : BitVec 6) (page : Nat) (old : ReadOut)
  | ownClaimPost (port : Nat)
  | cohortDecision
  | handoverGo (port : Nat) (succ : BitVec 3)
  | handoverCancel (port : Nat)
  | handoverLapse
  | cfgLoad (port : Nat) (image : ReadOut)
  | cfgDiscard (port : Nat)
  | cfgSwap (port : Nat) (persist : Bool)
  | swapEffect
  | cfgPersist (ok : Bool)
  | lcPost (port : Nat) (programs : Bool)
  | endOfLifeWipe
  | otpRead (port : Nat) (w : BitVec 10)
  | otpProgram (o : Origin) (w : BitVec 10) (rowOk : Bool) (spareOk : Bool)
  | fwuStage (port : Nat) (image : ReadOut) (stored : Bool)
  | fwuStart (port : Nat)
  | fwuReady (meas : Digest)
  | fwuBootTimeout
  | fwuHandover
  | fwuCancel (port : Nat)
  | fwuAbandon (port : Nat)
  | fwuStuck
  | cert (port : Nat) (chain : ReadOut) (leafOk : Bool) (stored : Bool)
  | powerOnReset
  | bringupPhaseDone (cause : BitVec 4) (image : ReadOut)
  | warmReset (lost : Bool)
  | settleTimeout
  | restoreWaitTimeout
  | pllLockLoss
  | fltAbort (port : Nat) (type : BitVec 3) (index : BitVec 13) (drained : Bool)
  | fltReset (port : Nat) (unit : BitVec 4) (index : BitVec 6) (drained : Bool) (tests : TestOut)
  | hedge (port : Nat) (p : BitVec 6)
  | unhedge (port : Nat) (p : BitVec 6)
  | winnow (port : Nat) (p : BitVec 6)
  | warmReq (port : Nat)
  | pwrReq (port : Nat)
  | pwrStop (port : Nat)
  | powerCycleSend
  | gleanerRecord
  | freeze (port : Nat)
  | unfreeze (port : Nat)
  | peerCopy (port : Nat)
  | unitBistStart (port : Nat) (type : BitVec 3) (index : BitVec 15) (out : TestOut)
  | unitSwap (port : Nat) (type : BitVec 3) (index : BitVec 15) (spare : BitVec 15) (out : TestOut)
  | unitReturn (port : Nat) (type : BitVec 3) (index : BitVec 15)
  | inject (port : Nat) (kind : BitVec 2) (dbl : Bool) (target : BitVec 8)
  | injectExpiry
  | marginSample (n : Nat) (a : BitVec 8) (b : BitVec 8) (valid : Bool)
  | reeveHeartbeat
  | traceRecord
  | traceRead (port : Nat) (first : BitVec 32) (count : BitVec 16)
  | obsChallenge (port : Nat) (classes : BitVec 16)
  | obsResponse (port : Nat) (rec : Bytes)
  | counterHalfRead (port : Nat) (n : BitVec 9) (hi : Bool)
  | rcRegisterRead (port : Nat) (a : RegAccess)
  | registerWrite (port : Nat) (a : RegAccess)
  | hostRegisterAccess (att : Nat) (a : RegAccess)
  | powerOnResetAssert
  | pllLockReturn
  | epoch0EntryExpiry (src : BitVec 16) (lane : BitVec 2)
  | startUpTestPass
  | unitOutOfService (type : Nat) (index : Nat)
  deriving DecidableEq, Repr

end Sys2Proof
end

