-- ==== Sys2Proof/Decode.lean ====
section
/-! DEFINITION. Table words. The rows of the table of operations and events give no bits (each has an empty list of
fields), so no word spells a command. -/

namespace Sys2Proof

/-- The command that a table word spells: none, because the table's rows give no bits. -/
def decodeTableWord (_nbits _w : Nat) : Option Instr := none

end Sys2Proof
end

