-- ==== Sys2Proof/Config.lean ====
section
/-! DEFINITION. What the model leaves free: the standard algorithms the manual names but does not define (AES-256,
SHA-2, SHA-3, SHAKE, KMAC256, ML-DSA-87, ECDSA and ECDH P-384, ML-KEM-1024), the random draws, and every value the
manual calls not defined. Each is a constant with no body, so a proved statement holds whatever it is. -/

namespace Sys2Proof.Config

/-- AES-256 encryption of one block (FIPS 197, named by R93). -/
opaque aes256 : Key → Block → Block
/-- AES-256 decryption of one block (FIPS 197, named by R315). -/
opaque aes256Inv : Key → Block → Block
/-- KMAC256 with key, input, output length in bits and customisation string (SP 800-185, named by R170). -/
opaque kmac256 : Bytes → Bytes → (l : Nat) → Bytes → BitVec l
/-- SHA3-256 (FIPS 202, named by R169). -/
opaque sha3_256 : Bytes → BitVec 256
/-- SHA3-384 (FIPS 202). -/
opaque sha3_384 : Bytes → Digest
/-- SHA3-512 (FIPS 202). -/
opaque sha3_512 : Bytes → BitVec 512
/-- SHA-256 (FIPS 180-4). -/
opaque sha2_256 : Bytes → BitVec 256
/-- SHA-384 (FIPS 180-4). -/
opaque sha2_384 : Bytes → Digest
/-- SHA-512 (FIPS 180-4). -/
opaque sha2_512 : Bytes → BitVec 512
/-- SHAKE256 with an output length in bits (FIPS 202). -/
opaque shake256 : Bytes → (l : Nat) → BitVec l
/-- The cSHAKE256 of SP 800-185 with output length in bits, function name and customisation string. -/
opaque cshake256 : Bytes → (l : Nat) → Bytes → Bytes → BitVec l
/-- ML-DSA-87 verification of a message under a context string and public key (FIPS 204). -/
opaque mldsaVerify : (pk msg ctx sig : Bytes) → Bool
/-- ML-DSA-87 signature by the private identity key (R174) over a message under a context string; the number picks the
signing randomness. -/
opaque mldsaSign : (seed : BitVec 256) → (msg ctx : Bytes) → Nat → Bytes
/-- The ML-DSA-87 public key of a seed (R174). -/
opaque mldsaPk : (seed : BitVec 256) → Bytes
/-- ECDSA P-384 verification over a digest (FIPS 186-5). -/
opaque ecdsaVerify : (pk digest sig : Bytes) → Bool
/-- ECDSA P-384 signature by a private key d over a digest; the number picks the signing randomness. -/
opaque ecdsaSign : (d : Nat) → (digest : Bytes) → Nat → Bytes
/-- The ECDSA P-384 public key of a private key d (R174). -/
opaque ecdsaPk : (d : Nat) → Bytes
/-- ML-KEM-1024 decapsulation by the key pair a number names (FIPS 203). -/
opaque mlkemDecaps : Nat → Bytes → BitVec 256
/-- ML-KEM-1024 encapsulation to a public key with the randomness a number names: ciphertext and shared key. -/
opaque mlkemEncaps : Nat → Bytes → Bytes × BitVec 256
/-- The ML-KEM-1024 public key of the key pair a number names. -/
opaque mlkemPk : Nat → Bytes
/-- ECDH P-384 between the private key a number names and a public key. -/
opaque ecdh : Nat → Bytes → Bytes
/-- The ECDH P-384 public key of the private key a number names. -/
opaque ecdhPk : Nat → Bytes
/-- Acceptance of a certificate chain up to the manufacturing CA (R174, R389), and the public keys it certifies. -/
opaque certChain : Bytes → Option (Bytes × Bytes)

/-- The unit identity that the leaf of a certificate chain carries (R280). -/
opaque certIdent : Bytes → BitVec 128
/-- The vendor's ML-DSA-87 and ECDSA P-384 public keys that the boot ROM holds (R380, R395). -/
opaque vendorPk : Bytes × Bytes
/-- The observation authority's public keys that the boot ROM holds (R440). -/
opaque obsPk : Bytes × Bytes
/-- A message is a secured message (DSP0277, named by R336). -/
opaque spdmSecured : Bytes → Bool
/-- The request that a secured message of a session carries, when it authenticates. -/
opaque spdmPlain : Nat → Bytes → Option Bytes
/-- A response as a secured message of a session. -/
opaque spdmSeal : Nat → Bytes → Bytes
/-- FINISH of a session verifies. -/
opaque spdmFinish : Nat → Bytes → Bool
/-- The export master secret of a session (R338). -/
opaque spdmExport : Nat → Bytes
/-- The responder's answer to a request (SPDM, named by R336), from the certificate chain and the measurement blocks; the
numbers pick the session and the signing randomness. -/
opaque spdmAnswer : (session : Nat) → (req chain blocks : Bytes) → Nat → Bytes

/-- The n-th draw of the DRBG (R195): its value is not fixed by the manual. -/
opaque drbg : (w : Nat) → Nat → BitVec w
/-- A free value: the n-th value that the manual leaves undefined or unstated. -/
opaque freeBits : (w : Nat) → Nat → BitVec w
/-- A free list of bytes: the n-th value that arrives from outside and that the manual does not fix. -/
opaque freeBytes : Nat → Bytes

/-- The position of a metadata line of a level and index within its home group's part of the metadata area, which is not
defined (R105); it is taken modulo the lines of that part. -/
opaque metaPos : (level idx : Nat) → Nat

/-- The level and index of the metadata line at a line address, if one lies there (R105: the positions are not
defined). -/
opaque metaAt : Nat → Option (Nat × Nat)

/-- Receive space by which a receiver raises a busy flow's credit at a return (R259): the manual gives its bounds and
not its amount; it is taken within those bounds. -/
opaque creditGrant : Nat → Nat

/-- The set of the 16-way counter cache that holds a metadata line (R21): which one is not defined. -/
opaque cacheSet : (level idx : Nat) → Nat

end Sys2Proof.Config
end

