-- ==== Sys2Proof/Machine/Bits.lean ====
section
/-! DEFINITION. Byte strings, bit fields and byte order (R6, R7): the little-endian conversions every format uses. -/

namespace Sys2Proof.Machine

/-- Bits [lo+w-1:lo] of a number. -/
def bits (x lo w : Nat) : Nat := x / 2 ^ lo % 2 ^ w

/-- A number with bits [lo+w-1:lo] replaced by a value. -/
def setBits (x lo w v : Nat) : Nat := x - bits x lo w * 2 ^ lo + v % 2 ^ w * 2 ^ lo

/-- One bit of a number. -/
def bit (x i : Nat) : Bool := bits x i 1 = 1

/-- `n` bytes of a number, least significant first (R6). -/
def leBytes : Nat → Nat → Bytes
  | 0, _ => []
  | n + 1, v => BitVec.ofNat 8 v :: leBytes n (v / 256)

/-- The number whose little-endian bytes these are (R6). -/
def ofLE : Bytes → Nat
  | [] => 0
  | b :: t => b.toNat + 256 * ofLE t

/-- The big-endian bytes of a number, for formats of named standards. -/
def beBytes (n v : Nat) : Bytes := (leBytes n v).reverse

/-- The number whose big-endian bytes these are. -/
def ofBE (b : Bytes) : Nat := ofLE b.reverse

/-- The bytes of a bit vector, byte j at bits [8j+7:8j]. -/
def bvBytes {w : Nat} (x : BitVec w) : Bytes := leBytes (w / 8) x.toNat

/-- Bytes [off, off + n) of a string, short where the string ends. -/
def sub (b : Bytes) (off n : Nat) : Bytes := (b.drop off).take n

/-- The little-endian number in bytes [off, off + n). -/
def le (b : Bytes) (off n : Nat) : Nat := ofLE (sub b off n)

/-- True when bytes [off, off + n) are all zero. -/
def zeroAt (b : Bytes) (off n : Nat) : Bool := (sub b off n).all (· == 0)

/-- `n` zero bytes. -/
def zeros (n : Nat) : Bytes := List.replicate n 0

/-- A string padded with zero bytes, or cut, to `n` bytes. -/
def padTo (n : Nat) (b : Bytes) : Bytes := (b ++ zeros n).take n

/-- The bytes of an ASCII string. -/
def ascii (s : String) : Bytes := s.toList.map fun c => BitVec.ofNat 8 c.toNat

/-- The 512-bit line whose bytes these are (R52). -/
def toLine (b : Bytes) : Line := BitVec.ofNat 512 (ofLE b)

/-- The lines of a byte string, 64 bytes each. -/
def toLines (b : Bytes) : Nat → List Line
  | 0 => []
  | n + 1 => toLine (b.take 64) :: toLines (b.drop 64) n

/-- The bytes of consecutive lines. -/
def ofLines (l : List Line) : Bytes := (l.map bvBytes).flatten

/-- The smaller of a count and the largest value a counter of `w` bits holds. -/
def satInc (w n : Nat) : Nat := min (n + 1) (2 ^ w - 1)

/-- ⌈a / b⌉. -/
def ceilDiv (a b : Nat) : Nat := (a + b - 1) / b

end Sys2Proof.Machine
end

