-- ==== Sys2Proof/Machine/RegMap.lean ====
section
/-! DEFINITION. The register map: every register of Table 4 of the register map (R453), where it lies, and its
fields with their access codes and reset values as the owning chapters' tables give them. A bit no field covers is
reserved (R9). -/

namespace Sys2Proof.Machine

/-- Access codes (R13). -/
inductive AccCode where
  | ro | rw | w1c | w1s | wo | rc | any
  deriving DecidableEq, Repr

/-- The registers of Table 4 (R453), by name; an array of registers is one constructor with an instance index. -/
inductive Reg where
  | id | stepping | ready | lcState | gstat | unitId | disabledMap | heartbeat
  | ownClaim | ownStatus | ownEpoch | ownHandover | ownNonce0 | ownNonce1 | ownErr | ownHdigest
  | ownClaimdata | clkStat | rstCtl | pwrRamp | margin | cfgShadowBase | cfgLoad | cfgStatus
  | cfgSwap | cfgActiveVer | cfgShadowVer | cfgRatchet | cfgErr | cfgHash | laneCtl | laneStat
  | laneErr | laneBist | portCtl | portStat | portErr | portBist | fabCtl | fabGrant
  | fabActrSel | fabActrVal | fabStat | fabErr | keySel | keyCmd | keyStat | keyUsage
  | keyLimit | keyGlobal | keyEpoch | keyLedger | keyErr | keyCell | rgnSel | rgnErr
  | rgnEpsrc | rgnTspan | rgnMeta | rgnDesc0 | rgnDesc1 | rgnDesc2 | rgnDesc3 | rgnDesc4
  | rgnDesc5 | rgnDesc6 | rgnDesc7 | rgnDesc8 | rgnDesc9 | rgnDesc10 | rgnDesc11 | rgnDesc12
  | rgnDesc13 | rgnDesc14 | rgnDesc15 | hrwCtl | hrwHeadland | hrwStat | hrwShare | hrwJob
  | hrwTurn | hrwErr | hrwTurnbase | svcQbase | svcQcbase | svcQcfg | svcQtimeout | svcQdoorbell
  | svcQstat | svcQerr | scuStat | scuErr | pkuStat | drillSel | drillDigest | stvCtl
  | stvArg | stvStat | stvProgress | stvCtx | stvCount | stvDigest | stvErr | stvBist
  | stvAcc | watchCtl | watchCfg | watchThresh | watchStat | watchEvt | watchErr | watchRes
  | tokCtl | tokArg | tokId0 | tokId1 | tokStat | tokChain | shfCtl | shfStat
  | shfSeq | shfNonce | shfErr | partCtl | partStat | partWeight | partRate | partDirtyBase
  | partHost | partHwinBase | partHwinSize | partCarve | partErr | hostCtl | hostStat | hostErr
  | hostKeywarn | hostProgress | hostQpasid | hostBcfg | hostBring | hostBdoorbell | hostBstat | hostMboxCtl
  | hostMboxSess | hostMboxData | pairCtl | pairStat | pairEpoch | pairCell | pairAck | pairErr
  | domCtl | domStat | domEpoch | domSeat | domLease | domTime | domId0 | domId1
  | domMboxCtl | domErr | domMbox | fltCtl | fltPending | fltIrq | fltAbort | fltReset
  | fltHedge | fltWinnow | fltUnit | fltInject | fltInjarg | fltRehearsal | fltErr | glnCtl
  | glnStat | glnArg | glnEntry | obsStat | obsClasses | obsErr | obsCnt | obsMboxCtl
  | obsMbox | otpCtl | otpData | otpStat | otpErr | lcCtl | lcNonce0 | lcNonce1
  | lcInfo | fwuCtl | fwuArg | fwuStat | fwuVer | fwuCur | fwuNext | lcMbox
  deriving DecidableEq, Repr

/-- Registers of Table 4, part 1 of 5. -/
def Reg.all1 : List Reg :=
  [.id, .stepping, .ready, .lcState, .gstat, .unitId, .disabledMap, .heartbeat,
   .ownClaim, .ownStatus, .ownEpoch, .ownHandover, .ownNonce0, .ownNonce1, .ownErr, .ownHdigest,
   .ownClaimdata, .clkStat, .rstCtl, .pwrRamp, .margin, .cfgShadowBase, .cfgLoad, .cfgStatus,
   .cfgSwap, .cfgActiveVer, .cfgShadowVer, .cfgRatchet, .cfgErr, .cfgHash, .laneCtl, .laneStat,
   .laneErr, .laneBist, .portCtl, .portStat, .portErr, .portBist, .fabCtl, .fabGrant]

/-- Registers of Table 4, part 2 of 5. -/
def Reg.all2 : List Reg :=
  [.fabActrSel, .fabActrVal, .fabStat, .fabErr, .keySel, .keyCmd, .keyStat, .keyUsage,
   .keyLimit, .keyGlobal, .keyEpoch, .keyLedger, .keyErr, .keyCell, .rgnSel, .rgnErr,
   .rgnEpsrc, .rgnTspan, .rgnMeta, .rgnDesc0, .rgnDesc1, .rgnDesc2, .rgnDesc3, .rgnDesc4,
   .rgnDesc5, .rgnDesc6, .rgnDesc7, .rgnDesc8, .rgnDesc9, .rgnDesc10, .rgnDesc11, .rgnDesc12,
   .rgnDesc13, .rgnDesc14, .rgnDesc15, .hrwCtl, .hrwHeadland, .hrwStat, .hrwShare, .hrwJob]

/-- Registers of Table 4, part 3 of 5. -/
def Reg.all3 : List Reg :=
  [.hrwTurn, .hrwErr, .hrwTurnbase, .svcQbase, .svcQcbase, .svcQcfg, .svcQtimeout, .svcQdoorbell,
   .svcQstat, .svcQerr, .scuStat, .scuErr, .pkuStat, .drillSel, .drillDigest, .stvCtl,
   .stvArg, .stvStat, .stvProgress, .stvCtx, .stvCount, .stvDigest, .stvErr, .stvBist,
   .stvAcc, .watchCtl, .watchCfg, .watchThresh, .watchStat, .watchEvt, .watchErr, .watchRes,
   .tokCtl, .tokArg, .tokId0, .tokId1, .tokStat, .tokChain, .shfCtl, .shfStat]

/-- Registers of Table 4, part 4 of 5. -/
def Reg.all4 : List Reg :=
  [.shfSeq, .shfNonce, .shfErr, .partCtl, .partStat, .partWeight, .partRate, .partDirtyBase,
   .partHost, .partHwinBase, .partHwinSize, .partCarve, .partErr, .hostCtl, .hostStat, .hostErr,
   .hostKeywarn, .hostProgress, .hostQpasid, .hostBcfg, .hostBring, .hostBdoorbell, .hostBstat, .hostMboxCtl,
   .hostMboxSess, .hostMboxData, .pairCtl, .pairStat, .pairEpoch, .pairCell, .pairAck, .pairErr,
   .domCtl, .domStat, .domEpoch, .domSeat, .domLease, .domTime, .domId0, .domId1]

/-- Registers of Table 4, part 5 of 5. -/
def Reg.all5 : List Reg :=
  [.domMboxCtl, .domErr, .domMbox, .fltCtl, .fltPending, .fltIrq, .fltAbort, .fltReset,
   .fltHedge, .fltWinnow, .fltUnit, .fltInject, .fltInjarg, .fltRehearsal, .fltErr, .glnCtl,
   .glnStat, .glnArg, .glnEntry, .obsStat, .obsClasses, .obsErr, .obsCnt, .obsMboxCtl,
   .obsMbox, .otpCtl, .otpData, .otpStat, .otpErr, .lcCtl, .lcNonce0, .lcNonce1,
   .lcInfo, .fwuCtl, .fwuArg, .fwuStat, .fwuVer, .fwuCur, .fwuNext, .lcMbox]

/-- Every register of Table 4, in its order. -/
def Reg.all : List Reg := Reg.all1 ++ Reg.all2 ++ Reg.all3 ++ Reg.all4 ++ Reg.all5

/-- Where a register lies (Table 4): the first offset, the stride and number of its instances, and the number of
consecutive words of one instance (only the host mailboxes have more than one). -/
structure Place where
  base : Nat
  stride : Nat
  count : Nat
  words : Nat
  deriving DecidableEq, Repr

/-- The places of Table 4 (R453). -/
def Reg.place : Reg → Place
  | .id => ⟨0x000000, 0x8, 1, 1⟩
  | .stepping => ⟨0x000008, 0x8, 1, 1⟩
  | .ready => ⟨0x000010, 0x8, 1, 1⟩
  | .lcState => ⟨0x000018, 0x8, 1, 1⟩
  | .gstat => ⟨0x000020, 0x8, 1, 1⟩
  | .unitId => ⟨0x000040, 0x8, 2, 1⟩
  | .disabledMap => ⟨0x000080, 0x8, 8, 1⟩
  | .heartbeat => ⟨0x0000c0, 0x8, 1, 1⟩
  | .ownClaim => ⟨0x001000, 0x8, 1, 1⟩
  | .ownStatus => ⟨0x001008, 0x8, 1, 1⟩
  | .ownEpoch => ⟨0x001010, 0x8, 1, 1⟩
  | .ownHandover => ⟨0x001018, 0x8, 1, 1⟩
  | .ownNonce0 => ⟨0x001020, 0x8, 1, 1⟩
  | .ownNonce1 => ⟨0x001028, 0x8, 1, 1⟩
  | .ownErr => ⟨0x001030, 0x8, 1, 1⟩
  | .ownHdigest => ⟨0x001040, 0x8, 6, 1⟩
  | .ownClaimdata => ⟨0x002000, 0x8, 1024, 1⟩
  | .clkStat => ⟨0x010000, 0x8, 1, 1⟩
  | .rstCtl => ⟨0x010008, 0x8, 1, 1⟩
  | .pwrRamp => ⟨0x010010, 0x8, 1, 1⟩
  | .margin => ⟨0x010100, 0x8, 68, 1⟩
  | .cfgShadowBase => ⟨0x020000, 0x8, 1, 1⟩
  | .cfgLoad => ⟨0x020008, 0x8, 1, 1⟩
  | .cfgStatus => ⟨0x020010, 0x8, 1, 1⟩
  | .cfgSwap => ⟨0x020018, 0x8, 1, 1⟩
  | .cfgActiveVer => ⟨0x020020, 0x8, 1, 1⟩
  | .cfgShadowVer => ⟨0x020028, 0x8, 1, 1⟩
  | .cfgRatchet => ⟨0x020030, 0x8, 1, 1⟩
  | .cfgErr => ⟨0x020038, 0x8, 1, 1⟩
  | .cfgHash => ⟨0x020040, 0x8, 6, 1⟩
  | .laneCtl => ⟨0x100000, 0x1000, 44, 1⟩
  | .laneStat => ⟨0x100008, 0x1000, 44, 1⟩
  | .laneErr => ⟨0x100010, 0x1000, 44, 1⟩
  | .laneBist => ⟨0x100018, 0x1000, 44, 1⟩
  | .portCtl => ⟨0x140000, 0x1000, 40, 1⟩
  | .portStat => ⟨0x140008, 0x1000, 40, 1⟩
  | .portErr => ⟨0x140010, 0x1000, 40, 1⟩
  | .portBist => ⟨0x140018, 0x1000, 40, 1⟩
  | .fabCtl => ⟨0x180000, 0x8, 1, 1⟩
  | .fabGrant => ⟨0x180008, 0x8, 1, 1⟩
  | .fabActrSel => ⟨0x180010, 0x8, 1, 1⟩
  | .fabActrVal => ⟨0x180018, 0x8, 1, 1⟩
  | .fabStat => ⟨0x180020, 0x8, 1, 1⟩
  | .fabErr => ⟨0x180028, 0x8, 1, 1⟩
  | .keySel => ⟨0x200000, 0x8, 1, 1⟩
  | .keyCmd => ⟨0x200008, 0x8, 1, 1⟩
  | .keyStat => ⟨0x200010, 0x8, 1, 1⟩
  | .keyUsage => ⟨0x200018, 0x8, 1, 1⟩
  | .keyLimit => ⟨0x200020, 0x8, 1, 1⟩
  | .keyGlobal => ⟨0x200028, 0x8, 1, 1⟩
  | .keyEpoch => ⟨0x200030, 0x8, 1, 1⟩
  | .keyLedger => ⟨0x200038, 0x8, 1, 1⟩
  | .keyErr => ⟨0x200040, 0x8, 1, 1⟩
  | .keyCell => ⟨0x200048, 0x8, 1, 1⟩
  | .rgnSel => ⟨0x280000, 0x8, 1, 1⟩
  | .rgnErr => ⟨0x280008, 0x8, 1, 1⟩
  | .rgnEpsrc => ⟨0x280010, 0x8, 1, 1⟩
  | .rgnTspan => ⟨0x280018, 0x8, 1, 1⟩
  | .rgnMeta => ⟨0x280020, 0x8, 1, 1⟩
  | .rgnDesc0 => ⟨0x280080, 0x8, 1, 1⟩
  | .rgnDesc1 => ⟨0x280088, 0x8, 1, 1⟩
  | .rgnDesc2 => ⟨0x280090, 0x8, 1, 1⟩
  | .rgnDesc3 => ⟨0x280098, 0x8, 1, 1⟩
  | .rgnDesc4 => ⟨0x2800a0, 0x8, 1, 1⟩
  | .rgnDesc5 => ⟨0x2800a8, 0x8, 1, 1⟩
  | .rgnDesc6 => ⟨0x2800b0, 0x8, 1, 1⟩
  | .rgnDesc7 => ⟨0x2800b8, 0x8, 1, 1⟩
  | .rgnDesc8 => ⟨0x2800c0, 0x8, 1, 1⟩
  | .rgnDesc9 => ⟨0x2800c8, 0x8, 1, 1⟩
  | .rgnDesc10 => ⟨0x2800d0, 0x8, 1, 1⟩
  | .rgnDesc11 => ⟨0x2800d8, 0x8, 1, 1⟩
  | .rgnDesc12 => ⟨0x2800e0, 0x8, 1, 1⟩
  | .rgnDesc13 => ⟨0x2800e8, 0x8, 1, 1⟩
  | .rgnDesc14 => ⟨0x2800f0, 0x8, 1, 1⟩
  | .rgnDesc15 => ⟨0x2800f8, 0x8, 1, 1⟩
  | .hrwCtl => ⟨0x300000, 0x8, 1, 1⟩
  | .hrwHeadland => ⟨0x300008, 0x8, 1, 1⟩
  | .hrwStat => ⟨0x300010, 0x8, 1, 1⟩
  | .hrwShare => ⟨0x300018, 0x8, 1, 1⟩
  | .hrwJob => ⟨0x300020, 0x8, 1, 1⟩
  | .hrwTurn => ⟨0x300028, 0x8, 1, 1⟩
  | .hrwErr => ⟨0x300030, 0x8, 1, 1⟩
  | .hrwTurnbase => ⟨0x300038, 0x8, 1, 1⟩
  | .svcQbase => ⟨0x340000, 0x200, 256, 1⟩
  | .svcQcbase => ⟨0x340008, 0x200, 256, 1⟩
  | .svcQcfg => ⟨0x340010, 0x200, 256, 1⟩
  | .svcQtimeout => ⟨0x340018, 0x200, 256, 1⟩
  | .svcQdoorbell => ⟨0x340020, 0x200, 256, 1⟩
  | .svcQstat => ⟨0x340028, 0x200, 256, 1⟩
  | .svcQerr => ⟨0x340030, 0x200, 256, 1⟩
  | .scuStat => ⟨0x360000, 0x8, 1, 1⟩
  | .scuErr => ⟨0x360008, 0x8, 1, 1⟩
  | .pkuStat => ⟨0x360010, 0x8, 1, 1⟩
  | .drillSel => ⟨0x360018, 0x8, 1, 1⟩
  | .drillDigest => ⟨0x360020, 0x8, 6, 1⟩
  | .stvCtl => ⟨0x380000, 0x8, 1, 1⟩
  | .stvArg => ⟨0x380008, 0x8, 1, 1⟩
  | .stvStat => ⟨0x380010, 0x8, 1, 1⟩
  | .stvProgress => ⟨0x380018, 0x8, 1, 1⟩
  | .stvCtx => ⟨0x380020, 0x8, 1, 1⟩
  | .stvCount => ⟨0x380028, 0x8, 1, 1⟩
  | .stvDigest => ⟨0x380040, 0x8, 6, 1⟩
  | .stvErr => ⟨0x380070, 0x8, 1, 1⟩
  | .stvBist => ⟨0x380078, 0x8, 1, 1⟩
  | .stvAcc => ⟨0x381000, 0x8, 512, 1⟩
  | .watchCtl => ⟨0x382000, 0x8, 1, 1⟩
  | .watchCfg => ⟨0x382008, 0x8, 1, 1⟩
  | .watchThresh => ⟨0x382010, 0x8, 1, 1⟩
  | .watchStat => ⟨0x382018, 0x8, 1, 1⟩
  | .watchEvt => ⟨0x382020, 0x8, 1, 1⟩
  | .watchErr => ⟨0x382028, 0x8, 1, 1⟩
  | .watchRes => ⟨0x382080, 0x8, 16, 1⟩
  | .tokCtl => ⟨0x383000, 0x8, 1, 1⟩
  | .tokArg => ⟨0x383008, 0x8, 1, 1⟩
  | .tokId0 => ⟨0x383010, 0x8, 1, 1⟩
  | .tokId1 => ⟨0x383018, 0x8, 1, 1⟩
  | .tokStat => ⟨0x383020, 0x8, 1, 1⟩
  | .tokChain => ⟨0x383040, 0x8, 6, 1⟩
  | .shfCtl => ⟨0x384000, 0x8, 1, 1⟩
  | .shfStat => ⟨0x384008, 0x8, 1, 1⟩
  | .shfSeq => ⟨0x384010, 0x8, 1, 1⟩
  | .shfNonce => ⟨0x384018, 0x8, 1, 1⟩
  | .shfErr => ⟨0x384020, 0x8, 1, 1⟩
  | .partCtl => ⟨0x3c0000, 0x400, 64, 1⟩
  | .partStat => ⟨0x3c0008, 0x400, 64, 1⟩
  | .partWeight => ⟨0x3c0010, 0x400, 64, 1⟩
  | .partRate => ⟨0x3c0018, 0x400, 64, 1⟩
  | .partDirtyBase => ⟨0x3c0020, 0x400, 64, 1⟩
  | .partHost => ⟨0x3c0028, 0x400, 64, 1⟩
  | .partHwinBase => ⟨0x3c0030, 0x400, 64, 1⟩
  | .partHwinSize => ⟨0x3c0038, 0x400, 64, 1⟩
  | .partCarve => ⟨0x3c0040, 0x400, 64, 1⟩
  | .partErr => ⟨0x3c0048, 0x400, 64, 1⟩
  | .hostCtl => ⟨0x400000, 0x8, 1, 1⟩
  | .hostStat => ⟨0x400008, 0x8, 1, 1⟩
  | .hostErr => ⟨0x400010, 0x8, 1, 1⟩
  | .hostKeywarn => ⟨0x400018, 0x8, 1, 1⟩
  | .hostProgress => ⟨0x400020, 0x8, 1, 1⟩
  | .hostQpasid => ⟨0x401000, 0x8, 256, 1⟩
  | .hostBcfg => ⟨0x402000, 0x40, 128, 1⟩
  | .hostBring => ⟨0x402008, 0x40, 128, 1⟩
  | .hostBdoorbell => ⟨0x402010, 0x40, 128, 1⟩
  | .hostBstat => ⟨0x402018, 0x40, 128, 1⟩
  | .hostMboxCtl => ⟨0x410000, 0x800, 65, 1⟩
  | .hostMboxSess => ⟨0x410008, 0x800, 65, 1⟩
  | .hostMboxData => ⟨0x410400, 0x800, 65, 128⟩
  | .pairCtl => ⟨0x440000, 0x8, 1, 1⟩
  | .pairStat => ⟨0x440008, 0x8, 1, 1⟩
  | .pairEpoch => ⟨0x440010, 0x8, 1, 1⟩
  | .pairCell => ⟨0x440018, 0x8, 1, 1⟩
  | .pairAck => ⟨0x440020, 0x8, 1, 1⟩
  | .pairErr => ⟨0x440028, 0x8, 1, 1⟩
  | .domCtl => ⟨0x480000, 0x8, 1, 1⟩
  | .domStat => ⟨0x480008, 0x8, 1, 1⟩
  | .domEpoch => ⟨0x480010, 0x8, 1, 1⟩
  | .domSeat => ⟨0x480018, 0x8, 1, 1⟩
  | .domLease => ⟨0x480020, 0x8, 1, 1⟩
  | .domTime => ⟨0x480028, 0x8, 1, 1⟩
  | .domId0 => ⟨0x480030, 0x8, 1, 1⟩
  | .domId1 => ⟨0x480038, 0x8, 1, 1⟩
  | .domMboxCtl => ⟨0x480040, 0x8, 1, 1⟩
  | .domErr => ⟨0x480048, 0x8, 1, 1⟩
  | .domMbox => ⟨0x481000, 0x8, 1024, 1⟩
  | .fltCtl => ⟨0x4c0000, 0x8, 1, 1⟩
  | .fltPending => ⟨0x4c0008, 0x8, 1, 1⟩
  | .fltIrq => ⟨0x4c0010, 0x8, 1, 1⟩
  | .fltAbort => ⟨0x4c0018, 0x8, 1, 1⟩
  | .fltReset => ⟨0x4c0020, 0x8, 1, 1⟩
  | .fltHedge => ⟨0x4c0028, 0x8, 1, 1⟩
  | .fltWinnow => ⟨0x4c0030, 0x8, 1, 1⟩
  | .fltUnit => ⟨0x4c0038, 0x8, 1, 1⟩
  | .fltInject => ⟨0x4c0040, 0x8, 1, 1⟩
  | .fltInjarg => ⟨0x4c0048, 0x8, 1, 1⟩
  | .fltRehearsal => ⟨0x4c0050, 0x8, 1, 1⟩
  | .fltErr => ⟨0x4c0058, 0x8, 1, 1⟩
  | .glnCtl => ⟨0x4c0100, 0x8, 1, 1⟩
  | .glnStat => ⟨0x4c0108, 0x8, 1, 1⟩
  | .glnArg => ⟨0x4c0110, 0x8, 1, 1⟩
  | .glnEntry => ⟨0x4c8000, 0x8, 16384, 1⟩
  | .obsStat => ⟨0x500000, 0x8, 1, 1⟩
  | .obsClasses => ⟨0x500008, 0x8, 1, 1⟩
  | .obsErr => ⟨0x500010, 0x8, 1, 1⟩
  | .obsCnt => ⟨0x501000, 0x8, 512, 1⟩
  | .obsMboxCtl => ⟨0x502000, 0x8, 1, 1⟩
  | .obsMbox => ⟨0x504000, 0x8, 1024, 1⟩
  | .otpCtl => ⟨0x600000, 0x8, 1, 1⟩
  | .otpData => ⟨0x600008, 0x8, 1, 1⟩
  | .otpStat => ⟨0x600010, 0x8, 1, 1⟩
  | .otpErr => ⟨0x600018, 0x8, 1, 1⟩
  | .lcCtl => ⟨0x600100, 0x8, 1, 1⟩
  | .lcNonce0 => ⟨0x600108, 0x8, 1, 1⟩
  | .lcNonce1 => ⟨0x600110, 0x8, 1, 1⟩
  | .lcInfo => ⟨0x600118, 0x8, 1, 1⟩
  | .fwuCtl => ⟨0x600200, 0x8, 1, 1⟩
  | .fwuArg => ⟨0x600208, 0x8, 1, 1⟩
  | .fwuStat => ⟨0x600210, 0x8, 1, 1⟩
  | .fwuVer => ⟨0x600218, 0x8, 1, 1⟩
  | .fwuCur => ⟨0x600240, 0x8, 6, 1⟩
  | .fwuNext => ⟨0x600280, 0x8, 6, 1⟩
  | .lcMbox => ⟨0x604000, 0x8, 1528, 1⟩

/-- One field of a register: its lowest bit, its width, its access code and its reset value. -/
structure Fld where
  reg : Reg
  lo : Nat
  width : Nat
  acc : AccCode
  rst : Nat
  deriving DecidableEq, Repr

namespace F
def id_BLOCK : Fld := ⟨.id, 0, 16, .ro, 0x4c5a⟩
def id_MAP : Fld := ⟨.id, 16, 8, .ro, 0x1⟩
def id_STAVUB : Fld := ⟨.id, 24, 8, .ro, 0x1⟩
def stepping_METAL : Fld := ⟨.stepping, 0, 8, .ro, 0x0⟩
def stepping_BASE : Fld := ⟨.stepping, 8, 8, .ro, 0x1⟩
def stepping_DIE : Fld := ⟨.stepping, 16, 16, .ro, 0xf46⟩
def ready_READY : Fld := ⟨.ready, 0, 1, .ro, 0x0⟩
def ready_PHASE : Fld := ⟨.ready, 1, 4, .ro, 0x0⟩
def ready_FAIL : Fld := ⟨.ready, 8, 4, .ro, 0x0⟩
def ready_WARM : Fld := ⟨.ready, 12, 1, .ro, 0x0⟩
def ready_RESTORED : Fld := ⟨.ready, 13, 1, .ro, 0x0⟩
def lcState_CODE : Fld := ⟨.lcState, 0, 32, .ro, 0xffffffff⟩
def lcState_STATE : Fld := ⟨.lcState, 32, 2, .ro, 0x3⟩
def gstat_NONOWNER : Fld := ⟨.gstat, 0, 12, .rc, 0x0⟩
def gstat_UNMAPPED : Fld := ⟨.gstat, 12, 12, .rc, 0x0⟩
def gstat_BAD_ACCESS : Fld := ⟨.gstat, 24, 12, .rc, 0x0⟩
def gstat_MALFORMED : Fld := ⟨.gstat, 36, 12, .rc, 0x0⟩
def gstat_SCRUB_SPURIOUS : Fld := ⟨.gstat, 48, 8, .rc, 0x0⟩
def unitId_ID : Fld := ⟨.unitId, 0, 64, .ro, 0x0⟩
def disabledMap_MAP : Fld := ⟨.disabledMap, 0, 64, .ro, 0x0⟩
def heartbeat_COUNT : Fld := ⟨.heartbeat, 0, 64, .ro, 0x0⟩
def ownClaim_POST : Fld := ⟨.ownClaim, 0, 1, .any, 0x0⟩
def ownClaim_BUSY : Fld := ⟨.ownClaim, 1, 1, .ro, 0x0⟩
def ownClaim_RESULT : Fld := ⟨.ownClaim, 2, 4, .ro, 0x0⟩
def ownStatus_OWNER : Fld := ⟨.ownStatus, 0, 3, .ro, 0x0⟩
def ownStatus_DELEGATED : Fld := ⟨.ownStatus, 3, 1, .ro, 0x0⟩
def ownStatus_HANDOVER : Fld := ⟨.ownStatus, 4, 2, .ro, 0x0⟩
def ownStatus_SUCCESSOR : Fld := ⟨.ownStatus, 6, 3, .ro, 0x0⟩
def ownStatus_SELF : Fld := ⟨.ownStatus, 9, 3, .ro, 0x0⟩
def ownStatus_AUTH_SET : Fld := ⟨.ownStatus, 12, 1, .ro, 0x0⟩
def ownEpoch_EPOCH : Fld := ⟨.ownEpoch, 0, 48, .ro, 0x0⟩
def ownHandover_SUCCESSOR : Fld := ⟨.ownHandover, 0, 3, .rw, 0x0⟩
def ownHandover_GO : Fld := ⟨.ownHandover, 3, 1, .w1s, 0x0⟩
def ownHandover_CANCEL : Fld := ⟨.ownHandover, 4, 1, .w1s, 0x0⟩
def ownNonce0_NONCE : Fld := ⟨.ownNonce0, 0, 64, .ro, 0x0⟩
def ownNonce1_NONCE : Fld := ⟨.ownNonce1, 0, 64, .ro, 0x0⟩
def ownErr_INVALID : Fld := ⟨.ownErr, 0, 16, .rc, 0x0⟩
def ownErr_LOST : Fld := ⟨.ownErr, 16, 16, .rc, 0x0⟩
def ownErr_HANDOVER_LAPSED : Fld := ⟨.ownErr, 32, 16, .rc, 0x0⟩
def ownErr_REG_ERR : Fld := ⟨.ownErr, 48, 16, .rc, 0x0⟩
def ownHdigest_BYTES : Fld := ⟨.ownHdigest, 0, 64, .rw, 0x0⟩
def ownClaimdata_DATA : Fld := ⟨.ownClaimdata, 0, 64, .any, 0x0⟩
def clkStat_PLL_LOCK : Fld := ⟨.clkStat, 0, 1, .ro, 0x0⟩
def clkStat_REF_OK : Fld := ⟨.clkStat, 1, 1, .ro, 0x0⟩
def clkStat_SLEW : Fld := ⟨.clkStat, 2, 2, .ro, 0x0⟩
def clkStat_LOCK_LOSS : Fld := ⟨.clkStat, 16, 16, .rc, 0x0⟩
def rstCtl_CAUSE : Fld := ⟨.rstCtl, 0, 2, .ro, 0x0⟩
def rstCtl_SETTLE_ABANDONED : Fld := ⟨.rstCtl, 2, 1, .ro, 0x0⟩
def rstCtl_WARM_COUNT : Fld := ⟨.rstCtl, 16, 16, .ro, 0x0⟩
def pwrRamp_RAMP : Fld := ⟨.pwrRamp, 0, 14, .rw, 0x14⟩
def pwrRamp_THROTTLING : Fld := ⟨.pwrRamp, 14, 1, .ro, 0x0⟩
def pwrRamp_DELAYED : Fld := ⟨.pwrRamp, 32, 16, .rc, 0x0⟩
def margin_CUR_A : Fld := ⟨.margin, 0, 8, .ro, 0x0⟩
def margin_CUR_B : Fld := ⟨.margin, 8, 8, .ro, 0x0⟩
def margin_MIN_A : Fld := ⟨.margin, 16, 8, .rc, 0xff⟩
def margin_MIN_B : Fld := ⟨.margin, 24, 8, .rc, 0xff⟩
def margin_THRESH_A : Fld := ⟨.margin, 32, 8, .rw, 0x0⟩
def margin_THRESH_B : Fld := ⟨.margin, 40, 8, .rw, 0x0⟩
def margin_VALID : Fld := ⟨.margin, 48, 1, .ro, 0x0⟩
def cfgShadowBase_LOC : Fld := ⟨.cfgShadowBase, 0, 2, .rw, 0x0⟩
def cfgShadowBase_ADDR : Fld := ⟨.cfgShadowBase, 6, 34, .rw, 0x0⟩
def cfgLoad_GO : Fld := ⟨.cfgLoad, 0, 1, .w1s, 0x0⟩
def cfgLoad_DISCARD : Fld := ⟨.cfgLoad, 1, 1, .w1s, 0x0⟩
def cfgStatus_SHADOW : Fld := ⟨.cfgStatus, 0, 3, .ro, 0x0⟩
def cfgStatus_LOAD_RESULT : Fld := ⟨.cfgStatus, 3, 4, .ro, 0x0⟩
def cfgStatus_SWAP_RESULT : Fld := ⟨.cfgStatus, 7, 4, .ro, 0x0⟩
def cfgStatus_FAIL_PLOT : Fld := ⟨.cfgStatus, 11, 4, .ro, 0x0⟩
def cfgStatus_FAIL_OFFSET : Fld := ⟨.cfgStatus, 16, 20, .ro, 0x0⟩
def cfgSwap_GO : Fld := ⟨.cfgSwap, 0, 1, .w1s, 0x0⟩
def cfgSwap_PERSIST : Fld := ⟨.cfgSwap, 1, 1, .rw, 0x0⟩
def cfgActiveVer_VERSION : Fld := ⟨.cfgActiveVer, 0, 63, .ro, 0x0⟩
def cfgShadowVer_VERSION : Fld := ⟨.cfgShadowVer, 0, 63, .ro, 0x0⟩
def cfgRatchet_RATCHET : Fld := ⟨.cfgRatchet, 0, 63, .ro, 0x0⟩
def cfgErr_LOAD_FAIL : Fld := ⟨.cfgErr, 0, 16, .rc, 0x0⟩
def cfgErr_SWAP_FAIL : Fld := ⟨.cfgErr, 16, 16, .rc, 0x0⟩
def cfgErr_PERSIST_FAIL : Fld := ⟨.cfgErr, 32, 16, .rc, 0x0⟩
def cfgErr_REG_ERR : Fld := ⟨.cfgErr, 48, 16, .rc, 0x0⟩
def cfgHash_BYTES : Fld := ⟨.cfgHash, 0, 64, .ro, 0x0⟩
def laneCtl_GROUP : Fld := ⟨.laneCtl, 0, 6, .ro, 0x0⟩
def laneCtl_ROLE : Fld := ⟨.laneCtl, 6, 2, .ro, 0x0⟩
def laneCtl_POISON_EVT : Fld := ⟨.laneCtl, 8, 1, .rw, 0x1⟩
def laneCtl_REREAD_EVT : Fld := ⟨.laneCtl, 9, 1, .rw, 0x0⟩
def laneCtl_HOLD_EVT : Fld := ⟨.laneCtl, 10, 1, .rw, 0x0⟩
def laneStat_QUEUED : Fld := ⟨.laneStat, 0, 11, .ro, 0x0⟩
def laneStat_PAGE_LOCK : Fld := ⟨.laneStat, 11, 1, .ro, 0x0⟩
def laneStat_MAINT_ACTIVE : Fld := ⟨.laneStat, 12, 1, .ro, 0x0⟩
def laneStat_HOLD_LINES : Fld := ⟨.laneStat, 13, 9, .ro, 0x0⟩
def laneStat_WBUF_LINES : Fld := ⟨.laneStat, 22, 10, .ro, 0x0⟩
def laneStat_PROGRESS : Fld := ⟨.laneStat, 32, 32, .ro, 0x0⟩
def laneErr_POISON : Fld := ⟨.laneErr, 0, 16, .rc, 0x0⟩
def laneErr_REREAD_OK : Fld := ⟨.laneErr, 16, 16, .rc, 0x0⟩
def laneErr_REFUSED : Fld := ⟨.laneErr, 32, 16, .rc, 0x0⟩
def laneErr_REG_ERR : Fld := ⟨.laneErr, 48, 16, .rc, 0x0⟩
def laneBist_START : Fld := ⟨.laneBist, 0, 1, .w1s, 0x0⟩
def laneBist_SWAP : Fld := ⟨.laneBist, 1, 1, .w1s, 0x0⟩
def laneBist_RETURN : Fld := ⟨.laneBist, 2, 1, .w1s, 0x0⟩
def laneBist_SPARE : Fld := ⟨.laneBist, 8, 6, .rw, 0x28⟩
def laneBist_RESULT : Fld := ⟨.laneBist, 16, 3, .ro, 0x0⟩
def laneBist_FAIL_STAGE : Fld := ⟨.laneBist, 24, 8, .ro, 0x0⟩
def portCtl_ATT : Fld := ⟨.portCtl, 0, 6, .ro, 0x0⟩
def portCtl_ROLE : Fld := ⟨.portCtl, 6, 3, .ro, 0x0⟩
def portCtl_TAG_EVT : Fld := ⟨.portCtl, 9, 1, .rw, 0x1⟩
def portCtl_BREAK_EVT : Fld := ⟨.portCtl, 10, 1, .rw, 0x1⟩
def portStat_LINK_UP : Fld := ⟨.portStat, 0, 1, .ro, 0x0⟩
def portStat_FLOWS : Fld := ⟨.portStat, 1, 15, .ro, 0x0⟩
def portStat_RX_BUF : Fld := ⟨.portStat, 16, 3, .ro, 0x0⟩
def portStat_PROGRESS : Fld := ⟨.portStat, 32, 32, .ro, 0x0⟩
def portErr_TAG_FAIL : Fld := ⟨.portErr, 0, 12, .rc, 0x0⟩
def portErr_LINK_BAD : Fld := ⟨.portErr, 12, 12, .rc, 0x0⟩
def portErr_DUP_DROP : Fld := ⟨.portErr, 24, 12, .rc, 0x0⟩
def portErr_REFUSED : Fld := ⟨.portErr, 36, 12, .rc, 0x0⟩
def portErr_GAP : Fld := ⟨.portErr, 48, 8, .rc, 0x0⟩
def portErr_REG_ERR : Fld := ⟨.portErr, 56, 8, .rc, 0x0⟩
def portBist_START : Fld := ⟨.portBist, 0, 1, .w1s, 0x0⟩
def portBist_SWAP : Fld := ⟨.portBist, 1, 1, .w1s, 0x0⟩
def portBist_RETURN : Fld := ⟨.portBist, 2, 1, .w1s, 0x0⟩
def portBist_SPARE : Fld := ⟨.portBist, 8, 6, .rw, 0x24⟩
def portBist_RESULT : Fld := ⟨.portBist, 16, 3, .ro, 0x0⟩
def portBist_FAIL_STAGE : Fld := ⟨.portBist, 24, 8, .ro, 0x0⟩
def fabCtl_RSP_TO : Fld := ⟨.fabCtl, 0, 14, .rw, 0x64⟩
def fabCtl_PACK : Fld := ⟨.fabCtl, 14, 5, .rw, 0x10⟩
def fabCtl_IDLE_MS : Fld := ⟨.fabCtl, 19, 17, .rw, 0x64⟩
def fabGrant_CAPIDX : Fld := ⟨.fabGrant, 0, 16, .rw, 0x0⟩
def fabGrant_HOLDER : Fld := ⟨.fabGrant, 16, 16, .rw, 0x0⟩
def fabGrant_HPART : Fld := ⟨.fabGrant, 32, 6, .rw, 0x0⟩
def fabGrant_RIGHTS : Fld := ⟨.fabGrant, 38, 2, .rw, 0x0⟩
def fabGrant_CMD : Fld := ⟨.fabGrant, 40, 4, .wo, 0x0⟩
def fabGrant_RESULT : Fld := ⟨.fabGrant, 44, 4, .ro, 0x0⟩
def fabGrant_BUSY : Fld := ⟨.fabGrant, 48, 1, .ro, 0x0⟩
def fabActrSel_INDEX : Fld := ⟨.fabActrSel, 0, 12, .rw, 0x0⟩
def fabActrSel_CMD : Fld := ⟨.fabActrSel, 12, 4, .wo, 0x0⟩
def fabActrSel_PART : Fld := ⟨.fabActrSel, 16, 6, .rw, 0x0⟩
def fabActrSel_RESULT : Fld := ⟨.fabActrSel, 22, 4, .ro, 0x0⟩
def fabActrSel_BUSY : Fld := ⟨.fabActrSel, 26, 1, .ro, 0x0⟩
def fabActrSel_VALID : Fld := ⟨.fabActrSel, 27, 1, .ro, 0x0⟩
def fabActrSel_ARMED : Fld := ⟨.fabActrSel, 28, 1, .ro, 0x0⟩
def fabActrSel_ERR : Fld := ⟨.fabActrSel, 29, 1, .ro, 0x0⟩
def fabActrVal_COUNT : Fld := ⟨.fabActrVal, 0, 32, .ro, 0x0⟩
def fabActrVal_TARGET : Fld := ⟨.fabActrVal, 32, 32, .rw, 0x0⟩
def fabStat_TX_FLOWS : Fld := ⟨.fabStat, 0, 14, .ro, 0x0⟩
def fabStat_RX_FLOWS : Fld := ⟨.fabStat, 14, 14, .ro, 0x0⟩
def fabStat_CAPMAP_USED : Fld := ⟨.fabStat, 28, 13, .ro, 0x0⟩
def fabStat_FLAGS_WAITING : Fld := ⟨.fabStat, 41, 9, .ro, 0x0⟩
def fabErr_BAD_HDR : Fld := ⟨.fabErr, 0, 16, .rc, 0x0⟩
def fabErr_CAP_FAIL : Fld := ⟨.fabErr, 16, 16, .rc, 0x0⟩
def fabErr_RSP_TIMEOUT : Fld := ⟨.fabErr, 32, 16, .rc, 0x0⟩
def fabErr_REG_ERR : Fld := ⟨.fabErr, 48, 16, .rc, 0x0⟩
def keySel_SLOT : Fld := ⟨.keySel, 0, 16, .rw, 0x0⟩
def keySel_KIND : Fld := ⟨.keySel, 16, 3, .rw, 0x0⟩
def keySel_EXP : Fld := ⟨.keySel, 24, 6, .rw, 0x0⟩
def keySel_ARG : Fld := ⟨.keySel, 32, 16, .rw, 0x0⟩
def keyCmd_CMD : Fld := ⟨.keyCmd, 0, 4, .wo, 0x0⟩
def keyCmd_RESULT : Fld := ⟨.keyCmd, 4, 4, .ro, 0x0⟩
def keyCmd_BUSY : Fld := ⟨.keyCmd, 8, 1, .ro, 0x0⟩
def keyStat_KIND : Fld := ⟨.keyStat, 0, 3, .ro, 0x0⟩
def keyStat_ORIGIN : Fld := ⟨.keyStat, 3, 3, .ro, 0x0⟩
def keyStat_NOEXPORT : Fld := ⟨.keyStat, 6, 1, .ro, 0x0⟩
def keyStat_CACHED : Fld := ⟨.keyStat, 7, 1, .ro, 0x0⟩
def keyStat_PINNED : Fld := ⟨.keyStat, 8, 1, .ro, 0x0⟩
def keyStat_FAILED : Fld := ⟨.keyStat, 9, 1, .ro, 0x0⟩
def keyStat_SUCC : Fld := ⟨.keyStat, 16, 16, .ro, 0x0⟩
def keyStat_REFCOUNT : Fld := ⟨.keyStat, 32, 32, .ro, 0x0⟩
def keyUsage_COUNT : Fld := ⟨.keyUsage, 0, 49, .ro, 0x0⟩
def keyLimit_LIMIT : Fld := ⟨.keyLimit, 0, 49, .ro, 0x0⟩
def keyGlobal_SLOTS_USED : Fld := ⟨.keyGlobal, 0, 17, .ro, 0x0⟩
def keyGlobal_ROWS_PINNED : Fld := ⟨.keyGlobal, 17, 13, .ro, 0x0⟩
def keyGlobal_SPARE_ROWS_USED : Fld := ⟨.keyGlobal, 30, 9, .ro, 0x0⟩
def keyGlobal_ES_FAIL : Fld := ⟨.keyGlobal, 39, 1, .ro, 0x0⟩
def keyGlobal_DRBG_READY : Fld := ⟨.keyGlobal, 40, 1, .ro, 0x0⟩
def keyGlobal_NOSUCC_WAIT : Fld := ⟨.keyGlobal, 41, 1, .ro, 0x0⟩
def keyGlobal_PIN_DENIED : Fld := ⟨.keyGlobal, 42, 16, .rc, 0x0⟩
def keyEpoch_COUNT : Fld := ⟨.keyEpoch, 0, 64, .ro, 0x0⟩
def keyLedger_GENERATION : Fld := ⟨.keyLedger, 0, 32, .ro, 0x0⟩
def keyLedger_COPY : Fld := ⟨.keyLedger, 32, 1, .ro, 0x0⟩
def keyLedger_REWRAP : Fld := ⟨.keyLedger, 33, 1, .ro, 0x0⟩
def keyErr_REFUSED_CMD : Fld := ⟨.keyErr, 0, 16, .rc, 0x0⟩
def keyErr_ES_HEALTH : Fld := ⟨.keyErr, 16, 16, .rc, 0x0⟩
def keyErr_LEDGER_FAIL : Fld := ⟨.keyErr, 32, 16, .rc, 0x0⟩
def keyErr_REG_ERR : Fld := ⟨.keyErr, 48, 16, .rc, 0x0⟩
def keyCell_CELL : Fld := ⟨.keyCell, 0, 32, .rw, 0x0⟩
def rgnSel_INDEX : Fld := ⟨.rgnSel, 0, 14, .rw, 0x0⟩
def rgnSel_CMD : Fld := ⟨.rgnSel, 16, 4, .wo, 0x0⟩
def rgnSel_RESULT : Fld := ⟨.rgnSel, 24, 4, .ro, 0x0⟩
def rgnSel_BUSY : Fld := ⟨.rgnSel, 28, 1, .ro, 0x0⟩
def rgnErr_CMD_REFUSED : Fld := ⟨.rgnErr, 0, 32, .rc, 0x0⟩
def rgnErr_REG_ERR : Fld := ⟨.rgnErr, 32, 32, .rc, 0x0⟩
def rgnEpsrc_NEXT : Fld := ⟨.rgnEpsrc, 0, 64, .ro, 0x1⟩
def rgnTspan_BASE : Fld := ⟨.rgnTspan, 0, 18, .ro, 0x0⟩
def rgnTspan_COUNT : Fld := ⟨.rgnTspan, 18, 18, .ro, 0x0⟩
def rgnMeta_BASE : Fld := ⟨.rgnMeta, 0, 18, .ro, 0x0⟩
def rgnMeta_COUNT : Fld := ⟨.rgnMeta, 18, 18, .ro, 0x0⟩
def rgnMeta_RADIO_META : Fld := ⟨.rgnMeta, 36, 7, .ro, 0x0⟩
def rgnDesc0_KIND : Fld := ⟨.rgnDesc0, 0, 2, .rw, 0x0⟩
def rgnDesc0_STATE : Fld := ⟨.rgnDesc0, 2, 3, .ro, 0x0⟩
def rgnDesc0_RADIO : Fld := ⟨.rgnDesc0, 5, 1, .rw, 0x0⟩
def rgnDesc0_HARROW : Fld := ⟨.rgnDesc0, 6, 1, .ro, 0x0⟩
def rgnDesc0_PART : Fld := ⟨.rgnDesc0, 8, 6, .rw, 0x0⟩
def rgnDesc0_KIDX : Fld := ⟨.rgnDesc0, 16, 16, .rw, 0x0⟩
def rgnDesc0_KIDX_NEXT : Fld := ⟨.rgnDesc0, 32, 16, .ro, 0x0⟩
def rgnDesc0_WSLOT : Fld := ⟨.rgnDesc0, 48, 13, .ro, 0x0⟩
def rgnDesc0_WVALID : Fld := ⟨.rgnDesc0, 61, 1, .ro, 0x0⟩
def rgnDesc1_BASE : Fld := ⟨.rgnDesc1, 0, 18, .rw, 0x0⟩
def rgnDesc1_COUNT : Fld := ⟨.rgnDesc1, 18, 18, .rw, 0x0⟩
def rgnDesc1_PERM : Fld := ⟨.rgnDesc1, 36, 4, .rw, 0x0⟩
def rgnDesc2_EPOCH : Fld := ⟨.rgnDesc2, 0, 64, .ro, 0x0⟩
def rgnDesc3_HWM : Fld := ⟨.rgnDesc3, 0, 34, .ro, 0x0⟩
def rgnDesc4_CAPIDX : Fld := ⟨.rgnDesc4, 0, 16, .rw, 0x0⟩
def rgnDesc4_SEAL_INCOMPLETE : Fld := ⟨.rgnDesc4, 32, 1, .ro, 0x0⟩
def rgnDesc5_ARG_ADDR : Fld := ⟨.rgnDesc5, 0, 40, .rw, 0x0⟩
def rgnDesc6_ARG_LINE : Fld := ⟨.rgnDesc6, 0, 34, .rw, 0x0⟩
def rgnDesc7_REFCOUNT : Fld := ⟨.rgnDesc7, 0, 32, .ro, 0x0⟩
def rgnDesc8_SEAL_DIGEST : Fld := ⟨.rgnDesc8, 0, 64, .ro, 0x0⟩
def rgnDesc9_SEAL_DIGEST : Fld := ⟨.rgnDesc9, 0, 64, .ro, 0x0⟩
def rgnDesc10_SEAL_DIGEST : Fld := ⟨.rgnDesc10, 0, 64, .ro, 0x0⟩
def rgnDesc11_SEAL_DIGEST : Fld := ⟨.rgnDesc11, 0, 64, .ro, 0x0⟩
def rgnDesc12_SEAL_DIGEST : Fld := ⟨.rgnDesc12, 0, 64, .ro, 0x0⟩
def rgnDesc13_SEAL_DIGEST : Fld := ⟨.rgnDesc13, 0, 64, .ro, 0x0⟩
def rgnDesc14_STAMP : Fld := ⟨.rgnDesc14, 0, 64, .ro, 0x0⟩
def hrwCtl_CMD : Fld := ⟨.hrwCtl, 0, 4, .wo, 0x0⟩
def hrwCtl_JOB : Fld := ⟨.hrwCtl, 4, 4, .rw, 0x0⟩
def hrwCtl_SCOPE : Fld := ⟨.hrwCtl, 8, 2, .rw, 0x0⟩
def hrwCtl_TARGET : Fld := ⟨.hrwCtl, 16, 16, .rw, 0x0⟩
def hrwCtl_NEW : Fld := ⟨.hrwCtl, 32, 16, .rw, 0x0⟩
def hrwCtl_RESULT : Fld := ⟨.hrwCtl, 48, 4, .ro, 0x0⟩
def hrwCtl_BUSY : Fld := ⟨.hrwCtl, 52, 1, .ro, 0x0⟩
def hrwHeadland_PAGE : Fld := ⟨.hrwHeadland, 0, 27, .ro, 0x0⟩
def hrwHeadland_IN_FLIGHT : Fld := ⟨.hrwHeadland, 27, 9, .ro, 0x0⟩
def hrwHeadland_MARK : Fld := ⟨.hrwHeadland, 36, 28, .ro, 0x0⟩
def hrwStat_RUNNING : Fld := ⟨.hrwStat, 0, 3, .ro, 0x0⟩
def hrwStat_QUEUED : Fld := ⟨.hrwStat, 3, 5, .ro, 0x0⟩
def hrwStat_RETAG : Fld := ⟨.hrwStat, 8, 4, .ro, 0x0⟩
def hrwStat_AUTO_WAIT : Fld := ⟨.hrwStat, 12, 1, .ro, 0x0⟩
def hrwStat_PROGRESS : Fld := ⟨.hrwStat, 32, 32, .ro, 0x0⟩
def hrwShare_SHARE : Fld := ⟨.hrwShare, 0, 10, .rw, 0x3c⟩
def hrwJob_STATE : Fld := ⟨.hrwJob, 0, 3, .ro, 0x0⟩
def hrwJob_SCOPE : Fld := ⟨.hrwJob, 3, 2, .ro, 0x0⟩
def hrwJob_AUTO : Fld := ⟨.hrwJob, 5, 1, .ro, 0x0⟩
def hrwJob_RADIO : Fld := ⟨.hrwJob, 6, 1, .ro, 0x0⟩
def hrwJob_OLD : Fld := ⟨.hrwJob, 8, 16, .ro, 0x0⟩
def hrwJob_NEW : Fld := ⟨.hrwJob, 24, 16, .ro, 0x0⟩
def hrwJob_REGION : Fld := ⟨.hrwJob, 40, 14, .ro, 0x0⟩
def hrwTurn_TIME : Fld := ⟨.hrwTurn, 0, 64, .rw, 0x0⟩
def hrwErr_REFUSED_CMD : Fld := ⟨.hrwErr, 0, 16, .rc, 0x0⟩
def hrwErr_EXHAUSTED_WR : Fld := ⟨.hrwErr, 16, 16, .rc, 0x0⟩
def hrwErr_MOVE_POISON : Fld := ⟨.hrwErr, 32, 16, .rc, 0x0⟩
def hrwErr_REG_ERR : Fld := ⟨.hrwErr, 48, 16, .rc, 0x0⟩
def hrwTurnbase_BASE : Fld := ⟨.hrwTurnbase, 0, 64, .rw, 0x0⟩
def svcQbase_LOC : Fld := ⟨.svcQbase, 0, 1, .rw, 0x0⟩
def svcQbase_BASE : Fld := ⟨.svcQbase, 12, 52, .rw, 0x0⟩
def svcQcbase_LOC : Fld := ⟨.svcQcbase, 0, 1, .rw, 0x0⟩
def svcQcbase_BASE : Fld := ⟨.svcQcbase, 12, 52, .rw, 0x0⟩
def svcQcfg_ENABLE : Fld := ⟨.svcQcfg, 0, 1, .rw, 0x0⟩
def svcQcfg_SIZE : Fld := ⟨.svcQcfg, 1, 4, .rw, 0x4⟩
def svcQcfg_ATT : Fld := ⟨.svcQcfg, 5, 3, .rw, 0x0⟩
def svcQcfg_PART : Fld := ⟨.svcQcfg, 8, 6, .rw, 0x0⟩
def svcQcfg_CLS : Fld := ⟨.svcQcfg, 14, 2, .rw, 0x1⟩
def svcQcfg_WEIGHT : Fld := ⟨.svcQcfg, 16, 8, .rw, 0x40⟩
def svcQcfg_HKIDX : Fld := ⟨.svcQcfg, 24, 16, .rw, 0x0⟩
def svcQcfg_VEC : Fld := ⟨.svcQcfg, 40, 11, .rw, 0x0⟩
def svcQcfg_IRQ_EN : Fld := ⟨.svcQcfg, 51, 1, .rw, 0x0⟩
def svcQtimeout_US : Fld := ⟨.svcQtimeout, 0, 26, .rw, 0x2710⟩
def svcQdoorbell_SQ_TAIL : Fld := ⟨.svcQdoorbell, 0, 12, .any, 0x0⟩
def svcQdoorbell_SQ_VALID : Fld := ⟨.svcQdoorbell, 12, 1, .any, 0x0⟩
def svcQdoorbell_CQ_HEAD : Fld := ⟨.svcQdoorbell, 16, 12, .any, 0x0⟩
def svcQdoorbell_CQ_VALID : Fld := ⟨.svcQdoorbell, 28, 1, .any, 0x0⟩
def svcQstat_SQ_HEAD : Fld := ⟨.svcQstat, 0, 12, .ro, 0x0⟩
def svcQstat_CQ_TAIL : Fld := ⟨.svcQstat, 12, 12, .ro, 0x0⟩
def svcQstat_INFLIGHT : Fld := ⟨.svcQstat, 24, 5, .ro, 0x0⟩
def svcQstat_PHASE : Fld := ⟨.svcQstat, 29, 1, .ro, 0x1⟩
def svcQstat_STATE : Fld := ⟨.svcQstat, 30, 2, .ro, 0x0⟩
def svcQstat_PROGRESS : Fld := ⟨.svcQstat, 32, 32, .ro, 0x0⟩
def svcQerr_BAD_DESC : Fld := ⟨.svcQerr, 0, 16, .rc, 0x0⟩
def svcQerr_TIMEOUT : Fld := ⟨.svcQerr, 16, 16, .rc, 0x0⟩
def svcQerr_DB_REFUSED : Fld := ⟨.svcQerr, 32, 16, .rc, 0x0⟩
def svcQerr_REG_ERR : Fld := ⟨.svcQerr, 48, 16, .rc, 0x0⟩
def scuStat_BUSY : Fld := ⟨.scuStat, 0, 1, .ro, 0x0⟩
def scuStat_GANG_OK : Fld := ⟨.scuStat, 1, 1, .ro, 0x0⟩
def scuStat_GANG_LANES : Fld := ⟨.scuStat, 2, 6, .ro, 0x0⟩
def scuStat_QUEUE : Fld := ⟨.scuStat, 8, 8, .ro, 0x0⟩
def scuStat_PROGRESS : Fld := ⟨.scuStat, 32, 32, .ro, 0x0⟩
def scuErr_KEY_LIMIT : Fld := ⟨.scuErr, 0, 16, .rc, 0x0⟩
def scuErr_PARTIAL : Fld := ⟨.scuErr, 16, 16, .rc, 0x0⟩
def scuErr_UNWRAP : Fld := ⟨.scuErr, 32, 16, .rc, 0x0⟩
def scuErr_REG_ERR : Fld := ⟨.scuErr, 48, 16, .rc, 0x0⟩
def pkuStat_TENANT_WAIT : Fld := ⟨.pkuStat, 0, 16, .ro, 0x0⟩
def pkuStat_PROGRESS : Fld := ⟨.pkuStat, 32, 32, .ro, 0x0⟩
def drillSel_INDEX : Fld := ⟨.drillSel, 0, 10, .rw, 0x0⟩
def drillSel_VALID : Fld := ⟨.drillSel, 10, 1, .ro, 0x0⟩
def drillSel_PART : Fld := ⟨.drillSel, 11, 6, .ro, 0x0⟩
def drillSel_OWNER : Fld := ⟨.drillSel, 17, 1, .ro, 0x0⟩
def drillSel_STORED : Fld := ⟨.drillSel, 18, 10, .ro, 0x0⟩
def drillDigest_BYTES : Fld := ⟨.drillDigest, 0, 64, .ro, 0x0⟩
def stvCtl_CMD : Fld := ⟨.stvCtl, 0, 4, .wo, 0x0⟩
def stvCtl_CTX : Fld := ⟨.stvCtl, 4, 8, .rw, 0x0⟩
def stvCtl_RESULT : Fld := ⟨.stvCtl, 12, 4, .ro, 0x0⟩
def stvCtl_BUSY : Fld := ⟨.stvCtl, 16, 1, .ro, 0x0⟩
def stvArg_ADDR : Fld := ⟨.stvArg, 0, 40, .rw, 0x0⟩
def stvStat_CTX_FREE : Fld := ⟨.stvStat, 0, 8, .ro, 0xfe⟩
def stvStat_CORES : Fld := ⟨.stvStat, 8, 7, .ro, 0x40⟩
def stvStat_SLOTS : Fld := ⟨.stvStat, 15, 10, .ro, 0x0⟩
def stvStat_SEGS : Fld := ⟨.stvStat, 25, 15, .ro, 0x0⟩
def stvStat_COL_SPARED : Fld := ⟨.stvStat, 40, 1, .ro, 0x0⟩
def stvProgress_CHUNKS : Fld := ⟨.stvProgress, 0, 64, .ro, 0x0⟩
def stvCtx_STATE : Fld := ⟨.stvCtx, 0, 3, .ro, 0x0⟩
def stvCtx_SHARDED : Fld := ⟨.stvCtx, 3, 1, .ro, 0x0⟩
def stvCtx_GATHERER : Fld := ⟨.stvCtx, 4, 1, .ro, 0x0⟩
def stvCtx_EXPOSE : Fld := ⟨.stvCtx, 5, 1, .ro, 0x0⟩
def stvCtx_PART : Fld := ⟨.stvCtx, 6, 6, .ro, 0x0⟩
def stvCtx_REASON : Fld := ⟨.stvCtx, 12, 10, .ro, 0x0⟩
def stvCtx_INTERVALS : Fld := ⟨.stvCtx, 22, 9, .ro, 0x0⟩
def stvCount_COVERED : Fld := ⟨.stvCount, 0, 41, .ro, 0x0⟩
def stvDigest_BYTES : Fld := ⟨.stvDigest, 0, 64, .ro, 0x0⟩
def stvErr_BAD_CHD : Fld := ⟨.stvErr, 0, 16, .rc, 0x0⟩
def stvErr_STRADDLE_FAIL : Fld := ⟨.stvErr, 16, 16, .rc, 0x0⟩
def stvErr_REC_DROP : Fld := ⟨.stvErr, 32, 16, .rc, 0x0⟩
def stvErr_REG_ERR : Fld := ⟨.stvErr, 48, 16, .rc, 0x0⟩
def stvBist_START : Fld := ⟨.stvBist, 0, 1, .w1s, 0x0⟩
def stvBist_SWAP : Fld := ⟨.stvBist, 1, 1, .w1s, 0x0⟩
def stvBist_RETURN : Fld := ⟨.stvBist, 2, 1, .w1s, 0x0⟩
def stvBist_CORE : Fld := ⟨.stvBist, 8, 7, .rw, 0x0⟩
def stvBist_SPARE : Fld := ⟨.stvBist, 16, 7, .rw, 0x40⟩
def stvBist_RESULT : Fld := ⟨.stvBist, 24, 3, .ro, 0x0⟩
def stvBist_FAIL_STAGE : Fld := ⟨.stvBist, 28, 4, .ro, 0x0⟩
def stvBist_ROLE : Fld := ⟨.stvBist, 32, 2, .ro, 0x0⟩
def stvAcc_LANES : Fld := ⟨.stvAcc, 0, 64, .ro, 0x0⟩
def watchCtl_CMD : Fld := ⟨.watchCtl, 0, 4, .wo, 0x0⟩
def watchCtl_WATCH : Fld := ⟨.watchCtl, 4, 6, .rw, 0x0⟩
def watchCtl_RESULT : Fld := ⟨.watchCtl, 10, 4, .ro, 0x0⟩
def watchCtl_BUSY : Fld := ⟨.watchCtl, 14, 1, .ro, 0x0⟩
def watchCfg_CTX : Fld := ⟨.watchCfg, 0, 8, .rw, 0x0⟩
def watchCfg_STAT : Fld := ⟨.watchCfg, 8, 4, .rw, 0x0⟩
def watchCfg_TKIND : Fld := ⟨.watchCfg, 12, 2, .rw, 0x0⟩
def watchCfg_TEXP : Fld := ⟨.watchCfg, 14, 11, .rw, 0x0⟩
def watchCfg_BASE : Fld := ⟨.watchCfg, 25, 8, .rw, 0x0⟩
def watchCfg_WIDTH : Fld := ⟨.watchCfg, 33, 4, .rw, 0x0⟩
def watchCfg_SEL : Fld := ⟨.watchCfg, 37, 5, .rw, 0x0⟩
def watchThresh_T : Fld := ⟨.watchThresh, 0, 64, .rw, 0x0⟩
def watchStat_STATE : Fld := ⟨.watchStat, 0, 2, .ro, 0x0⟩
def watchStat_CTX_STATE : Fld := ⟨.watchStat, 2, 3, .ro, 0x0⟩
def watchStat_CROSSED : Fld := ⟨.watchStat, 5, 1, .ro, 0x0⟩
def watchStat_PART : Fld := ⟨.watchStat, 6, 6, .ro, 0x0⟩
def watchStat_COVERED : Fld := ⟨.watchStat, 12, 41, .ro, 0x0⟩
def watchEvt_CROSSED : Fld := ⟨.watchEvt, 0, 64, .w1c, 0x0⟩
def watchErr_REFUSED_CMD : Fld := ⟨.watchErr, 0, 16, .rc, 0x0⟩
def watchErr_EVENTS : Fld := ⟨.watchErr, 16, 16, .rc, 0x0⟩
def watchRes_BYTES : Fld := ⟨.watchRes, 0, 64, .ro, 0x0⟩
def tokCtl_CMD : Fld := ⟨.tokCtl, 0, 4, .wo, 0x0⟩
def tokCtl_SESSION : Fld := ⟨.tokCtl, 4, 13, .rw, 0x0⟩
def tokCtl_RESULT : Fld := ⟨.tokCtl, 17, 4, .ro, 0x0⟩
def tokCtl_BUSY : Fld := ⟨.tokCtl, 21, 1, .ro, 0x0⟩
def tokArg_REGION : Fld := ⟨.tokArg, 0, 14, .rw, 0x0⟩
def tokArg_START : Fld := ⟨.tokArg, 14, 34, .rw, 0x0⟩
def tokId0_ID : Fld := ⟨.tokId0, 0, 64, .rw, 0x0⟩
def tokId1_ID : Fld := ⟨.tokId1, 0, 64, .rw, 0x0⟩
def tokStat_STATE : Fld := ⟨.tokStat, 0, 2, .ro, 0x0⟩
def tokStat_PART : Fld := ⟨.tokStat, 2, 6, .ro, 0x0⟩
def tokStat_COUNT : Fld := ⟨.tokStat, 16, 48, .ro, 0x0⟩
def tokChain_BYTES : Fld := ⟨.tokChain, 0, 64, .ro, 0x0⟩
def shfCtl_FLUSH : Fld := ⟨.shfCtl, 0, 1, .w1s, 0x0⟩
def shfCtl_MAXWAIT : Fld := ⟨.shfCtl, 4, 10, .rw, 0x2⟩
def shfStat_OPEN_LEAVES : Fld := ⟨.shfStat, 0, 13, .ro, 0x0⟩
def shfStat_SIGNING : Fld := ⟨.shfStat, 13, 1, .ro, 0x0⟩
def shfStat_FULL_WAIT : Fld := ⟨.shfStat, 14, 1, .ro, 0x0⟩
def shfStat_PROGRESS : Fld := ⟨.shfStat, 32, 32, .ro, 0x0⟩
def shfSeq_SEQ : Fld := ⟨.shfSeq, 0, 64, .ro, 0x0⟩
def shfNonce_NONCE : Fld := ⟨.shfNonce, 0, 64, .ro, 0x0⟩
def shfErr_FAILED : Fld := ⟨.shfErr, 0, 16, .rc, 0x0⟩
def shfErr_INCOMPLETE : Fld := ⟨.shfErr, 16, 16, .rc, 0x0⟩
def partCtl_EARLY : Fld := ⟨.partCtl, 0, 1, .rw, 0x0⟩
def partCtl_MIGRATE : Fld := ⟨.partCtl, 1, 1, .rw, 0x0⟩
def partCtl_FLIP : Fld := ⟨.partCtl, 2, 1, .w1s, 0x0⟩
def partCtl_ACTIVE_MAP : Fld := ⟨.partCtl, 3, 1, .ro, 0x0⟩
def partCtl_CMD : Fld := ⟨.partCtl, 4, 2, .wo, 0x0⟩
def partCtl_BUSY : Fld := ⟨.partCtl, 6, 1, .ro, 0x0⟩
def partCtl_RESULT : Fld := ⟨.partCtl, 7, 2, .ro, 0x0⟩
def partStat_RADIO : Fld := ⟨.partStat, 0, 1, .ro, 0x0⟩
def partStat_HEDGED : Fld := ⟨.partStat, 1, 1, .ro, 0x0⟩
def partStat_HALTED : Fld := ⟨.partStat, 2, 1, .ro, 0x0⟩
def partStat_QUEUES : Fld := ⟨.partStat, 3, 9, .ro, 0x0⟩
def partStat_CHANNELS : Fld := ⟨.partStat, 12, 8, .ro, 0x0⟩
def partStat_REFS : Fld := ⟨.partStat, 20, 20, .ro, 0x0⟩
def partWeight_WEIGHT : Fld := ⟨.partWeight, 0, 8, .rw, 0x40⟩
def partRate_RATE : Fld := ⟨.partRate, 0, 17, .rw, 0x0⟩
def partRate_BURST : Fld := ⟨.partRate, 17, 15, .rw, 0x4⟩
def partRate_SVC_RATE : Fld := ⟨.partRate, 32, 16, .rw, 0x0⟩
def partRate_SVC_BURST : Fld := ⟨.partRate, 48, 16, .rw, 0x10⟩
def partDirtyBase_ADDR : Fld := ⟨.partDirtyBase, 0, 40, .rw, 0x0⟩
def partHost_HRATE : Fld := ⟨.partHost, 0, 11, .rw, 0x0⟩
def partHost_HBURST : Fld := ⟨.partHost, 11, 15, .rw, 0x4⟩
def partHwinBase_BASE : Fld := ⟨.partHwinBase, 12, 52, .rw, 0x0⟩
def partHwinSize_PAGES : Fld := ⟨.partHwinSize, 0, 26, .rw, 0x0⟩
def partCarve_BASE : Fld := ⟨.partCarve, 0, 18, .ro, 0x0⟩
def partCarve_COUNT : Fld := ⟨.partCarve, 18, 18, .ro, 0x0⟩
def partErr_HOST_REFUSED : Fld := ⟨.partErr, 0, 16, .rc, 0x0⟩
def partErr_RECORD_LOST : Fld := ⟨.partErr, 16, 16, .rc, 0x0⟩
def partErr_RESETS : Fld := ⟨.partErr, 32, 16, .rc, 0x0⟩
def partErr_REG_ERR : Fld := ⟨.partErr, 48, 16, .rc, 0x0⟩
def hostCtl_ATS_EN0 : Fld := ⟨.hostCtl, 0, 1, .rw, 0x0⟩
def hostCtl_ATS_EN1 : Fld := ⟨.hostCtl, 1, 1, .rw, 0x0⟩
def hostCtl_WARN_VEC : Fld := ⟨.hostCtl, 2, 11, .rw, 0x0⟩
def hostCtl_WARN_ATT : Fld := ⟨.hostCtl, 13, 1, .rw, 0x0⟩
def hostStat_ATC0 : Fld := ⟨.hostStat, 0, 13, .ro, 0x0⟩
def hostStat_ATC1 : Fld := ⟨.hostStat, 13, 13, .ro, 0x0⟩
def hostStat_SESSIONS : Fld := ⟨.hostStat, 26, 7, .ro, 0x0⟩
def hostStat_MGR_WARN : Fld := ⟨.hostStat, 33, 1, .w1c, 0x0⟩
def hostStat_BINDINGS : Fld := ⟨.hostStat, 34, 10, .ro, 0x0⟩
def hostErr_OPEN_FAIL : Fld := ⟨.hostErr, 0, 16, .rc, 0x0⟩
def hostErr_TRANS_FAIL : Fld := ⟨.hostErr, 16, 16, .rc, 0x0⟩
def hostErr_BIND_REFUSED : Fld := ⟨.hostErr, 32, 16, .rc, 0x0⟩
def hostErr_REG_ERR : Fld := ⟨.hostErr, 48, 16, .rc, 0x0⟩
def hostKeywarn_WARN : Fld := ⟨.hostKeywarn, 0, 64, .w1c, 0x0⟩
def hostProgress_INVOCATIONS : Fld := ⟨.hostProgress, 0, 64, .ro, 0x0⟩
def hostQpasid_PASID : Fld := ⟨.hostQpasid, 0, 20, .rw, 0x0⟩
def hostQpasid_PASID_EN : Fld := ⟨.hostQpasid, 20, 1, .rw, 0x0⟩
def hostBcfg_ENABLE : Fld := ⟨.hostBcfg, 0, 1, .rw, 0x0⟩
def hostBcfg_SIZE : Fld := ⟨.hostBcfg, 1, 4, .rw, 0x4⟩
def hostBcfg_ATT : Fld := ⟨.hostBcfg, 5, 1, .rw, 0x0⟩
def hostBcfg_PART : Fld := ⟨.hostBcfg, 6, 6, .rw, 0x0⟩
def hostBcfg_CLS : Fld := ⟨.hostBcfg, 12, 2, .rw, 0x1⟩
def hostBcfg_HKIDX : Fld := ⟨.hostBcfg, 14, 16, .rw, 0x0⟩
def hostBcfg_PASID : Fld := ⟨.hostBcfg, 30, 20, .rw, 0x0⟩
def hostBcfg_PASID_EN : Fld := ⟨.hostBcfg, 50, 1, .rw, 0x0⟩
def hostBring_BASE : Fld := ⟨.hostBring, 12, 28, .rw, 0x0⟩
def hostBdoorbell_TAIL : Fld := ⟨.hostBdoorbell, 0, 12, .any, 0x0⟩
def hostBdoorbell_VALID : Fld := ⟨.hostBdoorbell, 12, 1, .any, 0x0⟩
def hostBstat_HEAD : Fld := ⟨.hostBstat, 0, 12, .ro, 0x0⟩
def hostBstat_STATE : Fld := ⟨.hostBstat, 12, 2, .ro, 0x0⟩
def hostBstat_PROGRESS : Fld := ⟨.hostBstat, 32, 32, .ro, 0x0⟩
def hostMboxCtl_LEN : Fld := ⟨.hostMboxCtl, 0, 11, .any, 0x0⟩
def hostMboxCtl_GO : Fld := ⟨.hostMboxCtl, 11, 1, .any, 0x0⟩
def hostMboxCtl_RSP_READY : Fld := ⟨.hostMboxCtl, 12, 1, .ro, 0x0⟩
def hostMboxCtl_RSP_LEN : Fld := ⟨.hostMboxCtl, 13, 11, .ro, 0x0⟩
def hostMboxCtl_SESSION : Fld := ⟨.hostMboxCtl, 24, 1, .ro, 0x0⟩
def hostMboxSess_SLOTS : Fld := ⟨.hostMboxSess, 0, 64, .ro, 0x0⟩
def hostMboxData_DATA : Fld := ⟨.hostMboxData, 0, 64, .any, 0x0⟩
def pairCtl_SLOT_US : Fld := ⟨.pairCtl, 0, 13, .rw, 0x3e8⟩
def pairCtl_CMD : Fld := ⟨.pairCtl, 16, 4, .wo, 0x0⟩
def pairCtl_CELL : Fld := ⟨.pairCtl, 20, 8, .rw, 0x0⟩
def pairCtl_RESULT : Fld := ⟨.pairCtl, 28, 4, .ro, 0x0⟩
def pairCtl_BUSY : Fld := ⟨.pairCtl, 32, 1, .ro, 0x0⟩
def pairStat_STATE : Fld := ⟨.pairStat, 0, 3, .ro, 0x0⟩
def pairStat_RESTORE : Fld := ⟨.pairStat, 3, 2, .ro, 0x0⟩
def pairStat_MIRRORS_OUT : Fld := ⟨.pairStat, 5, 5, .ro, 0x0⟩
def pairStat_PRIMARY : Fld := ⟨.pairStat, 10, 9, .ro, 0x0⟩
def pairStat_CLAIM_DROP : Fld := ⟨.pairStat, 19, 16, .rc, 0x0⟩
def pairEpoch_EPOCH : Fld := ⟨.pairEpoch, 0, 64, .ro, 0x0⟩
def pairCell_CELL : Fld := ⟨.pairCell, 0, 32, .ro, 0x0⟩
def pairCell_ROLE : Fld := ⟨.pairCell, 32, 1, .ro, 0x0⟩
def pairAck_STEP : Fld := ⟨.pairAck, 0, 12, .ro, 0x0⟩
def pairAck_SEQ : Fld := ⟨.pairAck, 16, 48, .ro, 0x0⟩
def pairErr_MIRROR_LATE : Fld := ⟨.pairErr, 0, 16, .rc, 0x0⟩
def pairErr_CLAIMS : Fld := ⟨.pairErr, 16, 16, .rc, 0x0⟩
def pairErr_RESTORE_REFUSED : Fld := ⟨.pairErr, 32, 16, .rc, 0x0⟩
def pairErr_REG_ERR : Fld := ⟨.pairErr, 48, 16, .rc, 0x0⟩
def domCtl_CMD : Fld := ⟨.domCtl, 0, 4, .wo, 0x0⟩
def domCtl_RESULT : Fld := ⟨.domCtl, 4, 4, .ro, 0x0⟩
def domCtl_BUSY : Fld := ⟨.domCtl, 8, 1, .ro, 0x0⟩
def domStat_STATE : Fld := ⟨.domStat, 0, 3, .ro, 0x0⟩
def domStat_MODE : Fld := ⟨.domStat, 3, 1, .ro, 0x0⟩
def domStat_UNIT : Fld := ⟨.domStat, 4, 14, .ro, 0x0⟩
def domStat_MEMBERS : Fld := ⟨.domStat, 18, 15, .ro, 0x0⟩
def domStat_CAUSE : Fld := ⟨.domStat, 33, 4, .ro, 0x0⟩
def domStat_ADVANCING : Fld := ⟨.domStat, 37, 1, .ro, 0x0⟩
def domEpoch_EPOCH : Fld := ⟨.domEpoch, 0, 64, .ro, 0x0⟩
def domSeat_UNIT : Fld := ⟨.domSeat, 0, 14, .ro, 0x0⟩
def domSeat_SEAT_EPOCH : Fld := ⟨.domSeat, 16, 48, .ro, 0x0⟩
def domLease_END : Fld := ⟨.domLease, 0, 64, .ro, 0x0⟩
def domTime_TIME : Fld := ⟨.domTime, 0, 64, .ro, 0x0⟩
def domId0_ID : Fld := ⟨.domId0, 0, 64, .ro, 0x0⟩
def domId1_ID : Fld := ⟨.domId1, 0, 64, .ro, 0x0⟩
def domMboxCtl_LEN : Fld := ⟨.domMboxCtl, 0, 14, .any, 0x0⟩
def domMboxCtl_POST : Fld := ⟨.domMboxCtl, 14, 1, .any, 0x0⟩
def domMboxCtl_RESULT : Fld := ⟨.domMboxCtl, 15, 4, .ro, 0x0⟩
def domErr_NONMEMBER : Fld := ⟨.domErr, 0, 16, .rc, 0x0⟩
def domErr_STALE_EPOCH : Fld := ⟨.domErr, 16, 16, .rc, 0x0⟩
def domErr_GEN_STALE : Fld := ⟨.domErr, 32, 16, .rc, 0x0⟩
def domErr_REG_ERR : Fld := ⟨.domErr, 48, 16, .rc, 0x0⟩
def domMbox_DATA : Fld := ⟨.domMbox, 0, 64, .any, 0x0⟩
def fltCtl_WARM_REQ : Fld := ⟨.fltCtl, 0, 1, .w1s, 0x0⟩
def fltCtl_PWR_REQ : Fld := ⟨.fltCtl, 1, 1, .w1s, 0x0⟩
def fltCtl_PWR_STOP : Fld := ⟨.fltCtl, 2, 1, .w1s, 0x0⟩
def fltCtl_REASON : Fld := ⟨.fltCtl, 3, 8, .rw, 0x0⟩
def fltPending_CLASS : Fld := ⟨.fltPending, 0, 11, .w1c, 0x0⟩
def fltIrq_MASK : Fld := ⟨.fltIrq, 0, 11, .rw, 0x0⟩
def fltIrq_VEC : Fld := ⟨.fltIrq, 11, 11, .rw, 0x0⟩
def fltIrq_ATT : Fld := ⟨.fltIrq, 22, 1, .rw, 0x0⟩
def fltIrq_IRQ_EN : Fld := ⟨.fltIrq, 23, 1, .rw, 0x0⟩
def fltIrq_IBI : Fld := ⟨.fltIrq, 24, 1, .rw, 0x0⟩
def fltAbort_TYPE : Fld := ⟨.fltAbort, 0, 3, .rw, 0x0⟩
def fltAbort_INDEX : Fld := ⟨.fltAbort, 3, 13, .rw, 0x0⟩
def fltAbort_GO : Fld := ⟨.fltAbort, 16, 1, .w1s, 0x0⟩
def fltAbort_RESULT : Fld := ⟨.fltAbort, 17, 2, .ro, 0x0⟩
def fltAbort_BUSY : Fld := ⟨.fltAbort, 19, 1, .ro, 0x0⟩
def fltReset_UNIT : Fld := ⟨.fltReset, 0, 4, .rw, 0x0⟩
def fltReset_INDEX : Fld := ⟨.fltReset, 4, 6, .rw, 0x0⟩
def fltReset_GO : Fld := ⟨.fltReset, 10, 1, .w1s, 0x0⟩
def fltReset_RESULT : Fld := ⟨.fltReset, 11, 3, .ro, 0x0⟩
def fltReset_BUSY : Fld := ⟨.fltReset, 14, 1, .ro, 0x0⟩
def fltHedge_PART : Fld := ⟨.fltHedge, 0, 6, .rw, 0x0⟩
def fltHedge_CMD : Fld := ⟨.fltHedge, 6, 2, .wo, 0x0⟩
def fltHedge_RESULT : Fld := ⟨.fltHedge, 8, 3, .ro, 0x0⟩
def fltHedge_BUSY : Fld := ⟨.fltHedge, 11, 1, .ro, 0x0⟩
def fltHedge_CAUSES : Fld := ⟨.fltHedge, 12, 5, .ro, 0x0⟩
def fltHedge_STEP : Fld := ⟨.fltHedge, 17, 3, .ro, 0x0⟩
def fltWinnow_SCOPE : Fld := ⟨.fltWinnow, 0, 3, .rw, 0x7⟩
def fltWinnow_BOUND_US : Fld := ⟨.fltWinnow, 3, 20, .rw, 0xc8⟩
def fltUnit_TYPE : Fld := ⟨.fltUnit, 0, 3, .rw, 0x0⟩
def fltUnit_INDEX : Fld := ⟨.fltUnit, 3, 15, .rw, 0x0⟩
def fltUnit_START : Fld := ⟨.fltUnit, 18, 1, .w1s, 0x0⟩
def fltUnit_SWAP : Fld := ⟨.fltUnit, 19, 1, .w1s, 0x0⟩
def fltUnit_RETURN : Fld := ⟨.fltUnit, 20, 1, .w1s, 0x0⟩
def fltUnit_SPARE : Fld := ⟨.fltUnit, 21, 15, .rw, 0x0⟩
def fltUnit_RESULT : Fld := ⟨.fltUnit, 36, 3, .ro, 0x0⟩
def fltUnit_ROLE : Fld := ⟨.fltUnit, 39, 2, .ro, 0x0⟩
def fltInject_KIND : Fld := ⟨.fltInject, 0, 2, .rw, 0x0⟩
def fltInject_DOUBLE : Fld := ⟨.fltInject, 2, 1, .rw, 0x0⟩
def fltInject_GO : Fld := ⟨.fltInject, 3, 1, .w1s, 0x0⟩
def fltInject_TARGET : Fld := ⟨.fltInject, 4, 8, .rw, 0x0⟩
def fltInject_RESULT : Fld := ⟨.fltInject, 12, 3, .ro, 0x0⟩
def fltInject_BUSY : Fld := ⟨.fltInject, 15, 1, .ro, 0x0⟩
def fltInjarg_LINE : Fld := ⟨.fltInjarg, 0, 34, .rw, 0x0⟩
def fltInjarg_DUR_US : Fld := ⟨.fltInjarg, 34, 20, .rw, 0x1⟩
def fltRehearsal_TAG : Fld := ⟨.fltRehearsal, 0, 16, .rc, 0x0⟩
def fltRehearsal_POISON : Fld := ⟨.fltRehearsal, 16, 16, .rc, 0x0⟩
def fltRehearsal_LINK : Fld := ⟨.fltRehearsal, 32, 16, .rc, 0x0⟩
def fltRehearsal_LANE : Fld := ⟨.fltRehearsal, 48, 16, .rc, 0x0⟩
def fltErr_ENGINE_RESETS : Fld := ⟨.fltErr, 0, 16, .rc, 0x0⟩
def fltErr_HANDSHAKE : Fld := ⟨.fltErr, 16, 16, .rc, 0x0⟩
def fltErr_ESCALATIONS : Fld := ⟨.fltErr, 32, 16, .rc, 0x0⟩
def fltErr_REG_ERR : Fld := ⟨.fltErr, 48, 16, .rc, 0x0⟩
def glnCtl_FREEZE : Fld := ⟨.glnCtl, 0, 1, .w1s, 0x0⟩
def glnCtl_UNFREEZE : Fld := ⟨.glnCtl, 1, 1, .w1s, 0x0⟩
def glnCtl_FREEZE_FATAL : Fld := ⟨.glnCtl, 2, 1, .rw, 0x0⟩
def glnCtl_PEER_COPY : Fld := ⟨.glnCtl, 3, 1, .w1s, 0x0⟩
def glnCtl_RESULT : Fld := ⟨.glnCtl, 4, 3, .ro, 0x0⟩
def glnCtl_BUSY : Fld := ⟨.glnCtl, 7, 1, .ro, 0x0⟩
def glnStat_HEAD : Fld := ⟨.glnStat, 0, 12, .ro, 0x0⟩
def glnStat_FROZEN : Fld := ⟨.glnStat, 12, 1, .ro, 0x0⟩
def glnStat_WRAPPED : Fld := ⟨.glnStat, 13, 1, .ro, 0x0⟩
def glnStat_DROPPED : Fld := ⟨.glnStat, 16, 16, .rc, 0x0⟩
def glnStat_SEQ : Fld := ⟨.glnStat, 32, 32, .ro, 0x0⟩
def glnArg_ADDR : Fld := ⟨.glnArg, 0, 40, .rw, 0x0⟩
def glnEntry_BYTES : Fld := ⟨.glnEntry, 0, 64, .ro, 0x0⟩
def obsStat_OLDEST : Fld := ⟨.obsStat, 0, 32, .ro, 0x0⟩
def obsStat_NEXT : Fld := ⟨.obsStat, 32, 32, .ro, 0x0⟩
def obsClasses_HELD : Fld := ⟨.obsClasses, 0, 8, .ro, 0x0⟩
def obsClasses_RECORDING : Fld := ⟨.obsClasses, 8, 8, .ro, 0x0⟩
def obsClasses_REOPENED : Fld := ⟨.obsClasses, 16, 8, .ro, 0x0⟩
def obsClasses_ALLOW : Fld := ⟨.obsClasses, 24, 1, .ro, 0x0⟩
def obsErr_DROPPED : Fld := ⟨.obsErr, 0, 16, .rc, 0x0⟩
def obsErr_DENIED : Fld := ⟨.obsErr, 16, 16, .rc, 0x0⟩
def obsErr_REOPEN_FAIL : Fld := ⟨.obsErr, 32, 16, .rc, 0x0⟩
def obsErr_REG_ERR : Fld := ⟨.obsErr, 48, 16, .rc, 0x0⟩
def obsCnt_COUNT : Fld := ⟨.obsCnt, 0, 64, .ro, 0x0⟩
def obsMboxCtl_OP : Fld := ⟨.obsMboxCtl, 0, 3, .any, 0x0⟩
def obsMboxCtl_GO : Fld := ⟨.obsMboxCtl, 3, 1, .any, 0x0⟩
def obsMboxCtl_BUSY : Fld := ⟨.obsMboxCtl, 4, 1, .ro, 0x0⟩
def obsMboxCtl_RESULT : Fld := ⟨.obsMboxCtl, 5, 4, .ro, 0x0⟩
def obsMboxCtl_LEN : Fld := ⟨.obsMboxCtl, 9, 14, .any, 0x0⟩
def obsMboxCtl_RSP_LEN : Fld := ⟨.obsMboxCtl, 23, 14, .ro, 0x0⟩
def obsMbox_DATA : Fld := ⟨.obsMbox, 0, 64, .any, 0x0⟩
def otpCtl_WORD : Fld := ⟨.otpCtl, 0, 10, .rw, 0x0⟩
def otpCtl_CMD : Fld := ⟨.otpCtl, 12, 2, .wo, 0x0⟩
def otpCtl_BUSY : Fld := ⟨.otpCtl, 14, 1, .ro, 0x0⟩
def otpCtl_RESULT : Fld := ⟨.otpCtl, 15, 3, .ro, 0x0⟩
def otpData_VALUE : Fld := ⟨.otpData, 0, 64, .rw, 0x0⟩
def otpStat_SPARES_USED : Fld := ⟨.otpStat, 0, 6, .ro, 0x0⟩
def otpStat_REPAIR_PENDING : Fld := ⟨.otpStat, 6, 1, .ro, 0x0⟩
def otpErr_REFUSED : Fld := ⟨.otpErr, 0, 16, .rc, 0x0⟩
def otpErr_VERIFY_FAIL : Fld := ⟨.otpErr, 16, 16, .rc, 0x0⟩
def otpErr_LC_REFUSED : Fld := ⟨.otpErr, 32, 16, .rc, 0x0⟩
def otpErr_REG_ERR : Fld := ⟨.otpErr, 48, 16, .rc, 0x0⟩
def lcCtl_POST : Fld := ⟨.lcCtl, 0, 1, .any, 0x0⟩
def lcCtl_BUSY : Fld := ⟨.lcCtl, 1, 1, .ro, 0x0⟩
def lcCtl_RESULT : Fld := ⟨.lcCtl, 2, 4, .ro, 0x0⟩
def lcNonce0_NONCE : Fld := ⟨.lcNonce0, 0, 64, .ro, 0x0⟩
def lcNonce1_NONCE : Fld := ⟨.lcNonce1, 0, 64, .ro, 0x0⟩
def lcInfo_PENDING : Fld := ⟨.lcInfo, 0, 32, .ro, 0x0⟩
def lcInfo_DECODE_FAIL : Fld := ⟨.lcInfo, 32, 1, .ro, 0x0⟩
def lcInfo_JOURNAL_DONE : Fld := ⟨.lcInfo, 33, 1, .ro, 0x0⟩
def lcInfo_WIPE_DONE : Fld := ⟨.lcInfo, 34, 1, .ro, 0x0⟩
def fwuCtl_CMD : Fld := ⟨.fwuCtl, 0, 4, .wo, 0x0⟩
def fwuCtl_RESULT : Fld := ⟨.fwuCtl, 4, 4, .ro, 0x0⟩
def fwuCtl_BUSY : Fld := ⟨.fwuCtl, 8, 1, .ro, 0x0⟩
def fwuArg_ADDR : Fld := ⟨.fwuArg, 0, 40, .rw, 0x0⟩
def fwuArg_LEN : Fld := ⟨.fwuArg, 40, 21, .rw, 0x0⟩
def fwuStat_STATE : Fld := ⟨.fwuStat, 0, 3, .ro, 0x0⟩
def fwuStat_ACTIVE_SLOT : Fld := ⟨.fwuStat, 3, 1, .ro, 0x0⟩
def fwuStat_BOOTS : Fld := ⟨.fwuStat, 4, 2, .ro, 0x0⟩
def fwuStat_CERT_SET : Fld := ⟨.fwuStat, 6, 1, .ro, 0x0⟩
def fwuVer_VERSION : Fld := ⟨.fwuVer, 0, 64, .ro, 0x0⟩
def fwuCur_BYTES : Fld := ⟨.fwuCur, 0, 64, .ro, 0x0⟩
def fwuNext_BYTES : Fld := ⟨.fwuNext, 0, 64, .ro, 0x0⟩
def lcMbox_DATA : Fld := ⟨.lcMbox, 0, 64, .any, 0x0⟩
end F

/-- The fields of each register, lowest first. -/
def Reg.fields : Reg → List Fld
  | .id => [F.id_BLOCK, F.id_MAP, F.id_STAVUB]
  | .stepping => [F.stepping_METAL, F.stepping_BASE, F.stepping_DIE]
  | .ready => [F.ready_READY, F.ready_PHASE, F.ready_FAIL, F.ready_WARM, F.ready_RESTORED]
  | .lcState => [F.lcState_CODE, F.lcState_STATE]
  | .gstat => [F.gstat_NONOWNER, F.gstat_UNMAPPED, F.gstat_BAD_ACCESS, F.gstat_MALFORMED, F.gstat_SCRUB_SPURIOUS]
  | .unitId => [F.unitId_ID]
  | .disabledMap => [F.disabledMap_MAP]
  | .heartbeat => [F.heartbeat_COUNT]
  | .ownClaim => [F.ownClaim_POST, F.ownClaim_BUSY, F.ownClaim_RESULT]
  | .ownStatus => [F.ownStatus_OWNER, F.ownStatus_DELEGATED, F.ownStatus_HANDOVER, F.ownStatus_SUCCESSOR, F.ownStatus_SELF, F.ownStatus_AUTH_SET]
  | .ownEpoch => [F.ownEpoch_EPOCH]
  | .ownHandover => [F.ownHandover_SUCCESSOR, F.ownHandover_GO, F.ownHandover_CANCEL]
  | .ownNonce0 => [F.ownNonce0_NONCE]
  | .ownNonce1 => [F.ownNonce1_NONCE]
  | .ownErr => [F.ownErr_INVALID, F.ownErr_LOST, F.ownErr_HANDOVER_LAPSED, F.ownErr_REG_ERR]
  | .ownHdigest => [F.ownHdigest_BYTES]
  | .ownClaimdata => [F.ownClaimdata_DATA]
  | .clkStat => [F.clkStat_PLL_LOCK, F.clkStat_REF_OK, F.clkStat_SLEW, F.clkStat_LOCK_LOSS]
  | .rstCtl => [F.rstCtl_CAUSE, F.rstCtl_SETTLE_ABANDONED, F.rstCtl_WARM_COUNT]
  | .pwrRamp => [F.pwrRamp_RAMP, F.pwrRamp_THROTTLING, F.pwrRamp_DELAYED]
  | .margin => [F.margin_CUR_A, F.margin_CUR_B, F.margin_MIN_A, F.margin_MIN_B, F.margin_THRESH_A, F.margin_THRESH_B, F.margin_VALID]
  | .cfgShadowBase => [F.cfgShadowBase_LOC, F.cfgShadowBase_ADDR]
  | .cfgLoad => [F.cfgLoad_GO, F.cfgLoad_DISCARD]
  | .cfgStatus => [F.cfgStatus_SHADOW, F.cfgStatus_LOAD_RESULT, F.cfgStatus_SWAP_RESULT, F.cfgStatus_FAIL_PLOT, F.cfgStatus_FAIL_OFFSET]
  | .cfgSwap => [F.cfgSwap_GO, F.cfgSwap_PERSIST]
  | .cfgActiveVer => [F.cfgActiveVer_VERSION]
  | .cfgShadowVer => [F.cfgShadowVer_VERSION]
  | .cfgRatchet => [F.cfgRatchet_RATCHET]
  | .cfgErr => [F.cfgErr_LOAD_FAIL, F.cfgErr_SWAP_FAIL, F.cfgErr_PERSIST_FAIL, F.cfgErr_REG_ERR]
  | .cfgHash => [F.cfgHash_BYTES]
  | .laneCtl => [F.laneCtl_GROUP, F.laneCtl_ROLE, F.laneCtl_POISON_EVT, F.laneCtl_REREAD_EVT, F.laneCtl_HOLD_EVT]
  | .laneStat => [F.laneStat_QUEUED, F.laneStat_PAGE_LOCK, F.laneStat_MAINT_ACTIVE, F.laneStat_HOLD_LINES, F.laneStat_WBUF_LINES, F.laneStat_PROGRESS]
  | .laneErr => [F.laneErr_POISON, F.laneErr_REREAD_OK, F.laneErr_REFUSED, F.laneErr_REG_ERR]
  | .laneBist => [F.laneBist_START, F.laneBist_SWAP, F.laneBist_RETURN, F.laneBist_SPARE, F.laneBist_RESULT, F.laneBist_FAIL_STAGE]
  | .portCtl => [F.portCtl_ATT, F.portCtl_ROLE, F.portCtl_TAG_EVT, F.portCtl_BREAK_EVT]
  | .portStat => [F.portStat_LINK_UP, F.portStat_FLOWS, F.portStat_RX_BUF, F.portStat_PROGRESS]
  | .portErr => [F.portErr_TAG_FAIL, F.portErr_LINK_BAD, F.portErr_DUP_DROP, F.portErr_REFUSED, F.portErr_GAP, F.portErr_REG_ERR]
  | .portBist => [F.portBist_START, F.portBist_SWAP, F.portBist_RETURN, F.portBist_SPARE, F.portBist_RESULT, F.portBist_FAIL_STAGE]
  | .fabCtl => [F.fabCtl_RSP_TO, F.fabCtl_PACK, F.fabCtl_IDLE_MS]
  | .fabGrant => [F.fabGrant_CAPIDX, F.fabGrant_HOLDER, F.fabGrant_HPART, F.fabGrant_RIGHTS, F.fabGrant_CMD, F.fabGrant_RESULT, F.fabGrant_BUSY]
  | .fabActrSel => [F.fabActrSel_INDEX, F.fabActrSel_CMD, F.fabActrSel_PART, F.fabActrSel_RESULT, F.fabActrSel_BUSY, F.fabActrSel_VALID, F.fabActrSel_ARMED, F.fabActrSel_ERR]
  | .fabActrVal => [F.fabActrVal_COUNT, F.fabActrVal_TARGET]
  | .fabStat => [F.fabStat_TX_FLOWS, F.fabStat_RX_FLOWS, F.fabStat_CAPMAP_USED, F.fabStat_FLAGS_WAITING]
  | .fabErr => [F.fabErr_BAD_HDR, F.fabErr_CAP_FAIL, F.fabErr_RSP_TIMEOUT, F.fabErr_REG_ERR]
  | .keySel => [F.keySel_SLOT, F.keySel_KIND, F.keySel_EXP, F.keySel_ARG]
  | .keyCmd => [F.keyCmd_CMD, F.keyCmd_RESULT, F.keyCmd_BUSY]
  | .keyStat => [F.keyStat_KIND, F.keyStat_ORIGIN, F.keyStat_NOEXPORT, F.keyStat_CACHED, F.keyStat_PINNED, F.keyStat_FAILED, F.keyStat_SUCC, F.keyStat_REFCOUNT]
  | .keyUsage => [F.keyUsage_COUNT]
  | .keyLimit => [F.keyLimit_LIMIT]
  | .keyGlobal => [F.keyGlobal_SLOTS_USED, F.keyGlobal_ROWS_PINNED, F.keyGlobal_SPARE_ROWS_USED, F.keyGlobal_ES_FAIL, F.keyGlobal_DRBG_READY, F.keyGlobal_NOSUCC_WAIT, F.keyGlobal_PIN_DENIED]
  | .keyEpoch => [F.keyEpoch_COUNT]
  | .keyLedger => [F.keyLedger_GENERATION, F.keyLedger_COPY, F.keyLedger_REWRAP]
  | .keyErr => [F.keyErr_REFUSED_CMD, F.keyErr_ES_HEALTH, F.keyErr_LEDGER_FAIL, F.keyErr_REG_ERR]
  | .keyCell => [F.keyCell_CELL]
  | .rgnSel => [F.rgnSel_INDEX, F.rgnSel_CMD, F.rgnSel_RESULT, F.rgnSel_BUSY]
  | .rgnErr => [F.rgnErr_CMD_REFUSED, F.rgnErr_REG_ERR]
  | .rgnEpsrc => [F.rgnEpsrc_NEXT]
  | .rgnTspan => [F.rgnTspan_BASE, F.rgnTspan_COUNT]
  | .rgnMeta => [F.rgnMeta_BASE, F.rgnMeta_COUNT, F.rgnMeta_RADIO_META]
  | .rgnDesc0 => [F.rgnDesc0_KIND, F.rgnDesc0_STATE, F.rgnDesc0_RADIO, F.rgnDesc0_HARROW, F.rgnDesc0_PART, F.rgnDesc0_KIDX, F.rgnDesc0_KIDX_NEXT, F.rgnDesc0_WSLOT, F.rgnDesc0_WVALID]
  | .rgnDesc1 => [F.rgnDesc1_BASE, F.rgnDesc1_COUNT, F.rgnDesc1_PERM]
  | .rgnDesc2 => [F.rgnDesc2_EPOCH]
  | .rgnDesc3 => [F.rgnDesc3_HWM]
  | .rgnDesc4 => [F.rgnDesc4_CAPIDX, F.rgnDesc4_SEAL_INCOMPLETE]
  | .rgnDesc5 => [F.rgnDesc5_ARG_ADDR]
  | .rgnDesc6 => [F.rgnDesc6_ARG_LINE]
  | .rgnDesc7 => [F.rgnDesc7_REFCOUNT]
  | .rgnDesc8 => [F.rgnDesc8_SEAL_DIGEST]
  | .rgnDesc9 => [F.rgnDesc9_SEAL_DIGEST]
  | .rgnDesc10 => [F.rgnDesc10_SEAL_DIGEST]
  | .rgnDesc11 => [F.rgnDesc11_SEAL_DIGEST]
  | .rgnDesc12 => [F.rgnDesc12_SEAL_DIGEST]
  | .rgnDesc13 => [F.rgnDesc13_SEAL_DIGEST]
  | .rgnDesc14 => [F.rgnDesc14_STAMP]
  | .rgnDesc15 => []
  | .hrwCtl => [F.hrwCtl_CMD, F.hrwCtl_JOB, F.hrwCtl_SCOPE, F.hrwCtl_TARGET, F.hrwCtl_NEW, F.hrwCtl_RESULT, F.hrwCtl_BUSY]
  | .hrwHeadland => [F.hrwHeadland_PAGE, F.hrwHeadland_IN_FLIGHT, F.hrwHeadland_MARK]
  | .hrwStat => [F.hrwStat_RUNNING, F.hrwStat_QUEUED, F.hrwStat_RETAG, F.hrwStat_AUTO_WAIT, F.hrwStat_PROGRESS]
  | .hrwShare => [F.hrwShare_SHARE]
  | .hrwJob => [F.hrwJob_STATE, F.hrwJob_SCOPE, F.hrwJob_AUTO, F.hrwJob_RADIO, F.hrwJob_OLD, F.hrwJob_NEW, F.hrwJob_REGION]
  | .hrwTurn => [F.hrwTurn_TIME]
  | .hrwErr => [F.hrwErr_REFUSED_CMD, F.hrwErr_EXHAUSTED_WR, F.hrwErr_MOVE_POISON, F.hrwErr_REG_ERR]
  | .hrwTurnbase => [F.hrwTurnbase_BASE]
  | .svcQbase => [F.svcQbase_LOC, F.svcQbase_BASE]
  | .svcQcbase => [F.svcQcbase_LOC, F.svcQcbase_BASE]
  | .svcQcfg => [F.svcQcfg_ENABLE, F.svcQcfg_SIZE, F.svcQcfg_ATT, F.svcQcfg_PART, F.svcQcfg_CLS, F.svcQcfg_WEIGHT, F.svcQcfg_HKIDX, F.svcQcfg_VEC, F.svcQcfg_IRQ_EN]
  | .svcQtimeout => [F.svcQtimeout_US]
  | .svcQdoorbell => [F.svcQdoorbell_SQ_TAIL, F.svcQdoorbell_SQ_VALID, F.svcQdoorbell_CQ_HEAD, F.svcQdoorbell_CQ_VALID]
  | .svcQstat => [F.svcQstat_SQ_HEAD, F.svcQstat_CQ_TAIL, F.svcQstat_INFLIGHT, F.svcQstat_PHASE, F.svcQstat_STATE, F.svcQstat_PROGRESS]
  | .svcQerr => [F.svcQerr_BAD_DESC, F.svcQerr_TIMEOUT, F.svcQerr_DB_REFUSED, F.svcQerr_REG_ERR]
  | .scuStat => [F.scuStat_BUSY, F.scuStat_GANG_OK, F.scuStat_GANG_LANES, F.scuStat_QUEUE, F.scuStat_PROGRESS]
  | .scuErr => [F.scuErr_KEY_LIMIT, F.scuErr_PARTIAL, F.scuErr_UNWRAP, F.scuErr_REG_ERR]
  | .pkuStat => [F.pkuStat_TENANT_WAIT, F.pkuStat_PROGRESS]
  | .drillSel => [F.drillSel_INDEX, F.drillSel_VALID, F.drillSel_PART, F.drillSel_OWNER, F.drillSel_STORED]
  | .drillDigest => [F.drillDigest_BYTES]
  | .stvCtl => [F.stvCtl_CMD, F.stvCtl_CTX, F.stvCtl_RESULT, F.stvCtl_BUSY]
  | .stvArg => [F.stvArg_ADDR]
  | .stvStat => [F.stvStat_CTX_FREE, F.stvStat_CORES, F.stvStat_SLOTS, F.stvStat_SEGS, F.stvStat_COL_SPARED]
  | .stvProgress => [F.stvProgress_CHUNKS]
  | .stvCtx => [F.stvCtx_STATE, F.stvCtx_SHARDED, F.stvCtx_GATHERER, F.stvCtx_EXPOSE, F.stvCtx_PART, F.stvCtx_REASON, F.stvCtx_INTERVALS]
  | .stvCount => [F.stvCount_COVERED]
  | .stvDigest => [F.stvDigest_BYTES]
  | .stvErr => [F.stvErr_BAD_CHD, F.stvErr_STRADDLE_FAIL, F.stvErr_REC_DROP, F.stvErr_REG_ERR]
  | .stvBist => [F.stvBist_START, F.stvBist_SWAP, F.stvBist_RETURN, F.stvBist_CORE, F.stvBist_SPARE, F.stvBist_RESULT, F.stvBist_FAIL_STAGE, F.stvBist_ROLE]
  | .stvAcc => [F.stvAcc_LANES]
  | .watchCtl => [F.watchCtl_CMD, F.watchCtl_WATCH, F.watchCtl_RESULT, F.watchCtl_BUSY]
  | .watchCfg => [F.watchCfg_CTX, F.watchCfg_STAT, F.watchCfg_TKIND, F.watchCfg_TEXP, F.watchCfg_BASE, F.watchCfg_WIDTH, F.watchCfg_SEL]
  | .watchThresh => [F.watchThresh_T]
  | .watchStat => [F.watchStat_STATE, F.watchStat_CTX_STATE, F.watchStat_CROSSED, F.watchStat_PART, F.watchStat_COVERED]
  | .watchEvt => [F.watchEvt_CROSSED]
  | .watchErr => [F.watchErr_REFUSED_CMD, F.watchErr_EVENTS]
  | .watchRes => [F.watchRes_BYTES]
  | .tokCtl => [F.tokCtl_CMD, F.tokCtl_SESSION, F.tokCtl_RESULT, F.tokCtl_BUSY]
  | .tokArg => [F.tokArg_REGION, F.tokArg_START]
  | .tokId0 => [F.tokId0_ID]
  | .tokId1 => [F.tokId1_ID]
  | .tokStat => [F.tokStat_STATE, F.tokStat_PART, F.tokStat_COUNT]
  | .tokChain => [F.tokChain_BYTES]
  | .shfCtl => [F.shfCtl_FLUSH, F.shfCtl_MAXWAIT]
  | .shfStat => [F.shfStat_OPEN_LEAVES, F.shfStat_SIGNING, F.shfStat_FULL_WAIT, F.shfStat_PROGRESS]
  | .shfSeq => [F.shfSeq_SEQ]
  | .shfNonce => [F.shfNonce_NONCE]
  | .shfErr => [F.shfErr_FAILED, F.shfErr_INCOMPLETE]
  | .partCtl => [F.partCtl_EARLY, F.partCtl_MIGRATE, F.partCtl_FLIP, F.partCtl_ACTIVE_MAP, F.partCtl_CMD, F.partCtl_BUSY, F.partCtl_RESULT]
  | .partStat => [F.partStat_RADIO, F.partStat_HEDGED, F.partStat_HALTED, F.partStat_QUEUES, F.partStat_CHANNELS, F.partStat_REFS]
  | .partWeight => [F.partWeight_WEIGHT]
  | .partRate => [F.partRate_RATE, F.partRate_BURST, F.partRate_SVC_RATE, F.partRate_SVC_BURST]
  | .partDirtyBase => [F.partDirtyBase_ADDR]
  | .partHost => [F.partHost_HRATE, F.partHost_HBURST]
  | .partHwinBase => [F.partHwinBase_BASE]
  | .partHwinSize => [F.partHwinSize_PAGES]
  | .partCarve => [F.partCarve_BASE, F.partCarve_COUNT]
  | .partErr => [F.partErr_HOST_REFUSED, F.partErr_RECORD_LOST, F.partErr_RESETS, F.partErr_REG_ERR]
  | .hostCtl => [F.hostCtl_ATS_EN0, F.hostCtl_ATS_EN1, F.hostCtl_WARN_VEC, F.hostCtl_WARN_ATT]
  | .hostStat => [F.hostStat_ATC0, F.hostStat_ATC1, F.hostStat_SESSIONS, F.hostStat_MGR_WARN, F.hostStat_BINDINGS]
  | .hostErr => [F.hostErr_OPEN_FAIL, F.hostErr_TRANS_FAIL, F.hostErr_BIND_REFUSED, F.hostErr_REG_ERR]
  | .hostKeywarn => [F.hostKeywarn_WARN]
  | .hostProgress => [F.hostProgress_INVOCATIONS]
  | .hostQpasid => [F.hostQpasid_PASID, F.hostQpasid_PASID_EN]
  | .hostBcfg => [F.hostBcfg_ENABLE, F.hostBcfg_SIZE, F.hostBcfg_ATT, F.hostBcfg_PART, F.hostBcfg_CLS, F.hostBcfg_HKIDX, F.hostBcfg_PASID, F.hostBcfg_PASID_EN]
  | .hostBring => [F.hostBring_BASE]
  | .hostBdoorbell => [F.hostBdoorbell_TAIL, F.hostBdoorbell_VALID]
  | .hostBstat => [F.hostBstat_HEAD, F.hostBstat_STATE, F.hostBstat_PROGRESS]
  | .hostMboxCtl => [F.hostMboxCtl_LEN, F.hostMboxCtl_GO, F.hostMboxCtl_RSP_READY, F.hostMboxCtl_RSP_LEN, F.hostMboxCtl_SESSION]
  | .hostMboxSess => [F.hostMboxSess_SLOTS]
  | .hostMboxData => [F.hostMboxData_DATA]
  | .pairCtl => [F.pairCtl_SLOT_US, F.pairCtl_CMD, F.pairCtl_CELL, F.pairCtl_RESULT, F.pairCtl_BUSY]
  | .pairStat => [F.pairStat_STATE, F.pairStat_RESTORE, F.pairStat_MIRRORS_OUT, F.pairStat_PRIMARY, F.pairStat_CLAIM_DROP]
  | .pairEpoch => [F.pairEpoch_EPOCH]
  | .pairCell => [F.pairCell_CELL, F.pairCell_ROLE]
  | .pairAck => [F.pairAck_STEP, F.pairAck_SEQ]
  | .pairErr => [F.pairErr_MIRROR_LATE, F.pairErr_CLAIMS, F.pairErr_RESTORE_REFUSED, F.pairErr_REG_ERR]
  | .domCtl => [F.domCtl_CMD, F.domCtl_RESULT, F.domCtl_BUSY]
  | .domStat => [F.domStat_STATE, F.domStat_MODE, F.domStat_UNIT, F.domStat_MEMBERS, F.domStat_CAUSE, F.domStat_ADVANCING]
  | .domEpoch => [F.domEpoch_EPOCH]
  | .domSeat => [F.domSeat_UNIT, F.domSeat_SEAT_EPOCH]
  | .domLease => [F.domLease_END]
  | .domTime => [F.domTime_TIME]
  | .domId0 => [F.domId0_ID]
  | .domId1 => [F.domId1_ID]
  | .domMboxCtl => [F.domMboxCtl_LEN, F.domMboxCtl_POST, F.domMboxCtl_RESULT]
  | .domErr => [F.domErr_NONMEMBER, F.domErr_STALE_EPOCH, F.domErr_GEN_STALE, F.domErr_REG_ERR]
  | .domMbox => [F.domMbox_DATA]
  | .fltCtl => [F.fltCtl_WARM_REQ, F.fltCtl_PWR_REQ, F.fltCtl_PWR_STOP, F.fltCtl_REASON]
  | .fltPending => [F.fltPending_CLASS]
  | .fltIrq => [F.fltIrq_MASK, F.fltIrq_VEC, F.fltIrq_ATT, F.fltIrq_IRQ_EN, F.fltIrq_IBI]
  | .fltAbort => [F.fltAbort_TYPE, F.fltAbort_INDEX, F.fltAbort_GO, F.fltAbort_RESULT, F.fltAbort_BUSY]
  | .fltReset => [F.fltReset_UNIT, F.fltReset_INDEX, F.fltReset_GO, F.fltReset_RESULT, F.fltReset_BUSY]
  | .fltHedge => [F.fltHedge_PART, F.fltHedge_CMD, F.fltHedge_RESULT, F.fltHedge_BUSY, F.fltHedge_CAUSES, F.fltHedge_STEP]
  | .fltWinnow => [F.fltWinnow_SCOPE, F.fltWinnow_BOUND_US]
  | .fltUnit => [F.fltUnit_TYPE, F.fltUnit_INDEX, F.fltUnit_START, F.fltUnit_SWAP, F.fltUnit_RETURN, F.fltUnit_SPARE, F.fltUnit_RESULT, F.fltUnit_ROLE]
  | .fltInject => [F.fltInject_KIND, F.fltInject_DOUBLE, F.fltInject_GO, F.fltInject_TARGET, F.fltInject_RESULT, F.fltInject_BUSY]
  | .fltInjarg => [F.fltInjarg_LINE, F.fltInjarg_DUR_US]
  | .fltRehearsal => [F.fltRehearsal_TAG, F.fltRehearsal_POISON, F.fltRehearsal_LINK, F.fltRehearsal_LANE]
  | .fltErr => [F.fltErr_ENGINE_RESETS, F.fltErr_HANDSHAKE, F.fltErr_ESCALATIONS, F.fltErr_REG_ERR]
  | .glnCtl => [F.glnCtl_FREEZE, F.glnCtl_UNFREEZE, F.glnCtl_FREEZE_FATAL, F.glnCtl_PEER_COPY, F.glnCtl_RESULT, F.glnCtl_BUSY]
  | .glnStat => [F.glnStat_HEAD, F.glnStat_FROZEN, F.glnStat_WRAPPED, F.glnStat_DROPPED, F.glnStat_SEQ]
  | .glnArg => [F.glnArg_ADDR]
  | .glnEntry => [F.glnEntry_BYTES]
  | .obsStat => [F.obsStat_OLDEST, F.obsStat_NEXT]
  | .obsClasses => [F.obsClasses_HELD, F.obsClasses_RECORDING, F.obsClasses_REOPENED, F.obsClasses_ALLOW]
  | .obsErr => [F.obsErr_DROPPED, F.obsErr_DENIED, F.obsErr_REOPEN_FAIL, F.obsErr_REG_ERR]
  | .obsCnt => [F.obsCnt_COUNT]
  | .obsMboxCtl => [F.obsMboxCtl_OP, F.obsMboxCtl_GO, F.obsMboxCtl_BUSY, F.obsMboxCtl_RESULT, F.obsMboxCtl_LEN, F.obsMboxCtl_RSP_LEN]
  | .obsMbox => [F.obsMbox_DATA]
  | .otpCtl => [F.otpCtl_WORD, F.otpCtl_CMD, F.otpCtl_BUSY, F.otpCtl_RESULT]
  | .otpData => [F.otpData_VALUE]
  | .otpStat => [F.otpStat_SPARES_USED, F.otpStat_REPAIR_PENDING]
  | .otpErr => [F.otpErr_REFUSED, F.otpErr_VERIFY_FAIL, F.otpErr_LC_REFUSED, F.otpErr_REG_ERR]
  | .lcCtl => [F.lcCtl_POST, F.lcCtl_BUSY, F.lcCtl_RESULT]
  | .lcNonce0 => [F.lcNonce0_NONCE]
  | .lcNonce1 => [F.lcNonce1_NONCE]
  | .lcInfo => [F.lcInfo_PENDING, F.lcInfo_DECODE_FAIL, F.lcInfo_JOURNAL_DONE, F.lcInfo_WIPE_DONE]
  | .fwuCtl => [F.fwuCtl_CMD, F.fwuCtl_RESULT, F.fwuCtl_BUSY]
  | .fwuArg => [F.fwuArg_ADDR, F.fwuArg_LEN]
  | .fwuStat => [F.fwuStat_STATE, F.fwuStat_ACTIVE_SLOT, F.fwuStat_BOOTS, F.fwuStat_CERT_SET]
  | .fwuVer => [F.fwuVer_VERSION]
  | .fwuCur => [F.fwuCur_BYTES]
  | .fwuNext => [F.fwuNext_BYTES]
  | .lcMbox => [F.lcMbox_DATA]

/-- The banked registers, one copy for each attach port (R449). -/
def Reg.banked : Reg → Bool
  | .ownClaim | .ownClaimdata | .obsMboxCtl | .obsMbox => true
  | _ => false

/-- The instance and word of register `r` that offset `off` names, if any. -/
def Reg.at? (r : Reg) (off : Nat) : Option (Nat × Nat) :=
  let p := r.place
  if off < p.base then none
  else
    let d := off - p.base
    let i := d / p.stride
    let j := d % p.stride / 8
    if d % 8 = 0 ∧ i < p.count ∧ j < p.words then some (i, j) else none

/-- A register, its instance and its word. -/
structure RegAt where
  reg : Reg
  i : Nat
  j : Nat
  deriving DecidableEq, Repr

/-- The offset of word `j` of instance `i` of a register (Table 4). -/
def Reg.off (r : Reg) (i j : Nat) : Nat := r.place.base + r.place.stride * i + 8 * j

/-- The register an offset names: mapped exactly when Table 4 lists it (R445). -/
def regAt? (off : Nat) : Option RegAt :=
  Reg.all.findSome? fun r => (r.at? off).map fun p => ⟨r, p.1, p.2⟩

/-- The reset value of a register (the Reset column). -/
def Reg.rst (r : Reg) : Nat := r.fields.foldl (fun n f => n + f.rst * 2 ^ f.lo) 0

end Sys2Proof.Machine
end

