-- ==== Sys2Proof/Machine/Table.lean ====
section
/-! DEFINITION. Sparse tables: an array of records of which only those that differ from a default are listed, in
ascending index order, so that equal tables are equal data. -/

namespace Sys2Proof.Machine

/-- A sparse table: indices strictly rising, and no entry equal to the default its owner gives the index. -/
abbrev Tbl (α : Type) := List (Nat × α)

/-- The entry at index `k`, or the default. -/
def tget {α : Type} (d : α) : Tbl α → Nat → α
  | [], _ => d
  | (k', v) :: t, k => if k' = k then v else tget d t k

/-- Removes the entry at index `k`. -/
def tdel {α : Type} : Tbl α → Nat → Tbl α
  | [], _ => []
  | (k', v) :: t, k => if k' = k then t else (k', v) :: tdel t k

/-- Puts an entry at index `k`, in order. -/
def tput {α : Type} : Tbl α → Nat → α → Tbl α
  | [], k, v => [(k, v)]
  | (k', v') :: t, k, v =>
    if k < k' then (k, v) :: (k', v') :: t
    else if k = k' then (k, v) :: t
    else (k', v') :: tput t k v

/-- Sets the entry at index `k`, keeping the canonical form. -/
def tset {α : Type} [DecidableEq α] (d : α) (t : Tbl α) (k : Nat) (v : α) : Tbl α :=
  if v = d then tdel t k else tput t k v

/-- The indices of a table are strictly rising from a bound. -/
def rising {α : Type} (lo : Nat) : Tbl α → Prop
  | [] => True
  | (k, _) :: t => lo ≤ k ∧ rising (k + 1) t

/-- No entry of the table equals the default. -/
def noDefault {α : Type} (d : α) (t : Tbl α) : Prop := ∀ p ∈ t, p.2 ≠ d

/-- The canonical form of a table. -/
def Tbl.wf {α : Type} (d : α) (t : Tbl α) : Prop := rising 0 t ∧ noDefault d t

/-- Sets of numbers, as strictly rising lists. -/
abbrev NatSet := List Nat

/-- Adds a number to a set, in order. -/
def nsInsert : NatSet → Nat → NatSet
  | [], k => [k]
  | x :: t, k => if k < x then k :: x :: t else if k = x then x :: t else x :: nsInsert t k

/-- Adds every number of `[lo, lo + n)` to a set. -/
def nsRange (t : NatSet) (lo : Nat) : Nat → NatSet
  | 0 => t
  | n + 1 => nsInsert (nsRange t lo n) (lo + n)

/-- The numbers `[lo, lo + n)`. -/
def upto (lo n : Nat) : List Nat := (List.range n).map (lo + ·)

/-- The first number at or above `lo` that is not in the rising list, searching at most `fuel` numbers. -/
def firstClear (t : NatSet) (lo : Nat) : Nat → Nat
  | 0 => lo
  | fuel + 1 => if t.contains lo then firstClear t (lo + 1) fuel else lo

/-- Replaces every element that satisfies `p` by its image. -/
def updWhere {α : Type} (p : α → Bool) (f : α → α) (l : List α) : List α :=
  l.map fun x => if p x then f x else x

end Sys2Proof.Machine
end

