-- ==== Sys2Proof/Machine/StateMem.lean ====
section
/-! DEFINITION. The state of the memory path: requests and their statuses, regions, counters, lanes, memory
controller accesses, the stile, the harrow and the key manager. -/

namespace Sys2Proof.Machine

/-- Request statuses (R56). -/
inductive Status where
  | ok | poison | keyMismatch | regionFault | sownWrite | furrowRewrite | keyExhausted | fenced | genStale | hedged
  | retry
  deriving DecidableEq, Repr

/-- Region kinds (Table 8a of the regions chapter). -/
inductive Kind where
  | clear | sown | furrow | tilled
  deriving DecidableEq, Repr

/-- Region states (D0[4:2]). -/
inductive RState where
  | free | opened | sealing | sealed | closing
  deriving DecidableEq, Repr

/-- A seal in progress (R97, R100): where its manifest lies, whether its local digesting is done (and it waits for its
contexts), who asked for it, and its tensors in manifest order, each with its context unless that is marked
incomplete. -/
structure SealRun where
  addr : Nat
  origin : Origin
  waiting : Bool := false
  tensors : List (BitVec 128 × Option Nat) := []
  /-- the manifest has been taken, and how many of its descriptors are digested; the rest, as Table 7 lays them out -/
  started : Bool := false
  next : Nat := 0
  todo : List Nat := []
  deriving DecidableEq, Repr

/-- An ADVANCE in progress (R103): its target, the offsets still to be written as zeros, and who asked for it. -/
structure AdvRun where
  target : Nat
  zeros : List Nat
  origin : Origin
  deriving DecidableEq, Repr

/-- A region table row (R87, Table 2) with its window slot's bits (R98) and reservations (R130). -/
structure Region where
  /-- D0[1:0] -/
  kind : Kind := .clear
  /-- D0[4:2] -/
  state : RState := .free
  /-- D0[5] -/
  radio : Bool := false
  /-- D0[6] -/
  harrow : Bool := false
  /-- D0[13:8] -/
  part : Nat := 0
  /-- D0[31:16] -/
  kidx : Nat := 0
  /-- D0[47:32] -/
  kidxNext : Nat := 0
  /-- D0[60:48] and WVALID: the window slot held, if any -/
  wslot : Option Nat := none
  /-- D1[17:0] -/
  base : Nat := 0
  /-- D1[35:18] -/
  count : Nat := 0
  /-- D1[39:36] -/
  perm : Nat := 0
  /-- D2 -/
  epoch : Nat := 0
  /-- D3[33:0] -/
  hwm : Nat := 0
  /-- D4[15:0] -/
  capidx : Nat := 0
  /-- D4[32] -/
  sealIncomplete : Bool := false
  /-- driver references, the part of D7 that is not requests in flight (R114) -/
  drvRefs : Nat := 0
  /-- D8 to D13 -/
  digest : Digest := 0
  /-- tensor count of the seal (R100, R240), when this block has made it -/
  sealCount : Option Nat := none
  /-- D14 -/
  stamp : Nat := 0
  /-- the line offsets at or above HWM whose window bit is set -/
  win : NatSet := []
  /-- the line offsets that held writes reserve -/
  rsv : List Nat := []
  /-- the seal in progress -/
  sealRun : Option SealRun := none
  /-- the ADVANCEs in progress, in order -/
  adv : List AdvRun := []
  /-- who asked for the DESTROY in progress -/
  closer : Option Origin := none
  deriving DecidableEq, Repr

/-- A counter line or node: a major and 64 minors (R104, R105). -/
structure CtrLine where
  major : Nat := 0
  minors : List Nat := List.replicate 64 0
  deriving DecidableEq, Repr

/-- A resident counter-cache line (R106): its value and whether it differs from memory. -/
structure Cached where
  line : CtrLine
  dirty : Bool
  deriving DecidableEq, Repr

/-- What a line is encrypted under, apart from the key (R93): the region kind code, the upper half and the minor. -/
structure Ctr where
  kind : Nat
  upper : Nat
  minor : Nat
  deriving DecidableEq, Repr

/-- What a request message of a peer adds to a memory request (R139, R261, R265): its source unit, partition, message
tag, lane, receiving port, the number that orders it among the messages of its flow, operation, atomic code, ARRIVE,
operands, byte offset in the line, arrival counter, rights and capability check. -/
structure Remote where
  src : Nat
  mtag : Nat
  lane : Nat
  port : Nat
  no : Nat
  op : Nat
  aop : Nat
  arrive : Bool
  op1 : Nat
  op2 : Nat
  off : Nat
  actr : Nat
  rights : Nat
  check : Nat
  deriving DecidableEq, Repr

/-- A request waiting at, or served by, a lane: its place in transfer order, the lane it waits at, its fields, whether
it breaks the step rule of R71 or R126 (or is an engine's write that carries no step), the other part of a spanning request, and its source when it came from a
peer. -/
structure Txn where
  id : Nat
  lane : Nat
  grp : Nat
  req : MemReq
  stepBad : Bool := false
  remote : Option Remote := none
  /-- its place in the order of acceptance (R53): set at its grant, or at its transfer when it is refused there -/
  acc : Nat := 0
  /-- for a write, what its grant decided about its hold (R127): the provisional reads that it waits for, none when it is
  not held -/
  gate : Option (List Nat) := none
  /-- MAINT work of the block's own (R136), and whether it is priority MAINT -/
  maint : Option Bool := none
  /-- for a part of a spanning request (R55), the refusal it met at its transfer: the item of R57 and the status -/
  pre : Option (Nat × Status) := none
  deriving DecidableEq, Repr

/-- Where one line of a read stands: its plaintext is known (virgin, forwarded or verified), its beat has not
arrived, its ciphertext has arrived, its first attempt failed and the re-read is out, or it failed twice. -/
inductive LineSt where
  | known (p : Line)
  | wait
  | got (c : Line) (sb : BitVec 64) (err : Bool)
  | again
  | regot (c : Line) (sb : BitVec 64) (err : Bool)
  | bad
  deriving DecidableEq, Repr

/-- One line of a read or page move: its address, its counter block (none until the metadata has verified), the key
slot that protects it, and where it stands. -/
structure LineRd where
  line : Nat
  ctr : Option Ctr
  slot : Nat
  st : LineSt
  /-- the first attempt failed (R31) -/
  failed1 : Bool := false
  /-- the plaintext of a failed first attempt, which alone an early-released read may present (R125) -/
  first : Option Line := none
  deriving DecidableEq, Repr

/-- A granted read that has not been presented whole (R26 to R31); `upper` is the upper part of a spanning read, whose
lines follow those of the lower part. -/
structure Rd where
  txn : Txn
  upper : Option Txn := none
  row : Nat
  lines : List LineRd
  early : Bool
  /-- its early-released beats wait for, or have had, their channel -/
  queued : Bool := false
  /-- the metadata line whose second failure failed it (R106) -/
  metaBad : Option Nat := none
  /-- its verdict has been given: what remains is a diagnostic re-read (R125) -/
  judged : Bool := false
  /-- its beats were presented with lz_mrsp_prov = 1 (R127) -/
  presented : Bool := false
  deriving DecidableEq, Repr

/-- What an access to a memory controller is for. -/
inductive Purpose where
  | read (id : Nat)
  | reread (id : Nat) (line : Nat)
  | move (lane : Nat) (page : Nat)
  | remove (lane : Nat) (page : Nat) (line : Nat)
  | mdata (level : Nat) (idx : Nat)
  | remdata (level : Nat) (idx : Nat)
  /-- a harrow move's diagnostic re-read of a line of a partition (R124, R154) -/
  | diag (part : Nat) (line : Nat)
  | write
  /-- the write-back of a metadata line -/
  | mwrite (level : Nat) (idx : Nat)
  deriving DecidableEq, Repr

/-- An access on lz_dmc_ (R58): its tag, the group, what it is for, the lines it covers, its write data with sideband,
and how many lines of a read have returned; `maint` marks MAINT work. -/
structure Access where
  tag : BitVec 12
  grp : Nat
  lane : Nat
  purpose : Purpose
  line : Nat
  n : Nat
  data : List (Line × BitVec 64) := []
  accepted : Bool := false
  got : Nat := 0
  maint : Bool := false
  deriving DecidableEq, Repr

/-- A line of a posted write that the memory controller has not accepted (R121): `tag` names its access once it is
encrypted, `epoch` is the EPOCH of its region when it was posted (R102), `maint` marks a line of MAINT work, which takes no place in
the 512 lines of the write buffer, and `owner` is the request of a TILLED write that waits. -/
structure WbLine where
  lane : Nat
  line : Nat
  plain : Line
  row : Nat
  tag : Option (BitVec 12)
  epoch : Nat := 0
  maint : Bool := false
  owner : Nat := 0
  acc : Nat := 0
  deriving DecidableEq, Repr

/-- A fetched metadata line that has not been verified: its level and index, its bytes, sideband and error mark, and
whether it is a re-read. -/
structure MetaArr where
  level : Nat
  idx : Nat
  line : Line
  sb : BitVec 64
  err : Bool
  second : Bool
  deriving DecidableEq, Repr

/-- A TILLED write, already completed, that waits for its counter lines (R106, R123). -/
structure MetaWrite where
  txn : Txn
  row : Nat
  deriving DecidableEq, Repr

/-- What the stile holds (R127): a memory write, a fabric request on an interface, a host DMA write of a service
command, or one of a bounce channel's transfer, by its ordinal. -/
inductive Egress where
  | mem (t : Txn) (row : Nat)
  | fab (intf : Nat) (r : FabReq)
  | dma (q : Nat) (k : Nat)
  | xfer (c : Nat) (no : Nat)
  deriving DecidableEq, Repr

/-- A held egress: its number, step (4,096 for one that carries none), the provisional reads it waits for, what it is, and
for a write the EPOCH of its region when it was admitted (R102). -/
structure Held where
  id : Nat
  step : Nat
  part : Nat
  deps : List Nat
  what : Egress
  epoch : Nat := 0
  deriving DecidableEq, Repr

/-- Step entry states (R126). -/
inductive StepSt where
  | idle | opened | committing
  deriving DecidableEq, Repr

/-- A stile entry (R126): state, partition, whether the step is poisoned, whether it ever held egress, the provisional
reads without a verdict, and the steps whose held data it has read (R131). -/
structure StepEnt where
  st : StepSt := .idle
  part : Nat := 0
  poisoned : Bool := false
  /-- poisoned by a provisional read, so that its egress is discarded (R132); a step poisoned under R133 is only
  marked for its commit -/
  discard : Bool := false
  heldEver : Bool := false
  pend : List Nat := []
  boundTo : List Nat := []
  /-- the stile event of its commit has been given -/
  evented : Bool := false
  /-- its commit's mirror record has been answered, and how (0 MIRRORED, 2 LOCAL) -/
  mirrored : Option Nat := none
  /-- the mirror sequence of its commit's record -/
  mirrorSeq : Option Nat := none
  /-- how many requests had been accepted at the snapshot of its commit: the writes among them reach their memory
  controllers before the commit is done (R294) -/
  upto : Nat := 0
  deriving DecidableEq, Repr

/-- A page move in progress in a page-move buffer (R108, R109): the lane, the page, the row, the old counters, its
lines, the data of lines written by the triggering write or by RADIO writes since, whether it is a RADIO move or part
of a turnover, and how many requests had been accepted when it started. -/
structure Move where
  lane : Nat
  page : Nat
  row : Nat
  old : CtrLine
  lines : List LineRd
  fresh : List (Nat × Line)
  radio : Bool
  acc : Nat := 0
  deriving DecidableEq, Repr

/-- A page closed by the harrow (R152): the job and its page offset; `second` marks the attempt after an abandoned
one. -/
structure Closed where
  job : Nat
  page : Nat
  second : Bool
  deriving DecidableEq, Repr

/-- Waiting MAINT work of a lane (R136): its lines, whether it is priority MAINT, and the access that its grant offers to
the memory controller (none for reads whose outcome a command's operand carries). -/
structure Maint where
  lines : Nat
  prio : Bool
  access : Option Access := none
  deriving DecidableEq, Repr

/-- Roles of a unit with spares (Table 6 of the lanes chapter). -/
inductive Role where
  | active | spare | draining | bypassed
  deriving DecidableEq, Repr

/-- A lane (R118): the group it serves, its role, the arbiter's pointers, deficits and MAINT credit (R135, R137), its
token buckets (R138), its MAINT queue and its counters. -/
structure Lane where
  group : Option Nat := none
  role : Role := .spare
  maint : List Maint := []
  /-- MAINT credit in thousandths of an eng-cycle -/
  credit : Int := 0
  /-- the harrow takes the next credit when other MAINT work waits too (R162) -/
  harrowNext : Bool := true
  ptrInfer : Nat := 0
  ptrBulk : Nat := 0
  defInfer : Tbl Nat := []
  defBulk : Tbl Nat := []
  /-- each partition's bucket in units of 1/61,440 line; none is a bucket at its full burst -/
  bucket : Tbl (Option Nat) := []
  /-- LZ_LANE_STAT.PROGRESS -/
  progress : Nat := 0
  /-- the lane's last BIST passed -/
  bistOk : Bool := false
  /-- a swap whose spare has passed BIST and loaded its state (R42): the spare -/
  swapTo : Option Nat := none
  /-- the readies have fallen under R129 -/
  full : Bool := false
  deriving DecidableEq, Repr

/-- A response that waits for its channel (R53): the group, class and order of acceptance that rank it, what it
presents, and the region row it counts as a reference of (R114). -/
structure Rsp where
  grp : Nat
  lane : Nat
  radio : Bool
  id : Nat
  ord : Nat
  row : Nat
  tid : BitVec 10
  status : Status
  data : List Line
  prov : Bool
  rdom : Nat
  deriving DecidableEq, Repr

/-- A response to a peer's request that waits for a frame (R266): its destination, lane, message tag, status and
data. -/
structure RemoteRsp where
  dest : Nat
  lane : Nat
  mtag : Nat
  status : Status
  data : Bytes
  deriving DecidableEq, Repr

/-- Harrow job states and scopes (R147, R148). -/
inductive JobSt where
  | free | queued | running | suspended | settled
  deriving DecidableEq, Repr

/-- Harrow scopes (LZ_HRW_CTL.SCOPE). -/
inductive Scope where
  | key | region | metadata | all
  deriving DecidableEq, Repr

/-- A harrow job record (R147 to R154, R158). -/
structure Job where
  st : JobSt := .free
  scope : Scope := .key
  auto : Bool := false
  /-- any region of the job is a turnover region -/
  radio : Bool := false
  old : Nat := 0
  new : Nat := 0
  /-- the regions of the job, in order; the head of those not passed is the current one -/
  todo : List Nat := []
  /-- the regions the headland has passed -/
  passed : List Nat := []
  /-- order of START -/
  order : Nat := 0
  /-- headland page offset in the current region -/
  head : Nat := 0
  /-- page offsets at or above the headland with their done bit set -/
  done : NatSet := []
  /-- page offsets whose first move was abandoned -/
  retry : NatSet := []
  /-- page offsets whose counter line is being fetched for the move (R152) -/
  fetching : NatSet := []
  /-- last acknowledged mark, in pages -/
  mark : Nat := 0
  /-- turnover time (R158), and the turnover values once it has taken effect: T or U for each region -/
  turnAt : Nat := 0
  turned : Bool := false
  thresh : List (Nat × Nat) := []
  /-- pages moved -/
  moved : Nat := 0
  deriving DecidableEq, Repr

/-- A re-tag record (R161): the node's level and index, its old entries and the cursor. -/
structure Retag where
  level : Nat
  idx : Nat
  old : CtrLine
  cursor : Nat
  /-- children above the cursor already written back under their new entry -/
  done : NatSet := []
  /-- the child at the cursor was fetched from memory for the re-tag -/
  fetched : Bool := false
  deriving DecidableEq, Repr

/-- Key kinds (Table 4 of the keys chapter). -/
inductive KeyKind where
  | empty | memory | cell | capability | flow | host | service
  deriving DecidableEq, Repr

/-- Key origins (R177). -/
inductive KeyOrigin where
  | derived | imported | agreed | mirror
  deriving DecidableEq, Repr

/-- A key slot (R176, R179, R184): the ledger-store entry. -/
structure Slot where
  kind : KeyKind := .empty
  origin : KeyOrigin := .derived
  noexport : Bool := false
  exp : Nat := 0
  succ : Nat := 0
  usage : Nat := 0
  dref : Nat := 0
  key : Key := 0
  /-- the cell number of a CELL slot -/
  cell : Nat := 0
  /-- the firmware measurement in force at its derivation; zero where M is zero (Table 6) -/
  meas : Digest := 0
  /-- rejected at restore (R186) -/
  failed : Bool := false
  deriving DecidableEq, Repr

/-- A credit request of a lane for a slot (R187). -/
structure CreditReq where
  lane : Nat
  slot : Nat
  deriving DecidableEq, Repr

/-- A row of the key cache: the slot whose schedule it holds (R179). -/
abbrev KeyRow := Nat

/-- The key manager beside the slots (R171 to R195). -/
structure KeyMgr where
  slots : Tbl Slot := []
  /-- VERSION of each ledger entry (R185) -/
  versions : Tbl Nat := []
  /-- VERSIONs of the copy being written by a rewrap -/
  newVersions : Tbl Nat := []
  /-- key serial: the next value (R173) -/
  serial : Nat := 1
  /-- memory key epoch (R172) -/
  epochCount : Nat := 0
  epochSalt : BitVec 256 := 0
  /-- current and next firmware measurements (R171) -/
  meas : Digest := 0
  measNext : Option Digest := none
  /-- ledger head (R185) -/
  ledgerGen : Nat := 0
  copyB : Bool := false
  rewrap : Bool := false
  ledgerKey : Key := 0
  ledgerKeyNext : Key := 0
  /-- metadata key, its generation and usage, and the next one of a META job (R178, R189) -/
  metaKey : Key := 0
  metaGen : Nat := 0
  metaUsage : Nat := 0
  metaKeyNext : Option Key := none
  /-- the root in use and whether its checks held (R167, R169) -/
  root : BitVec 256 := 0
  rootOk : Bool := false
  /-- slots that hold a key-cache row (R180), and spare rows in service (R182) -/
  cached : NatSet := []
  spareRows : NatSet := []
  /-- pinned slots of kinds other than CELL, in the order they were pinned (R181) -/
  pins : List Nat := []
  /-- lane credits (R187), keyed by slot × 64 + lane, and the credit requests in order -/
  credits : Tbl Nat := []
  creditReqs : List CreditReq := []
  /-- slots waiting for a successor (R188) -/
  noSucc : NatSet := []
  /-- exhausted keys that no job can move and that have been reported (R164) -/
  stuck : NatSet := []
  /-- slots whose automatic job start waits for a record (R146), and whether the META job of R189 waits for one -/
  autoWait : NatSet := []
  metaWait : Bool := false
  /-- driver references that commands of a partition's non-owner queues have taken (R415), keyed by slot × 64 +
  partition -/
  tenantRefs : Tbl Nat := []
  /-- entropy source and DRBG (R193 to R195) -/
  esFail : Bool := false
  drbgReady : Bool := false
  /-- the DRBG refuses until a reseed succeeds (R194) -/
  reseedDue : Bool := false
  /-- requests since the last reseed, and the domain time of it -/
  drbgCount : Nat := 0
  drbgTime : Nat := 0
  /-- draws made so far: the model's own index into the free draws -/
  draws : Nat := 0
  deriving DecidableEq, Repr

/-- Region logic beside the table (R83 to R111). -/
structure RgnLogic where
  rows : Tbl Region := []
  /-- LZ_RGN_EPSRC.NEXT (R95) -/
  epsrc : Nat := 1
  tspanBase : Nat := 0
  tspanCount : Nat := 0
  metaBase : Nat := 0
  metaCount : Nat := 0
  radioMeta : Nat := 0
  /-- interleave granule in bytes (R55) -/
  granule : Nat := 4096
  /-- resident counter-cache lines of levels 1 to 3, keyed by level × 2^32 + index -/
  cache : Tbl (Option Cached) := []
  /-- on-chip nodes of levels 4 and 5, same key -/
  tree : Tbl CtrLine := []
  /-- fetched metadata lines that wait for their parent -/
  arrived : List MetaArr := []
  deriving DecidableEq, Repr

/-- The lanes and everything in flight through them. -/
structure MemPath where
  lanes : Tbl Lane := []
  /-- requests waiting at their lanes, in transfer order -/
  ingress : List Txn := []
  /-- spanning parts whose partner has not transferred (R55) -/
  spans : List Txn := []
  /-- transaction identifiers in use, as group × 1024 + tid (R51) -/
  tids : List Nat := []
  /-- granted parts of spanning requests whose other part has not been granted -/
  spanGranted : List Txn := []
  /-- writes that wait for a credit decision (R187): the parts, the row, and whether the write was held -/
  waitCredit : List (List Txn × Nat) := []
  metaWrites : List MetaWrite := []
  reads : List Rd := []
  /-- accesses on lz_dmc_, offered or outstanding, in the order they were offered -/
  accesses : List Access := []
  wbuf : List WbLine := []
  held : List Held := []
  moves : List Move := []
  closed : List Closed := []
  rsps : List Rsp := []
  remoteRsps : List RemoteRsp := []
  /-- harrow moves' diagnostic re-reads that are out: the partition, the line, its counter block and key slot (R154) -/
  diags : List (Nat × LineRd) := []
  /-- engine writes that wait for a page closed by the harrow (R152, R155), in order -/
  closedWrites : List MetaWrite := []
  /-- lines whose stored tag is deliberately invalid (R108, R154, R412) -/
  poisoned : NatSet := []
  /-- next transfer number, held number and access tag -/
  nextId : Nat := 0
  /-- requests accepted so far (R53) -/
  accepts : Nat := 0
  nextTag : Nat := 0
  deriving DecidableEq, Repr

/-- The stile (R126 to R134). -/
structure Stile where
  steps : Tbl StepEnt := []
  /-- commits not yet done, in transfer order (R71) -/
  commits : List Nat := []
  deriving DecidableEq, Repr

/-- The harrow (R145 to R166). -/
structure Harrow where
  jobs : Tbl Job := []
  retags : List Retag := []
  /-- pages moved, modulo 2^32 -/
  progress : Nat := 0
  starts : Nat := 0
  deriving DecidableEq, Repr

end Sys2Proof.Machine
end

