-- ==== Sys2Proof/Machine/StateCore.lean ====
section
/-! DEFINITION. The state of the block as a whole: life and bring-up, partitions at the boundary, reset domains,
faults and the gleaner, power. -/

namespace Sys2Proof.Machine

/-- Life-cycle states (R376). -/
inductive Lc where
  | blank | test | production | endOfLife
  deriving DecidableEq, Repr

/-- Life, bring-up and the boundary levels of the whole block (R48, R77, R390, R451). -/
structure Life where
  /-- decoded life-cycle state and whether the decode failed (LZ_LC_STATE) -/
  lc : Lc := .endOfLife
  decodeFail : Bool := false
  /-- LZ_READY -/
  ready : Bool := false
  phase : Nat := 0
  fail : Nat := 0
  warm : Bool := false
  restored : Bool := false
  /-- lz_por_n is released -/
  powered : Bool := false
  /-- the boundary level lz_blk_fence (R77) -/
  blkFence : Bool := true
  /-- lz_gen_cur -/
  genCur : Nat := 0
  /-- lz_warm_req (R417, R461) -/
  warmReq : Bool := false
  /-- PLL lock and a loss not yet followed by a warm reset (R461) -/
  pllLock : Bool := false
  lockLost : Bool := false
  /-- a warm reset waits for its settle or for the partner's restore (R295, R392) -/
  settling : Bool := false
  restoreWait : Bool := false
  /-- domain time in ns (R39), and how it is being slewed (R286): remaining ns to add or take away -/
  time : Nat := 0
  slew : Int := 0
  /-- lz_pwr_telem in mW -/
  telem : BitVec 16 := 0
  /-- cause of the last reset (LZ_RST_CTL.CAUSE), whether its settle was abandoned, warm resets counted -/
  rstCause : Nat := 0
  settleAbandoned : Bool := false
  warmCount : Nat := 0
  /-- the static address of the I3C target (R69), and the address that a controller has assigned to it -/
  i3cStatic : BitVec 7 := 0x4A
  i3cDynamic : Option (BitVec 7) := none
  deriving DecidableEq, Repr

/-- Causes of a hedge (R413): bit numbers of LZ_FLT_HEDGE.CAUSES. -/
inductive Cause where
  | owner | fallow | eol | reset | winnow
  deriving DecidableEq, Repr

/-- A winnow in progress (R415): its step, scope, bound in µs, and what has been done of the scrub. -/
structure WinnowRun where
  step : Nat
  scope : Nat
  bound : Nat
  scrubDone : Bool := false
  deriving DecidableEq, Repr

/-- An instance reset in progress (R345): its step and whether it squashes. -/
structure InstReset where
  step : Nat
  squash : Bool
  deriving DecidableEq, Repr

/-- A partition at the boundary and in the fault logic (R73 to R75, R345, R413, R415). -/
structure Part where
  /-- lz_acc_halt and lz_acc_halt_ack -/
  halt : Bool := false
  haltAck : Bool := false
  /-- lz_drain_req, the sampled lz_drain_ack, and whether the acknowledgement counts -/
  drainReq : Bool := false
  drainAck : Bool := false
  acked : Bool := false
  causes : List Cause := []
  /-- the request has fallen and the acknowledgement has not followed yet -/
  lowering : Bool := false
  /-- a HEDGE command waits for the acknowledgement -/
  hedgeBusy : Bool := false
  winnow : Option WinnowRun := none
  instReset : Option InstReset := none
  /-- a scrub request is presented and not answered (R75) -/
  scrub : Bool := false
  /-- dirty logging: which bitmap is active, and the pages not yet ORed into memory (R346) -/
  activeMap : Bool := false
  dirty : NatSet := []
  /-- pages of the bitmap before the last FLIP that are not yet ORed -/
  oldDirty : NatSet := []
  /-- pages already logged since the last flip -/
  logged : NatSet := []
  deriving DecidableEq, Repr

/-- An accelerator reset domain (R76): lz_rdom_fence and lz_rdom_fenced. -/
structure Rdom where
  fence : Bool := false
  fenced : Bool := false
  deriving DecidableEq, Repr

/-- Severities (Table 7 of the faults chapter). -/
inductive Sev where
  | info | notice | error | fatal
  deriving DecidableEq, Repr

/-- Event codes of the gleaner (R422, Table 8). -/
inductive Event where
  | tagFirst | poison | movePoison | stepPoisoned | bistFail | switchover | unitOut | engineReset | fwuStuck
  | harrowSettled | stileFull | cap75 | noSuccessor | keyStuck | ledgerReject | entropyFail | drainOverrun
  | scrubOverrun | scrubFailed | fenceOverrun | linkDown | brk | fallowHold | pairLost | dualPrimary | admitRefused
  | cfgSwap | cfgFail | ownerChange | margin | watchCross | inject | escalate | warmReset | powerCycleReq
  | bringupFail
  deriving DecidableEq, Repr

/-- Unit types of a source code (R421). -/
inductive Src where
  | lane | port | core | column | key | region | harrow | scu | pku | host | reeve | domain | pair | otp | sheaf
  | stile | fault | sensor | config | watch
  deriving DecidableEq, Repr

/-- A gleaner record (R421, Table 7). -/
structure GlnRec where
  time : Nat := 0
  seq : Nat := 0
  src : Nat := 0
  code : Nat := 0
  part : Nat := 0
  flags : Nat := 0
  arg0 : Nat := 0
  arg1 : Nat := 0
  deriving DecidableEq, Repr

/-- A record on its way to the gleaner (R420): its source, event, severity, partition, arguments and whether an
injection caused it. -/
structure Staged where
  src : Src
  inst : Nat
  ev : Event
  sev : Sev
  part : Option Nat
  arg0 : Nat
  arg1 : Nat
  rehearsal : Bool := false
  deriving DecidableEq, Repr

/-- An armed TAG injection (R424), or one whose read is in progress. -/
structure TagInject where
  line : Nat
  dbl : Bool
  /-- the read that took it -/
  taken : Option Nat := none
  deriving DecidableEq, Repr

/-- Fault logic, gleaner and rehearsal (R404 to R429). -/
structure Faults where
  /-- the ring of 4,096 records, by position -/
  ring : Tbl GlnRec := []
  head : Nat := 0
  seq : Nat := 0
  wrapped : Bool := false
  frozen : Bool := false
  staging : List Staged := []
  /-- a record was dropped, so that the next one written carries LOST -/
  lost : Bool := false
  tagInject : Option TagInject := none
  /-- ports dropped by a LINK injection -/
  linkDrop : List Nat := []
  /-- domain times of the injections of the last second, newest first -/
  injTimes : List Nat := []
  /-- margin sources whose event has fired and is not re-armed -/
  marginFired : NatSet := []
  deriving DecidableEq, Repr

/-- The ramp throttle (R457): the estimate of the present window, the estimate of the one before it and the RAMP
that governs it, in units of 0.1 pJ and 0.1 µs; the first window follows an idle one. -/
structure Throttle where
  estimate : Nat := 0
  prev : Nat := 0
  ramp : Nat := 20
  /-- a grant was withheld in the present window -/
  withheld : Bool := false
  /-- LZ_PWR_RAMP.THROTTLING: a grant was withheld in the last completed window -/
  throttling : Bool := false
  deriving DecidableEq, Repr

end Sys2Proof.Machine
end

