-- ==== Sys2Proof/Machine/StateDomain.lean ====
section
/-! DEFINITION. The state of the domain agent and of the redundancy pair (R275 to R302). -/

namespace Sys2Proof.Machine

/-- Domain agent states (Table 1 of the domain chapter). -/
inductive DomState where
  | detached | joining | member | seat | fallowHold | leaving
  deriving DecidableEq, Repr

/-- A ballot that is held (R282): its fields and the hash of its bytes. -/
structure Ballot where
  unit : Nat
  epoch : Nat
  notBefore : Nat
  notAfter : Nat
  hash : Digest
  bytes : Bytes
  deriving DecidableEq, Repr

/-- A domain epoch with its key (R283): a current, next or old one. -/
structure EpochKey where
  epoch : Nat
  key : BitVec 256
  members : NatSet
  gens : Tbl Nat
  deriving DecidableEq, Repr

/-- A member key record (R281). -/
structure MemberRec where
  ident : BitVec 128
  gen : Nat
  ek : Bytes
  ecdh : Bytes
  deriving DecidableEq, Repr

/-- An epoch advance that this block runs as seat (R283): the epoch, its key, the membership and generations proposed,
who has answered PREPARED, and, once COMMIT is sent, who has not answered COMMITTED. -/
structure Advance where
  epoch : Nat
  key : BitVec 256
  members : NatSet
  gens : Tbl Nat
  prepared : NatSet := []
  waiting : Option NatSet := none
  deriving DecidableEq, Repr

/-- An admission exchange (R278): the other unit, the exchange identifier, and the bodies so far. -/
structure Exch where
  peer : Nat
  exch : Nat
  bodies : Bytes
  /-- the unit identity and generation that HELLO named -/
  ident : BitVec 128 := 0
  gen : Nat := 0
  deriving DecidableEq, Repr

/-- The domain agent. -/
structure Domain where
  state : DomState := .detached
  cur : Option EpochKey := none
  next : Option EpochKey := none
  old : Option EpochKey := none
  /-- count used last by this block as seat (R277) -/
  lastCount : Nat := 0
  records : Tbl (Option MemberRec) := []
  ballot : Option Ballot := none
  leaseEnd : Nat := 0
  /-- joining: the candidate being tried, by rank; the exchange with it; when joining began -/
  cand : Nat := 0
  exch : Option Exch := none
  joinedAt : Nat := 0
  /-- a JOIN command that waits for its end -/
  joinBusy : Bool := false
  leaveBusy : Bool := false
  advanceBusy : Bool := false
  /-- as candidate or seat: exchanges with joiners; joiners admitted for the next PREPARE -/
  exchs : List Exch := []
  admitted : NatSet := []
  advance : Option Advance := none
  /-- members this block marked fenced (R290) -/
  fenced : NatSet := []
  /-- domain time of each member's last HEARTBEAT -/
  heard : Tbl Nat := []
  /-- units a change of membership should leave out -/
  drop : NatSet := []
  /-- an ADMIT with status OK has come, and the epoch is awaited -/
  admitOk : Bool := false
  /-- members that have been sent the ballot held (R287) -/
  ballotSent : NatSet := []
  /-- the membership or a generation is to change once the advance in progress has ended -/
  again : Bool := false
  /-- a flow at FGEN 16,383 has asked for an epoch advance (R255) -/
  asked : Bool := false
  /-- the ML-KEM and ECDH key pairs of this start (R281), by number -/
  keyNo : Nat := 0
  nextExch : Nat := 1
  deriving DecidableEq, Repr

/-- Pair states (LZ_PAIR_STAT.STATE). -/
inductive PairState where
  | disabled | bootstrap | up | lost
  deriving DecidableEq, Repr

/-- Items of a mirror record (R292): type, index and data, in rising order of type and index. -/
abbrev Items := List (Nat × Nat × Bytes)

/-- A mirror record sent and not acknowledged: its sequence, step, kind, and the roots as they stood at its snapshot. -/
structure MirrorRec where
  seq : Nat
  step : Nat
  settle : Bool
  full : Bool
  snap : Items
  deriving DecidableEq, Repr

/-- The image of the partner's roots (R292, R293, R296). -/
structure Image where
  held : Bool := false
  stale : Bool := false
  settle : Bool := false
  seq : Nat := 0
  items : Items := []
  /-- which copy is active, and the versions of the two -/
  copyB : Bool := false
  verA : Nat := 0
  verB : Nat := 0
  deriving DecidableEq, Repr

/-- The redundancy pair. -/
structure Pair where
  state : PairState := .disabled
  /-- LZ_PAIR_STAT.RESTORE: 0 VIRGIN, 1 SETTLE, 2 COMMIT -/
  restore : Nat := 0
  linkKey : Key := 0
  txCount : Nat := 0
  seq : Nat := 0
  unacked : List MirrorRec := []
  /-- the roots of the last acknowledged record -/
  acked : Items := []
  /-- the next record is a full one (R296) -/
  fullDue : Bool := true
  /-- cells of the PAIR plot with true where this block is PRIMARY (R297) -/
  cells : Tbl (Option Bool) := []
  image : Image := {}
  /-- CLAIMs are being sent (R298) -/
  claiming : Bool := false
  /-- the partner's ECDSA public key and the highest pair epoch taken from a CLAIM (R299) -/
  partnerKey : Bytes := []
  claimEpoch : Nat := 0
  /-- the highest pair epoch seen in a conflict, for the next bootstrap (R300) -/
  conflictEpoch : Nat := 0
  /-- this block's slot for each cell key slot of the partner (R297) -/
  mirrorSlots : Tbl Nat := []
  /-- slots whose cell keys the partner has acknowledged (R297) -/
  mirroredCells : NatSet := []
  /-- roots that changed outside a commit wait for room for their record -/
  rootsDue : Bool := false
  /-- the measurement in the partner's P_EVIDENCE (R296) -/
  evidence : Digest := 0
  /-- a RESTORE_REQ that came while this block settled or restarted (R301): whether the image's lines verify, and the
  unit -/
  reqWait : Option (Bool × BitVec 128) := none
  /-- the cell key of the radio link in force (R253, R255) -/
  radioSlot : Nat := 0
  deriving DecidableEq, Repr

end Sys2Proof.Machine
end

