-- ==== Sys2Proof/Machine/StateDigest.lean ====
section
/-! DEFINITION. The state of the Stavub engine, the watches, the token sessions and the sheaf assembler (R198 to
R250). -/

namespace Sys2Proof.Machine

/-- States of a digest context (Table 17 of the Stavub chapter). -/
inductive CtxSt where
  | free | opened | closing | gathering | final | incomplete
  deriving DecidableEq, Repr

/-- A digest context (R207 to R209): its descriptor, coverage, reason bits, accumulator (an empty list is 1,024 zero
lanes), digest, the units that have sent it records, and the region whose seal uses it (R221). -/
structure Ctx where
  st : CtxSt := .free
  id : BitVec 128 := 0
  fmt : Nat := 0
  axis : Nat := 0
  dims : List Nat := []
  hash : BitVec 256 := 0
  n : Nat := 0
  part : Nat := 0
  sharded : Bool := false
  gatherer : Bool := false
  expose : Bool := false
  gatherUnit : Nat := 0
  gatherCtx : Nat := 0
  timeout : Nat := 0
  cover : List (Nat × Nat) := []
  reason : NatSet := []
  acc : List Nat := []
  digest : Digest := 0
  senders : NatSet := []
  sealRow : Option Nat := none
  deriving DecidableEq, Repr

/-- Where the remote part of a straddling segment stands (R216): none, waiting for the context's CLOSE, due, asked for,
or here. -/
inductive Fetch where
  | none | atClose | due | out | done (b : Bytes)
  deriving DecidableEq, Repr

/-- Paths of a segment (Table 7 of the Stavub chapter). -/
inductive Path where
  | read | write | scan
  deriving DecidableEq, Repr

/-- An armed segment (R211, R213): its number, its descriptor's fields, the bytes taken so far, its remote part, and
whether its chunk has been hashed while its step is uncommitted. -/
structure Seg where
  no : Nat
  path : Path
  ctx : Nat
  step : Nat
  chunk : Nat
  off : Nat
  len : Nat
  clen : Nat
  addr : Nat
  rdest : Nat
  raddr : Nat
  rlen : Nat
  rkidx : Nat
  got : Tbl Byte := []
  fetch : Fetch := .none
  hashed : Bool := false
  committed : Bool := false
  deriving DecidableEq, Repr

/-- Where an assembly slot stands (R215, R222): filling, complete and waiting for a core, or on a core. -/
inductive AsmSt where
  | filling | ready | onCore (core : Nat)
  deriving DecidableEq, Repr

/-- An assembly slot in use: its context and chunk. -/
structure Asm where
  ctx : Nat
  chunk : Nat
  clen : Nat
  st : AsmSt := .filling
  deriving DecidableEq, Repr

/-- A unit with spares that is neither a lane nor a port (R223, R427): its role, whether its last BIST passed, and the
spare of a swap in progress. -/
structure UnitSt where
  role : Role := .active
  bistOk : Bool := false
  swapTo : Option Nat := none
  deriving DecidableEq, Repr

/-- The Stavub engine. -/
structure Stv where
  ctxs : Tbl Ctx := []
  segs : List Seg := []
  asms : List Asm := []
  cores : Tbl UnitSt := []
  progress : Nat := 0
  nextNo : Nat := 0
  deriving DecidableEq, Repr

/-- What a watch has accumulated (R228 to R232): an exact integer or count, the two halves of INF and SAT, the
extreme of MIN and MAX with the element that gave it, and the counts of HIST. -/
structure WatchAcc where
  a : Int := 0
  b : Nat := 0
  seen : Bool := false
  negInf : Bool := false
  posInf : Bool := false
  index : Nat := 0
  code : Nat := 0
  bins : List Nat := List.replicate 19 0
  deriving DecidableEq, Repr

/-- Watch states (Table 3 of the watch chapter). -/
inductive WatchSt where
  | free | armed | done
  deriving DecidableEq, Repr

/-- A watch (R228, R233, R234); `fmt` is the format of the tensor it watches. -/
structure Watch where
  st : WatchSt := .free
  cfg : Nat := 0
  thresh : Nat := 0
  part : Nat := 0
  fmt : Nat := 0
  ctxSt : CtxSt := .free
  covered : Nat := 0
  crossed : Bool := false
  acc : WatchAcc := {}
  deriving DecidableEq, Repr

/-- Token session states (Table 4 of the watch chapter). -/
inductive TokSt where
  | free | opened | closed | incomplete
  deriving DecidableEq, Repr

/-- A token session (R236, R237): its region, the next line to take, its identifier, count and chain; `closing` marks a
CLOSE that still takes the records below the HWM of its effect cycle, and `origin` who asked for it. -/
structure Tok where
  st : TokSt := .free
  part : Nat := 0
  row : Nat := 0
  next : Nat := 0
  id : BitVec 128 := 0
  count : Nat := 0
  chain : Digest := 0
  closing : Option Nat := none
  origin : Option Origin := none
  deriving DecidableEq, Repr

/-- Where a SHEAF command stands (R239): waiting for its step and sources, appended to a stook, or its bundle held back
by a winnow (R248). -/
inductive SheafSt where
  | waiting | appended
  deriving DecidableEq, Repr

/-- A SHEAF command (R238 to R240): its place, request, and the sheaf once it is filled. -/
structure SheafJob where
  q : Nat
  k : Nat
  tag : Nat
  part : Nat
  waitStep : Bool
  step : Nat
  profile : Nat
  graph : Bytes
  patch : Bytes
  outAddr : Nat
  entries : List (Nat × Nat)
  drill : Digest
  stepStatus : Option Nat := none
  st : SheafSt := .waiting
  sheaf : Bytes := []
  deriving DecidableEq, Repr

/-- A leaf of a stook: its hash, and the place of the SHEAF command that it belongs to, until that command is
aborted. -/
structure Leaf where
  hash : Digest
  job : Option (Nat × Nat)
  deriving DecidableEq, Repr

/-- A stook that is signing (R243): its leaves, sequence and domain time of close. -/
structure Signing where
  leaves : List Leaf
  seq : Nat
  time : Nat
  deriving DecidableEq, Repr

/-- The sheaf assembler. `closeDue` is a stook that has closed while another signs; `sinceAck` the stooks signed since
the partner last acknowledged a mirror record. -/
structure Shf where
  jobs : List SheafJob := []
  leaves : List Leaf := []
  closeDue : Option Nat := none
  signing : Option Signing := none
  sinceAck : Nat := 0
  progress : Nat := 0
  deriving DecidableEq, Repr

/-- The digest side of the block. -/
structure Dig where
  stv : Stv := {}
  watches : Tbl Watch := []
  toks : Tbl Tok := []
  shf : Shf := {}
  deriving DecidableEq, Repr

end Sys2Proof.Machine
end

