-- ==== Sys2Proof/Machine/StateSvc.lean ====
section
/-! DEFINITION. The state of the service queues, the service cipher unit, the drills and the host interface (R303 to
R352). -/

namespace Sys2Proof.Machine

/-- A service descriptor in decoded form (R308, Table 1). -/
structure Desc where
  op : Nat := 0
  flags : Nat := 0
  step : Nat := 0
  tag : Nat := 0
  kidx : Nat := 0
  arg16 : Nat := 0
  len : Nat := 0
  src : Nat := 0
  dst : Nat := 0
  arg0 : Nat := 0
  arg1 : Nat := 0
  arg2 : Nat := 0
  deriving DecidableEq, Repr

/-- Where a command in flight stands: fetched and admitted, running on its engine, or finished with a record to
write. -/
inductive CmdSt where
  | fetched | running | done
  deriving DecidableEq, Repr

/-- A drill run (R325): the drill, its steps still to run as 64 B descriptors, the parameters, the number of the step
that runs, and how many have completed SUCCESS. -/
structure DrillRun where
  drill : Nat
  steps : List Bytes
  step : Nat
  ok : Nat
  digest : Digest
  /-- the TAG and FLAGS of the DRILL_RUN command itself -/
  tag : Nat
  flags : Nat
  deriving DecidableEq, Repr

/-- A command in flight (R305, R310): its place, submission index and ordinal, descriptor, whether its queue was the
owner's at its fetch, its state, and what its record will carry; `input`, `output` and `pos` serve the SCU and the
held host writes; `stripes` and `failed` the gang mode. -/
structure Cmd where
  k : Nat
  idx : Nat
  ord : Nat
  desc : Desc
  owner : Bool
  st : CmdSt := .fetched
  status : Nat := 0
  detail : Nat := 0
  count : Nat := 0
  res0 : Nat := 0
  res1 : Nat := 0
  input : Bytes := []
  output : Bytes := []
  pos : Nat := 0
  gang : Bool := false
  stripes : NatSet := []
  failed : Nat := 0
  drill : Option DrillRun := none
  deriving DecidableEq, Repr

/-- Queue and channel states (LZ_SVC_QSTAT.STATE). -/
inductive QState where
  | disabled | running | stopped | draining
  deriving DecidableEq, Repr

/-- A service queue (R303 to R307): its state, ring indices, parity, the ordinals of its binding, the commands in
flight, and its progress counter. -/
structure SvcQ where
  state : QState := .disabled
  sqTail : Nat := 0
  sqHead : Nat := 0
  cqTail : Nat := 0
  cqHead : Nat := 0
  phase : Bool := true
  cmds : List Cmd := []
  progress : Nat := 0
  deriving DecidableEq, Repr

/-- The SCU arbiter (R319): the partition and queue last granted, how many bursts in a row, the queue last granted in
each partition, the command whose burst is in progress, and the service-operation buckets in thousandths of a token. -/
structure Scu where
  part : Nat := 63
  count : Nat := 0
  queue : Nat := 0
  qcount : Nat := 0
  lastQueue : Tbl Nat := []
  progress : Nat := 0
  pkuProgress : Nat := 0
  bucket : Tbl (Option Nat) := []
  deriving DecidableEq, Repr

/-- A stored drill (R293, R324). -/
structure Drill where
  owner : Bool
  part : Nat
  s : Nat
  p : Nat
  q : Nat
  version : Nat
  digest : Digest
  image : Bytes
  deriving DecidableEq, Repr

/-- The service side. -/
structure Svc where
  queues : Tbl SvcQ := []
  scu : Scu := {}
  drills : Tbl (Option Drill) := []
  deriving DecidableEq, Repr

/-- A binding of a HOST slot to a queue or bounce channel (R332), with the ordinals of its items. -/
structure Binding where
  slot : Nat
  chan : Bool
  obj : Nat
  sq : Nat := 0
  cq : Nat := 0
  xfer : Nat := 0
  spent : Bool := false
  deriving DecidableEq, Repr

/-- An SPDM session (R336, R338): its number, whether FINISH has established it, and its HOST slots. -/
structure Session where
  no : Nat
  live : Bool := false
  slots : List Nat := []
  deriving DecidableEq, Repr

/-- A bounce transfer (R342, Table 5): its ring entry and ordinal, its descriptor's fields, the payload read so far,
and how it ended. -/
structure Xfer where
  idx : Nat
  no : Nat
  op : Nat := 0
  step : Option Nat := none
  actr : Option Nat := none
  kidx : Nat := 0
  len : Nat := 0
  dev : Nat := 0
  host : Nat := 0
  data : Bytes := []
  count : Nat := 0
  done : Bool := false
  status : Nat := 0
  detail : Nat := 0
  deriving DecidableEq, Repr

/-- A bounce channel (R342); `waiting` is a transfer whose host pages are being translated (R340). -/
structure Chan where
  state : QState := .disabled
  head : Nat := 0
  tail : Nat := 0
  xfers : List Xfer := []
  waiting : Option Xfer := none
  progress : Nat := 0
  /-- transfers started while no HOST slot is bound -/
  count : Nat := 0
  deriving DecidableEq, Repr

/-- A cached translation (R340): attachment, PASID plus one (zero for none), virtual and physical page, permission
bits. -/
structure Trans where
  att : Nat
  pasid : Nat
  va : Nat
  pa : Nat
  perm : Nat
  deriving DecidableEq, Repr

/-- What waits for a translation (R340): a service command, a queue's ring, or a channel's transfer. -/
inductive Waiter where
  | cmd (q k : Nat)
  | ring (q : Nat)
  | xfer (c : Nat)
  deriving DecidableEq, Repr

/-- A translation request that is out (R340). -/
structure AtsReq where
  att : Nat
  pasid : Nat
  va : Nat
  who : List Waiter
  deriving DecidableEq, Repr

/-- A host DMA read that is outstanding (R333): its tag, the attachment, the command or transfer it serves with its
ordinal, the partition, and the payload bytes of its segment. -/
structure HostRead where
  tag : Nat
  att : Nat
  chan : Bool
  obj : Nat
  k : Nat
  no : Nat
  part : Nat
  n : Nat
  deriving DecidableEq, Repr

/-- The host interface. -/
structure HostIf where
  bindings : List Binding := []
  /-- sessions of mailboxes 0 to 64; 65 is the MCTP path's -/
  sessions : Tbl (Option Session) := []
  sessCount : Nat := 0
  /-- the mailbox that made each HOST slot, plus one -/
  slotBox : Tbl Nat := []
  atc : List Trans := []
  atsOut : List AtsReq := []
  /-- invalidations that wait for outstanding DMA: the attachment, and the tags of the reads -/
  atsInv : List (Nat × List Nat) := []
  chans : Tbl Chan := []
  reads : List HostRead := []
  /-- HOST slots whose 75 % warning has been given (R334) -/
  warned : NatSet := []
  progress : Nat := 0
  deriving DecidableEq, Repr

end Sys2Proof.Machine
end

