-- ==== Sys2Proof/Machine/StateLife.lean ====
section
/-! DEFINITION. The state of ownership, OTP, the block store, life-cycle transitions and firmware updates (R353 to
R403), of the units under LZ_FLT_UNIT (R427), and of observation (R431 to R443). -/

namespace Sys2Proof.Machine

/-- A claim that is being checked (R356): its bank's port, the domain time of its posting, and the copy of its bank. -/
structure Claim where
  port : Nat
  time : Nat
  bytes : Bytes
  deriving DecidableEq, Repr

/-- Ownership beside its registers: the claims posted, in order, and when an OPEN handover ends (R360). -/
structure Own where
  claims : List Claim := []
  lapseAt : Nat := 0
  deriving DecidableEq, Repr

/-- The OTP array (R384 to R387): its rows by number, the spare row that has served each word since the last phase OTP,
and the words whose repair waits for the next power-up. -/
structure Otp where
  rows : Tbl Nat := []
  remap : Tbl (Option Nat) := []
  repairs : NatSet := []
  deriving DecidableEq, Repr

/-- What the boot ROM takes from a firmware image (R395): version, security version and measurement. -/
structure Firmware where
  version : Nat
  security : Nat
  meas : Digest
  deriving DecidableEq, Repr

/-- The block store (R389): the active slot, the images written by STAGE, the configuration image, the identity keys
written at the first PRODUCTION start and the certificate chain that CERT has written. An area of images that is `none`
holds what manufacturing left there. -/
structure Store where
  slotB : Bool := false
  fwA : Option Bytes := none
  fwB : Option Bytes := none
  config : Option Bytes := none
  idKeys : Bool := false
  chain : Option Bytes := none
  deriving DecidableEq, Repr

/-- Update states (Table 11 of the life-cycle chapter). -/
inductive FwuSt where
  | idle | staged | booting | keyed | moving | handover | stuck
  deriving DecidableEq, Repr

/-- A hitless firmware update (R397 to R401): its state, the boots of the attempt, the running and the staged firmware,
the ALL and META jobs it started, and whether it is being abandoned. -/
structure Fwu where
  st : FwuSt := .idle
  boots : Nat := 0
  running : Option Firmware := none
  staged : Option Firmware := none
  jobs : List Nat := []
  abandoning : Bool := false
  /-- the spare reeve core that runs the staged firmware (R397) -/
  core : Option Nat := none
  /-- the keys were derived before a warm reset and are not derived again (R401) -/
  derived : Bool := false
  /-- while abandoning: the jobs that move back have started (R400) -/
  back : Bool := false
  deriving DecidableEq, Repr

/-- Life-cycle transitions (R380 to R383): a transition that awaits its reset, the state in force before a warm reset,
and an END_OF_LIFE wipe that is not finished. -/
structure LcTrans where
  pending : Nat := 0
  /-- the new transition nonce waits for the DRBG (R194, R196) -/
  nonceWait : Bool := false
  before : Option Lc := none
  wiping : Bool := false
  deriving DecidableEq, Repr

/-- A trace record (R436, Table 2). -/
structure TraceRec where
  time : Nat := 0
  seq : Nat := 0
  cls : Nat := 0
  ev : Nat := 0
  src : Nat := 0
  part : Nat := 0xFF
  flags : Nat := 0
  a16 : Nat := 0
  a32 : Nat := 0
  a64 : Nat := 0
  deriving DecidableEq, Repr

/-- Observation (R431 to R443): the trace ring by sequence modulo 32,768, the next sequence and how many records are
held, the staging queue, whether a record was dropped, the 512 counters, each port's latch, the classes a reopening
gave a port, each bank's nonce, and the grants of each lane since its last REQ_SAMPLE. -/
structure Obs where
  ring : Tbl TraceRec := []
  next : Nat := 0
  held : Nat := 0
  staging : List TraceRec := []
  lost : Bool := false
  cnts : Tbl Nat := []
  latch : Tbl (Option (Nat × Nat)) := []
  reopened : Tbl Nat := []
  nonce : Tbl (Option (BitVec 256)) := []
  sample : Tbl Nat := []
  deriving DecidableEq, Repr

/-- What a warm reset keeps for a restore (R186, R293, R296): of the key slots, what their ledger entries do not hold, and of
device memory the stored drills and the image of the partner's roots. -/
structure Kept where
  slots : Tbl Slot := []
  drills : Tbl (Option Drill) := []
  image : Image := {}
  deriving DecidableEq, Repr

/-- Sources of power-cycle requests and the units under LZ_FLT_UNIT. -/
structure Units where
  /-- by type × 2^16 + index (R427) -/
  units : Tbl UnitSt := []
  /-- power-cycle requests are being sent (R419) -/
  pwrReq : Bool := false
  /-- engines without spares that failed their tests at a reset, by their number in Table 4 of the faults chapter -/
  dead : NatSet := []
  deriving DecidableEq, Repr

end Sys2Proof.Machine
end

