-- ==== Sys2Proof/Machine/StateLink.lean ====
section
/-! DEFINITION. The state of the link ports and of the Rhotraik fabric (R251 to R274): messages, flows, outstanding
requests at the source and at the target, capabilities and arrival counters. -/

namespace Sys2Proof.Machine

/-- A message: the header of Table 3 (R261) and its data. `flags` is byte 2: bits [3:0] atomic code, bit 4 ARRIVE. -/
structure Msg where
  mtype : Nat
  op : Nat := 0
  flags : Nat := 0
  part : Nat := 0
  tag : Nat := 0
  cls : Nat := 0
  gen : Nat := 0
  addr : Nat := 0
  capidx : Nat := 0
  actr : Nat := 0
  rights : Nat := 0
  last : Bool := true
  /-- capability check (REQUEST) or credit returned (RESPONSE, CREDIT) -/
  word : Nat := 0
  data : Bytes := []
  deriving DecidableEq, Repr

/-- A transmitting flow (R251 to R256, R259): its destination and lane, whether it is keyed under epoch 0, its
generation, key slot, domain epoch, port and whether it is DOWN, the next sequence, the credit left, the messages that
have entered it and are not sealed, the CONTROL messages sealed under this generation with their sequences, and the
order of its last use. -/
structure TxFlow where
  dest : Nat
  lane : Nat
  epoch0 : Bool := false
  fgen : Nat
  slot : Nat := 0
  epoch : Nat := 0
  port : Nat
  down : Bool := false
  seq : Nat := 1
  credit : Nat := 16384
  /-- payload bytes sealed whose credit has not returned -/
  due : Nat := 0
  waiting : List Msg := []
  sent : List (Nat × Msg) := []
  used : Nat := 0
  deriving DecidableEq, Repr

/-- Two names of one transmitting flow: destination, lane, generation, and the epoch whose table it stands in. -/
def TxFlow.same (f x : TxFlow) : Bool :=
  x.dest == f.dest && x.lane == f.lane && x.epoch0 == f.epoch0 && x.fgen == f.fgen && x.epoch == f.epoch

/-- A receiving flow (R254, R258 to R260): its source and lane, generation, key slot, the next sequence expected, whether
its generation is broken, the bytes of credit owed, and the receive space granted to it (R259). -/
structure RxFlow where
  src : Nat
  lane : Nat
  epoch0 : Bool := false
  fgen : Nat
  slot : Nat := 0
  epoch : Nat := 0
  port : Nat
  down : Bool := false
  next : Nat := 1
  broken : Bool := false
  owed : Nat := 0
  window : Nat := 16384
  used : Nat := 0
  deriving DecidableEq, Repr

/-- Two names of one receiving flow. -/
def RxFlow.same (f x : RxFlow) : Bool :=
  x.src == f.src && x.lane == f.lane && x.epoch0 == f.epoch0 && x.fgen == f.fgen && x.epoch == f.epoch

/-- Roles of a port (Table 8 of the links chapter). -/
inductive PortRole where
  | fabric | pair | spare | draining | bypassed
  deriving DecidableEq, Repr

/-- A link crypto port (R271, R272): the attachment it serves, its role, whether its last BIST passed, a swap in
progress, and its progress counter. -/
structure Port where
  att : Option Nat := none
  role : PortRole := .spare
  bistOk : Bool := false
  swapTo : Option Nat := none
  progress : Nat := 0
  /-- destination units the PORTS plot gives the port, as ranges (R271) -/
  ranges : List (Nat × Nat) := []
  deriving DecidableEq, Repr

/-- A fabric request outstanding at its source (R266, R270): its message tag, interface, fields, whether it was held
(lz_frsp_prov), the flow it entered (none while it waits for a flow entry, or a COPY for its local read), the frames of
its messages, each as domain epoch, generation and sequence, and what its response has brought so far. -/
structure FabOut where
  mtag : Nat
  intf : Nat
  req : FabReq
  prov : Bool := false
  entered : Bool := false
  lane : Nat := 1
  seqs : List (Nat × Nat × Nat) := []
  /-- its last message has been sealed -/
  sealed : Bool := false
  /-- lz_frsp_ has been answered (COPY) -/
  answered : Bool := false
  data : List Line := []
  deriving DecidableEq, Repr

/-- A request from a peer at this block (R265, R266): its source, lane and message tag, the messages of it that have
not taken effect, whether its LAST message has come, and what its response will carry. -/
structure RemReq where
  src : Nat
  lane : Nat
  mtag : Nat
  op : Nat
  out : List Nat := []
  closed : Bool := false
  status : Option Status := none
  /-- response data, by line address -/
  data : Tbl Bytes := []
  deriving DecidableEq, Repr

/-- A capability map entry (R264): partition, target unit, capability index, rights and token. -/
structure CapEnt where
  part : Nat
  unit : Nat
  capidx : Nat
  rights : Nat
  token : Block
  deriving DecidableEq, Repr

/-- An arrival counter (R269). -/
structure Actr where
  part : Nat := 0
  count : Nat := 0
  target : Nat := 0
  valid : Bool := false
  armed : Bool := false
  err : Bool := false
  deriving DecidableEq, Repr

/-- A GRANT or REVOKE that waits for the holder's answer (R264, R274): its message tag, who asked, and which it is. -/
structure GrantRun where
  mtag : Nat
  holder : Nat
  origin : Origin
  revoke : Bool
  deriving DecidableEq, Repr

/-- The links and the fabric. -/
structure Links where
  ports : Tbl Port := []
  /-- attachments whose lz_link_up is high -/
  up : NatSet := []
  tx : List TxFlow := []
  rx : List RxFlow := []
  /-- the CONTROL generations that flows moved from last, with what was sealed under them (R260) -/
  past : List TxFlow := []
  /-- last FGEN used to each destination, and last accepted from each source, by lane and epoch (R254) -/
  txGen : Tbl Nat := []
  rxGen : Tbl Nat := []
  outs : List FabOut := []
  /-- fabric requests that wait for a flow entry (R256), in order -/
  waiting : List FabOut := []
  reqs : List RemReq := []
  /-- flags that wait for their predecessors (R268) -/
  flags : List Txn := []
  caps : List CapEnt := []
  actrs : Tbl Actr := []
  grant : Option GrantRun := none
  /-- messages of other agents that FRAME_RECEIVE has passed on: the source unit and the message -/
  inbox : List (Nat × Msg) := []
  nextTag : Nat := 0
  nextMsg : Nat := 0
  uses : Nat := 0
  deriving DecidableEq, Repr

end Sys2Proof.Machine
end

