-- ==== Sys2Proof/Machine/StateOut.lean ====
section
/-! DEFINITION. What the block presents at its boundary: one constructor for each kind of item. -/

namespace Sys2Proof.Machine

/-- A response beat (R53): its number, its two lines, and whether it is the last of its response. -/
structure Beat where
  no : Nat
  lo : Line
  hi : Line
  last : Bool
  deriving DecidableEq, Repr

/-- The beats of a response of some lines, from beat `k` on (R53): the unused upper half of an odd final beat is zero. -/
def beatsFrom (k : Nat) : List Line → List Beat
  | [] => []
  | [a] => [⟨k, a, 0, true⟩]
  | [a, b] => [⟨k, a, b, true⟩]
  | a :: b :: t => ⟨k, a, b, false⟩ :: beatsFrom (k + 1) t

/-- An item presented at the boundary (R45 to R82). -/
inductive Out where
  /-- a read response on lz_mrsp_ (R53) -/
  | mrsp (grp : Nat) (tid : BitVec 10) (st : Status) (beats : List Beat) (prov : Bool)
  /-- a write completion on lz_mwc_ (R54) -/
  | mwc (grp : Nat) (tid : BitVec 10) (st : Status) (prov : Bool)
  /-- an access that the memory controller accepted on lz_dmc_ (R58) -/
  | dmc (a : Access)
  /-- a response on lz_frsp_ (R60) -/
  | frsp (intf : Nat) (tid : BitVec 10) (st : Status) (beats : List Beat) (prov : Bool)
  /-- an arrival counter event on lz_arr_evt_ (R60) -/
  | arr (idx : Nat)
  /-- a stile event (R70): 0 RELEASED, 1 POISONED -/
  | stileEvt (step kind : Nat)
  /-- lz_step_done (R70) -/
  | stepDone (step status : Nat)
  /-- lz_acc_halt_ack[p] -/
  | haltAck (p : Nat) (level : Bool)
  /-- lz_drain_req[p] -/
  | drainReq (p : Nat) (level : Bool)
  /-- a scrub request (R75) -/
  | scrub (p scope : Nat)
  /-- lz_rdom_fenced[d] -/
  | rdomFenced (d : Nat) (level : Bool)
  /-- lz_warm_req -/
  | warmReq (level : Bool)
  /-- a sealed frame on lz_ltx_ of an attachment (R62) -/
  | frame (att : Nat) (f : Frame)
  /-- an MSI-X vector (R65) -/
  | msix (att vec : Nat)
  /-- an I3C in-band interrupt (R69) -/
  | ibi
  /-- an MCTP message to the tray controller (R69) -/
  | mctp (msg : Bytes)
  /-- a register access response on lz_hreg_ (R65) or in a message stream: the port, the data, the error -/
  | regRsp (port : Nat) (data : Word) (err : Bool)
  /-- a host DMA request (R65): attachment, write, tag, address type, address, length, data -/
  | hdma (att : Nat) (write : Bool) (tag : BitVec 10) (at_ : Nat) (addr : Nat) (len : Nat) (data : Bytes)
  /-- an ATS translation request (R65) -/
  | ats (att va pasid : Nat)
  /-- lz_hats_inv_done -/
  | atsInvDone (att : Nat)
  /-- a MAINT write of a memory ledger entry, to copy A or B, at the place the key manager keeps it (R183, R184) -/
  | ledger (copyB : Bool) (slot : Nat) (entry : Bytes)
  /-- MAINT writes of a whole copy of the partner's root image, A or B, line by line, at the places the block keeps it
  (R292, R293) -/
  | image (copyB : Bool) (lines : List (Line × BitVec 64))
  /-- zeros written over both copies of the memory ledger as MAINT traffic (R383) -/
  | ledgerZero
  /-- a message to a peer through the domain agent or the pair channel, by its name, destination and body -/
  | msg (name : String) (dest : Nat) (body : Bytes)
  deriving DecidableEq, Repr

end Sys2Proof.Machine
end

