-- ==== Sys2Proof/Machine/StatePlot.lean ====
section
/-! DEFINITION. The plots of a Pesum image in decoded form (R365, Table 9), and the state of the configuration
logic. -/

namespace Sys2Proof.Machine

/-- An entry of PARTITIONS (R365): the carve-out, PRESENT, RADIO, the initial EARLY, and the host window. -/
structure PartPlot where
  present : Bool := false
  radio : Bool := false
  early : Bool := false
  carveBase : Nat := 0
  carveCount : Nat := 0
  hwinBase : Nat := 0
  hwinPages : Nat := 0
  deriving DecidableEq, Repr

/-- An entry of PORTS (R365): role code, attachment, and the destination ranges in use. -/
structure PortPlot where
  role : Nat := 2
  att : Option Nat := none
  ranges : List (Nat × Nat) := []
  deriving DecidableEq, Repr

/-- An entry of KEYMAP (R365). -/
structure KeyPlot where
  slot : Nat
  kind : Nat
  exp : Nat
  cell : Nat
  deriving DecidableEq, Repr

/-- An entry of ARBITRATION for one partition (R365), as the registers it sets. -/
structure ArbPlot where
  weight : Nat := 1
  burst : Nat := 0
  rate : Nat := 0
  svcRate : Nat := 0
  svcBurst : Nat := 0
  hrate : Nat := 0
  hburst : Nat := 0
  deriving DecidableEq, Repr

/-- The DOMAIN plot (R275, R365). -/
structure DomPlot where
  domId : BitVec 128 := 0
  unit : Nat := 0
  gentag : Bool := false
  cands : List Nat := []
  fmDigest : Digest := 0
  testOk : Bool := false
  minVersion : Nat := 0
  meas : List Digest := []
  deriving DecidableEq, Repr

/-- The PAIR plot (R291, R365): the partner, the two PAIR attachments, the radio link key slot, and the cells with
true where this block is the initial primary. -/
structure PairPlot where
  partner : Nat := 0
  attA : Nat := 0
  attB : Nat := 0
  radioSlot : Nat := 0
  partnerId : BitVec 128 := 0
  cells : List (Nat × Bool) := []
  deriving DecidableEq, Repr

/-- The REHEARSAL plot (R365). -/
structure RehPlot where
  tag : Bool := false
  link : Bool := false
  lane : Bool := false
  canary : Nat := 0
  rate : Nat := 0
  ports : Nat := 0
  lanes : Nat := 0
  deriving DecidableEq, Repr

/-- A Pesum image in decoded form (R363, R365). -/
structure Pesum where
  version : Nat := 0
  unit : BitVec 128 := 0
  /-- SHA3-384 of the whole image -/
  hash : Digest := 0
  /-- digest of its authority keys (R364) -/
  authority : Digest := 0
  grade : Nat := 0
  accVersion : BitVec 128 := 0
  reeveVersion : Nat := 0
  profiles : List Nat := []
  parts : List PartPlot := []
  granule : Nat := 4096
  lanes : List Nat := []
  ports : List PortPlot := []
  metaBase : Nat := 0
  metaCount : Nat := 0
  tspanBase : Nat := 0
  tspanCount : Nat := 0
  radioMeta : Nat := 0
  regions : List (Nat × Region) := []
  keymap : List KeyPlot := []
  share : Nat := 0
  arb : List ArbPlot := []
  domain : Option DomPlot := none
  pair : Option PairPlot := none
  rehearsal : Option RehPlot := none
  /-- the OBSERVE grants of the six attach ports, if the plot is present -/
  observe : Option (List Nat) := none
  deriving DecidableEq, Repr

/-- Shadow states (LZ_CFG_STATUS.SHADOW). -/
inductive Shadow where
  | empty | loading | valid | invalid | preparing
  deriving DecidableEq, Repr

/-- The configuration logic (R363 to R375): the image in force, the shadow, a swap that waits for its effect cycle and
whether it persists, and the version ratchet. -/
structure Cfg where
  active : Option Pesum := none
  shadow : Shadow := .empty
  image : Option Pesum := none
  imageBytes : Bytes := []
  swapping : Bool := false
  persist : Bool := false
  /-- a swap in force whose persist copy is being written (R373) -/
  persisting : Bool := false
  persistBytes : Bytes := []
  /-- slots that the swap in preparation has allocated (R369) -/
  allocated : List Nat := []
  ratchet : Nat := 0
  /-- commands that came while a swap was prepared and wait for its end (R369), in arrival order; and whether one of them
  is being taken now -/
  waiting : List Instr := []
  resuming : Bool := false
  /-- the owner authority digest of TEST, taken from the first swap (R364) -/
  testAuthority : Option Digest := none
  deriving DecidableEq, Repr

end Sys2Proof.Machine
end

