-- ==== Sys2Proof/Machine/State.lean ====
section
/-! DEFINITION. The state of the block: every register, buffer, queue and mode the manual gives it, the items it has
presented at its boundary, and the commands that wait. Every field's default is its value at reset. -/

namespace Sys2Proof.Machine

/-- The state of the block. -/
structure State where
  /-- the register file (Table 4 of the register map): every register by offset, unlisted ones at their reset value;
  the copies of a banked register (R449) lie at (port + 1) × 2^24 above its offset -/
  regs : Tbl Word := []
  life : Life := {}
  mem : MemPath := {}
  rgn : RgnLogic := {}
  stile : Stile := {}
  harrow : Harrow := {}
  keys : KeyMgr := {}
  parts : Tbl Part := []
  /-- the PARTITIONS plot in force -/
  partPlot : Tbl PartPlot := []
  rdoms : Tbl Rdom := []
  faults : Faults := {}
  throttle : Throttle := {}
  cfg : Cfg := {}
  links : Links := {}
  dom : Domain := {}
  pair : Pair := {}
  svc : Svc := {}
  host : HostIf := {}
  dig : Dig := {}
  own : Own := {}
  otp : Otp := {}
  store : Store := {}
  fwu : Fwu := {}
  lct : LcTrans := {}
  obs : Obs := {}
  units : Units := {}
  kept : Kept := {}
  /-- everything presented at the boundary so far, newest first (the model's own field) -/
  out : List Out := []
  /-- free values used so far: the model's own index into the free values -/
  frees : Nat := 0
  /-- the commands that wait, first in, first out -/
  pending : List Instr := []
  deriving DecidableEq, Repr

/-- Why the block stops: what an integration must never do, after which the manual defines nothing (R3). -/
inductive Fault where
  /-- MEMORY_REQUEST or FABRIC_REQUEST that reuses a transaction identifier still outstanding on its interface (R51).
  Safe: the model stops where the manual defines nothing. -/
  | tidReused
  deriving DecidableEq, Repr

/-- Why the model refuses a command. -/
inductive Refusal where
  /-- an arm of exec whose command has no meaning yet. Safe: nothing is claimed of it. -/
  | notModelled (mnemonic : String)
  deriving DecidableEq, Repr

/-- The block right after power-on reset: every field at its reset value, nothing presented, no command waiting. -/
def State.reset : State := {}

end Sys2Proof.Machine
end

