-- ==== Sys2Proof/Machine/Ops.lean ====
section
/-! DEFINITION. The named operations over the state that every meaning uses: registers and their fields, outputs,
random draws and free values. -/

namespace Sys2Proof.Machine

/-- What a step answers. -/
abbrev Res := Host.Outcome State Fault Refusal

/-- The key of a register word in the register file: its offset, and for a banked register the bank of a port
(R449). -/
def Reg.key (r : Reg) (i j port : Nat) : Nat := if r.banked then (port + 1) * 2 ^ 24 + r.off i j else r.off i j

/-- The value of a register word in the register file. -/
def State.rd (s : State) (r : Reg) (i : Nat := 0) (j : Nat := 0) (port : Nat := 0) : Nat :=
  (tget (BitVec.ofNat 64 r.rst) s.regs (r.key i j port)).toNat

/-- Sets a register word in the register file. -/
def State.wr (s : State) (r : Reg) (v : Nat) (i : Nat := 0) (j : Nat := 0) (port : Nat := 0) : State :=
  { s with regs := tset (BitVec.ofNat 64 r.rst) s.regs (r.key i j port) (BitVec.ofNat 64 v) }

/-- The value of a field of a register instance. -/
def State.fld (s : State) (f : Fld) (i : Nat := 0) (port : Nat := 0) : Nat :=
  bits (s.rd f.reg i 0 port) f.lo f.width

/-- Sets a field of a register instance. -/
def State.setFld (s : State) (f : Fld) (v : Nat) (i : Nat := 0) (port : Nat := 0) : State :=
  s.wr f.reg (setBits (s.rd f.reg i 0 port) f.lo f.width v) i 0 port

/-- Adds to a counter field, which saturates at its largest value. -/
def State.addFld (s : State) (f : Fld) (n : Nat) (i : Nat := 0) (port : Nat := 0) : State :=
  s.setFld f (min (s.fld f i port + n) (2 ^ f.width - 1)) i port

/-- Adds one to a counter field, which saturates at its largest value. -/
def State.incFld (s : State) (f : Fld) (i : Nat := 0) (port : Nat := 0) : State := s.addFld f 1 i port

/-- Presents an item at the boundary. -/
def State.emit (s : State) (o : Out) : State := { s with out := o :: s.out }

/-- Presents items in order. -/
def State.emits (s : State) (os : List Out) : State := os.foldl State.emit s

/-- The block's outputs keep their reset values (R48): READY has not set, or a warm reset settles. -/
def State.outsReset (s : State) : Bool := !s.life.ready || s.life.settling

/-- The next draw of the DRBG (R195): at most 2^16 bits. -/
def State.drawn (s : State) (w : Nat) : BitVec w := Config.drbg w s.keys.draws

/-- The DRBG reseeds (R195). -/
def State.reseed (s : State) : State :=
  { s with keys := { s.keys with draws := s.keys.draws + 1, drbgReady := true, reseedDue := false, drbgCount := 0,
                                 drbgTime := s.life.time } }

/-- A reseed falls due (R195): 2^20 requests or one second after the last, or one that was not accepted (R194). -/
def State.drbgDue (s : State) : Bool :=
  s.keys.reseedDue || decide (2 ^ 20 ≤ s.keys.drbgCount ∨ s.keys.drbgTime + 1000000000 ≤ s.life.time)

/-- The DRBG answers ordinary requests (R194): none while a reseed is due and ES_FAIL is set. What needs a draw waits
while it does not (R196). -/
def State.drbgOk (s : State) : Bool := s.keys.drbgReady && !(s.drbgDue && s.keys.esFail)

/-- The DRBG answers requests with prediction resistance (R195), which reseed first. -/
def State.predOk (s : State) : Bool := s.keys.drbgReady && !s.keys.esFail

/-- Counts a draw of the DRBG, which has reseeded first when that was due (R195). -/
def State.drew (s : State) : State :=
  let k := if s.drbgDue then s.reseed.keys else s.keys
  { s with keys := { k with draws := k.draws + 1, drbgCount := k.drbgCount + 1 } }

/-- The next free value of a width: one the manual leaves undefined. -/
def State.freeVal (s : State) (w : Nat) : BitVec w := Config.freeBits w s.frees

/-- Advances to the next free value. -/
def State.freed (s : State) : State := { s with frees := s.frees + 1 }

/-- A partition's record. -/
def State.part (s : State) (p : Nat) : Part := tget {} s.parts p

/-- Sets a partition's record. -/
def State.setPart (s : State) (p : Nat) (x : Part) : State := { s with parts := tset {} s.parts p x }

/-- A region row. -/
def State.row (s : State) (i : Nat) : Region := tget {} s.rgn.rows i

/-- Sets a region row. -/
def State.setRow (s : State) (i : Nat) (r : Region) : State :=
  { s with rgn := { s.rgn with rows := tset {} s.rgn.rows i r } }

/-- A key slot. -/
def State.slot (s : State) (k : Nat) : Slot := tget {} s.keys.slots k

/-- Sets a key slot. -/
def State.setSlot (s : State) (k : Nat) (x : Slot) : State :=
  { s with keys := { s.keys with slots := tset {} s.keys.slots k x } }

/-- The reset value of lane `n` (Table 6 of the lanes chapter): lanes 0 to 39 serve their own group, the others are
spares. -/
def laneReset (n : Nat) : Lane := if n < 40 then { group := some n, role := .active } else {}

/-- A lane. -/
def State.lane (s : State) (n : Nat) : Lane := tget (laneReset n) s.mem.lanes n

/-- Sets a lane. -/
def State.setLane (s : State) (n : Nat) (l : Lane) : State :=
  { s with mem := { s.mem with lanes := tset (laneReset n) s.mem.lanes n l } }

/-- A partition newly limited starts with one burst of credit at every lane (R138). -/
def State.fullBuckets (s : State) (p : Nat) : State :=
  s.mem.lanes.foldl (fun s e => s.setLane e.1 { e.2 with bucket := tdel e.2.bucket p }) s

/-- A stile entry (R126). -/
def State.stepEnt (s : State) (t : Nat) : StepEnt := tget {} s.stile.steps t

/-- Sets a stile entry. -/
def State.setStepEnt (s : State) (t : Nat) (e : StepEnt) : State :=
  { s with stile := { s.stile with steps := tset {} s.stile.steps t e } }

/-- A harrow job record. -/
def State.job (s : State) (j : Nat) : Job := tget {} s.harrow.jobs j

/-- Sets a harrow job record. -/
def State.setJob (s : State) (j : Nat) (x : Job) : State :=
  { s with harrow := { s.harrow with jobs := tset {} s.harrow.jobs j x } }

/-- The reset value of port `n` (Table 8 of the links chapter). -/
def portReset (n : Nat) : Port := if n < 36 then { att := some n, role := .fabric } else {}

/-- A link crypto port. -/
def State.port (s : State) (n : Nat) : Port := tget (portReset n) s.links.ports n

/-- Sets a link crypto port. -/
def State.setPort (s : State) (n : Nat) (x : Port) : State :=
  { s with links := { s.links with ports := tset (portReset n) s.links.ports n x } }

/-- An arrival counter (R269). -/
def State.actr (s : State) (i : Nat) : Actr := tget {} s.links.actrs i

/-- Sets an arrival counter. -/
def State.setActr (s : State) (i : Nat) (x : Actr) : State :=
  { s with links := { s.links with actrs := tset {} s.links.actrs i x } }

/-- The plots in force: those of the active image, or of the shadow while the block is brought up (R392). -/
def State.plots (s : State) : Option Pesum :=
  match s.cfg.active with
  | some x => some x
  | none => if s.life.ready then none else s.cfg.image

/-- The DOMAIN plot in force (R275); without one the fields are zero. -/
def State.domPlot (s : State) : DomPlot := ((s.plots.bind (·.domain)).getD {})

/-- The PAIR plot in force, if pairing is enabled (R291). -/
def State.pairPlot (s : State) : Option PairPlot := s.plots.bind (·.pair)

/-- This block's domain unit number. -/
def State.unit (s : State) : Nat := s.domPlot.unit

/-- What the PARTITIONS plot in force says of a partition. -/
def State.plotOf (s : State) (p : Nat) : PartPlot := tget {} s.partPlot p

/-- A service queue. -/
def State.queue (s : State) (q : Nat) : SvcQ := tget {} s.svc.queues q

/-- Sets a service queue. -/
def State.setQueue (s : State) (q : Nat) (x : SvcQ) : State :=
  { s with svc := { s.svc with queues := tset {} s.svc.queues q x } }

/-- A bounce channel. -/
def State.chan (s : State) (c : Nat) : Chan := tget {} s.host.chans c

/-- Sets a bounce channel. -/
def State.setChan (s : State) (c : Nat) (x : Chan) : State :=
  { s with host := { s.host with chans := tset {} s.host.chans c x } }

/-- This block is PRIMARY for a cell (R297): always without pairing, and for cells the plot does not list. -/
def State.primary (s : State) (cell : Nat) : Bool :=
  match s.pairPlot with
  | none => true
  | some _ => (tget none s.pair.cells cell).getD true

/-- The partner may write this block's memory under a cell key (R297): with pairing enabled, a listed cell for which
this block is SECONDARY. -/
def State.partnerWrites (s : State) (cell : Nat) : Bool :=
  match s.pairPlot with
  | none => false
  | some _ => tget none s.pair.cells cell == some false

/-- An OTP word as it is read (R384, R387): its row, or the spare row that serves it. -/
def State.otpWord (s : State) (w : Nat) : Nat := tget 0 s.otp.rows ((tget none s.otp.remap w).getD w)

/-- Programs the row that serves an OTP word. -/
def State.otpPut (s : State) (w v : Nat) : State :=
  { s with otp := { s.otp with rows := tset 0 s.otp.rows ((tget none s.otp.remap w).getD w) v } }

/-- Replaces the domain agent's state. -/
def State.withDom (s : State) (d : Domain) : State := { s with dom := d }

/-- Replaces the pair state. -/
def State.withPair (s : State) (p : Pair) : State := { s with pair := p }

/-- Replaces the links state. -/
def State.withLinks (s : State) (l : Links) : State := { s with links := l }

/-- An engine without a spare is out of service (R43, R411), by its number in Table 4 of the faults chapter. -/
def State.engineOut (s : State) (unit : Nat) : Bool := s.units.dead.contains unit

/-- Replaces the memory path. -/
def State.withMem (s : State) (m : MemPath) : State := { s with mem := m }

end Sys2Proof.Machine
end

