-- ==== Sys2Proof/Machine/Flags.lean ====
section
/-! DEFINITION. Counters and trace (R431 to R438), fault records, the class bits and interrupts they set (R404, R405,
R420 to R422), and the status levels that are computed from the state. -/

namespace Sys2Proof.Machine

/-- The code of an event (Table 8 of the faults chapter). -/
def Event.code : Event → Nat
  | .tagFirst => 0x0001 | .poison => 0x0002 | .movePoison => 0x0003 | .stepPoisoned => 0x0004
  | .bistFail => 0x0010 | .switchover => 0x0011 | .unitOut => 0x0012 | .engineReset => 0x0013
  | .fwuStuck => 0x0014 | .harrowSettled => 0x0015 | .stileFull => 0x0016
  | .cap75 => 0x0020 | .noSuccessor => 0x0021 | .keyStuck => 0x0022 | .ledgerReject => 0x0023
  | .entropyFail => 0x0024
  | .drainOverrun => 0x0030 | .scrubOverrun => 0x0031 | .scrubFailed => 0x0032 | .fenceOverrun => 0x0033
  | .linkDown => 0x0040 | .brk => 0x0041 | .fallowHold => 0x0042 | .pairLost => 0x0043 | .dualPrimary => 0x0044
  | .admitRefused => 0x0045
  | .cfgSwap => 0x0050 | .cfgFail => 0x0051 | .ownerChange => 0x0060 | .margin => 0x0070 | .watchCross => 0x0080
  | .inject => 0x0090
  | .escalate => 0x00A0 | .warmReset => 0x00A1 | .powerCycleReq => 0x00A2 | .bringupFail => 0x00A3

/-- The class bit of an event (Tables 1 and 8 of the faults chapter). -/
def Event.cls : Event → Nat
  | .tagFirst | .poison | .movePoison | .stepPoisoned => 0
  | .bistFail | .switchover | .unitOut | .engineReset | .fwuStuck | .harrowSettled | .stileFull => 1
  | .cap75 | .noSuccessor | .keyStuck | .ledgerReject | .entropyFail => 2
  | .drainOverrun | .scrubOverrun | .scrubFailed | .fenceOverrun => 3
  | .linkDown | .brk | .fallowHold | .pairLost | .dualPrimary | .admitRefused => 4
  | .cfgSwap | .cfgFail => 5
  | .ownerChange => 6
  | .margin => 7
  | .watchCross => 8
  | .inject => 9
  | .escalate | .warmReset | .powerCycleReq | .bringupFail => 10

/-- The severity that Table 8 gives an event; TAG_FIRST and POISON follow R467 and carry their own. -/
def Event.sev : Event → Sev
  | .tagFirst | .stepPoisoned | .switchover | .engineReset | .stileFull | .cap75 | .linkDown | .brk | .dualPrimary
  | .admitRefused | .cfgFail | .ownerChange | .margin | .watchCross => .notice
  | .poison | .movePoison | .bistFail | .unitOut | .fwuStuck | .noSuccessor | .keyStuck | .ledgerReject
  | .entropyFail | .drainOverrun | .scrubOverrun | .scrubFailed | .fenceOverrun | .fallowHold | .pairLost
  | .escalate => .error
  | .harrowSettled | .cfgSwap | .inject | .warmReset => .info
  | .powerCycleReq | .bringupFail => .fatal

/-- Severity codes (Table 7 of the faults chapter). -/
def Sev.code : Sev → Nat
  | .info => 0 | .notice => 1 | .error => 2 | .fatal => 3

/-- Unit types of source codes (R421). -/
def Src.code : Src → Nat
  | .lane => 0x01 | .port => 0x02 | .core => 0x03 | .column => 0x04 | .key => 0x05 | .region => 0x06
  | .harrow => 0x07 | .scu => 0x08 | .pku => 0x09 | .host => 0x0A | .reeve => 0x0B | .domain => 0x0C
  | .pair => 0x0D | .otp => 0x0E | .sheaf => 0x0F | .stile => 0x10 | .fault => 0x11 | .sensor => 0x12
  | .config => 0x13 | .watch => 0x14

/-! ### Counters and trace (R431 to R438) -/

/-- Adds to a counter of the OBS window, modulo 2^64 (R438). -/
def State.count (s : State) (n k : Nat) : State :=
  { s with obs := { s.obs with cnts := tset 0 s.obs.cnts n ((tget 0 s.obs.cnts n + k) % 2 ^ 64) } }

/-- Operations of the block's own that the PKU has completed (R321, LZ_PKU_STAT.PROGRESS). -/
def State.pkuOwn (s : State) (n : Nat) : State :=
  let x := s.svc.scu
  let s := s.count 469 n
  { s with svc := { s.svc with scu := { x with pkuProgress := (x.pkuProgress + n) % 2 ^ 32 } } }

/-- The classes that an attach port holds (R432, R440). -/
def State.classes (s : State) (port : Nat) : Nat :=
  match s.life.lc with
  | .blank | .test => 0xFF
  | .endOfLife => 1
  | .production =>
    let plot := match s.cfg.active.bind (·.observe) with
      | some l => l.getD port 0 % 64
      | none => if port = 0 then 0x3F else if port ≤ 3 then 1 else 0
    plot ||| tget 0 s.obs.reopened port

/-- Some attach port holds a class, so that it is recording (R433). -/
def State.recording (s : State) (cls : Nat) : Bool := (upto 0 6).any fun a => bit (s.classes a) cls

/-- Stages a trace record of a recording class (R436); one that finds 256 records there is dropped and counted. -/
def State.trace (s : State) (cls ev src : Nat) (part : Option Nat) (a16 a32 a64 : Nat) (reh : Bool := false) : State :=
  if !s.recording cls then s
  else if s.obs.staging.length < 256 then
    let r : TraceRec := { time := s.life.time, cls := cls, ev := ev, src := src, part := part.getD 0xFF,
                          flags := if reh then 2 else 0, a16 := a16 % 2 ^ 16, a32 := a32 % 2 ^ 32, a64 := a64 % 2 ^ 64 }
    { s with obs := { s.obs with staging := s.obs.staging ++ [r] } }
  else { s.incFld F.obsErr_DROPPED with obs := { s.obs with lost := true } }

/-- A source code (R421). -/
def Src.at (x : Src) (inst : Nat) : Nat := x.code * 256 + inst % 256

/-- A number of eng-cycles that passed: a free value, since the model counts no cycles. -/
def State.cycles (s : State) : Nat × State := ((s.freeVal 32).toNat, s.freed)

/-- Puts a record into the staging queue; one that finds 64 records there is dropped and counted (R420). -/
def State.stage (s : State) (r : Staged) : State :=
  if s.faults.staging.length < 64 then
    { s with faults := { s.faults with staging := s.faults.staging ++ [r] } }
  else
    { s.incFld F.glnStat_DROPPED with faults := { s.faults with lost := true } }

/-- Stages a record with the severity of Table 8. The ESCALATE and HANDSHAKE counters of LZ_FLT_ERR count with it
(R429). -/
def State.record (s : State) (ev : Event) (src : Src) (inst : Nat) (part : Option Nat) (arg0 arg1 : Nat)
    (rehearsal : Bool := false) : State :=
  let s := s.stage ⟨src, inst, ev, ev.sev, part, arg0, arg1, rehearsal⟩
  match ev with
  | .drainOverrun | .scrubOverrun | .scrubFailed | .fenceOverrun => s.incFld F.fltErr_HANDSHAKE
  | .escalate => s.incFld F.fltErr_ESCALATIONS
  | .engineReset => s.incFld F.fltErr_ENGINE_RESETS
  | _ => s

/-- Sets a class bit in LZ_FLT_PENDING and raises the interrupts of LZ_FLT_IRQ when an enabled bit rises (R405). -/
def State.pend (s : State) (c : Nat) : State :=
  let old := s.fld F.fltPending_CLASS
  if bit old c then s
  else
    let s := s.setFld F.fltPending_CLASS (old + 2 ^ c)
    if bit (s.fld F.fltIrq_MASK) c then
      let s := if s.fld F.fltIrq_IRQ_EN = 1 then s.emit (.msix (s.fld F.fltIrq_ATT) (s.fld F.fltIrq_VEC)) else s
      if s.fld F.fltIrq_IBI = 1 then s.emit .ibi else s
    else s

/-- Writes the oldest staged record to the ring (R420, R421): while FROZEN it is dropped and counted; a severity above
INFO sets its class bit; with FREEZE_FATAL a FATAL record freezes the ring after it. -/
def State.writeRecord (s : State) : State :=
  match s.faults.staging with
  | [] => s
  | r :: rest =>
    let s := { s with faults := { s.faults with staging := rest } }
    if s.faults.frozen then
      { s.incFld F.glnStat_DROPPED with faults := { s.faults with lost := true } }
    else
      let f := s.faults
      let flags := r.sev.code + (if r.rehearsal then 4 else 0) + (if f.lost then 8 else 0)
      let rec_ : GlnRec := ⟨s.life.time, f.seq, r.src.code * 256 + r.inst % 256, r.ev.code, r.part.getD 0xFF,
        flags, r.arg0 % 2 ^ 32, r.arg1 % 2 ^ 64⟩
      let s := s.trace 0 2 (r.src.at r.inst) r.part r.ev.code f.seq 0 r.rehearsal
      let s := { s with faults := { f with
        ring := tput f.ring f.head rec_, head := (f.head + 1) % 4096, seq := (f.seq + 1) % 2 ^ 32,
        wrapped := f.wrapped || f.head + 1 == 4096, lost := false,
        frozen := decide (r.sev = .fatal) && s.fld F.glnCtl_FREEZE_FATAL == 1 } }
      if r.sev = .info then s else s.pend r.ev.cls

/-! ### The ramp throttle -/

/-- The energy of a grant in units of 0.1 pJ (Table 2a of the electrical chapter). -/
def grantEnergy (cycles : Nat) : Nat := cycles * 1470

/-- The energy of a frame's bytes sealed or opened at a port, in beats of 32 B (Table 2a). -/
def portEnergy (bytes : Nat) : Nat := ceilDiv bytes 32 * 418

/-- The energy of Keccak permutations (Table 2a). -/
def keccakEnergy (n : Nat) : Nat := n * 4220

/-- The energy of a host segment sealed or opened, in beats of 64 B (Table 2a). -/
def hostEnergy (bytes : Nat) : Nat := ceilDiv bytes 64 * 1000

/-- A charge fits the present window's budget (R457). -/
def State.fits (s : State) (e : Nat) : Bool :=
  let t := s.throttle
  decide (t.estimate + e ≤ t.prev ∨ (t.estimate + e - t.prev) * t.ramp ≤ 24600000)

/-- Charges energy to the present window. -/
def State.spend (s : State) (e : Nat) : State :=
  { s with throttle := { s.throttle with estimate := s.throttle.estimate + e } }

/-- Marks the present window as one in which a grant was withheld. -/
def State.withhold (s : State) : State := { s with throttle := { s.throttle with withheld := true } }

/-! ### Hedges and holds -/

/-- Partition `p` has a step whose egress is held: bit p of lz_egress_hold (R72), which stays high until the step's
stile event. -/
def State.egressHold (s : State) (p : Nat) : Bool :=
  s.mem.held.any (fun h => h.part == p) ||
  s.stile.steps.any (fun e => e.2.part == p && e.2.heldEver && !e.2.evented && decide (e.2.st ≠ .idle))

/-- A partition's requests are refused HEDGED (R74): the acknowledgement counts while the drain request stands. -/
def Part.hedged (p : Part) : Bool := p.drainReq && p.acked

end Sys2Proof.Machine
end

