-- ==== Sys2Proof/Machine/HedgeOps.lean ====
section
/-! DEFINITION. Hedges (R74, R413): a partition's causes, and the drain request they raise and lift. -/

namespace Sys2Proof.Machine

/-- Adds a cause of a hedge (R413): the first one raises lz_drain_req[p]; an acknowledgement counts only from its next
rise. While a warm reset settles, lz_drain_req keeps its reset value (R48) and no hedge starts. -/
def State.addCause (s : State) (p : Nat) (c : Cause) : State :=
  let x := s.part p
  if x.causes.contains c ∨ s.life.settling then s
  else if x.causes.isEmpty then
    (s.setPart p { x with causes := [c], drainReq := true, acked := false, lowering := false }).emit (.drainReq p true)
  else s.setPart p { x with causes := x.causes ++ [c] }

/-- Clears a cause of a hedge (R413): with the last one lz_drain_req[p] falls and requests of p are admitted. EOL is never
cleared. -/
def State.removeCause (s : State) (p : Nat) (c : Cause) : State :=
  let x := s.part p
  if c = .eol ∨ !x.causes.contains c then s
  else
    let rest := x.causes.filter (· != c)
    if rest.isEmpty then
      (s.setPart p { x with causes := [], drainReq := false, acked := false, lowering := x.drainAck }).emit (.drainReq p false)
    else s.setPart p { x with causes := rest }

/-- The hedge of a partition is held: requested and acknowledged. -/
def State.hedged (s : State) (p : Nat) : Bool := (s.part p).hedged

/-- The partitions that the PARTITIONS plot has and does not mark radio. -/
def State.tenants (s : State) : List Nat :=
  (upto 0 64).filter fun p => (s.plotOf p).present && !(s.plotOf p).radio

end Sys2Proof.Machine
end

