-- ==== Sys2Proof/Machine/Crypto.lean ====
section
/-! DEFINITION. The constructions of the manual over AES-256: counter blocks and line tags (R93, R94), GHASH and GCM
(SP 800-38D), XTS (IEEE 1619) and key wrap (SP 800-38F). -/

namespace Sys2Proof.Machine

/-- The counter block N of Table 9 (R93). -/
def counterBlock (blk line minor : Nat) (tagn : Bool) (level kind upper : Nat) : Block :=
  BitVec.ofNat 128 (blk % 4 + line % 2 ^ 34 * 2 ^ 2 + minor % 128 * 2 ^ 36 + (if tagn then 2 ^ 43 else 0)
    + level % 8 * 2 ^ 44 + kind % 4 * 2 ^ 62 + upper % 2 ^ 64 * 2 ^ 64)

/-- The code of a region kind (Table 8a). -/
def Kind.code : Kind → Nat
  | .clear => 0 | .sown => 1 | .furrow => 2 | .tilled => 3

/-- A block with its bytes in the opposite order. -/
def revBlock (b : Block) : Block := BitVec.ofNat 128 (ofBE (bvBytes b))

/-- Multiplication in the field of GHASH on big-endian integers (SP 800-38D, algorithm 1). -/
def gfLoop (x : Nat) : Nat → Nat → Nat → Nat
  | 0, _, z => z
  | i + 1, v, z =>
    gfLoop x i (if v % 2 = 1 then (v / 2) ^^^ (0xE1 * 2 ^ 120) else v / 2) (if bit x i then z ^^^ v else z)

/-- The product of two field elements, each a block in byte order (SP 800-38D). -/
def gfMul (x y : Block) : Block :=
  revBlock (BitVec.ofNat 128 (gfLoop (revBlock x).toNat 128 (revBlock y).toNat 0))

/-- Block `i` of a line. -/
def lineBlock (l : Line) (i : Nat) : Block := BitVec.ofNat 128 (l.toNat / 2 ^ (128 * i))

/-- The line of four blocks. -/
def ofBlocks (b0 b1 b2 b3 : Block) : Line :=
  BitVec.ofNat 512 (b0.toNat + b1.toNat * 2 ^ 128 + b2.toNat * 2 ^ 256 + b3.toNat * 2 ^ 384)

/-- The hash subkey H of a key (R94). -/
def hashSubkey (k : Key) : Block := Config.aes256 k 0

/-- S of R94 over four ciphertext blocks. -/
def lineHash (h : Block) (c : Line) : Block :=
  let m := fun (x : Block) (i : Nat) => gfMul (x ^^^ lineBlock c i) h
  m (m (m (m 0 0) 1) 2) 3

/-- The 56-bit tag of a line's ciphertext (R94). -/
def lineTag (k : Key) (line minor level kind upper : Nat) (c : Line) : BitVec 56 :=
  (lineHash (hashSubkey k) c ^^^ Config.aes256 k (counterBlock 0 line minor true level kind upper)).setWidth 56

/-- The keystream of a line (R94). -/
def lineStream (k : Key) (line minor level kind upper : Nat) : Line :=
  let e := fun i => Config.aes256 k (counterBlock i line minor false level kind upper)
  ofBlocks (e 0) (e 1) (e 2) (e 3)

/-- A data line's ciphertext and sideband (R94, R59): bits [63:56] of the sideband are zero. -/
def sealLine (k : Key) (line : Nat) (c : Ctr) (p : Line) : Line × BitVec 64 :=
  let ct := p ^^^ lineStream k line c.minor 0 c.kind c.upper
  (ct, (lineTag k line c.minor 0 c.kind c.upper ct).setWidth 64)

/-- Whether a data line verifies: the stored tag equals the recomputed tag (R94); bits [63:56] are ignored (R59). -/
def lineOk (k : Key) (line : Nat) (c : Ctr) (ct : Line) (sb : BitVec 64) : Bool :=
  decide (sb.setWidth 56 = lineTag k line c.minor 0 c.kind c.upper ct)

/-- A data line's plaintext. -/
def openLine (k : Key) (line : Nat) (c : Ctr) (ct : Line) : Line := ct ^^^ lineStream k line c.minor 0 c.kind c.upper

/-- The sideband of a metadata line of a level, under its parent's entry (R94). -/
def metaSb (k : Key) (line level : Nat) (major minor : Nat) (v : Line) : BitVec 64 :=
  (lineTag k line minor level 0 major v).setWidth 64

/-- Whether a metadata line verifies under its parent's entry (R94). -/
def metaOk (k : Key) (line level : Nat) (major minor : Nat) (v : Line) (sb : BitVec 64) : Bool :=
  decide (sb.setWidth 56 = lineTag k line minor level 0 major v)

/-- Metadata lines of LEVEL 4 and 5 are encrypted as data lines are, with minor 0 (R94, R293). -/
def sealMeta (k : Key) (line level upper : Nat) (p : Line) : Line × BitVec 64 :=
  let ct := p ^^^ lineStream k line 0 level 0 upper
  (ct, (lineTag k line 0 level 0 upper ct).setWidth 64)

/-- The blocks of a byte string, zero-padded to 16 bytes each. -/
def toBlocks (b : Bytes) : Nat → List Block
  | 0 => []
  | n + 1 => BitVec.ofNat 128 (ofLE (padTo 16 (b.take 16))) :: toBlocks (b.drop 16) n

/-- The blocks a byte string fills. -/
def blocksOf (b : Bytes) : List Block := toBlocks b (ceilDiv b.length 16)

/-- GHASH over blocks (SP 800-38D). -/
def ghash (h : Block) (bs : List Block) : Block := bs.foldl (fun y b => gfMul (y ^^^ b) h) 0

/-- Counter block `n` of GCM with a 96-bit IV: IV ‖ n as a 32-bit big-endian number. -/
def gcmCtr (iv : Bytes) (n : Nat) : Block := BitVec.ofNat 128 (ofLE (padTo 12 iv ++ beBytes 4 n))

/-- Encrypts or decrypts with the GCM counter mode, from counter 2 on. -/
def gcmCrypt (k : Key) (iv : Bytes) : Nat → List Block → Bytes
  | _, [] => []
  | n, b :: t => bvBytes (b ^^^ Config.aes256 k (gcmCtr iv n)) ++ gcmCrypt k iv (n + 1) t

/-- The 128-bit GCM tag of a ciphertext and additional data. -/
def gcmTag (k : Key) (iv aad ct : Bytes) : Block :=
  let lens : Block := BitVec.ofNat 128 (ofLE (beBytes 8 (8 * aad.length) ++ beBytes 8 (8 * ct.length)))
  ghash (hashSubkey k) (blocksOf aad ++ blocksOf ct ++ [lens]) ^^^ Config.aes256 k (gcmCtr iv 1)

/-- AES-256-GCM sealing with a 96-bit IV: ciphertext and tag. -/
def gcmSeal (k : Key) (iv aad pt : Bytes) : Bytes × Block :=
  let ct := (gcmCrypt k iv 2 (blocksOf pt)).take pt.length
  (ct, gcmTag k iv aad ct)

/-- AES-256-GCM opening: the plaintext when the tag verifies. -/
def gcmOpen (k : Key) (iv aad ct : Bytes) (tag : Block) : Option Bytes :=
  if gcmTag k iv aad ct = tag then some ((gcmCrypt k iv 2 (blocksOf ct)).take ct.length) else none

/-- Multiplication of an XTS tweak by the primitive element (IEEE 1619). -/
def xtsNext (t : Block) : Block :=
  BitVec.ofNat 128 (2 * t.toNat) ^^^ (if bit t.toNat 127 then 0x87 else 0)

/-- The blocks of one XTS data unit, encrypted or decrypted one by one under the running tweak. -/
def xtsBlocks (f : Block → Block) : Block → List Block → List Block
  | _, [] => []
  | t, b :: rest => (f (b ^^^ t) ^^^ t) :: xtsBlocks f (xtsNext t) rest

/-- One XTS-AES-256 data unit whose length is a multiple of 16 bytes. -/
def xtsUnit (enc : Bool) (k1 k2 : Key) (unit : Nat) (data : Bytes) : Bytes :=
  let t := Config.aes256 k2 (BitVec.ofNat 128 unit)
  let f := if enc then Config.aes256 k1 else Config.aes256Inv k1
  ((xtsBlocks f t (blocksOf data)).map bvBytes).flatten

/-- One step of the key wrap of SP 800-38F on big-endian 64-bit semiblocks. -/
def kwStep (k : Key) (a r : Nat) (t : Nat) : Nat × Nat :=
  let b := (revBlock (Config.aes256 k (revBlock (BitVec.ofNat 128 (a % 2 ^ 64 * 2 ^ 64 + r % 2 ^ 64))))).toNat
  ((b / 2 ^ 64) ^^^ t, b % 2 ^ 64)

/-- One pass of key wrap over the semiblocks. -/
def kwPass (k : Key) : Nat → Nat → List Nat → Nat × List Nat
  | a, _, [] => (a, [])
  | a, t, r :: rest =>
    let (a', r') := kwStep k a r t
    let (a'', rs) := kwPass k a' (t + 1) rest
    (a'', r' :: rs)

/-- Six passes of key wrap, from step `t`. -/
def kwPasses (k : Key) : Nat → Nat → Nat → List Nat → Nat × List Nat
  | 0, a, _, rs => (a, rs)
  | n + 1, a, t, rs =>
    let (a', rs') := kwPass k a t rs
    kwPasses k n a' (t + rs.length) rs'

/-- The big-endian semiblocks of a byte string. -/
def semis (b : Bytes) : Nat → List Nat
  | 0 => []
  | n + 1 => ofBE (b.take 8) :: semis (b.drop 8) n

/-- KW-AE of SP 800-38F over a plaintext of whole semiblocks. -/
def kwWrap (k : Key) (pt : Bytes) : Bytes :=
  let (a, rs) := kwPasses k 6 0xA6A6A6A6A6A6A6A6 1 (semis pt (pt.length / 8))
  beBytes 8 a ++ (rs.map (beBytes 8)).flatten

/-- One inverse step of key wrap. -/
def kwUnstep (k : Key) (a r t : Nat) : Nat × Nat :=
  let x := BitVec.ofNat 128 ((a ^^^ t) % 2 ^ 64 * 2 ^ 64 + r % 2 ^ 64)
  let b := (revBlock (Config.aes256Inv k (revBlock x))).toNat
  (b / 2 ^ 64, b % 2 ^ 64)

/-- One inverse pass over the semiblocks, last first; the list is in reverse order. -/
def kwUnpass (k : Key) : Nat → Nat → List Nat → Nat × List Nat
  | a, _, [] => (a, [])
  | a, t, r :: rest =>
    let (a', r') := kwUnstep k a r t
    let (a'', rs) := kwUnpass k a' (t - 1) rest
    (a'', r' :: rs)

/-- Six inverse passes, from step `t` down. -/
def kwUnpasses (k : Key) : Nat → Nat → Nat → List Nat → Nat × List Nat
  | 0, a, _, rs => (a, rs)
  | n + 1, a, t, rs =>
    let (a', rs') := kwUnpass k a t rs
    kwUnpasses k n a' (t - rs.length) rs'

/-- KW-AD of SP 800-38F: the plaintext when the integrity value is right. -/
def kwUnwrap (k : Key) (ct : Bytes) : Option Bytes :=
  let n := ct.length / 8 - 1
  let (a, rs) := kwUnpasses k 6 (ofBE (ct.take 8)) (6 * n) (semis (ct.drop 8) n).reverse
  if a = 0xA6A6A6A6A6A6A6A6 then some ((rs.reverse.map (beBytes 8)).flatten) else none

end Sys2Proof.Machine
end

