-- ==== Sys2Proof/Machine/Operands.lean ====
section
/-! DEFINITION. Operand forms: device addresses (R55, R83, R105, R107), requests and the refusals made at transfer
(R57), and the key under which a line stands (R150, R158). -/

namespace Sys2Proof.Machine

/-- Lines of a granule and pages of a granule (R83). -/
def linesPerGranule : Nat := 32768
def pagesPerGranule : Nat := 512

/-- The interleave granule in force: 4 KiB in BLANK and while no image is in force (R55). -/
def State.granule (s : State) : Nat := if s.life.lc = .blank then 4096 else s.rgn.granule

/-- The channel group of a device byte address (R55). -/
def State.groupOf (s : State) (addr : Nat) : Nat := addr / s.granule % 40

/-- The lane that serves a channel group, if any (R22). -/
def State.laneOf (s : State) (g : Nat) : Option Nat :=
  (upto 0 44).find? fun n => decide ((s.lane n).group = some g ∧ (s.lane n).role = .active)

/-- The region whose granules hold a device byte address: the map entry of TYPE 1 (R84, R86). -/
def State.regionAt (s : State) (addr : Nat) : Option Nat :=
  let g := addr / 2 ^ 21
  (s.rgn.rows.find? fun e =>
    decide (e.2.state ≠ .free ∧ e.2.base ≤ g ∧ g < e.2.base + e.2.count)).map (·.1)

/-- The line offset of a device line within a region (R87). -/
def Region.offset (r : Region) (line : Nat) : Nat := line - r.base * linesPerGranule

/-- Whether a line offset holds DRAM contents in a SOWN or FURROW region (Table 8a): below HWM, or its window bit
set. -/
def Region.written (r : Region) (off : Nat) : Bool := decide (off < r.hwm) || r.win.contains off

/-- The window rule of R98 for `n` lines at offset `x`: every offset in the window and the region, its bit clear and
not reserved (R130), and outside a running ADVANCE (R103). -/
def Region.windowOk (r : Region) (x n : Nat) : Bool :=
  (upto x n).all fun o =>
    decide (r.hwm ≤ o ∧ o ≤ r.hwm + 1023 ∧ o < r.count * linesPerGranule) && !r.win.contains o && !r.rsv.contains o
      && r.adv.all fun a => decide (a.target ≤ o)

/-- HWM advances over every offset whose bit is set, and the window moves with it (R98); not while an ADVANCE runs. -/
def Region.advanceHwm (r : Region) : Region :=
  if r.adv.isEmpty then
    let h := firstClear r.win r.hwm 2048
    { r with hwm := h, win := r.win.filter (h ≤ ·) }
  else r

/-- Sets the window bits of `n` lines at offset `x` (R98). -/
def Region.setBitsAt (r : Region) (x n : Nat) : Region := ({ r with win := nsRange r.win x n }).advanceHwm

/-- The number of lines of a request. -/
def reqLines (r : MemReq) : Nat := r.len.toNat + 1

/-- The first line of a request. -/
def reqLine (r : MemReq) : Nat := r.addr.toNat / 64

/-- The page of a request. -/
def reqPage (r : MemReq) : Nat := r.addr.toNat / 4096

/-- Item 1 of R57 for one part at group `g`: misaligned, crossing its page, span code 3, or at the wrong group (R55). -/
def State.malformed (s : State) (g : Nat) (r : MemReq) : Bool :=
  decide (r.addr.toNat % 64 ≠ 0 ∨ reqLine r % 64 + r.len.toNat > 63 ∨ r.span = 3
    ∨ s.groupOf r.addr.toNat ≠ g ∨ s.groupOf (r.addr.toNat + 64 * r.len.toNat) ≠ g)

/-- Items 2 to 5 of R57: generation, fence, hedge, and no lane or a halted partition; each with its item number. -/
def State.refusal25 (s : State) (gen part rdom : Nat) (served : Bool) : Option (Nat × Status) :=
  if gen ≠ s.life.genCur then some (2, .genStale)
  else if (tget {} s.rdoms rdom).fence then some (3, .fenced)
  else if s.life.lc = .endOfLife ∨ (s.part part).hedged then some (4, .hedged)
  else if ¬served ∨ (s.part part).halt then some (5, .retry)
  else none

/-- Items 1 to 5 of R57 for a memory request at group `g`. -/
def State.refusedAtTransfer (s : State) (g : Nat) (r : MemReq) : Option (Nat × Status) :=
  if s.malformed g r then some (1, .regionFault)
  else s.refusal25 r.gen.toNat r.part.toNat r.rdom.toNat (s.laneOf g).isSome

/-- The first of two refusals in the order of R57. -/
def firstRefusal : Option (Nat × Status) → Option (Nat × Status) → Option (Nat × Status)
  | none, y => y
  | x, none => x
  | some x, some y => if y.1 < x.1 then some y else some x

/-- Two parts that carry the same tid, kidx, part, gen, step, cls and rdom, one lower and one upper (R55). -/
def reqPartner (a b : MemReq) : Bool :=
  decide (a.tid = b.tid ∧ a.kidx = b.kidx ∧ a.part = b.part ∧ a.gen = b.gen ∧ a.step = b.step ∧ a.cls = b.cls
    ∧ a.rdom = b.rdom ∧ a.write = b.write ∧ ((a.span = 1 ∧ b.span = 2) ∨ (a.span = 2 ∧ b.span = 1)))

/-- Two requests have a line in common. -/
def reqOverlap (a b : MemReq) : Bool :=
  decide (reqLine a < reqLine b + reqLines b ∧ reqLine b < reqLine a + reqLines a)

/-- The eng-cycles a grant of `n` lines occupies (R119). -/
def grantCycles (n : Nat) : Nat := (n + 1) / 2

/-- The lines that a lane's write buffer (R118, R121) holds or must take: those of posted writes, those that held writes
and writes waiting for a credit will put there, and those reserved for the pages that the harrow has closed (R152). -/
def State.wbufUsed (s : State) (n : Nat) : Nat :=
  (s.mem.wbuf.filter fun w => w.lane == n && !w.maint).length +
  (s.mem.held.map fun h => match h.what with
    | .mem t _ => if t.lane = n then reqLines t.req else 0
    | _ => 0).sum +
  (s.mem.waitCredit.map fun w => (w.1.map fun t => if t.lane = n then reqLines t.req else 0).sum).sum +
  (s.mem.closed.map fun c => if s.laneOf (s.groupOf (c.page * 4096)) = some n then 64 else 0).sum

/-- `k` more lines fit the 512 lines of a lane's write buffer (R118). -/
def State.wbufRoom (s : State) (n k : Nat) : Bool := decide (s.wbufUsed n + k ≤ 512)

/-- The free lines of a lane's stile hold buffer (R129): 256 less the lines of the held writes. -/
def State.holdFree (s : State) (n : Nat) : Nat :=
  256 - (s.mem.held.map fun h => match h.what with
    | .mem t _ => if t.lane = n then reqLines t.req else 0
    | _ => 0).sum

/-- lz_mreq_rdy of a class at a group (R50, R77, R129); class 3 transfers on bit 2. -/
def State.mreqReady (s : State) (g : Nat) (cls : Nat) : Bool :=
  !s.life.blkFence &&
  match s.laneOf g with
  | none => true
  | some n =>
    if cls = 0 then
      decide ((s.mem.ingress.filter fun t => t.lane == n && t.req.cls == 0 && t.remote.isNone).length < 16)
    else !(s.lane n).full

/-- Rate and burst of a partition (R138): a burst below 4 KiB counts as 64 lines; lines per eng-cycle × 61,440. -/
def State.weight (s : State) (p : Nat) : Nat := s.fld F.partWeight_WEIGHT p

/-- The jobs that hold a region. -/
def State.jobOf (s : State) (row : Nat) : Option (Nat × Job) :=
  s.harrow.jobs.find? fun e => decide (e.2.st ≠ .free) && (e.2.todo.contains row || e.2.passed.contains row)

/-- A radio TILLED region's page is old after its turnover (R158): it is current and its major lies below T. -/
def State.turnedOld (s : State) (row : Nat) (c : CtrLine) : Bool :=
  let r := s.row row
  match s.jobOf row with
  | some (_, j) => r.radio && j.turned && decide (r.epoch ≤ c.major) &&
      (match j.thresh.find? (·.1 == row) with | some (_, v) => decide (c.major < v) | none => false)
  | none => false

/-- The key slot under which a line of a region stands (R150, R158): KIDX outside a running job; in one, by the
headland for ordinary regions and by the turnover test for radio regions. `major` is the page's major counter in a
TILLED region. -/
def State.lineSlot (s : State) (row : Nat) (off : Nat) (major : Nat) : Nat :=
  let r := s.row row
  if !r.harrow then r.kidx
  else
    match s.jobOf row with
    | none => r.kidxNext
    | some (_, j) =>
      if r.radio then
        if !j.turned then r.kidx
        else
          match j.thresh.find? (·.1 == row) with
          | none => r.kidxNext
          | some (_, v) =>
            if r.kind = .tilled then (if v ≤ major then r.kidxNext else r.kidx)
            else if v ≤ off then r.kidxNext else r.kidx
      else if j.st = .settled ∨ j.passed.contains row then r.kidxNext
      else if j.todo.head? = some row then
        let q := off / 64
        if q < j.head ∨ j.done.contains q then r.kidxNext else r.kidx
      else r.kidx

/-- A page of a region is closed by the harrow (R152). -/
def State.pageClosed (s : State) (page : Nat) : Bool := s.mem.closed.any (·.page == page)

/-- A page is locked by a page move (R108); a RADIO move locks out no RADIO request (R109). -/
def State.pageLocked (s : State) (page : Nat) (radio : Bool) : Bool :=
  s.mem.moves.any fun m => m.page == page && !(m.radio && radio)

end Sys2Proof.Machine
end

