-- ==== Sys2Proof/Machine/CmdOps.lean ====
section
/-! DEFINITION. What every engine command shares: the checks of a register write (R14, R450), commands of a service
queue (R305 to R311), their completion, and drills' next steps (R325). -/

namespace Sys2Proof.Machine

/-! ### Register writes that command an engine -/

/-- Registers are accessible: the release of reset to the end of CALIBRATE answers nothing (R450). -/
def State.regsOpen (s : State) : Bool :=
  s.life.powered && decide ((3 < s.life.phase ∧ s.life.phase ≠ 10) ∨ s.life.fail ≠ 0)

/-- The attach port of the owner (R353); port 0 until READY sets (R450). -/
def State.ownerPort (s : State) : Nat := if s.life.ready then s.fld F.ownStatus_OWNER else 0

/-- Answers a register access. -/
def State.regRsp (s : State) (port : Nat) (data : Nat) (err : Bool) : State :=
  s.emit (.regRsp port (BitVec.ofNat 64 data) err)

/-- A write by the owner that commands an engine: nothing before the registers open, an error response and a count for
another controller (R14), an error response and a count in the window while the engine is busy. -/
def State.ownerCmd (s : State) (port : Nat) (busy : Bool) (err : Fld) (f : State → State) (ei : Nat := 0) : State :=
  if !s.regsOpen then s
  else if port ≠ s.ownerPort then (s.incFld F.gstat_NONOWNER).regRsp port 0 true
  else if busy then (s.incFld err ei).regRsp port 0 true
  else (f s).regRsp port 0 false

/-- A register write that places a reserved encoding is discarded with an error response (R11). -/
def State.regBad (s : State) (port : Nat) (err : Fld) (ei : Nat := 0) : State := (s.incFld err ei).regRsp port 0 true

/-! ### Commands in flight -/

/-- The command in a place of a queue. -/
def State.cmd (s : State) (q k : Nat) : Option Cmd := (s.queue q).cmds.find? (·.k == k)

/-- Replaces a command. -/
def State.setCmd (s : State) (q : Nat) (c : Cmd) : State :=
  let x := s.queue q
  s.setQueue q { x with cmds := updWhere (·.k == c.k) (fun _ => c) x.cmds }

/-- The partition of a queue. -/
def State.qPart (s : State) (q : Nat) : Nat := s.fld F.svcQcfg_PART q

/-- A command may start (R305): every earlier command of its queue has started, and with FENCE every earlier one has
written its record. -/
def State.canStart (s : State) (q : Nat) (c : Cmd) : Bool :=
  decide (c.st = .fetched) &&
    ((s.queue q).cmds.takeWhile (·.k != c.k)).all fun e => (decide (e.st ≠ .fetched) || e.drill.isSome) && !bit c.desc.flags 1

/-- The fields of a descriptor's 64 bytes (Table 1). -/
def Desc.raw (b : Bytes) : Desc :=
  { op := le b 0 1, flags := le b 1 1, step := le b 2 2, tag := le b 4 4, kidx := le b 8 2,
    arg16 := le b 10 2, len := le b 12 4, src := le b 16 8, dst := le b 24 8,
    arg0 := le b 32 8, arg1 := le b 40 8, arg2 := le b 48 8 }

/-- The descriptor that 64 bytes hold, none when a reserved field is not zero (R10, R308). -/
def Desc.parse (b : Bytes) : Option Desc :=
  let d := Desc.raw b
  if 32 ≤ d.flags ∨ 4096 ≤ d.step ∨ zeroAt b 56 8 = false then none else some d

/-- The fields a command uses (Table 3 of the service chapter): KIDX, ARG16, LEN, SRC, DST, ARG0, ARG1, ARG2; none for a
reserved opcode. -/
def Desc.uses (d : Desc) : Option (List Bool) :=
  let t := true; let f := false
  let sealed := bit d.flags 4
  match d.op with
  | 0x00 => some [f, f, f, f, f, f, f, f]
  | 0x01 | 0x02 => some [t, f, t, t, t, f, f, f]
  | 0x03 | 0x04 => some [t, t, t, t, t, t, t, f]
  | 0x05 => some [!sealed, t, f, f, t, sealed, sealed, sealed]
  | 0x06 => some [!sealed, f, f, t, f, sealed, sealed, sealed]
  | 0x10 => some [f, f, f, f, f, t, t, f]
  | 0x11 | 0x12 => some [f, t, f, f, f, f, f, f]
  | 0x13 => some [f, t, f, t, t, f, f, f]
  | 0x20 | 0x21 | 0x22 | 0x23 | 0x24 => some [f, t, f, t, f, f, f, f]
  | 0x25 | 0x26 => some [f, t, f, f, f, f, f, f]
  | 0x30 => some [f, t, f, t, f, f, f, f]
  | 0x31 | 0x33 => some [f, t, f, f, f, f, f, f]
  | 0x32 => some [f, t, f, f, t, f, f, f]
  | 0x34 => some [f, t, f, f, f, t, t, f]
  | 0x35 => some [f, t, f, f, t, f, f, f]
  | 0x36 => some [f, t, f, f, f, f, f, f]
  | 0x37 => some [f, t, f, f, f, t, t, t]
  | 0x38 | 0x3A => some [f, t, f, f, f, f, f, f]
  | 0x39 => some [f, t, f, f, t, f, f, f]
  | 0x40 => some [f, f, f, t, f, f, f, f]
  | 0x48 | 0x49 => some [f, f, f, f, f, t, f, f]
  | 0x4A => some [f, t, f, f, f, t, t, f]
  | 0x4B | 0x4C => some [f, t, f, f, f, t, f, f]
  | 0x50 => some [f, t, t, t, t, f, f, f]
  | 0x51 | 0x52 => some [f, f, t, t, f, f, f, f]
  | 0x60 | 0x61 => some [f, t, t, t, f, f, f, f]
  | 0x62 => some [f, t, f, f, f, f, f, f]
  | 0x70 => some [f, t, f, f, f, t, f, f]
  | _ => none

/-- Every field the command does not use is zero (R308). -/
def Desc.ok (d : Desc) : Bool :=
  match d.uses with
  | none => false
  | some u => ([d.kidx, d.arg16, d.len, d.src, d.dst, d.arg0, d.arg1, d.arg2].zip u).all (fun x => x.2 || x.1 == 0) &&
      (bit d.flags 0 || d.step == 0)

/-- A command that only a queue of the owner may carry (Table 3): KEY_ALLOC for kinds other than SERVICE, KEY_REF,
KEY_UNREF, RGN_CREATE, RGN_DESTROY and OTP_PROGRAM. -/
def Desc.ownerOnly (d : Desc) : Bool :=
  match d.op with
  | 0x10 => decide (bits d.arg0 F.keySel_KIND.lo F.keySel_KIND.width ≠ 6)
  | 0x11 | 0x12 | 0x20 | 0x21 | 0x70 => true
  | _ => false

/-- The refusal of a command at its fetch, or of a drill step at its start (R308, R311, R35): BAD_DESC or
REFUSED_OWNER. -/
def State.admitDesc (s : State) (q : Nat) (owner : Bool) (d : Option Desc) : Option Nat :=
  match d with
  | none => some 6
  | some d =>
    if !d.ok then some 6
    else if !owner && (d.ownerOnly || (s.plotOf (s.qPart q)).radio) then some 5
    else none

/-- A SHEAF command that completes FAILED or BAD_DESC is counted (LZ_SHF_ERR.FAILED). -/
def State.countSheaf (s : State) (op status : Nat) : State :=
  if op = 0x40 ∧ (status = 1 ∨ status = 6) then s.incFld F.shfErr_FAILED else s

/-- Ends a command with a status, DETAIL, COUNT and results (R310). In a drill (R325) a step that completes SUCCESS is
followed by the next one, admitted at its own start; otherwise the drill ends with what its last step gave. -/
def State.svcDone (s : State) (q k status detail count res0 res1 : Nat) : State :=
  match s.cmd q k with
  | none => s
  | some c =>
    if c.st = .done then s else
    let fin := fun (c : Cmd) (status detail count : Nat) =>
      { c with st := .done, status := status, detail := detail, count := count, res0 := res0, res1 := res1 }
    let s := s.countSheaf c.desc.op status
    match c.drill with
    | none => s.setCmd q (fin c status detail count)
    | some r =>
      let ok := if status = 0 then r.ok + 1 else r.ok
      let last := fun (status detail : Nat) =>
        let d := { c.desc with tag := r.tag, flags := r.flags }
        s.setCmd q { fin c status detail ok with desc := d, drill := none }
      if status ≠ 0 then last status detail
      else
        match r.steps with
        | [] => last 0 detail
        | b :: rest =>
          let d := Desc.parse b
          match s.admitDesc q c.owner d with
          | some st => (last st 0).countSheaf (Desc.raw b).op st
          | none =>
            s.setCmd q { c with st := .fetched, desc := d.getD {}, input := [], output := [], pos := 0, gang := false,
                                stripes := [], failed := 0,
                                drill := some { r with steps := rest, step := r.step + 1, ok := ok } }

/-- Runs a queue's command of an opcode at its start: nothing unless the place holds one that may start. -/
def State.svcCmd (s : State) (q k op : Nat) (f : Cmd → State → State) : State :=
  match s.cmd q k with
  | none => s
  | some c => if c.desc.op = op ∧ s.canStart q c then f c (s.setCmd q { c with st := .running }) else s

/-- An object of a partition may be acted on by a queue's command (R311). -/
def State.mayAct (s : State) (q : Nat) (c : Cmd) (part : Nat) : Bool := c.owner || part == s.qPart q

/-- A command waits for the end of the swap that is being prepared (R369). -/
def State.holdSwap (s : State) (i : Instr) : State :=
  if s.cfg.waiting.contains i then s else { s with cfg := { s.cfg with waiting := s.cfg.waiting ++ [i] } }

/-- A register write that commands an engine whose commands wait while a configuration swap is prepared (R369): it is
accepted, the engine shows BUSY, and the command `i` waits. One that has waited is taken without another answer. -/
def State.regCmd (s : State) (i : Instr) (port : Nat) (busy : Bool) (err busyFld : Fld) (f : State → State) : State :=
  if s.cfg.resuming then f s
  else s.ownerCmd port busy err fun s => if s.cfg.swapping then (s.setFld busyFld 1).holdSwap i else f s

/-- A queue's command `i` of such an engine (R369). -/
def State.queueCmd (s : State) (i : Instr) (q k op : Nat) (f : Cmd → State → State) : State :=
  if s.cfg.swapping then
    if (s.cmd q k).any fun c => c.desc.op == op && s.canStart q c then s.holdSwap i else s
  else s.svcCmd q k op f

/-- Ends an engine command with the engine's RESULT (R309): a register command shows it under `res` with BUSY clear, a
queue's command completes SUCCESS for 0 and FAILED otherwise with DETAIL the code, or BAD_DESC when `bad` is the code of
a malformed descriptor (Table 2a). -/
def State.engineEnd (s : State) (o : Origin) (res busy : Fld) (code : Nat) (bad : Option Nat := none)
    (r0 r1 : Nat := 0) : State :=
  match o with
  | .reg _ => (s.setFld res code).setFld busy 0
  | .svc q k => s.svcDone q k (if code = 0 then 0 else if bad = some code then 6 else 1) code 0 r0 r1

end Sys2Proof.Machine
end

