-- ==== Sys2Proof/Machine/Counters.lean ====
section
/-! DEFINITION. Split counters and the counter tree (R104 to R107): counter lines in the cache, nodes on chip, the
chain of metadata lines an access needs, and the counters of a page. -/

namespace Sys2Proof.Machine

/-- The key of a metadata line in the counter cache and the tree. -/
def metaKeyOf (level idx : Nat) : Nat := level * 2 ^ 32 + idx

/-- The index of a page's counter line: its place in the tilled span (R105). -/
def State.spanPage (s : State) (page : Nat) : Nat := page - s.rgn.tspanBase * pagesPerGranule

/-- The line address of a metadata line (R105, R107): it lies in the metadata area, in the home group of the first page it
covers, at the position that the configuration leaves open. -/
def State.metaLine (s : State) (level idx : Nat) : Nat :=
  let gran := s.granule
  let home := s.groupOf ((idx * 64 ^ (level - 1) + s.rgn.tspanBase * pagesPerGranule) * 4096)
  let b0 := s.rgn.metaBase * 2 ^ 21 / gran
  let skip := (home + 40 - b0 % 40) % 40
  let blocks := s.rgn.metaCount * 2 ^ 21 / gran
  let pos := Config.metaPos level idx % ((blocks - skip + 39) / 40 * (gran / 64))
  (b0 + skip + 40 * (pos / (gran / 64))) * (gran / 64) + pos % (gran / 64)

/-- The level and index of the metadata line at a line address. -/
def State.metaAt (s : State) (line : Nat) : Option (Nat × Nat) :=
  (Config.metaAt line).filter fun x => s.metaLine x.1 x.2 == line

/-- A metadata line covers a page of a radio TILLED region: it stays in the counter cache (R37, R109). -/
def State.radioMeta (s : State) (level idx : Nat) : Bool :=
  let lo := idx * 64 ^ (level - 1) + s.rgn.tspanBase * pagesPerGranule
  s.rgn.rows.any fun e => e.2.radio &&
    decide (e.2.kind = .tilled ∧ e.2.state ≠ .free ∧ e.2.base * pagesPerGranule < lo + 64 ^ (level - 1)
      ∧ lo < (e.2.base + e.2.count) * pagesPerGranule)

/-- The on-chip node of level 4 or 5. -/
def State.treeNode (s : State) (level idx : Nat) : CtrLine := tget {} s.rgn.tree (metaKeyOf level idx)

/-- The minor a line's entry holds for child `i`. -/
def CtrLine.minor (c : CtrLine) (i : Nat) : Nat := c.minors.getD i 0

/-- A counter line with one minor replaced. -/
def CtrLine.setMinor (c : CtrLine) (i v : Nat) : CtrLine := { c with minors := c.minors.set i v }

/-- A counter line as the 64 bytes of R104. -/
def CtrLine.toLine (c : CtrLine) : Line :=
  BitVec.ofNat 512 (c.major % 2 ^ 64 +
    ((List.range 64).map fun i => c.minor i % 128 * 2 ^ (64 + 7 * i)).sum)

/-- The counter line that 64 bytes hold (R104). -/
def CtrLine.ofLine (l : Line) : CtrLine :=
  ⟨l.toNat % 2 ^ 64, (List.range 64).map fun i => bits l.toNat (64 + 7 * i) 7⟩

/-- The resident copy of a metadata line of level 1 to 3. -/
def State.cachedNode (s : State) (level idx : Nat) : Option Cached := tget none s.rgn.cache (metaKeyOf level idx)

/-- A metadata line's value when the block knows it: resident, on chip, or never written because its parent's entry
has minor 0 (R106). The counter lines of radio TILLED regions are always resident (R37): one that is not listed is as it
was at CREATE, zero. `fuel` bounds the levels looked at. -/
def State.node (s : State) : (fuel level idx : Nat) → Option CtrLine
  | 0, _, _ => none
  | fuel + 1, level, idx =>
    if 4 ≤ level then some (s.treeNode level idx)
    else
      match s.cachedNode level idx with
      | some c => some c.line
      | none =>
        if level = 1 && s.radioMeta 1 idx then some {}
        else
          match s.node fuel (level + 1) (idx / 64) with
          | some p => if p.minor (idx % 64) = 0 then some {} else none
          | none => none

/-- The metadata lines to fetch for a line of a level: each level not known, down to the first that is (R123). -/
def State.missing (s : State) : (fuel level idx : Nat) → List (Nat × Nat)
  | 0, _, _ => []
  | fuel + 1, level, idx =>
    if 4 ≤ level then []
    else
      match s.node 4 level idx with
      | some _ => []
      | none => (level, idx) :: s.missing fuel (level + 1) (idx / 64)

/-- The counter line of a page, when it is known. -/
def State.counterOf (s : State) (page : Nat) : Option CtrLine := s.node 4 1 (s.spanPage page)

/-- The counters of a page under a region's EPOCH: a page that is not current reads as zero (R104). -/
def CtrLine.under (c : CtrLine) (epoch : Nat) : CtrLine := if epoch ≤ c.major then c else {}

/-- Puts a metadata line of level 1 to 3 into the cache. -/
def State.cacheNode (s : State) (level idx : Nat) (c : CtrLine) (dirty : Bool) : State :=
  { s with rgn := { s.rgn with cache := tset none s.rgn.cache (metaKeyOf level idx) (some ⟨c, dirty⟩) } }

/-- Sets a node: on chip for levels 4 and 5, in the cache and dirty otherwise. -/
def State.setNode (s : State) (level idx : Nat) (c : CtrLine) : State :=
  if 4 ≤ level then { s with rgn := { s.rgn with tree := tset {} s.rgn.tree (metaKeyOf level idx) c } }
  else s.cacheNode level idx c true

/-- Drops a metadata line from the cache. -/
def State.uncache (s : State) (level idx : Nat) : State :=
  { s with rgn := { s.rgn with cache := tdel s.rgn.cache (metaKeyOf level idx) } }

/-- A draw of the epoch source (R95): the value returned, and the state after. -/
def State.drawEpoch (s : State) : Nat × State :=
  (s.rgn.epsrc, { s with rgn := { s.rgn with epsrc := s.rgn.epsrc + 1 } })

/-- The re-tag record of a node, if any (R161). -/
def State.retagOf (s : State) (level idx : Nat) : Option Retag :=
  s.harrow.retags.find? fun r => r.level == level && r.idx == idx

/-- The metadata key under which a metadata line stands (R160): during a META job, by the headland over the metadata
area's pages. -/
def State.metaKeyFor (s : State) (line : Nat) : Key :=
  match s.keys.metaKeyNext with
  | none => s.keys.metaKey
  | some next =>
    match s.harrow.jobs.find? fun e => decide (e.2.scope = .metadata ∧ e.2.st ≠ .free) with
    | none => s.keys.metaKey
    | some (_, j) =>
      let q := line / 64 - s.rgn.metaBase * pagesPerGranule
      if j.st = .settled ∨ q < j.head ∨ j.done.contains q then next else s.keys.metaKey

/-- The parent entry a child verifies under: the parent's major and its minor for the child, or the old entry while a
re-tag record's cursor has not passed the child (R161). -/
def State.parentEntry (s : State) (level idx : Nat) : Option (Nat × Nat) :=
  match s.node 4 (level + 1) (idx / 64) with
  | none => none
  | some p =>
    match s.retagOf (level + 1) (idx / 64) with
    | some r => if r.cursor ≤ idx % 64 ∧ !r.done.contains (idx % 64) then some (r.old.major, r.old.minor (idx % 64))
                else some (p.major, p.minor (idx % 64))
    | none => some (p.major, p.minor (idx % 64))

/-- The counters of a page after a write to line `i` of it that does not overflow (R104): a page that is not current
first takes a new major. -/
def bumpLine (c : CtrLine) (epoch fresh i : Nat) : CtrLine :=
  let c := if epoch ≤ c.major then c else { major := fresh, minors := List.replicate 64 0 }
  c.setMinor i (c.minor i + 1)

/-- Whether a write to lines of a page overflows (R104): the page is current and some written line's minor is 127. -/
def overflows (c : CtrLine) (epoch : Nat) (is : List Nat) : Bool :=
  decide (epoch ≤ c.major) && is.any fun i => c.minor i == 127

end Sys2Proof.Machine
end

