-- ==== Sys2Proof/Machine/Hooks.lean ====
section
/-! DEFINITION. What passing traffic does to other units: it fills armed digest segments (R213) and marks the pages of
migrating partitions (R346). -/

namespace Sys2Proof.Machine

/-- Replaces the Stavub engine's state. -/
def State.withStv (s : State) (x : Stv) : State := { s with dig := { s.dig with stv := x } }

/-- A digest context. -/
def State.ctx (s : State) (i : Nat) : Ctx := tget {} s.dig.stv.ctxs i

/-- The bytes of a line that belong to a segment, at their places in the segment (R213). -/
def Seg.take (g : Seg) (line : Nat) (data : Line) : Seg :=
  { g with got := (bvBytes data).zipIdx.foldl (fun got (p : Byte × Nat) =>
      let a := line * 64 + p.2
      if g.addr ≤ a ∧ a < g.addr + g.len then tput got (a - g.addr) p.1 else got) g.got }

/-- A segment is filled (R213): every byte has been taken. -/
def Seg.filled (g : Seg) : Bool := decide (g.got.length = g.len)

/-- The remote part of a segment is here, or it has none (R216). -/
def Seg.fetched (g : Seg) : Bool :=
  match g.fetch with
  | .none | .done _ => true
  | _ => false

/-- The armed segments of a chunk's assembly. -/
def Stv.parts (x : Stv) (ctx chunk : Nat) : List Seg :=
  x.segs.filter fun g => g.ctx == ctx && g.chunk == chunk && !g.hashed

/-- A chunk's local and remote parts cover [0, CLEN) exactly (R215); they never overlap. -/
def Stv.covered (x : Stv) (a : Asm) : Bool :=
  let ps := x.parts a.ctx a.chunk
  ps.all (fun g => g.filled && g.fetched) && decide ((ps.map fun g => g.len + g.rlen).sum = a.clen)

/-- Assemblies that have become complete wait for a core, in the order in which they became complete (R222). -/
def Stv.ready (x : Stv) : Stv :=
  let now := x.asms.filter fun a => decide (a.st = .filling) && x.covered a
  if now.isEmpty then x
  else { x with asms := x.asms.filter (fun a => !now.contains a) ++ now.map fun a => { a with st := .ready } }

/-- Plaintext of a line passes a lane (R213): armed READ segments take it from reads of their context's partition that
carry their step, WRITE segments from local writes that do and from any peer's write to a region of the partition. Once
its step has committed, the tag names another step, and a segment takes a peer's writes only. A write taken into a chunk
already hashed gives its context reason REWRITTEN (R226). -/
def State.segFill (s : State) (write : Bool) (t : Txn) (row line : Nat) (data : Line) : State :=
  let x := s.dig.stv
  let hit := fun (g : Seg) =>
    let p := (s.ctx g.ctx).part
    let own := decide (p = t.req.part.toNat ∧ g.step = t.req.step.toNat) && !t.stepBad && !g.committed
    let from_ := if write then decide (g.path = .write) &&
        (if t.remote.isSome then decide ((s.row row).part = p) else own)
      else decide (g.path = .read) && t.remote.isNone && own
    from_ && decide (g.addr < line * 64 + 64 ∧ line * 64 < g.addr + g.len)
  if !x.segs.any hit then s
  else
    let late := (x.segs.filter fun g => hit g && g.hashed).map (·.ctx)
    let segs := updWhere (fun g => hit g && !g.hashed) (fun g => g.take line data) x.segs
    let ctxs := late.foldl (fun cs i =>
      let c := tget {} cs i
      tset {} cs i { c with reason := nsInsert c.reason 8 }) x.ctxs
    s.withStv ({ x with segs := segs, ctxs := ctxs }).ready

/-- A token session. -/
def State.tok (s : State) (t : Nat) : Tok := tget {} s.dig.toks t

/-- Sets a token session. -/
def State.setTok (s : State) (t : Nat) (x : Tok) : State :=
  { s with dig := { s.dig with toks := tset {} s.dig.toks t x } }

/-- Ends a session's CLOSE (Table 13 of the watch chapter). -/
def State.tokEnd (s : State) (o : Origin) (code : Nat) (r0 r1 : Nat := 0) : State :=
  s.engineEnd o F.tokCtl_RESULT F.tokCtl_BUSY code none r0 r1

/-- RESET or DESTROY of a region leaves its OPEN session INCOMPLETE, with chain zero (Table 4 of the watch chapter). -/
def State.tokBreak (s : State) (row : Nat) : State :=
  match s.dig.toks.find? fun e => decide (e.2.st = .opened ∧ e.2.row = row) with
  | none => s
  | some (t, x) =>
    s.setTok t { x with st := .incomplete, chain := 0 }

/-- A write of partition `p` reaches a page: with MIGRATE set the page joins the active dirty map (R346). -/
def State.logDirty (s : State) (p page : Nat) : State :=
  if s.fld F.partCtl_MIGRATE p = 1 then
    let x := s.part p
    if x.logged.contains page then s
    else s.setPart p { x with dirty := nsInsert x.dirty page, logged := nsInsert x.logged page }
  else s

/-- The flows that use a key slot (R190). -/
def State.flowRefs (s : State) (slot : Nat) : Nat :=
  (s.links.tx.filter fun f => f.slot == slot && slot != 0).length +
  (s.links.rx.filter fun f => f.slot == slot && slot != 0).length

/-- The SERVICE commands queued or executing that name a slot (R190). -/
def State.cmdRefs (s : State) (slot : Nat) : Nat :=
  (s.svc.queues.map fun e => (e.2.cmds.filter fun c => decide (c.st ≠ .done) && decide (slot ≠ 0) &&
    (c.desc.kidx == slot || (decide (c.desc.op = 3 ∨ c.desc.op = 4 ∨ c.desc.op = 5) && c.desc.arg16 == slot))).length).sum

/-- A radio flow that is not closing names a CELL slot (R181). -/
def State.radioFlowNames (s : State) (slot : Nat) : Bool :=
  s.links.tx.any (fun f => f.lane == 0 && f.slot == slot) || s.links.rx.any fun f => f.lane == 0 && f.slot == slot

/-! ### Requests of peers (R265 to R269) -/

/-- The place of a status in the order of R57. -/
def Status.rank : Status → Nat
  | .genStale => 2 | .fenced => 3 | .hedged => 4 | .retry => 5 | .regionFault => 6 | .keyMismatch => 7
  | .sownWrite | .furrowRewrite => 8 | .keyExhausted => 9 | .poison => 10 | .ok => 11

/-- Status codes (Table 3 of the boundary chapter). -/
def Status.code : Status → Nat
  | .ok => 0 | .poison => 1 | .keyMismatch => 2 | .regionFault => 3 | .sownWrite => 4 | .furrowRewrite => 5
  | .keyExhausted => 6 | .fenced => 7 | .genStale => 8 | .hedged => 9 | .retry => 10

/-- The status of a code; one that names none counts as POISON. -/
def Status.ofCode (n : Nat) : Status :=
  ([.ok, .poison, .keyMismatch, .regionFault, .sownWrite, .furrowRewrite, .keyExhausted, .fenced, .genStale, .hedged,
    .retry] : List Status).getD n .poison

/-- The capability token of a holder unit and partition with rights on a capability index of this block (R264). -/
def State.capToken (s : State) (holder part rights capidx : Nat) : Block :=
  let b := leBytes 2 holder ++ leBytes 1 part ++ leBytes 1 rights ++ leBytes 2 s.unit ++ leBytes 2 capidx ++
    ascii "LZCAPTK1"
  Config.aes256 (s.slot capidx).key (BitVec.ofNat 128 (ofLE b))

/-- The target's check of a request's capability (R265): the slot holds a CAPABILITY key, the rights cover the
operation (Table 4 of the links chapter), and the check is bytes 0 to 7 of the token. -/
def State.capCheck (s : State) (m : Remote) (capidx part : Nat) : Bool :=
  let rights := (m.op == 1 || m.op == 3 || bit m.rights 0) && (m.op == 0 || bit m.rights 1)
  decide ((s.slot capidx).kind = .capability) && rights &&
    decide ((s.capToken m.src part m.rights capidx).toNat % 2 ^ 64 = m.check)

/-- Adds to an arrival counter, and presents its index when it reaches its target armed (R269). -/
def State.countArrival (s : State) (i n src : Nat) : State :=
  let c := s.actr i
  let c' := { c with count := (c.count + n) % 2 ^ 32 }
  if c.armed ∧ c.target ≤ c.count + n then
    let s := (s.count 476 1).trace 2 1 (Src.port.at 0) (some c.part) i c'.count src
    (s.setActr i { c' with armed := false }).emit (.arr i)
  else s.setActr i c'

/-- The counting of a message that has taken effect, or of a refused one (R269). -/
def State.arrive (s : State) (t : Txn) (r : Remote) (st : Status) : State :=
  if r.arrive && (s.actr r.actr).valid then
    if st = .ok then s.countArrival r.actr (if r.op = 1 then t.req.len.toNat + 1 else 1) r.src
    else if (s.regionAt t.req.addr.toNat).any fun i => (s.row i).part == (s.actr r.actr).part then
      s.setActr r.actr { s.actr r.actr with err := true }
    else s
  else s

/-- Bytes a message of `n` data bytes occupies in a payload (R261). -/
def msgSize (n : Nat) : Nat := 32 + ceilDiv n 16 * 16

/-- A message of a peer's request has taken effect (R266 to R269): it counts at its arrival counter, its credit is owed
back, and with its request's last message the response waits for a frame. -/
def State.remoteEffect (s : State) (t : Txn) (r : Remote) (st : Status) (data : Bytes) : State :=
  let s := s.arrive t r st
  let size := msgSize (match r.op with | 0 => 0 | 1 => 64 * (t.req.len.toNat + 1) | _ => 16)
  let rx := updWhere (fun f => f.src == r.src && f.lane == r.lane && f.lane != 0)
    (fun (f : RxFlow) => { f with owed := f.owed + size }) s.links.rx
  let mine := fun (q : RemReq) => q.src == r.src && q.lane == r.lane && q.mtag == r.mtag
  let fix := fun (q : RemReq) => { q with
    out := q.out.filter (· != r.no),
    status := match q.status with
      | some old => if st.rank < old.rank then some st else some old
      | none => some st,
    data := if data.isEmpty then q.data else tput q.data (t.req.addr.toNat / 64) data }
  let reqs := updWhere mine fix s.links.reqs
  let ended := fun (q : RemReq) => mine q && q.out.isEmpty && q.closed
  let rsps := (reqs.filter ended).map fun q =>
    (⟨q.src, q.lane, q.mtag, q.status.getD st, if q.status.getD st = .ok then (q.data.map (·.2)).flatten else []⟩ : RemoteRsp)
  { s with links := { s.links with rx := rx, reqs := reqs.filter fun q => !ended q },
           mem := { s.mem with remoteRsps := s.mem.remoteRsps ++ rsps } }

end Sys2Proof.Machine
end

