-- ==== Sys2Proof/Machine/Memory.lean ====
section
/-! DEFINITION. The operations of the memory path: answers to requesters, accesses on lz_dmc_, poisoning of steps,
the admission check (R112), reads, writes and page moves. -/

namespace Sys2Proof.Machine

/-- The row number that stands for no region: the clear pass-through of BLANK (R88). -/
def noRow : Nat := 16384

/-- Counts a presentation or completed MAINT request of a lane (LZ_LANE_STAT.PROGRESS). -/
def State.laneProgress (s : State) (n : Nat) : State :=
  if n < 44 then
    let l := s.lane n
    s.setLane n { l with progress := (l.progress + 1) % 2 ^ 32 }
  else s

/-- Ends a transaction identifier on a group (R51). -/
def State.freeTid (s : State) (g : Nat) (tid : BitVec 10) : State :=
  { s with mem := { s.mem with tids := s.mem.tids.filter (· != g * 1024 + tid.toNat) } }

/-- Presents a write completion (R54), or queues the response to a peer (R266). -/
def State.completeWrite (s : State) (t : Txn) (st : Status) (prov : Bool) : State :=
  match t.remote with
  | some r => s.remoteEffect t r st []
  | none => ((s.emit (.mwc t.grp t.req.tid st prov)).freeTid t.grp t.req.tid).laneProgress t.lane

/-- Queues a read response (R53), or the response to a peer; `row` is the region that a granted read refers to. -/
def State.queueRsp (s : State) (t : Txn) (row : Nat) (st : Status) (data : List Line) (prov : Bool) : State :=
  match t.remote with
  | some r => s.remoteEffect t r st (if st = .ok then ofLines data else [])
  | none =>
    let x : Rsp := ⟨t.grp, t.lane, t.req.cls == 0, t.id, t.acc, row, t.req.tid, st, data, prov, t.req.rdom.toNat⟩
    { s with mem := { s.mem with rsps := s.mem.rsps ++ [x] } }

/-- Lines whose contents the manual does not state: free values. -/
def State.freeLines (s : State) (n : Nat) : List Line × State :=
  ((upto 0 n).map fun i => Config.freeBits 512 (s.frees + i), { s with frees := s.frees + n })

/-- A read that completes POISON (R31): its response has the beats of its length (R53); what they carry is not stated. -/
def State.queuePoison (s : State) (t : Txn) (row : Nat) : State :=
  let (data, s) := s.freeLines (reqLines t.req)
  s.queueRsp t row .poison data false

/-- Refuses a request: a write completes with the status, a read is answered with one beat of zero data (R54); the
refusal is counted at its lane, or for a peer's request at the receiving port (R57). -/
def State.refuse (s : State) (t : Txn) (st : Status) : State :=
  let s := match t.remote with
    | some r => s.incFld F.portErr_REFUSED r.port
    | none => if t.lane < 44 then s.incFld F.laneErr_REFUSED t.lane else s
  if t.req.write then s.completeWrite t st false else s.queueRsp t noRow st [0, 0] false

/-- Offers an access to a memory controller (R58), with the next access tag; a re-read goes ahead of every waiting
access (R124). What goes ahead, re-reads and RADIO page moves, is never withheld and counts towards the throttle's estimate
(R457). -/
def State.offer (s : State) (g lane : Nat) (p : Purpose) (line n : Nat) (data : List (Line × BitVec 64))
    (first : Bool) : State :=
  let a : Access := { tag := BitVec.ofNat 12 s.mem.nextTag, grp := g, lane := lane, purpose := p, line := line,
                      n := n, data := data }
  let s := if first then s.spend (grantEnergy (grantCycles n)) else s
  { s with mem := { s.mem with
    accesses := if first then a :: s.mem.accesses else s.mem.accesses ++ [a], nextTag := s.mem.nextTag + 1 } }

/-- Puts an access of MAINT work into its lane's queue, where the arbiter grants it (R135, R136). -/
def State.offerMaint (s : State) (g lane : Nat) (p : Purpose) (line n : Nat) (data : List (Line × BitVec 64))
    (prio : Bool) : State :=
  let a : Access := { tag := BitVec.ofNat 12 s.mem.nextTag, grp := g, lane := lane, purpose := p, line := line,
                      n := n, data := data, maint := true }
  let s := { s with mem := { s.mem with nextTag := s.mem.nextTag + 1 } }
  let l := s.lane lane
  s.setLane lane { l with maint := l.maint ++ [⟨n, prio, some a⟩] }

/-- Priority MAINT that is granted at once (R136): a lane's MAINT credit pays for its lines, and may fall below zero; its
energy is charged (R457). -/
def State.chargeMaint (s : State) (lane lines : Nat) : State :=
  let s := s.spend (grantEnergy (grantCycles lines))
  let l := s.lane lane
  s.setLane lane { l with credit := l.credit - 1000 * grantCycles lines }

/-- A page of the metadata area is closed by a META job (R160). -/
def State.metaClosed (s : State) (line : Nat) : Bool := s.pageClosed (line / 64)

/-- Whether an access for a metadata line is out. -/
def State.metaOut (s : State) (level idx : Nat) : Bool :=
  s.mem.accesses.any (fun a => decide (a.purpose = .mdata level idx ∨ a.purpose = .remdata level idx)) ||
  s.rgn.arrived.any fun e => e.level == level && e.idx == idx

/-- Issues a metadata read for each missing level of a chain that is not already out (R123); a fetch that falls in a
closed metadata page waits until the page opens (R160). -/
def State.fetchMeta (s : State) (level idx : Nat) : State :=
  let ms := s.missing 4 level idx
  let s := if level = 1 ∧ !ms.isEmpty then
      s.count (4 * s.groupOf ((idx + s.rgn.tspanBase * pagesPerGranule) * 4096) + 2) 1
    else s
  ms.foldl (fun s (p : Nat × Nat) =>
    let line := s.metaLine p.1 p.2
    if s.metaOut p.1 p.2 || s.metaClosed line then s
    else
      let g := s.groupOf (line * 64)
      let s := s.count 452 1
      s.offer g ((s.laneOf g).getD 0) (.mdata p.1 p.2) line 1 [] false) s

/-! ### Poisoned steps -/

/-- Steps together with the steps bound to one of them by reads of its held data (R131). -/
def State.bindMore (s : State) (l : List Nat) : List Nat :=
  l ++ ((s.stile.steps.filter fun e => !l.contains e.1 && e.2.boundTo.any l.contains).map (·.1))

/-- The steps that are poisoned with a step (R131): those bound to it, those bound to them, and so on, itself
included. -/
def State.boundSteps (s : State) (step : Nat) : List Nat :=
  s.stile.steps.foldl (fun l _ => s.bindMore l) [step]

/-! ### The hold buffer -/

/-- The level of a lane's hold buffer has changed (R129): the readies fall below 64 free lines, which is recorded while
HOLD_EVT is 1 (R467), and rise again at 64. -/
def State.holdLevel (s : State) (n part : Nat) : State :=
  let l := s.lane n
  if !l.full ∧ s.holdFree n < 64 then
    let s := s.setLane n { l with full := true }
    if s.fld F.laneCtl_HOLD_EVT n = 1 then s.record .stileFull .lane n (some part) (s.holdFree n) 0 else s
  else if l.full ∧ 64 ≤ s.holdFree n then
    let (t, s) := s.cycles
    (s.trace 1 1 (Src.lane.at n) none n t 0).setLane n { l with full := false }
  else s

/-- An egress leaves the hold: how long it was held counts for its partition (R438). -/
def State.heldTime (s : State) (h : Held) : State :=
  let (t, s) := s.cycles
  s.count (321 + 2 * h.part) t

/-- Discards one held egress of a poisoned step (R132): its reservation is cleared; a fabric request is answered
POISON; a write has already completed provisionally. -/
def State.discard (s : State) (h : Held) : State :=
  let s := (s.heldTime h).count 458 1
  match h.what with
  | .mem t row =>
    let r := s.row row
    let off := r.offset (reqLine t.req)
    let s := s.holdLevel t.lane h.part
    if r.epoch ≠ h.epoch then s
    else s.setRow row { r with rsv := r.rsv.filter fun o => decide (o < off ∨ off + reqLines t.req ≤ o) }
  | .fab i q => (s.emit (.frsp i q.tid .poison (beatsFrom 0 [0, 0]) true)).freeTid (64 + i) q.tid
  | .dma q k => s.svcDone q k 1 9 0 0 0
  | .xfer c no =>
    let x := s.chan c
    let fs := updWhere (fun (f : Xfer) => f.no == no) (fun f => { f with done := true, status := 1, detail := 9 }) x.xfers
    s.setChan c { x with xfers := fs }

/-- Poisons one step (R132): every egress of it still held is discarded, and it stays poisoned until its commit. -/
def State.poisonOne (s : State) (step : Nat) : State :=
  let mine := s.mem.held.filter (·.step == step)
  let s := { s with mem := { s.mem with held := s.mem.held.filter fun h => !(h.step == step) } }
  let s := mine.foldl State.discard s
  s.setStepEnt step { s.stepEnt step with poisoned := true, discard := true }

/-- Poisons a step and every step bound to it, in the cycle of the failure (R131, R132), with a STEP_POISONED record
that names the first failing line. -/
def State.poisonStep (s : State) (step line : Nat) : State :=
  if (s.stepEnt step).discard then s
  else
    let p := (s.stepEnt step).part
    let s := (s.boundSteps step).foldl State.poisonOne s
    s.record .stepPoisoned .stile 0 (some p) step (line * 64)

/-- Marks a step poisoned for its commit, with no egress discarded (R133). -/
def State.markPoisoned (s : State) (step : Nat) : State :=
  s.setStepEnt step { s.stepEnt step with poisoned := true }

/-! ### The admission check -/

/-- Item 6 of R57 for a granted request (R112, R35, R71, R126): class 3, the step rule, the map entry and state,
the partition, the permission and the class. -/
def State.check6 (s : State) (t : Txn) (row : Option Nat) : Bool :=
  if t.req.cls = 3 ∨ t.stepBad then false
  else
    match row with
    | none => false
    | some i =>
      let r := s.row i
      let p := match t.remote with | some _ => r.part | none => t.req.part.toNat
      let perm := match t.remote with
        | some m => (m.op == 1 || m.op == 3 || bit r.perm 2) && (m.op == 0 || bit r.perm 3)
        | none => bit r.perm (if t.req.write then 1 else 0)
      let counter := match t.remote with
        | some m => !m.arrive || ((s.actr m.actr).valid && (s.actr m.actr).part == r.part)
        | none => true
      decide (t.req.addr.toNat < 0x6000000000 ∧ r.state ≠ .free ∧ r.state ≠ .closing ∧ p = r.part)
        && perm && counter && (decide (t.req.cls ≠ 0) || (r.radio && (s.plotOf p).radio))

/-- Item 7 of R57 (R112): the carried key index is the region's, or its next one during a harrow pass, and names a
key; a remote request carries the capability index with a check that its rights and token bear out (R265); in CLEAR
regions the index is not checked. -/
def State.check7 (s : State) (t : Txn) (r : Region) : Bool :=
  let k := t.req.kidx.toNat
  let named := decide (k ≠ 0 ∧ (s.slot k).kind ≠ .empty)
  match t.remote with
  | some m => (decide (r.kind = .clear) || (named && decide (k = r.capidx))) && s.capCheck m k t.req.part.toNat
  | none =>
    decide (r.kind = .clear) || (named && (decide (k = r.kidx) || (r.harrow && decide (k = r.kidxNext))))

/-- A RADIO write under a cell key whose cell's role does not allow it (R297): a local one needs PRIMARY here, one from
the partner SECONDARY. -/
def State.cellRefused (s : State) (t : Txn) (r : Region) : Bool :=
  let k := s.slot (match t.remote with | some _ => r.kidx | none => t.req.kidx.toNat)
  t.req.cls == 0 && t.req.write && decide (k.kind = .cell) &&
    (match t.remote with | some _ => !s.partnerWrites k.cell | none => !s.primary k.cell)

/-- The status of a write that breaks its kind's rule (R96, R98, R101), if it does. -/
def Region.writeRefusal (r : Region) (off n : Nat) : Option Status :=
  match r.kind with
  | .clear | .tilled => none
  | .sown => if r.state ≠ .opened ∨ !r.windowOk off n then some .sownWrite else none
  | .furrow => if !r.windowOk off n then some .furrowRewrite else none

/-- Item 3 of R57 for a RADIO write under a cell key, and items 6 to 8, for one part, in order. In BLANK a request at or
above 384 GiB passes in clear like any other: R83 refuses every such request and R88 passes every request, and the model
follows R88 there (DESIGN CHOICE, log entry 58). -/
def State.admitCheck (s : State) (t : Txn) : Option (Nat × Status) :=
  if s.life.lc = .blank then (if t.req.cls = 3 then some (6, .regionFault) else none)
  else
    let row := s.regionAt t.req.addr.toNat
    let r := s.row (row.getD noRow)
    if s.cellRefused t r then some (3, .fenced)
    else if !s.check6 t row then some (6, .regionFault)
    else
      if !s.check7 t r then some (7, .keyMismatch)
      else if (match t.remote with | some m => m.op == 2 || m.op == 3 | none => false) then
        (match r.kind with
        | .sown => some (8, .sownWrite)
        | .furrow => some (8, .furrowRewrite)
        | _ => none)
      else if t.req.write then
        (r.writeRefusal (r.offset (reqLine t.req)) (reqLines t.req)).map fun st => (8, st)
      else none

/-- The row a request falls in. -/
def State.rowOf (s : State) (t : Txn) : Nat :=
  if s.life.lc = .blank then noRow else (s.regionAt t.req.addr.toNat).getD noRow

/-! ### Usage credits -/

/-- The key of a lane's credit for a slot. -/
def creditKey (lane slot : Nat) : Nat := slot * 64 + lane

/-- A lane's credit for a slot, in line-writes (R187). -/
def State.credit (s : State) (lane slot : Nat) : Nat := tget 0 s.keys.credits (creditKey lane slot)

/-- Sets a lane's credit. -/
def State.setCredit (s : State) (lane slot n : Nat) : State :=
  { s with keys := { s.keys with credits := tset 0 s.keys.credits (creditKey lane slot) n } }

/-- A lane asks for a credit, unless it has a request out (R187). -/
def State.askCredit (s : State) (lane slot : Nat) : State :=
  if s.keys.creditReqs.contains ⟨lane, slot⟩ then s
  else { s with keys := { s.keys with creditReqs := s.keys.creditReqs ++ [⟨lane, slot⟩] } }

/-- Takes line-writes from a lane's credit; one that falls below 1,024 asks for the next (R187). -/
def State.takeCredit (s : State) (lane slot n : Nat) : State :=
  let s := s.setCredit lane slot (s.credit lane slot - n)
  if s.credit lane slot < 1024 then s.askCredit lane slot else s

/-- The limit of a slot (Table 4 of the keys chapter). -/
def Slot.limit (k : Slot) : Nat :=
  match k.kind with
  | .empty => 0
  | .memory | .cell | .capability => 2 ^ 48
  | .flow | .host => 2 ^ 40
  | .service => 2 ^ k.exp

/-! ### Reads -/

/-- The youngest posted write of a line (R33): in the write buffer, or in a page move's buffer (R109). What was posted
before a RESET of its region is not forwarded (R102). -/
def State.posted (s : State) (line : Nat) : Option Line :=
  match ((s.mem.wbuf.filter fun w => w.line == line && w.tag.isNone).getLast?) with
  | some w => some w.plain
  | none =>
    match (s.mem.moves.filterMap fun m => ((m.fresh.filter (·.1 == line)).getLast?).map (·.2)).getLast? with
    | some d => some d
    | none => ((s.mem.wbuf.filter fun w => w.line == line && w.epoch == (s.row w.row).epoch).getLast?).map (·.plain)

/-- The youngest held or posted write of a line: its data, and the step that holds it (R33, R131). -/
def State.forward (s : State) (line : Nat) : Option (Line × Option Nat) :=
  let heldHere := s.mem.held.filterMap fun h => match h.what with
    | .mem t row =>
      let l0 := reqLine t.req
      if l0 ≤ line ∧ line < l0 + reqLines t.req ∧ h.epoch = (s.row row).epoch then
        some (t.req.data.getD (line - l0) 0, h.step)
      else none
    | _ => none
  match heldHere.getLast? with
  | some (d, st) => some (d, some st)
  | none => (s.posted line).map fun d => (d, none)

/-- How a line of a region is read at a grant: forwarded, virgin, or from DRAM under its counter block and key slot;
in a TILLED region the counter block may still be missing. An ADVANCE's unwritten offsets read as zeros (R103). -/
def State.lineRead (s : State) (row line : Nat) : LineRd :=
  let r := s.row row
  let off := r.offset line
  let lost := s.mem.poisoned.contains line
  match s.forward line with
  | some (d, _) => { line := line, ctr := none, slot := 0, st := .known d }
  | none =>
    match r.kind with
    | .clear => { line := line, ctr := some ⟨0, 0, 0⟩, slot := 0, st := .wait }
    | .sown | .furrow =>
      if r.adv.any (fun a => a.zeros.contains off) || !r.written off then
        { line := line, ctr := none, slot := 0, st := .known 0 }
      else if lost then { line := line, ctr := none, slot := 0, st := .bad }
      else { line := line, ctr := some ⟨r.kind.code, r.epoch, 0⟩, slot := s.lineSlot row off 0, st := .wait }
    | .tilled =>
      match s.counterOf (line / 64) with
      | none => { line := line, ctr := none, slot := s.lineSlot row off 0, st := .wait }
      | some c =>
        let c := c.under r.epoch
        let m := c.minor (line % 64)
        if m = 0 then { line := line, ctr := none, slot := 0, st := .known 0 }
        else if lost then { line := line, ctr := none, slot := 0, st := .bad }
        else { line := line, ctr := some ⟨3, c.major, m⟩, slot := s.lineSlot row off c.major, st := .wait }

/-- The maximal runs of consecutive lines that lie in one channel group, as first line and count. -/
def State.runs (s : State) : List Nat → List (Nat × Nat)
  | [] => []
  | x :: t =>
    match s.runs t with
    | (y, n) :: rest =>
      if y = x + 1 ∧ s.groupOf (y * 64) = s.groupOf (x * 64) then (x, n + 1) :: rest else (x, 1) :: (y, n) :: rest
    | [] => [(x, 1)]

/-- The lines of a read that need a data access. -/
def Rd.need (r : Rd) : List Nat := (r.lines.filter fun l => decide (l.st = .wait)).map (·.line)

/-- True when every line's plaintext is known or has failed twice. -/
def Rd.settled (r : Rd) : Bool :=
  r.lines.all fun l => match l.st with | .known _ | .bad => true | _ => false

/-- True when some line failed both attempts. -/
def Rd.anyBad (r : Rd) : Bool := r.lines.any fun l => decide (l.st = .bad)

/-- The plaintext of a line once it is known. -/
def LineRd.data (l : LineRd) : Line := match l.st with | .known p => p | _ => 0

/-- The row of a line's region kind is CLEAR: nothing is checked (R91). -/
def LineRd.clear (l : LineRd) : Bool := match l.ctr with | some c => c.kind == 0 | none => false

/-- The plaintext a received line gives under its key and counter block. -/
def State.plainOf (s : State) (l : LineRd) (c : Line) : Line :=
  match l.ctr with
  | some k => if k.kind = 0 then c else openLine (s.slot l.slot).key l.line k c
  | none => 0

/-- Whether a received line verifies (R94); an error mark counts as a failure (R59); an armed TAG injection fails the
first attempt of its line, and with DOUBLE the re-read (R424). -/
def State.lineVerdict (s : State) (l : LineRd) (c : Line) (sb : BitVec 64) (err second : Bool) : Bool :=
  match l.ctr with
  | none => false
  | some k =>
    let real := !err && (k.kind == 0 || lineOk (s.slot l.slot).key l.line k c sb)
    let inj := match s.faults.tagInject with
      | some i => i.line == l.line && (if second then i.dbl && i.taken.isSome else i.taken.isNone)
      | none => false
    real && !inj

/-- An injection has been taken by this read (R424): what follows from it counts in LZ_FLT_REHEARSAL. -/
def State.injected (s : State) (id : Nat) : Bool :=
  match s.faults.tagInject with
  | some i => decide (i.taken = some id)
  | none => false

/-- Ends an injection whose read is over. -/
def State.endInjection (s : State) (id : Nat) : State :=
  if s.injected id then
    (({ s with faults := { s.faults with tagInject := none } }).setFld F.fltInject_RESULT 0).setFld F.fltInject_BUSY 0
  else s

/-! ### Writes -/

/-- The data of line `i` of a write. -/
def reqData (r : MemReq) (i : Nat) : Line := r.data.getD i 0

/-- Puts lines of a posted write into the write buffer before they are encrypted. -/
def State.bufferLines (s : State) (lane row line : Nat) (data : List Line) (tag : Option (BitVec 12))
    (maint : Bool := false) (owner : Nat := 0) (acc : Option Nat := none) : State :=
  { s with mem := { s.mem with
    wbuf := s.mem.wbuf ++ (data.zip (upto line data.length)).map fun (d, l) =>
      ⟨lane, l, d, row, tag, (s.row row).epoch, maint, owner, acc.getD s.mem.accepts⟩ } }

/-- Encrypts and tags lines under their counter blocks and offers them to the memory controller as one access, or, for
MAINT work, puts that access into the lane's MAINT queue. -/
def State.offerLines (s : State) (lane row line : Nat) (data : List Line) (ctrs : List (Ctr × Nat))
    (maint : Option Bool := none) (acc : Option Nat := none) : State :=
  let sealed := (data.zip (ctrs.zip (upto line data.length))).map fun (d, (c, k), l) =>
    if c.kind = 0 then (d, (0 : BitVec 64)) else sealLine (s.slot k).key l c d
  let tag := BitVec.ofNat 12 s.mem.nextTag
  let s := s.bufferLines lane row line data (some tag) maint.isSome 0 acc
  let s := match maint with
    | none => s.offer (s.groupOf (line * 64)) lane .write line data.length sealed false
    | some prio => s.offerMaint (s.groupOf (line * 64)) lane .write line data.length sealed prio
  { s with mem := { s.mem with poisoned := s.mem.poisoned.filter fun l => decide (l < line ∨ line + data.length ≤ l) } }

/-- Lines of a write other than MAINT go out; they count as lines written (R438). -/
def State.offerWrite (s : State) (lane row line : Nat) (data : List Line) (ctrs : List (Ctr × Nat))
    (maint : Option Bool := none) (acc : Option Nat := none) : State :=
  if maint.isSome then s.offerLines lane row line data ctrs maint acc
  else (s.offerLines lane row line data ctrs none acc).count (4 * s.groupOf (line * 64) + 1) data.length

/-- The lane that carries out the page moves of a page: the home lane (R107). -/
def State.homeLane (s : State) (page : Nat) : Nat := (s.laneOf (s.groupOf (page * 4096))).getD 0

/-- A lane's page-move buffer of a kind is in use (R118): a lane has one for the moves of R108 and one for those of
R109. -/
def State.moveBusy (s : State) (lane : Nat) (radio : Bool) : Bool :=
  s.mem.moves.any fun m => m.lane == lane && m.radio == radio

/-- Starts a page move (R108, R109): the page locks and the written lines that the triggering write does not cover are
read (R122), as MAINT work through the lanes that serve them, or ahead of every choice for a RADIO move (R135). Data
that the stile still holds is no content of the page yet. -/
def State.startMove (s : State) (row page : Nat) (old : CtrLine) (fresh : List (Nat × Line)) : State :=
  let r := s.row row
  let lane := s.homeLane page
  let want := (upto (page * 64) 64).filter fun l =>
    decide (old.minor (l % 64) ≠ 0) && !fresh.any (·.1 == l)
  let lines := want.map fun l => match s.posted l with
    | some d => ({ line := l, ctr := none, slot := 0, st := .known d } : LineRd)
    | none =>
      if s.mem.poisoned.contains l then { line := l, ctr := none, slot := 0, st := .bad }
      else { line := l, ctr := some ⟨3, old.major, old.minor (l % 64)⟩, slot := s.lineSlot row (r.offset l) old.major,
             st := .wait }
  let m : Move := ⟨lane, page, row, old, lines, fresh, r.radio, s.mem.accepts⟩
  let s := (s.count 453 1).trace 2 6 (Src.lane.at lane) (some r.part) (0x100 + lane) row (r.offset (page * 64) / 64)
  let s := { s with mem := { s.mem with moves := s.mem.moves ++ [m] } }
  (s.runs ((lines.filter fun l => decide (l.st = .wait)).map (·.line))).foldl (fun s (p : Nat × Nat) =>
    let g := s.groupOf (p.1 * 64)
    let n := (s.laneOf g).getD lane
    if r.radio then s.offer g n (.move lane page) p.1 p.2 [] true
    else s.offerMaint g n (.move lane page) p.1 p.2 [] false) s

/-- A TILLED write whose page counters are known must move its page (R104, R158): a minor overflows, or the page is old
after a turnover. -/
def State.movesPage (s : State) (row line n : Nat) (c : CtrLine) : Bool :=
  overflows c (s.row row).epoch ((upto line n).map (· % 64)) || s.turnedOld row c

/-- A TILLED write that moves no page (R104): the counters advance and the lines go out. -/
def State.countedWrite (s : State) (t : Txn) (row line : Nat) (data : List Line) (c : CtrLine) : State :=
  let r := s.row row
  let (fresh, s) := if r.epoch ≤ c.major then (0, s) else s.drawEpoch
  let c' := ((upto line data.length).map (· % 64)).foldl (fun c i => bumpLine c r.epoch fresh i) c
  let s := s.setNode 1 (s.spanPage (line / 64)) c'
  let ctrs := (upto line data.length).map fun l =>
    ((⟨3, c'.major, c'.minor (l % 64)⟩ : Ctr), s.lineSlot row (r.offset l) c'.major)
  s.offerWrite t.lane row line data ctrs t.maint (t.maint.elim (some (t.acc + 1)) fun _ => none)

/-- A completed TILLED write whose page is locked by a page move, whose counters are not known, that follows such a
write of its page, or that needs a page-move buffer in use: it waits, its data in the write buffer. -/
def State.queueTilled (s : State) (t : Txn) (row : Nat) (data : List Line) : State :=
  let s := { s with mem := { s.mem with metaWrites := s.mem.metaWrites ++ [(⟨t, row⟩ : MetaWrite)] } }
  s.bufferLines t.lane row (reqLine t.req) data none false t.id

/-- A waiting TILLED write leaves the list of those that wait, and its lines the write buffer. -/
def State.unqueueTilled (s : State) (w : MetaWrite) : State :=
  { s with mem := { s.mem with
    metaWrites := s.mem.metaWrites.filter fun x => !(x.txn.id == w.txn.id),
    wbuf := s.mem.wbuf.filter fun x => !(x.tag.isNone && x.owner == w.txn.id) } }

/-- A RADIO write to a page in a RADIO page move (R109): the move's buffer takes its lines, and nothing waits. -/
def State.joinMove (s : State) (page line : Nat) (data : List Line) : State :=
  let new := (upto line data.length).zip data
  { s with mem := { s.mem with
    moves := updWhere (fun (m : Move) => m.page == page && m.radio)
      (fun m => { m with fresh := m.fresh.filter (fun x => !new.any (·.1 == x.1)) ++ new }) s.mem.moves } }

/-- A TILLED write whose page counters are known, on a page that is not locked (R104, R108): it moves its page, or
advances its counters. -/
def State.applyTilled (s : State) (t : Txn) (row line : Nat) (data : List Line) (c : CtrLine) : State :=
  if s.movesPage row line data.length c then
    s.startMove row (line / 64) (c.under (s.row row).epoch) ((upto line data.length).zip data)
  else s.countedWrite t row line data c

/-- A TILLED write must wait for a page-move buffer (R118). -/
def State.moveWaits (s : State) (row line n : Nat) (c : CtrLine) : Bool :=
  s.movesPage row line n c && s.moveBusy (s.homeLane (line / 64)) (s.row row).radio

/-- A TILLED write takes its effect (R104, R108, R109): it joins a RADIO move of its page, waits, moves its page, or
advances its counters. -/
def State.tilledWrite (s : State) (t : Txn) (row line : Nat) (data : List Line) : State :=
  let page := line / 64
  if (s.mem.moves.any fun m => m.page == page && m.radio) && t.req.cls == 0 &&
      !(s.mem.metaWrites.any fun w => reqOverlap w.txn.req t.req) then s.joinMove page line data
  else if s.pageLocked page false || s.mem.metaWrites.any (fun w => reqPage w.txn.req == page) then
    s.queueTilled t row data
  else
    match s.counterOf page with
    | none => (s.queueTilled t row data).fetchMeta 1 (s.spanPage page)
    | some c =>
      if s.moveWaits row line data.length c then s.queueTilled t row data else s.applyTilled t row line data c

/-- The major counter under which a write to a TILLED page will stand, for the choice of its key (R158, R159): the
page's, or the epoch source's next value when the page takes a new one, or its counters are not known. -/
def State.writeMajor (s : State) (row page : Nat) : Nat :=
  match s.counterOf page with
  | some c => if (s.row row).epoch ≤ c.major ∧ !s.turnedOld row c then c.major else s.rgn.epsrc
  | none => s.rgn.epsrc

/-- The key slots the lines of a write stand under, with how many lines each (R150, R159, R187). -/
def State.slotsOf (s : State) (row line n : Nat) : List (Nat × Nat) :=
  let r := s.row row
  if r.kind = .clear then []
  else
    let major := if r.kind = .tilled then s.writeMajor row (line / 64) else 0
    let ks := (upto line n).map fun l => s.lineSlot row (r.offset l) major
    ks.eraseDups.map fun k => (k, (ks.filter (· == k)).length)

/-- Carries out an admitted write that is not held, or that the stile releases (R32, R104, R130): bits and HWM in SOWN
and FURROW regions, counters in TILLED regions, encryption, and the usage of its keys. -/
def State.performWrite (s : State) (t : Txn) (row : Nat) : State :=
  let r := s.row row
  let line := reqLine t.req
  let n := reqLines t.req
  let data := (upto 0 n).map (reqData t.req)
  let s := (data.zip (upto line n)).foldl (fun s (p : Line × Nat) => s.segFill true t row p.2 p.1) s
  let s := s.logDirty r.part (line / 64)
  let s := (s.slotsOf row line n).foldl (fun s (k : Nat × Nat) => s.takeCredit t.lane k.1 k.2) s
  let acc := t.maint.elim (some (t.acc + 1)) fun _ => none
  match r.kind with
  | .clear => s.offerWrite t.lane row line data (List.replicate n ((⟨0, 0, 0⟩ : Ctr), 0)) t.maint acc
  | .sown | .furrow =>
    let off := r.offset line
    let s := s.setRow row ({ r with rsv := r.rsv.filter fun o => decide (o < off ∨ off + n ≤ o) }.setBitsAt off n)
    s.offerWrite t.lane row line data
      ((upto off n).map fun o => ((⟨r.kind.code, r.epoch, 0⟩ : Ctr), s.lineSlot row o 0)) t.maint acc
  | .tilled => s.tilledWrite t row line data

/-! ### Reads and atomics complete -/

/-- The new value of an atomic at its address (Table 5 of the links chapter): old value v, operands a and b. -/
def atomicValue (code : Nat) (v a b : BitVec 64) : BitVec 64 :=
  match code with
  | 0 => a
  | 1 => if v = b then a else v
  | 2 => v + a
  | 3 => v &&& a
  | 4 => v ||| a
  | 5 => v ^^^ a
  | 6 => if v.slt a then a else v
  | 7 => if a.slt v then a else v
  | 8 => if v.ult a then a else v
  | _ => if a.ult v then a else v

/-- The 8 B at a byte offset of a line. -/
def lineWord (l : Line) (off : Nat) : BitVec 64 := BitVec.ofNat 64 (l.toNat / 2 ^ (8 * off))

/-- A line with the 8 B at a byte offset replaced. -/
def setLineWord (l : Line) (off : Nat) (v : BitVec 64) : Line :=
  BitVec.ofNat 512 (setBits l.toNat (8 * off) 64 v.toNat)

/-- A granted ATOMIC whose line has been read (R263): the merged line is written and the old value answered; a line
that failed both attempts answers POISON. -/
def State.finishAtomic (s : State) (t : Txn) (r : Remote) (row : Nat) (line : Option Line) : State :=
  match line with
  | none => s.remoteEffect t r .poison []
  | some l =>
    let v := lineWord l r.off
    let w := if r.op = 2 then atomicValue r.aop v (BitVec.ofNat 64 r.op1) (BitVec.ofNat 64 r.op2)
      else BitVec.ofNat 64 r.op1
    let s := s.performWrite { t with req := { t.req with data := [setLineWord l r.off w] } } row
    s.remoteEffect t r .ok (if r.op = 2 then padTo 16 (bvBytes v) else [])

/-- A read's verdict has passed: its lines are taken by armed segments (R213). -/
def Rd.fill (r : Rd) (s : State) : State :=
  r.lines.foldl (fun s l => s.segFill false r.txn r.row l.line l.data) s

/-- Presents the outcome of a settled read (R29 to R31; a read answered without an access is marked judged, and falls in
the first bin of the release counters, R438; the bin of any other is free, since the model counts no cycles): its data, or POISON with no data when a line failed both
attempts; a poisoned read is counted and recorded (R467), and poisons its step in a partition with early release (R132)
or marks it for its commit (R133). -/
def State.finishRead (s : State) (r : Rd) : State :=
  let s := { s with mem := { s.mem with reads := s.mem.reads.filter fun x => !(x.txn.id == r.txn.id) } }
  let data := r.lines.map LineRd.data
  let n := reqLines r.txn.req
  let answer := fun (s : State) (st : Status) =>
    match r.txn.remote, r.txn.req.write with
    | some m, true => s.finishAtomic r.txn m r.row (if st = .ok then data.head? else none)
    | _, _ =>
    let s := if st = .ok then
        let s := s.count (4 * r.txn.grp) n
        let s := match r.upper with | some u => s.count (4 * u.grp) (reqLines u.req) | none => s
        let s := r.fill s
        if r.judged then s.count 480 1
        else (s.freed).count (480 + (s.freeVal 5).toNat) 1
      else s
    if st = .ok then
      let s := s.queueRsp r.txn r.row st (data.take n) false
      match r.upper with
      | some u => s.queueRsp u r.row st (data.drop n) false
      | none => s
    else
      let s := s.queuePoison r.txn r.row
      match r.upper with
      | some u => s.queuePoison u r.row
      | none => s
  if r.anyBad then
    let low := ((r.lines.filter fun l => decide (l.st = .bad)).map (·.line)).foldl min (2 ^ 40)
    let step := r.txn.req.step.toNat
    let reh := s.injected r.txn.id
    let s := if reh then s.incFld F.fltRehearsal_POISON else s.incFld F.laneErr_POISON r.txn.lane
    let sev : Sev := if s.fld F.laneCtl_POISON_EVT r.txn.lane = 1 then .error else .info
    let s := s.stage ⟨.lane, r.txn.lane, .poison, sev, some r.txn.req.part.toNat, step,
      r.metaBad.getD low * 64, reh⟩
    let s : State := if r.txn.remote.isSome then s
      else if s.fld F.partCtl_EARLY r.txn.req.part.toNat = 1 then s.poisonStep step low
      else s.markPoisoned step
    answer (s.endInjection r.txn.id) .poison
  else answer (s.endInjection r.txn.id) .ok

/-- The first-attempt plaintext of a line of an early-released read, once it is at hand (R125): a re-read's data is
never presented. -/
def State.firstPlain (s : State) (l : LineRd) : Option Line :=
  match l.first with
  | some p => some p
  | none =>
    match l.st with
    | .known p => some p
    | .got c _ _ => if l.ctr.isSome then some (s.plainOf l c) else none
    | .bad => some 0
    | _ => none

/-- Presents early-released data (R29, R53): provisional, before its verdict. -/
def State.presentEarly (s : State) (r : Rd) : State :=
  s.queueRsp r.txn r.row .ok (r.lines.map fun l => (s.firstPlain l).getD 0) true

/-- Replaces a read in flight. -/
def State.setRead (s : State) (r : Rd) : State :=
  { s with mem := { s.mem with reads := updWhere (·.txn.id == r.txn.id) (fun _ => r) s.mem.reads } }

/-- The first-attempt plaintext of every line is available. -/
def State.plainReady (s : State) (r : Rd) : Bool := r.lines.all fun l => (s.firstPlain l).isSome

/-- Early release applies to a read (R29, R125): its partition's setting, not radio, not RADIO class, not remote, not
spanning, and some line is checked. -/
def State.earlyFor (s : State) (t : Txn) (upper : Option Txn) (lines : List LineRd) : Bool :=
  let p := t.req.part.toNat
  s.fld F.partCtl_EARLY p == 1 && !(s.plotOf p).radio && t.req.cls != 0 && t.remote.isNone
    && upper.isNone && lines.any fun l => decide (l.st = .wait) && !l.clear

/-- Takes a read at its grant (R26, R110): a read whose lines are all known is answered at once; otherwise its data
accesses go out together with the metadata reads its counters need (R123). -/
def State.takeRead (s : State) (t : Txn) (upper : Option Txn) : State :=
  let row := s.rowOf t
  let ls := (upto (reqLine t.req) (reqLines t.req)) ++
    (match upper with | some u => upto (reqLine u.req) (reqLines u.req) | none => [])
  let s := ls.foldl (fun s l => match s.forward l with
    | some (_, some st) =>
      let me := t.req.step.toNat
      if st = me ∨ t.remote.isSome ∨ 4096 ≤ st then s
      else
        let e := s.stepEnt me
        s.setStepEnt me { e with boundTo := nsInsert e.boundTo st }
    | _ => s) s
  let lines := ls.map (s.lineRead row)
  let rd : Rd := { txn := t, upper := upper, row := row, lines := lines, early := s.earlyFor t upper lines }
  if rd.settled then s.finishRead { rd with judged := true }
  else
    let s := { s with mem := { s.mem with reads := s.mem.reads ++ [rd] } }
    let s := (s.runs rd.need).foldl (fun s (p : Nat × Nat) =>
      let g := s.groupOf (p.1 * 64)
      s.offer g ((s.laneOf g).getD t.lane) (.read t.id) p.1 p.2 [] false) s
    if rd.lines.any (fun l => l.ctr.isNone && decide (l.st = .wait)) then
      s.fetchMeta 1 (s.spanPage (reqPage t.req))
    else s

/-- An earlier held write has a line in common with a request (R33, R128). -/
def State.heldLine (s : State) (r : MemReq) : Bool :=
  s.mem.held.any fun h => match h.what with
    | .mem u _ => reqOverlap u.req r
    | _ => false

/-- The provisional reads of a step that have been presented and have no verdict (R127). -/
def State.openReads (s : State) (step : Nat) : List Nat := (s.stepEnt step).pend

/-- What the grant of a write decides about its hold (R127, R128, Table 5): it waits for the open provisional reads of
its step, or behind an earlier held write of one of its lines; none when it passes unheld. RADIO requests are never
held, and a peer's request waits for its grant instead. -/
def State.gateOf (s : State) (t : Txn) : Option (List Nat) :=
  let reads := s.openReads t.req.step.toNat
  if t.req.write && t.req.cls != 0 && t.remote.isNone && (!reads.isEmpty || s.heldLine t.req) then some reads else none

/-- The number that stands for no step in the hold (an engine's write that carries none). -/
def noStep : Nat := 4096

/-- Puts an egress into the hold of the stile, behind the given provisional reads. -/
def State.hold (s : State) (step part : Nat) (deps : List Nat) (what : Egress) : State :=
  let e := s.stepEnt step
  let point := match what with | .mem t _ => t.lane | .fab i _ => 0x100 + i | _ => 0x200
  let s := s.count 456 1
  let s := if step = noStep then s
    else (if e.heldEver then s else s.trace 2 4 (Src.stile.at 0) (some part) step point 0).setStepEnt step
      { e with heldEver := true }
  let epoch := match what with | .mem _ row => (s.row row).epoch | _ => 0
  let h : Held := { id := s.mem.nextId, step := step, part := part, deps := deps, what := what, epoch := epoch }
  let s := { s with mem := { s.mem with held := s.mem.held ++ [h], nextId := s.mem.nextId + 1 } }
  match what with
  | .mem t _ => s.holdLevel t.lane part
  | _ => s

/-- A held write reserves the window offsets it writes (R130). -/
def State.reserve (s : State) (t : Txn) (row : Nat) : State :=
  let r := s.row row
  match r.kind with
  | .sown | .furrow => s.setRow row { r with rsv := r.rsv ++ upto (r.offset (reqLine t.req)) (reqLines t.req) }
  | _ => s

/-- An admitted write (R32, R127): discarded when its step is poisoned (R132), held as its grant decided with its window
offsets reserved, or carried out. -/
def State.takeWrite (s : State) (t : Txn) : State :=
  let row := s.rowOf t
  let step := t.req.step.toNat
  let e := s.stepEnt step
  if e.discard && t.remote.isNone then s.completeWrite t .ok true
  else
    match t.gate with
    | some deps =>
      ((s.reserve t row).hold step t.req.part.toNat (deps.filter e.pend.contains) (.mem t row)).completeWrite t .ok true
    | none =>
      match t.remote with
      | some m => if m.op = 2 ∨ m.op = 3 then s.takeRead t none else (s.completeWrite t .ok false).performWrite t row
      | none => (s.completeWrite t .ok false).performWrite t row

end Sys2Proof.Machine
end

