-- ==== Sys2Proof/Machine/KeyOps.lean ====
section
/-! DEFINITION. The operations of the key manager: derivation (R170), the ledger (R183 to R185), references (R190),
charges and successors (R187, R188), pins (R181), and the harrow jobs it starts (R146, R149, R158). -/

namespace Sys2Proof.Machine

/-! ### Derivation -/

/-- The derivation engine (R170): KMAC256 of a base over label, measurement, epoch input and context. -/
def derive (base : BitVec 256) (label : String) (m : Digest) (e c : Bytes) : Key :=
  Config.kmac256 (bvBytes base) (padTo 8 (ascii label) ++ bvBytes m ++ padTo 40 e ++ padTo 32 c) 256 (ascii "LZKDF1")

/-- The memory key epoch as an epoch input: count ‖ salt (Table 2). -/
def State.memEpoch (s : State) : Bytes := leBytes 8 s.keys.epochCount ++ bvBytes s.keys.epochSalt

/-- The key that a slot of a kind receives at its derivation (Table 2): memory, capability, service and cell keys. -/
def State.slotKey (s : State) (slot : Nat) (kind : KeyKind) (cell : Nat) (m : Digest) : Key :=
  let c := leBytes 2 slot ++ leBytes 8 s.keys.serial
  match kind with
  | .capability => derive s.keys.root "LZCAP" 0 s.memEpoch c
  | .service => derive s.keys.root "LZSVC" m s.memEpoch c
  | .cell => derive s.keys.root "LZCELL" m (leBytes 8 (s.fld F.pairEpoch_EPOCH)) (c ++ leBytes 4 cell)
  | _ => derive s.keys.root "LZMEM" m s.memEpoch c

/-- The metadata key of a generation (Table 2). -/
def State.metaKeyOf (s : State) (m : Digest) (gen : Nat) : Key :=
  derive s.keys.root "LZMETA" m s.memEpoch (leBytes 8 gen)

/-- The ledger key of a generation (Table 2). -/
def State.ledgerKeyOf (s : State) (m : Digest) (gen : Nat) : Key :=
  derive s.keys.root "LZLEDG" m s.memEpoch (leBytes 4 gen)

/-- The sealing key of a partition and caller context (Table 2). -/
def State.sealingKey (s : State) (p : Nat) (ctx : Bytes) : Key :=
  derive s.keys.root "LZSEAL" s.keys.meas [] (leBytes 1 p ++ padTo 31 ctx)

/-- Derivation is available (R169, R167). -/
def State.canDerive (s : State) : Bool :=
  s.keys.rootOk && decide (s.life.lc = .test ∨ s.life.lc = .production)

/-! ### The ledger -/

/-- Key kind codes (Table 4 of the keys chapter). -/
def KeyKind.code : KeyKind → Nat
  | .empty => 0 | .memory => 1 | .cell => 2 | .capability => 3 | .flow => 4 | .host => 5 | .service => 6

/-- Origin codes (Table 5 of the keys chapter). -/
def KeyOrigin.code : KeyOrigin → Nat
  | .derived => 0 | .imported => 1 | .agreed => 2 | .mirror => 3

/-- The 64 bytes of a memory ledger entry (R184, Table 5) under a ledger key, generation and VERSION. -/
def ledgerEntry (lk : Key) (gen slot version : Nat) (k : Slot) : Bytes :=
  let attrs := leBytes 2 slot ++
    leBytes 1 (k.kind.code + k.origin.code * 8 + (if k.noexport then 32 else 0)) ++
    leBytes 1 (if k.kind = .service then k.exp else 0) ++ leBytes 2 k.succ ++ leBytes 7 k.usage ++
    leBytes 4 version ++ leBytes 3 k.dref
  let iv := leBytes 4 gen ++ leBytes 2 slot ++ leBytes 4 version ++ [0, 0]
  let (ct, tag) := gcmSeal lk iv (attrs.take 20) (bvBytes k.key)
  ct ++ attrs ++ (bvBytes tag).take 12

/-- Starts a ledger rewrap (R185): the key of the next generation is derived, and every entry of non-zero VERSION will
be written into the inactive copy with VERSION 1. -/
def State.startRewrap (s : State) : State :=
  if s.keys.rewrap then s
  else
    let m := s.keys.measNext.getD s.keys.meas
    let s := s.count 450 1
    { s with keys := { s.keys with rewrap := true, newVersions := [],
                                   ledgerKeyNext := s.ledgerKeyOf m (s.keys.ledgerGen + 1) } }

/-- Writes a slot's entry to the active copy, its VERSION advanced by one (R183, R185); during a rewrap to both
copies, and once the active copy's VERSION is at its end, to the new copy only (Table 7). A VERSION that would pass
0xFFFF_FFFF starts a rewrap instead. -/
def State.writeLedger (s : State) (slot : Nat) : State :=
  let v := tget 0 s.keys.versions slot
  let s := if v = 0xFFFFFFFF then s.startRewrap else s
  let k := s.slot slot
  let s := if v < 0xFFFFFFFF then
      let s := { s with keys := { s.keys with versions := tset 0 s.keys.versions slot (v + 1) } }
      s.emit (.ledger s.keys.copyB slot (ledgerEntry s.keys.ledgerKey s.keys.ledgerGen slot (v + 1) k))
    else s
  if s.keys.rewrap then
    let n := tget 0 s.keys.newVersions slot + 1
    let s := { s with keys := { s.keys with newVersions := tset 0 s.keys.newVersions slot n } }
    s.emit (.ledger (!s.keys.copyB) slot (ledgerEntry s.keys.ledgerKeyNext (s.keys.ledgerGen + 1) slot n k))
  else s

/-- Changes a slot and writes its entry before the change takes effect elsewhere (R183). -/
def State.putSlot (s : State) (slot : Nat) (k : Slot) : State := (s.setSlot slot k).writeLedger slot

/-! ### References -/

/-- The block references of a slot (R190): regions that name it, harrow jobs whose old or new key it is, flows and
service commands that use it, and slots whose SUCC names it. `uses` counts the flows and commands. -/
def State.blockRefs (s : State) (slot : Nat) : Nat :=
  (s.rgn.rows.map fun e =>
    if e.2.state = .free then 0
    else (if e.2.kidx = slot then 1 else 0) + (if e.2.harrow ∧ e.2.kidxNext = slot then 1 else 0)
      + (if e.2.capidx = slot then 1 else 0)).sum
  + (s.harrow.jobs.map fun e =>
      if e.2.st = .free then 0 else (if e.2.old = slot then 1 else 0) + (if e.2.new = slot then 1 else 0)).sum
  + (s.keys.slots.map fun e => if e.2.succ = slot then 1 else 0).sum
  + s.flowRefs slot + s.cmdRefs slot

/-- REFCOUNT of a slot (R190). -/
def State.refCount (s : State) (slot : Nat) : Nat := (s.slot slot).dref + s.blockRefs slot

/-- A slot that holds a key and is not being torn down (R191). -/
def State.slotLive (s : State) (slot : Nat) : Bool :=
  decide ((s.slot slot).kind ≠ .empty) && decide (0 < s.refCount slot)

/-- The lowest EMPTY slot of [lo, hi], reading the table in order. -/
def lowestEmpty (hi : Nat) : Nat → Tbl Slot → Option Nat
  | cur, [] => if cur ≤ hi then some cur else none
  | cur, (k, v) :: t =>
    if k < cur then lowestEmpty hi cur t
    else if k = cur ∧ v.kind ≠ .empty then lowestEmpty hi (cur + 1) t
    else if cur ≤ hi then some cur else none

/-- The slot range that suits a kind (Table 3 of the keys chapter). -/
def KeyKind.range : KeyKind → Nat × Nat
  | .cell => (0xFC00, 0xFFFF)
  | _ => (0x0001, 0xFBFF)

/-- The lowest EMPTY slot of a kind's range. -/
def State.freeSlot (s : State) (kind : KeyKind) : Option Nat := lowestEmpty kind.range.2 kind.range.1 s.keys.slots

/-- Derives a key into an EMPTY slot (R170, R173, R197) under a measurement, with driver references. -/
def State.deriveSlot (s : State) (slot : Nat) (kind : KeyKind) (cell exp : Nat) (m : Digest) (dref : Nat) : State :=
  let k : Slot := { kind := kind, origin := .derived, noexport := true, exp := exp, dref := dref,
                    key := s.slotKey slot kind cell m, cell := cell,
                    meas := if kind = .capability then 0 else m }
  let s := s.count 450 1
  let s := { s with keys := { s.keys with serial := s.keys.serial + 1 } }
  s.putSlot slot k

/-! ### Pins -/

/-- A CELL slot is pinned (R181): a radio region in a state other than CLOSING, or a radio flow, names it. -/
def State.cellPinned (s : State) (slot : Nat) : Bool :=
  (s.rgn.rows.any fun e => e.2.radio && decide (e.2.state ≠ .free ∧ e.2.state ≠ .closing) &&
    (e.2.kidx == slot || (e.2.harrow && e.2.kidxNext == slot))) || s.radioFlowNames slot

/-- A slot's row is to be pinned (R181): a CELL slot that a radio region or flow names, a FLOW slot of a flow that is UP, or
the old or new key of a RUNNING job. -/
def State.wantsPin (s : State) (slot : Nat) : Bool :=
  s.cellPinned slot ||
  s.links.tx.any (fun f => f.slot == slot && !f.down) || s.links.rx.any (fun f => f.slot == slot && !f.down) ||
  s.harrow.jobs.any fun e => decide (e.2.st = .running) && (e.2.todo ++ e.2.passed).any fun i =>
    (s.row i).kidx == slot || (s.row i).kidxNext == slot

/-- The slots other than CELL slots whose pin has been taken and is wanted. -/
def State.rowPins (s : State) : List Nat :=
  s.keys.pins.filter fun n => decide ((s.slot n).kind ≠ .cell) && s.wantsPin n

/-- A slot's row is pinned (R181); a CELL slot's always is when it is wanted. -/
def State.pinned (s : State) (slot : Nat) : Bool := s.cellPinned slot || s.rowPins.contains slot

/-- A slot is looked up: a miss fills a row (R180); with 4,096 rows in use a row that may be replaced is chosen, which
one is not defined. DESIGN CHOICE (log 68): when no row may be replaced, a case for which the manual names no outcome,
none is, and the lookup is served from a row beyond the 4,096. -/
def State.touchKey (s : State) (slot : Nat) (src : Nat := Src.key.at 0) : State :=
  if s.keys.cached.contains slot then s
  else
    let s := (s.count 448 1).trace 1 2 src none slot src 0
    let s := if s.keys.cached.length < 4096 then s
      else
        let cands := s.keys.cached.filter fun k =>
          !s.pinned k && !(s.keys.credits.any fun e => e.1 / 64 == k)
        let i := (s.freeVal 16).toNat
        let s := s.freed
        { s with keys := { s.keys with cached := s.keys.cached.filter (· != cands.getD (i % cands.length) 0) } }
    { s with keys := { s.keys with cached := nsInsert s.keys.cached slot } }

/-- Releases the pins that are wanted no longer (R181). -/
def State.unpin (s : State) : State := { s with keys := { s.keys with pins := s.keys.pins.filter s.wantsPin } }

/-- Pins a slot other than a CELL slot; a pin beyond 2,048 rows is not taken and is counted (R181). -/
def State.pin (s : State) (slot : Nat) : State :=
  let s := s.unpin
  if slot = 0 ∨ (s.slot slot).kind = .cell ∨ s.keys.pins.contains slot then s
  else if s.rowPins.length < 2048 then
    (({ s with keys := { s.keys with pins := s.keys.pins ++ [slot] } }).touchKey slot)
  else s.incFld F.keyGlobal_PIN_DENIED

/-! ### Harrow jobs -/

/-- The rows of a table whose region satisfies a test, ascending. -/
def State.rowsWhere (s : State) (p : Region → Bool) : List Nat := (s.rgn.rows.filter fun e => p e.2).map (·.1)

/-- A region may be part of a job (R147): not CLEAR, not FREE, not CLOSING. -/
def Region.harrowable (r : Region) : Bool :=
  decide (r.kind ≠ .clear ∧ r.state ≠ .free ∧ r.state ≠ .closing)

/-- A region belongs to a job. -/
def State.inJob (s : State) (row : Nat) : Bool := (s.jobOf row).isSome

/-- The turnover time of a job the key manager starts (R158): the first slot boundary at least 100 µs away; the next
TICK when BASE is zero. -/
def State.autoTurn (s : State) : Nat :=
  let base := s.fld F.hrwTurnbase_BASE
  let step := s.fld F.pairCtl_SLOT_US * 1000
  let now := s.life.time + 100000
  if base = 0 then 0
  else if now ≤ base ∨ step = 0 then base
  else base + ceilDiv (now - base) step * step

/-- Fills a FREE job record (R148): its regions, keys, turnover time and place in the order of STARTs. -/
def State.fillJob (s : State) (j : Nat) (scope : Scope) (auto : Bool) (old new turnAt : Nat) (rows : List Nat) : State :=
  let s := s.setJob j { st := .queued, scope := scope, auto := auto, radio := rows.any fun i => (s.row i).radio,
                        old := old, new := new, todo := rows, order := s.harrow.starts, turnAt := turnAt }
  { s with harrow := { s.harrow with starts := s.harrow.starts + 1 } }

/-- The lowest FREE job record. -/
def State.freeJob (s : State) : Option Nat := (upto 0 16).find? fun j => decide ((s.job j).st = .free)

/-- The automatic start for a key whose successor is set (R146): a KEY job over its regions that are in no job; with
no record FREE the start waits. -/
def State.autoStart (s : State) (slot : Nat) : State :=
  let rows := s.rowsWhere fun r => r.harrowable && r.kidx == slot
  let rows := rows.filter fun i => !s.inJob i
  let done := fun (s : State) => { s with keys := { s.keys with autoWait := s.keys.autoWait.filter (· != slot) } }
  if rows.isEmpty then done s
  else
    match s.freeJob with
    | some j => done (s.fillJob j .key true slot (s.slot slot).succ s.autoTurn rows)
    | none => { s with keys := { s.keys with autoWait := nsInsert s.keys.autoWait slot } }

/-- Obtains a successor for a MEMORY or CELL slot (R188): SUCC when set, otherwise the lowest EMPTY slot of the range,
derived under the next measurement when an update is in progress; with none EMPTY the slot waits, and one NO_SUCCESSOR
record is written when the wait begins. -/
def State.obtainSucc (s : State) (slot : Nat) : State :=
  let k := s.slot slot
  if k.succ ≠ 0 then { s with keys := { s.keys with noSucc := s.keys.noSucc.filter (· != slot) } }
  else
    match s.freeSlot k.kind with
    | none =>
      if s.keys.noSucc.contains slot then s
      else
        let s := { s with keys := { s.keys with noSucc := nsInsert s.keys.noSucc slot } }
        s.record .noSuccessor .key 0 none slot 0
    | some n =>
      let s := s.deriveSlot n k.kind k.cell 0 (s.keys.measNext.getD s.keys.meas) 0
      let s := s.putSlot slot { k with succ := n }
      { s with keys := { s.keys with noSucc := s.keys.noSucc.filter (· != slot) } }

/-- The trigger at 75 % of a slot's limit (R188): a successor and a harrow job for MEMORY and CELL keys, a CAP_75
record for CAPABILITY keys. -/
def State.trigger75 (s : State) (slot : Nat) : State :=
  match (s.slot slot).kind with
  | .memory | .cell =>
    let s := s.obtainSucc slot
    if (s.slot slot).succ ≠ 0 then s.autoStart slot else s
  | .capability => s.record .cap75 .key 0 none slot (s.slot slot).usage
  | _ => s

/-- Charges usage to a slot, never above its limit, and fires the trigger when it brings USAGE to 3/4 of the limit
(R187, R188). -/
def State.chargeSlot (s : State) (slot n : Nat) : State :=
  let k := s.slot slot
  let u := min (k.usage + n) k.limit
  let s := s.putSlot slot { k with usage := u }
  if 4 * k.usage < 3 * k.limit ∧ 3 * k.limit ≤ 4 * u then s.trigger75 slot else s

/-- Grants or refuses a lane a credit (R187): 2^20 line-writes, or the remainder below the limit. -/
def State.grantCredit (s : State) (lane slot : Nat) : State :=
  let k := s.slot slot
  let n := min (2 ^ 20) (k.limit - k.usage)
  if k.kind = .empty ∨ n = 0 then s
  else
    let s := (s.chargeSlot slot n).count 449 1
    (s.setCredit lane slot (s.credit lane slot + n)).touchKey slot

/-- Line-writes of MAINT work under a key (R145): taken from the lane's credit, which is asked for and granted first
when it does not cover them, and asked for again below 1,024 (R187). -/
def State.maintWrites (s : State) (lane slot n : Nat) : State :=
  (if s.credit lane slot < max n 1024 then s.grantCredit lane slot else s).takeCredit lane slot n

/-- A write that takes effect after its check, at its release or when its page opens, has the credit for its lines
(R130, R187): a key that the headland has put in force meanwhile is granted first. -/
def State.topUp (s : State) (t : Txn) (row : Nat) : State :=
  (s.slotsOf row (reqLine t.req) (reqLines t.req)).foldl (fun s k =>
    if s.credit t.lane k.1 < k.2 then s.grantCredit t.lane k.1 else s) s

/-- A cell key comes into use by a radio region or flow: when that pins it, every serving lane gets a credit for it at once
(R187). -/
def State.pinCell (s : State) (slot : Nat) : State :=
  if s.keys.pins.contains slot then s
  else
    let s := ({ s with keys := { s.keys with pins := s.keys.pins ++ [slot] } }).touchKey slot
    (upto 0 44).foldl (fun s n => if (s.lane n).group.isSome then s.grantCredit n slot else s) s

/-- The automatic META job of R189 takes the lowest FREE record, or waits for one (R146). -/
def State.autoMeta (s : State) : State :=
  match s.freeJob with
  | some j => { s.fillJob j .metadata true 0 0 0 [] with keys := { s.keys with metaWait := false } }
  | none => { s with keys := { s.keys with metaWait := true } }

/-- One line-write of the metadata key (R189); at 3 × 2^46 the next metadata key is derived and a META job starts. -/
def State.chargeMeta (s : State) : State :=
  let u := s.keys.metaUsage + 1
  let s := { s with keys := { s.keys with metaUsage := u } }
  if u = 3 * 2 ^ 46 then
    let m := s.keys.measNext.getD s.keys.meas
    let s := s.count 450 1
    ({ s with keys := { s.keys with metaKeyNext := some (s.metaKeyOf m (s.keys.metaGen + 1)) } }).autoMeta
  else s

end Sys2Proof.Machine
end

