-- ==== Sys2Proof/Machine/LinkOps.lean ====
section
/-! DEFINITION. The operations of the links and the fabric: flow keys (R279, R285), generations (R254, R255), messages
and frames (R257, R261), requests placed on flows (R263, R265) and their answers (R266). -/

namespace Sys2Proof.Machine

/-! ### Keys and identifiers -/

/-- A flow identifier (Table 1 of the links chapter). -/
def flowId (src lane fgen : Nat) : Nat := src % 65536 + lane % 4 * 65536 + fgen % 16384 * 2 ^ 18

/-- The key of a DATA or CONTROL flow under epoch 0 (R279). -/
def flowKey0 (dom : BitVec 128) (flow dest : Nat) : Key :=
  derive (BitVec.ofNat 256 dom.toNat) "LZADMK" 0 [] (leBytes 4 flow ++ leBytes 2 dest)

/-- The key of a DATA or CONTROL flow under a domain epoch (R285). -/
def flowKeyE (dom : BitVec 128) (e : EpochKey) (flow dest : Nat) : Key :=
  derive e.key "LZFLOW" 0 (leBytes 8 e.epoch ++ bvBytes dom) (leBytes 4 flow ++ leBytes 2 dest)

/-- The index of a generation table entry (R254, R279): lane and peer, in the table of the domain epoch (by its bit 0)
or of epoch 0; RADIO flows are keyed outside the domain epochs and have one table. -/
def genIdx (epoch0 : Bool) (epoch lane peer : Nat) : Nat :=
  (if lane = 0 then 0 else if epoch0 then 2 ^ 21 else epoch % 2 * 2 ^ 20) + lane * 65536 + peer

/-- The number of the current domain epoch; 0 without one. -/
def State.epochNo (s : State) : Nat := match s.dom.cur with | some e => e.epoch | none => 0

/-- The key of a transmitting flow. -/
def State.txKey (s : State) (f : TxFlow) : Key :=
  if f.epoch0 then flowKey0 s.domPlot.domId (flowId s.unit f.lane f.fgen) f.dest else (s.slot f.slot).key

/-- The key of a receiving flow. -/
def State.rxKey (s : State) (f : RxFlow) : Key :=
  if f.epoch0 then flowKey0 s.domPlot.domId (flowId f.src f.lane f.fgen) s.unit else (s.slot f.slot).key

/-! ### Ports -/

/-- A port's link is up and not dropped by an injection (R271, R424). -/
def State.portUp (s : State) (n : Nat) : Bool :=
  match (s.port n).att with
  | some a => s.links.up.contains a && !s.faults.linkDrop.contains n
  | none => false

/-- The partner's unit number, with pairing enabled. -/
def State.partnerUnit (s : State) : Option Nat := s.pairPlot.map (·.partner)

/-- The port a new flow is bound to (R271): the lowest-numbered FABRIC port that is UP and whose set holds the
destination; a PAIR port for RADIO flows and for the CONTROL flow to the partner. -/
def State.portFor (s : State) (lane dest : Nat) : Option Nat :=
  (upto 0 40).find? fun n =>
    let p := s.port n
    s.portUp n &&
    (if lane = 0 ∨ (lane = 2 ∧ s.partnerUnit = some dest) then decide (p.role = .pair)
     else decide (p.role = .fabric) && p.ranges.any fun r => decide (r.1 ≤ dest ∧ dest ≤ r.2))

/-! ### Flows -/

/-- Empties a FLOW slot whose flow has ended (R190, R191). -/
def State.dropFlowSlot (s : State) (slot : Nat) : State :=
  if (s.slot slot).kind = .flow ∧ s.flowRefs slot = 0 then s.putSlot slot {} else s

/-- Counts a use of the flow tables, which orders flows for release (R256). -/
def State.useFlow (s : State) : State := s.withLinks { s.links with uses := s.links.uses + 1 }

/-- A transmitting flow may be released (R256): no outstanding request and no unreturned credit. -/
def State.txIdle (s : State) (f : TxFlow) : Bool :=
  f.waiting.isEmpty && (f.lane == 0 || f.due == 0) &&
  !s.links.outs.any fun o => o.entered && o.req.dest.toNat == f.dest && o.lane == f.lane

/-- A receiving flow may be released (R256): no request of it is outstanding, no response to one of this block's is
awaited on it, and it owes no credit. -/
def State.rxIdle (s : State) (f : RxFlow) : Bool :=
  f.owed == 0 && !(s.links.reqs.any fun q => q.src == f.src && q.lane == f.lane) &&
  !s.links.outs.any fun o => o.entered && o.req.dest.toNat == f.src && o.lane == f.lane

/-- Removes a transmitting flow and empties its slot. -/
def State.dropTx (s : State) (f : TxFlow) : State :=
  (s.withLinks { s.links with tx := s.links.tx.filter fun x => !f.same x }).dropFlowSlot f.slot

/-- Removes a receiving flow and empties its slot. -/
def State.dropRx (s : State) (f : RxFlow) : State :=
  (s.withLinks { s.links with rx := s.links.rx.filter fun x => !f.same x }).dropFlowSlot f.slot

/-- Makes room in the transmit table: with 8,192 flows the least recently used idle one is released (R256). -/
def State.roomTx (s : State) : State :=
  if s.links.tx.length < 8192 then s
  else
    let idle := s.links.tx.filter s.txIdle
    match idle.foldl (fun (b : Option TxFlow) f => match b with
      | none => some f
      | some g => if f.used < g.used then some f else some g) none with
    | some f => (s.trace 3 2 (Src.port.at f.port) none f.dest (flowId s.unit f.lane f.fgen) 0).dropTx f
    | none => s

/-- A FLOW slot with a key of a flow under an epoch (R285), if a slot is free. -/
def State.flowSlot (s : State) (key : Key) : Option (Nat × State) :=
  match s.freeSlot .flow with
  | none => none
  | some k => some (k, s.putSlot k { kind := .flow, origin := .agreed, noexport := true, key := key })

/-- Sets up a transmitting flow to a destination under the next generation (R254, R271): none when no port, no
generation, no table entry, no key or no slot is at hand. `carry` are the messages it starts with. -/
def State.openTx (s : State) (lane dest : Nat) (epoch0 : Bool) (carry : List Msg) : Option State :=
  let idx := genIdx epoch0 s.epochNo lane dest
  let fgen := tget 0 s.links.txGen idx + 1
  match s.portFor lane dest with
  | none => none
  | some port =>
    if 16383 < fgen then none
    else
      let s := s.roomTx
      if 8192 ≤ s.links.tx.length then none
      else
        let add := fun (s : State) (slot epoch : Nat) =>
          let f : TxFlow := { dest := dest, lane := lane, epoch0 := epoch0, fgen := fgen, slot := slot, epoch := epoch,
                              port := port, waiting := carry, used := s.links.uses }
          let s := if lane = 0 then s else s.count 450 1
          let s := s.trace 3 1 (Src.port.at port) none dest (flowId s.unit lane fgen) 0
          (s.withLinks { s.links with tx := s.links.tx ++ [f], txGen := tset 0 s.links.txGen idx fgen }).useFlow
        if lane = 0 then
          if (s.slot s.pair.radioSlot).kind = .cell then some (add (s.pinCell s.pair.radioSlot) s.pair.radioSlot 0)
          else none
        else if epoch0 then some (add s 0 0)
        else
          match s.dom.cur with
          | none => none
          | some e =>
            match s.flowSlot (flowKeyE s.domPlot.domId e (flowId s.unit lane fgen) dest) with
            | none => none
            | some (k, s) => some ((add s k e.epoch).pin k)

/-- The transmitting flow in use to a destination in a lane. -/
def State.txFlow (s : State) (lane dest : Nat) (epoch0 : Bool) : Option TxFlow :=
  s.links.tx.find? fun f => f.lane == lane && f.dest == dest && f.epoch0 == epoch0 && !f.down

/-- Replaces a transmitting flow. -/
def State.setTx (s : State) (f : TxFlow) : State :=
  s.withLinks { s.links with tx := updWhere f.same (fun _ => f) s.links.tx }

/-- Replaces a receiving flow. -/
def State.setRx (s : State) (f : RxFlow) : State :=
  s.withLinks { s.links with rx := updWhere f.same (fun _ => f) s.links.rx }

/-- Keeps what a CONTROL generation sealed once its flow has moved on, in place of the one before it, for a BREAK that
names it (R260). -/
def State.keepPast (s : State) (f : TxFlow) : State :=
  if f.lane ≠ 2 then s
  else
    let others := s.links.past.filter fun x => !(x.dest == f.dest && x.epoch0 == f.epoch0)
    s.withLinks { s.links with past := others ++ [{ f with waiting := [] }] }

/-- A flow to a destination, set up when there is none: a flow that is DOWN is replaced by its next generation, which
takes over what had entered it and was not sealed (R271). -/
def State.needTx (s : State) (lane dest : Nat) (epoch0 : Bool) : Option (TxFlow × State) :=
  match s.txFlow lane dest epoch0 with
  | some f => some (f, s)
  | none =>
    let old := s.links.tx.filter fun f => f.lane == lane && f.dest == dest && f.epoch0 == epoch0
    match s.openTx lane dest epoch0 (old.map (·.waiting)).flatten with
    | none => none
    | some s =>
      let s := old.foldl (fun s f => (s.dropTx f).keepPast f) s
      (s.txFlow lane dest epoch0).map fun f => (f, s)

/-- Moves a flow to its next generation (R255), with fresh credit, starting with the given messages; a flow at FGEN
16,383 cannot move. -/
def State.moveTx (s : State) (f : TxFlow) (waiting : List Msg) : Option State :=
  (s.openTx f.lane f.dest f.epoch0 waiting).map fun s => (s.dropTx f).keepPast f

/-- The epoch-0 generations of a source are forgotten (R279): its exchange has completed or failed. -/
def State.forgetEpoch0 (s : State) (src : Nat) : State :=
  s.withLinks { s.links with rx := s.links.rx.filter fun f => !(f.epoch0 && f.src == src) }

/-- A message enters the flow of its lane and destination (R267). -/
def State.enterMsg (s : State) (lane dest : Nat) (epoch0 : Bool) (m : Msg) : Option State :=
  (s.needTx lane dest epoch0).map fun (f, s) => s.setTx { f with waiting := f.waiting ++ [m] }

/-- Cuts a record into messages of at most 4,064 data bytes that give their offsets (R261). -/
def cutRecord (m : Msg) (off : Nat) : (fuel : Nat) → Bytes → List Msg
  | 0, _ => []
  | fuel + 1, b =>
    if b.length ≤ 4064 then [{ m with addr := off, data := b, last := true }]
    else { m with addr := off, data := b.take 4064, last := false } :: cutRecord m (off + 4064) fuel (b.drop 4064)

/-- The block's own message to another block on the CONTROL flow (R252), cut when long; without a route it is lost, and while
a warm reset settles only PAIR messages go (R290). -/
def State.sendCtl (s : State) (dest : Nat) (epoch0 : Bool) (m : Msg) : State :=
  if s.life.settling ∧ m.mtype ≠ 9 then s else
  (cutRecord m 0 (m.data.length / 4064 + 1) m.data).foldl (fun s x => (s.enterMsg 2 dest epoch0 x).getD s) s

/-- A DOMAIN message (R278): the prefix with its DTYPE and exchange, and the body. `epoch0` tells under which key it
travels. The item `msg` names what the agent hands to the flow. -/
def State.sendDom (s : State) (name : String) (dtype dest exch : Nat) (epoch0 : Bool) (body : Bytes) : State :=
  let epoch := if epoch0 then 0 else s.epochNo
  let data := leBytes 1 dtype ++ [1, 0, 0] ++ leBytes 4 exch ++ leBytes 8 epoch ++ body
  (s.emit (.msg name dest body)).sendCtl dest epoch0 { mtype := 8, gen := s.life.genCur, data := data }

/-! ### Messages as bytes (R261, Table 3) -/

/-- A message's header and data, padded with zeros to a multiple of 16 B. -/
def Msg.bytes (m : Msg) : Bytes :=
  let h := leBytes 1 m.mtype ++ leBytes 1 m.op ++ leBytes 1 m.flags ++ leBytes 1 m.part ++ leBytes 2 m.tag ++
    leBytes 1 m.cls ++ leBytes 1 m.gen ++ leBytes 8 m.addr ++ leBytes 2 m.capidx ++ leBytes 2 m.actr ++
    leBytes 2 m.data.length ++ leBytes 1 m.rights ++ leBytes 1 (if m.last then 1 else 0) ++ leBytes 8 m.word
  padTo (msgSize m.data.length) (h ++ m.data)

/-- The first message of a payload and what follows it; none when it runs past the payload, its MTYPE is reserved, or a
reserved field or padding byte is not zero (R261). -/
def Msg.parse (b : Bytes) : Option (Msg × Bytes) :=
  let n := le b 20 2
  let size := msgSize n
  let m : Msg := { mtype := le b 0 1, op := le b 1 1, flags := le b 2 1, part := le b 3 1, tag := le b 4 2,
                   cls := le b 6 1, gen := le b 7 1, addr := le b 8 8, capidx := le b 16 2, actr := le b 18 2,
                   rights := le b 22 1, last := decide (le b 23 1 = 1), word := le b 24 8, data := sub b 32 n }
  if b.length < size ∨ 4064 < n ∨ m.mtype = 0 ∨ 9 < m.mtype ∨ 32 ≤ m.flags ∨ 2 ^ 40 ≤ m.addr ∨ 4096 ≤ m.actr
      ∨ 4 ≤ m.rights ∨ 1 < le b 23 1 ∨ zeroAt b (32 + n) (size - 32 - n) = false then none
  else some (m, b.drop size)

/-- The messages of a payload, and whether one was dropped with all that follow it (R261). -/
def parseMsgs : (fuel : Nat) → Bytes → List Msg × Bool
  | 0, _ => ([], false)
  | fuel + 1, b =>
    if b.isEmpty then ([], false)
    else
      match Msg.parse b with
      | none => ([], true)
      | some (m, rest) =>
        let (ms, bad) := parseMsgs fuel rest
        (m :: ms, bad)

/-- A message that may be cut at a line boundary (R262): a STORE, or the data of a LOAD response. -/
def Msg.cuttable (m : Msg) : Bool :=
  decide ((m.mtype = 1 ∧ m.op = 1) ∨ m.mtype = 2) && decide (64 < m.data.length)

/-- Cuts `n` lines off the front of a message: the part that goes, and the rest, which starts `n` lines further. -/
def Msg.cut (m : Msg) (n : Nat) : Msg × Msg :=
  ({ m with data := m.data.take (64 * n), last := false },
   { m with data := m.data.drop (64 * n), addr := if m.mtype = 1 then m.addr + 64 * n else m.addr + n,
            word := if m.mtype = 1 then m.word else 0 })

/-- Fills a frame of `room` bytes from the messages of a flow, in order (R262): a message that does not fit whole is cut
when it may be and at least 96 B are free. -/
def packMsgs : (fuel room : Nat) → List Msg → List Msg × List Msg
  | 0, _, ms => ([], ms)
  | _ + 1, _, [] => ([], [])
  | fuel + 1, room, m :: ms =>
    let size := msgSize m.data.length
    if size ≤ room ∧ m.data.length ≤ 4064 then
      let (a, b) := packMsgs fuel (room - size) ms
      (m :: a, b)
    else if m.cuttable ∧ 96 ≤ room then
      let (x, y) := m.cut (min ((room - 32) / 64) 63)
      ([x], y :: ms)
    else ([], m :: ms)

/-- The 16 B security header (Table 2 of the links chapter). -/
def frameHeader (flow seq dest len ep : Nat) : Bytes :=
  leBytes 4 flow ++ leBytes 8 seq ++ leBytes 2 dest ++ leBytes 2 (len % 8192 + ep % 2 * 8192 + 16384)

/-- Seals a payload (R257): the IV is header bytes 0 to 11, the additional data the whole header. -/
def sealFrame (k : Key) (header payload : Bytes) : Frame :=
  let (ct, tag) := gcmSeal k (header.take 12) header payload
  ⟨BitVec.ofNat 128 (ofLE header), ct, tag⟩

/-! ### Requests at their source -/

/-- The map entry a fabric request needs (R265): its partition, destination and capability index, with rights that
cover the operation. -/
def State.capFor (s : State) (r : FabReq) : Option CapEnt :=
  s.links.caps.find? fun c => c.part == r.part.toNat && c.unit == r.dest.toNat && c.capidx == r.kidx.toNat &&
    (r.op == 1 || r.op == 3 || r.op == 4 || bit c.rights 0) && (r.op == 0 || bit c.rights 1)

/-- The block's own LOADs (R216) stand at interface 255, which has no boundary signals. -/
def ownIntf : Nat := 255

/-- The lines that a fabric response presents (R53, R54): its data; one beat of zeros for a refusal; otherwise the beats
of its length, one where it has none, and what they carry is not stated. -/
def State.frspLines (s : State) (r : FabReq) (st : Status) (data : List Line) : List Line × State :=
  if !data.isEmpty then (data, s)
  else if st ≠ .ok ∧ st ≠ .poison then ([0, 0], s)
  else s.freeLines (if r.op = 0 then r.len.toNat + 1 else 2)

/-- Answers a fabric request at its source (R53, R266) and ends its identifier. -/
def State.frsp (s : State) (intf : Nat) (r : FabReq) (st : Status) (data : List Line) (prov : Bool) : State :=
  if intf = ownIntf then s
  else
    let (lines, s) := s.frspLines r st data
    (s.emit (.frsp intf r.tid st (beatsFrom 0 lines) prov)).freeTid (64 + intf) r.tid

/-- The port at which a refusal of a fabric request counts at its source (Table 10 of the links chapter). -/
def State.refusePort (s : State) (lane dest : Nat) : Nat :=
  match s.txFlow lane dest false with
  | some f => f.port
  | none => (s.portFor lane dest).getD 0

/-- The lane a fabric request's flow carries (R252). -/
def fabLane (r : FabReq) : Nat := if r.cls = 0 then 0 else 1

/-- Refuses a fabric request at its source (R57, R60); the first kind is counted in LZ_GSTAT too. -/
def State.fabRefuse (s : State) (intf : Nat) (r : FabReq) (x : Nat × Status) : State :=
  let s := s.incFld F.portErr_REFUSED (s.refusePort (fabLane r) r.dest.toNat)
  let s := if x.1 = 1 then s.incFld F.gstat_MALFORMED else s
  s.frsp intf r x.2 [] false

/-- The REQUEST message of a fabric request (Table 4 of the links chapter). A LOAD's line count stands in the six low
bits of its address, which are otherwise zero. -/
def State.requestMsg (s : State) (o : FabOut) (data : Bytes) : Msg :=
  let r := o.req
  let c := s.capFor r
  let op := if r.op = 4 then 1 else r.op.toNat
  { mtype := 1, op := op,
    flags := if r.op = 2 then r.aop.toNat % 16 else r.aop.toNat % 2 * 16,
    part := r.part.toNat, tag := o.mtag, cls := r.cls.toNat, gen := s.life.genCur,
    addr := if r.op = 0 then r.addr.toNat + r.len.toNat else r.addr.toNat,
    capidx := r.kidx.toNat, actr := if r.op ≠ 2 ∧ r.aop.toNat % 2 = 1 then r.actr.toNat else 0,
    rights := match c with | some c => c.rights | none => 0,
    word := match c with | some c => c.token.toNat % 2 ^ 64 | none => 0,
    data := data }

/-- The data of a request's message. -/
def reqMsgData (r : FabReq) (copy : Bytes) : Bytes :=
  match r.op.toNat with
  | 0 => []
  | 1 => ofLines r.data
  | 4 => copy
  | _ => bvBytes r.op1 ++ bvBytes r.op2

/-- Places a request that needs no local read on its flow (R256, R271): without a port it completes RETRY; without a
flow entry it waits in the block. A COPY's lines are in `data`. -/
def State.placeOut (s : State) (o : FabOut) : State :=
  let dest := o.req.dest.toNat
  let lane := fabLane o.req
  let m := s.requestMsg o (reqMsgData o.req (ofLines o.data))
  match s.needTx lane dest false with
  | some (f, s) =>
    let s := s.setTx { f with waiting := f.waiting ++ [m] }
    let o' := { o with entered := true, lane := lane, data := [] }
    let outs := if s.links.outs.any (·.mtag == o.mtag) then updWhere (·.mtag == o.mtag) (fun _ => o') s.links.outs
      else s.links.outs ++ [o']
    s.withLinks { s.links with outs := outs }
  | none =>
    let s := s.withLinks { s.links with outs := s.links.outs.filter fun x => !(x.mtag == o.mtag) }
    if (s.portFor lane dest).isNone then
      (s.incFld F.portErr_REFUSED (s.refusePort lane dest)).frsp o.intf o.req .retry [] o.prov
    else s.withLinks { s.links with waiting := s.links.waiting ++ [o] }

/-- A fabric request leaves its interface, or is released by the stile (R263, R270): a COPY first makes its local read;
any other request is placed on its flow. -/
def State.fabSend (s : State) (intf : Nat) (r : FabReq) (prov : Bool) : State :=
  let o : FabOut := { mtag := s.links.nextTag % 65536, intf := intf, req := r, prov := prov }
  let s := s.withLinks { s.links with nextTag := s.links.nextTag + 1 }
  if r.op = 4 then s.withLinks { s.links with outs := s.links.outs ++ [o] } else s.placeOut o

/-- The requests that wait for a flow entry try again, in order (R256). -/
def State.retryWaiting (s : State) : State :=
  let ws := s.links.waiting
  ws.foldl (fun s o => s.placeOut o) (s.withLinks { s.links with waiting := [] })

/-- The final outcome of a request at its source (R266, R270): lz_frsp_ with its data, or for a COPY the local counter
of LOCAL. -/
def State.finishOut (s : State) (o : FabOut) (st : Status) (data : List Line) : State :=
  let s := s.withLinks { s.links with outs := s.links.outs.filter fun x => !(x.mtag == o.mtag) }
  if o.req.op = 4 then
    let s := if o.answered then s else s.frsp o.intf o.req st [] o.prov
    if bit o.req.aop.toNat 1 then
      if st = .ok then s.countArrival o.req.actr.toNat (o.req.len.toNat + 1) s.unit
      else s.setActr o.req.actr.toNat { s.actr o.req.actr.toNat with err := true }
    else s
  else s.frsp o.intf o.req st (if st = .ok then data else []) o.prov

end Sys2Proof.Machine
end

