-- ==== Sys2Proof/Machine/SvcOps.lean ====
section
/-! DEFINITION. The accesses an engine makes for a service command to device memory (R314) and to host memory (R330 to
R341). -/

namespace Sys2Proof.Machine

/-! ### Device memory -/

/-- The region of a device operand (R314): it lies wholly within one region, of the partition unless the queue is the
owner's, with a PERM bit set, starts 64 B aligned, and the life-cycle state has regions. -/
def State.operandRow (s : State) (part : Nat) (owner : Bool) (addr len perm : Nat) : Option Nat :=
  match s.regionAt addr with
  | none => none
  | some i =>
    let r := s.row i
    if decide (r.state = .free ∨ r.state = .closing) || !bit r.perm perm || (!owner && r.part != part)
      || decide (addr % 64 ≠ 0 ∨ (r.base + r.count) * 2 ^ 21 < addr + len) then none
    else some i

/-- An engine's write of one line as a request of its partition (R112, R314): `step` is the step it carries, if any, and
`maint` whether it is MAINT work. -/
def State.engineReq (s : State) (part lane addr kidx : Nat) (data : Line) (step : Option Nat) (maint : Option Bool)
    (cls : Nat) : Txn :=
  let req : MemReq := { addr := BitVec.ofNat 40 addr, len := 0, write := true, kidx := BitVec.ofNat 16 kidx,
                        part := BitVec.ofNat 6 part, gen := BitVec.ofNat 8 s.life.genCur,
                        step := BitVec.ofNat 12 (step.getD 0), cls := BitVec.ofNat 2 cls, tid := 0, span := 0, rdom := 0,
                        data := [data] }
  { id := s.mem.nextId, lane := lane, grp := s.groupOf addr, req := req, stepBad := step.isNone, maint := maint }

/-- An admitted engine write takes its place (R127, R132, R155): it is dropped with its poisoned step, held behind its
step's open provisional reads or an earlier held write of its line, kept while the harrow has its page closed, or carried
out. -/
def State.engineTake (s : State) (t : Txn) (row : Nat) (step : Option Nat) : State :=
  let poisoned := match step with | some st => (s.stepEnt st).discard | none => false
  let deps := match step with | some st => s.openReads st | none => []
  if poisoned then s
  else if t.req.cls != 0 && (!deps.isEmpty || s.heldLine t.req) then
    (s.reserve t row).hold (step.getD noStep) t.req.part.toNat deps (.mem t row)
  else if s.pageClosed (reqPage t.req) then
    let s := s.reserve t row
    s.withMem { s.mem with closedWrites := s.mem.closedWrites ++ [(⟨t, row⟩ : MetaWrite)] }
  else s.performWrite t row

/-- One line written by an engine for a partition (R112, R314): whether its region, its lane and its key admit it. A
write refused because its key is exhausted is counted (R164). -/
def State.engineLine (s : State) (part : Nat) (addr : Nat) (data : Line) (step : Option Nat)
    (maint : Option Bool := none) (cls : Nat := 2) : Bool × State :=
  match s.operandRow part true addr 64 1, s.laneOf (s.groupOf addr) with
  | some row, some n =>
    let r := s.row row
    let line := addr / 64
    if (r.writeRefusal (r.offset line) 1).isSome then (false, s)
    else
      let ks := s.slotsOf row line 1
      let s := ks.foldl (fun s k => if s.credit n k.1 = 0 then s.grantCredit n k.1 else s) s
      if ks.any fun k => s.credit n k.1 == 0 then (false, s.incFld F.hrwErr_EXHAUSTED_WR)
      else
        let t := s.engineReq part n addr r.kidx data step maint cls
        let s := s.withMem { s.mem with nextId := s.mem.nextId + 1 }
        let s := if maint.isNone then s.count (320 + 2 * part) 1 else s
        (true, s.engineTake t row step)
  | _, _ => (false, s)

/-- Lines written in ascending order; the count of those admitted before one was refused. -/
def State.engineLines (s : State) (part addr : Nat) (step : Option Nat) (maint : Option Bool) (cls : Nat) :
    List Line → Nat × Bool × State
  | [] => (0, true, s)
  | d :: rest =>
    let (ok, s) := s.engineLine part addr d step maint cls
    if !ok then (0, false, s)
    else
      let (n, ok, s) := s.engineLines part (addr + 64) step maint cls rest
      (n + 1, ok, s)

/-- Bytes written to device memory in whole lines, the last padded with zeros (R314): whether all were admitted, and how
many bytes were. They are of class `cls`. -/
def State.engineWrite (s : State) (part addr : Nat) (step : Option Nat) (b : Bytes) (cls : Nat) : Bool × Nat × State :=
  let (n, ok, s) := s.engineLines part addr step none cls (toLines b (ceilDiv b.length 64))
  (ok, min (64 * n) b.length, s)

/-- Bytes written as MAINT by the block itself, in whole lines padded with zeros (R245, R346, R423), as priority MAINT
where the manual says so (R136): whether the write rule admitted every line. MAINT lines do not count as lines written
(R438). -/
def State.maintBytes (s : State) (part addr : Nat) (b : Bytes) (prio : Bool := false) : Bool × State :=
  let (_, ok, s) := s.engineLines part addr none (some prio) 2 (toLines b (ceilDiv b.length 64))
  (ok, s)

/-! ### Host memory -/

/-- The limit of a HOST slot's charges for operands (R334). -/
def hostLimit : Nat := 2 ^ 40 - 2 ^ 16

/-- The IV of a host item (Table 2 of the host chapter), 12 bytes. -/
def hostIv (dir kind obj seq seg : Nat) : Bytes :=
  leBytes 12 (seg % 2 ^ 16 + seq % 2 ^ 64 * 2 ^ 16 + obj % 256 * 2 ^ 84 + kind % 8 * 2 ^ 92 + dir % 2 * 2 ^ 95)

/-- The segments of a host operand: index and payload (R331). -/
def segments : (fuel i : Nat) → Bytes → List (Nat × Bytes)
  | 0, _, _ => []
  | fuel + 1, i, b => if b.isEmpty then [] else (i, b.take 4096) :: segments fuel (i + 1) (b.drop 4096)

/-- GCM invocations a host operand needs (R334). -/
def invocations (len : Nat) : Nat := ceilDiv len 4096

/-- A host range lies in the window of a partition (R341). -/
def State.inWindow (s : State) (part addr len : Nat) : Bool :=
  let base := s.fld F.partHwinBase_BASE part * 4096
  decide (base ≤ addr ∧ addr + len ≤ base + 4096 * s.fld F.partHwinSize_PAGES part)

/-- The host bytes an operand of `len` payload bytes occupies (R331). -/
def hostSpan (len : Nat) : Nat := len + 16 * ceilDiv len 4096

/-- Charges GCM invocations to a HOST slot (R334); counter 471 counts them, and at 75 % of the
limit the warning is due (KEYWARN). -/
def State.chargeHost (s : State) (slot n : Nat) : State :=
  let k := s.slot slot
  ({ s.count 471 n with host := { s.host with progress := s.host.progress + n } }).putSlot slot { k with usage := k.usage + n }

/-- The binding of a queue or channel (R332). -/
def State.binding (s : State) (chan : Bool) (obj : Nat) : Option Binding :=
  s.host.bindings.find? fun b => b.chan == chan && b.obj == obj && !b.spent

/-- Replaces a binding. -/
def State.setBinding (s : State) (b : Binding) : State :=
  { s with host := { s.host with bindings := updWhere (·.slot == b.slot) (fun _ => b) s.host.bindings } }

/-- Host attachment of a queue's port: 0 for port 1, 1 for port 2. -/
def State.qAtt (s : State) (q : Nat) : Nat := s.fld F.svcQcfg_ATT q - 1

/-- The PASID under which an object's host addresses are translated (R340), plus one; zero when PASID_EN is clear. -/
def State.pasid (s : State) (chan : Bool) (obj : Nat) : Nat :=
  if chan then (if s.fld F.hostBcfg_PASID_EN obj = 1 then s.fld F.hostBcfg_PASID obj + 1 else 0)
  else if s.fld F.hostQpasid_PASID_EN obj = 1 then s.fld F.hostQpasid_PASID obj + 1 else 0

/-- ATS is on for an attachment (R340). -/
def State.atsOn (s : State) (att : Nat) : Bool :=
  s.fld (if att = 0 then F.hostCtl_ATS_EN0 else F.hostCtl_ATS_EN1) == 1

/-- A cached translation. -/
def State.trans (s : State) (att pasid page : Nat) : Option Trans :=
  s.host.atc.find? fun t => t.att == att && t.pasid == pasid && t.va == page

/-- The 4 KiB pages of a host range. -/
def hostPages (addr len : Nat) : List Nat :=
  if len = 0 then [] else upto (addr / 4096) ((addr + len - 1) / 4096 + 1 - addr / 4096)

/-- The pages of a host range that have no cached translation, with ATS on (R340). -/
def State.missingPages (s : State) (att pasid addr len : Nat) : List Nat :=
  if s.atsOn att then (hostPages addr len).filter fun p => (s.trans att pasid p).isNone else []

/-- A cached translation of a range lacks the permission an access needs: 0 read, 1 write (R340). -/
def State.deniedPage (s : State) (att pasid addr len perm : Nat) : Bool :=
  s.atsOn att && (hostPages addr len).any fun p =>
    match s.trans att pasid p with | some t => !bit t.perm perm | none => false

/-- Asks for translations on lz_hats_ (R340), once for each page; what waits for them is noted. -/
def State.askPages (s : State) (att pasid : Nat) (who : Waiter) (pages : List Nat) : State :=
  pages.foldl (fun s p =>
    let same := fun (r : AtsReq) => r.att == att && r.pasid == pasid && r.va == p
    if s.host.atsOut.any same then
      let out := updWhere same (fun r => { r with who := if r.who.contains who then r.who else r.who ++ [who] })
        s.host.atsOut
      { s with host := { s.host with atsOut := out } }
    else
      let out := s.host.atsOut ++ [({ att := att, pasid := pasid, va := p, who := [who] } : AtsReq)]
      ({ s with host := { s.host with atsOut := out } }).emit (.ats att p (pasid - 1))) s

/-- The address type and physical address of a host byte (R340). A page whose translation was dropped after the start of
its command is translated again; what the host then answers is a free value. -/
def State.hostAddr (s : State) (att pasid addr : Nat) : Nat × Nat × State :=
  if s.atsOn att then
    match s.trans att pasid (addr / 4096) with
    | some t => (2, t.pa * 4096 + addr % 4096, s)
    | none =>
      let pa := (s.freeVal 52).toNat
      (2, pa * 4096 + addr % 4096, s.freed.emit (.ats att (addr / 4096) (pasid - 1)))
  else (0, addr, s)

/-- Writes bytes to host memory on lz_hdma_, page by page; a sealed segment touches at most three pages. The tag of a write
is not stated. -/
def State.hostWrite (att pasid : Nat) : (fuel : Nat) → State → (addr : Nat) → Bytes → State
  | 0, s, _, _ => s
  | fuel + 1, s, addr, b =>
    if b.isEmpty then s
    else
      let n := 4096 - addr % 4096
      let (t, pa, s) := s.hostAddr att pasid addr
      let tag := s.freeVal 10
      State.hostWrite att pasid fuel ((s.freed.spend (hostEnergy (min n b.length))).emit (.hdma att true tag t pa (min n b.length) (b.take n))) (addr + n)
        (b.drop n)

/-- Asks for bytes of host memory on lz_hdma_, page by page, under a tag. -/
def State.hostAsk (att pasid : Nat) (tag : BitVec 10) : (fuel : Nat) → State → (addr len : Nat) → State
  | 0, s, _, _ => s
  | fuel + 1, s, addr, len =>
    if len = 0 then s
    else
      let n := 4096 - addr % 4096
      let (t, pa, s) := s.hostAddr att pasid addr
      State.hostAsk att pasid tag fuel (s.emit (.hdma att false tag t pa (min n len) [])) (addr + n) (len - n)

/-- Marks the pages of a host range of a partition's window for migration (R346): window page j is carve-out pages + j,
above 2^40 so that it differs from device pages. -/
def State.logHost (s : State) (part addr len : Nat) : State :=
  let base := s.fld F.partHwinBase_BASE part
  (hostPages addr len).foldl (fun s p => s.logDirty part (2 ^ 40 + s.fld F.partCarve_COUNT part * 512 + (p - base))) s

/-- Seals segments of an operand or transfer under its HOST slot, the first of them number `seg0` at host address `addr`,
and sends them to the host (R330, R331). -/
def State.hostSegments (s : State) (att pasid part slot kind obj seq seg0 addr : Nat) (b : Bytes) : State :=
  (segments (ceilDiv b.length 4096) 0 b).foldl (fun s (p : Nat × Bytes) =>
    let (ct, tag) := gcmSeal (s.slot slot).key (hostIv 1 kind obj seq (seg0 + p.1)) [] p.2
    let va := addr + 4112 * p.1
    (State.hostWrite att pasid 3 s va (ct ++ bvBytes tag)).logHost part va (p.2.length + 16)) s

/-- A host operand of a queue's command may be used (R314, R332, R341): the queue is bound to a HOST slot, the address is
16 B aligned and within the window. -/
def State.hostOperandOk (s : State) (q addr len : Nat) : Bool :=
  decide (s.fld F.svcQcfg_HKIDX q ≠ 0 ∧ addr % 16 = 0) && s.inWindow (s.qPart q) addr (hostSpan len)

/-- The number of the drill step that a command runs; 0 outside drills (Table 2 of the host chapter). -/
def Cmd.drillStep (c : Cmd) : Nat := match c.drill with | some r => r.step | none => 0

/-- Sends a command's output to its DST in host memory. -/
def State.hostOut (s : State) (q : Nat) (c : Cmd) (b : Bytes) : State :=
  s.hostSegments (s.qAtt q) (s.pasid false q) (s.qPart q) (s.fld F.svcQcfg_HKIDX q) 3 q c.ord (c.drillStep * 1024)
    (c.desc.dst % 2 ^ 63) b

/-- The step a command's writes carry (R314). -/
def Cmd.stepOf (c : Cmd) : Option Nat := if bit c.desc.flags 0 then some c.desc.step else none

/-- Writes a command's output at DST (R314, R335): to device memory, or to the host, where the egress of a step waits for
its verdicts. Whether it was admitted, the bytes written, and whether it is held in the host write hold. -/
def State.writeDst (s : State) (q : Nat) (c : Cmd) (b : Bytes) : Bool × Nat × Bool × State :=
  if bit c.desc.dst 63 then
    match c.stepOf with
    | some st =>
      if (s.stepEnt st).discard then (true, 0, true, s.setCmd q { c with st := .running, output := b })
      else if !(s.stepEnt st).pend.isEmpty then
        (true, b.length, true, (s.setCmd q { c with st := .running, output := b }).hold st (s.qPart q) (s.openReads st) (.dma q c.k))
      else (true, b.length, false, s.hostOut q c b)
    | none => (true, b.length, false, s.hostOut q c b)
  else
    let (ok, n, s) := s.engineWrite (s.qPart q) (c.desc.dst % 2 ^ 63) c.stepOf b (s.fld F.svcQcfg_CLS q)
    (ok, n, false, s)

/-- An operand of a command may be accessed (R314): perm 0 reads, 1 writes. -/
def State.operandOk (s : State) (q : Nat) (c : Cmd) (x len perm : Nat) : Bool :=
  if bit x 63 then s.hostOperandOk q (x % 2 ^ 63) len
  else (s.operandRow (s.qPart q) c.owner (x % 2 ^ 63) len perm).isSome

/-- The payload of sealed segments as they stand in host memory, each under the IV of its number (R330, R331); none when
one does not open. -/
def openSegs (key : Key) (iv : Nat → Bytes) : (fuel i : Nat) → Bytes → Option Bytes
  | 0, _, b => if b.isEmpty then some [] else none
  | fuel + 1, i, b =>
    if b.isEmpty then some []
    else
      let x := b.take 4112
      match gcmOpen key (iv i) [] (x.take (x.length - 16)) (BitVec.ofNat 128 (ofLE (x.drop (x.length - 16)))) with
      | none => none
      | some p => (openSegs key iv fuel (i + 1) (b.drop 4112)).map (p ++ ·)

/-- Lines that an engine has read for a partition: they count as granted to it, and as read at their groups (R438). -/
def State.readLines (s : State) (part addr len : Nat) : State :=
  (upto (addr / 64) (ceilDiv len 64)).foldl (fun s l => s.count (4 * s.groupOf (l * 64)) 1)
    (s.count (320 + 2 * part) (ceilDiv len 64))

/-- The source of a command as the engine gets it (R314, R330, R331, R333): what the reads of a device source brought; a
host source is asked for on lz_hdma_ and opened segment by segment, and one that does not open is no source. -/
def State.takeSrc (s : State) (q : Nat) (c : Cmd) (len : Nat) (r : ReadOut) : ReadOut × State :=
  if len = 0 then (r, s)
  else if bit c.desc.src 63 = false then
    (r, if s.operandOk q c c.desc.src len 0 ∧ r.ok ∧ r.bytes.length = len then s.readLines (s.qPart q) (c.desc.src % 2 ^ 63) len
      else s)
  else
    let span := hostSpan len
    let key := (s.slot (s.fld F.svcQcfg_HKIDX q)).key
    let b := if r.ok ∧ r.bytes.length = span then
        openSegs key (fun i => hostIv 0 2 q c.ord (1024 * c.drillStep + i)) (ceilDiv len 4096) 0 r.bytes
      else none
    let tag := s.freeVal 10
    let s := State.hostAsk (s.qAtt q) (s.pasid false q) tag (span / 4096 + 2) (s.freed.spend (hostEnergy span)) (c.desc.src % 2 ^ 63) span
    (match b with | some b => ⟨true, b⟩ | none => ⟨false, []⟩, s)

/-- The GCM invocations a command's host operands need (R334). -/
def Desc.hostUnits (d : Desc) (srcLen dstLen : Nat) : Nat :=
  (if bit d.src 63 then invocations srcLen else 0) + (if bit d.dst 63 then invocations dstLen else 0)

/-- Ends a command with its output written at DST: FAILED with DETAIL OPERAND when the write was refused; a held host
write ends it when the stile releases it. -/
def State.finishDst (s : State) (q : Nat) (c : Cmd) (b : Bytes) (res0 res1 : Nat) : State :=
  let (ok, n, held, s) := s.writeDst q c b
  if held then
    if n = 0 ∧ !b.isEmpty then s.svcDone q c.k 1 9 0 0 0
    else
      match s.cmd q c.k with
      | some x => s.setCmd q { x with count := n, res0 := res0, res1 := res1 }
      | none => s
  else if ok then s.svcDone q c.k 0 0 n res0 res1
  else s.svcDone q c.k 1 3 n 0 0

/-- A held host DMA write of a service command goes out (R335), and its command ends. -/
def State.dmaRelease (s : State) (q k : Nat) : State :=
  match s.cmd q k with
  | some c => (s.hostOut q c c.output).svcDone q k 0 0 c.count c.res0 c.res1
  | none => s

/-! ### Bounce transfers -/

/-- The host attachment of a channel. -/
def State.cAtt (s : State) (c : Nat) : Nat := s.fld F.hostBcfg_ATT c

/-- The partition of a channel. -/
def State.cPart (s : State) (c : Nat) : Nat := s.fld F.hostBcfg_PART c

/-- Replaces a transfer of a channel. -/
def State.setXfer (s : State) (c : Nat) (f : Xfer) : State :=
  let x := s.chan c
  let fs := updWhere (fun (g : Xfer) => g.no == f.no) (fun _ => f) x.xfers
  s.setChan c { x with xfers := fs }

/-- Sends the payload of a D2H transfer to the host, sealed, and ends it (R331, R343). -/
def State.xferSend (s : State) (c : Nat) (f : Xfer) : State :=
  let s := s.hostSegments (s.cAtt c) (s.pasid true c) (s.cPart c) (s.fld F.hostBcfg_HKIDX c) 5 c f.no 0 f.host f.data
  s.setXfer c { f with done := true, count := f.data.length, data := [] }

/-- A held D2H transfer goes out (R335). -/
def State.xferRelease (s : State) (c no : Nat) : State :=
  match (s.chan c).xfers.find? fun f => f.no == no with
  | some f => if f.done then s else s.xferSend c f
  | none => s

end Sys2Proof.Machine
end

