-- ==== Sys2Proof/Machine/RegionOps.lean ====
section
/-! DEFINITION. Region descriptors as words (R87), the references of a region (R114), the checks of CREATE (R86, R88,
R109), and what leaving a harrow job does to a region. -/

namespace Sys2Proof.Machine

/-! ### Descriptors -/

/-- The code of a region state (D0[4:2]). -/
def RState.code : RState → Nat
  | .free => 0 | .opened => 1 | .sealing => 2 | .sealed => 3 | .closing => 4

/-- The region kind of a code. -/
def Kind.ofCode (n : Nat) : Kind := ([.clear, .sown, .furrow, .tilled] : List Kind).getD n .clear

/-- The region state of a code. -/
def RState.ofCode (n : Nat) : RState := ([.free, .opened, .sealing, .sealed, .closing] : List RState).getD n .free

/-- The references of a region by requests in flight (R114): granted and not completed, which for a read ends with its
response, held, and posted but not issued to memory. A request that waits for its grant has not been accepted. -/
def State.flights (s : State) (row : Nat) : Nat :=
  let inRow := fun (t : Txn) => decide (s.regionAt t.req.addr.toNat = some row)
  (s.mem.spanGranted.filter inRow).length + (s.links.flags.filter inRow).length
  + (s.mem.reads.filter (·.row == row)).length
  + (s.mem.rsps.filter fun x => x.row == row && !s.mem.reads.any fun r => r.txn.id == x.id).length
  + (s.mem.waitCredit.filter (·.2 == row)).length + (s.mem.closedWrites.filter (·.row == row)).length
  + (s.mem.metaWrites.filter (·.row == row)).length + (s.mem.moves.filter (·.row == row)).length
  + (s.mem.wbuf.filter (·.row == row)).length
  + (s.mem.held.filter fun h => match h.what with | .mem _ r => r == row | _ => false).length

/-- REFCOUNT of a region (R114). -/
def State.regionRefs (s : State) (row : Nat) : Nat := (s.row row).drvRefs + s.flights row

/-- Word D`j` of a region's descriptor (Table 2), with its REFCOUNT. -/
def Region.word (r : Region) (refs j : Nat) : Nat :=
  match j with
  | 0 => r.kind.code + r.state.code * 2 ^ 2 + (if r.radio then 2 ^ 5 else 0) + (if r.harrow then 2 ^ 6 else 0)
      + r.part * 2 ^ 8 + r.kidx * 2 ^ 16 + r.kidxNext * 2 ^ 32
      + (match r.wslot with | some w => w * 2 ^ 48 + 2 ^ 61 | none => 0)
  | 1 => r.base + r.count * 2 ^ 18 + r.perm * 2 ^ 36
  | 2 => r.epoch
  | 3 => r.hwm
  | 4 => r.capidx + (if r.sealIncomplete then 2 ^ 32 else 0)
  | 7 => refs % 2 ^ 32
  | 14 => r.stamp
  | _ => if 8 ≤ j ∧ j ≤ 13 then bits r.digest.toNat (64 * (j - 8)) 64 else 0

/-- The 128 bytes of a region's descriptor. -/
def Region.bytes (r : Region) (refs : Nat) : Bytes := ((upto 0 16).map fun j => leBytes 8 (r.word refs j)).flatten

/-- A descriptor as it is staged (Table 2): the region its RW fields describe, ARG_ADDR and ARG_LINE, and whether every
reserved field is zero. -/
structure Staging where
  region : Region
  argAddr : Nat
  argLine : Nat
  reservedOk : Bool
  deriving DecidableEq, Repr

/-- The staged descriptor in sixteen words. -/
def Staging.ofWords (w : Nat → Nat) : Staging :=
  let d0 := w 0
  let d1 := w 1
  { region := { kind := Kind.ofCode (bits d0 0 2), radio := bit d0 5, part := bits d0 8 6, kidx := bits d0 16 16,
                base := bits d1 0 18, count := bits d1 18 18, perm := bits d1 36 4, capidx := bits (w 4) 0 16 },
    argAddr := bits (w 5) 0 40, argLine := bits (w 6) 0 34,
    reservedOk := decide (bits d0 7 1 = 0 ∧ bits d0 14 2 = 0 ∧ bits d0 62 2 = 0 ∧ bits d1 40 24 = 0
      ∧ bits (w 3) 34 30 = 0 ∧ bits (w 4) 16 16 = 0 ∧ bits (w 4) 33 31 = 0 ∧ bits (w 5) 40 24 = 0
      ∧ bits (w 6) 34 30 = 0 ∧ bits (w 7) 32 32 = 0 ∧ w 15 = 0) }

/-- The staged descriptor in 128 bytes of a service command. -/
def Staging.ofBytes (b : Bytes) : Staging := Staging.ofWords fun j => le b (8 * j) 8

/-- The descriptor registers in order. -/
def descRegs : List Reg :=
  [.rgnDesc0, .rgnDesc1, .rgnDesc2, .rgnDesc3, .rgnDesc4, .rgnDesc5, .rgnDesc6, .rgnDesc7, .rgnDesc8, .rgnDesc9,
   .rgnDesc10, .rgnDesc11, .rgnDesc12, .rgnDesc13, .rgnDesc14, .rgnDesc15]

/-- The descriptor staged in LZ_RGN_DESC0 to LZ_RGN_DESC15. -/
def State.staged (s : State) : Staging := Staging.ofWords fun j => s.rd (descRegs.getD j .rgnDesc0)

/-! ### The checks of CREATE -/

/-- A descriptor breaks R88 for a command. -/
def State.badDesc (s : State) (r : Region) : Bool :=
  let k := (s.slot r.kidx).kind
  decide ((r.kind = .clear ∧ s.life.lc ≠ .test) ∨ r.count = 0 ∨ r.perm = 0)
  || (r.radio && (!(s.plotOf r.part).radio || decide (r.kind = .sown)))
  || ((bit r.perm 2 || bit r.perm 3) && decide (0xFC00 ≤ r.capidx))
  || (decide (r.kind ≠ .clear) && decide (r.kidx = 0 ∨ (k ≠ .memory ∧ k ≠ .cell) ∨ s.slotLive r.kidx = false))

/-- Two runs of granules have one in common. -/
def overlap (a n b m : Nat) : Bool := decide (a < b + m ∧ b < a + n)

/-- A descriptor breaks R86: outside the carve-out of its partition, over another region or the metadata area, or
TILLED outside the tilled span. `rows` are the regions in force. -/
def State.badPlace (s : State) (r : Region) : Bool :=
  let p := s.plotOf r.part
  !p.present || decide (r.base < p.carveBase ∨ p.carveBase + p.carveCount < r.base + r.count)
  || (s.rgn.rows.any fun e => decide (e.2.state ≠ .free) && overlap r.base r.count e.2.base e.2.count)
  || overlap r.base r.count s.rgn.metaBase s.rgn.metaCount
  || (decide (r.kind = .tilled) &&
      decide (r.base < s.rgn.tspanBase ∨ s.rgn.tspanBase + s.rgn.tspanCount < r.base + r.count))

/-- Granules of the radio TILLED regions (R109). -/
def State.radioGranules (s : State) : Nat :=
  ((s.rgn.rows.filter fun e => e.2.radio && decide (e.2.kind = .tilled ∧ e.2.state ≠ .free)).map (·.2.count)).sum

/-- A radio TILLED region exceeds the reservation (R109): 33,288 B for each granule against 64 KiB units. -/
def State.overRadio (s : State) (r : Region) : Bool :=
  r.radio && decide (r.kind = .tilled) && decide (s.rgn.radioMeta * 65536 < (s.radioGranules + r.count) * 33288)

/-- The lowest free slot of the window store (R98). -/
def State.freeWindow (s : State) : Option Nat :=
  let used := s.rgn.rows.filterMap (·.2.wslot)
  (upto 0 8192).find? fun w => !used.contains w

/-! ### Regions and harrow jobs -/

/-- A region leaves its job as at RETIRE (R115): KIDX takes KIDX_NEXT, KIDX_NEXT becomes 0 and HARROW clears. -/
def Region.retired (r : Region) : Region :=
  if r.harrow then { r with kidx := r.kidxNext, kidxNext := 0, harrow := false } else r

/-- A region is taken off its job's list. -/
def Job.without (j : Job) (row : Nat) : Job :=
  let cur := j.todo.head? == some row
  { j with todo := j.todo.filter (· != row), passed := j.passed.filter (· != row),
           thresh := j.thresh.filter fun t => t.1 != row,
           head := if cur then 0 else j.head, done := if cur then [] else j.done, retry := if cur then [] else j.retry,
           fetching := if cur then [] else j.fetching,
           mark := if cur then 0 else j.mark }

/-! ### Zero writes -/

/-- Writes line offsets of a region as 64 zero bytes under its key and EPOCH, as MAINT (R97, R103). -/
def State.zeroLines (s : State) (row : Nat) (offs : List Nat) : State :=
  let r := s.row row
  offs.foldl (fun s o =>
    let line := r.base * linesPerGranule + o
    let n := (s.laneOf (s.groupOf (line * 64))).getD 0
    let slot := s.lineSlot row o 0
    (s.maintWrites n slot 1).offerLines n row line [0] [(⟨r.kind.code, r.epoch, 0⟩, slot)] (some false)) s

/-- The harrow has closed a page of a region: its zero writes wait, as other MAINT work does (R155). -/
def State.closedIn (s : State) (row : Nat) : Bool :=
  let r := s.row row
  s.mem.closed.any fun x => decide (r.base * pagesPerGranule ≤ x.page ∧ x.page < (r.base + r.count) * pagesPerGranule)

/-- Held, waiting or unissued writes of a region, which a fold waits for (R97), and an ADVANCE of it, whose zero writes
the fold lets end first (DESIGN CHOICE, log entry 59). -/
def State.writesOut (s : State) (row : Nat) : Bool :=
  s.mem.waitCredit.any (·.2 == row) || s.mem.metaWrites.any (·.row == row) || s.mem.closedWrites.any (·.row == row) ||
  !(s.row row).adv.isEmpty || s.closedIn row ||
  s.mem.held.any (fun h => match h.what with | .mem _ r => r == row && h.epoch == (s.row row).epoch | _ => false) ||
  s.mem.wbuf.any (fun w => w.row == row)

/-! ### Operands of service commands -/

/-- A command's device or host source may be read and its bytes came (R314): the place is checked here, the outcome of
the accesses is the operand, as takeSrc gives it. -/
def State.srcOk (s : State) (q : Nat) (c : Cmd) (len : Nat) (r : ReadOut) : Bool :=
  s.operandOk q c c.desc.src len 0 && r.ok && decide (r.bytes.length = len)

/-- A HOST slot whose session has ended, or that holds no HOST key any more (R350). -/
def State.hostDead (s : State) (slot : Nat) : Bool := decide ((s.slot slot).kind ≠ .host ∨ (s.slot slot).dref = 0)

/-- Charges a HOST slot for the operands of a command (R334); false when the charge would pass the limit, or when the
slot's session has ended (R350). -/
def State.hostCharge (s : State) (q n : Nat) : Bool × State :=
  if n = 0 then (true, s)
  else
    let slot := s.fld F.svcQcfg_HKIDX q
    if hostLimit < (s.slot slot).usage + n ∨ s.hostDead slot then (false, s) else (true, s.chargeHost slot n)

/-- A source that could not be read (R314, R333): FAILED with DETAIL OPERAND; a host segment that did not open is
counted. -/
def State.srcFail (s : State) (q : Nat) (c : Cmd) : State :=
  (if bit c.desc.src 63 then s.incFld F.hostErr_OPEN_FAIL else s).svcDone q c.k 1 3 0 0 0

/-- Runs a service command whose operands may lie in host memory (R314, R334, R340, R341): each place is checked, host
pages are translated first, which may leave the command waiting, and the HOST slot is charged; a charge that would pass
the limit completes KEY_LIMIT, and one under a slot whose session has ended fails the command and stops its queue (R350). A length of zero is no operand. -/
def State.charged (s : State) (q : Nat) (c : Cmd) (srcLen dstLen : Nat) (f : State → State) : State :=
  let ops := [(c.desc.src, srcLen, 0), (c.desc.dst, dstLen, 1)].filter fun (x : Nat × Nat × Nat) => x.2.1 != 0
  let host := ops.filter fun x => bit x.1 63
  let part := s.qPart q
  let out := host.any fun x => decide (s.fld F.svcQcfg_HKIDX q ≠ 0) && !s.inWindow part (x.1 % 2 ^ 63) (hostSpan x.2.1)
  if ops.any fun x => !s.operandOk q c x.1 x.2.1 x.2.2 then
    (if out then s.incFld F.partErr_HOST_REFUSED part else s).svcDone q c.k 1 3 0 0 0
  else
    let att := s.qAtt q
    let pasid := s.pasid false q
    if host.any (fun x => s.deniedPage att pasid (x.1 % 2 ^ 63) (hostSpan x.2.1) x.2.2) then
      (s.incFld F.hostErr_TRANS_FAIL).svcDone q c.k 1 3 0 0 0
    else
      let miss := (host.map fun x => s.missingPages att pasid (x.1 % 2 ^ 63) (hostSpan x.2.1)).flatten
      if !miss.isEmpty then (s.setCmd q c).askPages att pasid (.cmd q c.k) miss
      else
        let (ok, s) := s.hostCharge q (c.desc.hostUnits srcLen dstLen)
        if ok then f s
        else if s.hostDead (s.fld F.svcQcfg_HKIDX q) then
          let s := s.svcDone q c.k 1 3 0 0 0
          s.setQueue q { s.queue q with state := .stopped }
        else s.svcDone q c.k 7 0 0 0 0

end Sys2Proof.Machine
end

