-- ==== Sys2Proof/Machine/HarrowOps.lean ====
section
/-! DEFINITION. Harrow jobs (R147, R148, R151): their states, the headland's advance, regions that join and leave. -/

namespace Sys2Proof.Machine

/-- The code of a job state (LZ_HRW_JOB.STATE). -/
def JobSt.code : JobSt → Nat
  | .free => 0 | .queued => 1 | .running => 2 | .suspended => 3 | .settled => 4

/-- The region that LZ_HRW_JOB.REGION shows (Table 11 of the harrow chapter). A RUNNING job whose headland has passed
every region, and that waits only for a RESET of a radio FURROW region (R148), has no current region; the spec does not
say what the field reads then, and it reads 0 (DESIGN CHOICE, log entry 60). -/
def Job.region (j : Job) : Nat :=
  match j.st with
  | .free => 0
  | .settled => (j.passed.getLast?).getD 0
  | _ => (j.todo.head?).getD 0

/-- Stores a job record, tracing a change of its state (R437). -/
def State.putJob (s : State) (n : Nat) (j : Job) : State :=
  let s := if (s.job n).st = j.st then s else s.trace 5 4 (Src.harrow.at 0) none n j.st.code j.region
  s.setJob n j

/-- 4 KiB pages of the metadata area. -/
def State.metaPages (s : State) : Nat := s.rgn.metaCount * pagesPerGranule

/-- A job whose headland has passed its last region becomes SETTLED (R148), unless a radio FURROW region of it remains
unreset; one without regions becomes FREE; a region whose pages are done is passed, and so is a radio FURROW region,
which the headland never moves (R158). `fuel` bounds the regions looked at. -/
def State.normJob (s : State) (n : Nat) : Nat → State
  | 0 => s
  | fuel + 1 =>
    let j := s.job n
    if j.st ≠ .running then s
    else
      let settle := fun (s : State) =>
        (s.putJob n { j with st := .settled }).record .harrowSettled .harrow 0 none n j.moved
      match j.todo with
      | [] =>
        if j.scope = .metadata then (if s.metaPages ≤ j.head then settle s else s)
        else if j.passed.isEmpty then s.putJob n {}
        else if j.passed.any fun i => (s.row i).radio && decide ((s.row i).kind = .furrow) then s
        else settle s
      | row :: rest =>
        let r := s.row row
        if (r.radio && decide (r.kind = .furrow)) || decide (r.count * pagesPerGranule ≤ j.head) then
          (s.setJob n { j with todo := rest, passed := j.passed ++ [row], head := 0, done := [], retry := [],
                               fetching := [], mark := 0 }).normJob n fuel
        else s

/-- Normalises a job with fuel for all its regions. -/
def State.settleJob (s : State) (n : Nat) : State := s.normJob n ((s.job n).todo.length + 1)

/-- H advances over every done page, and while the pair is UP at most 4,096 pages beyond the acknowledged mark (R151,
R165). -/
def State.advanceHead (s : State) (n : Nat) : State :=
  let j := s.job n
  let h := firstClear j.done j.head 256
  let h := if s.pair.state = .up then max j.head (min h (j.mark + 4096)) else h
  (s.setJob n { j with head := h, done := j.done.filter (h ≤ ·) }).settleJob n

/-- Marks a page offset of the current region done (R151). -/
def State.pageDone (s : State) (n q : Nat) : State :=
  let j := s.job n
  (s.setJob n { j with done := nsInsert j.done q, retry := j.retry.filter (· != q),
                       fetching := j.fetching.filter (· != q) }).advanceHead n

/-- Metadata reads that waited for a closed metadata page are made (R160): those that reads and completed writes
need. -/
def State.refetch (s : State) : State :=
  let pages := (s.mem.reads.filter fun r => r.lines.any fun l => l.ctr.isNone && decide (l.st = .wait)).map
    (fun r => reqPage r.txn.req) ++ s.mem.metaWrites.map fun w => reqPage w.txn.req
  pages.foldl (fun s p => s.fetchMeta 1 (s.spanPage p)) s

/-- The engine writes that waited for a closed page take their effect, in order (R152, R155). -/
def State.openWrites (s : State) (abs : Nat) : State :=
  let ws := s.mem.closedWrites.filter fun w => reqPage w.txn.req == abs
  let s := s.withMem { s.mem with closedWrites := s.mem.closedWrites.filter fun w => reqPage w.txn.req != abs }
  ws.foldl (fun s w => (s.topUp w.txn w.row).performWrite w.txn w.row) s

/-- A closed page opens (R152). -/
def State.openPage (s : State) (n abs : Nat) : State :=
  let (t, s) := s.cycles
  let s := s.trace 2 7 (Src.harrow.at 0) none n (s.mem.ingress.filter fun x => reqPage x.req == abs).length t
  let s := s.count 455 t
  let s := s.withMem { s.mem with closed := s.mem.closed.filter fun x => !(x.page == abs) }
  (s.openWrites abs).refetch

/-- The pages of a region that the harrow has closed open again: their moves end (R115). -/
def State.openRegion (s : State) (n row : Nat) : State :=
  let r := s.row row
  let ps := s.mem.closed.filter fun x =>
    x.job == n && decide (r.base * pagesPerGranule ≤ x.page ∧ x.page < (r.base + r.count) * pagesPerGranule)
  ps.foldl (fun s x => s.openPage n x.page) s

/-- A region leaves its job (R148), and what the harrow has closed of it opens: with its last region the job is FREE,
whatever its state. -/
def State.dropFromJob (s : State) (row : Nat) : State :=
  match s.jobOf row with
  | none => s
  | some (n, _) =>
    let s := s.openRegion n row
    let j := (s.job n).without row
    if j.todo.isEmpty ∧ j.passed.isEmpty then s.putJob n {} else (s.setJob n j).settleJob n

/-- A region created during a KEY job with the job's old key as its KIDX joins it with every page done (R148): a radio
region before the turnover is still to be treated. -/
def State.joinJob (s : State) (row : Nat) : State :=
  let r := s.row row
  match s.harrow.jobs.find? fun e => decide (e.2.scope = .key ∧ e.2.st ≠ .free ∧ e.2.old = r.kidx) with
  | none => s
  | some (n, j) =>
    if r.kind = .clear then s
    else
      let s := s.setRow row { r with kidxNext := j.new, harrow := true }
      if r.radio && !j.turned then s.setJob n { j with todo := j.todo ++ [row], radio := true }
      else s.setJob n { j with passed := j.passed ++ [row] }

end Sys2Proof.Machine
end

