-- ==== Sys2Proof/Machine/IdentOps.lean ====
section
/-! DEFINITION. The identity keys (R174), the signatures made with them, and the certificate chain. -/

namespace Sys2Proof.Machine

/-- The ML-DSA-87 identity seed (Table 2 of the keys chapter). -/
def State.seedM (s : State) : BitVec 256 := derive s.keys.root "LZIDMLD" 0 [] []

/-- The order of the group of P-384. -/
def p384Order : Nat :=
  0xffffffffffffffffffffffffffffffffffffffffffffffffc7634d81f4372ddf581a0db248b0a77aecec196accc52973

/-- The ECDSA P-384 private identity key (R174): d = (v mod (n − 1)) + 1, where v is the 48 bytes that the seed's inputs give
with L = 384, read as a big-endian integer. -/
def State.ecdsaD (s : State) : Nat :=
  let v : Digest := Config.kmac256 (bvBytes s.keys.root) (padTo 8 (ascii "LZIDECC") ++ zeros 120) 384 (ascii "LZKDF1")
  (bvBytes v).foldl (fun n b => n * 256 + b.toNat) 0 % (p384Order - 1) + 1

/-- An ECDSA P-384 signature of a message under the identity key; its randomness is drawn with prediction resistance
(R195). -/
def State.signEcdsa (s : State) (msg : Bytes) : Bytes × State :=
  let s := s.reseed
  (padTo 96 (Config.ecdsaSign s.ecdsaD (bvBytes (Config.sha2_384 msg)) s.keys.draws), s.drew.pkuOwn 1)

/-- Both signatures of a message under a context string (R192): ML-DSA-87, 4,627 B, and ECDSA P-384 over its SHA-384,
96 B. The randomness is drawn with prediction resistance (R195). -/
def State.signBoth (s : State) (msg ctx : Bytes) : Bytes × State :=
  let s := s.reseed
  let a := padTo 4627 (Config.mldsaSign s.seedM msg ctx s.keys.draws)
  let (b, s) := (s.drew.pkuOwn 1).signEcdsa msg
  (a ++ b, s)

/-- Both signatures verify under a pair of public keys. -/
def verifyBoth (pk : Bytes × Bytes) (msg ctx sigs : Bytes) : Bool :=
  Config.mldsaVerify pk.1 msg ctx (sigs.take 4627) &&
  Config.ecdsaVerify pk.2 (bvBytes (Config.sha2_384 msg)) (sub sigs 4627 96)

/-- The certificate chain in force (R389). -/
def State.chainBytes (s : State) : Bytes := s.store.chain.getD []

/-- A chain as the exchanges carry it (R278): length, four reserved bytes, and the chain padded to 16 B. -/
def chainField (c : Bytes) : Bytes := leBytes 4 c.length ++ zeros 4 ++ padTo (ceilDiv c.length 16 * 16) c

/-- A life-cycle state's code (R376). -/
def Lc.code : Lc → Nat
  | .blank => 0x00000000 | .test => 0x0F0F0F0F | .production => 0x3F3F3F3F | .endOfLife => 0xFFFFFFFF

/-- This block's unit identity, LZ_UNIT_ID. -/
def State.ident (s : State) : BitVec 128 := BitVec.ofNat 128 (s.rd .unitId 0 + s.rd .unitId 1 * 2 ^ 64)

end Sys2Proof.Machine
end

