-- ==== Sys2Proof/Machine/PairOps.lean ====
section
/-! DEFINITION. The roots as mirror items (R292, Table 6 of the domain chapter), the pair channel (R291), mirror records
(R294) and cells (R297, R300). The bytes of items whose layout the manual does not give (scalar roots, window slots,
harrow records, cell keys) are laid out here. -/

namespace Sys2Proof.Machine

/-! ### Items -/

/-- A list of numbers as its length and its entries of `n` bytes. -/
def listBytes (n : Nat) (l : List Nat) : Bytes := leBytes 4 l.length ++ (l.map (leBytes n)).flatten

/-- Reads back `k` entries of `n` bytes. -/
def readList (n : Nat) (b : Bytes) : Nat → List Nat
  | 0 => []
  | k + 1 => le b 0 n :: readList n (b.drop n) k

/-- The scalar roots (item 1), 256 B. -/
def State.scalarItem (s : State) : Bytes :=
  let k := s.keys
  let i := s.pair.image
  padTo 256 (leBytes 8 s.rgn.epsrc ++ leBytes 8 k.epochCount ++ bvBytes k.epochSalt ++ leBytes 8 k.serial ++
    leBytes 8 k.metaGen ++ leBytes 4 k.ledgerGen ++ leBytes 1 (if k.copyB then 1 else 0) ++
    leBytes 1 s.life.genCur ++ zeros 2 ++ leBytes 8 (s.fld F.shfSeq_SEQ) ++ leBytes 8 (s.fld F.shfNonce_NONCE) ++
    leBytes 8 (s.fld F.ownEpoch_EPOCH) ++ leBytes 8 s.cfg.ratchet ++ leBytes 8 (s.fld F.pairEpoch_EPOCH) ++
    bvBytes k.meas ++ bvBytes (k.measNext.getD 0) ++ leBytes 8 i.verA ++ leBytes 8 i.verB ++
    leBytes 1 (if i.copyB then 1 else 0))

/-- A region row as stored: its descriptor without references in flight, and the window slot's bits (items 2, 3). -/
def Region.windowBytes (r : Region) : Bytes :=
  (upto 0 128).map fun j => BitVec.ofNat 8
    (((upto 0 8).map fun i => if r.win.any (· % 1024 == 8 * j + i) then 2 ^ i else 0).sum)

/-- The window bits that 128 bytes hold for a region whose window starts at `hwm`. -/
def windowOf (hwm : Nat) (b : Bytes) : NatSet :=
  (upto hwm 1024).filter fun o => bit (le b (o % 1024 / 8) 1) (o % 8)

/-- The region that a row item holds. -/
def Region.ofBytes (b : Bytes) : Region :=
  let w := fun j => le b (8 * j) 8
  let d0 := w 0
  { (Staging.ofBytes b).region with
    state := RState.ofCode (bits d0 2 3), harrow := bit d0 6, kidxNext := bits d0 32 16,
    wslot := if bit d0 61 then some (bits d0 48 13) else none,
    epoch := w 2, hwm := bits (w 3) 0 34, sealIncomplete := bit (w 4) 32, drvRefs := bits (w 7) 0 32,
    digest := BitVec.ofNat 384 (le b 64 48), stamp := w 14 }

/-- Job states and scopes by code (Tables 7 and 11 of the harrow chapter). -/
def JobSt.ofCode (n : Nat) : JobSt := ([.free, .queued, .running, .suspended, .settled] : List JobSt).getD n .free
def Scope.code : Scope → Nat
  | .key => 0 | .region => 1 | .metadata => 2 | .all => 3
def Scope.ofCode (n : Nat) : Scope := ([.key, .region, .metadata, .all] : List Scope).getD n .key

/-- A harrow job record (item 6). -/
def Job.bytes (j : Job) : Bytes :=
  if j.st = .free then []
  else
    leBytes 1 j.st.code ++ leBytes 1 j.scope.code ++
    leBytes 1 ((if j.auto then 1 else 0) + (if j.radio then 2 else 0) + (if j.turned then 4 else 0)) ++ zeros 1 ++
    leBytes 2 j.old ++ leBytes 2 j.new ++ leBytes 8 j.head ++ leBytes 8 j.turnAt ++ leBytes 8 j.moved ++
    leBytes 8 j.order ++ listBytes 2 j.todo ++ listBytes 2 j.passed ++ listBytes 2 (j.thresh.map (·.1)) ++
    (j.thresh.map fun t => leBytes 8 t.2).flatten

/-- The harrow job that a record item holds; its mark is its headland (R165). -/
def Job.ofBytes (b : Bytes) : Job :=
  if le b 0 1 = 0 then {}
  else
    let n1 := le b 40 4
    let b1 := b.drop 44
    let n2 := le (b1.drop (2 * n1)) 0 4
    let b2 := b1.drop (2 * n1 + 4)
    let n3 := le (b2.drop (2 * n2)) 0 4
    let b3 := b2.drop (2 * n2 + 4)
    let f := le b 2 1
    { st := JobSt.ofCode (le b 0 1), scope := Scope.ofCode (le b 1 1), auto := bit f 0, radio := bit f 1,
      turned := bit f 2, old := le b 4 2, new := le b 6 2, head := le b 8 8, mark := le b 8 8, turnAt := le b 16 8,
      moved := le b 24 8, order := le b 32 8, todo := readList 2 b1 n1, passed := readList 2 b2 n2,
      thresh := (readList 2 b3 n3).zip (readList 8 (b3.drop (2 * n3)) n3) }

/-- A re-tag record (item 6). -/
def Retag.bytes (r : Retag) : Bytes :=
  leBytes 1 r.level ++ leBytes 1 r.cursor ++ zeros 2 ++ leBytes 4 r.idx ++ bvBytes r.old.toLine ++ listBytes 1 r.done

/-- The re-tag record that an item holds. -/
def Retag.ofBytes (b : Bytes) : Retag :=
  { level := le b 0 1, cursor := le b 1 1, idx := le b 4 4,
    old := CtrLine.ofLine (BitVec.ofNat 512 (le b 8 64)), done := readList 1 (b.drop 76) (le b 72 4) }

/-- A cell key (item 7): key, cell number, USAGE, SUCC. -/
def Slot.cellBytes (k : Slot) : Bytes :=
  padTo 64 (bvBytes k.key ++ leBytes 4 k.cell ++ leBytes 8 k.usage ++ leBytes 2 k.succ ++ leBytes 1 1)

/-- A gleaner record (Table 7 of the faults chapter). -/
def GlnRec.bytes (r : GlnRec) : Bytes :=
  leBytes 8 r.time ++ leBytes 4 r.seq ++ leBytes 2 r.src ++ leBytes 2 r.code ++ leBytes 1 r.part ++
  leBytes 1 r.flags ++ zeros 2 ++ leBytes 4 r.arg0 ++ leBytes 8 r.arg1

/-- A drill table entry (R293). -/
def Drill.entry (d : Drill) : Bytes :=
  leBytes 1 (1 + if d.owner then 2 else 0) ++ leBytes 1 d.part ++ leBytes 1 d.s ++ leBytes 1 d.p ++ leBytes 1 d.q ++
  zeros 3 ++ leBytes 8 d.version ++ bvBytes d.digest

/-- The index of an on-chip tree line among items 4: the 384 lines of level 4 first, then the six of level 5. -/
def treeIndex (key : Nat) : Nat := if key / 2 ^ 32 = 5 then 384 + key % 2 ^ 32 else key % 2 ^ 32

/-- The roots of Table 6 as they stand: the items whose data are not all zero. -/
def State.mirrorItems (s : State) : Items :=
  let rows := s.rgn.rows
  [((1 : Nat), (0 : Nat), s.scalarItem)]
  ++ (rows.map fun e => (2, e.1, e.2.bytes e.2.drvRefs))
  ++ (rows.filterMap fun e => e.2.wslot.map fun w => (3, w, e.2.windowBytes))
  ++ (s.rgn.tree.map fun e => (4, treeIndex e.1, bvBytes e.2.toLine))
  ++ (s.keys.versions.map fun e => (5, e.1, leBytes 4 e.2))
  ++ (s.harrow.jobs.map fun e => (6, e.1, e.2.bytes))
  ++ ((upto 0 s.harrow.retags.length).zip s.harrow.retags).map (fun e => (6, 16 + e.1, e.2.bytes))
  ++ ((s.keys.slots.filter fun e => decide (e.2.kind = .cell)).map fun e => (7, e.1, e.2.cellBytes))
  ++ (s.faults.ring.map fun e => (8, e.1, e.2.bytes))
  ++ (s.svc.drills.filterMap fun e => e.2.map fun d => (9, e.1, d.entry))

/-- How many items of each type there are, their first index and their data length (Table 6). -/
def itemKinds : List (Nat × Nat × Nat × Nat) :=
  [(1, 0, 1, 256), (2, 0, 16384, 128), (3, 0, 8192, 128), (4, 0, 390, 64), (5, 0, 65536, 4), (6, 0, 24, 64),
   (7, 0xFC00, 1024, 64), (8, 0, 4096, 32), (9, 0, 1024, 64)]

/-- The data of an item in a list of items: zeros when it is not listed. -/
def itemData (is : Items) (t i : Nat) : Bytes :=
  match is.find? fun x => x.1 == t && x.2.1 == i with
  | some x => x.2.2
  | none =>
    match itemKinds.find? (·.1 == t) with
    | some k => zeros k.2.2.2
    | none => []

/-- Every item of Table 6 (R292, R296). -/
def fullItems (is : Items) : Items :=
  (itemKinds.map fun k => (upto k.2.1 k.2.2.1).map fun i => (k.1, i, itemData is k.1 i)).flatten

/-- The items that differ between two snapshots, with the data of the second. -/
def changedItems (old new : Items) : Items :=
  (new.filter fun x => itemData old x.1 x.2.1 != x.2.2) ++
  ((old.filter fun x => !new.any fun y => y.1 == x.1 && y.2.1 == x.2.1).map fun x => (x.1, x.2.1, itemData new x.1 x.2.1))

/-- An item as it stands in a record: type, reserved byte, index, length, two reserved bytes, data. -/
def itemBytes (x : Nat × Nat × Bytes) : Bytes :=
  leBytes 1 x.1 ++ [0] ++ leBytes 2 x.2.1 ++ leBytes 2 x.2.2.length ++ zeros 2 ++ x.2.2

/-- A mirror record (R292): its header and items. -/
def recordBytes (seq step kind : Nat) (is : Items) : Bytes :=
  leBytes 8 seq ++ leBytes 2 step ++ leBytes 1 kind ++ zeros 5 ++ leBytes 4 is.length ++ zeros 4 ++
  (is.map itemBytes).flatten

/-! ### The pair channel -/

/-- Pair CONTROL flows are keyed under the domain epoch while the block is MEMBER, SEAT or FALLOW_HOLD, and under epoch 0
otherwise (R291). -/
def State.pairEpoch0 (s : State) : Bool :=
  match s.dom.state with | .member | .seat | .fallowHold => false | _ => true

/-- Sends a PAIR message of a PTYPE from 4 to 10 to the partner, sealed under the pair link key with the direction bit and
the message counter as IV (R291). Its body may hold cell keys, so only the sealed body is presented (R18). -/
def State.sendPair (s : State) (name : String) (ptype : Nat) (body : Bytes) : State :=
  match s.pairPlot with
  | none => s
  | some p =>
    let dir := if s.ident.toNat < p.partnerId.toNat then 0 else 1
    let iv := leBytes 12 (dir + s.pair.txCount * 2)
    let (ct, tag) := gcmSeal s.pair.linkKey iv [] body
    let data := leBytes 1 ptype ++ [1, 0, 0] ++ leBytes 4 0 ++ leBytes 8 (if s.pairEpoch0 then 0 else s.epochNo) ++
      ct ++ bvBytes tag
    let s := s.withPair { s.pair with txCount := s.pair.txCount + 1 }
    (s.emit (.msg name p.partner (ct ++ bvBytes tag))).sendCtl p.partner s.pairEpoch0
      { mtype := 9, gen := s.life.genCur, data := data }

/-- Sends the next mirror record (R292, R294): the roots changed since the last acknowledged record, or every root when a
full record is due (R296). Its sequence is that of the record. -/
def State.sendRecord (s : State) (step : Nat) (settle : Bool) : State :=
  let snap := s.mirrorItems
  let full := s.pair.fullDue
  let is := if full then fullItems snap else changedItems s.pair.acked snap
  let seq := s.pair.seq + 1
  let b := recordBytes seq step (if settle then 1 else 0) is
  let s := s.count 479 b.length
  let s := s.withPair { s.pair with
    seq := seq, fullDue := false,
    unacked := s.pair.unacked ++ [(⟨seq, step, settle, full, snap⟩ : MirrorRec)] }
  s.sendPair "MIRROR" 5 b

/-- Sends the next mirror record: where a full one is due, which is of kind COMMIT (R296), it goes ahead of the record of
a settle. -/
def State.sendMirror (s : State) (step : Nat) (settle : Bool) : State :=
  if settle && s.pair.fullDue then (s.sendRecord 0 false).sendRecord step true else s.sendRecord step settle

/-- Sixteen records await their acknowledgement (LZ_PAIR_STAT.MIRRORS_OUT), and a further one waits. -/
def State.mirrorsFull (s : State) : Bool := decide (16 ≤ s.pair.unacked.length)

/-- The mirror of a commit starts (R71, R294), at its snapshot: a record while the pair is UP, once there is room for it,
and otherwise the commit completes LOCAL. -/
def State.mirrorCommit (s : State) (step : Nat) : State :=
  let e := { s.stepEnt step with upto := s.mem.accepts }
  if s.pair.state ≠ .up then s.setStepEnt step { e with mirrored := some 2 }
  else if s.mirrorsFull then s.setStepEnt step e
  else (s.setStepEnt step { e with mirrorSeq := some (s.pair.seq + 1) }).sendMirror step false

/-- Roots that changed outside a commit are mirrored while the pair is UP, in a record of their own once there is room for
it: a new cell key before its first use (R297), a stook sequence (R243), a headland (R165). -/
def State.mirrorRoots (s : State) : State :=
  if s.pair.state ≠ .up then s
  else if s.mirrorsFull then s.withPair { s.pair with rootsDue := true }
  else s.sendMirror 0 false

/-- Records that waited for room go out: those of commits, oldest first, and then one for the other roots. -/
def State.mirrorWaiting (s : State) : State :=
  let s := s.stile.commits.foldl (fun s t =>
    let e := s.stepEnt t
    if e.evented && e.mirrored.isNone && e.mirrorSeq.isNone then s.mirrorCommit t else s) s
  if s.pair.rootsDue then (s.withPair { s.pair with rootsDue := false }).mirrorRoots else s

/-- The pair epoch. -/
def State.pairEpochNo (s : State) : Nat := s.fld F.pairEpoch_EPOCH

/-- Sets a cell's role. -/
def State.setCell (s : State) (cell : Nat) (primary : Bool) : State :=
  s.withPair { s.pair with cells := tset none s.pair.cells cell (some primary) }

/-- The cells held PRIMARY. -/
def State.primaryCells (s : State) : List Nat := (s.pair.cells.filter fun e => e.2 == some true).map (·.1)

/-- The partner claims cells that this block also holds PRIMARY (R300): the higher pair epoch wins, then the lower unit
identity; each conflict is counted and recorded, and the higher epoch bears on the next bootstrap. -/
def State.resolveCells (s : State) (cells : List Nat) (epoch : Nat) : State :=
  match s.pairPlot with
  | none => s
  | some p =>
    let mine := s.pairEpochNo
    let lose := decide (mine < epoch) || (decide (mine = epoch) && decide (p.partnerId.toNat < s.ident.toNat))
    (cells.filter fun c => tget none s.pair.cells c == some true).foldl (fun s c =>
      let s := if lose then s.setCell c false else s
      let s := s.withPair { s.pair with conflictEpoch := max s.pair.conflictEpoch (max mine epoch) }
      (s.incFld F.pairErr_CLAIMS).record .dualPrimary .pair 0 none c (max mine epoch)) s

/-- The partner is LOST (R298, R294, R296): this block is PRIMARY for every cell, the pair epoch advances, CLAIMs start,
waiting commits complete LOCAL, headlands advance without their limit (R165); the image is stale unless a DOWN told of
the reset. -/
def State.losePartner (s : State) (byDown : Bool) : State :=
  let s := s.withPair { s.pair with
    state := .lost, claiming := true, cells := s.pair.cells.map fun e => (e.1, e.2.map fun _ => true),
    image := { s.pair.image with stale := s.pair.image.stale || !byDown } }
  let s := s.setFld F.pairEpoch_EPOCH (s.pairEpochNo + 1)
  let ts := (s.stile.steps.filter fun e => e.2.evented && e.2.mirrored.isNone).map (·.1)
  let s := ts.foldl (fun s t => s.setStepEnt t { s.stepEnt t with mirrored := some 2 }) s
  let s := s.harrow.jobs.foldl (fun s e => s.advanceHead e.1) s
  s.record .pairLost .pair 0 none s.pairEpochNo 0

/-- RESTORE_REQ is answered (R296): with the image when the measurement of the partner's P_EVIDENCE is the current or next
one in it, the identity is the plot's, the image is not stale and its lines verify; otherwise with an empty RESTORE, which
is counted. A line that fails makes the image stale (R293). -/
def State.answerRestore (s : State) (p : PairPlot) (imageOk : Bool) (unit : BitVec 128) : State :=
  let s := (s.forgetEpoch0 p.partner).withPair { s.pair with reqWait := none }
  let i := s.pair.image
  let s := if i.held && !imageOk then s.withPair { s.pair with image := { i with stale := true } } else s
  let sc := itemData i.items 1 0
  let m := s.pair.evidence
  let known := decide (m = BitVec.ofNat 384 (le sc 112 48) ∨ (m ≠ 0 ∧ m = BitVec.ofNat 384 (le sc 160 48)))
  if i.held && !s.pair.image.stale && decide (unit = p.partnerId) && known then
    s.sendPair "RESTORE" 8 (recordBytes i.seq 0 (if i.settle then 1 else 0) (fullItems i.items))
  else (s.incFld F.pairErr_RESTORE_REFUSED).sendPair "RESTORE" 8 []

/-- A RESTORE_REQ that came while this block restarted itself is answered (R301). -/
def State.answerWaiting (s : State) : State :=
  match s.pairPlot, s.pair.reqWait with
  | some p, some (ok, unit) => if s.pair.state = .up then s.answerRestore p ok unit else s
  | _, _ => s

/-- The CLAIM record (R299, Table 6a) of this block, signed. -/
def State.claimRecord (s : State) (p : PairPlot) : Bytes × State :=
  let cs := s.primaryCells
  let b := leBytes 4 (s.otpWord 131) ++ ascii "LZCL" ++ [1, 0] ++ leBytes 2 cs.length ++ zeros 4 ++
    bvBytes s.ident ++ bvBytes p.partnerId ++ leBytes 8 s.pairEpochNo ++ leBytes 8 s.life.time ++
    (cs.map (leBytes 4)).flatten
  let (sig, s) := s.signEcdsa b
  (b ++ sig, s)

/-- Cell keys of an applied record are installed as MIRROR keys in cell slots of this block's own (R297); a key already
mirrored takes the partner's USAGE. -/
def State.installCells (s : State) (is : Items) : State :=
  (is.filter fun x => x.1 == 7 && !zeroAt x.2.2 0 x.2.2.length).foldl (fun s x =>
    let b := x.2.2
    match tget none (s.pair.mirrorSlots.map fun e => (e.1, some e.2)) x.2.1 with
    | some slot => s.putSlot slot { s.slot slot with key := BitVec.ofNat 256 (le b 0 32), cell := le b 32 4,
                                                      usage := le b 36 8 }
    | none =>
      match s.freeSlot .cell with
      | none => s
      | some slot =>
        let s := s.withPair { s.pair with mirrorSlots := tput s.pair.mirrorSlots x.2.1 slot }
        s.putSlot slot { kind := .cell, origin := .mirror, noexport := true, dref := 1,
                         key := BitVec.ofNat 256 (le b 0 32), cell := le b 32 4, usage := le b 36 8 }) s

end Sys2Proof.Machine
end

