-- ==== Sys2Proof/Machine/DomOps.lean ====
section
/-! DEFINITION. The operations of the domain agent: a committed epoch (R283, R284), leaving, fallow-hold (R289), and the
units that reset (R290). -/

namespace Sys2Proof.Machine

/-- The generation this block holds for a unit (R290). -/
def State.genOf (s : State) (u : Nat) : Option Nat :=
  s.dom.cur.bind fun e => if e.members.contains u then some (tget 0 e.gens u) else none

/-- A unit is in the current membership (R276). -/
def State.isMember (s : State) (u : Nat) : Bool :=
  match s.dom.cur with
  | some e => e.members.contains u
  | none => false

/-- Ends a domain command with its RESULT (LZ_DOM_CTL). -/
def State.domEnd (s : State) (code : Nat) : State := (s.setFld F.domCtl_RESULT code).setFld F.domCtl_BUSY 0

/-- Lifts the hedges of fallow-hold (Table 1 of the domain chapter). -/
def State.liftFallow (s : State) : State := (upto 0 64).foldl (fun s p => s.removeCause p .fallow) s

/-- Every partition that is not radio is hedged for fallow-hold, with one record (R289, R422). -/
def State.enterFallow (s : State) : State :=
  let s := s.withDom { s.dom with state := .fallowHold, advance := none, advanceBusy := false, exch := none,
                                  joinedAt := s.life.time, admitOk := false }
  let s := s.tenants.foldl (fun s p => s.addCause p .fallow) s
  s.record .fallowHold .domain 0 none (match s.dom.ballot with | some b => b.unit | none => 0) s.epochNo

/-- The agent becomes DETACHED and its epoch keys are destroyed (Table 1): flows under them end. -/
def State.detach (s : State) : State :=
  let tx := s.links.tx.filter fun f => !f.epoch0 && f.lane != 0
  let rx := s.links.rx.filter fun f => !f.epoch0 && f.lane != 0
  let s := tx.foldl State.dropTx s
  let s := rx.foldl State.dropRx s
  s.withDom { s.dom with state := .detached, cur := none, next := none, old := none, advance := none, exch := none,
                         joinBusy := false, leaveBusy := false, advanceBusy := false }

/-- Requests outstanding to members whose generation an epoch has advanced complete GEN_STALE in GENTAG mode (Table 5 of
the domain chapter). -/
def State.staleOuts (s : State) (before : Option EpochKey) (after : EpochKey) : State :=
  let advanced := fun u => before.any fun b =>
    b.members.contains u && after.members.contains u && tget 0 b.gens u != tget 0 after.gens u
  if !s.domPlot.gentag then s
  else
    let hit := s.links.outs.filter fun o => decide (o.lane = 1) && o.entered && advanced o.req.dest.toNat
    hit.foldl (fun s o => s.finishOut o .genStale []) s

/-- COMMIT takes effect at this block (R283, R284): next becomes current, the old key stays for the grace, a unit that the
epoch includes is no longer fenced, a joiner or holder becomes MEMBER with the hedges of fallow-hold lifted, a joiner's first lease runs 2 s from then (R287
gives no other), and a unit that left becomes DETACHED. -/
def State.commitNext (s : State) : State :=
  match s.dom.next with
  | none => s
  | some e =>
    let d := s.dom
    let mine := e.members.contains s.unit
    if d.state = .leaving ∧ !mine then (s.detach).domEnd 0
    else
      let lo := e.epoch % 2 * 2 ^ 20 + 65536
      let clear := fun (t : Tbl Nat) => t.filter fun x => decide (x.1 < lo ∨ lo + 2 ^ 18 ≤ x.1)
      let s := s.withLinks { s.links with txGen := clear s.links.txGen, rxGen := clear s.links.rxGen }
      let joined := decide (d.state = .joining ∨ d.state = .fallowHold) && mine
      let s := s.withDom { d with
        cur := some e, next := none, old := d.cur, fenced := d.fenced.filter fun u => !e.members.contains u,
        state := if joined then .member else d.state, exch := if joined then none else d.exch,
        joinBusy := false, admitOk := d.admitOk && !joined, asked := false,
        leaseEnd := if joined then s.life.time + 2000000000 else d.leaseEnd }
      let s := s.count 478 1
      let s := if joined then s.liftFallow else s
      let s := if d.joinBusy then s.domEnd 0 else s
      s.staleOuts d.cur e

/-- Sends a DOMAIN message under the domain epoch to a member. -/
def State.sendMember (s : State) (name : String) (dtype dest : Nat) (body : Bytes) : State :=
  s.sendDom name dtype dest 0 false body

/-- HELLO to the candidate of a rank (R278, Table 1): none when the ranks are exhausted, nor while the DRBG refuses the
nonce (R194), when the rank is left to its timeout. -/
def State.sendHello (s : State) (rank : Nat) : State :=
  match s.domPlot.cands[rank]? with
  | none => s
  | some u =>
    if !s.drbgOk then s.withDom { s.dom with cand := rank } else
    let id := leBytes 8 (s.rd .unitId 0) ++ leBytes 8 (s.rd .unitId 1)
    let body := leBytes 2 s.unit ++ leBytes 1 s.life.genCur ++ zeros 5 ++ id ++ bvBytes s.domPlot.domId ++
      bvBytes (s.drawn 256)
    let s := s.drew
    let x := s.dom.nextExch
    let s := s.withDom { s.dom with cand := rank, nextExch := x + 1, exch := some { peer := u, exch := x, bodies := body } }
    s.sendDom "HELLO" 1 u x true body

/-- The agent starts joining (Table 1). -/
def State.startJoin (s : State) : State :=
  (s.withDom { s.dom with state := .joining, joinedAt := s.life.time, admitOk := false }).sendHello 0

/-- A unit has reset or its direct link is lost (R290): its flows are DOWN, and in FENCE mode it is marked fenced. -/
def State.unitDown (s : State) (u : Nat) : State :=
  let l := s.links
  let s := s.withLinks { l with
    tx := updWhere (fun (f : TxFlow) => f.dest == u) (fun f => { f with down := true }) l.tx,
    rx := updWhere (fun (f : RxFlow) => f.src == u) (fun f => { f with down := true }) l.rx }
  if s.domPlot.gentag ∨ !s.isMember u then s
  else s.withDom { s.dom with fenced := nsInsert s.dom.fenced u }

end Sys2Proof.Machine
end

