-- ==== Sys2Proof/Machine/Lanes.lean ====
section
/-! DEFINITION. The commands of the memory path: requests, grants, memory controller beats, verdicts, releases,
credits, page moves and metadata. -/

namespace Sys2Proof.Machine

/-! ### Transfers -/

/-- A request that enters the block opens its step's entry, or breaks the step rule of R71 or R126. -/
def State.openStep (s : State) (step part : Nat) : Bool × State :=
  let e := s.stepEnt step
  match e.st with
  | .idle => (false, s.setStepEnt step { st := .opened, part := part })
  | .opened => (e.part != part, s)
  | .committing => (true, s)

/-- Puts a transferred request into its lane's ingress (R119). -/
def State.enqueue (s : State) (t : Txn) : State :=
  let (bad, s) := s.openStep t.req.step.toNat t.req.part.toNat
  { s with mem := { s.mem with ingress := s.mem.ingress ++ [{ t with stepBad := bad }] } }

/-- A request takes the next place in the order of acceptance (R53). -/
def State.accept (s : State) (t : Txn) : Txn × State :=
  ({ t with acc := s.mem.accepts }, s.withMem { s.mem with accepts := s.mem.accepts + 1 })

/-- Refuses a request at its transfer with an item of R57, where it counts as accepted (R53); the first kind is also
counted in LZ_GSTAT. Such a request does not open its step's entry, while a request refused at its grant has opened it
at its transfer (DESIGN CHOICE, log entry 18). -/
def State.refuseEarly (s : State) (t : Txn) (x : Nat × Status) : State :=
  let s := if x.1 = 1 then s.incFld F.gstat_MALFORMED else s
  let (t, s) := s.accept t
  s.refuse t x.2

/-- MEMORY_REQUEST (R51, R54, R55, R57, R119): a request transfers when its class's ready is high; it is refused at
its transfer under items 1 to 5 of R57, or queued; a spanning part waits for its partner and shares its status. -/
def execMemoryRequest (g : Nat) (r : MemReq) (s : State) : Res :=
  if 40 ≤ g ∨ s.mreqReady g r.cls.toNat = false then .next s
  else if s.mem.tids.contains (g * 1024 + r.tid.toNat) then .fault .tidReused
  else
    let t : Txn := { id := s.mem.nextId, lane := (s.laneOf g).getD 63, grp := g, req := r,
                     pre := s.refusedAtTransfer g r }
    let s := { s with mem := { s.mem with tids := (g * 1024 + r.tid.toNat) :: s.mem.tids,
                                          nextId := s.mem.nextId + 1 } }
    if r.span = 1 ∨ r.span = 2 then
      match s.mem.spans.find? fun u => reqPartner u.req r && u.grp != g with
      | none => .next { s with mem := { s.mem with spans := s.mem.spans ++ [t] } }
      | some u =>
        let s := { s with mem := { s.mem with spans := s.mem.spans.filter fun v => !(v.id == u.id) } }
        match firstRefusal u.pre t.pre with
        | some x => .next ((s.refuseEarly u x).refuseEarly t x)
        | none => .next ((s.enqueue u).enqueue t)
    else
      match t.pre with
      | some x => .next (s.refuseEarly t x)
      | none => .next (s.enqueue t)

/-- SPAN_PART_TIMEOUT (R55): a part whose partner has not transferred is refused REGION_FAULT as malformed. -/
def execSpanPartTimeout (g : Nat) (tid : BitVec 10) (s : State) : Res :=
  match s.mem.spans.find? fun u => u.grp == g && u.req.tid == tid with
  | none => .next s
  | some u =>
    let s := { s with mem := { s.mem with spans := s.mem.spans.filter fun v => !(v.id == u.id) } }
    .next (s.refuseEarly u (1, .regionFault))

/-! ### Evictions -/

/-- A metadata line stays in the counter cache: that of a radio TILLED region (R37), a node with a re-tag record (R106),
and the counter line of a page that the harrow fetches for a move or has closed (R152). -/
def State.pinnedMeta (s : State) (level idx : Nat) : Bool :=
  s.radioMeta level idx || (s.retagOf level idx).isSome ||
  (level == 1 && (s.mem.closed.any (fun x => s.spanPage x.page == idx) ||
    s.harrow.jobs.any fun e => match e.2.todo with
      | row :: _ => e.2.fetching.any fun q => s.spanPage ((s.row row).base * pagesPerGranule + q) == idx
      | [] => false))

/-- A dirty metadata line is written back under its parent's entry, and leaves the cache (R106): the metadata key is
charged. -/
def State.writeBack (s : State) (level idx : Nat) (c p : CtrLine) : State :=
  let line := s.metaLine level idx
  let g := s.groupOf (line * 64)
  let v := c.toLine
  let sb := metaSb (s.metaKeyFor line) line level p.major (p.minor (idx % 64)) v
  (((s.count 451 1).uncache level idx).offer g ((s.laneOf g).getD 0) (.mwrite level idx) line 1 [(v, sb)]
    false).chargeMeta

/-- A resident metadata line leaves the cache; a dirty one first advances its entry in its parent, which is fetched when
absent, and is written back under the new entry; an entry at 127 overflows the node, which takes a re-tag record or, with
none free, keeps the line waiting (R106). -/
def State.evict (s : State) (level idx : Nat) : State :=
  match s.cachedNode level idx with
  | none => s
  | some c =>
    if level = 0 ∨ 4 ≤ level ∨ s.pinnedMeta level idx then s
    else if !c.dirty then s.uncache level idx
    else
      match s.node 4 (level + 1) (idx / 64) with
      | none => s.fetchMeta (level + 1) (idx / 64)
      | some p =>
        let i := idx % 64
        match s.retagOf (level + 1) (idx / 64) with
        | some t =>
          let p' := if t.cursor ≤ i ∧ !t.done.contains i then p else p.setMinor i (p.minor i + 1)
          let s := s.setNode (level + 1) (idx / 64) p'
          let mark := updWhere (fun (x : Retag) => x.level == level + 1 && x.idx == idx / 64)
            (fun x => { x with done := nsInsert x.done i })
          ({ s with harrow := { s.harrow with retags := mark s.harrow.retags } }).writeBack level idx c.line p'
        | none =>
          if p.minor i < 127 then
            let p' := p.setMinor i (p.minor i + 1)
            (s.setNode (level + 1) (idx / 64) p').writeBack level idx c.line p'
          else if s.harrow.retags.length < 8 then
            let (major, s) := s.drawEpoch
            let p' : CtrLine := ⟨major, p.minors.map fun m => if m = 0 then 0 else 1⟩
            let s := s.setNode (level + 1) (idx / 64) p'
            let rec_ : Retag := { level := level + 1, idx := idx / 64, old := p, cursor := 0, done := [i] }
            ({ s with harrow := { s.harrow with retags := s.harrow.retags ++ [rec_] } }).writeBack level idx c.line p'
          else s

/-- The set of the counter cache that a key of the cache falls in. -/
def cacheSetOf (k : Nat) : Nat := Config.cacheSet (k / 2 ^ 32) (k % 2 ^ 32) % 16384

/-- The counter cache keeps its size (R21): 16 MiB in 16 ways, 16,384 sets. A set with more lines than ways loses one
that is not pinned; which one is not defined. -/
def State.fitCache (s : State) : State :=
  if s.rgn.cache.length ≤ 16 then s
  else
    s.rgn.cache.foldl (fun s e =>
      let same := s.rgn.cache.filter fun x => cacheSetOf x.1 == cacheSetOf e.1
      let may := same.filter fun x => !s.pinnedMeta (x.1 / 2 ^ 32) (x.1 % 2 ^ 32)
      if same.length ≤ 16 ∨ may.isEmpty then s
      else
        let v := (may.getD ((s.freeVal 16).toNat % may.length) e).1
        s.freed.evict (v / 2 ^ 32) (v % 2 ^ 32)) s

/-! ### Arbitration -/

/-- Another lane still holds a write of one of a request's lines, in its write buffer or hold buffer (R142). -/
def State.elsewhere (s : State) (t : Txn) : Bool :=
  let lo := reqLine t.req
  s.mem.wbuf.any (fun w => w.lane != t.lane && decide (lo ≤ w.line ∧ w.line < lo + reqLines t.req)) ||
  s.mem.held.any fun h => match h.what with
    | .mem u _ => u.lane != t.lane && reqOverlap u.req t.req
    | _ => false

/-- A waiting request may not be granted: its page is locked (R108) or closed (R152), an ATOMIC holds its line (R263),
an earlier write to one of its lines waits for a credit (R187), another lane still holds a write of its lines (R142), or
it is a write that finds the write buffer full (R121) or, from a peer, a held write of its lines (Table 5). -/
def State.blocked (s : State) (t : Txn) : Bool :=
  let page := reqPage t.req
  let radio := t.req.cls == 0
  s.pageLocked page radio || (!radio && s.pageClosed page) ||
  s.mem.reads.any (fun r => r.txn.remote.isSome && r.txn.req.write &&
    decide (reqLine r.txn.req < reqLine t.req + reqLines t.req ∧ reqLine t.req ≤ reqLine r.txn.req)) ||
  s.mem.waitCredit.any (fun w => w.1.any fun u => reqOverlap u.req t.req) ||
  s.elsewhere t ||
  (t.req.write && (!s.wbufRoom t.lane (reqLines t.req) || (t.remote.isSome && s.heldLine t.req)))

/-- The partition a waiting request is charged to (R139). -/
def State.chargePart (s : State) (t : Txn) : Nat :=
  match t.remote with
  | none => t.req.part.toNat
  | some _ => (s.row (s.rowOf t)).part

/-- What the arbiter of a lane sees of its ingress: of the requests of peers, those in the first 64 headers and 1,024
lines of write data (R118); the others wait at their ports. -/
def seen : (headers lines : Nat) → List Txn → List Txn
  | _, _, [] => []
  | h, l, t :: rest =>
    let k := if t.req.write then reqLines t.req else 0
    if t.remote.isNone then t :: seen h l rest
    else if h = 0 ∨ l < k then seen 0 0 rest
    else t :: seen (h - 1) (l - k) rest

/-- The requests in a lane's ingress queues, in transfer order. -/
def State.queued (s : State) (n : Nat) : List Txn := seen 64 1024 (s.mem.ingress.filter fun t => t.lane == n)

/-- The INFER, BULK and class 3 requests of a lane that may be granted, in transfer order. A request that may not be
granted yet stands aside for later ones of its queue, which are to other lines (DESIGN CHOICE, log entry 22). -/
def State.waiting (s : State) (n : Nat) : List Txn := (s.queued n).filter fun t => t.req.cls != 0 && !s.blocked t

/-- The oldest RADIO request of a lane, which no later one passes (R50), if it may be granted. -/
def State.radioHead (s : State) (n : Nat) : Option Txn :=
  ((s.queued n).find? fun t => t.req.cls == 0).filter fun t => !s.blocked t

/-- The oldest of a list of requests of a partition and class; a class 3 request waits with BULK (R50). -/
def State.queueHead (s : State) (ws : List Txn) (p cls : Nat) : Option Txn :=
  ws.find? fun t => s.chargePart t == p && (t.req.cls.toNat == cls || (cls == 2 && t.req.cls.toNat == 3))

/-- The burst of a partition's bucket, in units of 1/61,440 line; below 4 KiB counts as 4 KiB (R138). -/
def State.burst (s : State) (p : Nat) : Nat := max 4 (s.fld F.partRate_BURST p) * 16 * 61440

/-- A partition's tokens in a lane; none when its rate is not limited. -/
def State.tokens (s : State) (n p : Nat) : Option Nat :=
  if s.fld F.partRate_RATE p = 0 then none
  else some (min ((tget none (s.lane n).bucket p).getD (s.burst p)) (s.burst p))

/-- A request of `k` lines is eligible in its partition's bucket (R138). -/
def State.eligible (s : State) (n p k : Nat) : Bool :=
  match s.tokens n p with
  | none => true
  | some x => decide (k * 61440 ≤ x)

/-- Deficit round robin over the 64 partitions (R137): the request chosen, with the pointer and deficits after.
`left` counts the visits since the last refill. -/
def State.drr (s : State) (n cls : Nat) (ws : List Txn) : (fuel left ptr : Nat) → Tbl Nat → Option Txn × Nat × Tbl Nat
  | 0, _, ptr, d => (none, ptr, d)
  | _ + 1, 0, ptr, d => (none, ptr, d)
  | fuel + 1, left + 1, ptr, d =>
    let next := (ptr + 1) % 64
    match s.queueHead ws ptr cls with
    | none => s.drr n cls ws fuel left next (tset 0 d ptr 0)
    | some t =>
      let k := reqLines t.req
      if !s.eligible n ptr k then s.drr n cls ws fuel left next d
      else if k ≤ tget 0 d ptr then (some t, ptr, tset 0 d ptr (tget 0 d ptr - k))
      else s.drr n cls ws fuel 64 next (tset 0 d ptr (tget 0 d ptr + s.weight ptr))

/-- What the arbiter chose. -/
inductive Choice where
  | radio (t : Txn)
  | work (t : Txn) (lane : Lane)
  | maint (m : Maint) (lane : Lane)
  | none (lane : Lane)
  deriving DecidableEq, Repr

/-- Removes the first MAINT item that satisfies a test. -/
def dropMaint (p : Maint → Bool) : List Maint → List Maint
  | [] => []
  | m :: t => if p m then t else m :: dropMaint p t

/-- The choice of R135 for lane `n`, after its refills: RADIO first; priority MAINT; MAINT with credit; INFER, then
BULK, by deficit round robin; MAINT in an idle cycle. -/
def State.choose (s : State) (n : Nat) : Choice :=
  let l := s.lane n
  let ws := s.waiting n
  match s.radioHead n with
  | some t => .radio t
  | none =>
    match l.maint.find? (·.prio) with
    | some m => .maint m { l with maint := dropMaint (·.prio) l.maint, credit := l.credit - 1000 * grantCycles m.lines }
    | none =>
      let ordinary : Unit → Choice := fun _ =>
        match s.drr n 1 ws 8192 64 l.ptrInfer l.defInfer with
        | (some t, p, d) => .work t { l with ptrInfer := p, defInfer := d }
        | (none, p1, d1) =>
          match s.drr n 2 ws 8192 64 l.ptrBulk l.defBulk with
          | (some t, p, d) => .work t { l with ptrInfer := p1, defInfer := d1, ptrBulk := p, defBulk := d }
          | (none, p2, d2) =>
            match l.maint with
            | m :: rest => .maint m { l with maint := rest, ptrInfer := p1, defInfer := d1, ptrBulk := p2, defBulk := d2 }
            | [] => .none { l with ptrInfer := p1, defInfer := d1, ptrBulk := p2, defBulk := d2 }
      match l.maint with
      | m :: rest =>
        if 0 < l.credit then
          .maint m { l with maint := rest, credit := l.credit - 1000 * grantCycles m.lines, harrowNext := true }
        else ordinary ()
      | [] => ordinary ()

/-- The harrow has pages to move: a job runs over a region or over the metadata area. -/
def State.harrowWaits (s : State) : Bool :=
  s.harrow.jobs.any fun e => decide (e.2.st = .running ∧ (e.2.scope = .metadata ∨ e.2.todo ≠ []))

/-- The refills of `cycles` eng-cycles (R135, R138): MAINT credit by the share while MAINT waits, up to 32 cycles, and
every limited bucket by a fortieth of its rate, up to its burst. -/
def State.refill (s : State) (n cycles : Nat) : State :=
  let l := s.lane n
  let credit : Int :=
    if cycles = 0 then l.credit
    else if l.maint.isEmpty && !s.harrowWaits then min l.credit 0
    else min (l.credit + s.fld F.hrwShare_SHARE * cycles) 32000
  let bucket := l.bucket.map fun e => (e.1, e.2.map fun x =>
    min (x + s.fld F.partRate_RATE e.1 * cycles) (s.burst e.1))
  s.setLane n { l with credit := credit, bucket := bucket }

/-! ### Grants -/

/-- The line-writes of a lane's credit for a slot that held writes will take at their release (R130). -/
def State.promised (s : State) (lane slot : Nat) : Nat :=
  (s.mem.held.map fun h => match h.what with
    | .mem t row =>
      if t.lane = lane then
        (((s.slotsOf row (reqLine t.req) (reqLines t.req)).filter fun k => k.1 == slot).map (·.2)).sum
      else 0
    | _ => 0).sum

/-- The shortfalls of a write's credits, beyond what held writes will take: lane, slot (R130, R187). -/
def State.shortfalls (s : State) (ts : List Txn) (row : Nat) : List CreditReq :=
  (ts.map fun t => ((s.slotsOf row (reqLine t.req) (reqLines t.req)).filter fun k =>
    decide (s.credit t.lane k.1 < s.promised t.lane k.1 + k.2)).map fun k => (⟨t.lane, k.1⟩ : CreditReq)).flatten

/-- An exhausted key with no job able to move its region is reported once (R164, KEY_STUCK). -/
def State.reportStuck (s : State) (row slot : Nat) : State :=
  if s.inJob row ∨ s.keys.stuck.contains slot ∨ s.keys.autoWait.contains slot then s
  else
    ({ s with keys := { s.keys with stuck := nsInsert s.keys.stuck slot } }).record .keyStuck .key 0 none slot 0

/-- A write whose usage check comes due: refused KEY_EXHAUSTED when a shortfall has no credit request out, left
waiting when it has, carried out otherwise (R164, R187). -/
def State.usageCheck (s : State) (ts : List Txn) (row : Nat) : State :=
  let short := s.shortfalls ts row
  if short.isEmpty then ts.foldl State.takeWrite s
  else if short.any fun c => s.keys.creditReqs.contains c then
    { s with mem := { s.mem with waitCredit := s.mem.waitCredit ++ [(ts, row)] } }
  else
    let s := (s.incFld F.hrwErr_EXHAUSTED_WR).reportStuck row ((short.map (·.slot)).headD 0)
    ts.foldl (fun s t => s.refuse t .keyExhausted) s

/-- A peer's request refused KEY_MISMATCH by its capability check is counted in LZ_FAB_ERR (R265). -/
def State.countCapFail (s : State) (t : Txn) (st : Status) : State :=
  match t.remote with
  | some m =>
    if st = .keyMismatch && !s.capCheck m t.req.kidx.toNat t.req.part.toNat then s.incFld F.fabErr_CAP_FAIL else s
  | none => s

/-- The capability key of an admitted peer's request is charged one unit (R176, R265); at its limit the request is
refused. -/
def State.chargeCap (s : State) (t : Txn) : Bool × State :=
  match t.remote with
  | none => (true, s)
  | some _ =>
    let k := t.req.kidx.toNat
    if (s.slot k).limit ≤ (s.slot k).usage then (false, s) else (true, s.chargeSlot k 1)

/-- The key-cache lookup of a request (R26): it starts from the request's key index, before the region's check. -/
def State.lookUpKey (s : State) (t : Txn) : State :=
  let k := t.req.kidx.toNat
  if (s.slot k).kind = .empty then s
  else (if s.keys.cached.contains k then s else s.count (4 * t.grp + 3) 1).touchKey k (Src.lane.at t.lane)

/-- The schedules of the keys that protect the lines of an admitted request are brought into the key cache (R26,
R150). -/
def State.lookUpLines (s : State) (t : Txn) (row : Nat) : State :=
  (s.slotsOf row (reqLine t.req) (reqLines t.req)).foldl (fun s k =>
    if (s.slot k.1).kind = .empty then s else s.touchKey k.1 (Src.lane.at t.lane)) s

/-- A granted request, one part or two (R112, R55): refused with the first status in the order of R57 that a part
meets, or carried out. -/
def State.serve (s : State) (ts : List Txn) : State :=
  let s := ts.foldl State.lookUpKey s
  match (ts.map s.admitCheck).foldl firstRefusal none with
  | some x =>
    let s := ts.foldl (fun s t => s.countCapFail t x.2) s
    ts.foldl (fun s t => s.refuse t x.2) s
  | none =>
    match ts with
    | [] => s
    | t :: rest =>
      let row := s.rowOf t
      let s := ts.foldl (fun s t => s.lookUpLines t row) s
      let (within, s) := s.chargeCap t
      if !within then (if t.req.write then s.incFld F.hrwErr_EXHAUSTED_WR else s).refuse t .keyExhausted
      else if t.req.write then
        let s := (s.shortfalls ts row).foldl (fun s c => s.askCredit c.lane c.slot) s
        s.usageCheck ts row
      else s.takeRead t rest.head?

/-- Every 1,024th request granted on a lane is traced (R437, REQ_SAMPLE). -/
def State.sampleGrant (s : State) (t : Txn) : State :=
  let n := tget 0 s.obs.sample t.lane + 1
  let s := { s with obs := { s.obs with sample := tset 0 s.obs.sample t.lane (n % 1024) } }
  if n < 1024 then s
  else
    let r := t.req
    s.trace 7 1 (Src.lane.at t.lane) (some r.part.toNat) r.kidx.toNat
      (r.cls.toNat + (if r.write then 4 else 0) + r.len.toNat * 8 + r.step.toNat * 512) r.addr.toNat

/-- A grant takes a request out of the ingress; a spanning part waits for its partner's grant (R55). The request is
accepted there, and a write's hold is decided (R127). -/
def State.grant (s : State) (t : Txn) : State :=
  let s := (s.count (320 + 2 * s.chargePart t) (reqLines t.req)).sampleGrant t
  let (t, s) := s.accept t
  let t : Txn := { t with gate := s.gateOf t }
  let s := { s with mem := { s.mem with ingress := s.mem.ingress.filter fun u => !(u.id == t.id) } }
  if (t.req.span = 1 ∨ t.req.span = 2) ∧ t.remote.isNone then
    match s.mem.spanGranted.find? fun u => reqPartner u.req t.req with
    | none => { s with mem := { s.mem with spanGranted := s.mem.spanGranted ++ [t] } }
    | some u =>
      let s := { s with mem := { s.mem with spanGranted := s.mem.spanGranted.filter fun v => !(v.id == u.id) } }
      s.serve (if t.req.span = 1 then [t, u] else [u, t])
  else s.serve [t]

/-- Debits a partition's bucket by a grant's lines (R138). -/
def State.debit (s : State) (n p k : Nat) : State :=
  match s.tokens n p with
  | none => s
  | some x =>
    let l := s.lane n
    s.setLane n { l with bucket := tset none l.bucket p (some (x - k * 61440)) }

/-- MAINT work is granted: its access is offered to the memory controller; work that makes none here is complete
(LZ_LANE_STAT.PROGRESS). -/
def State.grantMaint (s : State) (n : Nat) (m : Maint) : State :=
  match m.access with
  | some a => s.withMem { s.mem with accesses := s.mem.accesses ++ [a] }
  | none => s.laneProgress n

/-- The effect of the arbiter's choice (R135, R457): a grant other than RADIO above the throttle's budget is withheld and
changes no arbiter state. -/
def State.carryOut (s : State) (n : Nat) : Choice → State
  | .none l => s.setLane n l
  | .radio t => ((s.spend (grantEnergy (grantCycles (reqLines t.req)))).grant t).fitCache
  | .maint m l =>
    let e := grantEnergy (grantCycles m.lines)
    if s.fits e then ((s.setLane n l).spend e).grantMaint n m else s.withhold
  | .work t l =>
    let e := grantEnergy (grantCycles (reqLines t.req))
    if s.fits e then ((((s.setLane n l).debit n (s.chargePart t) (reqLines t.req)).spend e).grant t).fitCache
    else s.withhold

/-- LANE_GRANT (R135, R137, R138, R457): after `cycles` eng-cycles of refills, lane `n` grants what the arbiter
chooses. -/
def execLaneGrant (n : Nat) (cycles : Nat) (s : State) : Res :=
  if 44 ≤ n then .next s
  else
    let s := s.refill n cycles
    .next (s.carryOut n (s.choose n))

/-- THROTTLE_WINDOW (R457, R465): the window's estimate sets the next budget; THROTTLING and DELAYED tell whether a
grant was withheld in it; a RAMP written before now governs from here. -/
def execThrottleWindow (s : State) : Res :=
  let t := s.throttle
  let s := if t.withheld then s.incFld F.pwrRamp_DELAYED else s
  .next { s with throttle := { estimate := 0, prev := t.estimate, ramp := s.fld F.pwrRamp_RAMP, withheld := false,
                               throttling := t.withheld } }

/-! ### Beats and verdicts -/

/-- Removes an access by tag and group. -/
def State.dropAccess (s : State) (a : Access) : State :=
  { s with mem := { s.mem with accesses := s.mem.accesses.filter fun b => !(b.grp == a.grp && b.tag == a.tag) } }

/-- The accepted read access that a returned tag names (R59). -/
def State.accessOf (s : State) (g : Nat) (tag : BitVec 12) : Option Access :=
  s.mem.accesses.find? fun a => a.grp == g && a.tag == tag && a.accepted

/-- Stores a returned line into the lines of a read or move that wait for it. -/
def storeLine (line : Nat) (c : Line) (sb : BitVec 64) (err : Bool) (ls : List LineRd) : List LineRd :=
  updWhere (fun l => l.line == line && (decide (l.st = .wait) || decide (l.st = .again)))
    (fun l => { l with st := if l.st = .wait then .got c sb err else .regot c sb err }) ls

/-- Presents the data of an early-released read once its plaintext is available (R29, R53). -/
def State.tryEarly (s : State) (id : Nat) : State :=
  match s.mem.reads.find? fun r => r.txn.id == id with
  | none => s
  | some r =>
    if r.early && !r.queued && s.plainReady r then
      (s.setRead { r with queued := true }).presentEarly { r with queued := true }
    else s

/-- DMC_READ_DATA (R58, R59): a beat of an accepted access returns; its lines join the read, re-read or page move the
access serves, and early-released data is presented when its plaintext is available. -/
def execDmcReadData (g : Nat) (tag : BitVec 12) (b : DmcBeat) (s : State) : Res :=
  match s.accessOf g tag with
  | none => .next s
  | some a =>
    if a.n ≤ a.got then .next s
    else
      let l0 := a.line + a.got
      let upd := fun ls =>
        let ls := storeLine l0 b.lo b.sbLo b.err ls
        if a.got + 1 < a.n then storeLine (l0 + 1) b.hi b.sbHi b.err ls else ls
      let s := { s with mem := { s.mem with
        accesses := updWhere (fun x => x.grp == g && x.tag == tag) (fun x => { x with got := x.got + 2 }) s.mem.accesses } }
      let s := if a.maint ∧ a.n ≤ a.got + 2 then s.laneProgress a.lane else s
      match a.purpose with
      | .read id | .reread id _ =>
        let s := { s with mem := { s.mem with
          reads := updWhere (·.txn.id == id) (fun r => { r with lines := upd r.lines }) s.mem.reads } }
        .next (s.tryEarly id)
      | .move n p | .remove n p _ =>
        .next { s with mem := { s.mem with
          moves := updWhere (fun m => m.lane == n && m.page == p) (fun m => { m with lines := upd m.lines }) s.mem.moves } }
      | .diag p _ =>
        .next { s with mem := { s.mem with
          diags := s.mem.diags.map fun d => if d.1 = p then (p, (upd [d.2]).headD d.2) else d } }
      | .mdata _ _ | .remdata _ _ | .write | .mwrite _ _ => .next s

/-- Writes the TAG_FIRST record of a first failure once its re-read's verdict is known (R467), and counts a re-read
that verified. -/
def State.tagFirst (s : State) (lane part line : Nat) (verified metadata reh : Bool) : State :=
  let s := if verified then (if reh then s else s.incFld F.laneErr_REREAD_OK lane) else s
  let sev : Sev := if verified && s.fld F.laneCtl_REREAD_EVT lane == 0 then .info else .notice
  s.stage ⟨.lane, lane, .tagFirst, sev, some part, (if verified then 1 else 0) + (if metadata then 2 else 0), line * 64,
    reh⟩

/-- A read's verdict reaches the stile (R128): it blocks nothing any more. -/
def State.passRead (s : State) (step id : Nat) : State :=
  let e := s.stepEnt step
  let s := if e.pend.contains id then s.setStepEnt step { e with pend := e.pend.filter (· != id) } else s
  { s with mem := { s.mem with held := s.mem.held.map fun h => { h with deps := h.deps.filter (· != id) } } }

/-- An armed injection is taken by the verdict of its line (R424), unless the line fails in earnest. -/
def State.takeInjection (s : State) (id : Nat) (l : LineRd) (c : Line) (sb : BitVec 64) (err : Bool) : State :=
  match s.faults.tagInject with
  | some i =>
    let real := !err && (l.clear || match l.ctr with
      | some k => lineOk (s.slot l.slot).key l.line k c sb
      | none => false)
    if i.line = l.line ∧ i.taken.isNone ∧ real then
      ({ s with faults := { s.faults with tagInject := some { i with taken := some id } } }).incFld F.fltRehearsal_TAG
    else s
  | none => s

/-- The first-attempt verdict of one line of a read: its plaintext, or a re-read (R31, R124). -/
def State.judgeLine (s : State) (lane id : Nat) (radioRead : Bool) (l : LineRd) : LineRd × State :=
  match l.st with
  | .got c sb err =>
    let ok := s.lineVerdict l c sb err false
    let s := s.takeInjection id l c sb err
    if ok then
      ({ l with st := .known (s.plainOf l c) }, s)
    else
      let g := s.groupOf (l.line * 64)
      ({ l with st := .again, failed1 := true, first := some (s.plainOf l c) },
        s.offer g ((s.laneOf g).getD lane) (.reread id l.line) l.line 1 [] radioRead)
  | _ => (l, s)

/-- Judges the lines of a list in order. -/
def State.judgeLines (s : State) (lane id : Nat) (inAcc : Nat → Bool) : List LineRd → List LineRd × State
  | [] => ([], s)
  | l :: t =>
    let (l', s) := if inAcc l.line then s.judgeLine lane id true l else (l, s)
    let (t', s) := s.judgeLines lane id inAcc t
    (l' :: t', s)

/-- Judges the lines of a page move; a line that fails is re-read (R108). -/
def State.judgeMove (s : State) (m : Move) (inAcc : Nat → Bool) : List LineRd → List LineRd × State
  | [] => ([], s)
  | l :: t =>
    let (l', s) := match l.st with
      | .got c sb err =>
        if !inAcc l.line then (l, s)
        else if s.lineVerdict l c sb err false then ({ l with st := .known (s.plainOf l c) }, s)
        else
          let g := s.groupOf (l.line * 64)
          ({ l with st := .again, failed1 := true },
            s.offer g ((s.laneOf g).getD m.lane) (.remove m.lane m.page l.line) l.line 1 [] true)
      | _ => (l, s)
    let (t', s) := s.judgeMove m inAcc t
    (l' :: t', s)

/-- TAG_VERDICT (R94, R31, R124, R125): with every beat of a data access returned and its counters verified, each of
its lines passes or is re-read; a read with every line verified is released; an early-released read passes its step's
gate, or poisons its step at once. -/
def execTagVerdict (g : Nat) (tag : BitVec 12) (s : State) : Res :=
  match s.accessOf g tag with
  | none => .next s
  | some a =>
    if a.got < a.n then .next s
    else
      let inAcc := fun l => decide (a.line ≤ l ∧ l < a.line + a.n)
      match a.purpose with
      | .read id =>
        match s.mem.reads.find? fun r => r.txn.id == id with
        | none => .next (s.dropAccess a)
        | some r =>
          if r.lines.any (fun l => inAcc l.line && l.ctr.isNone && !(match l.st with | .known _ | .bad => true | _ => false)) then
            .next s
          else
            let s := s.dropAccess a
            let (ls, s) := s.judgeLines r.txn.lane id inAcc r.lines
            let r' := { r with lines := ls }
            let failed := ls.any fun l => inAcc l.line && decide (l.st = .again)
            let step := r.txn.req.step.toNat
            if r.early then
              let s := s.setRead r'
              if failed then
                let line := ((ls.filter fun l => decide (l.st = .again)).map (·.line)).foldl min (2 ^ 40)
                let s := if s.injected id then s.incFld F.fltRehearsal_POISON else s
                .next (((s.setRead { r' with judged := true }).passRead step id).poisonStep step line)
              else if r'.settled then
                let s := if r.judged then s else r'.fill s
                .next (({ s with mem := { s.mem with reads := s.mem.reads.filter fun x => !(x.txn.id == id) } }).passRead step id)
              else .next s
            else if r'.settled then .next (s.finishRead r')
            else .next (s.setRead r')
      | .move n p =>
        match s.mem.moves.find? fun m => m.lane == n && m.page == p with
        | none => .next (s.dropAccess a)
        | some m =>
          let s := s.dropAccess a
          let (ls, s) := s.judgeMove m inAcc m.lines
          .next { s with mem := { s.mem with
            moves := updWhere (fun m => m.lane == n && m.page == p) (fun m => { m with lines := ls }) s.mem.moves } }
      | _ => .next s

/-- READ_RELEASE (R53): of the responses that wait on a group's channel, the RADIO one goes first, otherwise the one
accepted earlier; a provisional response makes its read provisional for the stile (R127). -/
def execReadRelease (g : Nat) (s : State) : Res :=
  let mine := s.mem.rsps.filter (·.grp == g)
  let best := fun (l : List Rsp) => l.foldl (fun (b : Option Rsp) x =>
    match b with
    | none => some x
    | some y => if x.ord < y.ord then some x else some y) none
  let pick := match best (mine.filter (·.radio)) with
    | some x => some x
    | none => best mine
  match pick with
  | none => .next s
  | some x =>
    let s := { s with mem := { s.mem with rsps := s.mem.rsps.filter fun y => !(y.id == x.id && y.grp == g) } }
    let s := ((s.emit (.mrsp g x.tid x.status (beatsFrom 0 x.data) x.prov)).freeTid g x.tid).laneProgress x.lane
    match s.mem.reads.find? fun r => r.txn.id == x.id && x.prov && !r.judged with
    | none => .next s
    | some r =>
      let step := r.txn.req.step.toNat
      let e := s.stepEnt step
      .next ((s.setRead { r with presented := true }).setStepEnt step { e with pend := nsInsert e.pend x.id })

/-- The verdict of a re-read line: its plaintext, or failure for good. -/
def State.secondVerdict (s : State) (l : LineRd) : Option (Bool × LineRd) :=
  match l.st with
  | .regot c sb err =>
    let ok := s.lineVerdict l c sb err true
    some (ok, { l with st := if ok then .known (s.plainOf l c) else .bad })
  | _ => none

/-- The verdict of a harrow move's diagnostic re-read (R124, R154): a data line under its key and counter block, a
metadata line under its parent's entry; none while it has not returned. -/
def State.diagVerdict (s : State) (d : Nat × LineRd) : Option Bool :=
  match d.2.st with
  | .regot c sb err =>
    match d.2.ctr, s.metaAt d.2.line with
    | none, some (level, idx) =>
      (match s.parentEntry level idx with
      | some (major, minor) => some (!err && metaOk (s.metaKeyFor d.2.line) d.2.line level major minor c sb)
      | none => some false)
    | _, _ => some (s.lineVerdict d.2 c sb err true)
  | _ => none

/-- REREAD_VERDICT (R31, R125, R467): the re-read of a line verifies or fails for good; TAG_FIRST is recorded; a read
with no line open completes OK with the re-read data, or POISON; a diagnostic re-read, of an early-released read or of a
harrow move, ends there; a page move marks the line (R108). -/
def execRereadVerdict (g : Nat) (tag : BitVec 12) (s : State) : Res :=
  match s.accessOf g tag with
  | none => .next s
  | some a =>
    match a.purpose with
    | .reread id line =>
      match s.mem.reads.find? fun r => r.txn.id == id with
      | none => .next (s.dropAccess a)
      | some r =>
        match (r.lines.find? (·.line == line)).bind s.secondVerdict with
        | none => .next s
        | some (ok, l') =>
          let s := (s.dropAccess a).tagFirst a.lane r.txn.req.part.toNat line ok false (s.injected id)
          let r' := { r with lines := updWhere (·.line == line) (fun _ => l') r.lines }
          if r.early then
            if r'.settled then
              .next (({ s with mem := { s.mem with reads := s.mem.reads.filter fun x => !(x.txn.id == id) } }).endInjection id)
            else .next (s.setRead r')
          else if r'.settled then .next (s.finishRead r')
          else .next (s.setRead r')
    | .remove n p line =>
      match s.mem.moves.find? fun m => m.lane == n && m.page == p with
      | none => .next (s.dropAccess a)
      | some m =>
        match (m.lines.find? (·.line == line)).bind s.secondVerdict with
        | none => .next s
        | some (ok, l') =>
          let s := (s.dropAccess a).tagFirst a.lane (s.row m.row).part line ok false false
          .next { s with mem := { s.mem with
            moves := updWhere (fun m => m.lane == n && m.page == p)
              (fun m => { m with lines := updWhere (·.line == line) (fun _ => l') m.lines }) s.mem.moves } }
    | .diag p line =>
      match s.mem.diags.find? fun d => d.1 == p && d.2.line == line with
      | none => .next (s.dropAccess a)
      | some d =>
        match s.diagVerdict d with
        | none => .next s
        | some ok =>
          let s := (s.dropAccess a).tagFirst a.lane p line ok d.2.ctr.isNone false
          .next { s with mem := { s.mem with diags := s.mem.diags.filter fun x => !(x.1 == p && x.2.line == line) } }
    | _ => .next s

/-! ### Metadata -/

/-- Gives the reads and completed writes that wait for counters what the block now knows (R106, R123). -/
def State.resolveReads (s : State) : State :=
  let fix := fun (s : State) (r : Rd) => { r with lines := r.lines.map fun l =>
    if l.ctr.isSome then l
    else match l.st with
      | .wait | .got _ _ _ =>
        (match s.counterOf (l.line / 64) with
        | none => l
        | some c =>
          let reg := s.row r.row
          let c := c.under reg.epoch
          let m := c.minor (l.line % 64)
          if m = 0 then { l with st := .known 0 }
          else if s.mem.poisoned.contains l.line then { l with st := .bad }
          else { l with ctr := some ⟨3, c.major, m⟩, slot := s.lineSlot r.row (reg.offset l.line) c.major })
      | _ => l }
  let s := { s with mem := { s.mem with reads := s.mem.reads.map (fix s) } }
  let settled := s.mem.reads.filter fun r => r.settled && !r.early
  let s := settled.foldl State.finishRead s
  (s.mem.reads.map (·.txn.id)).foldl State.tryEarly s

/-- Carries out the completed TILLED writes that need wait no longer (R104, R108): the oldest of its page, with its page
unlocked, its counters known and a page-move buffer at hand where it needs one. -/
def State.resolveWrites (s : State) : State :=
  s.mem.metaWrites.foldl (fun s w =>
    let line := reqLine w.txn.req
    let n := reqLines w.txn.req
    let page := reqPage w.txn.req
    let later := (s.mem.metaWrites.takeWhile fun x => !(x.txn.id == w.txn.id)).any fun x => reqPage x.txn.req == page
    match s.counterOf page with
    | none => s
    | some c =>
      if later || s.pageLocked page false || s.moveWaits w.row line n c then s
      else (s.unqueueTilled w).applyTilled w.txn w.row line ((upto 0 n).map (reqData w.txn.req)) c) s

/-- The pages whose counter lines a harrow job is fetching (R152): job, page offset, page. -/
def State.fetchedPages (s : State) : List (Nat × Nat × Nat) :=
  (s.harrow.jobs.map fun e => match e.2.todo with
    | row :: _ => e.2.fetching.map fun q => (e.1, q, (s.row row).base * pagesPerGranule + q)
    | [] => []).flatten

/-- The counter line of a page that the harrow is to move failed both attempts (R154): the page is moved again later in
the pass; the second time it is done without a move, counted once and recorded with the line's address. -/
def State.fetchFailed (s : State) (n q part line : Nat) : State :=
  let j := s.job n
  let s := s.setJob n { j with fetching := j.fetching.filter (· != q), retry := nsInsert j.retry q }
  if j.retry.contains q then
    ((s.incFld F.hrwErr_MOVE_POISON).record .movePoison .harrow 0 (some part) 1 (line * 64)).pageDone n q
  else s

/-- A metadata line failed both attempts (R106): every request that depends on it completes POISON, completed writes
that depend on it are dropped with their steps poisoned, and the harrow's moves that need it are abandoned (R154). -/
def State.metaFail (s : State) (level idx : Nat) : State :=
  let line := s.metaLine level idx
  let covered := fun (l : Nat) => s.spanPage (l / 64) / 64 ^ (level - 1) == idx
  let hit := fun (r : Rd) => r.lines.any fun l => l.ctr.isNone && covered l.line &&
    !(match l.st with | .known _ | .bad => true | _ => false)
  let fixLine := fun (l : LineRd) =>
    if l.ctr.isNone && covered l.line && !(match l.st with | .known _ => true | _ => false) then { l with st := .bad }
    else l
  let fix := fun (r : Rd) => { r with metaBad := some line, lines := r.lines.map fixLine }
  let bad := (s.mem.reads.filter hit).map fix
  let s := bad.foldl (fun s r =>
    if r.early then
      let step := r.txn.req.step.toNat
      (s.finishRead r).poisonStep step line
    else if r.settled then s.finishRead r else s.setRead r) s
  let ws := s.mem.metaWrites.filter fun w => covered (reqLine w.txn.req)
  let pages := s.fetchedPages.filter fun x => covered (x.2.2 * 64)
  let s := pages.foldl (fun s x => s.fetchFailed x.1 x.2.1 (s.row (((s.job x.1).todo.head?).getD 0)).part line) s
  ws.foldl (fun s w =>
    let step := w.txn.req.step.toNat
    let p := w.txn.req.part.toNat
    let s := s.unqueueTilled w
    let sev : Sev := if s.fld F.laneCtl_POISON_EVT w.txn.lane = 1 then .error else .info
    let s := s.stage ⟨.lane, w.txn.lane, .poison, sev, some p, step, line * 64, false⟩
    if w.txn.remote.isSome ∨ w.txn.stepBad then s
    else if s.fld F.partCtl_EARLY p = 1 then s.poisonStep step line
    else s.markPoisoned step) s

/-- Verifies the fetched metadata lines whose parent is known, once over the list (R106, R123): a child of an entry
with minor 0 is taken as zero; one that verifies enters the cache; a first failure is re-read. -/
def State.settleMeta1 (s : State) : State :=
  s.rgn.arrived.foldl (fun s a =>
    match s.parentEntry a.level a.idx with
    | none => s
    | some (major, minor) =>
      let line := s.metaLine a.level a.idx
      let g := s.groupOf (line * 64)
      let lane := (s.laneOf g).getD 63
      let s := { s with rgn := { s.rgn with arrived := s.rgn.arrived.filter fun b =>
        !(b.level == a.level && b.idx == a.idx) } }
      if minor = 0 then s
      else
        let ok := !a.err && metaOk (s.metaKeyFor line) line a.level major minor a.line a.sb
        let s := if a.second then s.tagFirst lane 0xFF line ok true false else s
        if ok then s.cacheNode a.level a.idx (CtrLine.ofLine a.line) false
        else if a.second then s.metaFail a.level a.idx
        else s.offer g lane (.remdata a.level a.idx) line 1 [] true) s

/-- Verifies down the levels: a verified line may be the parent of another that waits. -/
def State.settleMeta (s : State) : State := (s.settleMeta1.settleMeta1.settleMeta1.resolveReads).resolveWrites

/-- METADATA_LINE_ARRIVAL (R106, R123): a fetched metadata line arrives and is verified under its parent's entry, as
soon as that is known, before its values are used. -/
def execMetadataLineArrival (g : Nat) (tag : BitVec 12) (line : Line) (sb : BitVec 64) (err : Bool) (s : State) : Res :=
  match s.accessOf g tag with
  | none => .next s
  | some a =>
    match a.purpose with
    | .mdata level idx =>
      let s := s.dropAccess a
      .next ({ s with rgn := { s.rgn with arrived := s.rgn.arrived ++ [(⟨level, idx, line, sb, err, false⟩ : MetaArr)] }
        }).settleMeta.fitCache
    | .remdata level idx =>
      let s := s.dropAccess a
      .next ({ s with rgn := { s.rgn with arrived := s.rgn.arrived ++ [(⟨level, idx, line, sb, err, true⟩ : MetaArr)] }
        }).settleMeta.fitCache
    | _ => .next s

/-! ### Releases and acceptances -/

/-- Two held egresses on one line, or of one step on one Rhotraik flow (R128). -/
def sameLane (a b : Held) : Bool :=
  match a.what, b.what with
  | .mem t _, .mem u _ => reqOverlap t.req u.req
  | .fab _ q, .fab _ r => a.step == b.step && q.dest == r.dest && fabLane q == fabLane r
  | _, _ => false

/-- STILE_RELEASE (R128, R130): a held egress whose provisional reads have all passed, with no earlier held egress on
its line or flow, is released: a write takes its effect, a fabric request goes to its flow. A write admitted before a
RESET of its region leaves a line that reads as virgin (R102). -/
def execStileRelease (h : Nat) (s : State) : Res :=
  match s.mem.held.find? (·.id == h) with
  | none => .next s
  | some e =>
    if e.deps ≠ [] ∨ s.mem.held.any (fun x => x.id < h && sameLane x e) then .next s
    else
      let s := (s.heldTime e).count 457 1
      let s := { s with mem := { s.mem with held := s.mem.held.filter fun x => !(x.id == h) } }
      match e.what with
      | .mem t row =>
        let s := s.holdLevel t.lane e.part
        if (s.row row).epoch ≠ e.epoch then .next s
        else .next ((s.topUp t row).performWrite t row).fitCache
      | .fab i q => .next (s.fabSend i q true)
      | .dma q k => .next (s.dmaRelease q k)
      | .xfer c no => .next (s.xferRelease c no)

/-- DMC_ACCESS_ACCEPT (R58, R121): the memory controller of a group accepts the first access offered to it; a write
leaves the write buffer. -/
def execDmcAccessAccept (g : Nat) (s : State) : Res :=
  match s.mem.accesses.find? fun a => a.grp == g && !a.accepted with
  | none => .next s
  | some a =>
    let s := s.emit (.dmc a)
    if !a.data.isEmpty then
      let s := if a.maint then s.laneProgress a.lane else s
      let s := s.dropAccess a
      .next { s with mem := { s.mem with wbuf := s.mem.wbuf.filter fun w => w.tag != some a.tag || w.lane != a.lane } }
    else
      .next { s with mem := { s.mem with
        accesses := updWhere (fun x => x.grp == g && x.tag == a.tag) (fun x => { x with accepted := true }) s.mem.accesses } }

/-! ### Credits and successors -/

/-- CREDIT_REQUEST (R187): a lane whose credit for a memory or cell key is below 1,024 asks for the next credit. -/
def execCreditRequest (n : Nat) (slot : BitVec 16) (s : State) : Res :=
  let k := slot.toNat
  if n < 44 ∧ ((s.slot k).kind = .memory ∨ (s.slot k).kind = .cell) ∧ s.credit n k < 1024 then .next (s.askCredit n k)
  else .next s

/-- CREDIT_DECISION (R187): the oldest credit request is granted in full, in part or refused; the writes that waited
take their rule check and completion. -/
def execCreditDecision (s : State) : Res :=
  match s.keys.creditReqs with
  | [] => .next s
  | c :: rest =>
    let s := { s with keys := { s.keys with creditReqs := rest } }
    let s := s.grantCredit c.lane c.slot
    let ws := s.mem.waitCredit
    let s := { s with mem := { s.mem with waitCredit := [] } }
    .next (ws.foldl (fun s w =>
      match (w.1.map fun t => let r := s.row w.2; (r.writeRefusal (r.offset (reqLine t.req)) (reqLines t.req)).map
          fun st => ((8 : Nat), st)).foldl firstRefusal none with
      | some x => w.1.foldl (fun s t => s.refuse t x.2) s
      | none => s.usageCheck w.1 w.2) s).fitCache

/-- NOSUCC_RETRY (R188): each key that waits for a successor tries again, lowest slot first. -/
def execNosuccRetry (s : State) : Res :=
  .next (s.keys.noSucc.foldl (fun s k =>
    let s := s.obtainSucc k
    if (s.slot k).succ ≠ 0 then s.autoStart k else s) s)

/-- AUTO_START_RETRY (R146, R189): each automatic start that waits for a record tries again. -/
def execAutoStartRetry (s : State) : Res :=
  let s := s.keys.autoWait.foldl State.autoStart s
  .next (if s.keys.metaWait then s.autoMeta else s)

/-! ### Page moves -/

/-- PAGE_UNLOCK (R108, R109): with every line of the move verified or failed twice, and room in the write buffer, the
page takes a new major, its written lines minor 1, the lines go out under the new counters, a failed line is marked
poisoned, and the page unlocks. The lines that the move carries are line-writes of the key (R145); those of the
triggering and joining writes have been charged. -/
def execPageUnlock (n : Nat) (page : Nat) (s : State) : Res :=
  match s.mem.moves.find? fun m => m.lane == n && m.page == page with
  | none => .next s
  | some m =>
    let settled := m.lines.all fun l => match l.st with | .known _ | .bad => true | _ => false
    let kept := m.lines.filter fun l => !m.fresh.any (·.1 == l.line)
    if !settled || !s.wbufRoom n (kept.length + m.fresh.length) then .next s
    else
      let s := { s with mem := { s.mem with moves := s.mem.moves.filter fun x => !(x.lane == n && x.page == page) } }
      let r := s.row m.row
      let (t, s) := s.cycles
      let s := s.trace 2 7 (Src.lane.at n) (some r.part) (0x100 + n)
        (s.mem.ingress.filter fun x => reqPage x.req == page).length t
      let (major, s) := s.drawEpoch
      let minors := (List.range 64).map fun i =>
        if m.old.minor i ≠ 0 ∨ m.fresh.any (·.1 % 64 == i) then 1 else 0
      let c : CtrLine := ⟨major, minors⟩
      let s := s.setNode 1 (s.spanPage page) c
      let lines := (kept.filterMap fun l => match l.st with | .known p => some (l.line, p) | _ => none) ++ m.fresh
      let bad := (kept.filter fun l => decide (l.st = .bad)).map (·.line)
      let slot := s.lineSlot m.row (r.offset (page * 64)) major
      let s := s.maintWrites n slot kept.length
      let s := lines.foldl (fun s (p : Nat × Line) =>
        s.offerLines ((s.laneOf (s.groupOf (p.1 * 64))).getD n) m.row p.1 [p.2] [(⟨3, major, 1⟩, slot)]
          none (some m.acc)) s
      let s := bad.foldl (fun s l =>
        ({ s with mem := { s.mem with poisoned := nsInsert s.mem.poisoned l } }).record .movePoison .lane n
          (some r.part) 0 (l * 64)) s
      .next ((s.resolveReads).resolveWrites).fitCache

/-- COUNTER_EVICT (R106). -/
def execCounterEvict (level : Nat) (idx : Nat) (s : State) : Res := .next (s.evict level idx)

/-- A re-tag record's cursor moves past a child; at 64 the record is freed and the node is written back (R161). -/
def State.passChild (s : State) (r : Nat) (t : Retag) : State :=
  let rs := s.harrow.retags
  if t.cursor + 1 = 64 then
    ({ s with harrow := { s.harrow with retags := rs.eraseIdx r } }).evict t.level t.idx
  else
    { s with harrow := { s.harrow with retags := rs.set r { t with cursor := t.cursor + 1, fetched := false } } }

/-- A child fetched for a re-tag is written back under its new entry (R161), one line-write of the metadata key. -/
def State.retagChild (s : State) (t : Retag) (c : CtrLine) : State :=
  let level := t.level - 1
  let child := t.idx * 64 + t.cursor
  let p := (s.node 4 t.level t.idx).getD {}
  let line := s.metaLine level child
  let g := s.groupOf (line * 64)
  let v := c.toLine
  let sb := metaSb (s.metaKeyFor line) line level p.major (p.minor t.cursor) v
  (((s.count 451 1).cacheNode level child c false).offer g ((s.laneOf g).getD 0) (.mwrite level child) line 1 [(v, sb)]
    false).chargeMeta

/-- NODE_RETAG (R161): the child at a re-tag record's cursor is passed when it was never written or is already
re-tagged; a resident child is re-tagged in the cache, where it is dirty from then on; one in memory is fetched,
verified under the old entry, and written back under the new one. -/
def execNodeRetag (r : Nat) (s : State) : Res :=
  match s.harrow.retags[r]? with
  | none => .next s
  | some t =>
    let level := t.level - 1
    let child := t.idx * 64 + t.cursor
    if t.old.minor t.cursor = 0 ∨ t.done.contains t.cursor ∨ 4 ≤ level then .next (s.passChild r t)
    else
      match s.cachedNode level child with
      | some c =>
        if t.fetched then .next ((s.retagChild t c.line).passChild r t)
        else .next ((s.cacheNode level child c.line true).passChild r t)
      | none =>
        let rs := s.harrow.retags.set r { t with fetched := true }
        .next (({ s with harrow := { s.harrow with retags := rs } }).fetchMeta level child)

end Sys2Proof.Machine
end

