-- ==== Sys2Proof/Machine/Links.lean ====
section
/-! DEFINITION. The commands of the link ports and of the Rhotraik fabric (R60, R64, R251 to R274). -/

namespace Sys2Proof.Machine

/-! ### Requests at the source -/

/-- Item 1 of R57 for a fabric request (R60, R263, R276): a reserved operation, a misaligned address, a length or atomic
code the operation does not have, a page crossing, other beat content, or a destination above 16,383. -/
def fabMalformed (r : FabReq) : Bool :=
  let op := r.op.toNat
  let word := op == 2 || op == 3
  decide (5 ≤ op ∨ 16384 ≤ r.dest.toNat)
  || (if word then decide (r.addr.toNat % 8 ≠ 0 ∨ r.len ≠ 0) else decide (r.addr.toNat % 64 ≠ 0))
  || decide (63 < r.addr.toNat / 64 % 64 + r.len.toNat)
  || (if op = 2 then decide (9 < r.aop.toNat) else if op = 4 then decide (3 < r.aop.toNat) else decide (1 < r.aop.toNat))
  || (decide (2 ≤ op) && !r.rest)
  || (op == 4 && decide (r.op2 ≠ 0 ∨ 2 ^ 56 ≤ r.op1.toNat ∨ r.op1.toNat % 64 ≠ 0))

/-- Item 3 of R57 for a fabric request: its reset domain is fenced (R76), its unit is outside the membership or fenced,
the agent is not MEMBER or SEAT (R276, R290), or a RADIO request stands under a cell this block is not PRIMARY for
(R297). -/
def State.fabFenced (s : State) (r : FabReq) : Bool :=
  (tget {} s.rdoms r.rdom.toNat).fence ||
  (if r.cls = 0 then !s.primary (s.slot s.pair.radioSlot).cell
   else !s.isMember r.dest.toNat || s.dom.fenced.contains r.dest.toNat ||
     decide (s.dom.state ≠ .member ∧ s.dom.state ≠ .seat))

/-- A class 0 request that does not go to the partner, or that arrives while pairing is disabled (R252): no link can
carry it. -/
def State.notPartner (s : State) (r : FabReq) : Bool :=
  decide (r.cls = 0) && decide (s.partnerUnit ≠ some r.dest.toNat)

/-- Item 5 of R57: the partition is halted, or no port can carry the request (R271). -/
def State.fabRetry (s : State) (r : FabReq) : Bool :=
  (s.part r.part.toNat).halt ||
  (!s.notPartner r && (s.txFlow (fabLane r) r.dest.toNat false).isNone &&
    (s.portFor (fabLane r) r.dest.toNat).isNone)

/-- The step of a fabric request is committed or of another partition (R71, R126). -/
def State.fabStep (s : State) (r : FabReq) : Bool :=
  match (s.stepEnt r.step.toNat).st with
  | .idle => false
  | .opened => (s.stepEnt r.step.toNat).part != r.part.toNat
  | .committing => true

/-- Item 6 of R57: class 3, a class 0 request that is not from a radio partition to the partner (R35, R252), or a bad
step, which the block's own LOADs (`own`, R216) do not have. -/
def State.fabClass (s : State) (r : FabReq) (own : Bool) : Bool :=
  decide (r.cls = 3) ||
  (decide (r.cls = 0) && (s.notPartner r || !(s.plotOf r.part.toNat).radio)) ||
  (!own && s.fabStep r)

/-- The first refusal of a fabric request at its source, in the order of R57; `own` marks the block's own LOADs. -/
def State.fabCheck (s : State) (r : FabReq) (own : Bool) : Option (Nat × Status) :=
  if fabMalformed r then some (1, .regionFault)
  else if r.gen.toNat ≠ s.life.genCur then some (2, .genStale)
  else if s.fabFenced r then some (3, .fenced)
  else if s.life.lc = .endOfLife ∨ (s.part r.part.toNat).hedged then some (4, .hedged)
  else if s.fabRetry r then some (5, .retry)
  else if s.fabClass r own then some (6, .regionFault)
  else if (s.capFor r).isNone then some (7, .keyMismatch)
  else none

/-- Payload bytes of a fabric request in its interface's hold (R129). A held LOAD or COPY is counted as one line of 64 B;
the manual does not say what it takes of the hold. DESIGN CHOICE (log 62). -/
def fabPayload (r : FabReq) : Nat := if r.op = 1 then 64 * (r.len.toNat + 1) else 64

/-- Payload bytes held for a fabric interface (R129). -/
def State.fabHeld (s : State) (i : Nat) : Nat :=
  (s.mem.held.map fun h => match h.what with
    | .fab j q => if j = i then fabPayload q else 0
    | _ => 0).sum

/-- lz_freq_rdy of a class (R60, R77, R129). -/
def State.freqReady (s : State) (i cls : Nat) : Bool :=
  !s.life.blkFence && (cls == 0 || decide (s.fabHeld i + 4096 ≤ 16384))

/-- FABRIC_REQUEST (R60, R263, R265, R127): a request transfers on a fabric interface; it is refused at its source in the
order of R57, discarded when its step is poisoned (R132), held while its step has a provisional read without a verdict,
or goes to its flow. A RADIO request is never held. Refused at its source, it opens no step (log 18). -/
def execFabricRequest (i : Nat) (r : FabReq) (s : State) : Res :=
  if 16 ≤ i ∨ s.freqReady i r.cls.toNat = false then .next s
  else if s.mem.tids.contains ((64 + i) * 1024 + r.tid.toNat) then .fault .tidReused
  else
    let s := s.withMem { s.mem with tids := ((64 + i) * 1024 + r.tid.toNat) :: s.mem.tids }
    match s.fabCheck r false with
    | some x => .next (s.fabRefuse i r x)
    | none =>
      let (_, s) := s.openStep r.step.toNat r.part.toNat
      let e := s.stepEnt r.step.toNat
      let reads := s.openReads r.step.toNat
      if e.discard then .next (s.frsp i r .poison [] true)
      else if r.cls ≠ 0 ∧ !reads.isEmpty then .next (s.hold r.step.toNat r.part.toNat reads (.fab i r))
      else .next (s.fabSend i r false)

/-- A COPY whose local read is refused (R57, R270): counted as a refusal at its source, and answered with its status. -/
def State.fabFail (s : State) (o : FabOut) (x : Nat × Status) : State :=
  let s := s.incFld F.portErr_REFUSED (s.refusePort (fabLane o.req) o.req.dest.toNat)
  let s := if x.1 = 1 then s.incFld F.gstat_MALFORMED else s
  s.frsp o.intf o.req x.2 [] o.prov

/-- COPY_LOCAL_READ (R270): the local read of a COPY is made, in its own partition and under the local key index; its
lines enter the flow as STORE messages, or the read's status is answered and nothing is sent. A refusal counts like
any refusal of a fabric request at its source (R57). -/
def execCopyLocalRead (h : Nat) (r : ReadOut) (s : State) : Res :=
  match s.links.outs.find? fun o => o.mtag == h && o.req.op == 4 && !o.entered with
  | none => .next s
  | some o =>
    let q := o.req
    let addr := q.op1.toNat % 2 ^ 40
    let req : MemReq := { addr := BitVec.ofNat 40 addr, len := q.len, write := false,
                          kidx := BitVec.ofNat 16 (bits q.op1.toNat 40 16), part := q.part, gen := q.gen, step := q.step,
                          cls := q.cls, tid := 0, span := 0, rdom := q.rdom, data := [] }
    let t : Txn := { id := 0, lane := 63, grp := s.groupOf addr, req := req }
    let n := q.len.toNat + 1
    let ended := s.withLinks { s.links with outs := s.links.outs.filter fun x => !(x.mtag == h) }
    if 63 < addr / 64 % 64 + q.len.toNat then .next (ended.fabFail o (1, .regionFault))
    else
      match s.admitCheck t with
      | some x => .next (ended.fabFail o x)
      | none =>
        if r.ok ∧ r.bytes.length = 64 * n then
          .next ((s.readLines q.part.toNat addr (64 * n)).placeOut { o with data := toLines r.bytes n })
        else .next (ended.frsp o.intf q .poison [] o.prov)

/-! ### Frames go out -/

/-- Receive space that no flow has been granted, of the pool of 4 MiB (R259). -/
def State.poolLeft (s : State) : Nat :=
  4 * 2 ^ 20 - ((s.links.rx.filter fun f => f.lane != 0).map (·.window)).sum

/-- What a receiver returns for a flow (R259): the credit it owes, and for a busy flow a further grant, while the flow has
less than 256 KiB and the pool has room. The amount of the grant is a free value within these bounds (log 63). -/
def State.takeOwed (s : State) (f : RxFlow) : Nat × State :=
  if f.lane = 0 ∨ f.owed = 0 then (0, s)
  else
    let more := min (Config.creditGrant s.frees) (min (262144 - f.window) s.poolLeft)
    (f.owed + more, ({ s with frees := s.frees + 1 }).setRx { f with owed := 0, window := f.window + more })

/-- What a RESPONSE to a peer in a lane returns (R259). -/
def State.rspCredit (s : State) (src lane : Nat) : Nat × State :=
  match s.links.rx.find? fun f => f.src == src && f.lane == lane && !f.epoch0 with
  | some f => s.takeOwed f
  | none => (0, s)

/-- The responses that wait for a peer enter its flow, in order (R266). -/
def State.collectRsps (s : State) (lane dest : Nat) : State :=
  let mine := s.mem.remoteRsps.filter fun r => r.dest == dest && r.lane == lane
  mine.foldl (fun s r =>
    let (owed, s') := s.rspCredit dest lane
    let m : Msg := { mtype := 2, op := r.status.code, tag := r.mtag, gen := s.life.genCur, word := owed, data := r.data }
    match s'.enterMsg lane dest false m with
    | some s' =>
      s'.withMem { s'.mem with remoteRsps := s'.mem.remoteRsps.filter fun x =>
        !(x.dest == r.dest && x.lane == r.lane && x.mtag == r.mtag) }
    | none => s) s

/-- The messages of a sealed frame leave their requests' accounts (R260, R266, R270): the sequence each rode in, whether a
request's last message has gone, and the answer of a COPY whose last message has. -/
def State.noteSent (s : State) (f : TxFlow) (seq : Nat) (m : Msg) : State :=
  if m.mtype ≠ 1 then s
  else
    match s.links.outs.find? fun o => o.mtag == m.tag && o.req.dest.toNat == f.dest && o.lane == f.lane with
    | none => s
    | some o =>
      let o' := { o with seqs := o.seqs ++ [(f.epoch, f.fgen, seq)], sealed := m.last, answered := o.answered || (m.last && o.req.op == 4) }
      let s := s.withLinks { s.links with outs := updWhere (·.mtag == o.mtag) (fun _ => o') s.links.outs }
      if m.last && o.req.op == 4 && !o.answered then s.frsp o.intf o.req .ok [] o.prov else s

/-- A RADIO message waits for a port, under a key that may still seal (R34, R271). -/
def State.radioFirst (s : State) (port : Nat) : Bool :=
  s.links.tx.any fun f => f.lane == 0 && f.port == port && !f.down && !f.waiting.isEmpty &&
    decide ((s.slot f.slot).usage + 256 ≤ (s.slot f.slot).limit)

/-- The messages of a flow's open frame, as many as fit and as its credit allows, and those that stay (R257, R259). -/
def TxFlow.frameMsgs (f : TxFlow) : List Msg × List Msg :=
  let room := if f.lane = 0 then 4096 else min 4096 f.credit
  let (ms, rest) := if f.lane = 0 then packMsgs 1 room f.waiting else packMsgs f.waiting.length room f.waiting
  (ms, if f.lane = 0 ∧ rest.isEmpty then f.waiting.drop 1 else rest)

/-- The energy of sealing a flow's open frame (R457): its payload, header and tag. -/
def TxFlow.energy (f : TxFlow) : Nat := portEnergy (((f.frameMsgs.1.map Msg.bytes).flatten).length + 32)

/-- The open frame of a flow is sealed under the next sequence and transmitted with as many of its messages as fit and as its
credit allows, and its key is charged; a flow at its key's limit seals nothing (R257, R259, R262). -/
def State.sealOpen (s : State) (f : TxFlow) : State :=
  let lane := f.lane
  let (ms, rest) := f.frameMsgs
  let cost := if lane = 0 then 256 else 1
  let k := s.slot f.slot
  if ms.isEmpty ∨ (!f.epoch0 ∧ k.limit < k.usage + cost) then s
  else
    let payload := (ms.map Msg.bytes).flatten
    let header := frameHeader (flowId s.unit lane f.fgen) f.seq f.dest payload.length
      (if lane = 0 ∨ f.epoch0 then 0 else f.epoch)
    let fr := sealFrame (s.txKey f) header payload
    let s := (if f.epoch0 then s else s.chargeSlot f.slot cost).spend f.energy
    let s := (s.count (160 + 4 * f.port) 1).count (162 + 4 * f.port) payload.length
    let p := s.port f.port
    let s := s.setPort f.port { p with progress := (p.progress + 1) % 2 ^ 32 }
    let s := s.emit (.frame (p.att.getD 63) fr)
    let kept := if lane = 2 then f.sent ++ ms.map (fun m => (f.seq, m)) else []
    let f' := { f with seq := f.seq + 1, waiting := rest, sent := kept, used := s.links.uses,
                       credit := if lane = 0 then f.credit else f.credit - payload.length,
                       due := if lane = 0 then 0 else f.due + payload.length }
    let s := (s.setTx f').useFlow
    ms.foldl (fun s m => s.noteSent f f.seq m) s

/-- FRAME_CLOSE (R257, R259, R262): the open frame of a flow closes. A DATA or CONTROL frame waits while a RADIO message
waits for the same port (R34, R271); from the DOWN of a warm reset on, only CONTROL flows seal, for the settle (R290,
R295). A frame other than RADIO whose energy the throttle's budget does not hold is withheld (R457). -/
def execFrameClose (flow : BitVec 32) (dest : BitVec 16) (s : State) : Res :=
  let lane := bits flow.toNat 16 2
  let fgen := bits flow.toNat 18 14
  let s := if lane = 3 then s else s.collectRsps lane dest.toNat
  match s.links.tx.find? fun f => f.lane == lane && f.dest == dest.toNat && f.fgen == fgen && !f.down with
  | none => .next s
  | some f =>
    if !s.portUp f.port ∨ flow.toNat % 65536 ≠ s.unit ∨ (lane ≠ 0 ∧ s.radioFirst f.port)
        ∨ (lane ≠ 2 ∧ s.life.settling) then .next s
    else if lane ≠ 0 ∧ !f.frameMsgs.1.isEmpty ∧ !s.fits f.energy then .next s.withhold
    else .next (s.sealOpen f)

/-- CREDIT_MESSAGE (R259): a receiver that owes at least 4 KiB returns it in a CREDIT message on the CONTROL flow, which
names the flow in its data. -/
def execCreditMessage (flow : BitVec 32) (s : State) : Res :=
  let src := bits flow.toNat 0 16
  let lane := bits flow.toNat 16 2
  match s.links.rx.find? fun f => f.src == src && f.lane == lane && f.fgen == bits flow.toNat 18 14 with
  | none => .next s
  | some f =>
    if lane = 0 ∨ f.owed < 4096 then .next s
    else
      let (n, s) := s.takeOwed f
      .next (s.sendCtl src false { mtype := 3, gen := s.life.genCur, word := n, data := leBytes 4 flow.toNat })

/-! ### Frames come in -/

/-- A REQUEST message at its target (R265, R57): it joins its request's account and is refused at once, waits as a flag,
or waits in the ingress of its lane. -/
def State.remoteRequest (s : State) (port src lane : Nat) (m : Msg) : State :=
  let load := m.op == 0
  let word := m.op == 2 || m.op == 3
  let n := if load then m.addr % 64 + 1 else if word then 1 else m.data.length / 64
  let line := m.addr / 64
  let no := s.links.nextMsg
  let mine := fun (q : RemReq) => q.src == src && q.lane == lane && q.mtag == m.tag
  let reqs := if s.links.reqs.any mine then
      updWhere mine (fun q => { q with out := q.out ++ [no], closed := m.last }) s.links.reqs
    else s.links.reqs ++ [{ src := src, lane := lane, mtag := m.tag, op := m.op, out := [no], closed := m.last }]
  let s := s.withLinks { s.links with reqs := reqs, nextMsg := no + 1 }
  let g := s.groupOf (line * 64)
  let req : MemReq := { addr := BitVec.ofNat 40 (line * 64), len := BitVec.ofNat 6 (n - 1), write := !load,
                        kidx := BitVec.ofNat 16 m.capidx, part := BitVec.ofNat 6 m.part, gen := BitVec.ofNat 8 m.gen,
                        step := 0, cls := BitVec.ofNat 2 m.cls, tid := 0, span := 0, rdom := 0,
                        data := if load then [] else if word then [0] else toLines m.data n }
  let r : Remote := { src := src, mtag := m.tag, lane := lane, port := port, no := no, op := m.op, aop := m.flags % 16,
                      arrive := bit m.flags 4, op1 := le m.data 0 8, op2 := le m.data 8 8, off := m.addr % 64,
                      actr := m.actr, rights := m.rights, check := m.word }
  let t : Txn := { id := s.mem.nextId, lane := (s.laneOf g).getD 63, grp := g, req := req, remote := some r }
  let s := s.withMem { s.mem with nextId := s.mem.nextId + 1 }
  let bad := decide (3 < m.op ∨ n = 0 ∨ 64 < n ∨ 63 < line % 64 + (n - 1) ∨ (m.cls = 3) ∨ 64 ≤ m.part ∨ m.cls > 3)
    || (if word then decide (m.data.length ≠ 16 ∨ m.addr % 8 ≠ 0) else if load then !m.data.isEmpty
        else decide (m.data.length % 64 ≠ 0 ∨ m.addr % 64 ≠ 0))
    || (m.op == 2 && decide (9 < m.flags % 16))
  if bad then (s.incFld F.gstat_MALFORMED).refuse t .regionFault
  else if (s.genOf src).any (· != m.gen) then (s.incFld F.domErr_GEN_STALE).refuse t .genStale
  else if (s.laneOf g).isNone then s.refuse t .retry
  else if m.op = 3 then
    let before := ((s.links.reqs.filter fun q => q.src == src && q.lane == lane && q.op != 0).map fun q =>
      (q.out.filter fun x => decide (x < no)).length).sum
    let id := match s.links.rx.find? fun f => f.src == src && f.lane == lane with
      | some f => flowId src lane f.fgen
      | none => 0
    let s := if before = 0 then s else (s.count 474 1).trace 2 2 (Src.port.at port) (some m.part) src id before
    s.withLinks { s.links with flags := s.links.flags ++ [t] }
  else s.withMem { s.mem with ingress := s.mem.ingress ++ [t] }

/-- The answer to a GRANT or REVOKE at the granting block (R264, R274): DONE, or NO_ROOM for REGION_FAULT. -/
def State.grantAnswer (s : State) (g : GrantRun) (st : Status) : State :=
  (s.withLinks { s.links with grant := none }).engineEnd g.origin F.fabGrant_RESULT F.fabGrant_BUSY
    (if st = .ok then 0 else 2)

/-- Credit returns to transmitting flows (R259). -/
def State.addCredit (s : State) (mine : TxFlow → Bool) (n : Nat) : State :=
  s.withLinks { s.links with
    tx := updWhere mine (fun f => { f with credit := f.credit + n, due := f.due - n }) s.links.tx }

/-- A RESPONSE message at the source (R259, R266): its credit returns to the flow; its request completes with its last
message. One of a stale generation is dropped (R290). -/
def State.response (s : State) (src lane : Nat) (m : Msg) : State :=
  let s := s.addCredit (fun f => f.dest == src && f.lane == lane && !f.epoch0) m.word
  if (s.genOf src).any (· != m.gen) then s.incFld F.domErr_GEN_STALE
  else
    match s.links.outs.find? fun o => o.mtag == m.tag && o.entered && o.req.dest.toNat == src && o.lane == lane with
    | some o =>
      let data := o.data ++ toLines m.data (ceilDiv m.data.length 64)
      let o := { o with data := data }
      if m.last then s.finishOut o (Status.ofCode m.op) data
      else s.withLinks { s.links with outs := updWhere (·.mtag == o.mtag) (fun _ => o) s.links.outs }
    | none =>
      match s.links.grant with
      | some g => if g.mtag = m.tag ∧ g.holder = src ∧ lane = 2 then s.grantAnswer g (Status.ofCode m.op) else s
      | none => s

/-- A GRANT or REVOKE message at the holder (R264): the map entry is installed, replaced or removed, and the message
answered OK, or REGION_FAULT when the map is full. -/
def State.capMessage (s : State) (src : Nat) (m : Msg) : State :=
  let same := fun (c : CapEnt) => c.part == m.part && c.unit == src && c.capidx == m.capidx
  let others := s.links.caps.filter fun c => !same c
  let answer := fun (s : State) (st : Status) =>
    let (n, s) := s.rspCredit src 2
    s.sendCtl src false { mtype := 2, op := st.code, tag := m.tag, gen := s.life.genCur, word := n }
  if m.mtype = 5 then answer (s.withLinks { s.links with caps := others }) .ok
  else if 4096 ≤ others.length then answer s .regionFault
  else
    let c : CapEnt := ⟨m.part, src, m.capidx, m.rights, BitVec.ofNat 128 (ofLE (m.data.take 16))⟩
    answer (s.withLinks { s.links with caps := others ++ [c] }) .ok

/-- A message may travel under epoch 0 (R279): DOMAIN messages of DTYPE 1 to 4 and 13, PAIR messages of PTYPE 1 to 3, 7
and 8. -/
def Msg.inEpoch0 (m : Msg) : Bool :=
  let t := le m.data 0 1
  decide ((m.mtype = 8 ∧ (t = 1 ∨ t = 2 ∨ t = 3 ∨ t = 4 ∨ t = 13)) ∨ (m.mtype = 9 ∧ (t = 1 ∨ t = 2 ∨ t = 3 ∨ t = 7 ∨ t = 8)))

/-- A verified message is passed on (R261): requests, responses, credit and capabilities take effect; breaks and the
messages of the Stavub engine, the domain agent and the pair go to their agents. -/
def State.message (s : State) (port : Nat) (f : RxFlow) (m : Msg) : State :=
  if f.epoch0 ∧ !m.inEpoch0 then s.incFld F.fabErr_BAD_HDR
  else
    match m.mtype with
    | 1 => s.remoteRequest port f.src f.lane m
    | 2 => s.response f.src f.lane m
    | 3 =>
      let flow := le m.data 0 4
      s.addCredit (fun x => x.dest == f.src && flowId s.unit x.lane x.fgen == flow) m.word
    | 4 | 5 => s.capMessage f.src m
    | _ => s.withLinks { s.links with inbox := s.links.inbox ++ [(f.src, m)] }

/-- A break at a receiver (R260): the frame and the rest of its generation are dropped, the break is counted and
recorded, and BREAK goes to the source with the flow identifier and sequence in its data. -/
def State.breakAt (s : State) (port : Nat) (f : RxFlow) (seq : Nat) (tag : Bool) : State :=
  let id := flowId f.src f.lane f.fgen
  let s := (s.count 477 1).trace 3 3 (Src.port.at port) none f.src id seq
  let s := s.incFld (if tag then F.portErr_TAG_FAIL else F.portErr_GAP) port
  let s := s.setRx { f with broken := true }
  let s := if (tag ∧ s.fld F.portCtl_TAG_EVT port = 1) ∨ s.fld F.portCtl_BREAK_EVT port = 1 then
      s.record .brk .port port none id seq
    else s
  s.sendCtl f.src false { mtype := 6, gen := s.life.genCur, data := leBytes 4 id ++ leBytes 8 seq }

/-- The keys that may open the first frame of a generation (R279, R284): the domain epochs that EP selects, current, next
and old, when FGEN is above the last accepted one, and then epoch 0. -/
def State.rxCandidates (s : State) (src lane fgen ep : Nat) : List (RxFlow × Key × Bool) :=
  let base : RxFlow := { src := src, lane := lane, fgen := fgen, port := 0 }
  if lane = 0 then
    let fresh := tget 0 s.links.rxGen (genIdx false 0 0 src) < fgen
    if fresh ∧ s.partnerUnit = some src ∧ (s.slot s.pair.radioSlot).kind = .cell then
      [({ base with slot := s.pair.radioSlot }, (s.slot s.pair.radioSlot).key, false)]
    else []
  else
    let es := [(s.dom.cur, false), (s.dom.next, true), (s.dom.old, false)]
    let epochs := es.filterMap fun x => match x.1 with
      | some e =>
        if e.epoch % 2 = ep ∧ e.members.contains src ∧ tget 0 s.links.rxGen (genIdx false e.epoch lane src) < fgen then
          some (({ base with epoch := e.epoch }, flowKeyE s.domPlot.domId e (flowId src lane fgen) s.unit, x.2) : RxFlow × Key × Bool)
        else none
      | none => none
    let zero := if lane = 2 then
        [(({ base with epoch0 := true }, flowKey0 s.domPlot.domId (flowId src lane fgen) s.unit, false) : RxFlow × Key × Bool)]
      else []
    epochs ++ zero

/-- Makes room in the receive table: with 8,192 flows the least recently used idle one is released (R256). -/
def State.roomRx (s : State) : State :=
  if (s.links.rx.filter fun f => !f.epoch0).length < 8192 then s
  else
    let idle := s.links.rx.filter fun f => !f.epoch0 && s.rxIdle f
    match idle.foldl (fun (b : Option RxFlow) f => match b with
      | none => some f
      | some g => if f.used < g.used then some f else some g) none with
    | some f => (s.trace 3 2 (Src.port.at f.port) none f.src (flowId f.src f.lane f.fgen) 0).dropRx f
    | none => s

/-- A new receiving flow takes its table entry and its slot (R253, R256), and the previous generation of its source and
lane is retired (R254). Generations of epoch 0 have a table of 1,024 of their own (R279). With a full table and no flow to
release, its frame is dropped: the manual gives no outcome. DESIGN CHOICE (log 63). -/
def State.openRx (s : State) (f : RxFlow) (key : Key) : Option State :=
  let old := s.links.rx.filter fun x => x.src == f.src && x.lane == f.lane && x.epoch0 == f.epoch0
  let s := old.foldl State.dropRx s
  let mine := fun (q : RemReq) => q.src == f.src && q.lane == f.lane && !q.closed
  let s := s.withLinks { s.links with reqs := s.links.reqs.filter fun q => !mine q }
  let s := if f.epoch0 then s else s.roomRx
  let zeros := (s.links.rx.filter (·.epoch0)).length
  if (if f.epoch0 then 1024 ≤ zeros else 8192 + zeros ≤ s.links.rx.length) then none
  else
    let (slot, s) := if f.epoch0 ∨ f.lane = 0 then (f.slot, s)
      else match s.flowSlot key with | some (k, s) => (k, s) | none => (0, s)
    let idx := genIdx f.epoch0 f.epoch f.lane f.src
    let s := if f.lane = 0 then s else s.count 450 1
    let s := s.trace 3 1 (Src.port.at f.port) none f.src (flowId f.src f.lane f.fgen) 0
    let s := s.withLinks { s.links with rx := s.links.rx ++ [{ f with slot := slot, next := 2, used := s.links.uses }],
                                        rxGen := if f.epoch0 then s.links.rxGen else tset 0 s.links.rxGen idx f.fgen }
    some (if f.epoch0 then s else if f.lane = 0 then s.pinCell slot else s.pin slot).useFlow

/-- A break at the first frame of a generation (R258, R260): the generation stands broken in the table while there is
room for it. -/
def State.breakFirst (s : State) (port : Nat) (f : RxFlow) (seq : Nat) (tag : Bool) : State :=
  let s := s.roomRx
  let s := if (s.links.rx.filter fun f => !f.epoch0).length < 8192 then s.withLinks { s.links with rx := s.links.rx ++ [f] } else s
  s.breakAt port f seq tag

/-- The messages of a verified frame are passed on in order; a bad one drops itself and the rest (R261). -/
def State.passOn (s : State) (port : Nat) (f : RxFlow) (payload : Bytes) : State :=
  let s := (s.count (161 + 4 * port) 1).count (163 + 4 * port) payload.length
  let (ms, bad) := parseMsgs (payload.length / 32 + 1) payload
  let s := ms.foldl (fun s m => s.message port f m) s
  let light := ((ms.filter fun m => m.mtype != 1).map fun m => msgSize m.data.length).sum
  let s := if f.lane = 0 then s
    else s.withLinks { s.links with rx := updWhere f.same (fun x => { x with owed := x.owed + light }) s.links.rx }
  if bad then s.incFld F.fabErr_BAD_HDR else s

/-- What the header of a frame says (Table 2 of the links chapter), as far as its flow needs it. -/
structure Head where
  src : Nat
  lane : Nat
  fgen : Nat
  ep : Nat
  seq : Nat
  deriving DecidableEq, Repr

/-- The payload of a frame, when it verifies under a key (R257). -/
def openFrame (key : Key) (fr : Frame) : Option Bytes :=
  let h := bvBytes fr.header
  gcmOpen key (h.take 12) h fr.body fr.tag

/-- A frame of a generation that has opened (R258): a duplicate is dropped, a gap or a tag failure is a break, and the
messages of a frame that verifies are passed on. -/
def State.frameIn (s : State) (port : Nat) (fr : Frame) (seq : Nat) (f : RxFlow) : State :=
  if f.broken ∨ f.down then s
  else if seq < f.next then s.incFld F.portErr_DUP_DROP port
  else if f.next < seq then s.breakAt port f seq false
  else
    match openFrame (s.rxKey f) fr with
    | none => s.breakAt port f seq true
    | some payload => ((s.setRx { f with next := seq + 1, used := s.links.uses }).useFlow).passOn port f payload

/-- The first frame of a new generation (R254, R258, R276, R279, R284): FGEN, membership, sequence and tag, in that order.
`cands` are the generations it may open; a frame that opens none, and that no domain epoch admits, is dropped. -/
def State.frameFirst (s : State) (port : Nat) (fr : Frame) (h : Head) (cands : List (RxFlow × Key × Bool)) : State :=
  let known := decide (h.lane = 0) || s.isMember h.src
    || s.dom.next.any (fun e => e.members.contains h.src) || s.dom.old.any fun e => e.members.contains h.src
  let stale := decide (h.lane ≠ 0) && s.dom.cur.any (fun e => e.epoch % 2 != h.ep) && s.dom.old.isNone
    && !s.dom.next.any fun e => e.epoch % 2 == h.ep
  let opens := if h.seq = 1 then cands.find? fun c => (openFrame c.2.1 fr).isSome else none
  match opens with
  | some (f, key, isNext) =>
    let s := if isNext then s.commitNext else s
    match s.openRx { f with port := port } key with
    | some s => s.passOn port { f with port := port } ((openFrame key fr).getD [])
    | none => s
  | none =>
    match cands.find? fun c => !c.1.epoch0 with
    | some (f, _, _) =>
      if h.seq = 0 then s.incFld F.portErr_DUP_DROP port
      else s.breakFirst port { f with port := port } h.seq (decide (h.seq = 1))
    | none =>
      if !known then s.incFld F.domErr_NONMEMBER
      else if stale then s.incFld F.domErr_STALE_EPOCH
      else s

/-- A frame with a good header is given to its generation (R254, R258, R279): the live one of the epoch that EP selects;
on a CONTROL flow, the one under epoch 0 when only that verifies; and otherwise a new one. -/
def State.frameFor (s : State) (port : Nat) (fr : Frame) (h : Head) : State :=
  let mine := s.links.rx.filter fun f => f.src == h.src && f.lane == h.lane && f.fgen == h.fgen
  let live := mine.find? fun f => !f.epoch0 && (f.lane == 0 || f.epoch % 2 == h.ep)
  let zero := mine.find? fun f => f.epoch0
  let cands := s.rxCandidates h.src h.lane h.fgen h.ep
  let opens := fun (k : Key) => (openFrame k fr).isSome
  match live, zero with
  | some f, some z => s.frameIn port fr h.seq (if z.next = h.seq ∧ opens (s.rxKey z) then z else f)
  | some f, none => s.frameIn port fr h.seq f
  | none, some z =>
    if h.seq = 1 ∧ cands.any (fun c => !c.1.epoch0 && opens c.2.1) then s.frameFirst port fr h cands
    else s.frameIn port fr h.seq z
  | none, none => s.frameFirst port fr h cands

/-- FRAME_RECEIVE (R62, R257, R258, R276, R279, R284): a whole frame is checked for its link mark, header, generation,
membership, sequence and tag; a gap or a tag failure is a break; the messages of a frame that verifies are passed on, and
requests that wait for a flow entry try again (R256). -/
def execFrameReceive (port : Nat) (fr : Frame) (bad : Bool) (s : State) : Res :=
  if 40 ≤ port ∨ s.portUp port = false then .next s
  else if bad then .next (s.incFld F.portErr_LINK_BAD port)
  else
    let h := bvBytes fr.header
    let flow := le h 0 4
    let w := le h 14 2
    let len := bits w 0 13
    let head : Head := { src := bits flow 0 16, lane := bits flow 16 2, fgen := bits flow 18 14, ep := bits w 13 1,
                         seq := le h 4 8 }
    if bits w 14 2 ≠ 1 ∨ len < 16 ∨ 4096 < len ∨ len % 16 ≠ 0 ∨ fr.body.length ≠ len ∨ le h 12 2 ≠ s.unit
        ∨ head.lane = 3 ∨ head.fgen = 0 then .next (s.incFld F.fabErr_BAD_HDR)
    else if s.dom.state = .fallowHold ∧ head.lane = 1 then .next s
    else .next ((s.spend (portEnergy (len + 32))).frameFor port fr head).retryWaiting

/-- A waiting flag takes effect (R268): it is admitted as its region says, its line read, merged and written, and it
counts. `old` is the outcome of the line's read. -/
def State.flagEffect (s : State) (t : Txn) (r : Remote) (old : ReadOut) : State :=
  match s.admitCheck t with
  | some x => (s.countCapFail t x.2).refuse t x.2
  | none =>
    let row := s.rowOf t
    let (n, s) := s.cycles
    let id := match s.links.rx.find? fun f => f.src == r.src && f.lane == r.lane with
      | some f => flowId r.src r.lane f.fgen
      | none => 0
    let s := (s.trace 2 3 (Src.port.at r.port) (some t.req.part.toNat) r.src id n).count 475 n
    let (within, s) := s.chargeCap t
    if !within then s.refuse t .keyExhausted
    else
      let short := s.shortfalls [t] row
      let s := short.foldl (fun s c => s.grantCredit c.lane c.slot) s
      if !(s.shortfalls [t] row).isEmpty then (s.incFld F.hrwErr_EXHAUSTED_WR).refuse t .keyExhausted
      else
        let line := match (s.lineRead row (reqLine t.req)).st with
          | .known d => some d
          | .bad => none
          | _ => if old.ok then some (toLine old.bytes) else none
        s.finishAtomic t r row line

/-- FLAG_STORE_EFFECT (R268, R263): a waiting flag takes effect once every STORE, ATOMIC and FLAG_STORE message before it
on its flow has, and its page is neither moving nor closed. -/
def execFlagStoreEffect (w : Nat) (old : ReadOut) (s : State) : Res :=
  match s.links.flags.find? fun t => t.remote.any (·.no == w) with
  | none => .next s
  | some t =>
    match t.remote with
    | none => .next s
    | some r =>
      let before := s.links.reqs.any fun q => q.src == r.src && q.lane == r.lane && q.op != 0 &&
        q.out.any fun n => decide (n < w)
      if before ∨ s.pageLocked (reqPage t.req) false ∨ s.pageClosed (reqPage t.req) then .next s
      else .next ((s.withLinks { s.links with flags := s.links.flags.filter fun x => !(x.id == t.id) }).flagEffect t r old)

/-! ### Breaks, time-outs and generations -/

/-- BREAK_RECEIVE (R260): the source stops sealing under the broken generation and moves the flow to the next one, unless
it has moved already (R273); every request with a message in a frame of sequence `q` or above completes RETRY, in flow
order, and the block's own CONTROL messages of those frames are sent again. A BREAK names its generation without the
epoch: it is taken for the one in use, and for the one before it when that is none. DEDUCED (log 63). -/
def execBreakReceive (src : BitVec 16) (flow : BitVec 32) (q : Word) (s : State) : Res :=
  let named := fun (f : TxFlow) => f.dest == src.toNat && flowId s.unit f.lane f.fgen == flow.toNat
  let dest := src.toNat
  let lane := bits flow.toNat 16 2
  let live := s.links.tx.find? named
  let hit := s.links.outs.filter fun o => o.entered && o.req.dest.toNat == dest && o.lane == lane && o.seqs.any fun n =>
    flowId s.unit lane n.2.1 == flow.toNat && decide (q.toNat ≤ n.2.2) && live.all fun f => f.epoch == n.1
  let tags := hit.map (·.mtag)
  let sent := match live with
    | some f => f.sent
    | none => match s.links.past.find? named with | some f => f.sent | none => []
  let again := (sent.filter fun x => decide (q.toNat ≤ x.1)).map (·.2)
  let keep := fun (ms : List Msg) => again ++ ms.filter fun m => !(m.mtype == 1 && tags.contains m.tag)
  let s : State := match live with
    | some f =>
      let s := s.trace 3 3 (Src.port.at f.port) none dest flow.toNat q.toNat
      (s.moveTx f (keep f.waiting)).getD (s.setTx { f with down := true, waiting := keep f.waiting })
    | none =>
      let left := fun (f : TxFlow) => { f with sent := f.sent.filter fun x => decide (x.1 < q.toNat) }
      let s : State := s.withLinks { s.links with past := updWhere named left s.links.past }
      match s.links.tx.find? fun (f : TxFlow) => f.dest == dest && f.lane == lane && !f.down with
      | some f => s.setTx { f with waiting := keep f.waiting }
      | none => s
  .next (hit.foldl (fun s o => s.finishOut o .retry []) s).retryWaiting

/-- RESPONSE_TIMEOUT (R266, R290): a request with no response RSP_TO after its last message was sealed completes RETRY,
or POISON for ATOMIC; FENCED when its unit is fenced. -/
def execResponseTimeout (mtag : BitVec 16) (s : State) : Res :=
  match s.links.outs.find? fun o => o.mtag == mtag.toNat && o.entered && o.sealed with
  | none => .next s
  | some o =>
    if s.dom.fenced.contains o.req.dest.toNat ∧ o.lane = 1 then .next (s.finishOut o .fenced []).retryWaiting
    else .next ((s.incFld F.fabErr_RSP_TIMEOUT).finishOut o (if o.req.op = 2 then .poison else .retry) []).retryWaiting

/-- FLOW_IDLE_RELEASE (R256): a transmitting or receiving flow with nothing outstanding is released, and requests that
wait for an entry try again. -/
def execFlowIdleRelease (flow : BitVec 32) (dest : BitVec 16) (s : State) : Res :=
  match s.links.tx.find? fun f => f.dest == dest.toNat && flowId s.unit f.lane f.fgen == flow.toNat with
  | some f =>
    if s.txIdle f then
      .next ((s.trace 3 2 (Src.port.at f.port) none f.dest flow.toNat 0).dropTx f).retryWaiting
    else .next s
  | none =>
    match s.links.rx.find? fun f => dest.toNat == s.unit && flowId f.src f.lane f.fgen == flow.toNat with
    | some f =>
      if s.rxIdle f then .next ((s.trace 3 2 (Src.port.at f.port) none f.src flow.toNat 0).dropRx f).retryWaiting
      else .next s
    | none => .next s

/-! ### Links and ports -/

/-- A port's link is lost (R64, R422): every flow on it is DOWN, a unit reached directly over it is treated as reset
(R290), and the event is recorded. -/
def State.portDown (s : State) (n : Nat) (rehearsal : Bool) : State :=
  let s := s.withLinks { s.links with
    tx := updWhere (fun (f : TxFlow) => f.port == n) (fun f => { f with down := true }) s.links.tx,
    rx := updWhere (fun (f : RxFlow) => f.port == n) (fun f => { f with down := true }) s.links.rx }
  let s := match (s.port n).ranges with
    | [(a, b)] => if a = b then s.unitDown a else s
    | _ => s
  s.record .linkDown .port n none n 0 rehearsal

/-- LINK_DOWN (R64): lz_link_up of an attachment falls. -/
def execLinkDown (att : Nat) (s : State) : Res :=
  if !s.links.up.contains att then .next s
  else
    let s := s.withLinks { s.links with up := s.links.up.filter (· != att) }
    match (upto 0 40).find? fun n => decide ((s.port n).att = some att) with
    | none => .next s
    | some n => .next (s.portDown n false)

/-- LINK_UP (R271): lz_link_up of an attachment rises and its port may be bound to new flows. -/
def execLinkUp (att : Nat) (s : State) : Res :=
  if 36 ≤ att then .next s
  else .next (s.withLinks { s.links with up := nsInsert s.links.up att })

/-! ### Capabilities -/

/-- What a GRANT or REVOKE names (Table 13 of the links chapter): slot, holder, holder partition, rights. -/
structure GrantArg where
  capidx : Nat
  holder : Nat
  hpart : Nat
  rights : Nat
  deriving DecidableEq, Repr

/-- The fields of LZ_FAB_GRANT in a register word. -/
def grantArg (w : Nat) : GrantArg := ⟨bits w 0 16, bits w 16 16, bits w 32 6, bits w 38 2⟩

/-- A GRANT or REVOKE is checked and sent (R264): REFUSED_STATE when the slot is not CAPABILITY or, for a grant, the
rights are 0. -/
def State.sendGrant (s : State) (o : Origin) (a : GrantArg) (revoke : Bool) : State :=
  if (s.slot a.capidx).kind ≠ .capability ∨ (a.rights = 0 ∧ !revoke) then
    s.engineEnd o F.fabGrant_RESULT F.fabGrant_BUSY 1
  else
    let tag := s.links.nextTag % 65536
    let token := s.capToken a.holder a.hpart a.rights a.capidx
    let m : Msg := { mtype := if revoke then 5 else 4, part := a.hpart, tag := tag, gen := s.life.genCur,
                     capidx := a.capidx, rights := a.rights, data := if revoke then [] else bvBytes token }
    let s := s.withLinks { s.links with nextTag := s.links.nextTag + 1,
                                        grant := some ⟨tag, a.holder, o, revoke⟩ }
    let s := match o with | .reg _ => s.setFld F.fabGrant_BUSY 1 | .svc _ _ => s
    s.sendCtl a.holder false m

/-- A queue may grant on a capability slot when it is the owner's, or a region of its partition names the slot
(Table 3 of the service chapter). -/
def State.grantPart (s : State) (q : Nat) (c : Cmd) (capidx : Nat) : Bool :=
  c.owner || s.rgn.rows.any fun e => decide (e.2.state ≠ .free) && e.2.capidx == capidx && e.2.part == s.qPart q

/-- GRANT or REVOKE from a register or a queue. -/
def State.grantCmd (s : State) (o : Origin) (revoke : Bool) : State :=
  match o with
  | .reg port =>
    s.ownerCmd port (s.links.grant.isSome) F.fabErr_REG_ERR fun s => s.sendGrant o (grantArg (s.rd .fabGrant)) revoke
  | .svc q k => s.svcCmd q k (if revoke then 0x49 else 0x48) fun c s =>
    let a := grantArg c.desc.arg0
    if !s.grantPart q c a.capidx then s.svcDone q k 1 2 0 0 0
    else if s.links.grant.isSome then s.setCmd q { c with st := .fetched }
    else s.sendGrant o a revoke

/-- FAB_GRANT (R264): the token is computed and sent to the holder in a GRANT message. -/
def execFabGrant (o : Origin) (s : State) : Res := .next (s.grantCmd o false)

/-- FAB_REVOKE (R264): a REVOKE message removes the holder's map entry. -/
def execFabRevoke (o : Origin) (s : State) : Res := .next (s.grantCmd o true)

/-- GRANT_UNREACHABLE (R274): a grant with no answer 1 ms after sending completes UNREACHABLE. -/
def execGrantUnreachable (s : State) : Res :=
  match s.links.grant with
  | none => .next s
  | some g =>
    .next ((s.withLinks { s.links with grant := none }).engineEnd g.origin F.fabGrant_RESULT F.fabGrant_BUSY 3)

/-! ### Arrival counters -/

/-- READ of an arrival counter (R269, Table 14): REFUSED_STATE when it is not VALID; a register read shows the counter, a
queue's returns it. -/
def State.actrReadAt (s : State) (o : Origin) (i : Nat) : State :=
  let c := s.actr i
  let w0 := i + c.part * 2 ^ 16 + (if c.valid then 2 ^ 27 else 0) + (if c.armed then 2 ^ 28 else 0) +
    (if c.err then 2 ^ 29 else 0)
  let w1 := c.count + c.target * 2 ^ 32
  match o with
  | .reg _ =>
    if !c.valid then (s.setFld F.fabActrSel_INDEX i).setFld F.fabActrSel_RESULT 1
    else (s.wr .fabActrSel w0).wr .fabActrVal w1
  | .svc q k => s.svcDone q k (if c.valid then 0 else 1) (if c.valid then 0 else 1) 0 (if c.valid then w0 else 0)
      (if c.valid then w1 else 0)

/-- CONFIG of an arrival counter (R269): VALID and ARMED, COUNT and ERR cleared; REFUSED_STATE when it is VALID for
another partition. -/
def State.actrSet (s : State) (o : Origin) (i part target : Nat) : State :=
  let c := s.actr i
  let bad := c.valid && c.part != part
  let s := if bad then s else s.setActr i { part := part, count := 0, target := target, valid := true, armed := true }
  match o with
  | .reg _ => (s.setFld F.fabActrSel_RESULT (if bad then 1 else 0)).setFld F.fabActrSel_BUSY 0
  | .svc q k => s.svcDone q k (if bad then 1 else 0) (if bad then 1 else 0) 0 0 0

/-- RELEASE of an arrival counter (R269, R274): VALID clears; REFUSED_STATE when it is not VALID. -/
def State.actrClear (s : State) (o : Origin) (i : Nat) : State :=
  let c := s.actr i
  let s := if c.valid then s.setActr i { c with valid := false, armed := false } else s
  let code := if c.valid then 0 else 1
  match o with
  | .reg _ => (s.setFld F.fabActrSel_RESULT code).setFld F.fabActrSel_BUSY 0
  | .svc q k => s.svcDone q k code code 0 0 0

/-- A command of LZ_FAB_ACTR_SEL, which waits while a swap is prepared (R369). -/
def State.actrCmd (s : State) (i : Instr) (port : Nat) (f : State → State) : State :=
  s.regCmd i port (s.fld F.fabActrSel_BUSY == 1) F.fabErr_REG_ERR F.fabActrSel_BUSY f

/-- ACTR_READ (R269). -/
def execActrRead (o : Origin) (c : BitVec 12) (s : State) : Res :=
  .next (match o with
    | .reg port => s.actrCmd (.actrRead o c) port fun s => s.actrReadAt o c.toNat
    | .svc q k => s.queueCmd (.actrRead o c) q k 0x4B fun d s =>
      let i := d.desc.arg16 % 4096
      if (s.actr i).valid && !s.mayAct q d (s.actr i).part then s.svcDone q k 1 2 0 0 0 else s.actrReadAt o i)

/-- ACTR_CONFIG (R269): from the register's PART and TARGET, or for the partition of the queue. -/
def execActrConfig (o : Origin) (c : BitVec 12) (s : State) : Res :=
  .next (match o with
    | .reg port => s.actrCmd (.actrConfig o c) port fun s =>
      (s.setFld F.fabActrSel_INDEX c.toNat).actrSet o c.toNat (s.fld F.fabActrSel_PART) (s.fld F.fabActrVal_TARGET)
    | .svc q k => s.queueCmd (.actrConfig o c) q k 0x4A fun d s =>
      let part := bits d.desc.arg0 16 6
      if !s.mayAct q d part then s.svcDone q k 1 2 0 0 0
      else s.actrSet o (d.desc.arg16 % 4096) part (d.desc.arg1 % 2 ^ 32))

/-- ACTR_RELEASE (R269). -/
def execActrRelease (o : Origin) (c : BitVec 12) (s : State) : Res :=
  .next (match o with
    | .reg port => s.actrCmd (.actrRelease o c) port fun s => (s.setFld F.fabActrSel_INDEX c.toNat).actrClear o c.toNat
    | .svc q k => s.queueCmd (.actrRelease o c) q k 0x4C fun d s =>
      let i := d.desc.arg16 % 4096
      if (s.actr i).valid && !s.mayAct q d (s.actr i).part then s.svcDone q k 1 2 0 0 0 else s.actrClear o i)

end Sys2Proof.Machine
end

