-- ==== Sys2Proof/Machine/Domain.lean ====
section
/-! DEFINITION. The commands of the domain agent (R275 to R290): admission, epoch advances, leases, ballots and the units
that reset; and the tick of domain time (R39, R286). -/

namespace Sys2Proof.Machine

/-! ### The seat -/

/-- The seat unit this block acknowledges: that of the ballot it holds. -/
def State.seatUnit (s : State) : Option Nat := s.dom.ballot.map (·.unit)

/-- The held ballot is in use here (R287): it names this block, and domain time lies in its window but for the last
100 ms. -/
def State.ballotInUse (s : State) : Bool :=
  match s.dom.ballot with
  | none => false
  | some b => decide (s.dom.state = .seat ∧ b.unit = s.unit ∧ b.notBefore ≤ s.life.time
      ∧ s.life.time + 100000000 ≤ b.notAfter)

/-- The 16 B prefix of a DOMAIN message (R278). -/
def domPrefix (dtype exch epoch : Nat) : Bytes := leBytes 1 dtype ++ [1, 0, 0] ++ leBytes 4 exch ++ leBytes 8 epoch

/-- The membership bitmap of 2,048 B (R276). -/
def memberBitmap (ms : NatSet) : Bytes :=
  (upto 0 2048).map fun j => BitVec.ofNat 8
    (((upto 0 8).map fun i => if ms.contains (8 * j + i) then 2 ^ i else 0).sum)

/-- KEK of an epoch key wrapped for a unit (R283). -/
def epochKek (ssk : BitVec 256) (sse : Bytes) (dom : BitVec 128) (epoch unit : Nat) : Key :=
  Config.kmac256 (bvBytes ssk ++ padTo 48 sse) (bvBytes dom ++ leBytes 8 epoch ++ leBytes 2 unit) 256 (ascii "LZEPK1")

/-- PREPARE to one member (R283): the epoch key is wrapped under a key from both agreements. -/
def State.sendPrepare (s : State) (a : Advance) (eph u : Nat) : State :=
  match tget none s.dom.records u with
  | none => s
  | some r =>
    let s := s.reseed
    let (ct, ssk) := Config.mlkemEncaps s.keys.draws r.ek
    let s := s.drew.pkuOwn 2
    let kek := epochKek ssk (Config.ecdh eph r.ecdh) s.domPlot.domId a.epoch u
    let (w, tag) := gcmSeal kek (zeros 12) (domPrefix 5 0 s.epochNo) (bvBytes a.key)
    let body := leBytes 8 a.epoch ++ padTo 97 (Config.ecdhPk eph) ++ zeros 7 ++ padTo 1568 ct ++ w ++ bvBytes tag ++
      memberBitmap a.members ++ leBytes 2 a.gens.length ++ zeros 6 ++
      (a.gens.map fun g => leBytes 2 g.1 ++ leBytes 1 g.2 ++ [0]).flatten
    s.sendMember "PREPARE" 5 u body

/-- The generations of a membership: what is held for each member, this block's own, and those of fresh records. -/
def State.gensOf (s : State) (ms : NatSet) : Tbl Nat :=
  ms.map fun u =>
    (u, if u = s.unit then s.life.genCur
        else match tget none s.dom.records u with
          | some r => r.gen
          | none => (s.genOf u).getD 0)

/-- The member key record of this block (R281). -/
def State.memberRecord (s : State) : Bytes :=
  bvBytes s.ident ++ leBytes 2 s.unit ++ leBytes 1 s.life.genCur ++ zeros 5 ++ padTo 1568 (Config.mlkemPk s.dom.keyNo) ++
  padTo 97 (Config.ecdhPk s.dom.keyNo) ++ zeros 7

/-- The member key record that 1,696 bytes hold: the unit and the record. -/
def MemberRec.parse (b : Bytes) : Nat × MemberRec :=
  (le b 16 2, { ident := BitVec.ofNat 128 (le b 0 16), gen := le b 18 1, ek := sub b 24 1568, ecdh := sub b 1592 97 })

/-- RECORDS to the other candidates (R281): the record of every member, this block's own among them. -/
def State.sendRecords (s : State) : State :=
  let own := (MemberRec.parse s.memberRecord).2
  let rs := (tset none s.dom.records s.unit (some own)).filterMap fun e => e.2.map fun r => (e.1, r)
  let body := leBytes 2 ((rs.head?.map (·.1)).getD 0) ++ leBytes 2 rs.length ++ zeros 4 ++
    (rs.map fun e => bvBytes e.2.ident ++ leBytes 2 e.1 ++ leBytes 1 e.2.gen ++ zeros 5 ++ padTo 1568 e.2.ek ++
      padTo 97 e.2.ecdh ++ zeros 7).flatten
  (s.domPlot.cands.filter (· != s.unit)).foldl (fun s u => s.sendMember "RECORDS" 14 u body) s

/-- COMMIT of the advance in progress (R283): members that have answered, and units it leaves out on their own wish, hear
it; the seat makes the epoch its own; candidates get the records when the membership changed. -/
def State.sendCommit (s : State) : State :=
  match s.dom.advance with
  | none => s
  | some a =>
    let ms := a.members.filter fun u => u == s.unit || a.prepared.contains u
    let left := s.dom.drop.filter fun u => s.isMember u && !a.members.contains u
    let e : EpochKey := { epoch := a.epoch, key := a.key, members := ms, gens := a.gens.filter fun g => ms.contains g.1 }
    let changed := (s.dom.cur.map (·.members)) != some ms || !s.dom.admitted.isEmpty
    let others := ms.filter (· != s.unit)
    let s := (others ++ left).foldl (fun s u => s.sendMember "COMMIT" 7 u (leBytes 8 a.epoch)) s
    let s := (s.withDom { s.dom with next := some e }).commitNext
    let s := s.withDom { s.dom with
      advance := some { a with members := ms, waiting := some others },
      admitted := s.dom.admitted.filter fun u => !ms.contains u, drop := s.dom.drop.filter ms.contains,
      records := s.dom.records.filter fun r => ms.contains r.1 || s.dom.admitted.contains r.1,
      heard := s.dom.heard.filter fun h => ms.contains h.1 }
    if changed then s.sendRecords else s

/-- The seat proposes an epoch (R277, R283): the members in force, those admitted, and without those dropped. With no
other member it commits at once. A count at its end waits for a ballot of higher seat epoch; while ES_FAIL is set the keys'
draws wait (R196). -/
def State.propose (s : State) : State :=
  match s.dom.ballot with
  | none => s
  | some b =>
    if s.dom.state ≠ .seat then s
    else if s.dom.lastCount + 1 ≥ 2 ^ 32 ∨ !s.predOk then s.withDom { s.dom with again := true }
    else
      let cur := match s.dom.cur with | some e => e.members | none => []
      let ms := (s.dom.admitted.foldl nsInsert (nsInsert cur s.unit)).filter fun u => !s.dom.drop.contains u
      let count := s.dom.lastCount + 1
      let gens := s.gensOf ms
      let s := s.reseed
      let a : Advance := { epoch := b.epoch * 2 ^ 32 + count, key := s.drawn 256, members := ms, gens := gens }
      let s := s.drew.reseed
      let eph := s.keys.draws
      let s := s.drew
      let s := s.withDom { s.dom with lastCount := count, advance := some a, again := false }
      let others := ms.filter (· != s.unit)
      if others.isEmpty then
        let s := s.sendCommit
        let s := if s.dom.advanceBusy then s.domEnd 0 else s
        s.withDom { s.dom with advance := none, advanceBusy := false }
      else others.foldl (fun s u => s.sendPrepare a eph u) s

/-- A change of membership, or a re-key, is wanted: an advance starts, or follows the one in progress. -/
def State.wantEpoch (s : State) : State :=
  if s.dom.advance.isSome then s.withDom { s.dom with again := true } else s.propose

/-- An epoch that waited for a count or for the DRBG is proposed. -/
def State.proposeWaiting (s : State) : State :=
  if s.dom.again ∧ s.dom.advance.isNone then (s.withDom { s.dom with again := false }).propose else s

/-- The advance has ended at every member (R283): a waiting ADVANCE command completes, and what has come up since starts
the next one. -/
def State.endAdvance (s : State) : State :=
  let busy := s.dom.advanceBusy && !s.dom.again
  let s := s.withDom { s.dom with advance := none, advanceBusy := s.dom.advanceBusy && s.dom.again }
  let s := if busy then s.domEnd 0 else s
  s.proposeWaiting

/-- Ends an advance whose COMMIT needs no further answer. -/
def State.endIfDone (s : State) : State :=
  if s.dom.advance.any (fun a => a.waiting == some []) then s.endAdvance else s

/-- ABORT to the members of an advance that has not sent COMMIT (R283). -/
def State.abortAdvance (s : State) : State :=
  match s.dom.advance with
  | none => s
  | some a =>
    let s := if a.waiting.isSome then s
      else (a.members.filter (· != s.unit)).foldl (fun s u => s.sendMember "ABORT" 9 u (leBytes 8 a.epoch)) s
    let s := if s.dom.advanceBusy then s.domEnd 1 else s
    s.withDom { s.dom with advance := none, advanceBusy := false, again := false }

/-- FLOW_REKEY (R255): a flow whose key has reached 3 × 2^38 frames moves to its next generation, as does a RADIO flow
whose cell key has turned over. At FGEN 16,383 it cannot move: it asks the domain agent for an epoch advance, which a
seat runs; a member has no message that passes the wish on (log 63). -/
def execFlowRekey (flow : BitVec 32) (dest : BitVec 16) (s : State) : Res :=
  match s.links.tx.find? fun f => f.dest == dest.toNat && flowId s.unit f.lane f.fgen == flow.toNat with
  | none => .next s
  | some f =>
    let due := if f.lane = 0 then decide (f.slot ≠ s.pair.radioSlot)
      else !f.epoch0 && decide (3 * 2 ^ 38 ≤ (s.slot f.slot).usage)
    if !due then .next s
    else if f.fgen < 16383 then .next ((s.moveTx f f.waiting).getD s)
    else if s.dom.asked then .next s
    else
      let s := s.withDom { s.dom with asked := true }
      .next (if s.dom.state = .seat then s.wantEpoch else s)

/-! ### Ballots -/

/-- Ballot fields (Table 4 of the domain chapter). -/
def Ballot.parse (b : Bytes) : Ballot :=
  { unit := le b 32 2, epoch := le b 40 8, notBefore := le b 48 8, notAfter := le b 56 8,
    hash := Config.sha3_384 (b.take 7491), bytes := b.take 7491 }

/-- The check of a ballot (R282), as the RESULT codes of LZ_DOM_MBOX_CTL: 1 accepted, 2 a signature or key, 3 stale, 4
format, 5 not a candidate. -/
def State.checkBallot (s : State) (b : Bytes) : Nat :=
  let x := Ballot.parse b
  let pk := (sub b 64 2592, sub b 2656 97)
  if b.length < 7491 ∨ sub b 0 8 ≠ ascii "LZBALLOT" ∨ le b 8 2 ≠ 1 ∨ zeroAt b 10 6 = false ∨ zeroAt b 34 6 = false
      ∨ zeroAt b 2753 15 = false ∨ le b 16 16 ≠ s.domPlot.domId.toNat ∨ 2 ^ 32 ≤ x.epoch
      ∨ x.notBefore + 1000000000 < x.notAfter then 4
  else if Config.sha3_384 (pk.1 ++ pk.2) ≠ s.domPlot.fmDigest
      ∨ verifyBoth pk (b.take 2768) (ascii "LZBALLOT") (sub b 2768 4723) = false then 2
  else if !s.domPlot.cands.contains x.unit then 5
  else
    match s.dom.ballot with
    | none => 1
    | some h =>
      if x.epoch < h.epoch ∨ (x.epoch = h.epoch ∧ x.hash ≠ h.hash)
          ∨ (x.unit ≠ h.unit ∧ x.notBefore < h.notAfter + 100000000) then 3
      else 1

/-- Takes a ballot (R282, Table 1): the code of its check; an accepted one that names this unit makes it SEAT, and one
that names another makes a seat a member. Conflicting content under the held seat epoch is counted (R301). -/
def State.takeBallot (s : State) (b : Bytes) : Nat × State :=
  let code := s.checkBallot b
  let s := if code = 4 then s else s.pkuOwn 2
  let x := Ballot.parse b
  if code ≠ 1 then
    (code, if code = 3 ∧ s.dom.ballot.any (fun h => h.epoch == x.epoch && h.hash != x.hash) then
      s.incFld F.domErr_NONMEMBER else s)
  else
    let newer := match s.dom.ballot with | some h => decide (h.epoch < x.epoch) | none => true
    let d := s.dom
    let s := s.withDom { d with ballot := some x, lastCount := if newer then 0 else d.lastCount,
                                ballotSent := if newer then [] else d.ballotSent }
    if x.unit = s.unit then
      match d.state with
      | .detached | .member | .fallowHold =>
        let s := if d.state = .fallowHold then s.liftFallow else s
        (1, (s.withDom { s.dom with state := .seat, exch := none, admitOk := false }).propose)
      | .seat => (1, s.proposeWaiting)
      | _ => (1, s)
    else if d.state = .seat then
      let s := s.abortAdvance
      (1, s.withDom { s.dom with state := .member, leaseEnd := s.life.time + 2000000000 })
    else (1, s)

/-- The bytes of a mailbox of registers. -/
def State.boxBytes (s : State) (r : Reg) (n : Nat) (port : Nat := 0) : Bytes :=
  ((upto 0 (ceilDiv n 8)).map fun j => leBytes 8 (s.rd r j 0 port)).flatten.take n

/-- Puts bytes into a mailbox of registers. -/
def State.fillBox (s : State) (r : Reg) (b : Bytes) (port : Nat := 0) : State :=
  (upto 0 (ceilDiv b.length 8)).foldl (fun s j => s.wr r (le b (8 * j) 8) j 0 port) s

/-- BALLOT_POST (R282): the mailbox is submitted as a ballot; any controller may post one. -/
def execBallotPost (port : Nat) (len : BitVec 14) (s : State) : Res :=
  if !s.regsOpen then .next s
  else
    let s := s.setFld F.domMboxCtl_LEN len.toNat
    let b := s.boxBytes .domMbox len.toNat
    let (code, s) := if len.toNat ≠ 7491 then (4, s) else s.takeBallot b
    .next (((s.setFld F.domMboxCtl_POST 0).setFld F.domMboxCtl_RESULT code).regRsp port 0 false)

/-- BALLOT (R282): a BALLOT message is checked, and accepted or discarded. -/
def execBallot (_src : BitVec 16) (rec : Bytes) (s : State) : Res := .next (s.takeBallot rec).2

/-! ### Commands of the owner -/

/-- A domain command from the owner (R302): REFUSED_LC in BLANK and END_OF_LIFE, otherwise the command. -/
def State.domCmd (s : State) (port : Nat) (f : State → State) : State :=
  s.ownerCmd port (s.fld F.domCtl_BUSY == 1) F.domErr_REG_ERR fun s =>
    let s := s.setFld F.domCtl_BUSY 1
    if s.life.lc = .blank ∨ s.life.lc = .endOfLife then s.domEnd 4 else f s

/-- DOM_JOIN (R277): in DETACHED, admission starts with HELLO to the first candidate. -/
def execDomJoin (port : Nat) (s : State) : Res :=
  .next (s.domCmd port fun s =>
    if s.dom.state ≠ .detached then s.domEnd 1
    else (s.withDom { s.dom with joinBusy := true }).startJoin)

/-- DOM_LEAVE (R277): in MEMBER and SEAT, LEAVE goes to the seat and the agent is LEAVING. -/
def execDomLeave (port : Nat) (s : State) : Res :=
  .next (s.domCmd port fun s =>
    if s.dom.state ≠ .member ∧ s.dom.state ≠ .seat then s.domEnd 1
    else
      let s := s.abortAdvance
      let s := s.withDom { s.dom with state := .leaving, leaveBusy := true }
      match s.seatUnit with
      | some u => if u = s.unit then s else s.sendMember "LEAVE" 15 u []
      | none => s)

/-- DOM_ADVANCE (R283): in SEAT, a domain-wide advance runs. -/
def execDomAdvance (port : Nat) (s : State) : Res :=
  .next (s.domCmd port fun s =>
    if s.dom.state ≠ .seat then s.domEnd 1
    else (s.withDom { s.dom with advanceBusy := true }).wantEpoch)

/-! ### Admission -/

/-- TH of an exchange at a message (R278): the bodies so far and this body up to its signatures. -/
def exchHash (bodies body : Bytes) : Bytes := bvBytes (Config.sha3_384 (bodies ++ body))

/-- HELLO (R278): a candidate answers a joiner with CHALLENGE, which carries the ballot it holds; one that holds none
answers ADMIT with NOT_SEAT. While ES_FAIL is set it does not answer (R196). -/
def execHello (src : BitVec 16) (exch : BitVec 32) (body : Bytes) (s : State) : Res :=
  match s.dom.ballot with
  | none => .next (s.sendDom "ADMIT" 4 src.toNat exch.toNat true ([5] ++ zeros 15))
  | some b =>
    if !s.predOk then .next s else
    let head := leBytes 2 s.unit ++ zeros 6 ++ bvBytes (s.drawn 256) ++ padTo 7491 b.bytes ++ chainField s.chainBytes
    let s := s.drew
    let (sigs, s) := s.signBoth (exchHash body head) (ascii "LZADMIT")
    let x : Exch := { peer := src.toNat, exch := exch.toNat, bodies := body ++ head ++ sigs,
                      ident := BitVec.ofNat 128 (le body 8 16), gen := le body 2 1 }
    let others := s.dom.exchs.filter fun y => y.peer != src.toNat
    let s := s.withDom { s.dom with exchs := others ++ [x] }
    .next (s.sendDom "CHALLENGE" 2 src.toNat exch.toNat true (head ++ sigs))

/-- The chain field at an offset of a body: its length, the chain, and the offset after it. -/
def chainAt (b : Bytes) (off : Nat) : Bytes × Nat :=
  let n := le b off 4
  (sub b (off + 8) n, off + 8 + ceilDiv n 16 * 16)

/-- A chain and the signatures that end a body verify over the exchange so far (R278, R280). -/
def chainSigs (bodies b : Bytes) (off : Nat) : Option Bytes :=
  let (chain, e) := chainAt b off
  match Config.certChain chain with
  | none => none
  | some pk =>
    if le b off 4 ≤ 16384 ∧ verifyBoth pk (exchHash bodies (b.take e)) (ascii "LZADMIT") (sub b e 4723) then some chain
    else none

/-- The evidence record of this block (Table 3a of the domain chapter). -/
def State.evidenceRecord (s : State) : Bytes :=
  let p := s.cfg.active
  bvBytes s.ident ++ leBytes 4 (s.rd .stepping) ++ leBytes 4 ((p.map (·.grade)).getD 0) ++ leBytes 4 s.life.lc.code ++
  zeros 4 ++ bvBytes s.keys.meas ++ leBytes 8 ((s.fwu.running.map (·.version)).getD 0) ++
  bvBytes ((p.map (·.accVersion)).getD 0) ++ leBytes 8 ((p.map (·.version)).getD 0) ++
  bvBytes ((p.map (·.hash)).getD 0) ++ ((upto 0 8).map fun j => leBytes 8 (s.rd .disabledMap j)).flatten ++
  leBytes 8 s.keys.epochCount ++ zeros 24

/-- CHALLENGE (R280): a joiner that finds the candidate's chain, signatures and ballot good takes the ballot and sends
EVIDENCE; otherwise it sends nothing. -/
def execChallenge (src : BitVec 16) (exch : BitVec 32) (body : Bytes) (s : State) : Res :=
  match s.dom.exch with
  | none => .next s
  | some x =>
    if x.peer ≠ src.toNat ∨ x.exch ≠ exch.toNat ∨ (s.dom.state ≠ .joining ∧ s.dom.state ≠ .fallowHold) then .next s
    else
      match chainSigs x.bodies body 7531 with
      | none => .next (s.forgetEpoch0 src.toNat)
      | some _ =>
        let (code, s) := (s.pkuOwn 2).takeBallot (sub body 40 7491)
        if code ≠ 1 ∨ (s.dom.state ≠ .joining ∧ s.dom.state ≠ .fallowHold) ∨ !s.predOk then .next s
        else
          let bodies := x.bodies ++ body
          let head := s.evidenceRecord ++ s.memberRecord ++ chainField s.chainBytes
          let (sigs, s) := s.signBoth (exchHash bodies head) (ascii "LZADMIT")
          let s := s.withDom { s.dom with exch := some { x with bodies := bodies ++ head ++ sigs } }
          .next (s.sendDom "EVIDENCE" 3 src.toNat exch.toNat true (head ++ sigs))

/-- The admission status of a joiner's evidence (R280, Table 3), in the order of its codes. -/
def State.admission (s : State) (x : Exch) (body : Bytes) : Nat :=
  let p := s.domPlot
  let unit := le x.bodies 0 2
  let lc := le body 24 4
  if le x.bodies 24 16 ≠ p.domId.toNat then 1
  else if (match chainSigs x.bodies body 1952 with
    | none => true
    | some chain => decide (Config.certIdent chain ≠ x.ident ∨ le body 0 16 ≠ x.ident.toNat)) then 2
  else if ¬ (lc = Lc.production.code ∨ (p.testOk = true ∧ lc = Lc.test.code))
      ∨ p.meas.contains (BitVec.ofNat 384 (le body 32 48)) = false ∨ le body 104 8 < p.minVersion then 3
  else if s.isMember unit && (match tget none s.dom.records unit with
    | some r => r.ident != x.ident
    | none => unit == s.unit) then 4
  else if !s.ballotInUse then 5
  else if s.dom.advance.isSome then 6
  else 0

/-- EVIDENCE (R280): the seat runs the checks of Table 3 and answers ADMIT; an admitted joiner's record is held and an
epoch with it is proposed at once. -/
def execEvidence (src : BitVec 16) (exch : BitVec 32) (body : Bytes) (s : State) : Res :=
  match s.dom.exchs.find? fun x => x.peer == src.toNat && x.exch == exch.toNat with
  | none => .next s
  | some x =>
    let st := s.admission x body
    let s := (s.pkuOwn 2).withDom { s.dom with exchs := s.dom.exchs.filter fun y => !(y.peer == src.toNat) }
    let epoch := match s.dom.ballot with | some b => b.epoch * 2 ^ 32 + s.dom.lastCount + 1 | none => 0
    let s := s.sendDom "ADMIT" 4 src.toNat exch.toNat true
      (leBytes 1 st ++ zeros 7 ++ leBytes 8 (if st = 0 then epoch else 0))
    let s := s.forgetEpoch0 src.toNat
    if st ≠ 0 then .next s
    else
      let u := le x.bodies 0 2
      let rec_ := (MemberRec.parse (sub body 256 1696)).2
      let s := s.withDom { s.dom with
        records := tset none s.dom.records u (some { rec_ with gen := x.gen }),
        admitted := nsInsert s.dom.admitted u, drop := s.dom.drop.filter (· != u) }
      .next s.wantEpoch

/-- Joining ends without an admission (Table 1): DETACHED, with the command's RESULT. -/
def State.joinFailed (s : State) (code : Nat) : State :=
  let busy := s.dom.joinBusy
  let s := s.withDom { s.dom with state := .detached, exch := none, joinBusy := false, admitOk := false }
  if busy then s.domEnd code else s

/-- ADMIT (R277): an admitted joiner waits for its epoch; NOT_SEAT or BUSY sends it to the next candidate; any other
refusal is shown in CAUSE, recorded, and ends joining. -/
def execAdmit (src : BitVec 16) (exch : BitVec 32) (status : BitVec 8) (_epoch : Word) (s : State) : Res :=
  match s.dom.exch with
  | none => .next s
  | some x =>
    if x.peer ≠ src.toNat ∨ x.exch ≠ exch.toNat ∨ 6 < status.toNat
        ∨ (s.dom.state ≠ .joining ∧ s.dom.state ≠ .fallowHold) then .next s
    else
      let s := (s.forgetEpoch0 src.toNat).setFld F.domStat_CAUSE status.toNat
      if status = 0 then .next (s.withDom { s.dom with exch := none, admitOk := true })
      else if status = 5 ∨ status = 6 then
        .next ((s.withDom { s.dom with exch := none }).sendHello (s.dom.cand + 1))
      else
        let s := s.record .admitRefused .domain 0 none status.toNat 0
        if s.dom.state = .joining then .next (s.joinFailed 2)
        else .next (s.withDom { s.dom with exch := none })

/-- ADMISSION_TIMEOUT (R277): a candidate's 100 ms end and the next one is tried; 1 s after joining began, the block is
DETACHED again. -/
def execAdmissionTimeout (s : State) : Res :=
  match s.dom.state with
  | .joining =>
    if s.dom.joinedAt + 1000000000 ≤ s.life.time then .next (s.joinFailed 3)
    else if s.dom.admitOk then .next s
    else .next ((s.withDom { s.dom with exch := none }).sendHello (s.dom.cand + 1))
  | .fallowHold =>
    if s.dom.exch.isNone then .next s
    else .next ((s.withDom { s.dom with exch := none }).sendHello (s.dom.cand + 1))
  | _ => .next s

/-! ### Epoch advances -/

/-- PREPARE (R283, R289): a member, or a unit that has been admitted, unwraps the epoch key and holds it as next; `wrap` is
the message's prefix, key share, ciphertext and wrapped key. The generation list updates those held (R290). A block in
fallow-hold that has not been admitted again refuses it. -/
def execPrepare (src : BitVec 16) (epoch : Word) (wrap : Bytes) (members : List (BitVec 16))
    (gens : List (BitVec 16 × BitVec 8)) (s : State) : Res :=
  let ms := members.foldl (fun (t : NatSet) u => nsInsert t u.toNat) []
  let may := match s.dom.state with
    | .member => true
    | .joining | .fallowHold => s.dom.admitOk
    | _ => false
  if !may ∨ s.seatUnit ≠ some src.toNat ∨ epoch.toNat ≤ s.epochNo ∨ ms.contains s.unit = false then .next s
  else
    let ssk := Config.mlkemDecaps s.dom.keyNo (sub wrap 120 1568)
    let sse := Config.ecdh s.dom.keyNo (sub wrap 16 97)
    let kek := epochKek ssk sse s.domPlot.domId epoch.toNat s.unit
    let s := s.pkuOwn 2
    match gcmOpen kek (zeros 12) (wrap.take 16) (sub wrap 1688 32) (BitVec.ofNat 128 (le wrap 1720 16)) with
    | none => .next s
    | some key =>
      let held := (s.dom.cur.elim [] (·.gens)).filter fun g => ms.contains g.1
      let e : EpochKey := { epoch := epoch.toNat, key := BitVec.ofNat 256 (ofLE key), members := ms,
                            gens := gens.foldl (fun (t : Tbl Nat) g => tset 0 t g.1.toNat g.2.toNat) held }
      let s := s.withDom { s.dom with next := some e }
      .next (s.sendDom "PREPARED" 6 src.toNat 0 s.dom.cur.isNone (leBytes 8 epoch.toNat))

/-- PREPARED (R283): when every proposed member has answered, the seat sends COMMIT. -/
def execPrepared (src : BitVec 16) (epoch : Word) (s : State) : Res :=
  match s.dom.advance with
  | none => .next s
  | some a =>
    if a.epoch ≠ epoch.toNat ∨ a.waiting.isSome ∨ a.members.contains src.toNat = false then .next s
    else
      let a := { a with prepared := nsInsert a.prepared src.toNat }
      let s := s.withDom { s.dom with advance := some a }
      if a.members.all fun u => u == s.unit || a.prepared.contains u then .next s.sendCommit.endIfDone else .next s

/-- PREPARE_TIMEOUT (R283): 100 ms after the last PREPARE the seat sends COMMIT without the members that have not
answered. -/
def execPrepareTimeout (s : State) : Res :=
  match s.dom.advance with
  | none => .next s
  | some a =>
    if a.waiting.isSome then .next s else .next s.sendCommit.endIfDone

/-- COMMIT (R283): next becomes current and COMMITTED is answered; a leaving unit that the epoch excludes is DETACHED. -/
def execCommit (src : BitVec 16) (epoch : Word) (s : State) : Res :=
  if s.seatUnit ≠ some src.toNat then .next s
  else
    match s.dom.next with
    | some e =>
      if e.epoch ≠ epoch.toNat then .next s
      else .next ((s.commitNext).retryWaiting.sendMember "COMMITTED" 8 src.toNat (leBytes 8 epoch.toNat))
    | none =>
      if s.dom.state = .leaving ∧ s.epochNo < epoch.toNat then .next ((s.detach).domEnd 0)
      else if s.epochNo = epoch.toNat ∧ s.dom.cur.isSome then
        .next (s.sendMember "COMMITTED" 8 src.toNat (leBytes 8 epoch.toNat))
      else .next s

/-- COMMIT_REPEAT (R283): the seat repeats COMMIT to the members that have not answered. -/
def execCommitRepeat (s : State) : Res :=
  match s.dom.advance with
  | some a => .next ((a.waiting.getD []).foldl (fun s u => s.sendMember "COMMIT" 7 u (leBytes 8 a.epoch)) s)
  | none => .next s

/-- COMMITTED (R283): with the last answer the advance has ended. -/
def execCommitted (src : BitVec 16) (epoch : Word) (s : State) : Res :=
  match s.dom.advance with
  | none => .next s
  | some a =>
    match a.waiting with
    | none => .next s
    | some w =>
      if a.epoch ≠ epoch.toNat then .next s
      else
        let w := w.filter (· != src.toNat)
        let s := s.withDom { s.dom with advance := some { a with waiting := some w } }
        if w.isEmpty then .next s.endAdvance else .next s

/-- ABORT (R283): a member discards next. -/
def execAbort (src : BitVec 16) (epoch : Word) (s : State) : Res :=
  if s.seatUnit = some src.toNat ∧ s.dom.next.any (fun e => e.epoch == epoch.toNat) then
    .next (s.withDom { s.dom with next := none })
  else .next s

/-- EPOCH_GRACE_END (R284): flows still under the old epoch move to a new generation under the current one, and the old
key is destroyed. -/
def execEpochGraceEnd (s : State) : Res :=
  match s.dom.old with
  | none => .next s
  | some e =>
    let mine := fun (f : TxFlow) => !f.epoch0 && f.lane != 0 && f.epoch == e.epoch
    let s := (s.links.tx.filter mine).foldl (fun s f => (s.moveTx f f.waiting).getD (s.setTx { f with down := true })) s
    let s := (s.links.rx.filter fun f => !f.epoch0 && f.lane != 0 && f.epoch == e.epoch).foldl State.dropRx s
    .next (s.withDom { s.dom with old := none }).retryWaiting

/-! ### Leases -/

/-- HEARTBEAT_SEND (R287): a member sends HEARTBEAT with its time to the seat. -/
def execHeartbeatSend (s : State) : Res :=
  match s.seatUnit with
  | some u =>
    if s.dom.state = .member ∨ s.dom.state = .leaving then .next (s.sendMember "HEARTBEAT" 10 u (leBytes 8 s.life.time))
    else .next s
  | none => .next s

/-- HEARTBEAT (R287): the seat notes the member, and while its ballot is in use answers LEASE; the first under a ballot
follows the ballot itself. An epoch that waited for the DRBG is proposed (R196). -/
def execHeartbeat (src : BitVec 16) (time : Word) (s : State) : Res :=
  if s.dom.state ≠ .seat ∨ s.isMember src.toNat = false then .next s
  else
    let u := src.toNat
    let s := s.withDom { s.dom with heard := tput s.dom.heard u s.life.time }
    let s := s.proposeWaiting
    match s.dom.ballot with
    | none => .next s
    | some b =>
      if !s.ballotInUse then .next s
      else
        let s := if s.dom.ballotSent.contains u then s
          else (s.withDom { s.dom with ballotSent := nsInsert s.dom.ballotSent u }).sendMember "BALLOT" 12 u b.bytes
        .next (s.sendMember "LEASE" 11 u (leBytes 8 time.toNat ++ leBytes 8 s.life.time ++
          leBytes 8 (s.life.time + 2000000000) ++ leBytes 8 b.epoch ++ bvBytes b.hash))

/-- LEASE (R286, R287): a member takes the lease of the seat it acknowledges and disciplines domain time: an offset above
1 ms is stepped, any other is slewed. One that finds the lease end passed is too late: the hold is taken (R301). -/
def execLease (src : BitVec 16) (echoed : Word) (seatTime : Word) (leaseEnd : Word) (_seatEpoch : Word)
    (_ballotHash : Digest) (s : State) : Res :=
  if s.dom.state ≠ .member ∨ s.seatUnit ≠ some src.toNat then .next s
  else if s.dom.leaseEnd < s.life.time then .next s.enterFallow
  else
    let now := s.life.time
    let offset : Int := (seatTime.toNat + (now - echoed.toNat) / 2 : Nat) - (now : Int)
    let s := s.withDom { s.dom with leaseEnd := leaseEnd.toNat }
    if 1000000 < offset then .next { s with life := { s.life with time := now + offset.toNat, slew := 0 } }
    else .next { s with life := { s.life with slew := offset } }

/-- MEMBER_SILENT (R287): the seat proposes an epoch without a member it has not heard for 2.5 s; one it has never heard
is given the time the command asserts. -/
def execMemberSilent (u : BitVec 16) (s : State) : Res :=
  if s.dom.state ≠ .seat ∨ u.toNat = s.unit ∨ s.isMember u.toNat = false
      ∨ s.dom.heard.any (fun h => h.1 == u.toNat && decide (s.life.time < h.2 + 2500000000)) then .next s
  else .next (s.withDom { s.dom with drop := nsInsert s.dom.drop u.toNat }).wantEpoch

/-- LEASE_EXPIRY (R289): domain time has passed the lease end, and the member holds. -/
def execLeaseExpiry (s : State) : Res :=
  if s.dom.state = .member ∧ s.dom.leaseEnd < s.life.time then .next s.enterFallow else .next s

/-- BALLOT_LAPSE (R277): domain time has passed the ballot's not_after less 100 ms, and the seat holds. -/
def execBallotLapse (s : State) : Res :=
  match s.dom.ballot with
  | some b =>
    if s.dom.state = .seat ∧ b.notAfter < s.life.time + 100000000 then .next (s.abortAdvance).enterFallow else .next s
  | none => .next s

/-- FALLOW_RETRY (R289): after 1 s in fallow-hold without admission the candidates are tried again. -/
def execFallowRetry (s : State) : Res :=
  if s.dom.state = .fallowHold then
    .next ((s.withDom { s.dom with joinedAt := s.life.time, admitOk := false }).sendHello 0)
  else .next s

/-- LEAVE_TIMEOUT (R277): 1 s after LEAVE the block is DETACHED. -/
def execLeaveTimeout (s : State) : Res :=
  if s.dom.state = .leaving then
    let busy := s.dom.leaveBusy
    let s := s.detach
    .next (if busy then s.domEnd 0 else s)
  else .next s

/-! ### Units -/

/-- DOWN (R290): a peer that resets has its flows marked DOWN; in FENCE mode it is fenced. A DOWN from the partner makes it
LOST (R298). -/
def execDown (src : BitVec 16) (_gen : BitVec 8) (s : State) : Res :=
  let s := s.unitDown src.toNat
  if s.pairPlot.any (fun p => p.partner == src.toNat) ∧ (s.pair.state = .up ∨ s.pair.state = .bootstrap) then
    .next (s.losePartner true)
  else .next s

/-- RECORDS (R281): a candidate takes the seat's records of the members. -/
def execRecords (src : BitVec 16) (recs : List Bytes) (s : State) : Res :=
  if s.seatUnit ≠ some src.toNat ∨ s.domPlot.cands.contains s.unit = false then .next s
  else
    .next (recs.foldl (fun s b =>
      let r := MemberRec.parse b
      s.withDom { s.dom with records := tset none s.dom.records r.1 (some r.2) }) s)

/-- LEAVE (R277): the seat proposes an epoch without the member. -/
def execLeave (src : BitVec 16) (s : State) : Res :=
  if s.dom.state ≠ .seat ∨ src.toNat = s.unit ∨ s.isMember src.toNat = false then .next s
  else .next (s.withDom { s.dom with drop := nsInsert s.dom.drop src.toNat }).wantEpoch

end Sys2Proof.Machine
end

