-- ==== Sys2Proof/Machine/PairCmds.lean ====
section
/-! DEFINITION. The commands of the redundancy pair (R291 to R302) and the tick of domain time (R39, R286). -/

namespace Sys2Proof.Machine

/-- DOMAIN_TICK (R39, R286, R456): domain time advances by 1,000 ns, by 1,001 while it is behind and by 999 while it is
ahead, and while the block is not MEMBER it runs free; lz_pwr_telem takes the power of the period, and keeps its reset value 0 until READY and while a warm reset
settles (R48). -/
def execDomainTick (mw : BitVec 16) (s : State) : Res :=
  let l := s.life
  let l := if s.dom.state ≠ .member then { l with time := l.time + 1000 }
    else if 0 < l.slew then { l with time := l.time + 1001, slew := l.slew - 1 }
    else if l.slew < 0 then { l with time := l.time + 999, slew := l.slew + 1 }
    else { l with time := l.time + 1000 }
  let scu := s.svc.scu
  let bucket := scu.bucket.map fun (e : Nat × Option Nat) => (e.1, e.2.map fun x =>
    min (x + s.fld F.partRate_SVC_RATE e.1) (1000 * max 1 (s.fld F.partRate_SVC_BURST e.1)))
  let svc := { s.svc with scu := { scu with bucket := bucket } }
  .next { s with life := { l with telem := if s.outsReset then 0 else mw }, svc := svc }

/-- PAIR_BOOTSTRAP (R291): an exchange whose other side carries the partner's unit identity and whose signatures verify
gives the pair link key (the agreed secrets are not known) and the partner's public key; the roles exchanged are
resolved, and epochs that were in conflict before take the higher one + 1 (R300); the next record is a full one (R296). While the block is brought up, RESTORE_REQ follows when a restore
is awaited (R392), and a full record on a virgin start. -/
def execPairBootstrap (th : Bytes) (peerId : BitVec 128) (sigs : Bool) (meas : Digest) (peerKey : Bytes)
    (peerEpoch : Word) (peerPrimary : List (BitVec 32)) (s : State) : Res :=
  match s.pairPlot with
  | none => .next s
  | some p =>
    if !sigs ∨ peerId ≠ p.partnerId ∨ ¬ (s.pair.state = .bootstrap ∨ s.pair.state = .lost) then .next s
    else
      let ss := bvBytes (s.freeVal 640)
      let key := Config.kmac256 ss th 256 (ascii "LZPAIR1")
      let s := s.freed
      let c := s.pair.conflictEpoch
      let s := (s.withPair { s.pair with conflictEpoch := 0 }).resolveCells (peerPrimary.map (·.toNat)) peerEpoch.toNat
      let s := if c = 0 then s else s.setFld F.pairEpoch_EPOCH (c + 1)
      let s := s.withPair { s.pair with state := .up, linkKey := key, txCount := 0, fullDue := true, unacked := [],
                                        partnerKey := peerKey, evidence := meas, claiming := false }
      if s.life.ready then .next s
      else if s.life.restoreWait then
        .next (s.sendPair "RESTORE_REQ" 7 (bvBytes s.keys.meas ++ bvBytes s.ident))
      else .next (s.sendMirror 0 false)

/-- PAIR_HEARTBEAT (R291): each side sends HEARTBEAT while the pair is UP. -/
def execPairHeartbeat (s : State) : Res :=
  if s.pair.state = .up then .next (s.sendPair "HEARTBEAT" 4 []) else .next s

/-- Answers a mirror record: the sequence acknowledged, and the flag STALE (R292, R296). -/
def State.ackMirror (s : State) (seq : Nat) (stale : Bool) : State :=
  s.sendPair "MIRROR_ACK" 6 (leBytes 8 seq ++ leBytes 1 (if stale then 1 else 0) ++ zeros 7)

/-- The lines of a copy of the partner's root image (R293), encrypted and tagged under the metadata key and a version. -/
def State.imageLines (s : State) (copyB : Bool) (version : Nat) (b : Bytes) : List (Line × BitVec 64) :=
  (toLines b (ceilDiv b.length 64)).zipIdx.map fun (p : Line × Nat) =>
    let line := s.metaLine 5 ((if copyB then 2 ^ 17 else 0) + p.2)
    sealMeta (s.metaKeyFor line) line 5 version p.1

/-- A META job holds a metadata page closed in which lines of a level lie (R293): what writes such lines waits. -/
def State.sealedClosed (s : State) (level : Nat) : Bool :=
  s.mem.closed.any fun x => (upto 0 64).any fun i => (s.metaAt (x.page * 64 + i)).any (·.1 == level)

/-- MIRROR (R292, R293, R296): a record is applied to the inactive copy, whose version is drawn from the epoch source, and
the copies switch; a stale image takes only a full record; the partner's cell keys are installed. A record of changes takes the other items
from the active copy, and a line of it that fails on both attempts makes the image stale. While a META job holds lines of
the image closed, the application waits. -/
def execMirror (seq : Word) (kind : BitVec 8) (form : MirrorForm) (items : List (Nat × Nat × Bytes)) (s : State) : Res :=
  let full := decide (form = .full)
  let i := s.pair.image
  if s.pair.state = .disabled ∨ s.sealedClosed 5 then .next s
  else if (i.stale ∨ (i.held ∧ form = .changes false)) ∧ !full then
    .next ((s.withPair { s.pair with image := { i with stale := true } }).ackMirror seq.toNat true)
  else
    let (v, s) := s.drawEpoch
    let old := if full then [] else i.items.filter fun x => !items.any fun y => y.1 == x.1 && y.2.1 == x.2.1
    let keep := items.filter fun x => !zeroAt x.2.2 0 x.2.2.length
    let i := { i with held := true, stale := i.stale && !full, settle := decide (kind = 1), seq := seq.toNat,
                      items := old ++ keep, copyB := !i.copyB, verA := if i.copyB then v else i.verA,
                      verB := if i.copyB then i.verB else v }
    let s := s.withPair { s.pair with image := i }
    let s := s.emit (.image i.copyB (s.imageLines i.copyB v (recordBytes i.seq 0 kind.toNat (fullItems i.items))))
    .next ((s.installCells items).ackMirror seq.toNat false)

/-- MIRROR_ACK (R294, R296): the acknowledged record's roots are the base of the next one, commits it carried complete
MIRRORED; an answer that says STALE makes the next record a full one. -/
def execMirrorAck (seq : Word) (stale : Bool) (s : State) : Res :=
  if stale then .next (s.withPair { s.pair with fullDue := true })
  else
    match s.pair.unacked.find? (·.seq == seq.toNat) with
    | none => .next s
    | some r =>
      let cells := (r.snap.filter (·.1 == 7)).map (·.2.1)
      let jobs := s.harrow.jobs
      let s := s.withPair { s.pair with acked := r.snap, unacked := s.pair.unacked.filter (seq.toNat < ·.seq),
                                        mirroredCells := cells.foldl nsInsert s.pair.mirroredCells }
      let s := (s.setFld F.pairAck_STEP r.step).setFld F.pairAck_SEQ (seq.toNat % 2 ^ 48)
      let s := { s with dig := { s.dig with shf := { s.dig.shf with sinceAck := 0 } } }
      let s := jobs.foldl (fun s e =>
        let m := Job.ofBytes (itemData r.snap 6 e.1)
        let j := s.job e.1
        if j.st = .free ∨ m.todo.head? ≠ j.todo.head? then s
        else (s.setJob e.1 { j with mark := max j.mark m.head }).advanceHead e.1) s
      let ts := (s.stile.steps.filter fun e => e.2.mirrored.isNone &&
        (match e.2.mirrorSeq with | some n => decide (n ≤ seq.toNat) | none => false)).map (·.1)
      let s := ts.foldl (fun s t => s.setStepEnt t { s.stepEnt t with mirrored := some 0 }) s
      if r.settle then .next { s with life := { s.life with settling := false } } else .next s.mirrorWaiting

/-- RESTORE_REQ (R296, R301): it is answered at once, or, while this block settles or awaits its own restore, after
that. -/
def execRestoreReq (imageOk : Bool) (unit : BitVec 128) (s : State) : Res :=
  match s.pairPlot with
  | none => .next s
  | some p =>
    if s.life.settling ∨ s.life.restoreWait then .next (s.withPair { s.pair with reqWait := some (imageOk, unit) })
    else .next (s.answerRestore p imageOk unit)

/-- PARTNER_LOST (R298): the partner is LOST. -/
def execPartnerLost (byDown : Bool) (s : State) : Res :=
  if s.pair.state ≠ .up ∧ s.pair.state ≠ .bootstrap then .next s else .next (s.losePartner byDown)

/-- CLAIM_SEND (R298): a CLAIM goes to the tray controller while the pair is not UP again; its signature waits while ES_FAIL
is set (R196). -/
def execClaimSend (s : State) : Res :=
  match s.pairPlot with
  | some p =>
    if s.pair.claiming ∧ s.predOk then
      let (b, s) := s.claimRecord p
      .next (s.emit (.mctp b))
    else .next s
  | none => .next s

/-- The checks of a forwarded CLAIM (R299). -/
def State.claimOk (s : State) (p : PairPlot) (b : Bytes) : Bool :=
  let c := le b 10 2
  decide (b.length = 160 + 4 * c ∧ le b 0 4 = s.otpWord 131 % 2 ^ 32 ∧ sub b 4 4 = ascii "LZCL" ∧ le b 8 1 = 1
    ∧ le b 9 1 = 0 ∧ le b 12 4 = 0 ∧ c ≤ 256 ∧ le b 32 16 = s.ident.toNat ∧ le b 16 16 = p.partnerId.toNat
    ∧ s.pair.claimEpoch ≤ le b 48 8) &&
  Config.ecdsaVerify s.pair.partnerKey (bvBytes (Config.sha2_384 (b.take (64 + 4 * c)))) (sub b (64 + 4 * c) 96)

/-- CLAIM_RECEIVE (R299, R300): a forwarded CLAIM that passes every check resolves the cells both hold PRIMARY; any other
is dropped and counted. -/
def State.takeClaim (s : State) (b : Bytes) : State :=
  match s.pairPlot with
  | none => s.incFld F.pairStat_CLAIM_DROP
  | some p =>
    if !s.claimOk p b then s.incFld F.pairStat_CLAIM_DROP
    else
      let s := s.withPair { s.pair with claimEpoch := le b 48 8 }
      s.resolveCells (readList 4 (b.drop 64) (le b 10 2)) (le b 48 8)

/-- CLAIM_RECEIVE (R299). -/
def execClaimReceive (rec : Bytes) (s : State) : Res := .next (s.takeClaim rec)

/-- HANDOVER_RECEIVE (R300): the partner has given a cell up, and this block becomes PRIMARY for it. -/
def execHandoverReceive (cell : BitVec 32) (s : State) : Res :=
  if s.pair.state ≠ .up ∨ (tget none s.pair.cells cell.toNat).isNone then .next s else .next (s.setCell cell.toNat true)

/-- The cell of a cell table index: the PAIR plot's list. -/
def State.cellAt (s : State) (i : Nat) : Option Nat := s.pairPlot.bind fun p => (p.cells[i]?).map (·.1)

/-- CELL_READ (R302): LZ_PAIR_CELL shows a cell's number and role; an index that names no cell reads zero. -/
def execCellRead (port : Nat) (i : BitVec 8) (s : State) : Res :=
  .next (s.ownerCmd port (s.fld F.pairCtl_BUSY == 1) F.pairErr_REG_ERR fun s =>
    let s := (s.setFld F.pairCtl_CELL i.toNat).setFld F.pairCtl_RESULT 0
    match s.cellAt i.toNat with
    | none => s.wr .pairCell 0
    | some c => s.wr .pairCell (c + (if tget none s.pair.cells c == some true then 2 ^ 32 else 0)))

/-- CELL_HANDOVER (R300, R302): a cell held PRIMARY becomes SECONDARY and HANDOVER goes to the partner; REFUSED_STATE when
it is not PRIMARY or the pair is not UP. -/
def execCellHandover (port : Nat) (i : BitVec 8) (s : State) : Res :=
  .next (s.ownerCmd port (s.fld F.pairCtl_BUSY == 1) F.pairErr_REG_ERR fun s =>
    let s := s.setFld F.pairCtl_CELL i.toNat
    match s.cellAt i.toNat with
    | none => s.setFld F.pairCtl_RESULT 1
    | some c =>
      if s.pair.state = .up ∧ tget none s.pair.cells c = some true then
        ((s.setFld F.pairCtl_RESULT 0).setCell c false).sendPair "HANDOVER" 10 (leBytes 4 c)
      else s.setFld F.pairCtl_RESULT 1)

end Sys2Proof.Machine
end

