-- ==== Sys2Proof/Machine/Harrow.lean ====
section
/-! DEFINITION. The commands of the harrow (R145 to R166): jobs, page moves, turnovers and headland marks. -/

namespace Sys2Proof.Machine

/-! ### Commands of the owner -/

/-- Ends a harrow command with its RESULT (Table 3); one other than DONE is counted. -/
def State.hrwEnd (s : State) (code : Nat) : State :=
  let s := if code = 0 then s else s.incFld F.hrwErr_REFUSED_CMD
  (s.setFld F.hrwCtl_RESULT code).setFld F.hrwCtl_BUSY 0

/-- A harrow command `i` on a job record (R149), which waits while a swap is prepared (R369). -/
def State.hrwCmd (s : State) (i : Instr) (port job : Nat) (f : State → State) : State :=
  s.regCmd i port (s.fld F.hrwCtl_BUSY == 1) F.hrwErr_REG_ERR F.hrwCtl_BUSY fun s => f (s.setFld F.hrwCtl_JOB job)

/-- The slot a region moves to in a job of a scope: the successor of its own key for ALL, the named key otherwise. -/
def State.newKeyFor (s : State) (scope : Scope) (new row : Nat) : Nat :=
  if scope = .all then (s.slot (s.row row).kidx).succ else new

/-- A new key is acceptable for a region (REFUSED_KEY): not the old one, a memory key, or a cell key for a radio region,
and with usage 0. -/
def State.keyAcceptable (s : State) (row new : Nat) : Bool :=
  let r := s.row row
  let k := s.slot new
  decide (new ≠ r.kidx ∧ new ≠ 0 ∧ k.usage = 0 ∧ k.kind = (if r.radio then KeyKind.cell else KeyKind.memory))

/-- The regions of a START's scope, in ascending order; none for META (R147). -/
def State.scopeRows (s : State) (scope : Scope) (target : Nat) : List Nat :=
  match scope with
  | .key => s.rowsWhere fun r => r.harrowable && r.kidx == target
  | .region => if (s.row (target % 16384)).harrowable then [target % 16384] else []
  | .all => s.rowsWhere fun r => r.harrowable
  | .metadata => []

/-- The RESULT of a START, in the order of R149. Two points are the model's (DESIGN CHOICE, log entry 61): META is refused
REFUSED_KEY while no key can be derived (R169), a cause that Table 3 does not name, since its new key does not exist
then; and ALL over no region is admitted, DONE, and its record is freed when it runs. -/
def State.startCheck (s : State) (job : Nat) (scope : Scope) (target new : Nat) : Nat :=
  let rows := s.scopeRows scope target
  if (s.job job).st ≠ .free then 1
  else if (scope = .key ∨ scope = .region) ∧ rows = [] then 3
  else if (rows.any fun i => s.inJob i) ∨ ((scope = .all ∨ scope = .metadata) ∧
      (s.harrow.jobs.any fun e => decide (e.2.scope = scope ∧ e.2.st ≠ .free))) then 1
  else if (rows.any fun i => !s.keyAcceptable i (s.newKeyFor scope new i)) ∨ (scope = .metadata ∧ s.canDerive = false) then 2
  else 0

/-- HRW_START (R149): a FREE record is filled from LZ_HRW_CTL and is QUEUED. -/
def execHrwStart (port : Nat) (job : BitVec 4) (s : State) : Res :=
  .next (s.hrwCmd (.hrwStart port job) port job.toNat fun s =>
    let scope := ([.key, .region, .metadata, .all] : List Scope).getD (s.fld F.hrwCtl_SCOPE) .key
    let target := s.fld F.hrwCtl_TARGET
    let new := s.fld F.hrwCtl_NEW
    let code := s.startCheck job.toNat scope target new
    if code ≠ 0 then s.hrwEnd code
    else
      let rows := s.scopeRows scope target
      let old := match scope with | .key => target | .region => (s.row (target % 16384)).kidx | _ => 0
      let new := if scope = .key ∨ scope = .region then new else 0
      let s := s.fillJob job.toNat scope false old new (s.fld F.hrwTurn_TIME) rows
      (s.trace 5 4 (Src.harrow.at 0) none job.toNat 1 (rows.headD 0)).hrwEnd 0)

/-- The old and new keys of a RUNNING job are pinned (R181). -/
def State.pinJob (s : State) (n : Nat) : State :=
  let j := s.job n
  (j.todo ++ j.passed).foldl (fun s i => (s.pin (s.row i).kidx).pin (s.row i).kidxNext) s

/-- HRW_SUSPEND (R148): a RUNNING job closes no further page. -/
def execHrwSuspend (port : Nat) (job : BitVec 4) (s : State) : Res :=
  .next (s.hrwCmd (.hrwSuspend port job) port job.toNat fun s =>
    let j := s.job job.toNat
    if j.st ≠ .running then s.hrwEnd 1 else (s.putJob job.toNat { j with st := .suspended }).hrwEnd 0)

/-- HRW_RESUME (R148). -/
def execHrwResume (port : Nat) (job : BitVec 4) (s : State) : Res :=
  .next (s.hrwCmd (.hrwResume port job) port job.toNat fun s =>
    let j := s.job job.toNat
    if j.st ≠ .suspended then s.hrwEnd 1
    else (((s.putJob job.toNat { j with st := .running }).pinJob job.toNat).settleJob job.toNat).hrwEnd 0)

/-- A SETTLED job retires (R148): each region's KIDX takes KIDX_NEXT; for META the next metadata key is in force under
the next generation, its usage counted from the job's start. -/
def State.retireJob (s : State) (n : Nat) : State :=
  let j := s.job n
  let s := (j.todo ++ j.passed).foldl (fun s i => s.setRow i (s.row i).retired) s
  let s := if j.scope = .metadata then
      match s.keys.metaKeyNext with
      | some k => { s with keys := { s.keys with metaKey := k, metaKeyNext := none, metaGen := s.keys.metaGen + 1 } }
      | none => s
    else s
  (s.putJob n {}).unpin

/-- HRW_RETIRE (R148). -/
def execHrwRetire (port : Nat) (job : BitVec 4) (s : State) : Res :=
  .next (s.hrwCmd (.hrwRetire port job) port job.toNat fun s =>
    if (s.job job.toNat).st ≠ .settled then s.hrwEnd 1 else (s.retireJob job.toNat).hrwEnd 0)

/-! ### Running -/

/-- A job starts (R148): its regions take their next key and HARROW; a META job derives the next metadata key unless it
is at hand; a cell key that radio regions will use is credited to the lanes (R187). -/
def State.runJob (s : State) (n : Nat) : State :=
  let j := s.job n
  let s := (j.todo ++ j.passed).foldl (fun s i =>
    let new := s.newKeyFor j.scope j.new i
    let r := s.row i
    let s := s.setRow i { r with kidxNext := new, harrow := true }
    if r.radio ∧ (s.slot new).kind = .cell then s.pinCell new else s) s
  let s := if j.scope = .metadata ∧ s.keys.metaKeyNext.isNone then
      let m := s.keys.measNext.getD s.keys.meas
      let s := s.count 450 1
      { s with keys := { s.keys with metaKeyNext := some (s.metaKeyOf m (s.keys.metaGen + 1)) } }
    else s
  let s := if j.scope = .metadata then { s with keys := { s.keys with metaUsage := 0 } } else s
  ((s.putJob n { j with st := .running }).pinJob n).settleJob n

/-- Jobs RUNNING or SUSPENDED. -/
def State.jobsRunning (s : State) : Nat :=
  (s.harrow.jobs.filter fun e => decide (e.2.st = .running ∨ e.2.st = .suspended)).length

/-- JOB_RUN (R148): the oldest QUEUED job becomes RUNNING when fewer than four are RUNNING or SUSPENDED. -/
def execJobRun (s : State) : Res :=
  if 4 ≤ s.jobsRunning then .next s
  else
    let oldest := (s.harrow.jobs.filter fun e => decide (e.2.st = .queued)).foldl
      (fun (b : Option (Nat × Job)) e => match b with
        | none => some e
        | some x => if e.2.order < x.2.order then some e else some x) none
    match oldest with
    | none => .next s
    | some (n, _) => .next (s.runJob n)

/-! ### Page moves -/

/-- The lines of a page a move carries (R151), as line numbers in the page: those written in a SOWN or FURROW region, those
of non-zero minor in a current page of a TILLED one. -/
def State.moveLines (s : State) (row q : Nat) (c : CtrLine) : List Nat :=
  let r := s.row row
  (upto 0 64).filter fun i =>
    if r.kind = .tilled then decide ((c.under r.epoch).minor i ≠ 0) else r.written (q * 64 + i)

/-- Pages in flight on the home lane of a page (R151). -/
def State.closedOn (s : State) (page : Nat) : Nat :=
  (s.mem.closed.filter fun x => s.groupOf (x.page * 4096) == s.groupOf (page * 4096)).length

/-- The metadata lines of a metadata page that have a parent in the tree: line number, level and index. -/
def State.metaSpots (s : State) (page : Nat) : List (Nat × Nat × Nat) :=
  (upto 0 64).filterMap fun i =>
    (s.metaAt (page * 64 + i)).bind fun x => if x.1 ≤ 3 then some (i, x.1, x.2) else none

/-- The version under which a drill line (level 4) or a root-image line (level 5) of an index stands, if it is in use
(R293). -/
def State.sealedVersion (s : State) (level idx : Nat) : Option Nat :=
  let i := s.pair.image
  if level = 4 then
    (tget none s.svc.drills (idx / 128)).bind fun d =>
      if idx % 128 < ceilDiv d.image.length 64 then some d.version else none
  else if level = 5 ∧ i.held then some (if idx < 2 ^ 17 then i.verA else i.verB)
  else none

/-- The drill and root-image lines of a metadata page: line number, level and version (R160, R293). -/
def State.sealedSpots (s : State) (page : Nat) : List (Nat × Nat × Nat) :=
  (upto 0 64).filterMap fun i =>
    (s.metaAt (page * 64 + i)).bind fun x => (s.sealedVersion x.1 x.2).map fun v => (i, x.1, v)

/-- The parents of a metadata page's lines that are not known and must be fetched first (R152, R160). -/
def State.metaParents (s : State) (page : Nat) : List (Nat × Nat) :=
  (s.metaSpots page).filterMap fun x =>
    if (s.parentEntry x.2.1 x.2.2).isNone then some (x.2.1 + 1, x.2.2 / 64) else none

/-- Metadata lines of a metadata page whose parent entry is not zero: line number, level, index and entry (R160). -/
def State.metaLines (s : State) (page : Nat) : List (Nat × Nat × Nat × Nat × Nat) :=
  (s.metaSpots page).filterMap fun (i, level, idx) =>
    match s.parentEntry level idx with
    | some (major, minor) => if minor = 0 then none else some (i, level, idx, major, minor)
    | none => none

/-- The harrow may close a further page on a lane (R152, R162): the write buffer has room for the page's lines, and the
lane is idle, or its MAINT credit is above zero and the harrow's turn has come where other MAINT work waits. -/
def State.mayClose (s : State) (lane : Nat) : Bool :=
  let l := s.lane lane
  s.wbufRoom lane 64 &&
    ((s.waiting lane).isEmpty || (decide (0 < l.credit) && (l.maint.isEmpty || l.harrowNext)))

/-- A page is closed, traced (R437): its read is priority MAINT, granted at once and charged to the lane's credit
(R162). -/
def State.closePage (s : State) (n page q : Nat) (row : Nat) (second : Bool) (lines : Nat) : State :=
  let s := s.trace 2 6 (Src.harrow.at 0) none n row q
  let lane := s.homeLane page
  let s := s.chargeMaint lane lines
  let s := s.setLane lane { s.lane lane with harrowNext := false }
  let j := s.job n
  let s := s.setJob n { j with fetching := j.fetching.filter (· != q) }
  s.withMem { s.mem with closed := s.mem.closed ++ [⟨n, page, second⟩] }

/-- The counter line of a page that is to move is fetched (R152), and the page is noted until it has come. -/
def State.fetchPage (s : State) (n q abs : Nat) : State :=
  let j := s.job n
  (s.setJob n { j with fetching := nsInsert j.fetching q }).fetchMeta 1 (s.spanPage abs)

/-- HARROW_PAGE_CLOSE of a metadata page (R160): unknown parents are fetched first. -/
def State.closeMeta (s : State) (n q : Nat) : State :=
  let abs := s.rgn.metaBase * pagesPerGranule + q
  let parents := s.metaParents abs
  let n' := (s.metaLines abs).length + (s.sealedSpots abs).length
  if s.metaPages ≤ q ∨ s.pageClosed abs ∨ 4 ≤ s.closedOn abs ∨ s.mem.accesses.any (fun a => a.line / 64 == abs) then s
  else if !parents.isEmpty then parents.foldl (fun s p => s.fetchMeta p.1 p.2) s
  else if n' = 0 then s.pageDone n q
  else if !s.mayClose (s.homeLane abs) then s
  else if !s.fits (grantEnergy (grantCycles n')) then s.withhold
  else s.closePage n abs q 0 ((s.job n).retry.contains q) n'

/-- A page of a radio TILLED region after its turnover (R158): an old page is moved as an overflowing page is, one per
lane at a time; a page that is not old is done. -/
def State.turnPage (s : State) (n q row abs : Nat) (c : CtrLine) : State :=
  let r := s.row row
  let j := s.job n
  let t := ((j.thresh.find? (·.1 == row)).map (·.2)).getD 0
  if !j.turned then s
  else if c.major < r.epoch ∨ t ≤ c.major then s.pageDone n q
  else if s.moveBusy (s.homeLane abs) true then s
  else s.startMove row abs (c.under r.epoch) []

/-- HARROW_PAGE_CLOSE of a data page of the current region (R151, R152, R158). -/
def State.closeData (s : State) (n q row : Nat) : State :=
  let r := s.row row
  let abs := r.base * pagesPerGranule + q
  if r.count * pagesPerGranule ≤ q ∨ s.pageClosed abs ∨ s.pageLocked abs false ∨ 4 ≤ s.closedOn abs then s
  else
    match (if r.kind = .tilled then s.counterOf abs else some {}) with
    | none => s.fetchPage n q abs
    | some c =>
      if r.radio then s.turnPage n q row abs c
      else if (s.moveLines row q c).isEmpty then s.pageDone n q
      else if !s.mayClose (s.homeLane abs) then s
      else if !s.fits (grantEnergy (grantCycles (s.moveLines row q c).length)) then s.withhold
      else s.closePage n abs q row ((s.job n).retry.contains q) (s.moveLines row q c).length

/-- HARROW_PAGE_CLOSE (R151, R152, R158, R162): a page of a running job's window, not done and not in a move, closes; one
that holds no line to move is done at once. The counter line of a TILLED page is fetched first. -/
def execHarrowPageClose (job : BitVec 4) (page : Nat) (s : State) : Res :=
  let n := job.toNat
  let j := s.job n
  let q := page
  if j.st ≠ .running ∨ q < j.head ∨ j.head + 256 ≤ q ∨ j.done.contains q ∨ s.engineOut 7 then .next s
  else if j.scope = .metadata then .next (s.closeMeta n q)
  else
    match j.todo with
    | [] => .next s
    | row :: _ => .next (s.closeData n q row)

/-- The first verdict of a line of a closed page: forwarded data, or what the memory controller returned, verified under
the key the line stands under. -/
def State.judgeMoved (s : State) (row line : Nat) (lines : List (Nat × DmcBeat)) : Option Line :=
  match (s.lineRead row line) with
  | l =>
    match l.st with
    | .known d => some d
    | .wait =>
      (match lines.find? fun x => x.1 == line % 64 with
      | some (_, b) => if s.lineVerdict l b.lo b.sbLo b.err false then some (s.plainOf l b.lo) else none
      | none => none)
    | _ => none

/-- The lines of a closed page with their verdicts. -/
def State.judgePage (s : State) (row abs q : Nat) (lines : List (Nat × DmcBeat)) : List (Nat × Option Line) :=
  let c := (s.counterOf abs).getD {}
  (s.moveLines row q c).map fun i => (abs * 64 + i, s.judgeMoved row (abs * 64 + i) lines)

/-- The verdict of a metadata line under one of some keys: its value. -/
def metaVerdict (ks : List Key) (line level major minor : Nat) (b : Option (Nat × DmcBeat)) : Option Line :=
  b.bind fun x => if !x.2.err && ks.any (fun k => metaOk k line level major minor x.2.lo x.2.sbLo) then some x.2.lo else none

/-- The verdict of a drill or root-image line under one of some keys: its plaintext (R293). -/
def sealedVerdict (ks : List Key) (line level version : Nat) (b : Option (Nat × DmcBeat)) : Option Line :=
  b.bind fun x => (ks.find? fun k => !x.2.err && metaOk k line level version 0 x.2.lo x.2.sbLo).map fun k =>
    x.2.lo ^^^ lineStream k line 0 level 0 version

/-- The verdicts of the lines of a metadata page (R160), given what was read by line number: those in the tree under their
parent entry, drill and root-image lines under their version. `ks` are the keys that may verify a line. -/
def State.judgeMeta (s : State) (abs : Nat) (ks : Nat → List Key) (at_ : Nat → Option (Nat × DmcBeat)) :
    List (Nat × Option Line) :=
  ((s.metaLines abs).map fun (i, level, _, major, minor) =>
    (abs * 64 + i, metaVerdict (ks (abs * 64 + i)) (abs * 64 + i) level major minor (at_ i))) ++
  (s.sealedSpots abs).map fun (i, level, version) =>
    (abs * 64 + i, sealedVerdict (ks (abs * 64 + i)) (abs * 64 + i) level version (at_ i))

/-- An egress of a page that was granted before the page closed and has not taken its effect (R150, R152): held, or
waiting for a credit or for a counter line. The move waits for it. -/
def State.heldOn (s : State) (abs : Nat) : Bool :=
  s.mem.held.any (fun h => match h.what with | .mem t _ => reqPage t.req == abs | _ => false) ||
  s.mem.waitCredit.any (fun w => w.1.any fun t => reqPage t.req == abs) ||
  s.mem.metaWrites.any fun w => reqPage w.txn.req == abs

/-- A line that is moved poisoned (R154): its tag is deliberately invalid; it is counted and recorded. -/
def State.movePoison (s : State) (part line : Nat) : State :=
  let s := s.withMem { s.mem with poisoned := nsInsert s.mem.poisoned line }
  (s.incFld F.hrwErr_MOVE_POISON).record .movePoison .harrow 0 (some part) 1 (line * 64)

/-- The counter block a line of a page stands under. -/
def State.moveCtr (s : State) (row line : Nat) : Ctr :=
  let r := s.row row
  match r.kind with
  | .tilled =>
    let c := ((s.counterOf (line / 64)).getD {}).under r.epoch
    ⟨3, c.major, c.minor (line % 64)⟩
  | k => ⟨k.code, r.epoch, 0⟩

/-- Lines of a data page go out under the new key and the same counter blocks, charged to it (R145, R152); a line without a
verified plaintext is moved poisoned. -/
def State.moveOut (s : State) (row abs : Nat) (ls : List (Nat × Option Line)) : State :=
  let r := s.row row
  let lane := s.homeLane abs
  let s := s.maintWrites lane r.kidxNext ls.length
  ls.foldl (fun s x => match x.2 with
    | some d => s.offerLines ((s.laneOf (s.groupOf (x.1 * 64))).getD lane) row x.1 [d] [(s.moveCtr row x.1, r.kidxNext)]
    | none => s.movePoison r.part x.1) s

/-- The moved lines of a data page go out (R152), and the page is done and opens. -/
def State.movePage (s : State) (n row abs q : Nat) (ls : List (Nat × Option Line)) : State :=
  let s := s.moveOut row abs ls
  let j := s.job n
  let s := s.setJob n { j with moved := j.moved + 1 }
  let s := { s with harrow := { s.harrow with progress := (s.harrow.progress + 1) % 2 ^ 32 } }
  ((s.count 454 1).pageDone n q).openPage n abs

/-- Metadata lines go out under the next metadata key (R160), each a line-write of it: re-tagged, and drill and root-image
lines re-encrypted too, under their own counter blocks (R293). -/
def State.retagOut (s : State) (ls : List (Nat × Option Line)) : State :=
  let key := s.keys.metaKeyNext.getD s.keys.metaKey
  ls.foldl (fun s x => match x.2 with
    | some v =>
      match s.metaAt x.1 with
      | some (level, idx) =>
        let (major, minor) := (s.parentEntry level idx).getD (0, 0)
        let out := match s.sealedVersion level idx with
          | some version => sealMeta key x.1 level version v
          | none => (v, metaSb key x.1 level major minor v)
        let g := s.groupOf (x.1 * 64)
        (s.offer g ((s.laneOf g).getD 0) (.mwrite level idx) x.1 1 [out] false).chargeMeta
      | none => s
    | none => s.movePoison 0xFF x.1) s

/-- The lines of a metadata page go out re-tagged (R160), and the page is done and opens. -/
def State.moveMetaPage (s : State) (n abs q : Nat) (ls : List (Nat × Option Line)) : State :=
  let s := s.retagOut ls
  let j := s.job n
  let s := s.setJob n { j with moved := j.moved + 1 }
  let s := { s with harrow := { s.harrow with progress := (s.harrow.progress + 1) % 2 ^ 32 } }
  ((s.count 454 1).pageDone n q).openPage n abs

/-- What a page command acts on: the closed page of a job, its absolute number, its row (none for metadata) and the
verdicts of its lines; none while the page is not closed or a held egress to it remains. -/
def State.closedPage (s : State) (n q : Nat) (lines : List (Nat × DmcBeat)) :
    Option (Closed × Nat × Option Nat × List (Nat × Option Line)) :=
  let j := s.job n
  if j.scope = .metadata then
    let abs := s.rgn.metaBase * pagesPerGranule + q
    (s.mem.closed.find? fun x => x.job == n && x.page == abs).map fun x => 
      (x, abs, none, s.judgeMeta abs (fun line => [s.metaKeyFor line]) fun i => lines.find? (·.1 == i))
  else
    match j.todo with
    | [] => none
    | row :: _ =>
      let abs := (s.row row).base * pagesPerGranule + q
      if s.heldOn abs then none
      else (s.mem.closed.find? fun x => x.job == n && x.page == abs).map fun x =>
        (x, abs, some row, s.judgePage row abs q lines)

/-- HARROW_PAGE_OPEN (R152, R154): with every line verified, or on the second attempt, the lines move under the new key,
a line that failed again is moved poisoned, the page is done and opens. -/
def execHarrowPageOpen (job : BitVec 4) (page : Nat) (lines : List (Nat × DmcBeat)) (s : State) : Res :=
  match s.closedPage job.toNat page lines with
  | none => .next s
  | some (x, abs, row, ls) =>
    if !x.second ∧ ls.any (fun l => l.2.isNone) then .next s
    else
      match row with
      | some row => .next (s.movePage job.toNat row abs page ls)
      | none => .next (s.moveMetaPage job.toNat abs page ls)

/-- The lane makes the re-read of R124 for a line that failed in a move's first attempt, for diagnosis only (R154). -/
def State.diagnose (s : State) (part : Nat) (line : Nat) (l : LineRd) : State :=
  let s := s.withMem { s.mem with diags := s.mem.diags ++ [(part, { l with st := .again })] }
  let g := s.groupOf (line * 64)
  s.offer g ((s.laneOf g).getD 0) (.diag part line) line 1 [] true

/-- HARROW_MOVE_ABANDON (R154): a line fails on a move's first attempt; each such line is re-read for diagnosis, the page
opens unchanged and is moved again later in the pass. -/
def execHarrowMoveAbandon (job : BitVec 4) (page : Nat) (lines : List (Nat × DmcBeat)) (s : State) : Res :=
  match s.closedPage job.toNat page lines with
  | none => .next s
  | some (x, abs, row, ls) =>
    if x.second ∨ !ls.any (fun l => l.2.isNone) then .next s
    else
      let failed := (ls.filter fun l => l.2.isNone).map (·.1)
      let s := failed.foldl (fun s l => match row with
        | some row => s.diagnose (s.row row).part l (s.lineRead row l)
        | none => s.diagnose 0xFF l { line := l, ctr := none, slot := 0, st := .again }) s
      let j := s.job job.toNat
      let s := s.setJob job.toNat { j with retry := nsInsert j.retry page }
      .next (s.openPage job.toNat abs)

/-! ### Turnovers and marks -/

/-- The line offset U of a FURROW region's turnover: h of step 2 of R97. -/
def Region.foldTop (r : Region) : Nat := (r.win.map (· + 1)).foldl max r.hwm

/-- A new cell key may come into use (R297, R301): while the pair is UP, only once the partner has acknowledged it. -/
def State.cellMirrored (s : State) (slot : Nat) : Bool :=
  decide (s.pair.state ≠ .up) || s.pair.mirroredCells.contains slot

/-- TURNOVER (R158): at the first TICK at or after its turnover time, the radio regions of a RUNNING or SUSPENDED job turn
over: T is the
epoch source's next value, U the top of each FURROW region; a radio link under the old key follows. -/
def execTurnover (job : BitVec 4) (s : State) : Res :=
  let n := job.toNat
  let j := s.job n
  if (j.st ≠ .running ∧ j.st ≠ .suspended) ∨ !j.radio ∨ j.turned ∨ s.life.time < j.turnAt then .next s
  else
    let rows := (j.todo ++ j.passed).filter fun i => (s.row i).radio
    if rows.any fun i => !s.cellMirrored (s.row i).kidxNext then .next s
    else
      let thresh := rows.map fun i =>
        let r := s.row i
        (i, if r.kind = .tilled then s.rgn.epsrc else r.foldTop)
      let s := (s.setJob n { j with turned := true, thresh := thresh }).settleJob n
      let link := rows.find? fun i => (s.row i).kidx == s.pair.radioSlot && s.pair.radioSlot != 0
      match link with
      | some i => .next (s.withPair { s.pair with radioSlot := (s.row i).kidxNext })
      | none => .next s

/-- HEADLAND_MARK (R165): while the pair is UP, a job whose headland is 4,096 pages beyond its acknowledged mark has it
mirrored. -/
def execHeadlandMark (job : BitVec 4) (s : State) : Res :=
  let j := s.job job.toNat
  if j.st = .running ∧ j.mark + 4096 ≤ j.head then .next s.mirrorRoots else .next s

end Sys2Proof.Machine
end

