-- ==== Sys2Proof/Machine/Keys.lean ====
section
/-! DEFINITION. The commands of the key manager (R167 to R197, R469): slots, teardown, the ledger rewrap, the entropy
source and the DRBG. -/

namespace Sys2Proof.Machine

/-! ### Slot commands -/

/-- Ends a key command with its RESULT (Table 9); one other than DONE is counted. -/
def State.keyEnd (s : State) (o : Origin) (code r0 : Nat) : State :=
  let s := if code = 0 then s else s.incFld F.keyErr_REFUSED_CMD
  s.engineEnd o F.keyCmd_RESULT F.keyCmd_BUSY code none r0

/-- Item 1 of R469: no key command in BLANK or END_OF_LIFE; no derivation while the root checks have failed. -/
def State.keyLc (s : State) (derives : Bool) : Bool :=
  decide (s.life.lc = .blank ∨ s.life.lc = .endOfLife) || (derives && !s.keys.rootOk)

/-- Notes a driver reference that a command of a partition's non-owner queue has taken (R415). -/
def State.tenantRef (s : State) (slot part : Nat) : State :=
  let i := slot * 64 + part
  { s with keys := { s.keys with tenantRefs := tset 0 s.keys.tenantRefs i (tget 0 s.keys.tenantRefs i + 1) } }

/-- The key kind of a code (Table 4 of the keys chapter). -/
def KeyKind.ofCode (n : Nat) : KeyKind :=
  ([.empty, .memory, .cell, .capability, .flow, .host, .service] : List KeyKind).getD n .empty

/-- What ALLOC is given (Tables 8 and 15): slot, kind, exponent, cell argument and cell number. -/
structure AllocArg where
  slot : Nat
  kind : KeyKind
  exp : Nat
  arg : Nat
  cell : Nat
  deriving DecidableEq, Repr

/-- The arguments of ALLOC in a word laid out as LZ_KEY_SEL and one laid out as LZ_KEY_CELL. -/
def allocArg (w cell : Nat) : AllocArg :=
  ⟨bits w 0 16, KeyKind.ofCode (bits w 16 3), bits w 24 6, bits w 32 10, bits cell 0 32⟩

/-- A kind is one that ALLOC makes, with its exponent, range and cell argument (REFUSED_KIND). -/
def AllocArg.kindOk (a : AllocArg) : Bool :=
  let inRange := decide (a.slot = 0 ∨ (a.kind.range.1 ≤ a.slot ∧ a.slot ≤ a.kind.range.2))
  inRange && match a.kind with
  | .memory | .capability => true
  | .cell => decide (a.cell % 1024 = a.arg)
  | .service => decide (10 ≤ a.exp ∧ a.exp ≤ 40)
  | _ => false

/-- ALLOC (R197, R469): a key of the kind is derived into an EMPTY slot with DREF 1; slot 0 takes the lowest EMPTY one of
the range; a new cell key is mirrored before its first use (R297). -/
def State.keyAllocAt (s : State) (o : Origin) (a : AllocArg) : State :=
  if s.keyLc true then s.keyEnd o 4 0
  else if a.slot ≠ 0 ∧ (s.slot a.slot).kind ≠ .empty then s.keyEnd o 1 0
  else if !a.kindOk then s.keyEnd o 2 0
  else
    match if a.slot = 0 then s.freeSlot a.kind else some a.slot with
    | none => s.keyEnd o 3 0
    | some n =>
      let s := s.deriveSlot n a.kind a.cell a.exp s.keys.meas 1
      let s := if a.kind = .cell then s.mirrorRoots else s
      let s := match o with
        | .reg _ => s.setFld F.keySel_SLOT n
        | .svc q k => match s.cmd q k with
          | some c => if c.owner then s else s.tenantRef n (s.qPart q)
          | none => s
      s.keyEnd o 0 n

/-- Starts a key command `i` from a register or from a queue; it waits while a swap is prepared (R369). -/
def State.keyCmdOf (s : State) (i : Instr) (o : Origin) (slot op : Nat) (f : Option Cmd → State → State) : State :=
  match o with
  | .reg port => s.regCmd i port (s.fld F.keyCmd_BUSY == 1) F.keyErr_REG_ERR F.keyCmd_BUSY fun s =>
    f none (s.setFld F.keySel_SLOT slot)
  | .svc q k => s.queueCmd i q k op fun c s => f (some c) s

/-- KEY_ALLOC (R197). -/
def execKeyAlloc (o : Origin) (slot : BitVec 16) (s : State) : Res :=
  .next (s.keyCmdOf (.keyAlloc o slot) o slot.toNat 0x10 fun c s =>
    s.keyAllocAt o (match c with
      | none => allocArg (s.rd .keySel) (s.rd .keyCell)
      | some c => allocArg c.desc.arg0 c.desc.arg1))

/-- REF (R190, R469): one driver reference more, at most 2^24 − 1. -/
def State.keyRefAt (s : State) (o : Origin) (n : Nat) : State :=
  let k := s.slot n
  if s.keyLc false then s.keyEnd o 4 0
  else if !s.slotLive n then s.keyEnd o 1 0
  else if 2 ^ 24 - 1 ≤ k.dref then s.keyEnd o 5 0
  else (s.putSlot n { k with dref := k.dref + 1 }).keyEnd o 0 0

/-- UNREF (R190, R469): one driver reference less. -/
def State.keyUnrefAt (s : State) (o : Origin) (n : Nat) : State :=
  let k := s.slot n
  if s.keyLc false then s.keyEnd o 4 0
  else if !s.slotLive n then s.keyEnd o 1 0
  else if k.dref = 0 then s.keyEnd o 5 0
  else (s.putSlot n { k with dref := k.dref - 1 }).keyEnd o 0 0

/-- KEY_REF (R190). -/
def execKeyRef (o : Origin) (slot : BitVec 16) (s : State) : Res :=
  .next (s.keyCmdOf (.keyRef o slot) o slot.toNat 0x11 fun c s =>
    s.keyRefAt o (match c with | none => slot.toNat | some c => c.desc.arg16))

/-- KEY_UNREF (R190). -/
def execKeyUnref (o : Origin) (slot : BitVec 16) (s : State) : Res :=
  .next (s.keyCmdOf (.keyUnref o slot) o slot.toNat 0x12 fun c s =>
    s.keyUnrefAt o (match c with | none => slot.toNat | some c => c.desc.arg16))

/-- KEY_READ (R197): LZ_KEY_STAT, LZ_KEY_USAGE and LZ_KEY_LIMIT show the slot. -/
def execKeyRead (port : Nat) (slot : BitVec 16) (s : State) : Res :=
  let o : Origin := .reg port
  let n := slot.toNat
  .next (s.keyCmdOf (.keyRead port slot) o n 0 fun _ s =>
    let k := s.slot n
    if s.keyLc false then s.keyEnd o 4 0
    else if k.kind = .empty then s.keyEnd o 1 0
    else
      let stat := k.kind.code + k.origin.code * 8 + (if k.noexport then 64 else 0) +
        (if s.keys.cached.contains n then 128 else 0) + (if s.pinned n then 256 else 0) + (if k.failed then 512 else 0) +
        k.succ * 2 ^ 16 + s.refCount n % 2 ^ 32 * 2 ^ 32
      (((s.wr .keyStat stat).wr .keyUsage k.usage).wr .keyLimit k.limit).keyEnd o 0 0)

/-- KEY_SUCC (R197, R469): a key of the same kind is derived into the EMPTY slot that ARG names, which becomes the
successor of a MEMORY or CELL slot. -/
def execKeySucc (port : Nat) (slot : BitVec 16) (s : State) : Res :=
  let o : Origin := .reg port
  let n := slot.toNat
  .next (s.keyCmdOf (.keySucc port slot) o n 0 fun _ s =>
    let k := s.slot n
    let t := s.fld F.keySel_ARG
    if s.keyLc true then s.keyEnd o 4 0
    else if !s.slotLive n ∨ k.succ ≠ 0 ∨ (s.slot t).kind ≠ .empty then s.keyEnd o 1 0
    else if ¬ ((k.kind = .memory ∨ k.kind = .cell) ∧ k.kind.range.1 ≤ t ∧ t ≤ k.kind.range.2) then s.keyEnd o 2 0
    else
      let s := s.deriveSlot t k.kind k.cell 0 (s.keys.measNext.getD s.keys.meas) 0
      let s := s.putSlot n { k with succ := t }
      (if k.kind = .cell then s.mirrorRoots else s).keyEnd o 0 0)

/-- SET_LIMIT (R197, R469): the limit of a SERVICE slot changes, never below its USAGE. -/
def execSetLimit (port : Nat) (slot : BitVec 16) (s : State) : Res :=
  let o : Origin := .reg port
  let n := slot.toNat
  .next (s.keyCmdOf (.setLimit port slot) o n 0 fun _ s =>
    let k := s.slot n
    let e := s.fld F.keySel_EXP
    if s.keyLc false then s.keyEnd o 4 0
    else if !s.slotLive n then s.keyEnd o 1 0
    else if k.kind ≠ .service ∨ e < 10 ∨ 40 < e ∨ 2 ^ e < k.usage then s.keyEnd o 2 0
    else (s.putSlot n { k with exp := e }).keyEnd o 0 0)

/-! ### Teardown and the ledger -/

/-- Tears a slot down (R191): its row and credits are invalid, its SUCC clears, a binding entry of
a HOST slot is freed (R332), and an EMPTY entry is written. -/
def State.teardown (s : State) (n : Nat) : State :=
  let k := s.keys
  let s := { s with keys := { k with
    cached := k.cached.filter (· != n), pins := k.pins.filter (· != n),
    credits := k.credits.filter fun e => e.1 / 64 != n, creditReqs := k.creditReqs.filter fun c => c.slot != n,
    tenantRefs := k.tenantRefs.filter fun e => e.1 / 64 != n,
    noSucc := k.noSucc.filter (· != n), autoWait := k.autoWait.filter (· != n), stuck := k.stuck.filter (· != n) } }
  let s := s.withPair { s.pair with mirroredCells := s.pair.mirroredCells.filter (· != n),
                                    mirrorSlots := s.pair.mirrorSlots.filter fun e => e.2 != n }
  let h := s.host
  let s := { s with host := { h with bindings := h.bindings.filter fun b => b.slot != n, slotBox := tdel h.slotBox n,
                                     warned := h.warned.filter (· != n) } }
  s.putSlot n {}

/-- SLOT_TEARDOWN (R191): a slot whose REFCOUNT is zero becomes EMPTY. -/
def execSlotTeardown (slot : BitVec 16) (s : State) : Res :=
  let n := slot.toNat
  if (s.slot n).kind ≠ .empty ∧ s.refCount n = 0 then .next (s.teardown n) else .next s

/-- Ends a ledger rewrap (R185): every entry not yet written goes to the inactive copy with VERSION 1, which becomes
active under the next generation and key. -/
def State.endRewrap (s : State) : State :=
  let k := s.keys
  let todo := (k.versions.filter fun e => tget 0 k.newVersions e.1 = 0).map (·.1)
  let s := todo.foldl (fun s n =>
    let s := { s with keys := { s.keys with newVersions := tset 0 s.keys.newVersions n 1 } }
    s.emit (.ledger (!s.keys.copyB) n (ledgerEntry s.keys.ledgerKeyNext (s.keys.ledgerGen + 1) n 1 (s.slot n)))) s
  { s with keys := { s.keys with versions := s.keys.newVersions, newVersions := [], copyB := !s.keys.copyB,
                                 ledgerGen := s.keys.ledgerGen + 1, ledgerKey := s.keys.ledgerKeyNext, rewrap := false } }

/-- LEDGER_REWRAP (R185): a VERSION at its end, or a firmware handover, starts the rewrap; one in progress completes. -/
def execLedgerRewrap (s : State) : Res :=
  if s.keys.rewrap then .next s.endRewrap
  else if s.keys.versions.any (fun e => e.2 == 0xFFFFFFFF) ∨ s.fwu.st = .handover then .next s.startRewrap
  else .next s

/-! ### Entropy and DRBG -/

/-- The repetition count test (R193): a run of 41 equal raw bits fails; `n` bits equal to `b` have come so far. -/
def repeats (b : Bool) (n : Nat) : List Bool → Bool
  | [] => decide (41 ≤ n)
  | x :: t => decide (41 ≤ n) || (if x = b then repeats b (n + 1) t else repeats x 1 t)

/-- The adaptive proportion test (R193): in a window of 1,024 raw bits, 792 that equal the first one fail. -/
def lopsided (w : List Bool) : Bool := decide (792 ≤ ((w.take 1024).filter (· == w.head?.getD false)).length)

/-- The health test that a window of raw bits fails, as ENTROPY_FAIL names it (R193): 0 repetition, 1 proportion. -/
def healthFault (w : List Bool) : Option Nat :=
  if repeats (w.head?.getD false) 0 w then some 0 else if lopsided w then some 1 else none

/-- ES_HEALTH_FAIL (R193, R194): when a window of raw bits fails a test, ES_FAIL sets, the failure is counted and recorded, and
the start-up test restarts. -/
def execEsHealthFail (raw : List Bool) (s : State) : Res :=
  match healthFault raw with
  | none => .next s
  | some test =>
    let s := { s with keys := { s.keys with esFail := true } }
    .next ((s.incFld F.keyErr_ES_HEALTH).record .entropyFail .key 0 none test 0)

/-- START_UP_TEST_PASS (R194): ES_FAIL clears. -/
def execStartUpTestPass (s : State) : Res := .next { s with keys := { s.keys with esFail := false } }

/-- The transition nonce is drawn (R380); while the DRBG refuses, it waits (R196). -/
def State.newLcNonce (s : State) : State :=
  if s.drbgOk then
    let n := (s.drawn 128).toNat
    let s := { s.drew with lct := { s.lct with nonceWait := false } }
    (s.wr .lcNonce0 (n % 2 ^ 64)).wr .lcNonce1 (n / 2 ^ 64)
  else { s with lct := { s.lct with nonceWait := true } }

/-- DRBG_RESEED (R194, R195): a reseed that falls due succeeds, or while ES_FAIL is set is not accepted, and the DRBG
refuses every request until one succeeds. -/
def execDrbgReseed (s : State) : Res :=
  if s.keys.esFail then .next { s with keys := { s.keys with reseedDue := true } }
  else if s.lct.nonceWait then .next s.reseed.newLcNonce
  else .next s.reseed

end Sys2Proof.Machine
end

