-- ==== Sys2Proof/Machine/Bist.lean ====
section
/-! DEFINITION. Units with spares: self-test, swap and return of lanes, ports, Keccak cores, array columns, key-cache
rows, region-table rows and reeve cores (R41 to R43, R141, R182, R223, R272, R427). -/

namespace Sys2Proof.Machine

/-! ### Results -/

/-- RESULT of a self-test (Table 9 of the lanes chapter): 2 PASS, 3 FAIL. -/
def bistCode (out : TestOut) : Nat := if out = 0 then 2 else 3

/-- A failed self-test is recorded with its stage (R422). -/
def State.bistFailed (s : State) (src : Src) (inst stage : Nat) : State :=
  if stage = 0 then s else s.record .bistFail src inst none stage 0

/-- A switch-over is recorded and traced (R422, R437): the spare, and why: 0 owner, 1 fault, 2 rehearsal, 3
self-test. -/
def State.switched (s : State) (src : Src) (inst spare why : Nat) : State :=
  (s.record .switchover src inst none spare why (why == 2)).trace 5 1 (src.at inst) none spare (src.at inst) 0
    (why == 2)

/-! ### Lanes -/

/-- A lane has nothing left to complete (R42): no request, read, access, buffered or held write, page move or MAINT
work. -/
def State.laneEmpty (s : State) (n : Nat) : Bool :=
  !(s.mem.ingress.any (·.lane == n)) && !(s.mem.spanGranted.any (·.lane == n)) && !(s.mem.reads.any (·.txn.lane == n))
  && !(s.mem.accesses.any (·.lane == n)) && !(s.mem.wbuf.any (·.lane == n)) && !(s.mem.moves.any (·.lane == n))
  && !(s.mem.metaWrites.any (·.txn.lane == n)) && !(s.mem.waitCredit.any fun w => w.1.any (·.lane == n))
  && !(s.mem.held.any fun h => match h.what with | .mem t _ => t.lane == n | _ => false)
  && (s.lane n).maint.isEmpty

/-- A drained lane is bypassed (R42, R141): the commands that asked for the swap end. -/
def State.endLane (s : State) (n : Nat) : State :=
  if (s.lane n).role ≠ .draining ∨ !s.laneEmpty n then s
  else
    let s := s.setLane n { s.lane n with role := .bypassed, group := none }
    let s := if s.fld F.laneBist_RESULT n = 1 then
        ((s.setFld F.laneBist_RESULT 4 n).setFld F.laneBist_SWAP 0 n).setFld F.laneBist_FAIL_STAGE 0 n
      else s
    let s := if s.fld F.fltInject_BUSY = 1 ∧ s.fld F.fltInject_KIND = 3 ∧ s.fld F.fltInject_TARGET = n then
        (s.setFld F.fltInject_RESULT 0).setFld F.fltInject_BUSY 0
      else s
    if s.fld F.fltReset_BUSY = 1 ∧ s.fld F.fltReset_UNIT = 1 ∧ s.fld F.fltReset_INDEX = n then
      ((s.setFld F.fltReset_RESULT 1).setFld F.fltReset_BUSY 0).record .engineReset .lane n none 1 0
    else s

/-- The steering changes (R42): requests of the group that the old lane has not granted, and new ones, go to the spare,
and the old lane drains. -/
def State.steerLane (s : State) (n sp why : Nat) : State :=
  let old := s.lane n
  let s := s.setLane sp { s.lane sp with group := old.group, role := .active }
  let s := s.setLane n { old with role := .draining, swapTo := none }
  let s := s.withMem { s.mem with
    ingress := updWhere (fun (t : Txn) => t.lane == n) (fun t => { t with lane := sp }) s.mem.ingress }
  (s.switched .lane n sp why).endLane n

/-- A swap in progress has taken a spare lane. -/
def State.lanePromised (s : State) (sp : Nat) : Bool := (upto 0 44).any fun n => (s.lane n).swapTo == some sp

/-- The lowest lane of role SPARE that no swap in progress has taken. -/
def State.spareLane (s : State) : Option Nat :=
  (upto 0 44).find? fun n => decide ((s.lane n).role = .spare) && !s.lanePromised n

/-- Why a lane is switched over: an injection names it, its owner asked, or it failed. -/
def State.whyLane (s : State) (n : Nat) : Nat :=
  if s.fld F.fltInject_BUSY = 1 ∧ s.fld F.fltInject_KIND = 3 ∧ s.fld F.fltInject_TARGET = n then 2
  else if (s.lane n).swapTo.isSome then 0 else 1

/-- LANE_BIST_START (R141): admitted on a lane of role SPARE or BYPASSED; `out` is the failing step, 0 for none. -/
def execLaneBistStart (port n : Nat) (out : TestOut) (s : State) : Res :=
  if 44 ≤ n then .next s
  else .next <| s.ownerCmd port (s.fld F.laneBist_RESULT n == 1) F.laneErr_REG_ERR (ei := n) fun s =>
    let l := s.lane n
    if l.role = .spare ∨ l.role = .bypassed then
      let stage := min out 5
      let s := s.setLane n { l with bistOk := decide (out = 0) }
      ((s.setFld F.laneBist_RESULT (bistCode out) n).setFld F.laneBist_FAIL_STAGE stage n).bistFailed .lane n stage
    else s.setFld F.laneBist_RESULT 5 n

/-- LANE_SWAP (R141): an ACTIVE lane names a spare, which is tested first; a spare that fails leaves the steering
unchanged. A spare that another swap has taken is refused. -/
def execLaneSwap (port n : Nat) (spare : BitVec 6) (out : TestOut) (s : State) : Res :=
  if 44 ≤ n then .next s
  else if 44 ≤ spare.toNat then .next (s.ownerCmd port true F.laneErr_REG_ERR (ei := n) id)
  else .next <| s.ownerCmd port (s.fld F.laneBist_RESULT n == 1) F.laneErr_REG_ERR (ei := n) fun s =>
    let sp := spare.toNat
    let l := s.lane n
    let ok : Bool := decide (l.role = .active ∧ (s.lane sp).role = .spare ∧ l.swapTo = none ∧ s.whyLane n ≠ 2) && !s.lanePromised sp
    let s := s.setFld F.laneBist_SPARE sp n
    if ok then
      let stage := min out 5
      let s := s.setLane sp { s.lane sp with bistOk := decide (out = 0) }
      if out = 0 then
        let s := s.setLane n { l with swapTo := some sp }
        (s.setFld F.laneBist_RESULT 1 n).setFld F.laneBist_SWAP 1 n
      else
        ((s.setFld F.laneBist_RESULT 3 n).setFld F.laneBist_FAIL_STAGE stage n).bistFailed .lane sp stage
    else s.setFld F.laneBist_RESULT 5 n

/-- LANE_RETURN (R141): a BYPASSED lane whose last BIST passed becomes a spare. RESULT keeps no code for a RETURN that
completes, and reads IDLE. -/
def execLaneReturn (port n : Nat) (s : State) : Res :=
  if 44 ≤ n then .next s
  else .next <| s.ownerCmd port (s.fld F.laneBist_RESULT n == 1) F.laneErr_REG_ERR (ei := n) fun s =>
    let l := s.lane n
    if l.role = .bypassed ∧ l.bistOk then
      (s.setLane n { l with role := .spare }).setFld F.laneBist_RESULT 0 n
    else s.setFld F.laneBist_RESULT 5 n

/-! ### Ports -/

/-- The old port of a swap is bypassed (R272): the frames it was sending or receiving are complete. -/
def State.endPort (s : State) (n : Nat) : State :=
  if (s.port n).role ≠ .draining then s
  else
    let s := s.setPort n { s.port n with role := .bypassed, att := none, ranges := [] }
    let s := if s.fld F.portBist_RESULT n = 1 then
        ((s.setFld F.portBist_RESULT 4 n).setFld F.portBist_SWAP 0 n).setFld F.portBist_FAIL_STAGE 0 n
      else s
    if s.fld F.fltReset_BUSY = 1 ∧ s.fld F.fltReset_UNIT = 2 ∧ s.fld F.fltReset_INDEX = n then
      ((s.setFld F.fltReset_RESULT 1).setFld F.fltReset_BUSY 0).record .engineReset .port n none 1 0
    else s

/-- A port's attachment and flows move to a spare at a frame boundary (R272, Table 10 of the architecture chapter). -/
def State.steerPort (s : State) (n sp why : Nat) : State :=
  let old := s.port n
  let s := s.setPort sp { s.port sp with att := old.att, role := old.role, ranges := old.ranges }
  let s := s.setPort n { old with role := .draining, swapTo := none }
  let s := s.withLinks { s.links with
    tx := updWhere (fun (f : TxFlow) => f.port == n) (fun f => { f with port := sp }) s.links.tx,
    rx := updWhere (fun (f : RxFlow) => f.port == n) (fun f => { f with port := sp }) s.links.rx }
  (s.switched .port n sp why).endPort n

/-- A swap in progress has taken a spare port. -/
def State.portPromised (s : State) (sp : Nat) : Bool := (upto 0 40).any fun n => (s.port n).swapTo == some sp

/-- The lowest port of role SPARE that no swap in progress has taken. -/
def State.sparePort (s : State) : Option Nat :=
  (upto 0 40).find? fun n => decide ((s.port n).role = .spare) && !s.portPromised n

/-- A port serves an attachment. -/
def Port.serves (p : Port) : Bool := decide (p.role = .fabric ∨ p.role = .pair)

/-- PORT_BIST_START (R272): admitted on a port of role SPARE or BYPASSED. -/
def execPortBistStart (port n : Nat) (out : TestOut) (s : State) : Res :=
  if 40 ≤ n then .next s
  else .next <| s.ownerCmd port (s.fld F.portBist_RESULT n == 1) F.portErr_REG_ERR (ei := n) fun s =>
    let l := s.port n
    if l.role = .spare ∨ l.role = .bypassed then
      let stage := min out 5
      let s := s.setPort n { l with bistOk := decide (out = 0) }
      ((s.setFld F.portBist_RESULT (bistCode out) n).setFld F.portBist_FAIL_STAGE stage n).bistFailed .port n stage
    else s.setFld F.portBist_RESULT 5 n

/-- PORT_SWAP (R272): a serving port names a spare that no other swap has taken; it is tested first. -/
def execPortSwap (port n : Nat) (spare : BitVec 6) (out : TestOut) (s : State) : Res :=
  if 40 ≤ n then .next s
  else if 40 ≤ spare.toNat then .next (s.ownerCmd port true F.portErr_REG_ERR (ei := n) id)
  else .next <| s.ownerCmd port (s.fld F.portBist_RESULT n == 1) F.portErr_REG_ERR (ei := n) fun s =>
    let sp := spare.toNat
    let l := s.port n
    let s := s.setFld F.portBist_SPARE sp n
    if l.serves ∧ (s.port sp).role = .spare ∧ l.swapTo = none ∧ s.portPromised sp = false then
      let stage := min out 5
      let s := s.setPort sp { s.port sp with bistOk := decide (out = 0) }
      if out = 0 then
        let s := s.setPort n { l with swapTo := some sp }
        (s.setFld F.portBist_RESULT 1 n).setFld F.portBist_SWAP 1 n
      else
        ((s.setFld F.portBist_RESULT 3 n).setFld F.portBist_FAIL_STAGE stage n).bistFailed .port sp stage
    else s.setFld F.portBist_RESULT 5 n

/-- PORT_RETURN (R272): a BYPASSED port whose last BIST passed becomes a spare. -/
def execPortReturn (port n : Nat) (s : State) : Res :=
  if 40 ≤ n then .next s
  else .next <| s.ownerCmd port (s.fld F.portBist_RESULT n == 1) F.portErr_REG_ERR (ei := n) fun s =>
    let l := s.port n
    if l.role = .bypassed ∧ l.bistOk then
      (s.setPort n { l with role := .spare }).setFld F.portBist_RESULT 0 n
    else s.setFld F.portBist_RESULT 5 n

/-! ### Keccak cores -/

/-- A Keccak core's reset value (R223): cores 64 to 67 are spares. -/
def coreReset (c : Nat) : UnitSt := if c < 64 then {} else { role := .spare }

/-- A Keccak core. -/
def State.core (s : State) (c : Nat) : UnitSt := tget (coreReset c) s.dig.stv.cores c

/-- Sets a Keccak core. -/
def State.setCore (s : State) (c : Nat) (x : UnitSt) : State :=
  s.withStv { s.dig.stv with cores := tset (coreReset c) s.dig.stv.cores c x }

/-- A chunk on a core that fails or is swapped is dispatched again, from its slot (R223). -/
def State.redispatch (s : State) (c : Nat) : State :=
  s.withStv { s.dig.stv with
    asms := updWhere (fun (a : Asm) => decide (a.st = .onCore c)) (fun a => { a with st := .ready }) s.dig.stv.asms }

/-- A core's work moves to a spare, and the core is bypassed at once: cores hold no state between chunks (Table 10 of the
architecture chapter), and a chunk on the core is dispatched again. A SWAP that asked for it has ended. -/
def State.steerCore (s : State) (c sp why : Nat) : State :=
  let s := s.setCore sp { s.core sp with role := .active }
  let s := if (s.core c).swapTo.isSome then
      ((s.setFld F.stvBist_RESULT 4).setFld F.stvBist_SWAP 0).setFld F.stvBist_FAIL_STAGE 0
    else s
  let s := s.setCore c { s.core c with role := .bypassed, swapTo := none }
  (s.redispatch c).switched .core c sp why

/-- The lowest core of role SPARE that no swap in progress has taken. -/
def State.spareCore (s : State) : Option Nat :=
  (upto 0 68).find? fun c => decide ((s.core c).role = .spare) && !(upto 0 68).any fun d => (s.core d).swapTo == some c

/-- STV_BIST_START (R223): admitted on a core of role SPARE or BYPASSED. -/
def execStvBistStart (port : Nat) (core : BitVec 7) (out : TestOut) (s : State) : Res :=
  let c := core.toNat
  .next <| s.ownerCmd port (decide (68 ≤ c) || s.fld F.stvBist_RESULT == 1) F.stvErr_REG_ERR fun s =>
    let s := s.setFld F.stvBist_CORE c
    let u := s.core c
    if u.role = .spare ∨ u.role = .bypassed then
      let stage := min out 3
      let s := s.setCore c { u with bistOk := decide (out = 0) }
      ((s.setFld F.stvBist_RESULT (bistCode out)).setFld F.stvBist_FAIL_STAGE stage).bistFailed .core c stage
    else s.setFld F.stvBist_RESULT 5

/-- STV_BIST_SWAP (R223): an ACTIVE core names a spare, which is tested first; the swap is RUNNING until its
switch-over. -/
def execStvBistSwap (port : Nat) (core spare : BitVec 7) (out : TestOut) (s : State) : Res :=
  let c := core.toNat
  let sp := spare.toNat
  .next <| s.ownerCmd port (decide (68 ≤ c ∨ 68 ≤ sp) || s.fld F.stvBist_RESULT == 1) F.stvErr_REG_ERR fun s =>
    let s := (s.setFld F.stvBist_CORE c).setFld F.stvBist_SPARE sp
    if (s.core c).role = .active ∧ (s.core sp).role = .spare then
      let stage := min out 3
      let s := s.setCore sp { s.core sp with bistOk := decide (out = 0) }
      if out = 0 then
        ((s.setCore c { s.core c with swapTo := some sp }).setFld F.stvBist_RESULT 1).setFld F.stvBist_SWAP 1
      else ((s.setFld F.stvBist_RESULT 3).setFld F.stvBist_FAIL_STAGE stage).bistFailed .core sp stage
    else s.setFld F.stvBist_RESULT 5

/-- STV_BIST_RETURN (R223): a BYPASSED core whose last BIST passed becomes a spare. -/
def execStvBistReturn (port : Nat) (core : BitVec 7) (s : State) : Res :=
  let c := core.toNat
  .next <| s.ownerCmd port (decide (68 ≤ c) || s.fld F.stvBist_RESULT == 1) F.stvErr_REG_ERR fun s =>
    let s := s.setFld F.stvBist_CORE c
    let u := s.core c
    if u.role = .bypassed ∧ u.bistOk then (s.setCore c { u with role := .spare }).setFld F.stvBist_RESULT 0
    else s.setFld F.stvBist_RESULT 5

/-! ### The units of LZ_FLT_UNIT -/

/-- The largest INDEX of a type (R427): 1 COLUMN, 2 KEYROW, 3 RGNROW, 4 REEVE. -/
def unitTop (type : Nat) : Option Nat :=
  match type with
  | 1 => some 64
  | 2 => some 4351
  | 3 => some 16639
  | 4 => some 2
  | _ => none

/-- How many units of a type are ACTIVE at reset; the others are spares (Table 10 of the architecture chapter). -/
def unitActive (type : Nat) : Nat :=
  match type with
  | 1 => 64
  | 2 => 4096
  | 3 => 16384
  | _ => 2

/-- A unit's reset value. -/
def unitReset (type i : Nat) : UnitSt := if i < unitActive type then {} else { role := .spare }

/-- A unit of LZ_FLT_UNIT. -/
def State.unitOf (s : State) (type i : Nat) : UnitSt := tget (unitReset type i) s.units.units (type * 65536 + i)

/-- Sets a unit of LZ_FLT_UNIT; the spare key-cache rows in service are kept apart (LZ_KEY_GLOBAL). -/
def State.setUnit (s : State) (type i : Nat) (u : UnitSt) : State :=
  let s := { s with units := { s.units with units := tset (unitReset type i) s.units.units (type * 65536 + i) u } }
  if type = 2 ∧ 4096 ≤ i then
    let rest := s.keys.spareRows.filter (· != i)
    { s with keys := { s.keys with spareRows := if u.role = .active then nsInsert rest i else rest } }
  else s

/-- The source of a unit of LZ_FLT_UNIT in records (R421). -/
def unitSrc (type : Nat) : Src :=
  match type with
  | 1 => .column
  | 2 => .key
  | 3 => .region
  | _ => .reeve

/-- A unit's work moves to a spare, and the unit is bypassed. -/
def State.steerUnit (s : State) (type i sp why : Nat) : State :=
  let s := s.setUnit type sp { s.unitOf type sp with role := .active }
  let s := s.setUnit type i { s.unitOf type i with role := .bypassed }
  s.switched (unitSrc type) i sp why

/-- An INDEX that its type has (R427). -/
def unitIndexOk (type i : Nat) : Bool := match unitTop type with | some t => decide (i ≤ t) | none => false

/-- UNIT_BIST_START (R427). -/
def execUnitBistStart (port : Nat) (type : BitVec 3) (index : BitVec 15) (out : TestOut) (s : State) : Res :=
  let t := type.toNat
  let i := index.toNat
  .next <| s.ownerCmd port (!unitIndexOk t i || s.fld F.fltUnit_RESULT == 1) F.fltErr_REG_ERR fun s =>
    let s := (s.setFld F.fltUnit_TYPE t).setFld F.fltUnit_INDEX i
    let u := s.unitOf t i
    if u.role = .spare ∨ u.role = .bypassed then
      let s := s.setUnit t i { u with bistOk := decide (out = 0) }
      (s.setFld F.fltUnit_RESULT (bistCode out)).bistFailed (unitSrc t) i out
    else s.setFld F.fltUnit_RESULT 5

/-- UNIT_SWAP (R427): an ACTIVE unit's work moves to a spare that passes its test; a reeve core is not swapped while an
update is under way. -/
def execUnitSwap (port : Nat) (type : BitVec 3) (index spare : BitVec 15) (out : TestOut) (s : State) : Res :=
  let t := type.toNat
  let i := index.toNat
  let sp := spare.toNat
  .next <| s.ownerCmd port (!unitIndexOk t i || s.fld F.fltUnit_RESULT == 1) F.fltErr_REG_ERR fun s =>
    let s := ((s.setFld F.fltUnit_TYPE t).setFld F.fltUnit_INDEX i).setFld F.fltUnit_SPARE sp
    if unitIndexOk t sp ∧ (s.unitOf t i).role = .active ∧ (s.unitOf t sp).role = .spare
        ∧ (t ≠ 4 ∨ s.fwu.st = .idle) then
      let s := s.setUnit t sp { s.unitOf t sp with bistOk := decide (out = 0) }
      if out = 0 then (s.steerUnit t i sp 0).setFld F.fltUnit_RESULT 4
      else (s.setFld F.fltUnit_RESULT 3).bistFailed (unitSrc t) sp out
    else s.setFld F.fltUnit_RESULT 5

/-- UNIT_RETURN (R427): a BYPASSED unit whose last BIST passed becomes a spare. -/
def execUnitReturn (port : Nat) (type : BitVec 3) (index : BitVec 15) (s : State) : Res :=
  let t := type.toNat
  let i := index.toNat
  .next <| s.ownerCmd port (!unitIndexOk t i || s.fld F.fltUnit_RESULT == 1) F.fltErr_REG_ERR fun s =>
    let s := (s.setFld F.fltUnit_TYPE t).setFld F.fltUnit_INDEX i
    let u := s.unitOf t i
    if u.role = .bypassed ∧ u.bistOk then (s.setUnit t i { u with role := .spare }).setFld F.fltUnit_RESULT 0
    else s.setFld F.fltUnit_RESULT 5

/-- A fault moves a unit's work to a spare (R42, R406): the spare's BIST comes first, and one that fails leaves the work
where it is. -/
def State.faultUnit (s : State) (type i sp : Nat) (out : TestOut) : State :=
  let s := s.setUnit type sp { s.unitOf type sp with bistOk := decide (out = 0) }
  if out = 0 then s.steerUnit type i sp 1 else s.bistFailed (unitSrc type) sp out

/-- KEY_ROW_CHECK_FAIL (R182, R406): a key-cache row fails its check, and its schedule is expanded again, from the ledger
store, into a spare row that passes its BIST. -/
def execKeyRowCheckFail (row : Nat) (spare : TestedSpare) (s : State) : Res :=
  if unitIndexOk 2 row ∧ unitIndexOk 2 spare.index ∧ (s.unitOf 2 row).role = .active
      ∧ (s.unitOf 2 spare.index).role = .spare then
    .next (s.faultUnit 2 row spare.index spare.out)
  else .next s

/-- The type of LZ_FLT_UNIT (R427) of a unit type of R421: column, key row, region row, reeve core. -/
def unitTypeOf (type : Nat) : Nat :=
  if type = 0x04 then 1 else if type = 0x05 then 2 else if type = 0x06 then 3 else if type = 0x0B then 4 else 0

/-- The lowest spare of a type of LZ_FLT_UNIT; spares follow the units that are ACTIVE at reset, unless swaps have put
others in their place. -/
def State.spareUnit (s : State) (type : Nat) : Option Nat :=
  match unitTop type with
  | none => none
  | some top =>
    match (s.units.units.filter fun e => e.1 / 65536 == type && decide (e.2.role = .spare)).map fun e => e.1 % 65536 with
    | i :: _ => some (min i (((upto (unitActive type) (top + 1 - unitActive type)).find? fun j =>
        unitIndexOk type j && decide ((s.unitOf type j).role = .spare)).getD i))
    | [] => (upto (unitActive type) (top + 1 - unitActive type)).find? fun j =>
        unitIndexOk type j && decide ((s.unitOf type j).role = .spare)

/-- SWITCHOVER of a lane (R42): to the spare its SWAP named, or on a fault to the lowest spare once that passes its BIST; a
lane that drains is bypassed once nothing of it is left. -/
def State.switchLane (s : State) (n : Nat) (out : TestOut) : State :=
  if (s.lane n).role ≠ .active then s.endLane n
  else
    match (s.lane n).swapTo with
    | some sp => s.steerLane n sp (s.whyLane n)
    | none =>
      match s.spareLane with
      | some sp =>
        let s := s.setLane sp { s.lane sp with bistOk := decide (out = 0) }
        if out = 0 then s.steerLane n sp 1 else s.bistFailed .lane sp (min out 5)
      | none => s

/-- SWITCHOVER of a port (R42, R272). -/
def State.switchPort (s : State) (n : Nat) (out : TestOut) : State :=
  if !(s.port n).serves then s.endPort n
  else
    match (s.port n).swapTo with
    | some sp => s.steerPort n sp 0
    | none =>
      match s.sparePort with
      | some sp =>
        let s := s.setPort sp { s.port sp with bistOk := decide (out = 0) }
        if out = 0 then s.steerPort n sp 1 else s.bistFailed .port sp (min out 5)
      | none => s

/-- SWITCHOVER of a Keccak core (R42, R223). -/
def State.switchCore (s : State) (c : Nat) (out : TestOut) : State :=
  if (s.core c).role ≠ .active then s
  else
    match (s.core c).swapTo with
    | some sp => s.steerCore c sp 0
    | none =>
      match s.spareCore with
      | some sp =>
        let s := s.setCore sp { s.core sp with bistOk := decide (out = 0) }
        if out = 0 then s.steerCore c sp 1 else s.bistFailed .core sp (min out 3)
      | none => s

/-- SWITCHOVER (R42, R223, R406): the steering of a unit changes to the spare its swap named, or, on a fault, to the
lowest spare once that has passed its BIST; a unit that drains is bypassed once nothing of it is left. -/
def execSwitchover (unit : SwitchUnit) (n : Nat) (s : State) : Res :=
  match unit.type with
  | 0x01 => .next (if n < 44 then s.switchLane n unit.spare else s)
  | 0x02 => .next (if n < 40 then s.switchPort n unit.spare else s)
  | 0x03 => .next (if n < 68 then s.switchCore n unit.spare else s)
  | _ =>
    let t := unitTypeOf unit.type
    if unitIndexOk t n ∧ (s.unitOf t n).role = .active then
      match s.spareUnit t with
      | some sp => .next (s.faultUnit t n sp unit.spare)
      | none => .next s
    else .next s

/-! ### Units without a spare left -/

/-- A lane is out of service (R43): requests for its channel group complete RETRY. -/
def State.laneOut (s : State) (n : Nat) : State :=
  let l := s.lane n
  let s := s.setLane n { l with role := .bypassed, group := none, swapTo := none }
  let out := s.mem.ingress.filter (·.lane == n)
  let s := s.withMem { s.mem with ingress := s.mem.ingress.filter (·.lane != n) }
  out.foldl (fun s t => s.refuse t .retry) s

/-- A port is out of service (R43): flows on its attachment are DOWN, and their peers are told so. The one message that
says DOWN is that of R290, which goes on the CONTROL flow over a port that is left. DEDUCED (log 65). -/
def State.portOut (s : State) (n : Nat) : State :=
  let peers := (((s.links.tx.filter (·.port == n)).map (·.dest)) ++ (s.links.rx.filter (·.port == n)).map (·.src)).eraseDups
  let s := s.setPort n { s.port n with role := .bypassed, att := none, ranges := [], swapTo := none }
  let s := s.withLinks { s.links with
    tx := updWhere (fun (f : TxFlow) => f.port == n) (fun f => { f with down := true }) s.links.tx,
    rx := updWhere (fun (f : RxFlow) => f.port == n) (fun f => { f with down := true }) s.links.rx }
  peers.foldl (fun s u => s.sendMember "DOWN" 13 u (leBytes 1 s.life.genCur ++ zeros 7)) s

/-- UNIT_OUT_OF_SERVICE (R43): an ACTIVE unit, named by its unit type (R421) and index, fails with no spare of its kind
left. A key or descriptor without a healthy row is held in memory, which changes only its latency. -/
def execUnitOutOfService (type index : Nat) (s : State) : Res :=
  let rec_ := fun (s : State) (x : Src) => s.record .unitOut x index none 0 0
  match type with
  | 0x01 =>
    if index < 44 ∧ (s.lane index).role = .active ∧ s.spareLane = none then .next (rec_ (s.laneOut index) .lane)
    else .next s
  | 0x02 =>
    if index < 40 ∧ (s.port index).serves ∧ s.sparePort = none then .next (rec_ (s.portOut index) .port)
    else .next s
  | 0x03 =>
    if index < 68 ∧ (s.core index).role = .active ∧ s.spareCore = none then
      .next (rec_ ((s.setCore index { s.core index with role := .bypassed }).redispatch index) .core)
    else .next s
  | _ =>
    let t := unitTypeOf type
    if unitIndexOk t index ∧ (s.unitOf t index).role = .active ∧ s.spareUnit t = none then
      .next (rec_ (s.setUnit t index { s.unitOf t index with role := .bypassed }) (unitSrc t))
    else .next s

end Sys2Proof.Machine
end

