-- ==== Sys2Proof/Machine/Regions.lean ====
section
/-! DEFINITION. The region commands (R83 to R115, R466) and the references that drivers hold (R114); a seal's digest is
in its own file. -/

namespace Sys2Proof.Machine

/-! ### How a region command comes and ends -/

/-- Ends a region command with its RESULT (Table 8); one other than DONE is counted (Table 4). -/
def State.rgnEnd (s : State) (o : Origin) (code : Nat) : State :=
  let s := if code = 0 then s else s.incFld F.rgnErr_CMD_REFUSED
  s.engineEnd o F.rgnSel_RESULT F.rgnSel_BUSY code (some 4)

/-- The row a region command names: LZ_RGN_SEL.INDEX, or ARG16 of its descriptor. -/
def rowArg (o : Origin) (row : Nat) (c : Option Cmd) : Nat :=
  match o, c with
  | .svc _ _, some c => c.desc.arg16
  | _, _ => row

/-- Starts a region command `i` from a register (R90) or a queue (R113); it waits while a swap is prepared (R369). A queue's staged descriptor is read from its SRC, a
row above 16,383 is malformed, as is a staged descriptor with a reserved field that is not zero (R10; CREATE answers
that in its own place, R466), and a queue that is not the owner's acts only on regions of its partition. -/
def State.rgnCmd (s : State) (i : Instr) (o : Origin) (row op : Nat) (r : ReadOut) (f : Nat → Staging → State → State) :
    State :=
  match o with
  | .reg port =>
    s.regCmd i port (s.fld F.rgnSel_BUSY == 1) F.rgnErr_REG_ERR F.rgnSel_BUSY fun s =>
      f row s.staged ((s.setFld F.rgnSel_INDEX row).setFld F.rgnSel_BUSY 1)
  | .svc q k => s.queueCmd i q k op fun c s =>
    s.charged q c 128 0 fun s =>
      let (r, s) := s.takeSrc q c 128 r
      if 16384 ≤ c.desc.arg16 then s.svcDone q k 6 0 0 0 0
      else if !s.srcOk q c 128 r then s.srcFail q c
      else if op ≠ 0x20 ∧ (Staging.ofBytes r.bytes).reservedOk = false then s.svcDone q k 6 0 0 0 0
      else
        let st := s.row c.desc.arg16
        if st.state ≠ .free && !s.mayAct q c st.part then s.svcDone q k 1 2 0 0 0
        else f c.desc.arg16 (Staging.ofBytes r.bytes) s

/-- The first two checks of R466, for commands other than CREATE. -/
def State.rowCheck (s : State) (row : Nat) : Option Nat :=
  let r := s.row row
  if s.life.lc = .blank ∨ s.life.lc = .endOfLife then some 1
  else if r.state = .free ∨ r.state = .closing then some 1
  else none

/-! ### READ and CREATE -/

/-- RGN_READ (R90): row INDEX is copied into LZ_RGN_DESC0 to LZ_RGN_DESC15, D5 and D6 as zero. -/
def execRgnRead (port : Nat) (row : BitVec 14) (s : State) : Res :=
  .next (s.regCmd (.rgnRead port row) port (s.fld F.rgnSel_BUSY == 1) F.rgnErr_REG_ERR F.rgnSel_BUSY fun s =>
    let r := s.row row.toNat
    let refs := s.regionRefs row.toNat
    let s := ((s.setFld F.rgnSel_INDEX row.toNat).setFld F.rgnSel_RESULT 0).setFld F.rgnSel_BUSY 0
    (upto 0 16).foldl (fun s j => s.wr (descRegs.getD j .rgnDesc0) (r.word refs j)) s)

/-- The checks of CREATE in the order of R466; the RESULT of the first that fails. -/
def State.createCheck (s : State) (row : Nat) (d : Staging) : Option Nat :=
  let r := d.region
  if s.life.lc = .blank ∨ s.life.lc = .endOfLife ∨ (s.row row).state ≠ .free then some 1
  else if s.badDesc r ∨ d.reservedOk = false then some 4
  else if s.badPlace r then some 2
  else if s.overRadio r then some 5
  else if (r.kind = .sown ∨ r.kind = .furrow) ∧ s.freeWindow = none then some 3
  else none

/-- Creates a region (R113): EPOCH is drawn for every kind but CLEAR, a window slot is taken for SOWN and FURROW, the
state is OPEN; a cell key that a radio region brings into use is credited to the lanes at once (R187). -/
def State.createRegion (s : State) (row : Nat) (r : Region) : State :=
  let (epoch, s) := if r.kind = .clear then (0, s) else s.drawEpoch
  let slot := if r.kind = .sown ∨ r.kind = .furrow then s.freeWindow else none
  let s := (s.setRow row { r with state := .opened, epoch := epoch, wslot := slot, stamp := s.life.time }).joinJob row
  if r.radio ∧ (s.slot r.kidx).kind = .cell then s.pinCell r.kidx else s

/-- RGN_CREATE (R113, R466). -/
def execRgnCreate (o : Origin) (row : BitVec 14) (r : ReadOut) (s : State) : Res :=
  .next (s.rgnCmd (.rgnCreate o row r) o row.toNat 0x20 r fun row d s =>
    match s.createCheck row d with
    | some code => s.rgnEnd o code
    | none => (s.createRegion row d.region).rgnEnd o 0)

/-! ### DESTROY -/

/-- A region starts to close (R113, R115): new requests are refused, and it leaves its harrow job. -/
def State.closeRegion (s : State) (row : Nat) (o : Option Origin) : State :=
  let s := s.dropFromJob row
  let s := s.tokBreak row
  let r := s.row row
  (s.setRow row { r with state := .closing, stamp := s.life.time, closer := o }).unpin

/-- RGN_DESTROY (R113, R466): the command completes when the last reference is gone. -/
def execRgnDestroy (o : Origin) (row : BitVec 14) (r : ReadOut) (s : State) : Res :=
  .next (s.rgnCmd (.rgnDestroy o row r) o row.toNat 0x21 r fun row _ s =>
    match s.rowCheck row with
    | some code => s.rgnEnd o code
    | none => if (s.row row).state = .sealing then s.rgnEnd o 1 else s.closeRegion row (some o))

/-- A region's row becomes FREE and leaves its job; its window slot is released, and an ADVANCE of it ends. -/
def State.freeRegion (s : State) (row : Nat) : State :=
  let adv := (s.row row).adv
  adv.foldl (fun s a => s.rgnEnd a.origin 0) ((s.dropFromJob row).setRow row {})

/-- A CLOSING region without references becomes FREE (R114), and its DESTROY completes. -/
def State.settleRegion (s : State) (row : Nat) : State :=
  let r := s.row row
  if r.state ≠ .closing ∨ s.regionRefs row ≠ 0 then s
  else
    let s := s.freeRegion row
    match r.closer with | some o => s.rgnEnd o 0 | none => s

/-! ### SEAL starts -/

/-- RGN_SEAL (R97, R466): the region is SEALING from now on; the fold and the digest follow. While an ADVANCE of the
region runs the spec gives no outcome: the seal is admitted and its fold waits for the ADVANCE (DESIGN CHOICE, log entry
59). -/
def execRgnSeal (o : Origin) (row : BitVec 14) (r : ReadOut) (s : State) : Res :=
  .next (s.rgnCmd (.rgnSeal o row r) o row.toNat 0x22 r fun row d s =>
    match s.rowCheck row with
    | some code => s.rgnEnd o code
    | none =>
      let x := s.row row
      if x.kind ≠ .sown then s.rgnEnd o 6
      else if ¬ (x.state = .opened ∨ (x.state = .sealed ∧ x.sealIncomplete = true)) then s.rgnEnd o 1
      else s.setRow row { x with state := .sealing, stamp := s.life.time,
                                 sealRun := some { addr := d.argAddr, origin := o } })

/-! ### RESET and ADVANCE -/

/-- A region restarts virgin (R102, R115): a new EPOCH, HWM 0, no bit set; a harrow job loses the region; an ADVANCE
ends; a SOWN region is OPEN again with a window slot and no digest. -/
def State.resetRegion (s : State) (row : Nat) : State :=
  let s := (s.tokBreak row).dropFromJob row
  let (epoch, s) := s.drawEpoch
  let r := (s.row row).retired
  let slot := match r.wslot with | some w => some w | none => s.freeWindow
  let s := s.setRow row { r with state := .opened, epoch := epoch, hwm := 0, win := [], rsv := [], adv := [],
                                 digest := 0, sealIncomplete := false, wslot := slot, stamp := s.life.time }
  r.adv.foldl (fun s a => s.rgnEnd a.origin 0) s

/-- RGN_RESET (R102, R466). -/
def execRgnReset (o : Origin) (row : BitVec 14) (r : ReadOut) (s : State) : Res :=
  .next (s.rgnCmd (.rgnReset o row r) o row.toNat 0x23 r fun row _ s =>
    match s.rowCheck row with
    | some code => s.rgnEnd o code
    | none =>
      let x := s.row row
      if x.kind = .clear ∨ x.kind = .tilled then s.rgnEnd o 6
      else if x.state = .sealing then s.rgnEnd o 1
      else if x.wslot = none ∧ s.freeWindow = none then s.rgnEnd o 3
      else (s.resetRegion row).rgnEnd o 0)

/-- RGN_ADVANCE (R103, R466): offsets below the argument refuse writes from now on; the command completes with its zero
writes. -/
def execRgnAdvance (o : Origin) (row : BitVec 14) (r : ReadOut) (s : State) : Res :=
  .next (s.rgnCmd (.rgnAdvance o row r) o row.toNat 0x24 r fun row d s =>
    match s.rowCheck row with
    | some code => s.rgnEnd o code
    | none =>
      let x := s.row row
      let a := d.argLine
      if x.kind = .clear ∨ x.kind = .tilled then s.rgnEnd o 6
      else if x.state ≠ .opened then s.rgnEnd o 1
      else if ¬ (x.hwm < a ∧ a ≤ x.hwm + 1024 ∧ a ≤ x.count * linesPerGranule) then s.rgnEnd o 1
      else
        let zs := (upto x.hwm (a - x.hwm)).filter fun i => !x.win.contains i && !x.rsv.contains i
        s.setRow row { x with adv := x.adv ++ [{ target := a, zeros := zs, origin := o }] })

/-- ADVANCE_COMPLETE (R103): the oldest ADVANCE of a region ends once no held write reserves an offset of the range and no
page of the region is closed: every offset of the range with its bit clear is written as zeros, HWM is the argument, and
moves on over the bits set above it (R98) when no other ADVANCE runs. -/
def execAdvanceComplete (row : BitVec 14) (s : State) : Res :=
  let n := row.toNat
  let x := s.row n
  match x.adv with
  | [] => .next s
  | a :: rest =>
    if x.rsv.any (· < a.target) ∨ s.closedIn n then .next s
    else
      let zs := (upto x.hwm (a.target - x.hwm)).filter fun i => !x.win.contains i
      let s := s.zeroLines n zs
      let x := s.row n
      let h := max x.hwm a.target
      let y := { x with adv := rest, hwm := h, win := x.win.filter (h ≤ ·) }
      .next ((s.setRow n y.advanceHwm).rgnEnd a.origin 0)

/-! ### References of drivers -/

/-- RGN_REF and RGN_UNREF (R114): a driver takes or drops a reference on a region of its partition. A region that is FREE
or closing takes none, and one without driver references drops none. -/
def State.drvRef (s : State) (i : Instr) (q k op : Nat) (up : Bool) : State :=
  s.queueCmd i q k op fun c s =>
    let row := c.desc.arg16
    let r := s.row row
    if 16384 ≤ row then s.svcDone q k 6 0 0 0 0
    else if r.state ≠ .free && !s.mayAct q c r.part then s.svcDone q k 1 2 0 0 0
    else if (up ∧ (s.rowCheck row).isSome) ∨ (!up ∧ (r.state = .free ∨ r.drvRefs = 0)) then s.svcDone q k 1 1 0 0 0
    else (s.setRow row { r with drvRefs := if up then r.drvRefs + 1 else r.drvRefs - 1 }).svcDone q k 0 0 0 0 0

/-- RGN_REF (R114). -/
def execRgnRef (q : Nat) (k : Nat) (s : State) : Res := .next (s.drvRef (.rgnRef q k) q k 0x25 true)

/-- RGN_UNREF (R114). -/
def execRgnUnref (q : Nat) (k : Nat) (s : State) : Res := .next (s.drvRef (.rgnUnref q k) q k 0x26 false)

end Sys2Proof.Machine
end

