-- ==== Sys2Proof/Machine/Tensor.lean ====
section
/-! DEFINITION. Tensors as the Stavub digest and the tensor watch see them (R199 to R202, R230): formats, canonical units,
shapes, chunks, and the exact values of elements. -/

namespace Sys2Proof.Machine

/-! ### Formats and chunks -/

/-- Bytes of a canonical unit and units in a chunk (Table 1); none for a reserved format code. -/
def fmtUnit (fmt : Nat) : Option (Nat × Nat) :=
  match fmt with
  | 0x0001 => some (8, 512)
  | 0x0002 | 0x0007 => some (4, 1024)
  | 0x0003 | 0x0004 => some (2, 2048)
  | 0x0005 | 0x0006 | 0x0008 | 0x0009 | 0x000A => some (1, 4096)
  | 0x0010 | 0x0011 | 0x0015 => some (33, 124)
  | 0x0012 | 0x0013 => some (25, 163)
  | 0x0014 => some (17, 240)
  | _ => none

/-- An MX format, whose units are blocks of 32 elements (R199). -/
def fmtMx (fmt : Nat) : Bool := decide (0x0010 ≤ fmt)

/-- The product of a list. -/
def prod (l : List Nat) : Nat := l.foldl (· * ·) 1

/-- U, the number of canonical units (R201). -/
def unitCount (fmt axis : Nat) (dims : List Nat) : Nat :=
  if fmtMx fmt then prod (dims.eraseIdx axis) * ceilDiv (dims.getD axis 0) 32
  else if fmt = 0x000A then ceilDiv (prod dims) 2
  else prod dims

/-- n, the number of chunks (R201). -/
def chunkCount (fmt axis : Nat) (dims : List Nat) : Nat :=
  match fmtUnit fmt with
  | some (_, u) => ceilDiv (unitCount fmt axis dims) u
  | none => 0

/-- The content length of chunk `c` (R201). -/
def contentLen (fmt axis : Nat) (dims : List Nat) (c : Nat) : Nat :=
  match fmtUnit fmt with
  | some (b, u) => min u (unitCount fmt axis dims - u * c) * b
  | none => 0

/-- The shape record (R202). -/
def shapeRecord (fmt axis : Nat) (dims : List Nat) : Bytes :=
  leBytes 2 fmt ++ leBytes 1 dims.length ++ leBytes 1 (if fmtMx fmt then axis else 0xFF) ++
    (dims.map (leBytes 8)).flatten

/-! ### Elements (R230, Table 2 of the watch chapter) -/

/-- A floating-point element format: exponent and mantissa bits, bias, and whether the largest exponent means Inf and NaN
as in IEEE 754; E4M3 keeps only the all-ones code as NaN. -/
structure FloatFmt where
  e : Nat
  m : Nat
  bias : Nat
  ieee : Bool
  e4m3 : Bool := false
  deriving DecidableEq, Repr

/-- The element format of a float format code; none for integers. -/
def floatFmt (fmt : Nat) : Option FloatFmt :=
  match fmt with
  | 0x0001 => some ⟨11, 52, 1023, true, false⟩
  | 0x0002 => some ⟨8, 23, 127, true, false⟩
  | 0x0003 => some ⟨5, 10, 15, true, false⟩
  | 0x0004 => some ⟨8, 7, 127, true, false⟩
  | 0x0005 | 0x0010 => some ⟨4, 3, 7, false, true⟩
  | 0x0006 | 0x0011 => some ⟨5, 2, 15, true, false⟩
  | 0x0012 => some ⟨3, 2, 3, false, false⟩
  | 0x0013 => some ⟨2, 3, 1, false, false⟩
  | 0x0014 => some ⟨2, 1, 1, false, false⟩
  | _ => none

/-- Bits of an element's code. -/
def elemBits (fmt : Nat) : Nat :=
  match floatFmt fmt with
  | some f => 1 + f.e + f.m
  | none => if fmt = 0x0007 then 32 else if fmt = 0x000A then 4 else 8

/-- What an element's code stands for (R230): NaN, an infinity with its sign, or a finite value times 2^F; for an MX
element F is that of its element format. -/
inductive Elem where
  | nan
  | inf (neg : Bool)
  | fin (v : Int)
  deriving DecidableEq, Repr

/-- The element a floating-point code stands for. -/
def FloatFmt.decode (f : FloatFmt) (code : Nat) : Elem :=
  let neg := bit code (f.e + f.m)
  let ex := bits code f.m f.e
  let man := bits code 0 f.m
  if f.ieee ∧ ex = 2 ^ f.e - 1 then (if man = 0 then .inf neg else .nan)
  else if f.e4m3 ∧ bits code 0 (f.e + f.m) = 2 ^ (f.e + f.m) - 1 then .nan
  else
    let v := if ex = 0 then man else (2 ^ f.m + man) * 2 ^ (ex - 1)
    .fin (if neg then -(v : Int) else v)

/-- The magnitude bits of the largest finite code. -/
def FloatFmt.top (f : FloatFmt) : Nat :=
  if f.ieee then (2 ^ f.e - 1) * 2 ^ f.m - 1 else if f.e4m3 then 2 ^ (f.e + f.m) - 2 else 2 ^ (f.e + f.m) - 1

/-- An integer code in two's complement; UINT8 is unsigned. -/
def intElem (fmt code : Nat) : Int :=
  let w := elemBits fmt
  if fmt ≠ 0x0009 ∧ bit code (w - 1) then (code : Int) - 2 ^ w else code

/-- The element of a code. -/
def decodeElem (fmt code : Nat) : Elem :=
  match floatFmt fmt with
  | some f => f.decode code
  | none => .fin (intElem fmt code)

/-- Whether a code is the largest positive, or the largest-magnitude negative, of its format (Table 2). -/
def elemSat (fmt code : Nat) : Bool × Bool :=
  match floatFmt fmt with
  | some f => (code == f.top, code == f.top + 2 ^ (f.e + f.m))
  | none =>
    let w := elemBits fmt
    if fmt = 0x0009 then (code == 255, false) else (code == 2 ^ (w - 1) - 1, code == 2 ^ (w - 1))

/-- An element of a chunk: its canonical index, its code, and for an MX element its block's scale. -/
structure ElemAt where
  index : Nat
  code : Nat
  scale : Option Nat := none
  deriving DecidableEq, Repr

/-- The value of an element (R230): an MX element is scaled by its block, and NaN under scale 0xFF. -/
def ElemAt.value (e : ElemAt) (fmt : Nat) : Elem :=
  match e.scale with
  | none => decodeElem fmt e.code
  | some 0xFF => .nan
  | some s => match decodeElem fmt e.code with
    | .fin v => .fin (v * 2 ^ s)
    | x => x

/-- The elements of a chunk in canonical order (R230): its padding and the pad elements of its blocks are none. -/
def chunkElems (fmt axis : Nat) (dims : List Nat) (chunk : Nat) (content : Bytes) : List ElemAt :=
  match fmtUnit fmt with
  | none => []
  | some (b, u) =>
    let units := content.length / b
    let w := elemBits fmt
    ((List.range units).map fun i =>
      let g := u * chunk + i
      let x := le content (b * i) b
      if fmtMx fmt then
        let d := dims.getD axis 0
        let nb := ceilDiv d 32
        let col := g % nb * 32
        let scale := x % 256
        ((List.range 32).filter fun j => decide (col + j < d)).map fun j =>
          (⟨g / nb * d + col + j, bits (x / 256) (w * j) w, some scale⟩ : ElemAt)
      else if fmt = 0x000A then
        ((List.range 2).filter fun j => decide (2 * g + j < prod dims)).map fun j =>
          (⟨2 * g + j, bits x (4 * j) 4, none⟩ : ElemAt)
      else [⟨g, x, none⟩]).flatten

/-- The scales of the MX blocks of a chunk (R232). -/
def chunkScales (fmt : Nat) (content : Bytes) : List Nat :=
  match fmtUnit fmt with
  | some (b, _) => (List.range (content.length / b)).map fun i => le content (b * i) 1
  | none => []

end Sys2Proof.Machine
end

