-- ==== Sys2Proof/Machine/WatchOps.lean ====
section
/-! DEFINITION. What a watch computes (R228 to R234): its statistic over chunks, its result, its threshold, and its end
with its context. -/

namespace Sys2Proof.Machine

/-- State codes of a context (LZ_STV_CTX.STATE). -/
def CtxSt.code : CtxSt → Nat
  | .free => 0 | .opened => 1 | .closing => 2 | .gathering => 3 | .final => 4 | .incomplete => 5

/-- A watch. -/
def State.watch (s : State) (w : Nat) : Watch := tget {} s.dig.watches w

/-- Sets a watch. -/
def State.setWatch (s : State) (w : Nat) (x : Watch) : State :=
  { s with dig := { s.dig with watches := tset {} s.dig.watches w x } }

/-- The context, statistic, threshold kind, E, BASE, WIDTH and SEL of a watch's configuration (LZ_WATCH_CFG). -/
def Watch.ctx (w : Watch) : Nat := bits w.cfg 0 8
def Watch.stat (w : Watch) : Nat := bits w.cfg 8 4
def Watch.tkind (w : Watch) : Nat := bits w.cfg 12 2
def Watch.texp (w : Watch) : Int :=
  let e := bits w.cfg 14 11
  if 1024 ≤ e then (e : Int) - 2048 else e
def Watch.base (w : Watch) : Nat := bits w.cfg 25 8
def Watch.width (w : Watch) : Nat := bits w.cfg 33 4 + 1
def Watch.sel (w : Watch) : Nat := bits w.cfg 37 5

/-- F, the exponent by which values are scaled (Table 2). -/
def watchF (fmt : Nat) : Nat :=
  let f := match floatFmt fmt with
    | some f => f.bias + f.m - 1
    | none => if fmt = 0x0015 then 6 else 0
  if fmtMx fmt then 127 + f else f

/-- Takes a finite value that may be the extreme (R230, R231): the first in canonical order that attains it is kept. -/
def WatchAcc.extreme (a : WatchAcc) (least : Bool) (v : Int) (e : ElemAt) : WatchAcc :=
  let better := !a.seen || (if least then decide (v < a.a) else decide (a.a < v)) || (v == a.a && decide (e.index < a.index))
  if better then { a with a := v, seen := true, index := e.index, code := e.code } else a

/-- One element under a statistic (Table 1). -/
def WatchAcc.take (a : WatchAcc) (stat fmt : Nat) (e : ElemAt) : WatchAcc :=
  let v := e.value fmt
  match stat with
  | 0 => { a with a := a.a + 1 }
  | 1 => match v with | .fin x => { a with a := a.a + x } | _ => a
  | 2 => match v with | .fin x => { a with a := a.a + x * x } | _ => a
  | 3 | 4 =>
    (match v with
    | .fin x => a.extreme (stat == 3) x e
    | .inf true => { a with negInf := true }
    | .inf false => { a with posInf := true }
    | .nan => a)
  | 5 => if v = .nan then { a with a := a.a + 1 } else a
  | 6 =>
    (match v with
    | .inf false => { a with a := a.a + 1 }
    | .inf true => { a with b := a.b + 1 }
    | _ => a)
  | 7 =>
    let (p, n) := elemSat fmt e.code
    { a with a := a.a + (if p then 1 else 0), b := a.b + (if n then 1 else 0) }
  | _ => a

/-- One MX block under HIST (R232): bins 0 to 15, then ZERO, HIGH and NAN. -/
def Watch.bin (w : Watch) (a : WatchAcc) (scale : Nat) : WatchAcc :=
  let up := fun (l : List Nat) (i : Nat) => l.set i (l.getD i 0 + 1)
  let l := a.bins
  let l := if scale = 0 then up l 16 else l
  let l := if 254 ≤ scale then up l 17 else l
  let l := if scale = 0xFF then up l 18 else up l (min 15 ((scale - w.base) / w.width))
  { a with bins := l }

/-- A statistic over one chunk. -/
def Watch.over (w : Watch) (c : Ctx) (chunk : Nat) (content : Bytes) : WatchAcc :=
  if w.stat = 8 then (chunkScales c.fmt content).foldl w.bin w.acc
  else (chunkElems c.fmt c.axis c.dims chunk content).foldl (fun a e => a.take w.stat c.fmt e) w.acc

/-- 2^E times 2^F as a comparison: v × 2^−F ≥ 2^E. -/
def atLeastPow (v : Int) (f : Nat) (e : Int) : Bool :=
  if 0 ≤ e + f then decide ((2 : Int) ^ (e + f).toNat ≤ v) else decide (0 < v) && decide (1 ≤ v * 2 ^ (-(e + f)).toNat)

/-- The threshold holds (R234). -/
def Watch.holds (w : Watch) (fmt : Nat) : Bool :=
  let a := w.acc
  match w.tkind with
  | 1 =>
    let n := match w.stat with
      | 6 | 7 => a.a.toNat + a.b
      | 8 => a.bins.getD w.sel 0
      | _ => a.a.toNat
    decide (w.thresh ≤ n)
  | 2 =>
    (match w.stat with
    | 1 => atLeastPow a.a.natAbs (watchF fmt) w.texp
    | 2 => atLeastPow a.a (2 * watchF fmt) w.texp
    | 3 => a.negInf || (a.seen && atLeastPow (-a.a) (watchF fmt) w.texp)
    | 4 => a.posInf || (a.seen && atLeastPow a.a (watchF fmt) w.texp)
    | _ => false)
  | _ => false

/-- The threshold crosses (R234): LZ_WATCH_EVT, the count of crossings, and a record with the watch, the statistic and
the chunk. -/
def State.crossWatch (s : State) (w chunk : Nat) : State :=
  let x := s.watch w
  let s := s.setWatch w { x with crossed := true }
  let s := s.wr .watchEvt (setBits (s.rd .watchEvt) w 1 1)
  (s.incFld F.watchErr_EVENTS).record .watchCross .watch w (some x.part) (w + x.stat * 256) chunk

/-- The armed watches of a context, ascending. -/
def State.armedOn (s : State) (i : Nat) : List Nat :=
  (upto 0 64).filter fun w => decide ((s.watch w).st = .armed ∧ (s.watch w).ctx = i)

/-- Every armed watch of a context takes a chunk whose words are added (R229), and its threshold is evaluated unless it
is SUM's (R234). -/
def State.watchesTake (s : State) (i : Nat) (c : Ctx) (chunk : Nat) (content : Bytes) : State :=
  (s.armedOn i).foldl (fun s w =>
    let x := s.watch w
    let x := { x with acc := x.over c chunk content, covered := x.covered + 1 }
    let s := s.setWatch w x
    if !x.crossed && x.stat != 1 && x.holds c.fmt then s.crossWatch w chunk else s) s

/-- A context leaves CLOSING or is freed (R233): its watches are DONE, and SUM's threshold is evaluated. -/
def State.watchesDone (s : State) (i : Nat) (st : CtxSt) : State :=
  (s.armedOn i).foldl (fun s w =>
    let x := { s.watch w with st := .done, ctxSt := st }
    let s := s.setWatch w x
    if !x.crossed && x.stat == 1 && x.holds x.fmt then s.crossWatch w (2 ^ 64 - 1) else s) s

/-- A watch is disarmed (R233). -/
def State.disarm (s : State) (w : Nat) : State := s.setWatch w {}

/-- The 1,024-bit result (Table 1). -/
def Watch.result (w : Watch) (fmt : Nat) : Nat :=
  let a := w.acc
  let two := fun (v : Int) (n : Nat) => (v % (2 : Int) ^ n).toNat
  match w.stat with
  | 0 | 5 => a.a.toNat
  | 1 | 2 => two a.a 1024
  | 3 | 4 =>
    let body := if !a.seen then 0 else if fmt = 0x0001 then a.index + a.code * 2 ^ 64 else two a.a 512
    body + (if a.seen then 2 ^ 512 else 0) + (if a.negInf then 2 ^ 513 else 0) + (if a.posInf then 2 ^ 514 else 0)
  | 6 | 7 => a.a.toNat + a.b * 2 ^ 64
  | 8 => ((List.range 19).map fun b => a.bins.getD b 0 * 2 ^ (48 * b)).sum
  | _ => 0

end Sys2Proof.Machine
end

