-- ==== Sys2Proof/Machine/Stavub.lean ====
section
/-! DEFINITION. The Stavub engine (R198 to R227): formats and chunks, contexts, descriptors, assemblies, the Keccak cores
and the sums across chips. -/

namespace Sys2Proof.Machine

/-! ### Chunks and digests (R203 to R205) -/

/-- The words of a chunk (R203): SHAKE256 over the 4,163 B input of Table 2. -/
def chunkWords (id : BitVec 128) (fmt : Nat) (hash : BitVec 256) (c : Nat) (content : Bytes) : List Nat :=
  let input := ascii "STAVUB1" ++ bvBytes id ++ leBytes 2 fmt ++ bvBytes hash ++ leBytes 8 c ++
    leBytes 2 content.length ++ padTo 4096 content
  let out := (Config.shake256 input 32768).toNat
  (List.range 1024).map fun i => bits out (32 * i) 32

/-- Lane-wise addition modulo 2^32 (R204); an empty list is 1,024 zero lanes. -/
def addLanes (acc w : List Nat) : List Nat :=
  if acc.isEmpty then w else (acc.zip w).map fun p => (p.1 + p.2) % 2 ^ 32

/-- The 4,096 bytes of an accumulator. -/
def laneBytes (acc : List Nat) : Bytes := padTo 4096 (acc.map (leBytes 4)).flatten

/-- The published digest (R205): SHA3-384 of the header of Table 3 and the accumulator. -/
def stavubDigest (c : Ctx) : Digest :=
  Config.sha3_384 (ascii "STAVUB1" ++ [1] ++ bvBytes c.id ++ leBytes 2 c.fmt ++ zeros 6 ++ leBytes 8 c.n ++
    bvBytes c.hash ++ laneBytes c.acc)

/-! ### Coverage (R217) -/

/-- Intervals with [a, b) added to them, adjacent ones merged; they are disjoint and ascending. -/
def addInterval : List (Nat × Nat) → Nat → Nat → List (Nat × Nat)
  | [], a, b => [(a, b)]
  | (x, y) :: t, a, b =>
    if y < a then (x, y) :: addInterval t a b
    else if b < x then (a, b) :: (x, y) :: t
    else addInterval t (min a x) (max b y)

/-- Some index of [a, b) is covered. -/
def coversAny (l : List (Nat × Nat)) (a b : Nat) : Bool := l.any fun i => decide (i.1 < b ∧ a < i.2)

/-- The coverage is exactly [0, n). -/
def coversAll (l : List (Nat × Nat)) (n : Nat) : Bool := if n = 0 then l.isEmpty else l == [(0, n)]

/-- Chunk indices covered (LZ_STV_COUNT). -/
def coveredCount (l : List (Nat × Nat)) : Nat := (l.map fun i => i.2 - i.1).sum

/-- Gives a context a reason bit (Table 17). -/
def Ctx.why (c : Ctx) (r : Nat) : Ctx := { c with reason := nsInsert c.reason r }

/-- Adds a chunk's words (R217): DUPLICATE when its index is covered, OVERFLOW when it would need an interval more than
the context's limit. -/
def Ctx.addChunk (c : Ctx) (chunk : Nat) (w : List Nat) : Ctx :=
  if coversAny c.cover chunk (chunk + 1) then c.why 4
  else
    let cover := addInterval c.cover chunk (chunk + 1)
    let c := { c with acc := addLanes c.acc w }
    if (if c.gatherer then 256 else 64) < cover.length then c.why 5 else { c with cover := cover }

/-! ### Contexts -/

/-- Stores a context, tracing a change of its state (R437); one that leaves CLOSING ends its watches (R233). -/
def State.setCtx (s : State) (i : Nat) (c : Ctx) : State :=
  let old := (s.ctx i).st
  let s := if old = c.st then s else s.trace 5 5 (Src.core.at 0) (some c.part) i c.st.code 0
  let s := s.withStv { s.dig.stv with ctxs := tset {} s.dig.stv.ctxs i c }
  if old = .closing ∧ c.st ≠ .closing then s.watchesDone i c.st else s

/-- A context becomes FREE (R209): its segments and slots are dropped, and its fetches abandoned. -/
def State.freeCtx (s : State) (i : Nat) : State :=
  let s := s.withStv { s.dig.stv with segs := s.dig.stv.segs.filter (·.ctx != i),
                                      asms := s.dig.stv.asms.filter (·.ctx != i) }
  let s := if (s.ctx i).st = .free then s else s.trace 5 5 (Src.core.at 0) (some (s.ctx i).part) i 0 0
  (s.withStv { s.dig.stv with ctxs := tset {} s.dig.stv.ctxs i {} }).watchesDone i .free

/-- The final record of a gatherer (Table 9). -/
def State.finalRec (s : State) (i : Nat) (c : Ctx) : Bytes :=
  ascii "STVF" ++ [1, if c.st = .final then 0 else 1] ++ leBytes 1 i ++ [0] ++ bvBytes c.id ++ leBytes 2 c.fmt ++
    leBytes 2 s.unit ++ zeros 4 ++ bvBytes c.hash ++ bvBytes (if c.st = .final then c.digest else 0) ++ zeros 16

/-- Sends a Stavub record to a unit (R218, R220). -/
def State.sendStavub (s : State) (name : String) (dest : Nat) (rec_ : Bytes) : State :=
  (s.emit (.msg name dest rec_)).sendCtl dest false { mtype := 7, gen := s.life.genCur, data := rec_ }

/-- Sends a gatherer's final record to units. -/
def State.sendFinal (s : State) (i : Nat) (units : List Nat) : State :=
  units.foldl (fun s u => s.sendStavub "FINAL_RECORD" u (s.finalRec i (s.ctx i))) s

/-- The context is FINAL, with its digest (R205, R209). -/
def State.ctxFinal (s : State) (i : Nat) : State :=
  let c := s.ctx i
  s.setCtx i { c with st := .final, digest := stavubDigest c }

/-- The context is INCOMPLETE, with a digest of zero; MISSING is set where the coverage is not [0, n). -/
def State.ctxIncomplete (s : State) (i : Nat) : State :=
  let c := s.ctx i
  let c := if coversAll c.cover c.n then c else c.why 9
  s.setCtx i { c with st := .incomplete, digest := 0 }

/-- A GATHERING gatherer ends (R209): INCOMPLETE when a reason is set, FINAL when its coverage reaches [0, n). -/
def State.gatherSettle (s : State) (i : Nat) : State :=
  let c := s.ctx i
  if c.st ≠ .gathering ∨ !c.gatherer then s
  else if !c.reason.isEmpty then (s.ctxIncomplete i).sendFinal i c.senders
  else if coversAll c.cover c.n then (s.ctxFinal i).sendFinal i c.senders
  else s

/-- A withheld chunk (R215): its slot and segments are dropped and its context gets the reason. -/
def State.withhold_ (s : State) (i chunk why : Nat) : State :=
  let x := s.dig.stv
  let s := s.withStv { x with segs := x.segs.filter (fun g => g.hashed || !(g.ctx == i && g.chunk == chunk)),
                              asms := x.asms.filter fun a => !(a.ctx == i && a.chunk == chunk) }
  (s.count 462 1).setCtx i ((s.ctx i).why why)

/-! ### OPEN -/

/-- A context descriptor (Table 4) as a context; none when it breaks R208 or R10. -/
def ctxOfBytes (b : Bytes) : Option Ctx :=
  let fmt := le b 16 2
  let r := le b 18 1
  let axis := le b 19 1
  let flags := le b 21 1
  let dims := (List.range r).map fun j => le b (32 + 8 * j) 8
  let sharded := bit flags 0
  let gatherer := bit flags 1
  let ms := le b 28 4
  let n := chunkCount fmt axis dims
  let shapeOk := decide (r ≤ 8) && (if fmtMx fmt then decide (axis < r) else decide (axis = 0xFF))
  if (fmtUnit fmt).isNone || !shapeOk || decide (2 ^ 40 < n ∨ le b 22 1 ≠ 1 ∨ 8 ≤ flags)
      || !zeroAt b 23 1 || !zeroAt b 27 1 || !zeroAt b 96 32 || !zeroAt b (32 + 8 * r) (64 - 8 * r)
      || (gatherer && !sharded) || (sharded && !gatherer && decide (ms < 1 ∨ 60000 < ms)) || decide (253 < le b 26 1)
  then none
  else some { st := .opened, id := BitVec.ofNat 128 (le b 0 16), fmt := fmt, axis := axis, dims := dims,
              hash := Config.sha3_256 (shapeRecord fmt axis dims), n := n, part := le b 20 1, sharded := sharded,
              gatherer := gatherer, expose := bit flags 2, gatherUnit := le b 24 2, gatherCtx := le b 26 1,
              timeout := ms }

/-- A command of LZ_STV_CTL (R210), which waits while a swap is prepared (R369): from a register with the context it names, or from a queue with ARG16, on contexts
of the queue's own partition, be it a queue of the owner or not; a reserved context is an error response, or BAD_DESC. -/
def State.stvCmd (s : State) (cmd : Instr) (o : Origin) (i op : Nat) (f : Nat → State → State) : State :=
  match o with
  | .reg port =>
    s.regCmd cmd port (s.fld F.stvCtl_BUSY == 1 || decide (254 ≤ i)) F.stvErr_REG_ERR F.stvCtl_BUSY fun s =>
      f i (s.setFld F.stvCtl_CTX i)
  | .svc q k => s.queueCmd cmd q k op fun c s =>
    let i := c.desc.arg16
    if 254 ≤ i then s.svcDone q k 6 0 0 0 0
    else if (s.ctx i).st ≠ .free && (s.ctx i).part != s.qPart q then s.svcDone q k 1 2 0 0 0
    else f i s

/-- Ends a context command (Table 6). -/
def State.stvEnd (s : State) (o : Origin) (code : Nat) (r0 r1 : Nat := 0) : State :=
  s.engineEnd o F.stvCtl_RESULT F.stvCtl_BUSY code (some 2) r0 r1

/-- The life-cycle states in which context commands are refused (Table 6). -/
def State.noEngines (s : State) : Bool := decide (s.life.lc = .blank ∨ s.life.lc = .endOfLife)

/-- OPEN (R208) of a FREE context: the address lies within one region with PERM bit 0 and the descriptor verifies, the
descriptor is well formed, and the region is of the partition it names; the first check that fails gives the result.
Where the alignment of LZ_STV_ARG (Table 15) stands in that order is not stated: it is taken first. DESIGN CHOICE
(log 64). -/
def State.openCheck (s : State) (addr : Nat) (host : Bool) (r : ReadOut) : Nat × Ctx :=
  if addr % 64 ≠ 0 then (2, {})
  else if host then (3, {})
  else
    match s.operandRow 0 true addr 128 0 with
    | none => (3, {})
    | some row =>
      if !r.ok ∨ r.bytes.length ≠ 128 then (3, {})
      else
        match ctxOfBytes r.bytes with
        | none => (2, {})
        | some c => if (s.row row).part = c.part then (0, c) else (3, {})

/-- STV_OPEN (R208, R210). -/
def execStvOpen (o : Origin) (ctx : BitVec 8) (r : ReadOut) (s : State) : Res :=
  .next (s.stvCmd (.stvOpen o ctx r) o ctx.toNat 0x30 fun i s =>
    if s.noEngines then s.stvEnd o 4
    else if (s.ctx i).st ≠ .free then s.stvEnd o 1
    else
      let (addr, host) := match o with
        | .reg _ => (s.fld F.stvArg_ADDR, false)
        | .svc q k => match s.cmd q k with
          | some c => (c.desc.src % 2 ^ 63, bit c.desc.src 63)
          | none => (0, true)
      let (code, c) := s.openCheck addr host r
      match o, code with
      | .svc q k, 0 =>
        (match s.cmd q k with
        | some _ => if c.part = s.qPart q then (s.setCtx i c).stvEnd o 0 else s.svcDone q k 1 2 0 0 0
        | none => s)
      | _, 0 => (s.setCtx i c).stvEnd o 0
      | _, code => s.stvEnd o code)

/-- STV_CLOSE (R209, R216): the context is CLOSING, and the straddle fetches of its READ and WRITE descriptors are due. -/
def execStvClose (o : Origin) (ctx : BitVec 8) (s : State) : Res :=
  .next (s.stvCmd (.stvClose o ctx) o ctx.toNat 0x31 fun i s =>
    if s.noEngines then s.stvEnd o 4
    else if (s.ctx i).st ≠ .opened then s.stvEnd o 1
    else
      let s := s.setCtx i { s.ctx i with st := .closing }
      let s := s.withStv { s.dig.stv with
        segs := updWhere (fun g => g.ctx == i && decide (g.fetch = .atClose)) (fun g => { g with fetch := .due })
          s.dig.stv.segs }
      s.stvEnd o 0)

/-- A context has work left: a slot, an armed segment or a fetch (R209). -/
def State.ctxBusy (s : State) (i : Nat) : Bool :=
  s.dig.stv.asms.any (·.ctx == i) || s.dig.stv.segs.any fun g => g.ctx == i && !g.hashed

/-- The partial record of a contributor (Table 8). -/
def State.partialRec (s : State) (c : Ctx) : Bytes :=
  ascii "STVP" ++ [1] ++ leBytes 1 c.cover.length ++ leBytes 1 c.gatherCtx ++ [if c.reason.isEmpty then 0 else 1] ++
    bvBytes c.id ++ leBytes 2 c.fmt ++ leBytes 2 s.unit ++ zeros 4 ++ bvBytes c.hash ++
    (c.cover.map fun i => leBytes 8 i.1 ++ leBytes 8 i.2).flatten ++ laneBytes c.acc

/-- A CLOSING context with no work left (R209): FINAL or INCOMPLETE when it is not SHARDED; a contributor sends its
partial record, and both kinds of sharded context start GATHERING. -/
def State.finishCtx (s : State) (i : Nat) : State :=
  let c := s.ctx i
  if c.st ≠ .closing ∨ s.ctxBusy i then s
  else
    let s := s.withStv { s.dig.stv with segs := s.dig.stv.segs.filter (·.ctx != i) }
    if !c.sharded then
      if coversAll c.cover c.n ∧ c.reason.isEmpty then s.ctxFinal i else s.ctxIncomplete i
    else if c.gatherer then (s.setCtx i { c with st := .gathering }).gatherSettle i
    else (s.sendStavub "PARTIAL_RECORD" c.gatherUnit (s.partialRec c)).setCtx i { c with st := .gathering }

/-- CONTEXT_FINISH (R209). -/
def execContextFinish (ctx : BitVec 8) (s : State) : Res := .next (s.finishCtx ctx.toNat)

/-- LZ_STV_CTX and LZ_STV_COUNT of a context (Tables 17 and 18). -/
def Ctx.word (c : Ctx) : Nat :=
  c.st.code + (if c.sharded then 8 else 0) + (if c.gatherer then 16 else 0) + (if c.expose then 32 else 0)
    + c.part * 2 ^ 6 + (c.reason.map fun r => 2 ^ (12 + r)).sum + c.cover.length * 2 ^ 22

/-- STV_READ (R227): a register READ shows the context; a queue's returns LZ_STV_CTX and LZ_STV_COUNT, with the digest
at DST. -/
def execStvRead (o : Origin) (ctx : BitVec 8) (s : State) : Res :=
  .next (s.stvCmd (.stvRead o ctx) o ctx.toNat 0x32 fun i s =>
    let c := s.ctx i
    if s.noEngines then s.stvEnd o 4
    else if c.st = .free then s.stvEnd o 1
    else
      match o with
      | .reg _ =>
        let s := (s.wr .stvCtx c.word).wr .stvCount (coveredCount c.cover)
        let s := (upto 0 6).foldl (fun s j => s.wr .stvDigest (bits c.digest.toNat (64 * j) 64) j) s
        s.stvEnd o 0
      | .svc q k =>
        match s.cmd q k with
        | none => s
        | some cmd => s.charged q cmd 0 48 fun s =>
          if s.operandOk q cmd cmd.desc.dst 48 1 then s.finishDst q cmd (bvBytes c.digest) c.word (coveredCount c.cover)
          else s.svcDone q k 1 3 0 0 0)

/-- The engine reset of the Stavub engine frees every context (R225). -/
def State.resetStavub (s : State) : State := (upto 0 254).foldl State.freeCtx s

/-- STV_FREE (R209, R226). -/
def execStvFree (o : Origin) (ctx : BitVec 8) (s : State) : Res :=
  .next (s.stvCmd (.stvFree o ctx) o ctx.toNat 0x33 fun i s =>
    if s.noEngines then s.stvEnd o 4
    else if (s.ctx i).st = .free then s.stvEnd o 1
    else (s.freeCtx i).stvEnd o 0)

/-! ### Chunk descriptors -/

/-- A chunk descriptor in decoded form (Table 7), and whether its reserved bits are zero. -/
structure Chd where
  path : Nat
  straddle : Bool
  ctx : Nat
  step : Nat
  chunk : Nat
  off : Nat
  len : Nat
  clen : Nat
  addr : Nat
  rdest : Nat
  raddr : Nat
  rlen : Nat
  rkidx : Nat
  reservedOk : Bool
  deriving DecidableEq, Repr

/-- The fields of 256 bits. -/
def Chd.ofNat (d : Nat) : Chd :=
  { path := bits d 0 2, straddle := bit d 2, ctx := bits d 4 8, step := bits d 12 12, chunk := bits d 24 40,
    off := bits d 64 12, len := bits d 76 13, clen := bits d 89 13, addr := bits d 104 40, rdest := bits d 144 16,
    raddr := bits d 160 40, rlen := bits d 200 13, rkidx := bits d 213 16,
    reservedOk := decide (bits d 3 1 = 0 ∧ bits d 102 2 = 0 ∧ bits d 229 27 = 0) }

/-- The checks of R212 that need no context. -/
def Chd.fieldsOk (d : Chd) : Bool :=
  d.reservedOk && decide (d.path ≠ 3 ∧ d.len ≠ 0 ∧ d.clen ≠ 0 ∧ d.off + d.len + d.rlen ≤ d.clen)
    && (d.straddle || decide (d.rlen = 0))

/-- The checks of R212 against a context's tensor. -/
def Chd.fits (d : Chd) (c : Ctx) : Bool :=
  decide (d.chunk < c.n ∧ d.clen = contentLen c.fmt c.axis c.dims d.chunk)

/-- [ADDR, ADDR + SEGLEN) lies within one region of a partition (R212). -/
def State.chdPlace (s : State) (d : Chd) (part : Nat) : Bool :=
  match s.regionAt d.addr with
  | none => false
  | some row => decide ((s.row row).part = part ∧ d.addr + d.len ≤ ((s.row row).base + (s.row row).count) * 2 ^ 21)

/-- Two runs of canonical bytes overlap. -/
def segClash (d : Chd) (g : Seg) : Bool := decide (d.off < g.off + g.len + g.rlen ∧ g.off < d.off + d.len + d.rlen)

/-- Adds a segment to the engine's state. -/
def State.addSeg (s : State) (x : Stv) (i : Nat) (d : Chd) : State :=
  let path := if d.path = 0 then Path.read else if d.path = 1 then .write else .scan
  let fetch := if d.rlen = 0 then Fetch.none else if path = .scan then .due else .atClose
  let g : Seg := { no := x.nextNo, path := path, ctx := i, step := d.step, chunk := d.chunk, off := d.off, len := d.len,
                   clen := d.clen, addr := d.addr, rdest := d.rdest, raddr := d.raddr, rlen := d.rlen,
                   rkidx := d.rkidx, fetch := fetch }
  s.withStv { x with segs := x.segs ++ [g], nextNo := x.nextNo + 1 }

/-- Arms a descriptor that has passed R212 for a context (R213, R215): its chunk takes a slot; one whose assembly is
complete gives DUPLICATE, one that overlaps another withholds its chunk MISMATCH. -/
def State.armSeg (s : State) (i : Nat) (d : Chd) : State :=
  let x := s.dig.stv
  match x.asms.find? fun a => a.ctx == i && a.chunk == d.chunk with
  | some a =>
    if a.st ≠ .filling then s.setCtx i ((s.ctx i).why 4)
    else if a.clen ≠ d.clen ∨ (x.parts i d.chunk).any (segClash d) then s.withhold_ i d.chunk 1
    else s.addSeg x i d
  | none => s.addSeg { x with asms := x.asms ++ [{ ctx := i, chunk := d.chunk, clen := d.clen }] } i d

/-- Armed segments: those not yet hashed. -/
def Stv.armed (x : Stv) : Nat := (x.segs.filter fun g => !g.hashed).length

/-- lz_chd_ready (R77, R79, R215): low while every slot or every segment entry is in use. -/
def State.chdReady (s : State) : Bool :=
  !s.life.blkFence && s.life.ready && decide (s.dig.stv.asms.length < 512 ∧ s.dig.stv.armed < 16384)

/-- CHUNK_DESCRIPTOR (R212, R213): checked and armed, or dropped and counted; a dropped one that names an OPEN context
gives it reason BAD_CHD. -/
def execChunkDescriptor (d : BitVec 256) (s : State) : Res :=
  if !s.chdReady then .next s
  else
    let d := Chd.ofNat d.toNat
    let c := s.ctx d.ctx
    if c.st ≠ .opened then .next (s.incFld F.stvErr_BAD_CHD)
    else if !d.fieldsOk || !d.fits c || !s.chdPlace d c.part then
      .next ((s.incFld F.stvErr_BAD_CHD).setCtx d.ctx (c.why 0))
    else .next (s.armSeg d.ctx d)

/-- A segment by its number. -/
def State.segNo (s : State) (no : Nat) : Option Seg := s.dig.stv.segs.find? (·.no == no)

/-- Replaces a segment. -/
def State.setSeg (s : State) (g : Seg) : State :=
  s.withStv ({ s.dig.stv with segs := updWhere (·.no == g.no) (fun _ => g) s.dig.stv.segs }).ready

/-- A segment with all its bytes. -/
def Seg.full (g : Seg) (b : Bytes) : Seg := { g with got := b.zipIdx.map fun p => (p.2, p.1) }

/-- SCAN_READ (R214): the oldest SCAN segment not yet filled is read under its region's keys and filled; one whose read
completes POISON withholds its chunk, and one on a page that the harrow has closed waits (R226). -/
def execScanRead (seg : Nat) (r : ReadOut) (s : State) : Res :=
  match s.dig.stv.segs.find? fun g => decide (g.path = .scan) && !g.filled with
  | none => .next s
  | some g =>
    if g.no ≠ seg then .next s
    else if (upto (g.addr / 4096) ((g.addr + g.len - 1) / 4096 + 1 - g.addr / 4096)).any s.pageClosed then .next s
    else if !r.ok || (s.regionAt g.addr).isNone then .next (s.withhold_ g.ctx g.chunk 2)
    else if r.bytes.length ≠ g.len then .next s
    else .next (s.setSeg (g.full r.bytes))

/-! ### Straddle fetches (R216) -/

/-- The LOAD of a remote part: class BULK, for the context's partition, of the lines that hold it. -/
def State.fetchReq (s : State) (g : Seg) : FabReq :=
  { op := 0, aop := 0, dest := BitVec.ofNat 16 g.rdest, addr := BitVec.ofNat 40 (g.raddr / 64 * 64),
    len := BitVec.ofNat 6 (ceilDiv (g.raddr % 64 + g.rlen) 64 - 1), kidx := BitVec.ofNat 16 g.rkidx, actr := 0,
    part := BitVec.ofNat 6 (s.ctx g.ctx).part, gen := BitVec.ofNat 8 s.life.genCur, step := 0, cls := 2, rdom := 0,
    tid := 0, data := [], op1 := 0, op2 := 0, rest := true }

/-- A fetch fails (R216): its chunk is withheld, and the failure counted. -/
def State.fetchFail (s : State) (g : Seg) : State := (s.incFld F.stvErr_STRADDLE_FAIL).withhold_ g.ctx g.chunk 3

/-- A remote part does not lie within one page of RDEST, as a LOAD must (R263). -/
def Seg.crosses (g : Seg) : Bool := decide (4096 < g.raddr % 4096 + g.rlen)

/-- STRADDLE_FETCH (R216): a due fetch is issued; one that a fabric request of its kind would be refused fails. A remote
part that crosses a page at RDEST cannot be fetched by one LOAD: the manual says neither that it is split nor how it
ends, and it fails. DESIGN CHOICE (log 64). -/
def execStraddleFetch (seg : Nat) (s : State) : Res :=
  match s.segNo seg with
  | none => .next s
  | some g =>
    if g.fetch ≠ .due then .next s
    else
      let r := s.fetchReq g
      if g.crosses || (s.fabCheck r true).isSome then .next (s.fetchFail g)
      else .next ((s.setSeg { g with fetch := .out }).fabSend ownIntf r false)

/-- STRADDLE_FETCH_DONE (R216): the remote part is here, or the fetch completed with another status than OK. -/
def execStraddleFetchDone (seg : Nat) (r : ReadOut) (s : State) : Res :=
  match s.segNo seg with
  | none => .next s
  | some g =>
    if g.fetch ≠ .out then .next s
    else if !r.ok then .next (s.fetchFail g)
    else if r.bytes.length ≠ g.rlen then .next s
    else .next (s.setSeg { g with fetch := .done r.bytes })

/-- STRADDLE_FETCH_TIMEOUT (R216): no answer 1 ms after issue. -/
def execStraddleFetchTimeout (seg : Nat) (s : State) : Res :=
  match s.segNo seg with
  | none => .next s
  | some g => if g.fetch = .out then .next (s.fetchFail g) else .next s

/-! ### Hashing (R217, R222) -/

/-- Canonical byte `j` of a chunk from its segments. -/
def chunkByte (ps : List Seg) (j : Nat) : Byte :=
  match ps.find? fun g => decide (g.off ≤ j ∧ j < g.off + g.len + g.rlen) with
  | none => 0
  | some g =>
    if j < g.off + g.len then tget 0 g.got (j - g.off)
    else match g.fetch with
      | .done b => b.getD (j - g.off - g.len) 0
      | _ => 0

/-- CHUNK_DISPATCH (R222, R457): the chunk that became complete first goes to an ACTIVE core with nothing on it, unless the
throttle withholds its 61 permutations. -/
def execChunkDispatch (c : Nat) (s : State) : Res :=
  if 68 ≤ c ∨ (s.core c).role ≠ .active ∨ s.dig.stv.asms.any (fun a => decide (a.st = .onCore c)) then .next s
  else
    match s.dig.stv.asms.find? fun a => decide (a.st = .ready) with
    | none => .next s
    | some a =>
      if !s.fits (keccakEnergy 61) then .next s.withhold
      else .next ((s.spend (keccakEnergy 61)).withStv { s.dig.stv with
        asms := updWhere (· == a) (fun a => { a with st := .onCore c }) s.dig.stv.asms })

/-- A chunk's words are added (R217), its slot is freed, and its WRITE segments stay, no longer armed, to see whether
they are rewritten before their context ends (R226). -/
def State.hashAsm (s : State) (a : Asm) : State :=
  let x := s.dig.stv
  let ps := x.parts a.ctx a.chunk
  let c := s.ctx a.ctx
  let content := (List.range a.clen).map (chunkByte ps)
  let mine := fun (g : Seg) => g.ctx == a.ctx && g.chunk == a.chunk && !g.hashed
  let keep := x.segs.filter fun g => !mine g || decide (g.path = .write)
  let s := s.withStv { x with asms := x.asms.filter (· != a), progress := (x.progress + 1) % 2 ^ 64,
                              segs := updWhere mine (fun g => { g with hashed := true }) keep }
  let s := if coversAny c.cover a.chunk (a.chunk + 1) then s else s.watchesTake a.ctx c a.chunk content
  (s.count 461 1).setCtx a.ctx (c.addChunk a.chunk (chunkWords c.id c.fmt c.hash a.chunk content))

/-- CHUNK_HASHED (R217): the core's chunk is added to its context, unless the context was freed meanwhile. -/
def execChunkHashed (core : Nat) (s : State) : Res :=
  match s.dig.stv.asms.find? fun a => decide (a.st = .onCore core) with
  | none => .next s
  | some a => .next (s.hashAsm a)

/-- The commit of a step transfers (R215): READ and WRITE segments of it that are not filled withhold their chunks. -/
def State.commitSegs (s : State) (step : Nat) : State :=
  let mine := fun (g : Seg) => g.step == step && decide (g.path ≠ .scan)
  let bad := s.dig.stv.segs.filter fun g => mine g && !g.hashed && !g.filled && !g.committed
  let s := bad.foldl (fun s g => if s.segNo g.no = none then s else s.withhold_ g.ctx g.chunk 2) s
  s.withStv { s.dig.stv with
    segs := updWhere mine (fun g => { g with committed := true }) s.dig.stv.segs }

/-! ### Summing across chips (R218 to R220) -/

/-- The intervals of a partial record. -/
def recIntervals (b : Bytes) (k : Nat) : List (Nat × Nat) :=
  (List.range k).map fun j => (le b (64 + 16 * j) 8, le b (72 + 16 * j) 8)

/-- The lanes of a partial record. -/
def recLanes (b : Bytes) (k : Nat) : List Nat := (List.range 1024).map fun i => le b (64 + 16 * k + 4 * i) 4

/-- A partial record keeps the form of Table 8. One that does not is dropped and counted in REC_DROP (execPartialRecord),
a cause that the list of R219 does not name. DESIGN CHOICE (log 64). -/
def partialOk (b : Bytes) : Bool :=
  let k := le b 5 1
  (b.take 4 == ascii "STVP") && decide (le b 4 1 = 1 ∧ k ≤ 64 ∧ le b 7 1 ≤ 1 ∧ b.length = 4160 + 16 * k)
    && zeroAt b 28 4 && (recIntervals b k).all fun i => decide (i.1 < i.2)

/-- A record names the tensor of a context. -/
def recMatches (b : Bytes) (c : Ctx) : Bool :=
  decide (le b 8 16 = c.id.toNat ∧ le b 24 2 = c.fmt ∧ le b 32 32 = c.hash.toNat)

/-- A gatherer takes a partial record (R219). -/
def Ctx.merge (c : Ctx) (b : Bytes) : Ctx :=
  let k := le b 5 1
  let iv := recIntervals b k
  let c := { c with senders := nsInsert c.senders (le b 26 2) }
  if le b 7 1 = 1 then c.why 6
  else if iv.any (fun i => coversAny c.cover i.1 i.2) then c.why 4
  else
    let cover := iv.foldl (fun l i => addInterval l i.1 i.2) c.cover
    let c := { c with acc := addLanes c.acc (recLanes b k) }
    if 256 < cover.length then c.why 5 else { c with cover := cover }

/-- PARTIAL_RECORD (R219). -/
def execPartialRecord (rec : Bytes) (s : State) : Res :=
  let i := le rec 6 1
  let c := s.ctx i
  let s := s.count 463 1
  let drop := s.incFld F.stvErr_REC_DROP
  if !partialOk rec ∨ !c.gatherer ∨ !recMatches rec c then .next drop
  else
    match c.st with
    | .opened | .closing | .gathering => .next ((s.setCtx i (c.merge rec)).gatherSettle i)
    | .incomplete =>
      let u := le rec 26 2
      .next ((s.setCtx i { c with senders := nsInsert c.senders u }).sendFinal i [u])
    | _ => .next drop

/-- A final record keeps the form of Table 9. -/
def finalOk (b : Bytes) : Bool :=
  (b.take 4 == ascii "STVF") && decide (le b 4 1 = 1 ∧ le b 5 1 ≤ 1 ∧ b.length = 128) && zeroAt b 7 1 && zeroAt b 28 4
    && zeroAt b 112 16

/-- FINAL_RECORD (R220): the GATHERING contributors of its tensor take its status and digest; any other is dropped. -/
def execFinalRecord (rec : Bytes) (s : State) : Res :=
  let hit := (upto 0 254).filter fun i =>
    let c := s.ctx i
    decide (c.st = .gathering) && !c.gatherer && recMatches rec c
  if !finalOk rec ∨ hit.isEmpty then .next (s.incFld F.stvErr_REC_DROP)
  else
    .next (hit.foldl (fun s i =>
      let c := s.ctx i
      if le rec 5 1 = 0 then s.setCtx i { c with st := .final, digest := BitVec.ofNat 384 (le rec 64 48) }
      else s.setCtx i { c with st := .incomplete, digest := 0 }) s)

/-- GATHER_TIMEOUT (R209): a GATHERING gatherer becomes INCOMPLETE and says so to its senders; a contributor becomes
INCOMPLETE with reason GATHER_TIMEOUT. -/
def execGatherTimeout (ctx : BitVec 8) (s : State) : Res :=
  let i := ctx.toNat
  let c := s.ctx i
  if c.st ≠ .gathering then .next s
  else if c.gatherer then .next ((s.ctxIncomplete i).sendFinal i c.senders)
  else .next (s.setCtx i { c.why 7 with st := .incomplete, digest := 0 })

end Sys2Proof.Machine
end

