-- ==== Sys2Proof/Machine/Seal.lean ====
section
/-! DEFINITION. The fold, the manifest and the digest of a seal (R97, R99, R100, R221). -/

namespace Sys2Proof.Machine

/-- The fold of a seal (R97): every clear offset below the highest set bit is written as zeros, HWM passes that bit, and
the window slot is released. A repeated seal holds no slot and folds nothing. -/
def State.fold_ (s : State) (row : Nat) : State :=
  let x := s.row row
  if x.wslot.isNone then s
  else
    let h := match x.win.getLast? with | some o => o + 1 | none => x.hwm
    let s := s.zeroLines row ((upto x.hwm (h - x.hwm)).filter fun o => !x.win.contains o)
    s.setRow row { s.row row with hwm := h, win := [], wslot := none }

/-- A seal manifest in decoded form (Table 10): its tensors, each with SHARDED, and its descriptors as they stand. -/
structure Manifest where
  tensors : List (BitVec 128 × Bool)
  chunks : List Nat
  deriving DecidableEq, Repr

/-- The manifest that bytes hold; none when a count or a reserved byte breaks Table 10. -/
def Manifest.parse (b : Bytes) : Option Manifest :=
  let t := le b 0 4
  let n := le b 4 4
  if t < 1 ∨ 256 < t ∨ n < 1 ∨ 1048576 < n ∨ b.length < 64 + 32 * t + 32 * n then none
  else
    let ks := List.range t
    if !zeroAt b 8 56 || ks.any fun k => decide (2 ≤ le b (80 + 32 * k) 1) || !zeroAt b (81 + 32 * k) 15 then none
    else some { tensors := ks.map fun k => (BitVec.ofNat 128 (le b (64 + 32 * k) 16), decide (le b (80 + 32 * k) 1 = 1)),
                chunks := (List.range n).map fun m => le b (64 + 32 * t + 32 * m) 32 }

/-- The context of a tensor (R221): the lowest OPEN one of the partition with its id. -/
def State.sealCtx (s : State) (part : Nat) (id : BitVec 128) : Option Nat :=
  (upto 0 254).find? fun i => decide ((s.ctx i).st = .opened ∧ (s.ctx i).part = part ∧ (s.ctx i).id = id)

/-- The context that a tensor's digest comes from; none marks d_k incomplete (R221). -/
def State.tensorCtx (s : State) (part : Nat) (t : BitVec 128 × Bool) : Option Nat :=
  match s.sealCtx part t.1 with
  | some i => if (s.ctx i).sharded = t.2 then some i else none
  | none => none

/-- A descriptor of a manifest keeps R99: PATH SCAN, a listed tensor, the other checks of R212 that apply, and data
wholly below the region's HWM. -/
def State.manifestChd (s : State) (row : Nat) (m : Manifest) (d : Chd) : Bool :=
  let x := s.row row
  let top := (x.base * linesPerGranule + x.hwm) * 64
  d.fieldsOk && decide (d.path = 2 ∧ d.ctx < m.tensors.length ∧ x.base * 2 ^ 21 ≤ d.addr ∧ d.addr + d.len ≤ top)
    && (match s.sealCtx x.part (m.tensors.getD d.ctx (0, false)).1 with | some i => d.fits (s.ctx i) | none => true)

/-- The manifest of a seal (R99): it lies within one region of the partition with PERM bit 0, and verifies. -/
def State.manifest (s : State) (row : Nat) (addr : Nat) (r : ReadOut) : Option Manifest :=
  if !r.ok then none
  else
    match s.operandRow (s.row row).part false addr r.bytes.length 0, Manifest.parse r.bytes with
    | some _, some m => if m.chunks.all (fun d => s.manifestChd row m (Chd.ofNat d)) then some m else none
    | _, _ => none

/-- The contexts of a seal, each once. -/
def SealRun.ctxs (r : SealRun) : List Nat := (r.tensors.filterMap (·.2)).eraseDups

/-- Ends a seal with its digest, or incomplete, and its RESULT (R97, R100). -/
def State.sealEnd (s : State) (row : Nat) (run : SealRun) (digest : Option Digest) (code : Nat) : State :=
  let x := s.row row
  let s := s.setRow row { x with state := .sealed, sealRun := none, digest := digest.getD 0,
                                 sealCount := some run.tensors.length,
                                 sealIncomplete := digest.isNone, stamp := s.life.time }
  s.rgnEnd run.origin code

/-- SEAL_DIGEST from its tensors (R100); none when some d_k is incomplete. -/
def State.sealDigest (s : State) (run : SealRun) : Option Digest :=
  let ok := run.tensors.all fun t => match t.2 with | some i => decide ((s.ctx i).st = .final) | none => false
  if ok then
    some (Config.sha3_384 (ascii "LZSEAL1" ++ leBytes 4 run.tensors.length ++
      (run.tensors.map fun t => bvBytes t.1 ++ bvBytes (s.ctx (t.2.getD 0)).digest).flatten))
  else none

/-- The seal takes its digests and frees its contexts (R221). -/
def State.sealTake (s : State) (row : Nat) (run : SealRun) : State :=
  let d := s.sealDigest run
  (run.ctxs.foldl State.freeCtx s).sealEnd row run d 0

/-- A context of a seal has ended: FINAL, INCOMPLETE, or freed meanwhile. -/
def Ctx.ended (c : Ctx) : Bool := decide (c.st = .final ∨ c.st = .incomplete ∨ c.st = .free)

/-- One descriptor of a seal is read and armed, and its chunk hashed once it is complete. -/
def State.sealChunk (s : State) (i : Nat) (d : Chd) (r : ReadOut) : State :=
  let no := s.dig.stv.nextNo
  let s := s.armSeg i d
  match s.segNo no with
  | none => s
  | some g =>
    let s := if r.ok ∧ r.bytes.length = g.len then s.setSeg (g.full r.bytes) else s.withhold_ i d.chunk 2
    match s.dig.stv.asms.find? fun a => a.ctx == i && a.chunk == d.chunk && decide (a.st = .ready) with
    | some a => s.hashAsm a
    | none => s

/-- A descriptor finds its slot and its segment entry (R215). -/
def State.slotFor (s : State) (i : Nat) (d : Chd) : Bool :=
  let x := s.dig.stv
  (decide (x.asms.length < 512) || x.asms.any fun a => a.ctx == i && a.chunk == d.chunk) && decide (x.armed < 16384)

/-- No slot will be freed by itself: each is held by a chunk of this seal's contexts that waits for later descriptors. -/
def State.slotsStuck (s : State) (run : SealRun) : Bool :=
  s.dig.stv.asms.all fun a => run.ctxs.contains a.ctx && decide (a.st = .filling) &&
    (s.dig.stv.parts a.ctx a.chunk).all fun g => g.filled && g.fetched

/-- The descriptors of a seal are taken in order while each finds a slot (R214, R215); what is left waits, with the number
of those taken. Where every slot is held by chunks of the seal that wait for later descriptors, the next chunk is withheld
UNFILLED: the manual gives no outcome. DESIGN CHOICE (log 64). -/
def sealGo (run : SealRun) (chunks : List ReadOut) : List Nat → Nat → State → List Nat × Nat × State
  | [], k, s => ([], k, s)
  | w :: ws, k, s =>
    let d := Chd.ofNat w
    match (run.tensors.getD d.ctx (0, none)).2 with
    | none => sealGo run chunks ws (k + 1) s
    | some i =>
      if s.slotFor i d then sealGo run chunks ws (k + 1) (s.sealChunk i d (chunks.getD k ⟨false, []⟩))
      else if s.slotsStuck run then sealGo run chunks ws (k + 1) (s.withhold_ i d.chunk 2)
      else (w :: ws, k, s)

/-- The block closes a context of a seal: chunks that its descriptors do not make whole are withheld UNFILLED, which the
manual does not say of them (DESIGN CHOICE, log 64), and it finishes when nothing is left. -/
def State.sealClose (s : State) (i : Nat) : State :=
  let bad := s.dig.stv.asms.filter fun a => a.ctx == i && decide (a.st = .filling) &&
    (s.dig.stv.parts i a.chunk).all fun g => g.filled && g.fetched
  let s := bad.foldl (fun s a => s.withhold_ i a.chunk 2) s
  let s := s.setCtx i { s.ctx i with st := .closing }
  let s := s.withStv { s.dig.stv with
    segs := updWhere (fun g => g.ctx == i && decide (g.fetch = .atClose)) (fun g => { g with fetch := .due })
      s.dig.stv.segs }
  s.finishCtx i

/-- The local digesting of a seal goes on, and when its last descriptor is taken its contexts close (R221); it ends when
they have. -/
def State.sealOn (s : State) (row : Nat) (run : SealRun) (chunks : List ReadOut) : State :=
  let (left, k, s) := sealGo run chunks run.todo run.next s
  let run := { run with todo := left, next := k }
  if !left.isEmpty then s.setRow row { s.row row with sealRun := some run }
  else
    let run := { run with waiting := true }
    let s := run.ctxs.foldl (fun s i => s.setCtx i { s.ctx i with sealRow := some row }) s
    let s := run.ctxs.foldl State.sealClose s
    let s := s.setRow row { s.row row with sealRun := some run }
    if run.ctxs.all fun i => (s.ctx i).ended then s.sealTake row run else s

/-- SEAL_COMPLETE (R97): once every write of the region is issued, the fold is made, the manifest read and its chunks
digested; the seal ends when its contexts have. A seal that waits, for a slot or for its contexts, goes on at a later
SEAL_COMPLETE. `chunks` are the reads of the manifest's descriptors, in order. -/
def execSealComplete (row : BitVec 14) (manifest : ReadOut) (chunks : List ReadOut) (s : State) : Res :=
  let n := row.toNat
  match (s.row n).sealRun with
  | none => .next s
  | some run =>
    if run.waiting then
      if run.ctxs.all fun i => (s.ctx i).ended then .next (s.sealTake n run) else .next s
    else if run.started then .next (s.sealOn n run chunks)
    else if s.writesOut n then .next s
    else
      let s := s.fold_ n
      match s.manifest n run.addr manifest with
      | none => .next (s.sealEnd n run none 7)
      | some m =>
        let ts := m.tensors.map fun t => (t.1, s.tensorCtx (s.row n).part t)
        .next (s.sealOn n { run with started := true, tensors := ts, todo := m.chunks } chunks)

/-- SEAL_GATHER_TIMEOUT (R100): a sharded d_k has not arrived 1 s after the local digesting ended. -/
def execSealGatherTimeout (row : BitVec 14) (s : State) : Res :=
  match (s.row row.toNat).sealRun with
  | none => .next s
  | some run =>
    if run.waiting && run.ctxs.any fun i => decide ((s.ctx i).st = .gathering) then .next (s.sealTake row.toNat run)
    else .next s

end Sys2Proof.Machine
end

