-- ==== Sys2Proof/Machine/Watch.lean ====
section
/-! DEFINITION. The commands of watches and token sessions (R228 to R237, R250). -/

namespace Sys2Proof.Machine

/-! ### Watches -/

/-- Ends a watch command with its RESULT (Table 12); one other than DONE is counted. -/
def State.watchEnd (s : State) (o : Origin) (code : Nat) (r0 : Nat := 0) : State :=
  let s := if code = 0 then s else s.incFld F.watchErr_REFUSED_CMD
  s.engineEnd o F.watchCtl_RESULT F.watchCtl_BUSY code none r0 0

/-- A watch command from a register or a queue. -/
def State.watchCmd (s : State) (o : Origin) (w op : Nat) (f : Nat → Option (Nat × Cmd) → State → State) : State :=
  match o with
  | .reg port =>
    s.ownerCmd port (s.fld F.watchCtl_BUSY == 1) F.stvErr_REG_ERR fun s => f w none (s.setFld F.watchCtl_WATCH w)
  | .svc q k => s.svcCmd q k op fun c s =>
    if 64 ≤ c.desc.arg16 then s.svcDone q k 6 0 0 0 0 else f c.desc.arg16 (some (q, c)) s

/-- A queue that is not the owner's may not act on an object of a partition. -/
def State.foreign (s : State) (qc : Option (Nat × Cmd)) (part : Nat) : Bool :=
  match qc with
  | none => false
  | some (q, c) => !s.mayAct q c part

/-- A reserved encoding in a watch configuration (Table 12). -/
def watchCfgBad (cfg : Nat) : Bool :=
  decide (254 ≤ bits cfg 0 8 ∨ 9 ≤ bits cfg 8 4 ∨ bits cfg 12 2 = 3 ∨ 19 ≤ bits cfg 37 5 ∨ bits cfg 42 22 ≠ 0)

/-- REFUSED_KIND of ARM (R230, R232, R234): SUM and SUMSQ of FP64, HIST of a format that is not MX, and a threshold kind
that does not fit the statistic. -/
def watchKindBad (stat tkind fmt : Nat) : Bool :=
  decide ((fmt = 0x0001 ∧ (stat = 1 ∨ stat = 2)) ∨ (stat = 8 ∧ !fmtMx fmt) ∨ (tkind = 1 ∧ 1 ≤ stat ∧ stat ≤ 4)
    ∨ (tkind = 2 ∧ ¬ (1 ≤ stat ∧ stat ≤ 4)))

/-- WATCH_ARM (R233): a FREE watch on a context that is OPEN with nothing covered. -/
def execWatchArm (o : Origin) (w : BitVec 6) (s : State) : Res :=
  .next (s.watchCmd o w.toNat 0x34 fun w qc s =>
    let (cfg, thresh) := match qc with
      | none => (s.rd .watchCfg, s.rd .watchThresh)
      | some (_, c) => (c.desc.arg0, c.desc.arg1)
    let x : Watch := { st := .armed, cfg := cfg, thresh := thresh }
    let c := s.ctx x.ctx
    if watchCfgBad cfg then
      match o with
      | .reg _ => s.watchEnd o 2
      | .svc q k => s.svcDone q k 6 0 0 0 0
    else if (s.watch w).st ≠ .free ∨ c.st ≠ .opened ∨ !c.cover.isEmpty then s.watchEnd o 1
    else if watchKindBad x.stat x.tkind c.fmt then s.watchEnd o 2
    else if s.foreign qc c.part then s.watchEnd o 3
    else (s.setWatch w { x with part := c.part, fmt := c.fmt }).watchEnd o 0)

/-- State codes of a watch. -/
def WatchSt.code : WatchSt → Nat
  | .free => 0 | .armed => 1 | .done => 2

/-- LZ_WATCH_STAT of a watch (Table 12). -/
def Watch.word (x : Watch) : Nat :=
  x.st.code + x.ctxSt.code * 2 ^ 2 + (if x.crossed then 2 ^ 5 else 0) + x.part * 2 ^ 6 + x.covered * 2 ^ 12

/-- WATCH_READ (R250): a register READ shows the watch; a queue's returns LZ_WATCH_STAT, with the result at DST. -/
def execWatchRead (o : Origin) (w : BitVec 6) (s : State) : Res :=
  .next (s.watchCmd o w.toNat 0x35 fun w qc s =>
    let x := s.watch w
    let res := x.result x.fmt
    if x.st = .free then s.watchEnd o 1
    else if s.foreign qc x.part then s.watchEnd o 3
    else
      match qc with
      | none =>
        let s := ((s.wr .watchCfg x.cfg).wr .watchThresh x.thresh).wr .watchStat x.word
        let s := (upto 0 16).foldl (fun s n => s.wr .watchRes (bits res (64 * n) 64) n) s
        s.watchEnd o 0
      | some (q, c) => s.charged q c 0 128 fun s =>
        if s.operandOk q c c.desc.dst 128 1 then s.finishDst q c (leBytes 128 res) x.word 0
        else s.svcDone q c.k 1 3 0 0 0)

/-- WATCH_DISARM (R233). -/
def execWatchDisarm (o : Origin) (w : BitVec 6) (s : State) : Res :=
  .next (s.watchCmd o w.toNat 0x36 fun w qc s =>
    if (s.watch w).st = .free then s.watchEnd o 1
    else if s.foreign qc (s.watch w).part then s.watchEnd o 3
    else (s.disarm w).watchEnd o 0)

/-! ### Token sessions -/

/-- A session command from a register or a queue. -/
def State.tokCmd (s : State) (o : Origin) (t op : Nat) (f : Nat → Option (Nat × Cmd) → State → State) : State :=
  match o with
  | .reg port =>
    s.ownerCmd port (s.fld F.tokCtl_BUSY == 1) F.stvErr_REG_ERR fun s => f t none (s.setFld F.tokCtl_SESSION t)
  | .svc q k => s.svcCmd q k op fun c s =>
    if 8192 ≤ c.desc.arg16 then s.svcDone q k 6 0 0 0 0 else f c.desc.arg16 (some (q, c)) s

/-- T_0 of a session (R236). -/
def tokStart (id : BitVec 128) : Digest := Config.sha3_384 (ascii "LZTOKEN1" ++ bvBytes id)

/-- The chain after one more record (R236). -/
def tokNext (chain : Digest) (i : Nat) (rec_ : Bytes) : Digest :=
  Config.sha3_384 (bvBytes chain ++ leBytes 8 i ++ rec_ ++ ascii "LZT1")

/-- TOK_OPEN (R237): a FREE session, on a FURROW region that is OPEN and has no OPEN session. -/
def execTokOpen (o : Origin) (t : BitVec 13) (s : State) : Res :=
  .next (s.tokCmd o t.toNat 0x37 fun t qc s =>
    let (arg, id) := match qc with
      | none => (s.rd .tokArg, s.rd .tokId0 + s.rd .tokId1 * 2 ^ 64)
      | some (_, c) => (c.desc.arg0, c.desc.arg1 + c.desc.arg2 * 2 ^ 64)
    let row := bits arg 0 14
    let r := s.row row
    if bits arg 48 16 ≠ 0 then
      match o with
      | .reg _ => s.tokEnd o 1
      | .svc q k => s.svcDone q k 6 0 0 0 0
    else if (s.tok t).st ≠ .free ∨ r.kind ≠ .furrow ∨ r.state ≠ .opened ∨ s.foreign qc r.part
        ∨ s.dig.toks.any (fun e => decide (e.2.st = .opened ∧ e.2.row = row)) then s.tokEnd o 1
    else
      let id := BitVec.ofNat 128 id
      (s.setTok t { st := .opened, part := r.part, row := row, next := bits arg 14 34, id := id,
                    chain := tokStart id }).tokEnd o 0)

/-- A CLOSE whose lines have all been chained completes: the chain is final (Table 4 of the watch chapter). -/
def State.tokSettle (s : State) (t : Nat) : State :=
  let x := s.tok t
  match x.closing with
  | none => s
  | some h =>
    if x.next < h then s
    else
      let s := s.setTok t { x with closing := none, origin := none }
      match x.origin with | some o => s.tokEnd o 0 | none => s

/-- The CLOSE of a session takes effect (R237, R249): it is CLOSED, and takes every record of lines below HWM at this
cycle, whatever becomes of its region; it completes with the last of them. -/
def State.tokClose (s : State) (t : Nat) (o : Option Origin) : State :=
  let x := s.tok t
  (s.setTok t { x with st := .closed, closing := some (s.row x.row).hwm, origin := o }).tokSettle t

/-- TOK_CLOSE (R237). -/
def execTokClose (o : Origin) (t : BitVec 13) (s : State) : Res :=
  .next (s.tokCmd o t.toNat 0x38 fun t qc s =>
    let x := s.tok t
    if x.st ≠ .opened then s.tokEnd o 1
    else if s.foreign qc x.part then s.tokEnd o 2
    else
      let s := match qc with | none => s.setFld F.tokCtl_BUSY 1 | some _ => s
      s.tokClose t (some o))

/-- State codes of a session. -/
def TokSt.code : TokSt → Nat
  | .free => 0 | .opened => 1 | .closed => 2 | .incomplete => 3

/-- LZ_TOK_STAT of a session (Table 13). -/
def Tok.word (x : Tok) : Nat := x.st.code + x.part * 2 ^ 2 + x.count * 2 ^ 16

/-- The chain that a session shows: zero unless it is CLOSED, with its chain final (R250). -/
def Tok.shown (x : Tok) : Digest := if x.st = .closed ∧ x.closing.isNone then x.chain else 0

/-- TOK_READ (R250): a register READ shows the session; a queue's returns LZ_TOK_STAT, with the chain at DST. -/
def execTokRead (o : Origin) (t : BitVec 13) (s : State) : Res :=
  .next (s.tokCmd o t.toNat 0x39 fun t qc s =>
    let x := s.tok t
    if x.st = .free then s.tokEnd o 1
    else if s.foreign qc x.part then s.tokEnd o 2
    else
      match qc with
      | none =>
        let s := s.wr .tokStat x.word
        let s := (upto 0 6).foldl (fun s j => s.wr .tokChain (bits x.shown.toNat (64 * j) 64) j) s
        s.tokEnd o 0
      | some (q, c) => s.charged q c 0 48 fun s =>
        if s.operandOk q c c.desc.dst 48 1 then s.finishDst q c (bvBytes x.shown) x.word 0
        else s.svcDone q c.k 1 3 0 0 0)

/-- TOK_FREE (R237): a CLOSED or INCOMPLETE session becomes FREE; one whose CLOSE is still executing does not. -/
def execTokFree (o : Origin) (t : BitVec 13) (s : State) : Res :=
  .next (s.tokCmd o t.toNat 0x3A fun t qc s =>
    let x := s.tok t
    if x.st = .free ∨ x.st = .opened ∨ x.closing.isSome then s.tokEnd o 1
    else if s.foreign qc x.part then s.tokEnd o 2
    else (s.setTok t {}).tokEnd o 0)

/-- One token record (R236): 32 zero bytes are skipped. -/
def Tok.chained (x : Tok) (rec_ : Bytes) : Tok :=
  if rec_.all (· == 0) then x else { x with count := x.count + 1, chain := tokNext x.chain (x.count + 1) rec_ }

/-- TOKEN_RECORD_CHAINED (R236): an OPEN session, or one whose CLOSE is taking its records, takes the two records of its next
line, once that lies below HWM; `r` is the line as its read verified. A line that does not verify is not taken; a step is
withheld while the throttle's budget does not hold its permutations (R457). -/
def execTokenRecordChained (t : BitVec 13) (r : ReadOut) (s : State) : Res :=
  let x := s.tok t.toNat
  let row := s.row x.row
  if (x.st ≠ .opened ∧ x.closing.isNone) ∨ x.closing.getD row.hwm ≤ x.next ∨ !r.ok ∨ r.bytes.length ≠ 64 then .next s
  else
    let y := (x.chained (r.bytes.take 32)).chained (r.bytes.drop 32)
    let e := keccakEnergy (y.count - x.count)
    if 0 < e ∧ !s.fits e then .next s.withhold
    else
    let s := (s.spend e).count 464 (y.count - x.count)
    .next ((s.setTok t.toNat { y with next := x.next + 1 }).tokSettle t.toNat)

end Sys2Proof.Machine
end

