-- ==== Sys2Proof/Machine/Sheaf.lean ====
section
/-! DEFINITION. The sheaf assembler (R238 to R250): requests, sheaves, stooks, signing and bundles. -/

namespace Sys2Proof.Machine

/-- Replaces the sheaf assembler's state. -/
def State.withShf (s : State) (x : Shf) : State := { s with dig := { s.dig with shf := x } }

/-- Ends a SHEAF command (R247). -/
def State.sheafDone (s : State) (q k status detail : Nat) : State := s.svcDone q k status detail 0 0 0

/-! ### Requests -/

/-- A sheaf request in decoded form (Table 5); none when it breaks R238. -/
def SheafJob.parse (b : Bytes) (q k tag : Nat) (drill : Digest) : Option SheafJob :=
  let m := le b 8 2
  let es := (List.range m).map fun j => (le b (128 + 16 * j) 1, le b (130 + 16 * j) 2)
  let rsv := (List.range m).all fun j => zeroAt b (129 + 16 * j) 1 && zeroAt b (132 + 16 * j) 12
  if b.take 8 != ascii "LZSHREQ1" || decide (64 < m ∨ 64 ≤ le b 10 1 ∨ 2 ≤ le b 11 1 ∨ 4096 ≤ le b 12 2 ∨ le b 14 2 ≠ 0
      ∨ 2 ^ 40 ≤ le b 120 8 ∨ le b 120 8 % 64 ≠ 0 ∨ b.length < 128 + 16 * m) || !rsv
      || es.any (fun e => decide (e.1 < 1 ∨ 4 < e.1)) then none
  else some { q := q, k := k, tag := tag, part := le b 10 1, waitStep := bit (le b 11 1) 0, step := le b 12 2,
              profile := le b 16 8, graph := sub b 24 48, patch := sub b 72 48, outAddr := le b 120 8, entries := es,
              drill := drill }

/-- The partition of a source, when it is in a state that Table 9 admits: a SOWN region, a context that is not FREE, a
session that is not FREE. -/
def State.sourcePart (s : State) (role src : Nat) : Option Nat :=
  match role with
  | 1 =>
    let r := s.row src
    if src < 16384 ∧ r.state ≠ .free ∧ r.kind = .sown then some r.part else none
  | 4 => if src < 8192 ∧ (s.tok src).st ≠ .free then some (s.tok src).part else none
  | _ => if src < 254 ∧ (s.ctx src).st ≠ .free then some (s.ctx src).part else none

/-- The cause that keeps a sheaf from being assembled (Table 9), in the order of its codes; OUT_WRITE shows later. -/
def State.sheafCause (s : State) (j : SheafJob) : Option Nat :=
  let ps := j.entries.map fun e => s.sourcePart e.1 e.2
  let listed := match s.cfg.active with | some p => p.profiles.contains j.profile | none => false
  if ps.any fun p => p.isSome && p != some j.part then some 1
  else if ps.any (·.isNone) then some 2
  else if !listed then some 4
  else if s.noEngines then some 5
  else none

/-- SHEAF (R238, R239): the request is read and checked, and its assembly starts; `r` are the bytes at SRC. -/
def execSheaf (q : Nat) (k : Nat) (r : ReadOut) (s : State) : Res :=
  .next (s.svcCmd q k 0x40 fun c s =>
    let drill := match c.drill with | some d => d.digest | none => 0
    let row := if bit c.desc.src 63 then none else s.operandRow 0 true (c.desc.src % 2 ^ 63) r.bytes.length 0
    match row with
    | none => s.sheafDone q k 1 3
    | some row =>
      if !r.ok then s.sheafDone q k 1 3
      else
        match SheafJob.parse r.bytes q k c.desc.tag drill with
        | none => s.sheafDone q k 6 0
        | some j =>
          if (s.row row).part ≠ j.part then s.sheafDone q k 1 3
          else if !s.mayAct q c j.part then s.sheafDone q k 1 2
          else
            match s.sheafCause j with
            | some code => s.sheafDone q k 1 code
            | none => s.withShf { s.dig.shf with jobs := s.dig.shf.jobs ++ [j] })

/-! ### Sheaves -/

/-- An entry of a sheaf (Table 7): its bytes and whether it is INCOMPLETE. A tensor count that this block has not counted
is a free value. -/
def State.sheafEntry (s : State) (role src : Nat) : Bytes × Bool :=
  let (n, id, digest) : Nat × BitVec 128 × Option Digest := match role with
    | 1 =>
      let r := s.row src
      (r.sealCount.getD (s.freeVal 64).toNat, 0,
        if r.kind = .sown ∧ r.state = .sealed ∧ !r.sealIncomplete then some r.digest else none)
    | 4 =>
      let x := s.tok src
      (x.count, x.id, if x.st = .closed then some x.chain else none)
    | _ =>
      let c := s.ctx src
      (c.n, c.id, if c.st = .final then some c.digest else none)
  (leBytes 1 role ++ [if digest.isSome then 0 else 1] ++ leBytes 2 src ++ zeros 4 ++ leBytes 8 n ++ bvBytes id ++
    bvBytes (digest.getD 0), digest.isNone)

/-- The bytes of a sheaf (Table 6, R241) with its salt, and whether it is INCOMPLETE. -/
def State.sheafBytes (s : State) (j : SheafJob) (salt : BitVec 256) : Bytes × Bool :=
  let es := j.entries.map fun e => s.sheafEntry e.1 e.2
  let status := if j.waitStep then j.stepStatus.getD 3 else 3
  let incomplete := status == 1 || es.any (·.2)
  let p := s.cfg.active.getD {}
  let dom := s.domPlot
  let fixed := leBytes 8 j.profile ++ leBytes 4 (s.rd .stepping) ++ leBytes 4 p.grade ++ bvBytes p.accVersion ++
    bvBytes s.keys.meas ++ leBytes 8 p.reeveVersion ++ ((upto 0 8).map fun i => leBytes 8 (s.rd .disabledMap i)).flatten
  let head := ascii "LZSHEAF1" ++ leBytes 2 1 ++ leBytes 2 j.entries.length ++
    leBytes 1 ((if incomplete then 1 else 0) + (if s.life.lc = .test then 2 else 0)) ++ leBytes 1 status ++
    leBytes 2 j.step ++ bvBytes s.ident ++ bvBytes dom.domId ++ leBytes 8 s.epochNo ++ leBytes 8 s.life.time ++
    leBytes 1 j.part ++ zeros 7 ++ bvBytes salt ++ padTo 48 j.graph ++ padTo 48 j.patch ++ bvBytes j.drill
  (head ++ fixed ++ bvBytes (Config.sha3_384 (ascii "LZRKEY1" ++ fixed)) ++ zeros 64 ++ (es.map (·.1)).flatten, incomplete)

/-- The sources that a sheaf waits for are ready (R239): its step has ended, its contexts are FINAL or INCOMPLETE, and no
session of it is OPEN. -/
def State.sheafReady (s : State) (j : SheafJob) : Bool :=
  (!j.waitStep || j.stepStatus.isSome) && j.entries.all fun e =>
    match e.1 with
    | 1 => true
    | 4 => decide ((s.tok e.2).st ≠ .opened ∧ (s.tok e.2).closing = none)
    | _ => decide ((s.ctx e.2).st = .final ∨ (s.ctx e.2).st = .incomplete)

/-- Closes the sessions of a sheaf that are still OPEN (R239). -/
def State.sheafCloses (s : State) (j : SheafJob) : State :=
  j.entries.foldl (fun s e =>
    let x := s.tok e.2
    if e.1 = 4 ∧ x.st = .opened then s.tokClose e.2 none else s) s

/-- The SHEAF command of a queue that appends next (R239): the oldest of the queue that has not. -/
def State.sheafTurn (s : State) (q k : Nat) : Option SheafJob :=
  match s.dig.shf.jobs.find? fun j => j.q == q && decide (j.st = .waiting) with
  | some j => if j.k = k then some j else none
  | none => none

/-- The leaf hash of a sheaf (R242). -/
def leafHash (sheaf : Bytes) : Digest := Config.sha3_384 ([0] ++ sheaf)

/-- A sheaf is filled and its leaf appended to the open stook (R239, R242). -/
def State.appendSheaf (s : State) (j : SheafJob) : State :=
  let salt := s.drawn 256
  let (b, incomplete) := s.sheafBytes j salt
  let s := s.drew.freed
  let x := s.dig.shf
  let jobs := updWhere (fun (y : SheafJob) => y.q == j.q && y.k == j.k) (fun y => { y with st := .appended, sheaf := b })
    x.jobs
  let s := s.withShf { x with jobs := jobs, leaves := x.leaves ++ [⟨leafHash b, some (j.q, j.k)⟩] }
  let s := s.count 465 1
  if incomplete then s.incFld F.shfErr_INCOMPLETE else s

/-- SHEAF_APPEND (R239, R243): no leaf is appended while a closed stook waits, or beyond 4,096. -/
def execSheafAppend (q : Nat) (k : Nat) (s : State) : Res :=
  match s.sheafTurn q k with
  | none => .next s
  | some j =>
    if (j.waitStep && j.stepStatus.isNone) || s.engineOut 8 then .next s
    else
      let s := s.sheafCloses j
      if !s.sheafReady j ∨ !s.drbgOk ∨ s.dig.shf.closeDue.isSome ∨ 4096 ≤ s.dig.shf.leaves.length then .next s
      else .next (s.appendSheaf j)

/-! ### Stooks -/

/-- The block may sign another stook (R243): fewer than 2^31 since the partner's last acknowledgement while the pair is
UP. -/
def State.maySign (s : State) : Bool := decide (s.pair.state ≠ .up ∨ s.dig.shf.sinceAck < 2 ^ 31)

/-- Signing starts (R243): the sequence is taken and advanced, and mirrored while the pair is UP. -/
def State.startSigning (s : State) (time : Nat) : State :=
  let x := s.dig.shf
  let seq := s.fld F.shfSeq_SEQ
  let s := s.setFld F.shfSeq_SEQ (seq + 1)
  let s := s.withShf { x with leaves := [], closeDue := none, signing := some ⟨x.leaves, seq, time⟩,
                              sinceAck := x.sinceAck + 1 }
  s.mirrorRoots

/-- The open stook closes (R243): it signs, or waits for the one that is signing. -/
def State.closeStook (s : State) : State :=
  let x := s.dig.shf
  if x.leaves.isEmpty ∨ x.closeDue.isSome then s
  else if x.signing.isSome ∨ !s.maySign then s.withShf { x with closeDue := some s.life.time }
  else s.startSigning s.life.time

/-- A closed stook that waits starts to sign when it may. -/
def State.dueStook (s : State) : State :=
  match s.dig.shf.closeDue with
  | some t => if s.dig.shf.signing.isNone ∧ s.maySign then s.startSigning t else s
  | none => s

/-- STOOK_CLOSE (R243): the open stook closes at its 4,096th leaf; one that waits starts to sign when it may. -/
def execStookClose (s : State) : Res :=
  if s.dig.shf.closeDue.isSome then .next s.dueStook
  else if s.dig.shf.leaves.length = 4096 then .next s.closeStook
  else .next s

/-- FLUSH (R243): with leaves, the open stook closes. -/
def execFlush (port : Nat) (s : State) : Res :=
  .next (s.ownerCmd port false F.stvErr_REG_ERR State.closeStook)

/-- MAXWAIT_EXPIRY (R243): MAXWAIT after its first leaf the open stook closes. -/
def execMaxwaitExpiry (s : State) : Res := .next s.closeStook

/-- The largest power of two smaller than `k`, for `k` at least 2 and at most 4,096. -/
def splitAt2 (k : Nat) : Nat := 2 ^ (Nat.log2 (k - 1))

/-- MTH of leaves (R242); `fuel` bounds the depth. -/
def mth : (fuel : Nat) → List Digest → Digest
  | 0, _ => 0
  | fuel + 1, l =>
    match l with
    | [] => 0
    | [d] => d
    | _ =>
      let j := splitAt2 l.length
      Config.sha3_384 ([1] ++ bvBytes (mth fuel (l.take j)) ++ bvBytes (mth fuel (l.drop j)))

/-- PATH of leaf `m` (R242), from the leaf upwards. -/
def mpath : (fuel : Nat) → (m : Nat) → List Digest → List Digest
  | 0, _, _ => []
  | fuel + 1, m, l =>
    if l.length < 2 then []
    else
      let j := splitAt2 l.length
      if m < j then mpath fuel m (l.take j) ++ [mth 13 (l.drop j)]
      else mpath fuel (m - j) (l.drop j) ++ [mth 13 (l.take j)]

/-- The stook record (Table 8): its first 128 bytes, and both signatures, which are zero in TEST. -/
def State.stookRecord (s : State) (g : Signing) : Bytes × State :=
  let root := mth 13 (g.leaves.map (·.hash))
  let head := ascii "LZSTOOK1" ++ leBytes 2 1 ++ zeros 2 ++ leBytes 4 g.leaves.length ++ bvBytes s.ident ++
    leBytes 8 (s.fld F.shfNonce_NONCE) ++ leBytes 8 g.seq ++ leBytes 8 g.time ++ zeros 8 ++ bvBytes root ++ zeros 16
  if s.life.lc = .test then (head ++ zeros 4723, s)
  else
    let (sig, s) := s.signBoth head (ascii "LZSTOOK")
    (head ++ sig, s)

/-- The path record (R245) of leaf `m` of `k`. -/
def pathRecord (m k : Nat) (path : List Digest) : Bytes :=
  ascii "LZIP" ++ [1] ++ leBytes 1 path.length ++ zeros 2 ++ leBytes 4 m ++ leBytes 4 k ++ (path.map bvBytes).flatten

/-- A bundle may lie at an address (R245): within one region of the partition with PERM bit 1, FURROW or TILLED. -/
def State.bundleOk (s : State) (part addr len : Nat) : Bool :=
  match s.operandRow part false addr len 1 with
  | some row => decide ((s.row row).kind = .furrow ∨ (s.row row).kind = .tilled)
  | none => false

/-- Writes the bundle of a leaf and ends its SHEAF command (R245): FAILED with OUT_WRITE when it cannot be written. -/
def State.writeBundle (s : State) (g : Signing) (rec_ : Bytes) (m : Nat) (j : SheafJob) : State :=
  let ds := g.leaves.map (·.hash)
  let b := j.sheaf ++ pathRecord m g.leaves.length (mpath 13 m ds) ++ rec_
  let s := s.withShf { s.dig.shf with jobs := s.dig.shf.jobs.filter fun y => !(y.q == j.q && y.k == j.k) }
  if !s.bundleOk j.part j.outAddr b.length then s.sheafDone j.q j.k 1 3
  else
    let (ok, s) := s.maintBytes j.part j.outAddr b
    if !ok then s.sheafDone j.q j.k 1 3
    else
      let x := s.dig.shf
      (s.withShf { x with progress := (x.progress + 1) % 2 ^ 32 }).svcDone j.q j.k 0 0 b.length 0 0

/-- STOOK_SIGNED (R243): every bundle is written, and a stook that waits starts to sign; while ES_FAIL is set the
signatures wait (R196). -/
def execStookSigned (s : State) : Res :=
  match s.dig.shf.signing with
  | none => .next s
  | some g =>
    if s.life.lc ≠ .test ∧ !s.predOk then .next s
    else
    let (rec_, s) := s.stookRecord g
    let s := (s.withShf { s.dig.shf with signing := none }).count 466 1
    let s := (g.leaves.zipIdx).foldl (fun s (p : Leaf × Nat) =>
      match p.1.job with
      | none => s
      | some (q, k) =>
        match s.dig.shf.jobs.find? fun j => j.q == q && j.k == k && decide (j.st = .appended) with
        | some j => s.writeBundle g rec_ p.2 j
        | none => s) s
    .next s.dueStook

/-- A SHEAF command is dropped (R248): its leaf, if appended, stays in its stook without a bundle. -/
def State.dropSheaf (s : State) (q k : Nat) : State :=
  let x := s.dig.shf
  let f := fun (l : Leaf) => if l.job = some (q, k) then { l with job := none } else l
  s.withShf { x with jobs := x.jobs.filter fun j => !(j.q == q && j.k == k), leaves := x.leaves.map f,
                     signing := x.signing.map fun g => { g with leaves := g.leaves.map f } }

end Sys2Proof.Machine
end

