-- ==== Sys2Proof/Machine/Commit.lean ====
section
/-! DEFINITION. Step commits, halts and reset-domain fences at the boundary (R70 to R76, R126, R134, R294). -/

namespace Sys2Proof.Machine

/-! ### Commits -/

/-- lz_step_commit_ready (R71, R77): at most 16 commits are outstanding. -/
def State.commitReady (s : State) : Bool :=
  !s.life.blkFence && decide (s.life.lc ≠ .endOfLife ∧ s.stile.commits.length < 16)

/-- STEP_COMMIT (R71, R126, R215): the entry enters COMMITTING, and digest segments of the step that are not filled
withhold their chunks. A commit of a step that is already committing is not taken. -/
def execStepCommit (step : BitVec 12) (s : State) : Res :=
  let t := step.toNat
  let e := s.stepEnt t
  if !s.commitReady ∨ e.st = .committing then .next s
  else
    let s := s.setStepEnt t { e with st := .committing }
    let s := { s with stile := { s.stile with commits := s.stile.commits ++ [t] } }
    .next (s.commitSegs t)

/-- A read of a step has no verdict yet (R71): it waits at a lane, or is in flight and not judged. -/
def State.readsOpen (s : State) (step : Nat) : Bool :=
  let mine := fun (t : Txn) => t.remote.isNone && !t.req.write && decide (t.req.step.toNat = step)
  s.mem.ingress.any mine || s.mem.spans.any mine || s.mem.spanGranted.any mine ||
  s.mem.reads.any (fun r => mine r.txn && !r.judged)

/-- The oldest commit whose stile event has not been given. -/
def State.nextEvent (s : State) : Option Nat := s.stile.commits.find? fun t => !(s.stepEnt t).evented

/-- STILE_EVENT (R71, R134): with every read judged and no egress held, and unless its partition is halted, the oldest
commit gets its event, which a step that never held egress and was never poisoned does without; the mirror follows. -/
def execStileEvent (step : BitVec 12) (s : State) : Res :=
  let t := step.toNat
  let e := s.stepEnt t
  if s.nextEvent ≠ some t ∨ s.readsOpen t ∨ s.mem.held.any (·.step == t) ∨ (s.part e.part).haltAck then .next s
  else
    let s := if e.heldEver ∨ e.poisoned then
        let kind := if e.poisoned then 1 else 0
        let (n, s) := s.cycles
        (s.trace 2 5 (Src.stile.at 0) (some e.part) t kind n).emit (.stileEvt t kind)
      else s
    .next ((s.setStepEnt t { s.stepEnt t with evented := true }).mirrorCommit t)

/-- The status of a commit (R70, R71): POISONED, or MIRRORED or LOCAL as its mirror ended. -/
def StepEnt.status (e : StepEnt) : Nat := if e.poisoned then 1 else e.mirrored.getD 2

/-- SHEAF commands that wait for a step record its status (R239). -/
def State.tellSheaves (s : State) (step status : Nat) : State :=
  let x := s.dig.shf
  let jobs := updWhere
    (fun (j : SheafJob) => j.waitStep && j.step == step && decide (j.st = .waiting) && j.stepStatus.isNone)
    (fun j => { j with stepStatus := some status }) x.jobs
  s.withShf { x with jobs := jobs }

/-- A write granted before a commit's snapshot has not been accepted by its memory controller (R294). -/
def State.writesPending (s : State) (upto : Nat) : Bool :=
  s.mem.wbuf.any (fun w => decide (w.acc ≤ upto)) || s.mem.moves.any (fun m => decide (m.acc ≤ upto)) ||
  s.mem.waitCredit.any (fun w => w.1.any fun t => decide (t.acc < upto)) ||
  s.mem.metaWrites.any fun w => decide (w.txn.maint.isNone ∧ w.txn.acc < upto)

/-- STEP_DONE (R71, R294): the oldest commit, evented and mirrored, is done; its entry is IDLE again. One that completes
MIRRORED waits until every write granted before its snapshot has been accepted. -/
def execStepDone (step : BitVec 12) (s : State) : Res :=
  let t := step.toNat
  let e := s.stepEnt t
  if s.stile.commits.head? ≠ some t ∨ !e.evented ∨ e.mirrored.isNone
      ∨ (e.mirrored = some 0 ∧ s.writesPending e.upto) then .next s
  else
    let st := e.status
    let s := (s.emit (.stepDone t st)).count 459 1
    let s := if st = 0 then s.count 460 1 else s
    let s := if st = 2 then s.incFld F.pairErr_MIRROR_LATE else s
    let (n, s) := s.cycles
    let s := s.trace 2 8 (Src.stile.at 0) (some e.part) t st n
    let steps := s.stile.steps.map fun (x : Nat × StepEnt) =>
      (x.1, { x.2 with boundTo := x.2.boundTo.filter (· != t) })
    let s := { s with stile := { steps := tdel steps t, commits := s.stile.commits.drop 1 } }
    .next (s.tellSheaves t st)

/-- MIRROR_TIMEOUT (R294): no acknowledgement 1 ms after the snapshot, and the commit completes LOCAL; its record is merged
into the next one. -/
def execMirrorTimeout (step : BitVec 12) (s : State) : Res :=
  let t := step.toNat
  let e := s.stepEnt t
  if e.st = .committing ∧ e.evented ∧ e.mirrored = none then
    let s := s.setStepEnt t { e with mirrored := some 2 }
    .next (s.withPair { s.pair with unacked := s.pair.unacked.filter fun r => e.mirrorSeq != some r.seq }).mirrorWaiting
  else .next s

/-! ### Halts -/

/-- ACC_HALT (R73): later requests of p are refused RETRY. -/
def execAccHalt (p : BitVec 6) (s : State) : Res :=
  .next (s.setPart p.toNat { s.part p.toNat with halt := true })

/-- ACC_RESUME (R73): the block resumes p and lowers the acknowledgement. -/
def execAccResume (p : BitVec 6) (s : State) : Res :=
  let n := p.toNat
  let x := s.part n
  let s := s.setPart n { x with halt := false, haltAck := false }
  if x.haltAck then
    let (c, s) := s.cycles
    .next ((s.trace 2 9 (Src.stile.at 0) (some n) 1 c 0).emit (.haltAck n false))
  else .next s

/-- Requests of a partition are at the lanes, in flight, or outstanding on the fabric. -/
def State.partBusy (s : State) (p : Nat) : Bool :=
  let mine := fun (t : Txn) => t.remote.isNone && decide (t.req.part.toNat = p)
  s.mem.ingress.any mine || s.mem.spans.any mine || s.mem.spanGranted.any mine || s.mem.reads.any (fun r => mine r.txn)
  || s.mem.waitCredit.any (fun w => w.1.any mine) || s.mem.held.any (·.part == p)
  || s.links.outs.any (fun o => decide (o.req.part.toNat = p)) || s.links.waiting.any fun o => decide (o.req.part.toNat = p)

/-- HALT_ACK (R73, R78): p's outstanding work is done and no commit of p is pending. -/
def execHaltAck (p : BitVec 6) (s : State) : Res :=
  let n := p.toNat
  let x := s.part n
  if !x.halt ∨ x.haltAck ∨ s.outsReset ∨ s.partBusy n ∨ s.stile.commits.any (fun t => (s.stepEnt t).part == n) then .next s
  else
    let (c, s) := s.cycles
    let s := s.setPart n { x with haltAck := true }
    .next ((s.trace 2 9 (Src.stile.at 0) (some n) 0 c 0).emit (.haltAck n true))

/-! ### Reset domains -/

/-- A reset domain. -/
def State.rdom (s : State) (d : Nat) : Rdom := tget {} s.rdoms d

/-- Sets a reset domain. -/
def State.setRdom (s : State) (d : Nat) (x : Rdom) : State := { s with rdoms := tset {} s.rdoms d x }

/-- RDOM_FENCE (R76): requests of the domain are refused FENCED from now on. -/
def execRdomFence (d : BitVec 3) (s : State) : Res :=
  .next (s.setRdom d.toNat { s.rdom d.toNat with fence := true })

/-- A request of a domain is outstanding, or a response of it remains to be presented (R76). -/
def State.rdomBusy (s : State) (d : Nat) : Bool :=
  let mine := fun (t : Txn) => t.remote.isNone && decide (t.req.rdom.toNat = d)
  s.mem.ingress.any mine || s.mem.spans.any mine || s.mem.spanGranted.any mine || s.mem.reads.any (fun r => mine r.txn)
  || s.mem.waitCredit.any (fun w => w.1.any mine) || s.mem.rsps.any (·.rdom == d)
  || s.links.outs.any (fun o => decide (o.intf ≠ ownIntf ∧ o.req.rdom.toNat = d))
  || s.links.waiting.any (fun o => decide (o.intf ≠ ownIntf ∧ o.req.rdom.toNat = d))
  || s.mem.held.any fun h => match h.what with | .fab _ r => decide (r.rdom.toNat = d) | _ => false

/-- RDOM_FENCED (R76): nothing of the domain is outstanding, and lz_rdom_fenced[d] rises. -/
def execRdomFenced (d : BitVec 3) (s : State) : Res :=
  let n := d.toNat
  let x := s.rdom n
  if !x.fence ∨ x.fenced ∨ s.outsReset ∨ s.rdomBusy n then .next s
  else .next ((s.setRdom n { x with fenced := true }).emit (.rdomFenced n true))

/-- RDOM_UNFENCE (R76): the fence falls, and lz_rdom_fenced[d] with it. -/
def execRdomUnfence (d : BitVec 3) (s : State) : Res :=
  let n := d.toNat
  let x := s.rdom n
  let s := s.setRdom n {}
  if x.fenced then .next (s.emit (.rdomFenced n false)) else .next s

/-- FENCE_OVERRUN (R76): the fence is not complete 20 µs after its rise. -/
def execFenceOverrun (d : BitVec 3) (s : State) : Res :=
  let x := s.rdom d.toNat
  if x.fence ∧ !x.fenced then .next (s.record .fenceOverrun .fault 0 none d.toNat 0) else .next s

end Sys2Proof.Machine
end

