-- ==== Sys2Proof/Machine/InstOps.lean ====
section
/-! DEFINITION. What ending work has in common (R306, R326, R338, R345, R349, R415): completion records and transfer
statuses, aborted commands, a partition's objects, and the steps of an instance reset and of a winnow. -/

namespace Sys2Proof.Machine

/-! ### Aborted commands -/

/-- An engine no longer answers to a command that has ended: what it goes on with ends for nobody. -/
def State.forget (s : State) (q k : Nat) : State :=
  let o : Origin := .svc q k
  let none_ : Origin := .svc 256 0
  let fix := fun (x : Origin) => if x = o then none_ else x
  let rows := s.rgn.rows.map fun (e : Nat × Region) => (e.1, { e.2 with
    closer := e.2.closer.map fix,
    adv := e.2.adv.map fun a => { a with origin := fix a.origin },
    sealRun := e.2.sealRun.map fun r => { r with origin := fix r.origin } })
  let toks := s.dig.toks.map fun (e : Nat × Tok) => (e.1, { e.2 with origin := e.2.origin.map fix })
  let grant := s.links.grant.map fun g => { g with origin := fix g.origin }
  { s with rgn := { s.rgn with rows := rows }, dig := { s.dig with toks := toks }, links := { s.links with grant := grant } }

/-- Ends a command before its engine has (R312, R326): its sheaf and its held host writes are dropped. -/
def State.abortCmd (s : State) (q k status detail : Nat) : State :=
  match s.cmd q k with
  | none => s
  | some c =>
    if c.st = .done then s
    else
      let s := (s.forget q k).dropSheaf q k
      let held := s.mem.held.filter fun h => match h.what with | .dma q' k' => !(q' == q && k' == k) | _ => true
      (s.withMem { s.mem with held := held }).svcDone q k status detail c.pos 0 0

/-- Every command of a queue that is not finished completes ABORTED. -/
def State.abortQueue (s : State) (q : Nat) : State := (s.queue q).cmds.foldl (fun s c => s.abortCmd q c.k 3 0) s

/-! ### Completion records -/

/-- Entries of a queue's rings (R303). -/
def State.qSize (s : State) (q : Nat) : Nat := 2 ^ s.fld F.svcQcfg_SIZE q

/-- The completion ring is full (R306): an entry that has not been freed is never overwritten. -/
def State.cqFull (s : State) (q : Nat) : Bool :=
  let x := s.queue q
  (x.cqTail + 1) % s.qSize q == x.cqHead

/-- The 32 bytes of a completion record (Table 2). -/
def State.recordBytes (s : State) (q : Nat) (c : Cmd) : Bytes :=
  leBytes 4 c.desc.tag ++ leBytes 1 c.status ++ [if (s.queue q).phase then 1 else 0] ++ leBytes 2 c.idx ++
    leBytes 1 c.detail ++ zeros 3 ++ leBytes 4 c.count ++ leBytes 8 c.res0 ++ leBytes 8 c.res1

/-- A ring entry in host memory may be used (R332, R334, R341): the queue's binding is live, its slot still holds a key and
has a unit left, and the entry lies in the host window. -/
def State.hostEntry (s : State) (q addr len : Nat) : Option Binding :=
  match s.binding false q with
  | none => none
  | some b =>
    let k := s.slot b.slot
    if k.kind ≠ .host ∨ k.dref = 0 ∨ 2 ^ 40 < k.usage + 1 ∨ s.inWindow (s.qPart q) addr len = false then none else some b

/-- A ring in device memory lies within one region of the queue's partition with PERM bits 0 and 1 (R303). -/
def State.deviceRing (s : State) (part base len : Nat) : Bool :=
  (s.operandRow part false base len 0).isSome && (s.operandRow part false base len 1).isSome

/-- One 32 B entry of a ring in device memory is written in its line, whose other bytes are what memory holds: free values
here. It answers whether the line was admitted. -/
def State.putEntry (s : State) (part addr : Nat) (b : Bytes) : Bool × State :=
  let other := bvBytes (s.freeVal 256)
  let l := if addr / 32 % 2 = 0 then b ++ other else other ++ b
  s.freed.engineLine part (addr / 64 * 64) (toLine l) none

/-- The completion entry of a queue that comes next: its address and size. -/
def State.cqEntry (s : State) (q : Nat) : Bool × Nat :=
  let host := s.fld F.svcQcbase_LOC q == 1
  (host, s.fld F.svcQcbase_BASE q * 4096 + (if host then 48 else 32) * (s.queue q).cqTail)

/-- Puts a command's record into its queue's completion ring (R306, R331), where that can be written. -/
def State.putRecord (s : State) (q : Nat) (c : Cmd) : Bool × State :=
  let (host, addr) := s.cqEntry q
  let part := s.qPart q
  if host then
    match s.hostEntry q addr 48 with
    | none => (false, s)
    | some b =>
      let (ct, tag) := gcmSeal (s.slot b.slot).key (hostIv 1 1 q b.cq 0) [] (s.recordBytes q c)
      let s := (s.chargeHost b.slot 1).setBinding { b with cq := b.cq + 1 }
      (true, (State.hostWrite (s.qAtt q) (s.pasid false q) 2 s addr (ct ++ bvBytes tag)).logHost part addr 48)
  else if s.deviceRing part (s.fld F.svcQcbase_BASE q * 4096) (32 * s.qSize q) then s.putEntry part addr (s.recordBytes q c)
  else (false, s)

/-- A drained queue is DISABLED (R326). -/
def State.settleQueue (s : State) (q : Nat) : State :=
  let x := s.queue q
  if x.state = .draining ∧ x.cmds = [] then s.setQueue q { x with state := .disabled } else s

/-- A command leaves its place, and what its record says is counted (Tables 9 and 10). -/
def State.dropCmd (s : State) (q : Nat) (c : Cmd) : State :=
  let x := s.queue q
  let s := s.setQueue q { x with cmds := x.cmds.filter (·.k != c.k) }
  let s := if c.status = 6 then s.incFld F.svcQerr_BAD_DESC q else s
  let s := if c.status = 2 then s.incFld F.svcQerr_TIMEOUT q else s
  let s := if c.status = 7 then s.incFld F.scuErr_KEY_LIMIT else s
  let s := if c.status = 4 then s.incFld F.scuErr_PARTIAL else s
  s.settleQueue q

/-- A record has been written (R306): the entry is taken, the parity inverts at a wrap, and the queue's vector is raised
when asked. -/
def State.endRecord (s : State) (q : Nat) (c : Cmd) : State :=
  let x := s.queue q
  let n := (x.cqTail + 1) % s.qSize q
  let s := s.setQueue q { x with cqTail := n, phase := if n = 0 then !x.phase else x.phase,
                                 progress := (x.progress + 1) % 2 ^ 32 }
  let s := s.count 472 1
  let att := s.fld F.svcQcfg_ATT q
  let irq := bit c.desc.flags 2 && s.fld F.svcQcfg_IRQ_EN q == 1 && (att == 1 || att == 2)
  (if irq then s.emit (.msix (att - 1) (s.fld F.svcQcfg_VEC q)) else s).dropCmd q c

/-- A record that cannot be written is discarded and counted (R345, R415). -/
def State.loseRecord (s : State) (q : Nat) (c : Cmd) : State :=
  (s.incFld F.partErr_RECORD_LOST (s.qPart q)).dropCmd q c

/-- The records of a queue's finished commands are written as far as its ring has room, and lost otherwise. -/
def State.flushQueue (s : State) (q : Nat) : State :=
  (s.queue q).cmds.foldl (fun s c =>
    if c.st ≠ .done then s
    else if s.cqFull q then s.loseRecord q c
    else
      let (ok, s) := s.putRecord q c
      if ok then s.endRecord q c else s.loseRecord q c) s

/-! ### Transfers of bounce channels -/

/-- The 32 bytes of a transfer descriptor with its status (Table 5). -/
def Xfer.bytes (f : Xfer) : Bytes :=
  leBytes 1 f.op ++ leBytes 1 ((if f.step.isSome then 1 else 0) + (if f.actr.isSome then 2 else 0)) ++
  leBytes 2 (f.step.getD 0) ++ leBytes 2 f.kidx ++ leBytes 2 (f.actr.getD 0) ++ leBytes 4 f.len ++
  leBytes 1 (128 + f.status) ++ leBytes 1 f.detail ++ zeros 2 ++ leBytes 8 f.dev ++ leBytes 8 f.host

/-- The ring address of a channel's descriptor. -/
def State.bEntry (s : State) (c idx : Nat) : Nat := s.fld F.hostBring_BASE c * 4096 + 32 * idx

/-- A transfer completes (R342, R343): its status is written in place, and an arrival counter that it names counts when it
has succeeded; one that is not VALID, or of another partition, gets ERR. -/
def State.endXfer (s : State) (c : Nat) (f : Xfer) : State :=
  let p := s.cPart c
  let (_, s) := s.putEntry p (s.bEntry c f.idx) f.bytes
  let s := match f.actr with
    | some i =>
      if f.status ≠ 0 then s
      else
        let a := s.actr i
        if a.valid ∧ a.part = p then s.countArrival i 1 s.unit else s.setActr i { a with err := true }
    | none => s
  let x := s.chan c
  let left := x.xfers.filter fun (g : Xfer) => g.no != f.no
  let st := if x.state = .draining ∧ left = [] then QState.disabled else x.state
  s.setChan c { x with xfers := left, progress := (x.progress + 1) % 2 ^ 32, state := st }

/-- The transfers of a channel that are not finished complete ABORTED, one that waits for translations too. -/
def State.abortChan (s : State) (c : Nat) : State :=
  let held := s.mem.held.filter fun h => match h.what with | .xfer c' _ => c' != c | _ => true
  let s := s.withMem { s.mem with held := held }
  let x := s.chan c
  let fs := updWhere (fun (f : Xfer) => !f.done) (fun f => { f with done := true, status := 3, data := [] })
    (x.xfers ++ x.waiting.toList)
  s.setChan c { x with xfers := fs, waiting := none }

/-- The finished transfers of a channel are completed in ring order (R342). -/
def State.flushChan (s : State) (c : Nat) : State :=
  ((s.chan c).xfers.takeWhile (·.done)).foldl (fun s f => s.endXfer c f) s

/-! ### The objects of a partition -/

/-- The queues of a partition that are not DISABLED. -/
def State.queuesOf (s : State) (p : Nat) : List Nat :=
  (s.svc.queues.filter fun e => decide (e.2.state ≠ .disabled) && s.qPart e.1 == p).map (·.1)

/-- The channels of a partition that are not DISABLED. -/
def State.chansOf (s : State) (p : Nat) : List Nat :=
  (s.host.chans.filter fun e => decide (e.2.state ≠ .disabled) && s.cPart e.1 == p).map (·.1)

/-- Disables a queue whose work is done. -/
def State.offQueue (s : State) (q : Nat) : State :=
  (s.setQueue q { s.queue q with state := .disabled, cmds := [] }).setFld F.svcQcfg_ENABLE 0 q

/-- Disables a channel whose work is done. -/
def State.offChan (s : State) (c : Nat) : State :=
  (s.setChan c { s.chan c with state := .disabled, xfers := [], waiting := none }).setFld F.hostBcfg_ENABLE 0 c

/-- Everything fetched for a partition is finished. -/
def State.partQuiet (s : State) (p : Nat) : Bool :=
  ((s.queuesOf p).all fun q => (s.queue q).cmds.all fun c => decide (c.st = .done)) &&
  ((s.chansOf p).all fun c => (s.chan c).xfers.all (·.done) && (s.chan c).waiting.isNone) && !s.host.reads.any (·.part == p)

/-- The commands and transfers of a partition end ABORTED (R345, R415). -/
def State.abortPart (s : State) (p : Nat) : State :=
  let s := (s.queuesOf p).foldl State.abortQueue s
  (s.chansOf p).foldl State.abortChan s

/-- The records and statuses of a partition's finished work are written, or lost. -/
def State.flushPart (s : State) (p : Nat) : State :=
  let s := (s.queuesOf p).foldl State.flushQueue s
  (s.chansOf p).foldl State.flushChan s

/-- Every open step of a partition is poisoned, its held egress is discarded, and a pending commit of it completes
POISONED (R132, R345, R415). -/
def State.poisonPart (s : State) (p : Nat) : State :=
  let steps := (s.stile.steps.filter fun e => decide (e.2.st ≠ .idle) && e.2.part == p).map (·.1)
  ((steps.map s.boundSteps).flatten.eraseDups).foldl State.poisonOne s

/-- The contexts, watches, sessions, arrival counters and pending SHEAF commands of a partition end, and the capability map
entries held for it go (R345, R415). -/
def State.freePart (s : State) (p : Nat) : State :=
  let s := (s.dig.stv.ctxs.filter fun e => e.2.part == p && decide (e.2.st ≠ .free)).foldl (fun s e => s.freeCtx e.1) s
  let s := (s.dig.watches.filter fun e => e.2.part == p && decide (e.2.st ≠ .free)).foldl (fun s e =>
    (s.disarm e.1).setFld F.watchEvt_CROSSED (setBits (s.fld F.watchEvt_CROSSED) e.1 1 0)) s
  let s := (s.dig.toks.filter fun e => e.2.part == p && decide (e.2.st ≠ .free)).foldl (fun s e =>
    let s := s.setTok e.1 {}
    match e.2.origin with | some o => s.tokEnd o 0 | none => s) s
  let s := (s.dig.shf.jobs.filter (·.part == p)).foldl (fun s j => s.abortCmd j.q j.k 3 0) s
  let s := (s.links.actrs.filter fun e => e.2.part == p && e.2.valid).foldl (fun s e => s.setActr e.1 {}) s
  s.withLinks { s.links with caps := s.links.caps.filter (·.part != p) }

/-- Ends the session of a mailbox, or of the MCTP path (65): each of its slots loses its driver reference (R338). -/
def State.endSession (s : State) (m : Nat) : State :=
  match tget none s.host.sessions m with
  | none => s
  | some x =>
    let s := { s with host := { s.host with sessions := tdel s.host.sessions m } }
    let s := x.slots.foldl (fun s k =>
      let e := s.slot k
      if e.kind = .host then s.putSlot k { e with dref := e.dref - 1 } else s) s
    if m < 65 then (s.wr .hostMboxSess 0 m).setFld F.hostMboxCtl_SESSION 0 m else s

/-! ### Partition commands -/

/-- A command on a partition has ended (R437): 0 HEDGE, 1 UNHEDGE, 2 WINNOW, 3 instance reset, and its RESULT. -/
def State.partTrace (s : State) (p kind result : Nat) : State := s.trace 4 1 (Src.fault.at 0) (some p) kind result 0

/-- Ends a command of LZ_FLT_HEDGE. -/
def State.hedgeEnd (s : State) (p kind result : Nat) : State :=
  ((s.setFld F.fltHedge_RESULT result).setFld F.fltHedge_BUSY 0).partTrace p kind result

/-- Ends an instance reset (R345). -/
def State.instEnd (s : State) (p result : Nat) : State :=
  let s := s.setPart p { s.part p with instReset := none }
  (((s.setFld F.partCtl_RESULT result p).setFld F.partCtl_BUSY 0 p).partTrace p 3 result)

/-- An instance reset goes on (R345): once everything fetched has ended and no host DMA is outstanding, the steps of the
partition are poisoned, its objects end, its queues and channels are disabled, its session ends, MIGRATE clears, and the
hedge is lifted. -/
def State.instGo (s : State) (p : Nat) : State :=
  match (s.part p).instReset with
  | none => s
  | some r =>
    if r.step ≠ 2 ∨ !s.partQuiet p then s
    else
      let s := (s.flushPart p).poisonPart p
      let s := (s.queuesOf p).foldl State.offQueue s
      let s := (s.chansOf p).foldl State.offChan s
      let s := ((s.freePart p).endSession p).setFld F.partCtl_MIGRATE 0 p
      ((s.removeCause p .reset).incFld F.partErr_RESETS p).instEnd p 0

/-- A winnow goes on (R415): step 2 ends with the partition's host DMA reads, step 6 with its regions, and step 7 with the
scrub, which clears cause WINNOW. -/
def State.winnowGo (s : State) (p : Nat) : State :=
  match (s.part p).winnow with
  | none => s
  | some w =>
    if w.step = 2 then
      if s.host.reads.any (·.part == p) then s else s.setPart p { s.part p with winnow := some { w with step := 3 } }
    else if w.step = 6 then
      if s.rgn.rows.any fun e => e.2.part == p && decide (e.2.state ≠ .free) then s
      else if w.scrubDone then
        ((s.setPart p { s.part p with winnow := none }).removeCause p .winnow).hedgeEnd p 2 0
      else s.setPart p { s.part p with winnow := some { w with step := 7 } }
    else if w.step = 7 ∧ w.scrubDone then
      ((s.setPart p { s.part p with winnow := none }).removeCause p .winnow).hedgeEnd p 2 0
    else s

/-- What waits for work of a partition goes on. -/
def State.partGo (s : State) (p : Nat) : State := (s.instGo p).winnowGo p

end Sys2Proof.Machine
end

