-- ==== Sys2Proof/Machine/Service.lean ====
section
/-! DEFINITION. Service queues (R303 to R312, R326, R332): doorbells, fetches, completions, timeouts, and the engine resets
that a timeout may bring (R411). -/

namespace Sys2Proof.Machine

/-! ### Enabling and disabling -/

/-- SQ_DOORBELL (R304, R305): taken only on the queue's bound attach port; an index beyond the ring is ignored and
counted. -/
def execSqDoorbell (port q : Nat) (v : Word) (s : State) : Res :=
  if 256 ≤ q ∨ !s.regsOpen then .next s
  else if port ≠ s.fld F.svcQcfg_ATT q then .next ((s.incFld F.svcQerr_DB_REFUSED q).regRsp port 0 true)
  else
    let w := v.toNat
    let x := s.queue q
    let s := s.regRsp port 0 false
    if x.state = .disabled ∨ x.state = .draining then .next s
    else
      let n := s.qSize q
      let tail := bits w 0 12
      let head := bits w 16 12
      let s := if bit w 12 then
          (if n ≤ tail then s.incFld F.svcQerr_DB_REFUSED q
           else (s.setQueue q { s.queue q with sqTail := tail }).setFld F.svcQdoorbell_SQ_TAIL tail q)
        else s
      let s := if bit w 28 then
          (if n ≤ head then s.incFld F.svcQerr_DB_REFUSED q
           else (s.setQueue q { s.queue q with cqHead := head }).setFld F.svcQdoorbell_CQ_HEAD head q)
        else s
      .next s

/-- The reasons that refuse an ENABLE (R332), for a queue or a channel: HKIDX, whether it has host rings, its port and its
partition. -/
def State.bindRefused (s : State) (chan : Bool) (obj hkidx : Nat) (hostRings : Bool) (port part : Nat) : Bool :=
  let mine := fun (b : Binding) => b.chan == chan && b.obj == obj
  let box := tget 0 s.host.slotBox hkidx
  (decide (hkidx ≠ 0) &&
    (decide ((s.slot hkidx).kind ≠ .host) || s.host.bindings.any (fun b => b.slot == hkidx && (b.spent || !mine b))
     || (decide (box ≠ 0 ∧ box ≠ 65) && box != part + 1)
     || (!s.host.bindings.any (·.slot == hkidx) && decide (512 ≤ s.host.bindings.length)))) ||
  (hostRings && !(port == 1 || port == 2))

/-- Binds an object to its HOST slot: the first ENABLE starts its ordinals, a later one continues them (R332). -/
def State.bind (s : State) (chan : Bool) (obj hkidx : Nat) : State :=
  if hkidx = 0 ∨ s.host.bindings.any (·.slot == hkidx) then s
  else { s with host := { s.host with bindings := s.host.bindings ++ [({ slot := hkidx, chan := chan, obj := obj } : Binding)] } }

/-- Ends the binding of an object whose HKIDX changes while it is disabled (R332): its old slot is SPENT. -/
def State.unbind (s : State) (chan : Bool) (obj : Nat) : State :=
  let f := fun (b : Binding) => { b with spent := true }
  { s with host := { s.host with
    bindings := updWhere (fun (b : Binding) => b.chan == chan && b.obj == obj) f s.host.bindings } }

/-- Enables a queue: its indices are zero, its parity is 1, and its HOST slot is bound (R307, R332). -/
def State.enableQueue (s : State) (q : Nat) : State :=
  let x := s.queue q
  let s := (s.bind false q (s.fld F.svcQcfg_HKIDX q)).setFld F.svcQcfg_ENABLE 1 q
  s.setQueue q { x with state := .running, sqTail := 0, sqHead := 0, cqTail := 0, cqHead := 0, phase := true, cmds := [] }

/-- An object of a radio partition may be enabled only when its attach port is the owner's (R35). -/
def State.radioBars (s : State) (part port : Nat) : Bool := (s.plotOf part).radio && port != s.ownerPort

/-- The ENABLE of a queue is refused (R332). -/
def State.queueRefused (s : State) (q : Nat) : Bool :=
  s.bindRefused false q (s.fld F.svcQcfg_HKIDX q)
    (s.fld F.svcQbase_LOC q == 1 || s.fld F.svcQcbase_LOC q == 1) (s.fld F.svcQcfg_ATT q) (s.qPart q)

/-- QUEUE_ENABLE (R307, R332, R35). -/
def execQueueEnable (port q : Nat) (s : State) : Res :=
  if 256 ≤ q then .next s
  else .next <|
    if s.regsOpen ∧ port = s.ownerPort ∧ s.fld F.svcQcfg_ENABLE q = 0 ∧ (s.queue q).state = .disabled ∧ s.queueRefused q then
      (s.incFld F.hostErr_BIND_REFUSED).regRsp port 0 true
    else s.ownerCmd port (decide ((s.queue q).state = .draining) || s.radioBars (s.qPart q) (s.fld F.svcQcfg_ATT q))
        F.svcQerr_REG_ERR (ei := q) fun s =>
      if (s.queue q).state = .disabled then s.enableQueue q else s

/-- Disables a queue (R326): no more fetches, and the commands in flight complete ABORTED. -/
def State.disableQueue (s : State) (q : Nat) : State :=
  let x := s.queue q
  if x.state = .disabled then s
  else ((s.setQueue q { x with state := .draining }).abortQueue q).settleQueue q

/-- QUEUE_DISABLE (R326). -/
def execQueueDisable (port q : Nat) (s : State) : Res :=
  if 256 ≤ q then .next s
  else .next <| s.ownerCmd port false F.svcQerr_REG_ERR (ei := q) fun s => (s.setFld F.svcQcfg_ENABLE 0 q).disableQueue q

/-! ### Fetches -/

/-- A queue stops (R307, R332, R340). -/
def State.stopQueue (s : State) (q : Nat) : State := s.setQueue q { s.queue q with state := .stopped }

/-- A slot that a fetched command names and whose last reference has gone is torn down before the command refers to it
(R191). -/
def State.buryDead (s : State) (d : Desc) : State :=
  [d.kidx, d.arg16].foldl (fun s n =>
    if (s.slot n).kind ≠ .empty ∧ s.refCount n = 0 then s.teardown n else s) s

/-- A command fetched from entry `idx` is admitted or refused (R308, R311) and takes the lowest free place; its ordinal is
that of its entry since the binding (R332). -/
def State.takeDesc (s : State) (q : Nat) (b : Bytes) : State :=
  let s := s.buryDead (Desc.raw b)
  let x := s.queue q
  let k := ((upto 0 16).find? fun k => !x.cmds.any (·.k == k)).getD 0
  let bnd := s.binding false q
  let owner := s.fld F.svcQcfg_ATT q == s.ownerPort
  let c : Cmd := { k := k, idx := x.sqHead, ord := match bnd with | some b => b.sq | none => 0,
                   desc := Desc.raw b, owner := owner }
  let c := match s.admitDesc q owner (Desc.parse b) with
    | some st => { c with st := .done, status := st }
    | none => c
  let s := match bnd with | some b => s.setBinding { b with sq := b.sq + 1 } | none => s
  let s := if c.st = .done then s.countSheaf c.desc.op c.status else s
  s.setQueue q { x with sqHead := (x.sqHead + 1) % s.qSize q, cmds := x.cmds ++ [c] }

/-- DESCRIPTOR_FETCH (R303 to R308, R311, R330, R331): the next entry is read, and opened where it stands in host memory;
one that fails stops the queue. -/
def execDescriptorFetch (q : Nat) (d : OpenOut) (s : State) : Res :=
  let x := s.queue q
  let part := s.qPart q
  let p := s.part part
  if 256 ≤ q ∨ x.state ≠ .running ∨ x.sqHead = x.sqTail ∨ 16 ≤ x.cmds.length ∨ s.cqFull q ∨ p.instReset.isSome
      ∨ p.winnow.isSome then .next s
  else
    let base := s.fld F.svcQbase_BASE q * 4096
    if s.fld F.svcQbase_LOC q = 1 then
      let addr := base + 80 * x.sqHead
      let att := s.qAtt q
      let pasid := s.pasid false q
      match s.hostEntry q addr 80 with
      | none =>
        let s := if s.inWindow part addr 80 then s else s.incFld F.partErr_HOST_REFUSED part
        .next (s.stopQueue q)
      | some b =>
        if s.deniedPage att pasid addr 80 0 then .next ((s.incFld F.hostErr_TRANS_FAIL).stopQueue q)
        else if !(s.missingPages att pasid addr 80).isEmpty then
          .next (s.askPages att pasid (.ring q) (s.missingPages att pasid addr 80))
        else
          let tag := s.freeVal 10
          let s := State.hostAsk att pasid tag 2 ((s.freed.chargeHost b.slot 1).spend (hostEnergy 80)) addr 80
          let iv := fun _ => hostIv 0 0 q b.sq 0
          match if d.ok ∧ d.bytes.length = 80 then openSegs (s.slot b.slot).key iv 1 0 d.bytes else none with
          | some e => .next (s.takeDesc q e)
          | none => .next ((s.incFld F.hostErr_OPEN_FAIL).stopQueue q)
    else if !s.deviceRing part base (64 * s.qSize q) ∨ !d.ok ∨ d.bytes.length ≠ 64 then .next (s.stopQueue q)
    else .next (s.takeDesc q d.bytes)

/-! ### Completions -/

/-- COMPLETION_WRITE (R306): a finished command's record is written when the completion ring has room; an instance reset
does not wait for room (R345). -/
def execCompletionWrite (q k : Nat) (s : State) : Res :=
  match s.cmd q k with
  | none => .next s
  | some c =>
    let part := s.qPart q
    if c.st ≠ .done then .next s
    else if s.cqFull q then .next (s.partGo part)
    else
      let att := s.qAtt q
      let pasid := s.pasid false q
      let (host, addr) := s.cqEntry q
      let miss := if host then s.missingPages att pasid addr 48 else []
      if host && s.deniedPage att pasid addr 48 1 then
        .next ((((s.incFld F.hostErr_TRANS_FAIL).stopQueue q).dropCmd q c).partGo part)
      else if !miss.isEmpty then .next (s.askPages att pasid (.ring q) miss)
      else
        let (ok, s) := s.putRecord q c
        if ok then .next ((s.endRecord q c).partGo part)
        else .next (((s.stopQueue q).dropCmd q c).partGo part)

/-! ### Timeouts and the engines they reset -/

/-- The running commands with an opcode of a set end ABORTED. -/
def State.abortOps (s : State) (p : Nat → Bool) : State :=
  s.svc.queues.foldl (fun s e =>
    e.2.cmds.foldl (fun s c => if c.st = .running && p c.desc.op then s.abortCmd e.1 c.k 3 0 else s) s) s

/-- The SCU's opcodes (Table 3). -/
def scuOp (op : Nat) : Bool := decide (1 ≤ op ∧ op ≤ 6)

/-- The PKU's opcodes (Table 3). -/
def pkuOp (op : Nat) : Bool := decide (op = 0x13 ∨ (0x50 ≤ op ∧ op ≤ 0x52))

/-- Reset of the SCU (Table 4 of the faults chapter): executing commands are ABORTED; usage stays charged. -/
def State.resetScu (s : State) : State := s.abortOps scuOp

/-- Reset of the PKU (Table 4 of the faults chapter): a tenant operation is ABORTED. -/
def State.resetPku (s : State) : State := s.abortOps pkuOp

/-- The Stavub engine's opcodes (Table 3). -/
def stvOp (op : Nat) : Bool := decide (0x30 ≤ op ∧ op ≤ 0x33)

/-- Reset of the Stavub engine (R225): executing commands are ABORTED, and every context is freed. -/
def State.resetStv (s : State) : State := (s.abortOps stvOp).resetStavub

/-- Reset of the sheaf assembler (Table 4 of the faults chapter): the open stook and the one that signs are lost, pending
SHEAF commands are ABORTED, and the sequences taken are not used again. -/
def State.resetShf (s : State) : State :=
  let s := s.abortOps (· == 0x40)
  s.withShf { s.dig.shf with jobs := [], leaves := [], closeDue := none, signing := none }

/-- A KEY_ORIGIN command that waits because the DRBG refuses a request with prediction resistance (R196). -/
def State.originWaits (s : State) (q : Nat) (c : Cmd) : Bool :=
  decide (c.desc.op = 0x13 ∧ s.life.lc ≠ .test) && s.canStart q c && !s.predOk

/-- Whether a command's effect stands when its timeout ends it (R312): those of the register sets change their object at
their start. -/
def Desc.stands (d : Desc) : Bool := decide ((0x10 ≤ d.op ∧ d.op ≤ 0x12) ∨ (0x20 ≤ d.op ∧ d.op ≤ 0x3A) ∨ (0x48 ≤ d.op ∧ d.op ≤ 0x4C))

/-- QUEUE_TIMEOUT (R312): the command completes TIMEOUT; an engine that has not drained 10 µs later is reset, and what
else it executed is ABORTED. The timeout stands still while the partition is halted. A KEY_ORIGIN that waits for the DRBG
completes FAILED with DETAIL DRBG (R196). -/
def execQueueTimeout (q k : Nat) (drained : Bool) (s : State) : Res :=
  match s.cmd q k with
  | none => .next s
  | some c =>
    if (s.part (s.qPart q)).haltAck then .next s
    else if s.originWaits q c then .next (s.svcDone q k 1 8 0 0 0)
    else if c.st ≠ .running then .next s
    else
      let op := c.desc.op
      let s := s.abortCmd q k 2 (if c.desc.stands then 1 else 0)
      if drained then .next s
      else if scuOp op then .next (s.resetScu.record .engineReset .scu 0 none 2 1)
      else if pkuOp op then .next (s.resetPku.record .engineReset .pku 0 none 2 1)
      else if stvOp op then .next (s.resetStv.record .engineReset .core 0 none 2 1)
      else if op = 0x40 then .next (s.resetShf.record .engineReset .sheaf 0 none 2 1)
      else .next s

/-- NOP (R311). -/
def execNop (q k : Nat) (s : State) : Res := .next (s.svcCmd q k 0x00 fun _ s => s.svcDone q k 0 0 0 0 0)

end Sys2Proof.Machine
end

