-- ==== Sys2Proof/Machine/Cipher.lean ====
section
/-! DEFINITION. The service cipher unit and the public-key unit (R313 to R322): AES, XTS, gang mode, wrapped keys,
key-origin statements, hashes and verifications; and the stored drills (R323 to R325). -/

namespace Sys2Proof.Machine

/-! ### What a command computes -/

/-- AES-256 of each 16 B block (R315). -/
def aesBytes (dec : Bool) (k : Key) (b : Bytes) : Bytes :=
  ((blocksOf b).map fun x => bvBytes (if dec then Config.aes256Inv k x else Config.aes256 k x)).flatten

/-- The data unit size of a code (R316). -/
def unitSize (code : Nat) : Nat := 512 * 2 ^ code

/-- XTS-AES-256 of consecutive data units, the first of them number `n` (R316). -/
def xtsBytes (enc : Bool) (k1 k2 : Key) (size : Nat) : (fuel n : Nat) → Bytes → Bytes
  | 0, _, _ => []
  | fuel + 1, n, b => xtsUnit enc k1 k2 n (b.take size) ++ xtsBytes enc k1 k2 size fuel (n + 1) (b.drop size)

/-- The output for input bytes that start at payload byte `pos` of a command (R315, R316). -/
def State.scuOut (s : State) (d : Desc) (pos : Nat) (b : Bytes) : Bytes :=
  let k1 := (s.slot d.kidx).key
  if d.op ≤ 2 then aesBytes (d.op == 2) k1 b
  else
    let u := unitSize d.arg1
    xtsBytes (d.op == 3) k1 (s.slot d.arg16).key u (b.length / u) ((d.arg0 + pos / u) % 2 ^ 64) b

/-- A condition of gang mode holds (R320): READY is clear, the state is TEST, or every partition not marked radio is
hedged. -/
def State.gangOk (s : State) : Bool :=
  !s.life.ready || decide (s.life.lc = .test) || s.tenants.all fun p => s.hedged p

/-- A command runs in gang mode (R320). -/
def State.gangs (s : State) (c : Cmd) : Bool :=
  bit c.desc.flags 3 && decide (c.desc.op = 1 ∨ c.desc.op = 3) && c.owner && s.gangOk

/-- LEN and the unit code of a cipher command are in range (R314 to R316). -/
def Desc.cipherOk (d : Desc) (gang : Bool) : Bool :=
  let u := if d.op ≤ 2 then 16 else unitSize d.arg1
  (decide (d.op ≤ 2 ∨ d.arg1 < 4)) && decide (u ≤ d.len ∧ d.len % u = 0 ∧ d.len ≤ (if gang then 2 ^ 22 else 2 ^ 20)) &&
    (bit d.dst 63 || d.len % 64 == 0)

/-- The slots a cipher command charges, with their units (R318). -/
def Desc.charges (d : Desc) : List (Nat × Nat) :=
  if d.op ≤ 2 then [(d.kidx, d.len / 16)] else [(d.kidx, d.len / unitSize d.arg1), (d.arg16, d.len / unitSize d.arg1)]

/-- A charge would take a slot past its limit (R318). -/
def State.overLimit (s : State) (l : List (Nat × Nat)) : Bool :=
  l.any fun x => decide ((s.slot x.1).limit < (s.slot x.1).usage + x.2)

/-! ### Host reads of the SCU -/

/-- Asks for the next segment of a command's host source (R331, R333), under the lowest tag that is free. -/
def State.askSegment (s : State) (q : Nat) (c : Cmd) : State :=
  if c.desc.len ≤ c.input.length ∨ s.host.reads.any (fun r => !r.chan && r.obj == q && r.k == c.k && r.no == c.idx) then s
  else
    match (upto 0 1024).find? fun t => !s.host.reads.any (·.tag == t) with
    | none => s
    | some t =>
      let n := min 4096 (c.desc.len - c.input.length)
      let r : HostRead := { tag := t, att := s.qAtt q, chan := false, obj := q, k := c.k, no := c.idx,
                            part := s.qPart q, n := n }
      let s := { s with host := { s.host with reads := s.host.reads ++ [r] } }
      State.hostAsk (s.qAtt q) (s.pasid false q) (BitVec.ofNat 10 t) 3 s (c.desc.src % 2 ^ 63 + 4112 * (c.input.length / 4096)) (n + 16)

/-- Starts a cipher command (R314 to R318, R320): its length, the life-cycle state, its keys, its limits and its operands
are checked in this order, and usage is charged. `src` are the bytes of a device source, or of a gang command's; a host
source comes in by host DMA reads. -/
def State.cipherStart (s : State) (q : Nat) (c : Cmd) (src : ReadOut) : State :=
  let d := c.desc
  let gang := s.gangs c
  if !d.cipherOk gang then s.svcDone q c.k 6 0 0 0 0
  else if s.noEngines then s.svcDone q c.k 1 6 0 0 0
  else if d.charges.any (fun x => decide ((s.slot x.1).kind ≠ .service)) || (decide (3 ≤ d.op) && d.kidx == d.arg16) then
    s.svcDone q c.k 1 1 0 0 0
  else if s.overLimit d.charges then s.svcDone q c.k 7 0 0 0 0
  else s.charged q c d.len d.len fun s =>
    let s := d.charges.foldl (fun s x => s.chargeSlot x.1 x.2) s
    if bit d.src 63 && !gang then
      let c := { c with st := .running }
      (s.setCmd q c).askSegment q c
    else
      let (src, s) := s.takeSrc q c d.len src
      if !s.srcOk q c d.len src then s.srcFail q c
      else s.setCmd q { c with st := .running, gang := gang, input := src.bytes }

/-- AES_ENC (R315). -/
def execAesEnc (q k : Nat) (src : ReadOut) (s : State) : Res := .next (s.svcCmd q k 0x01 fun c s => s.cipherStart q c src)

/-- AES_DEC (R315). -/
def execAesDec (q k : Nat) (src : ReadOut) (s : State) : Res := .next (s.svcCmd q k 0x02 fun c s => s.cipherStart q c src)

/-- XTS_ENC (R316). -/
def execXtsEnc (q k : Nat) (src : ReadOut) (s : State) : Res := .next (s.svcCmd q k 0x03 fun c s => s.cipherStart q c src)

/-- XTS_DEC (R316). -/
def execXtsDec (q k : Nat) (src : ReadOut) (s : State) : Res := .next (s.svcCmd q k 0x04 fun c s => s.cipherStart q c src)

/-! ### Bursts -/

/-- The bytes of a command's next burst (R319): at most 4 KiB, which ends at a block or unit boundary. -/
def Cmd.burst (c : Cmd) : Nat := min 4096 (c.desc.len - c.pos)

/-- A command has a burst that waits for the SCU: it runs on the byte-serial datapath and its next input is here. -/
def Cmd.scuWaits (c : Cmd) : Bool :=
  decide (c.st = .running ∧ 1 ≤ c.desc.op ∧ c.desc.op ≤ 4) && !c.gang && decide (c.pos < c.desc.len)
    && decide (c.pos + c.burst ≤ c.input.length)

/-- The command of a queue whose burst is next. -/
def State.scuJob (s : State) (q : Nat) : Option Cmd := (s.queue q).cmds.find? (·.scuWaits)

/-- A partition's service-operation bucket, in thousandths of a token; none when its rate has no limit (R344). -/
def State.svcBucket (s : State) (p : Nat) : Option Nat :=
  let full := 1000 * max 1 (s.fld F.partRate_SVC_BURST p)
  if s.fld F.partRate_SVC_RATE p = 0 then none else some (min full ((tget none s.svc.scu.bucket p).getD full))

/-- The bucket of a partition admits one operation. -/
def State.svcAdmits (s : State) (p : Nat) : Bool := match s.svcBucket p with | none => true | some x => decide (1000 ≤ x)

/-- Replaces the arbiter's state. -/
def State.withScu (s : State) (x : Scu) : State := { s with svc := { s.svc with scu := x } }

/-- Takes one token of a partition's bucket. -/
def State.svcTake (s : State) (p : Nat) : State :=
  match s.svcBucket p with
  | none => s
  | some x => s.withScu { s.svc.scu with bucket := tset none s.svc.scu.bucket p (some (x - 1000)) }

/-- The first element of a rising list above `n`, or else the first at all: the next in a round robin. -/
def nextRound (l : List Nat) (n : Nat) : Option Nat := ((l.filter (n < ·)) ++ l.filter (· ≤ n)).head?

/-- The queues with a burst to grant (R319): none of a halted partition. -/
def State.scuWork (s : State) : List Nat :=
  (s.svc.queues.filter fun e => (s.scuJob e.1).isSome && !(s.part (s.qPart e.1)).haltAck).map (·.1)

/-- The queue that the next burst goes to, and the arbiter's state after it (R319). -/
def State.scuPick (s : State) : Option (Nat × Scu) :=
  let work := s.scuWork
  let x := s.svc.scu
  match work.find? fun q => s.fld F.svcQcfg_CLS q == 0 && s.svcAdmits (s.qPart q) with
  | some q => some (q, x)
  | none =>
    let parts := ((upto 0 64).filter fun p => work.any fun q => s.qPart q == p).filter s.svcAdmits
    let cont := parts.contains x.part && decide (x.count < ceilDiv (s.fld F.partWeight_WEIGHT x.part) 64)
    match if cont then some x.part else nextRound parts x.part with
    | none => none
    | some p =>
      let qs := work.filter fun q => s.qPart q == p
      let last := tget 0 x.lastQueue p
      let q0 := last / 8
      let same := decide (last ≠ 0) && qs.contains q0 && decide (last % 8 < ceilDiv (s.fld F.svcQcfg_WEIGHT q0) 64)
      match if same then some q0 else nextRound qs q0 with
      | none => none
      | some q =>
        some (q, { x with part := p, count := if cont then x.count + 1 else 1, queue := q,
                          lastQueue := tset 0 x.lastQueue p (q * 8 + (if same then last % 8 + 1 else 1)) })

/-- A cipher command whose payload is done writes its output and ends (R314); the SCU block count advances by its blocks
(R435). -/
def State.cipherEnd (s : State) (q : Nat) (c : Cmd) : State :=
  (s.count 467 (c.desc.len / 16)).finishDst q c c.output 0 0

/-- SCU_BURST (R313, R319): the next burst is granted, unless the DRBG refuses, and its blocks are processed. -/
def execScuBurst (s : State) : Res :=
  if !s.drbgOk ∨ s.engineOut 3 then .next s
  else
    match s.scuPick with
    | none => .next s
    | some (q, x) =>
      match s.scuJob q with
      | none => .next s
      | some c =>
        let n := c.burst
        let out := s.scuOut c.desc c.pos (sub c.input c.pos n)
        let s := (s.withScu { x with progress := (x.progress + n / 16) % 2 ^ 32 }).svcTake (s.qPart q)
        let c := { c with pos := c.pos + n, output := c.output ++ out }
        let s := s.drew.setCmd q c
        .next (if c.desc.len ≤ c.pos then s.cipherEnd q c else s)

/-! ### Gang mode -/

/-- The stripes of a gang command (R320). -/
def Desc.stripes (d : Desc) : Nat := ceilDiv d.len 65536

/-- Writes the output of one stripe to device memory or to the host (R320): whether it was admitted. -/
def State.stripeOut (s : State) (q : Nat) (c : Cmd) (i : Nat) (b : Bytes) : Bool × State :=
  if bit c.desc.dst 63 then
    (true, s.hostSegments (s.qAtt q) (s.pasid false q) (s.qPart q) (s.fld F.svcQcfg_HKIDX q) 3 q c.ord
      (c.drillStep * 1024 + 16 * i) (c.desc.dst % 2 ^ 63 + 4112 * 16 * i) b)
  else
    let (ok, _, s) := s.engineWrite (s.qPart q) (c.desc.dst % 2 ^ 63 + 65536 * i) c.stepOf b (s.fld F.svcQcfg_CLS q)
    (ok, s)

/-- GANG_STRIPE_DONE (R320): a stripe completes or fails on its lane; the last one ends the command, PARTIAL when any has
failed. A host output of a step that is held goes out whole at the end. -/
def execGangStripeDone (q k stripe : Nat) (ok : Bool) (s : State) : Res :=
  match s.cmd q k with
  | none => .next s
  | some c =>
    if c.st ≠ .running ∨ !c.gang ∨ c.desc.stripes ≤ stripe ∨ c.stripes.contains stripe then .next s
    else
      let off := 65536 * stripe
      let n := min 65536 (c.desc.len - off)
      let whole := bit c.desc.dst 63 && c.stepOf.isSome
      let out := s.scuOut c.desc off (sub c.input off n)
      let (good, s) := if ok && !whole then s.stripeOut q c stripe out else (ok, s)
      let s := s.count 468 1
      let c := { c with stripes := nsInsert c.stripes stripe,
                        failed := if good then c.failed else c.failed + 2 ^ stripe }
      let s := s.setCmd q c
      if c.stripes.length < c.desc.stripes then .next s
      else if c.failed ≠ 0 then .next (s.svcDone q k 4 0 0 c.failed 0)
      else
        let s := s.count 467 (c.desc.len / 16)
        if whole then .next (s.finishDst q c (s.scuOut c.desc 0 c.input) 0 0)
        else .next (s.svcDone q k 0 0 c.desc.len 0 0)

/-! ### Wrapped keys -/

/-- The 40 bytes that a wrapped key holds (R317). -/
def wrapBody (k : Slot) : Bytes := bvBytes k.key ++ [6, if k.noexport then 1 else 0] ++ leBytes 1 k.exp ++ zeros 5

/-- The wrapping key (R317): the SERVICE slot KIDX, charged three units, or the sealing key of the queue's partition; or
the status and DETAIL that end the command. -/
def State.wrapKey (s : State) (q : Nat) (c : Cmd) : Nat × Nat ⊕ Key × State :=
  let d := c.desc
  if s.noEngines then .inl (1, 6)
  else if bit d.flags 4 then
    if !s.canDerive then .inl (1, 6)
    else .inr (s.sealingKey (s.qPart q) (leBytes 8 d.arg0 ++ leBytes 8 d.arg1 ++ leBytes 8 d.arg2), s.count 450 1)
  else if (s.slot d.kidx).kind ≠ .service then .inl (1, 1)
  else if s.overLimit [(d.kidx, 3)] then .inl (7, 0)
  else .inr ((s.slot d.kidx).key, s.chargeSlot d.kidx 3)

/-- KEY_WRAP (R317). -/
def execKeyWrap (q k : Nat) (s : State) : Res :=
  .next (s.svcCmd q k 0x05 fun c s =>
    match s.wrapKey q c with
    | .inl (st, detail) => s.svcDone q k st detail 0 0 0
    | .inr _ =>
      let w := s.slot c.desc.arg16
      if w.kind ≠ .service ∨ w.origin ≠ .imported ∨ w.noexport then s.svcDone q k 1 1 0 0 0
      else s.charged q c 0 48 fun s =>
        match s.wrapKey q c with
        | .inl (st, detail) => s.svcDone q k st detail 0 0 0
        | .inr (key, s) => s.finishDst q c (kwWrap key (wrapBody w)) 0 0)

/-- The attributes of an unwrapped key, when they are ones that a wrapped key may carry (R317). -/
def unwrapBody (b : Bytes) : Option Slot :=
  if b.length = 40 ∧ le b 32 1 = 6 ∧ le b 33 1 < 2 ∧ 10 ≤ le b 34 1 ∧ le b 34 1 ≤ 40 ∧ zeroAt b 35 5 = true then
    some { kind := .service, origin := .imported, noexport := le b 33 1 == 1, exp := le b 34 1, dref := 1,
           key := BitVec.ofNat 256 (ofLE (b.take 32)) }
  else none

/-- KEY_IMPORT (R317): the key goes into the lowest EMPTY general slot. -/
def execKeyImport (q k : Nat) (src : ReadOut) (s : State) : Res :=
  .next (s.svcCmd q k 0x06 fun c s =>
    match s.wrapKey q c with
    | .inl (st, detail) => s.svcDone q k st detail 0 0 0
    | .inr _ => s.charged q c 48 0 fun s =>
      let (src, s) := s.takeSrc q c 48 src
      if !s.srcOk q c 48 src then s.srcFail q c
      else
        match s.wrapKey q c with
        | .inl (st, detail) => s.svcDone q k st detail 0 0 0
        | .inr (key, s) =>
          match (kwUnwrap key src.bytes).bind unwrapBody with
          | none => (s.incFld F.scuErr_UNWRAP).svcDone q k 1 4 0 0 0
          | some x =>
            match s.freeSlot .service with
            | none => s.svcDone q k 1 5 0 0 0
            | some n =>
              let s := s.putSlot n x
              (if c.owner then s else s.tenantRef n (s.qPart q)).svcDone q k 0 0 48 n 0)

/-! ### Key-origin statements -/

/-- The key-origin statement of a slot over a nonce (Table 6 of the keys chapter), with its signatures; in TEST they are
zero and ORIGIN reads TEST_ROOT. -/
def State.keyOriginStatement (s : State) (slot : Nat) (nonce : Bytes) : Bytes × State :=
  let k := s.slot slot
  let test := decide (s.life.lc = .test)
  let fp := Config.kmac256 (bvBytes k.key) [] 384 (ascii "LZFP1")
  let body := ascii "LZKO" ++ leBytes 2 1 ++ zeros 2 ++ bvBytes s.ident ++ leBytes 2 slot ++ leBytes 1 k.kind.code ++
    leBytes 1 (if test then 4 else k.origin.code) ++ [if k.noexport then 1 else 0] ++ zeros 3 ++ bvBytes fp ++
    bvBytes (if k.origin = .derived then k.meas else 0) ++ leBytes 8 s.keys.epochCount ++ leBytes 8 s.life.time ++ nonce
  if test then (body ++ zeros 4723, s)
  else
    let (sig, s) := s.signBoth body (ascii "LZKO")
    (body ++ sig, s)

/-- KEY_ORIGIN (R192, R311, R169, R196): for a slot of any kind except EMPTY; in BLANK it fails with DETAIL LC, and while
the DRBG refuses its signatures' draws it waits. -/
def execKeyOrigin (q k : Nat) (nonce : ReadOut) (s : State) : Res :=
  .next (s.svcCmd q k 0x13 fun c s =>
    if s.life.lc = .blank then s.svcDone q k 1 6 0 0 0
    else if (s.slot c.desc.arg16).kind = .empty then s.svcDone q k 1 1 0 0 0
    else if s.life.lc ≠ .test ∧ !s.predOk then s.setCmd q c
    else s.charged q c 32 4899 fun s =>
      let (nonce, s) := s.takeSrc q c 32 nonce
      if !s.srcOk q c 32 nonce then s.srcFail q c
      else
        let (b, s) := s.keyOriginStatement c.desc.arg16 nonce.bytes
        s.finishDst q c b 0 0)

/-! ### The PKU's tenant operations -/

/-- A tenant operation of the PKU (R321, R344): it takes a token of its partition's bucket, and waits without one; it runs
on the bytes of its source. -/
def State.tenantOp (s : State) (q : Nat) (c : Cmd) (srcLen dstLen : Nat) (src : ReadOut) (f : Bytes → State → State) :
    State :=
  let p := s.qPart q
  if !s.svcAdmits p || s.engineOut 6 then s.setCmd q c
  else s.charged q c srcLen dstLen fun s =>
    let (src, s) := s.takeSrc q c srcLen src
    if srcLen ≠ 0 ∧ !s.srcOk q c srcLen src then s.srcFail q c
    else
      let s := (s.svcTake p).count 470 1
      f src.bytes (s.withScu { s.svc.scu with pkuProgress := (s.svc.scu.pkuProgress + 1) % 2 ^ 32 })

/-- The digest of PK_HASH's functions (R322); none for another value of ARG16. -/
def pkDigest (alg : Nat) (b : Bytes) : Option Bytes :=
  match alg with
  | 0 => some (bvBytes (Config.sha2_256 b))
  | 1 => some (bvBytes (Config.sha2_384 b))
  | 2 => some (bvBytes (Config.sha2_512 b))
  | 3 => some (bvBytes (Config.sha3_256 b))
  | 4 => some (bvBytes (Config.sha3_384 b))
  | 5 => some (bvBytes (Config.sha3_512 b))
  | _ => none

/-- The digest lengths of PK_HASH's functions. -/
def pkLen (alg : Nat) : Nat := if alg % 3 = 0 then 32 else if alg % 3 = 1 then 48 else 64

/-- PK_HASH (R322). -/
def execPkHash (q k : Nat) (src : ReadOut) (s : State) : Res :=
  .next (s.svcCmd q k 0x50 fun c s =>
    let d := c.desc
    match pkDigest d.arg16 [] with
    | none => s.svcDone q k 6 0 0 0 0
    | some _ =>
      if 2 ^ 20 < d.len then s.svcDone q k 6 0 0 0 0
      else s.tenantOp q c d.len (pkLen d.arg16) src fun b s =>
        s.finishDst q c ((pkDigest d.arg16 (b.take d.len)).getD []) 0 0)

/-- Whether the operand of PK_MLDSA_VERIFY is a valid signature; one that cannot be parsed is not (R322). -/
def mldsaOperand (b : Bytes) : Bool :=
  let n := le b 7219 1
  zeroAt b (7220 + n) (255 - n) && Config.mldsaVerify (b.take 2592) (b.drop 7475) (sub b 7220 n) (sub b 2592 4627)

/-- PK_MLDSA_VERIFY (R322). -/
def execPkMldsaVerify (q k : Nat) (src : ReadOut) (s : State) : Res :=
  .next (s.svcCmd q k 0x51 fun c s =>
    let n := c.desc.len
    if n < 7475 ∨ 7475 + 65536 < n then s.svcDone q k 6 0 0 0 0
    else s.tenantOp q c n 0 src fun b s => s.svcDone q k 0 0 n (if mldsaOperand b then 1 else 0) 0)

/-- PK_ECDSA_VERIFY (R322). -/
def execPkEcdsaVerify (q k : Nat) (src : ReadOut) (s : State) : Res :=
  .next (s.svcCmd q k 0x52 fun c s =>
    if c.desc.len ≠ 241 then s.svcDone q k 6 0 0 0 0
    else s.tenantOp q c 241 0 src fun b s =>
      s.svcDone q k 0 0 241 (if Config.ecdsaVerify (b.take 97) (sub b 193 48) (sub b 97 96) then 1 else 0) 0)

/-! ### Drills -/

/-- The drill of an index. -/
def State.drill (s : State) (i : Nat) : Option Drill := tget none s.svc.drills i

/-- Sets the drill of an index. -/
def State.setDrill (s : State) (i : Nat) (d : Option Drill) : State :=
  { s with svc := { s.svc with drills := tset none s.svc.drills i d } }

/-- The descriptor of step `t` of a drill image (Table 7). -/
def drillStep (b : Bytes) (q t : Nat) : Bytes := sub b (128 + 4 * q + 64 * t) 64

/-- A drill image is admitted (R323, R324): no reserved field of it or of a step is set. -/
def drillOk (b : Bytes) : Bool :=
  let n := le b 10 1
  let p := le b 11 1
  let q := le b 12 1
  b.take 8 == ascii "LZDRILL1" && decide (le b 8 2 = 1 ∧ 1 ≤ n ∧ n ≤ 64 ∧ p ≤ 16 ∧ q ≤ 128 ∧ b.length = 128 + 4 * q + 64 * n)
    && zeroAt b 13 115
    && ((upto 0 q).all fun i =>
      let x := 128 + 4 * i
      decide (le b x 1 < n ∧ 8 ≤ le b (x + 1) 1 ∧ le b (x + 1) 1 ≤ 56 ∧ le b (x + 1) 1 % 8 = 0 ∧ le b (x + 2) 1 < p
        ∧ le b (x + 3) 1 < 2))
    && ((upto 0 n).all fun t =>
      match Desc.parse (drillStep b q t) with
      | some d => d.uses.isSome && !([0x60, 0x61, 0x62, 0x70] : List Nat).contains d.op
      | none => false)

/-- A run of a drill is in progress. -/
def State.drillRuns (s : State) (i : Nat) : Bool :=
  s.svc.queues.any fun e => e.2.cmds.any fun c => match c.drill with | some r => r.drill == i | none => false

/-- Writes a drill's lines into the metadata area under a version (R293). -/
def State.drillLines (s : State) (i version : Nat) (b : Bytes) : State :=
  (toLines b (ceilDiv b.length 64)).zipIdx.foldl (fun s (p : Line × Nat) =>
    let line := s.metaLine 4 (i * 128 + p.2)
    let (ct, sb) := sealMeta (s.metaKeyFor line) line 4 version p.1
    let g := s.groupOf (line * 64)
    (s.offer g ((s.laneOf g).getD 63) .write line 1 [(ct, sb)] false).chargeMeta) s

/-- DRILL_STORE (R324): the image is read from a device region, checked, and stored under a fresh version; it waits while a
META job holds drill lines closed (R293). -/
def execDrillStore (q k : Nat) (image : ReadOut) (s : State) : Res :=
  .next (s.svcCmd q k 0x60 fun c s =>
    let d := c.desc
    let i := d.arg16
    let p := s.qPart q
    let b := image.bytes
    if 1024 ≤ i ∨ d.len < 192 ∨ 4736 < d.len then s.svcDone q k 6 0 0 0 0
    else if bit d.src 63 ∨ !s.srcOk q c d.len image then s.svcDone q k 1 3 0 0 0
    else if !drillOk b then s.svcDone q k 6 0 0 0 0
    else if !c.owner && ((upto 0 (le b 10 1)).any fun t => (Desc.raw (drillStep b (le b 12 1) t)).ownerOnly) then
      s.svcDone q k 5 0 0 0 0
    else if (match s.drill i with | some x => x.part != p | none => false) then s.svcDone q k 1 2 0 0 0
    else if s.drillRuns i then s.svcDone q k 1 7 0 0 0
    else if s.sealedClosed 4 then s
    else
      let (v, s) := (s.readLines p (d.src % 2 ^ 63) d.len).drawEpoch
      let s := s.setDrill i (some { owner := c.owner, part := p, s := le b 10 1, p := le b 11 1, q := le b 12 1,
                                    version := v, digest := Config.sha3_384 b, image := b })
      (s.drillLines i v b).svcDone q k 0 0 b.length 0 0)

/-- The steps of a drill with its parameters patched in (R323). -/
def Drill.steps (x : Drill) (params : Bytes) : List Bytes :=
  let b := x.image
  let raw := (upto 0 x.s).map fun t => drillStep b x.q t
  (upto 0 x.q).foldl (fun (l : List Bytes) i =>
    let a := 128 + 4 * i
    let t := le b a 1
    let off := le b (a + 1) 1
    let v := le params (8 * le b (a + 2) 1) 8
    let old := l.getD t []
    let w := if le b (a + 3) 1 = 0 then v else (le old off 8 + v) % 2 ^ 64
    l.set t (old.take off ++ leBytes 8 w ++ old.drop (off + 8))) raw

/-- DRILL_RUN (R325): the parameters and the drill's lines are read, and the steps run one after another, each admitted at
its own start; a drill line that fails ends the run and drops the drill (R293). -/
def execDrillRun (q k : Nat) (params lines : ReadOut) (s : State) : Res :=
  .next (s.svcCmd q k 0x61 fun c s =>
    let d := c.desc
    let i := d.arg16
    match s.drill i with
    | none => s.svcDone q k 1 2 0 0 0
    | some x =>
      if x.part ≠ s.qPart q then s.svcDone q k 1 2 0 0 0
      else if x.owner ∧ !c.owner then s.svcDone q k 5 0 0 0 0
      else if d.len ≠ 8 * x.p then s.svcDone q k 6 0 0 0 0
      else s.charged q c d.len 0 fun s =>
        let (params, s) := s.takeSrc q c d.len params
        if d.len ≠ 0 ∧ !s.srcOk q c d.len params then s.srcFail q c
        else if !lines.ok then (s.setDrill i none).svcDone q k 1 3 0 0 0
        else
          let s := s.count 473 1
          match x.steps params.bytes with
          | [] => s.svcDone q k 0 0 0 0 0
          | b :: rest =>
            match s.admitDesc q c.owner (Desc.parse b) with
            | some st => s.svcDone q k st 0 0 0 0
            | none =>
              let r : DrillRun := { drill := i, steps := rest, step := 0, ok := 0, digest := x.digest, tag := d.tag,
                                    flags := d.flags }
              s.setCmd q { c with st := .fetched, desc := Desc.raw b, drill := some r })

/-- DRILL_DROP (R324). -/
def execDrillDrop (q k : Nat) (s : State) : Res :=
  .next (s.svcCmd q k 0x62 fun c s =>
    let i := c.desc.arg16
    match s.drill i with
    | none => s.svcDone q k 1 2 0 0 0
    | some x =>
      if x.part ≠ s.qPart q then s.svcDone q k 1 2 0 0 0
      else if s.drillRuns i then s.svcDone q k 1 7 0 0 0
      else (s.setDrill i none).svcDone q k 0 0 0 0 0)

end Sys2Proof.Machine
end

