-- ==== Sys2Proof/Machine/Host.lean ====
section
/-! DEFINITION. The host interface (R330 to R343): translations, host DMA reads, bounce channels and the warning of a HOST
slot's limit. -/

namespace Sys2Proof.Machine

/-! ### Address translation -/

/-- A translation enters the cache (R340), which holds 4,096 pages of an attachment; which one makes room is not defined. -/
def State.cacheTrans (s : State) (t : Trans) : State :=
  let rest := s.host.atc.filter fun x => !(x.att == t.att && x.pasid == t.pasid && x.va == t.va)
  let mine := rest.filter fun x => x.att == t.att
  if mine.length < 4096 then { s with host := { s.host with atc := rest ++ [t] } }
  else
    match mine[(s.freeVal 12).toNat % mine.length]? with
    | some v => { s.freed with host := { s.host with atc := rest.filter (· != v) ++ [t] } }
    | none => s

/-- What waited for a translation that the host has refused fails (R340): a command with DETAIL OPERAND, a queue whose ring
page it is stops, a transfer fails. -/
def State.failWaiter (s : State) (w : Waiter) : State :=
  match w with
  | .cmd q k =>
    match s.cmd q k with
    | some c => if c.st = .fetched then s.svcDone q k 1 3 0 0 0 else s
    | none => s
  | .ring q => s.stopQueue q
  | .xfer c =>
    let x := s.chan c
    match x.waiting with
    | some f => s.setChan c { x with waiting := none, xfers := x.xfers ++ [{ f with done := true, status := 1, detail := 3 }] }
    | none => s

/-- ATS_COMPLETION (R340): the page is cached with its permissions; a completion that is not ok, or permits nothing, is
counted and fails what waited for it. -/
def execAtsCompletion (att : Nat) (va pa : BitVec 52) (perm : BitVec 2) (ok : Bool) (s : State) : Res :=
  match s.host.atsOut.find? fun r => r.att == att && r.va == va.toNat with
  | none => .next s
  | some r =>
    let s := { s with host := { s.host with atsOut := s.host.atsOut.filter (· != r) } }
    if ok ∧ perm ≠ 0 then .next (s.cacheTrans { att := att, pasid := r.pasid, va := r.va, pa := pa.toNat, perm := perm.toNat })
    else .next (r.who.foldl State.failWaiter (s.incFld F.hostErr_TRANS_FAIL))

/-- ATS_INVALIDATE (R66, R340): the translations of the range are dropped; the answer waits for the host DMA of the
attachment that is outstanding. -/
def execAtsInvalidate (att : Nat) (first last : BitVec 52) (s : State) : Res :=
  if 2 ≤ att then .next s
  else
    let keep := s.host.atc.filter fun t => !(t.att == att && decide (first.toNat ≤ t.va ∧ t.va ≤ last.toNat))
    let s := { s with host := { s.host with atc := keep } }
    match (s.host.reads.filter (·.att == att)).map (·.tag) with
    | [] => .next (s.emit (.atsInvDone att))
    | tags => .next { s with host := { s.host with atsInv := s.host.atsInv ++ [(att, tags)] } }

/-- A host DMA read is no longer outstanding: invalidations that waited for it alone are answered (R66). -/
def State.readGone (s : State) (tag : Nat) : State :=
  let inv := s.host.atsInv.map fun (e : Nat × List Nat) => (e.1, e.2.filter (· != tag))
  let done := inv.filter fun e => e.2.isEmpty
  let s := { s with host := { s.host with
    reads := s.host.reads.filter (·.tag != tag), atsInv := inv.filter fun e => !e.2.isEmpty } }
  done.foldl (fun s e => s.emit (.atsInvDone e.1)) s

/-! ### Bounce channels -/

/-- BOUNCE_DOORBELL (R304, R305, R342): taken on the attach port of the channel's attachment. -/
def execBounceDoorbell (port c : Nat) (v : Word) (s : State) : Res :=
  if 128 ≤ c ∨ !s.regsOpen then .next s
  else if port ≠ s.cAtt c + 1 then .next ((s.incFld F.hostErr_REG_ERR).regRsp port 0 true)
  else
    let x := s.chan c
    let tail := bits v.toNat 0 12
    let s := s.regRsp port 0 false
    if x.state = .disabled ∨ x.state = .draining ∨ bit v.toNat 12 = false ∨ 2 ^ s.fld F.hostBcfg_SIZE c ≤ tail then .next s
    else .next ((s.setChan c { x with tail := tail }).setFld F.hostBdoorbell_TAIL tail c)

/-- Enables a channel: its ring index is zero and its HOST slot is bound (R332, R342). -/
def State.enableChan (s : State) (c : Nat) : State :=
  let x := s.chan c
  let s := (s.bind true c (s.fld F.hostBcfg_HKIDX c)).setFld F.hostBcfg_ENABLE 1 c
  s.setChan c { x with state := .running, head := 0, tail := 0, xfers := [], waiting := none }

/-- The ENABLE of a channel is refused (R332). -/
def State.chanRefused (s : State) (c : Nat) : Bool :=
  s.bindRefused true c (s.fld F.hostBcfg_HKIDX c) false (s.cAtt c + 1) (s.cPart c)

/-- Disables a channel (R349): no more fetches, and the transfers in flight complete ABORTED. -/
def State.disableChan (s : State) (c : Nat) : State :=
  let x := s.chan c
  if x.state = .disabled then s
  else
    let s := (s.setChan c { x with state := .draining }).abortChan c
    if (s.chan c).xfers = [] then s.setChan c { s.chan c with state := .disabled } else s

/-- A transfer descriptor in decoded form (Table 5), and whether it is admitted: BAD_DESC otherwise. -/
def Xfer.parse (idx no : Nat) (b : Bytes) : Xfer × Bool :=
  let op := le b 0 1
  let fl := le b 1 1
  let len := le b 8 4
  let f : Xfer := { idx := idx, no := no, op := op, step := if bit fl 0 then some (le b 2 2 % 4096) else none,
                    actr := if bit fl 1 then some (le b 6 2 % 4096) else none, kidx := le b 4 2, len := len,
                    dev := le b 16 8 % 2 ^ 40, host := le b 24 8 }
  (f, decide ((op = 1 ∨ op = 2) ∧ fl < 4 ∧ (bit fl 0 = false ∨ op = 2) ∧ le b 2 2 < 4096 ∧ le b 6 2 < 4096 ∧ 64 ≤ len
      ∧ len ≤ 2 ^ 24 ∧ len % 64 = 0 ∧ le b 16 8 < 2 ^ 40) && zeroAt b 14 2)

/-- A key index is one that a region admits (R112): the region's own, or its next one during a harrow pass. -/
def Region.admitsKey (r : Region) (kidx : Nat) : Bool :=
  decide (r.kind = .clear ∨ kidx = r.kidx) || (r.harrow && r.kidxNext == kidx)

/-- The device side of a transfer may be used (R112, R343). -/
def State.xferPlace (s : State) (c : Nat) (f : Xfer) : Bool :=
  match s.operandRow (s.cPart c) false f.dev f.len (if f.op = 1 then 1 else 0) with
  | some row => (s.row row).admitsKey f.kidx
  | none => false

/-- A channel stops (R307, R352). -/
def State.stopChan (s : State) (c : Nat) : State := s.setChan c { s.chan c with state := .stopped }

/-- A transfer ends with a status. -/
def Xfer.ended (f : Xfer) (status detail : Nat) : Xfer := { f with done := true, status := status, detail := detail, data := [] }

/-- Adds a transfer to those in flight. -/
def State.addXfer (s : State) (c : Nat) (f : Xfer) : State :=
  let x := s.chan c
  s.setChan c { x with xfers := x.xfers ++ [f], waiting := none }

/-- Asks for the next segment of an H2D transfer (R331, R333). -/
def State.askXfer (s : State) (c : Nat) (f : Xfer) : State :=
  if f.done ∨ f.len ≤ f.count ∨ s.host.reads.any (fun r => r.chan && r.obj == c && r.no == f.no) then s
  else
    match (upto 0 1024).find? fun t => !s.host.reads.any (·.tag == t) with
    | none => s
    | some t =>
      let n := min 4096 (f.len - f.count)
      let r : HostRead := { tag := t, att := s.cAtt c, chan := true, obj := c, k := f.idx, no := f.no,
                            part := s.cPart c, n := n }
      let s := { s with host := { s.host with reads := s.host.reads ++ [r] } }
      State.hostAsk (s.cAtt c) (s.pasid true c) (BitVec.ofNat 10 t) 3 s (f.host + 4112 * (f.count / 4096)) (n + 16)

/-- Starts a transfer (R334, R340, R341, R343): its places are checked, its host pages translated, its HOST slot charged;
then an H2D transfer asks for its first segment, and a D2H transfer, whose payload is `src`, is sent, or held while its
step has reads without a verdict (R335). -/
def State.startXfer (s : State) (c : Nat) (f : Xfer) (src : ReadOut) : State :=
  let p := s.cPart c
  let slot := s.fld F.hostBcfg_HKIDX c
  let att := s.cAtt c
  let pasid := s.pasid true c
  let span := hostSpan f.len
  let perm := if f.op = 1 then 0 else 1
  let x := s.chan c
  if slot = 0 ∨ f.host % 16 ≠ 0 ∨ !s.inWindow p f.host span then
    (if slot ≠ 0 ∧ !s.inWindow p f.host span then s.incFld F.partErr_HOST_REFUSED p else s).addXfer c (f.ended 1 3)
  else if !s.xferPlace c f then s.addXfer c (f.ended 1 3)
  else if s.deniedPage att pasid f.host span perm then (s.incFld F.hostErr_TRANS_FAIL).addXfer c (f.ended 1 3)
  else if !(s.missingPages att pasid f.host span).isEmpty then
    (s.setChan c { x with waiting := some f }).askPages att pasid (.xfer c) (s.missingPages att pasid f.host span)
  else if (s.slot slot).kind ≠ .host ∨ (s.slot slot).dref = 0 then (s.addXfer c (f.ended 1 3)).stopChan c
  else if hostLimit < (s.slot slot).usage + invocations f.len then s.addXfer c (f.ended 7 0)
  else
    let s := s.chargeHost slot (invocations f.len)
    if f.op = 1 then (s.addXfer c f).askXfer c f
    else if !src.ok ∨ src.bytes.length ≠ f.len then s.addXfer c (f.ended 1 3)
    else
      let f := { f with data := src.bytes }
      let s := s.readLines p f.dev f.len
      match f.step with
      | none => (s.addXfer c f).xferSend c f
      | some t =>
        if (s.stepEnt t).discard then s.addXfer c (f.ended 1 9)
        else if !(s.stepEnt t).pend.isEmpty then (s.addXfer c f).hold t p (s.openReads t) (.xfer c f.no)
        else (s.addXfer c f).xferSend c f

/-- BOUNCE_TRANSFER (R342, R343): the next descriptor of a channel's ring is read and its transfer starts, with at most
eight in flight; a descriptor that cannot be read stops the channel. A transfer that waited for translations starts
now, in an instance reset too, which fetches no further one (R345). -/
def execBounceTransfer (c : Nat) (d src : ReadOut) (s : State) : Res :=
  let x := s.chan c
  let p := s.part (s.cPart c)
  if 128 ≤ c ∨ x.state ≠ .running ∨ 8 ≤ x.xfers.length ∨ p.winnow.isSome ∨ s.engineOut 9 then .next s
  else
    match x.waiting with
    | some f => .next (s.startXfer c f src)
    | none =>
      if x.head = x.tail ∨ p.instReset.isSome then .next s
      else
        let size := 2 ^ s.fld F.hostBcfg_SIZE c
        let base := s.bEntry c 0
        let tilled := (s.regionAt base).any fun i => decide ((s.row i).kind = .tilled)
        if !tilled ∨ !s.deviceRing (s.cPart c) base (32 * size) ∨ !d.ok ∨ d.bytes.length ≠ 32 then .next (s.stopChan c)
        else
          let bnd := s.binding true c
          let (f, ok) := Xfer.parse x.head (match bnd with | some b => b.xfer | none => x.count) d.bytes
          let s := match bnd with | some b => s.setBinding { b with xfer := b.xfer + 1 } | none => s
          let s := s.setChan c { x with head := (x.head + 1) % size, count := x.count + 1 }
          if !ok then .next (s.addXfer c (f.ended 6 0)) else .next (s.startXfer c f src)

/-- TRANSFER_COMPLETE (R342, R343): the oldest transfer of a channel, when it has ended, has its status written in place. -/
def execTransferComplete (c : Nat) (s : State) : Res :=
  match (s.chan c).xfers with
  | f :: _ => if f.done then .next ((s.endXfer c f).partGo (s.cPart c)) else .next s
  | [] => .next s

/-! ### Host DMA reads -/

/-- The reads that found no free tag are asked for, those of RADIO queues first (R343). -/
def State.moreReads (s : State) : State :=
  let radio := fun (e : Nat × SvcQ) => s.fld F.svcQcfg_CLS e.1 == 0
  let qs := s.svc.queues.filter radio ++ s.svc.queues.filter fun e => !radio e
  let s := qs.foldl (fun s e => e.2.cmds.foldl (fun s c =>
    if c.st = .running ∧ 1 ≤ c.desc.op ∧ c.desc.op ≤ 4 ∧ bit c.desc.src 63 = true ∧ c.gang = false then s.askSegment e.1 c
    else s) s) s
  s.host.chans.foldl (fun s e => e.2.xfers.foldl (fun s f => if f.op = 1 then s.askXfer e.1 f else s) s) s

/-- The payload of a host DMA read's segment (R330, R331): opened under the HOST slot of the channel or queue that asked
for it and the IV of its position. `done` is what has come of its operand before it. -/
def State.openRead (s : State) (r : HostRead) (done seq step : Nat) (seg : Bytes) : Option Bytes :=
  let slot := if r.chan then s.fld F.hostBcfg_HKIDX r.obj else s.fld F.svcQcfg_HKIDX r.obj
  let iv := fun _ => hostIv 0 (if r.chan then 4 else 2) r.obj seq (1024 * step + done / 4096)
  if seg.length = r.n + 16 then openSegs (s.slot slot).key iv 1 0 seg else none

/-- HOST_DMA_READ_DONE (R331, R333, R343): a segment of a command's source or of an H2D transfer arrives as it stands in
host memory and is opened; one that does not open, or a failed read, is counted and fails the command or the transfer, and
no part of it is written. -/
def execHostDmaReadDone (tag : BitVec 10) (seg : Bytes) (rerr : Bool) (s : State) : Res :=
  match s.host.reads.find? fun r => r.tag == tag.toNat with
  | none => .next s
  | some r =>
    let s := (s.readGone r.tag).spend (hostEnergy seg.length)
    let s :=
      if r.chan then
        match (s.chan r.obj).xfers.find? fun f => f.no == r.no && !f.done with
        | none => s
        | some f =>
          match if rerr then none else s.openRead r f.count f.no 0 seg with
          | none => (s.incFld F.hostErr_OPEN_FAIL).setXfer r.obj (f.ended 1 3)
          | some b =>
            let (ok, n, s) := s.engineWrite r.part (f.dev + f.count) none b (s.fld F.hostBcfg_CLS r.obj)
            let f := { f with count := f.count + n }
            if !ok then s.setXfer r.obj (f.ended 1 3)
            else if f.len ≤ f.count then s.setXfer r.obj (f.ended 0 0)
            else (s.setXfer r.obj f).askXfer r.obj f
      else
        match (s.cmd r.obj r.k).filter fun c => c.idx == r.no && decide (c.st = .running) with
        | none => s
        | some c =>
          match if rerr then none else s.openRead r c.input.length c.ord c.drillStep seg with
          | none => (s.incFld F.hostErr_OPEN_FAIL).svcDone r.obj r.k 1 3 c.pos 0 0
          | some b =>
            let c := { c with input := c.input ++ b }
            (s.setCmd r.obj c).askSegment r.obj c
    .next (s.moreReads.partGo r.part)

/-! ### Key warnings -/

/-- KEYWARN (R334): a HOST slot has reached 75 % of its limit: the bit of its mailbox is set, MGR_WARN for mailbox 64, and
the warning vector is raised, once for a slot. -/
def execKeywarn (slot : BitVec 16) (s : State) : Res :=
  let n := slot.toNat
  let k := s.slot n
  let box := tget 0 s.host.slotBox n
  if k.kind ≠ .host ∨ 4 * k.usage < 3 * 2 ^ 40 ∨ s.host.warned.contains n ∨ box = 0 then .next s
  else
    let s := { s with host := { s.host with warned := nsInsert s.host.warned n } }
    let s := if box = 65 then s.setFld F.hostStat_MGR_WARN 1
      else s.setFld F.hostKeywarn_WARN (setBits (s.fld F.hostKeywarn_WARN) (box - 1) 1 1)
    .next (s.emit (.msix (s.fld F.hostCtl_WARN_ATT) (s.fld F.hostCtl_WARN_VEC)))

end Sys2Proof.Machine
end

