-- ==== Sys2Proof/Machine/Spdm.lean ====
section
/-! DEFINITION. The SPDM responder (R336 to R339): requests of a mailbox or of the MCTP path, sessions, and the HOST slots
that a session makes. The request and error codes are those of DSP0274 (PRESUMED). -/

namespace Sys2Proof.Machine

/-! ### Measurement blocks -/

/-- The 8 bytes of a register word. -/
def State.regBytes (s : State) (r : Reg) (i : Nat := 0) (j : Nat := 0) : Bytes := leBytes 8 (s.rd r i j)

/-- The partition record of a mailbox (Table 4, index 4). -/
def State.partitionRecord (s : State) (p : Nat) : Bytes :=
  let x := s.plotOf p
  let rows := s.rgn.rows.filter fun e => decide (e.2.state ≠ .free ∧ e.2.part = p)
  leBytes 1 p ++ s.regBytes .partCarve p ++ [if x.radio then 1 else 0] ++ leBytes 1 (s.fld F.partCtl_EARLY p) ++
  s.regBytes .partHwinBase p ++ s.regBytes .partHwinSize p ++
  (rows.map fun e => leBytes 2 e.1 ++ leBytes 1 e.2.kind.code ++ leBytes 4 e.2.base ++ leBytes 4 e.2.count ++
    leBytes 1 e.2.perm).flatten

/-- The measurement blocks that a mailbox, or the MCTP path (65), returns (R337, Table 4), index 1 to 5, each after its
index and length; the order of the fields is the table's. -/
def State.measurements (s : State) (m : Nat) : Bytes :=
  let act := s.cfg.active
  let b1 := bvBytes s.keys.meas ++ leBytes 8 ((s.fwu.running.map (·.version)).getD 0)
  let b2 := bvBytes ((act.map (·.hash)).getD 0) ++ leBytes 8 ((act.map (·.version)).getD 0)
  let b3 := leBytes 4 s.life.lc.code ++ s.regBytes .stepping ++ leBytes 1 ((act.map (·.grade)).getD 0) ++
    ((upto 0 8).map fun j => s.regBytes .disabledMap 0 j).flatten ++ bvBytes s.ident
  let b4 := if m < 64 then s.partitionRecord m else []
  let b5 := bvBytes s.domPlot.domId ++ leBytes 8 s.epochNo
  (([b1, b2, b3, b4, b5].zipIdx).map fun x => leBytes 1 (x.2 + 1) ++ leBytes 2 x.1.length ++ x.1).flatten

/-! ### Sessions -/

/-- A HOST key of a session (R338). -/
def State.hostKey (s : State) (no m i : Nat) : Key :=
  Config.kmac256 (Config.spdmExport no) (ascii "LZHOST" ++ zeros 2 ++ leBytes 1 m ++ leBytes 1 i ++ bvBytes s.ident) 256
    (ascii "LZHOSTK1")

/-- Makes HOST slots `i`, … of a mailbox's session in the lowest EMPTY general slots (R338); none when one is missing. -/
def State.makeSlots (s : State) (no m i : Nat) : (fuel : Nat) → Option (List Nat × State)
  | 0 => some ([], s)
  | fuel + 1 =>
    match s.freeSlot .host with
    | none => none
    | some k =>
      let x : Slot := { kind := .host, origin := .agreed, noexport := true, dref := 1, key := s.hostKey no m i }
      let s := (s.putSlot k x).count 450 1
      let s := { s with host := { s.host with slotBox := tset 0 s.host.slotBox k (m + 1) } }
      (s.makeSlots no m (i + 1) fuel).map fun r => (k :: r.1, r.2)

/-- Sets the session of a mailbox. -/
def State.setSession (s : State) (m : Nat) (x : Option Session) : State :=
  { s with host := { s.host with sessions := tset none s.host.sessions m x } }

/-- FINISH establishes the session (R338): a mailbox's with four HOST slots, the MCTP path's with none; none when the slots
are missing. -/
def State.establish (s : State) (m : Nat) (x : Session) : Option State :=
  if m = 65 then some (s.setSession m (some { x with live := true }))
  else
    match s.makeSlots x.no m 0 4 with
    | none => none
    | some (ks, s) =>
      let s := s.setSession m (some { x with live := true, slots := ks })
      let w := (ks.zipIdx.map fun p => p.1 * 2 ^ (16 * p.2)).sum
      some ((s.wr .hostMboxSess w m).setFld F.hostMboxCtl_SESSION 1 m)

/-! ### Requests -/

/-- The requests that the responder supports (Table 3), by their codes in DSP0274. -/
def spdmSupported (code : Nat) : Bool :=
  ([0x81, 0x82, 0x83, 0x84, 0xE0, 0xE1, 0xE3, 0xE4, 0xE5, 0xE8, 0xE9, 0xEC] : List Nat).contains code

/-- An ERROR response to a request of a version: 3 Busy, 4 UnexpectedRequest, 6 DecryptError, 7 UnsupportedRequest, 10
SessionLimitExceeded. -/
def spdmError (version code : Nat) : Bytes := leBytes 1 version ++ [0x7F] ++ leBytes 1 code ++ [0]

/-- A mailbox answers Busy while its partition is reset or winnowed (R345, R415). -/
def State.mboxBusy (s : State) (m : Nat) : Bool :=
  decide (m < 64) && ((s.part m).instReset.isSome || (s.part m).winnow.isSome)

/-- Requests whose answer carries a signature or a fresh key pair: CHALLENGE, GET_MEASUREMENTS and KEY_EXCHANGE. -/
def spdmDraws (code : Nat) : Bool := code == 0x83 || code == 0xE0 || code == 0xE4

/-- The responder's ordinary answer to a request; what it draws, it draws with prediction resistance (R195). -/
def State.spdmReply (s : State) (m no : Nat) (req : Bytes) : Bytes × State :=
  let draws := spdmDraws (le req 1 1)
  let s := if draws then s.reseed else s
  (Config.spdmAnswer no req s.chainBytes (s.measurements m) s.keys.draws, if draws then s.drew else s)

/-- A request in decoded form, in or outside a session, is answered (R336, R338). The mailbox of a radio partition
answers KEY_EXCHANGE with ERROR UnsupportedRequest (R35). DESIGN CHOICE (log 67): while ES_FAIL is set, a request whose answer
draws is answered Busy. -/
def State.spdmRequest (s : State) (m : Nat) (inside : Option Session) (req : Bytes) : Bytes × State :=
  let v := le req 0 1
  let code := le req 1 1
  let cur := tget none s.host.sessions m
  if s.mboxBusy m then (spdmError v 3, s)
  else if !spdmSupported code then (spdmError v 7, s)
  else if spdmDraws code ∧ !s.predOk then (spdmError v 3, s)
  else if code = 0xE4 then
    if m < 64 ∧ (s.plotOf m).radio then (spdmError v 7, s)
    else if cur.any (·.live) then (spdmError v 10, s)
    else
      let no := s.host.sessCount + 1
      let s := ({ s with host := { s.host with sessCount := no } }).setSession m (some { no := no })
      s.spdmReply m no req
  else if code = 0xE5 then
    match inside with
    | none => (spdmError v 4, s)
    | some x =>
      if x.live then (spdmError v 4, s)
      else if !Config.spdmFinish x.no req then (spdmError v 6, s.setSession m none)
      else
        match s.establish m x with
        | none => (spdmError v 3, s)
        | some s => s.spdmReply m x.no req
  else if code = 0xEC then
    match inside with
    | none => (spdmError v 4, s)
    | some x =>
      let (a, s) := s.spdmReply m x.no req
      (a, s.endSession m)
  else if (code = 0xE8 ∨ code = 0xE9) ∧ inside.isNone then (spdmError v 4, s)
  else s.spdmReply m (match inside with | some x => x.no | none => 0) req

/-- A message of a mailbox or of the MCTP path (65): a secured message that does not authenticate ends its session
(R338). -/
def State.spdm (s : State) (m : Nat) (msg : Bytes) : Bytes × State :=
  if Config.spdmSecured msg then
    match tget none s.host.sessions m with
    | none => (spdmError 0x12 6, s)
    | some x =>
      match Config.spdmPlain x.no msg with
      | none => (spdmError 0x12 6, s.endSession m)
      | some req =>
        let (a, s) := s.spdmRequest m (some x) req
        (Config.spdmSeal x.no a, s)
  else s.spdmRequest m none msg

/-! ### Mailboxes -/

/-- The bytes of a mailbox's data registers. -/
def State.mboxBytes (s : State) (m len : Nat) : Bytes :=
  (((upto 0 128).map fun j => leBytes 8 (s.rd .hostMboxData m j)).flatten).take len

/-- Fills a mailbox's data registers. -/
def State.setMbox (s : State) (m : Nat) (b : Bytes) : State :=
  (upto 0 (ceilDiv b.length 8)).foldl (fun s j => s.wr .hostMboxData (le b (8 * j) 8) m j) s

/-- HOST_MBOX_GO (R339): the message in the mailbox is answered in the same data registers; attach ports 1 and 2 alone may
write a mailbox, and a length is 1 to 1,024 B. -/
def execHostMboxGo (port m : Nat) (len : BitVec 11) (s : State) : Res :=
  let n := len.toNat
  if 65 ≤ m ∨ !s.regsOpen then .next s
  else if ¬ (port = 1 ∨ port = 2) ∨ n = 0 ∨ 1024 < n then .next (s.regBad port F.hostErr_REG_ERR)
  else
    let s := (s.setFld F.hostMboxCtl_LEN n m).regRsp port 0 false
    let (a, s) := s.spdm m (s.mboxBytes m n)
    let a := a.take 1024
    let s := s.setMbox m a
    .next (((s.setFld F.hostMboxCtl_GO 0 m).setFld F.hostMboxCtl_RSP_READY 1 m).setFld F.hostMboxCtl_RSP_LEN a.length m)

end Sys2Proof.Machine
end

