-- ==== Sys2Proof/Machine/Instance.lean ====
section
/-! DEFINITION. Partitions at the boundary and their commands: the drain handshake (R74), scrubs (R75), instance resets
(R345), hedges (R413), the winnow (R415, R416), dirty logging (R346, R347), and regions that become FREE (R114). -/

namespace Sys2Proof.Machine

/-! ### The winnow -/

/-- Shows the step of a partition's winnow. -/
def State.winnowStep (s : State) (p n : Nat) : State :=
  let x := s.part p
  s.setPart p { x with winnow := x.winnow.map fun w => { w with step := n } }

/-- Step 2 of a winnow (R415): everything of the partition stops. -/
def State.quench (s : State) (p : Nat) : State :=
  (((((s.abortPart p).flushPart p).poisonPart p).winnowStep p 2)).winnowGo p

/-- Every granule that holds a page of a counter line belongs to a region of the partition: the line covers pages
[idx × 64^(level − 1), (idx + 1) × 64^(level − 1)) of the tilled span. -/
def State.coversOnly (s : State) (p level idx : Nat) : Bool :=
  let n := 64 ^ (level - 1)
  let first := s.rgn.tspanBase + idx * n / pagesPerGranule
  let last := s.rgn.tspanBase + ((idx + 1) * n - 1) / pagesPerGranule
  (upto first (last + 1 - first)).all fun g =>
    match s.regionAt (g * 2 ^ 21) with
    | some i => (s.row i).part == p
    | none => false

/-- The dirty counter-cache lines of a level that cover only regions of a partition are written back and invalidated. -/
def State.flushCounters (s : State) (p level : Nat) : State :=
  let hits := s.rgn.cache.filter fun e => e.1 / 2 ^ 32 == level && (match e.2 with | some c => c.dirty | none => false) &&
    s.coversOnly p level (e.1 % 2 ^ 32)
  hits.foldl (fun s e => s.evict level (e.1 % 2 ^ 32)) s

/-- The driver references that a partition's tenant took are dropped (R415). -/
def State.dropTenantRefs (s : State) (p : Nat) : State :=
  let mine := s.keys.tenantRefs.filter fun e => e.1 % 64 == p
  let s := { s with keys := { s.keys with tenantRefs := s.keys.tenantRefs.filter fun e => e.1 % 64 != p } }
  mine.foldl (fun s e => s.putSlot (e.1 / 64) { s.slot (e.1 / 64) with dref := (s.slot (e.1 / 64)).dref - e.2 }) s

/-- The slots that a partition's regions and drills name (R415, steps 4 and 5). -/
def State.partSlots (s : State) (p : Nat) : List Nat :=
  let mine := s.rgn.rows.filter fun e => e.2.part == p && decide (e.2.state ≠ .free)
  let drills := s.svc.drills.filterMap fun e => e.2.filter (·.part == p)
  let named := fun (d : Drill) => (upto 0 d.s).map fun t =>
    let x := Desc.raw (drillStep d.image d.q t)
    [x.kidx, x.arg16]
  ((mine.map fun (e : Nat × Region) => [e.2.kidx, e.2.kidxNext, e.2.capidx]).flatten ++
    (drills.map fun d => (named d).flatten).flatten).eraseDups

/-- The key-cache rows of slots are invalid, and lane credits for them go back. -/
def State.dropRows (s : State) (slots : List Nat) : State :=
  let k := s.keys
  { s with keys := { k with cached := k.cached.filter fun n => !slots.contains n,
                            pins := k.pins.filter fun n => !slots.contains n,
                            credits := k.credits.filter fun e => !slots.contains (e.1 / 64) } }

/-- A region of a winnowed partition is destroyed, with its driver references; a seal of it is abandoned. -/
def State.winnowRegion (s : State) (row : Nat) : State :=
  let s := match (s.row row).sealRun with
    | some run => s.sealEnd row run none 7
    | none => s
  let s := if (s.row row).state = .closing then s else s.closeRegion row none
  (s.setRow row { s.row row with drvRefs := 0 }).settleRegion row

/-- A register instance returns to its reset value. -/
def State.rstReg (s : State) (i : Nat) (r : Reg) : State := s.wr r r.rst i

/-- A partition's queues and channels are disabled, and their registers return to their reset values. -/
def State.clearQueues (s : State) (p : Nat) : State :=
  let qs := (upto 0 256).filter fun q => s.qPart q == p
  let cs := (upto 0 128).filter fun c => s.cPart c == p
  let s := qs.foldl (fun s q =>
    let s := if s.fld F.svcQcfg_HKIDX q = 0 then s else s.unbind false q
    let s := s.setQueue q {}
    ([.svcQbase, .svcQcbase, .svcQcfg, .svcQtimeout, .svcQdoorbell, .svcQstat, .svcQerr, .hostQpasid] : List Reg).foldl
      (fun s r => s.rstReg q r) s) s
  cs.foldl (fun s c =>
    let s := if s.fld F.hostBcfg_HKIDX c = 0 then s else s.unbind true c
    let s := s.setChan c {}
    ([.hostBcfg, .hostBring, .hostBdoorbell, .hostBstat] : List Reg).foldl (fun s r => s.rstReg c r) s) s

/-- Steps 4 to 6 of a winnow (R415): engine objects, keys, and regions with the registers of the partition. -/
def State.clearPart (s : State) (p : Nat) : State :=
  let slots := s.partSlots p
  let s := s.freePart p
  let s := (s.svc.drills.filter fun e => match e.2 with | some d => d.part == p | none => false).foldl
    (fun s e => s.setDrill e.1 none) s
  let s := ((s.endSession p).dropTenantRefs p).dropRows slots
  let s := ((s.flushCounters p 1).flushCounters p 2).flushCounters p 3
  let s := (s.rowsWhere fun r => r.part == p && decide (r.state ≠ .free)).foldl State.winnowRegion s
  let s := (s.setFld F.partCtl_MIGRATE 0 p).setFld F.partCtl_EARLY (if (s.plotOf p).early then 1 else 0) p
  let s := s.setPart p { s.part p with dirty := [], oldDirty := [], logged := [] }
  s.clearQueues p

/-- A winnow ends ESCALATED (R413, R416): the partition stays hedged, and an ESCALATE record names step Chip. -/
def State.winnowFail (s : State) (p cause : Nat) : State :=
  let s := s.setPart p { s.part p with winnow := none, scrub := false }
  (s.record .escalate .fault 0 (some p) 3 cause).hedgeEnd p 2 2

/-! ### The drain handshake -/

/-- What waits for a hedge goes on once the acknowledgement counts (R413, R415, R345). -/
def State.ackTaken (s : State) (p : Nat) : State :=
  let s := if (s.part p).hedgeBusy then (s.setPart p { s.part p with hedgeBusy := false }).hedgeEnd p 0 0 else s
  let s := match (s.part p).winnow with
    | some w => if w.step = 1 then s.quench p else s
    | none => s
  match (s.part p).instReset with
  | some r =>
    if r.step = 1 then
      let s := s.setPart p { s.part p with instReset := some { r with step := 2 } }
      (if r.squash then s.abortPart p else s).instGo p
    else s
  | none => s

/-- DRAIN_ACK (R74, R413): the acknowledgement is sampled high, and requests of p are refused HEDGED from now on; a rise
that nothing asked for is recorded. -/
def execDrainAck (p : BitVec 6) (s : State) : Res :=
  let n := p.toNat
  let x := s.part n
  if x.drainAck then .next s
  else if !x.drainReq then
    .next ((s.setPart n { x with drainAck := true }).record .drainOverrun .fault 0 (some n) 2 0)
  else
    let s := s.setPart n { x with drainAck := true, acked := true }
    .next (if x.acked then s else s.ackTaken n)

/-- DRAIN_ACK_FALL (R74): the acknowledgement falls, which completes a lift; an early fall is recorded. -/
def execDrainAckFall (p : BitVec 6) (s : State) : Res :=
  let n := p.toNat
  let x := s.part n
  if !x.drainAck then .next s
  else
    let s := s.setPart n { x with drainAck := false, lowering := false }
    .next (if x.drainReq then s.record .drainOverrun .fault 0 (some n) 2 0 else s)

/-- DRAIN_OVERRUN (R74, R413): the acknowledgement has not risen, or not fallen, within 5 µs: what waits for a rise ends
ESCALATED, and its cause stays. -/
def execDrainOverrun (p : BitVec 6) (s : State) : Res :=
  let n := p.toNat
  let x := s.part n
  if x.drainReq && !x.acked then
    let s := s.record .drainOverrun .fault 0 (some n) 0 0
    let s := s.record .escalate .fault 0 (some n) 3 0x0030
    let s := s.setPart n { x with hedgeBusy := false, instReset := none,
                                  winnow := x.winnow.filter fun w => w.step != 1 }
    let s := if x.hedgeBusy then s.hedgeEnd n 0 2 else s
    let s := match x.winnow with
      | some w => if w.step = 1 then s.hedgeEnd n 2 2 else s
      | none => s
    .next (if x.instReset.isSome then s.instEnd n 2 else s)
  else if x.lowering then
    let s := s.setPart n { x with lowering := false }
    .next ((s.record .drainOverrun .fault 0 (some n) 1 0).record .escalate .fault 0 (some n) 3 0x0030)
  else .next s

/-! ### Scrubs -/

/-- SCRUB_REQUEST (R75, R415): with the acknowledgement high the scrub of a winnow is presented, and steps 4 to 6 run
beside it. -/
def execScrubRequest (p : BitVec 6) (s : State) : Res :=
  let n := p.toNat
  let x := s.part n
  match x.winnow with
  | none => .next s
  | some w =>
    if w.step ≠ 3 ∨ !x.drainAck ∨ x.scrub then .next s
    else
      let s := (s.setPart n { x with scrub := true }).emit (.scrub n w.scope)
      .next (((s.clearPart n).winnowStep n 6).winnowGo n)

/-- SCRUB_DONE (R75, R415, R416): the answer to a scrub; one that nothing asked for is ignored and counted. -/
def execScrubDone (p : BitVec 6) (status : BitVec 2) (s : State) : Res :=
  let n := p.toNat
  let x := s.part n
  if !x.scrub then .next (s.incFld F.gstat_SCRUB_SPURIOUS)
  else if status = 0 then
    let s := s.setPart n { x with scrub := false, winnow := x.winnow.map fun w => { w with scrubDone := true } }
    .next (s.winnowGo n)
  else .next ((s.record .scrubFailed .fault 0 (some n) status.toNat 0).winnowFail n 0x0032)

/-- SCRUB_OVERRUN (R416): the scrub has not answered within its bound. -/
def execScrubOverrun (p : BitVec 6) (s : State) : Res :=
  let n := p.toNat
  let x := s.part n
  match x.winnow with
  | none => .next s
  | some w =>
    if !x.scrub then .next s
    else .next ((s.record .scrubOverrun .fault 0 (some n) w.bound 0).winnowFail n 0x0031)

/-! ### Hedge, unhedge, winnow -/

/-- A command of LZ_FLT_HEDGE on a partition. -/
def State.hedgeCmd (s : State) (port p : Nat) (f : State → State) : State :=
  s.ownerCmd port (s.fld F.fltHedge_BUSY == 1) F.fltErr_REG_ERR fun s => f (s.setFld F.fltHedge_PART p)

/-- HEDGE (R413): cause OWNER is added; the command ends at the acknowledgement, or at once when p is hedged already. -/
def execHedge (port : Nat) (p : BitVec 6) (s : State) : Res :=
  let n := p.toNat
  .next <| s.hedgeCmd port n fun s =>
    let was := s.hedged n
    let s := s.addCause n .owner
    if was then s.hedgeEnd n 0 0
    else (s.setPart n { s.part n with hedgeBusy := true }).setFld F.fltHedge_BUSY 1

/-- UNHEDGE (R413): cause OWNER is cleared; the hedge is lifted when no cause is left. -/
def execUnhedge (port : Nat) (p : BitVec 6) (s : State) : Res :=
  .next <| s.hedgeCmd port p.toNat fun s => (s.removeCause p.toNat .owner).hedgeEnd p.toNat 1 0

/-- WINNOW (R415): refused for a radio partition, one hedged for EOL, or one with a winnow or instance reset in progress;
otherwise it hedges, with its scope and bound taken now. -/
def execWinnow (port : Nat) (p : BitVec 6) (s : State) : Res :=
  let n := p.toNat
  .next <| s.hedgeCmd port n fun s =>
    let x := s.part n
    if (s.plotOf n).radio || x.causes.contains .eol || x.winnow.isSome || x.instReset.isSome then s.hedgeEnd n 2 1
    else
      let was := s.hedged n
      let s := (s.addCause n .winnow).setFld F.fltHedge_BUSY 1
      let w : WinnowRun := { step := 1, scope := s.fld F.fltWinnow_SCOPE, bound := s.fld F.fltWinnow_BOUND_US }
      let s := s.setPart n { s.part n with winnow := some w }
      if was then s.quench n else s

/-! ### Instance reset -/

/-- An instance reset starts (R345): refused for a radio partition, and while a reset, hedge or winnow is in progress. -/
def State.instStart (s : State) (port p : Nat) (squash : Bool) : State :=
  s.ownerCmd port (s.fld F.partCtl_BUSY p == 1) F.partErr_REG_ERR (ei := p) fun s =>
    let x := s.part p
    if (s.plotOf p).radio || x.instReset.isSome || x.winnow.isSome || !x.causes.isEmpty then
      (s.setFld F.partCtl_RESULT 1 p).partTrace p 3 1
    else
      let s := (s.addCause p .reset).setFld F.partCtl_BUSY 1 p
      s.setPart p { s.part p with instReset := some { step := 1, squash := squash } }

/-- RESET_DRAIN (R345): commands already fetched run to completion. -/
def execResetDrain (port : Nat) (p : BitVec 6) (s : State) : Res := .next (s.instStart port p.toNat false)

/-- RESET_SQUASH (R345): commands already fetched end ABORTED. -/
def execResetSquash (port : Nat) (p : BitVec 6) (s : State) : Res := .next (s.instStart port p.toNat true)

/-! ### Dirty logging -/

/-- FLIP (R347): logging switches to the other bitmap; the pages of the old one that wait are still ORed. A FLIP while the
one before it is not complete stays pending, and changes nothing more. -/
def execFlip (port : Nat) (p : BitVec 6) (s : State) : Res :=
  let n := p.toNat
  .next <| s.ownerCmd port false F.partErr_REG_ERR (ei := n) fun s =>
    let x := s.part n
    if !x.oldDirty.isEmpty then s
    else s.setPart n { x with activeMap := !x.activeMap, oldDirty := x.dirty, dirty := [], logged := [] }

/-- The size of a partition's dirty bitmap (R346), and the bit of a page in it. -/
def State.bitmapSize (s : State) (p : Nat) : Nat :=
  4096 * ceilDiv (s.fld F.partCarve_COUNT p * 512 + s.fld F.partHwinSize_PAGES p) 32768

/-- The bit of a logged page (R346): device pages from the start of the carve-out, host pages after them. -/
def State.pageBit (s : State) (p page : Nat) : Nat :=
  if 2 ^ 40 ≤ page then page - 2 ^ 40 else page - s.fld F.partCarve_BASE p * 512

/-- DIRTY_LOG_OR (R346, R347): the bit of a logged page is set by a locked OR of its line, whose contents are `old`. -/
def execDirtyLogOr (p : BitVec 6) (page : Nat) (old : ReadOut) (s : State) : Res :=
  let n := p.toNat
  let x := s.part n
  let isOld := x.oldDirty.contains page
  if !(isOld || x.dirty.contains page) || !old.ok || old.bytes.length ≠ 64 then .next s
  else
    let b := s.pageBit n page
    let map := if isOld then !x.activeMap else x.activeMap
    let base := s.fld F.partDirtyBase_ADDR n + (if map then s.bitmapSize n else 0)
    let line := toLine old.bytes ||| BitVec.ofNat 512 (2 ^ (b % 512))
    let parts := s.parts
    let (ok, s) := s.maintBytes n (base + b / 512 * 64) (bvBytes line)
    if !ok then .next s
    else
      let s := { s with parts := parts }
      .next (s.setPart n (if isOld then { x with oldDirty := x.oldDirty.filter (· != page) }
        else { x with dirty := x.dirty.filter (· != page) }))

/-! ### Regions that become FREE -/

/-- REGION_FREE (R114): a CLOSING region with no reference becomes FREE, and its DESTROY completes; a winnow that waited
for it goes on. -/
def execRegionFree (row : BitVec 14) (s : State) : Res :=
  let p := (s.row row.toNat).part
  .next ((s.settleRegion row.toNat).winnowGo p)

end Sys2Proof.Machine
end

