-- ==== Sys2Proof/Machine/Faults.lean ====
section
/-! DEFINITION. Engine resets and aborts (R410 to R412), the chip and power steps (R417, R419), the gleaner's commands
(R420, R423), injections (R424), margins (R425) and the reeve's heartbeat (R407). -/

namespace Sys2Proof.Machine

/-! ### Abort -/

/-- Ends an abort with its RESULT. -/
def State.abortEnd (s : State) (code : Nat) : State := (s.setFld F.fltAbort_RESULT code).setFld F.fltAbort_BUSY 0

/-- The records of a queue's finished commands are written as far as its ring has room. -/
def State.drainQueue (s : State) (q : Nat) : State :=
  (s.queue q).cmds.foldl (fun s c =>
    if c.st ≠ .done ∨ s.cqFull q then s
    else
      let (ok, s) := s.putRecord q c
      if ok then s.endRecord q c else s.dropCmd q c) s

/-- Aborts a queue (R410): as clearing ENABLE; with its engines drained its records are written. -/
def State.abortQueueObj (s : State) (q : Nat) (drained : Bool) : State :=
  let s := (s.setFld F.svcQcfg_ENABLE 0 q).disableQueue q
  let s := if drained then s.drainQueue q else s
  s.abortEnd (if (s.queue q).state = .disabled then 0 else 2)

/-- Aborts a channel (R410). -/
def State.abortChanObj (s : State) (c : Nat) (drained : Bool) : State :=
  let s := (s.setFld F.hostBcfg_ENABLE 0 c).disableChan c
  let s := if drained then s.flushChan c else s
  s.abortEnd (if (s.chan c).state = .disabled then 0 else 2)

/-- FLT_ABORT (R410): one queue, channel, mailbox session, context, token session or watch ends; an INDEX that names no
object is refused. -/
def execFltAbort (port : Nat) (type : BitVec 3) (index : BitVec 13) (drained : Bool) (s : State) : Res :=
  let i := index.toNat
  .next <| s.ownerCmd port (s.fld F.fltAbort_BUSY == 1 || decide (type = 0 ∨ type = 7)) F.fltErr_REG_ERR fun s =>
    let s := (s.setFld F.fltAbort_TYPE type.toNat).setFld F.fltAbort_INDEX i
    match type.toNat with
    | 1 => if 256 ≤ i then s.abortEnd 1 else s.abortQueueObj i drained
    | 2 => if 128 ≤ i then s.abortEnd 1 else s.abortChanObj i drained
    | 3 => if 65 ≤ i then s.abortEnd 1 else (s.endSession i).abortEnd 0
    | 4 => if 254 ≤ i then s.abortEnd 1 else (if (s.ctx i).st = .free then s else s.freeCtx i).abortEnd 0
    | 5 =>
      let x := s.tok i
      let s := s.setTok i {}
      (match x.origin with | some o => s.tokEnd o 0 | none => s).abortEnd 0
    | _ =>
      if 64 ≤ i then s.abortEnd 1
      else (if (s.watch i).st = .free then s else s.disarm i).abortEnd 0

/-! ### What a forced reset discards (R411, R412, Table 4) -/

/-- A request that a lane reset discards completes RETRY. -/
def State.retry (s : State) (t : Txn) : State :=
  if t.req.write then s.completeWrite t .retry false else s.queueRsp t noRow .retry [0, 0] false

/-- A read that a lane reset discards completes RETRY; one already presented provisionally never gets its verdict, and
its step is poisoned. -/
def State.retryRead (s : State) (r : Rd) : State :=
  let drop := fun (s : State) => s.withMem { s.mem with reads := s.mem.reads.filter fun x => !(x.txn.id == r.txn.id),
                                                        rsps := s.mem.rsps.filter fun x => !(x.id == r.txn.id) }
  let step := r.txn.req.step.toNat
  if r.presented then ((drop s).poisonStep step (reqLine r.txn.req)).passRead step r.txn.id
  else
    let s := (drop s).retry r.txn
    match r.upper with | some u => s.retry u | none => s

/-- Lines whose completed write is discarded read POISON until they are written again (R412). -/
def State.spoil (s : State) (lines : List Nat) : State :=
  s.withMem { s.mem with poisoned := lines.foldl nsInsert s.mem.poisoned }

/-- A lane's work that has not drained is discarded (R412, Table 4): requests and reads complete RETRY, held writes poison
their steps, page moves are abandoned with their pages unchanged, those of the harrow too (Table 10), and completed writes
are lost; what belongs to the counter-cache slice is kept. -/
def State.discardLane (s : State) (n : Nat) : State :=
  let m := s.mem
  let spans := m.spanGranted.filter (·.lane == n)
  let pair := fun (t : Txn) => spans.any fun u => reqPartner u.req t.req
  let gone := (m.ingress.filter fun t => t.lane == n || pair t) ++ spans ++
    ((m.waitCredit.filter fun w => w.1.any (·.lane == n)).map (·.1)).flatten
  let reads := m.reads.filter fun r => r.txn.lane == n || (match r.upper with | some u => u.lane == n | none => false)
  let held := m.held.filter fun h => match h.what with | .mem t _ => t.lane == n | _ => false
  let moves := m.moves.filter (·.lane == n)
  let lost := (m.wbuf.filter (·.lane == n)).map (·.line) ++ (moves.map fun x => x.fresh.map (·.1)).flatten ++
    ((m.metaWrites.filter (·.txn.lane == n)).map fun w => upto (reqLine w.txn.req) (reqLines w.txn.req)).flatten
  let isMeta := fun (a : Access) => match a.purpose with | .mdata _ _ | .remdata _ _ | .mwrite _ _ => true | _ => false
  let pages := m.closed.filter fun x => s.laneOf (s.groupOf (x.page * 4096)) == some n
  let s := s.withMem { m with
    ingress := m.ingress.filter fun t => !(t.lane == n || pair t),
    spanGranted := m.spanGranted.filter fun t => !(t.lane == n),
    waitCredit := m.waitCredit.filter fun w => !(w.1.any (·.lane == n)),
    wbuf := m.wbuf.filter fun w => !(w.lane == n),
    moves := m.moves.filter fun x => !(x.lane == n),
    metaWrites := m.metaWrites.filter fun w => !(w.txn.lane == n),
    accesses := m.accesses.filter fun a => isMeta a || !(a.lane == n) }
  let s := reads.foldl State.retryRead (gone.foldl State.retry s)
  let s := held.foldl (fun s h => s.poisonStep h.step (match h.what with | .mem t _ => reqLine t.req | _ => 0)) s
  let s := s.setLane n { s.lane n with maint := (s.lane n).maint.filter (·.access.any isMeta), full := false }
  pages.foldl (fun s x => s.openPage x.job x.page) (s.spoil lost)

/-- A port's work that has not drained is discarded (R411): every flow on it breaks or moves to its next generation on
another port. -/
def State.discardPort (s : State) (n : Nat) : State :=
  let old := s.port n
  let rx := s.links.rx.filter fun f => f.port == n && !f.broken
  let s := rx.foldl (fun s f => s.breakAt n f f.next false) s
  let s := s.setPort n { old with att := none }
  let tx := s.links.tx.filter fun f => f.port == n
  let s := tx.foldl (fun s f => (s.moveTx f f.waiting).getD (s.setTx { f with down := true })) s
  s.setPort n old

/-- Commands and transfers with host operands in flight are ABORTED, and queues with host rings and all bounce channels
stop (R411, Table 4). -/
def State.discardHost (s : State) : State :=
  let host := fun (c : Cmd) => decide (c.st = .running) && (bit c.desc.src 63 || bit c.desc.dst 63)
  let s := s.svc.queues.foldl (fun s e =>
    let s := e.2.cmds.foldl (fun s c => if host c then s.abortCmd e.1 c.k 3 0 else s) s
    if (s.queue e.1).state = .running && (s.fld F.svcQbase_LOC e.1 == 1 || s.fld F.svcQcbase_LOC e.1 == 1) then
      s.stopQueue e.1 else s) s
  s.host.chans.foldl (fun s e =>
    let s := s.abortChan e.1
    if (s.chan e.1).state = .running then s.stopChan e.1 else s) s

/-- The pages that the harrow has closed open unchanged, and are moved again later (Table 4). -/
def State.openAll (s : State) : State := s.mem.closed.foldl (fun s x => s.openPage x.job x.page) s

/-! ### Engine resets -/

/-- Ends a reset of a unit (R411): its RESULT, and an ENGINE_RESET record. -/
def State.resetEnd (s : State) (src : Src) (inst code : Nat) : State :=
  ((s.setFld F.fltReset_RESULT code).setFld F.fltReset_BUSY 0).record .engineReset src inst none code 0

/-- Ends a reset that was refused: nothing was reset, and nothing is recorded. -/
def State.resetRefused (s : State) : State := (s.setFld F.fltReset_RESULT 3).setFld F.fltReset_BUSY 0

/-- A reset of an engine without a spare (R411): what remains is discarded unless it drained; one that fails its tests is
out of service until a reset that it passes. -/
def State.resetEngine (s : State) (unit : Nat) (src : Src) (drained : Bool) (tests : TestOut) (discard : State → State)
    (clear : State → State) : State :=
  let s := clear (if drained then s else discard s)
  let rest := s.units.dead.filter (· != unit)
  let dead := if tests = 0 then rest else nsInsert rest unit
  let s := { s with units := { s.units with dead := dead } }
  if tests = 0 then s.resetEnd src 0 (if drained then 0 else 2)
  else (s.record .unitOut src 0 none 0 0).resetEnd src 0 4

/-- A lane is reset (R411): with a spare as a swap, which ends with its switch-over; otherwise in place. -/
def State.resetLane (s : State) (n : Nat) (drained : Bool) (tests : TestOut) : State :=
  let l := s.lane n
  if l.role = .draining ∨ l.swapTo.isSome then s.resetRefused
  else if l.role = .active then
    match s.spareLane with
    | some sp =>
      let stage := min tests 5
      let s := s.setLane sp { s.lane sp with bistOk := decide (tests = 0) }
      if tests = 0 then s.setLane n { s.lane n with swapTo := some sp }
      else (s.bistFailed .lane sp stage).resetEnd .lane n 4
    | none =>
      let s := if drained then s else s.discardLane n
      if tests = 0 then s.resetEnd .lane n (if drained then 0 else 2)
      else ((s.laneOut n).record .unitOut .lane n none 0 0).resetEnd .lane n 4
  else
    let s := s.setLane n { l with bistOk := decide (tests = 0), role := if tests = 0 then l.role else .bypassed }
    if tests = 0 then s.resetEnd .lane n 0 else (s.record .unitOut .lane n none 0 0).resetEnd .lane n 4

/-- A port is reset (R411). -/
def State.resetPort (s : State) (n : Nat) (drained : Bool) (tests : TestOut) : State :=
  let l := s.port n
  if l.role = .draining ∨ l.swapTo.isSome then s.resetRefused
  else if l.serves then
    match s.sparePort with
    | some sp =>
      let s := s.setPort sp { s.port sp with bistOk := decide (tests = 0) }
      if tests = 0 then s.setPort n { s.port n with swapTo := some sp }
      else (s.bistFailed .port sp (min tests 5)).resetEnd .port n 4
    | none =>
      let s := if drained then s else s.discardPort n
      if tests = 0 then s.resetEnd .port n (if drained then 0 else 2)
      else ((s.portOut n).record .unitOut .port n none 0 0).resetEnd .port n 4
  else
    let s := s.setPort n { l with bistOk := decide (tests = 0), role := if tests = 0 then l.role else .bypassed }
    if tests = 0 then s.resetEnd .port n 0 else (s.record .unitOut .port n none 0 0).resetEnd .port n 4

/-- A Keccak cluster is reset (R411): with a spare for each of its working cores as swaps, otherwise in place, its chunks
dispatched again. -/
def State.resetCluster (s : State) (k : Nat) (drained : Bool) (tests : TestOut) : State :=
  let cores := upto (4 * k) 4
  let work := cores.filter fun c => decide ((s.core c).role = .active)
  let spares := (upto 0 68).filter fun c => decide ((s.core c).role = .spare) && !cores.contains c
  if !work.isEmpty && decide (work.length ≤ spares.length) then
    let use := spares.take work.length
    let s := use.foldl (fun s c => s.setCore c { s.core c with bistOk := decide (tests = 0) }) s
    if tests = 0 then
      ((work.zip use).foldl (fun s (p : Nat × Nat) => s.steerCore p.1 p.2 0) s).resetEnd .core (4 * k) 1
    else (s.bistFailed .core (use.headD 0) (min tests 3)).resetEnd .core (4 * k) 4
  else
    let s := if drained then s else cores.foldl State.redispatch s
    if tests = 0 then s.resetEnd .core (4 * k) (if drained then 0 else 2)
    else
      let s := (cores.foldl State.redispatch s)
      let s := cores.foldl (fun s c => s.setCore c { s.core c with role := .bypassed }) s
      (s.record .unitOut .core (4 * k) none 0 0).resetEnd .core (4 * k) 4

/-- A reeve core is reset (R411): a lockstep core is replaced by the spare, then tested and made SPARE; refused while the
spare serves an update, or with no spare. -/
def State.resetReeve (s : State) (i : Nat) (tests : TestOut) : State :=
  let u := s.unitOf 4 i
  let tested := fun (s : State) =>
    if tests = 0 then (s.setUnit 4 i { s.unitOf 4 i with role := .spare, bistOk := true }).resetEnd .reeve i 0
    else
      let s := s.setUnit 4 i { s.unitOf 4 i with role := .bypassed, bistOk := false }
      (s.record .unitOut .reeve i none 0 0).resetEnd .reeve i 4
  if s.fwu.st ≠ .idle then s.resetRefused
  else if u.role = .active then
    match (upto 0 3).find? fun j => decide ((s.unitOf 4 j).role = .spare) with
    | some sp => tested (s.steerUnit 4 i sp 0)
    | none => s.resetRefused
  else tested s

/-- FLT_RESET (R411): one unit of Table 4 is reset. -/
def execFltReset (port : Nat) (unit : BitVec 4) (index : BitVec 6) (drained : Bool) (tests : TestOut) (s : State) : Res :=
  let i := index.toNat
  .next <| s.ownerCmd port (s.fld F.fltReset_BUSY == 1 || decide (unit = 0 ∨ 10 ≤ unit.toNat)) F.fltErr_REG_ERR fun s =>
    let s := ((s.setFld F.fltReset_UNIT unit.toNat).setFld F.fltReset_INDEX i).setFld F.fltReset_BUSY 1
    match unit.toNat with
    | 1 => if 44 ≤ i then s.resetRefused else s.resetLane i drained tests
    | 2 => if 40 ≤ i then s.resetRefused else s.resetPort i drained tests
    | 3 => s.resetEngine 3 .scu drained tests State.resetScu id
    | 4 => if 17 ≤ i then s.resetRefused else s.resetCluster i drained tests
    | 5 => if 3 ≤ i then s.resetRefused else s.resetReeve i tests
    | 6 => s.resetEngine 6 .pku drained tests State.resetPku id
    | 7 => s.resetEngine 7 .harrow drained tests State.openAll id
    | 8 => s.resetEngine 8 .sheaf drained tests State.resetShf id
    | _ => s.resetEngine 9 .host drained tests State.discardHost fun s => { s with host := { s.host with atc := [] } }

/-! ### Chip and power -/

/-- lz_warm_req rises (R417, R461). -/
def State.raiseWarm (s : State) : State :=
  if s.life.warmReq then s else ({ s with life := { s.life with warmReq := true } }).emit (.warmReq true)

/-- WARM_REQ (R417): the block goes on serving. -/
def execWarmReq (port : Nat) (s : State) : Res :=
  .next (s.ownerCmd port false F.fltErr_REG_ERR fun s => (s.setFld F.fltCtl_WARM_REQ 1).raiseWarm)

/-- PWR_REQ (R419): power-cycle requests are sent from now on, with one FATAL record. -/
def execPwrReq (port : Nat) (s : State) : Res :=
  .next (s.ownerCmd port false F.fltErr_REG_ERR fun s =>
    if s.units.pwrReq then s
    else
      let reason := s.fld F.fltCtl_REASON
      let s := { s.setFld F.fltCtl_PWR_REQ 1 with units := { s.units with pwrReq := true } }
      s.record .powerCycleReq .fault 0 none reason 0)

/-- PWR_STOP (R419): they are no longer sent. -/
def execPwrStop (port : Nat) (s : State) : Res :=
  .next (s.ownerCmd port false F.fltErr_REG_ERR fun s =>
    { s.setFld F.fltCtl_PWR_REQ 0 with units := { s.units with pwrReq := false } })

/-- Bytes 0 to 43 of a power-cycle request (Table 6). -/
def State.powerRecord (s : State) : Bytes :=
  leBytes 4 (s.otpWord 131) ++ ascii "LZPC" ++ [1] ++ leBytes 1 (s.fld F.fltCtl_REASON) ++ zeros 2 ++
  bvBytes s.ident ++ leBytes 8 s.life.time ++ leBytes 4 ((s.faults.seq + 2 ^ 32 - 1) % 2 ^ 32) ++ zeros 4

/-- POWER_CYCLE_SEND (R419): the signed request goes to the tray controller as a vendor-defined message;
its signature waits while ES_FAIL is set (R196). -/
def execPowerCycleSend (s : State) : Res :=
  if !s.units.pwrReq ∨ !s.life.powered ∨ !s.predOk then .next s
  else
    let b := s.powerRecord
    let (sig, s) := s.signEcdsa b
    .next (s.emit (.mctp ([0x7F] ++ b ++ sig)))

/-! ### The gleaner -/

/-- GLEANER_RECORD (R405, R420): the oldest staged record is written. -/
def execGleanerRecord (s : State) : Res := .next s.writeRecord

/-- FREEZE (R420). -/
def execFreeze (port : Nat) (s : State) : Res :=
  .next (s.ownerCmd port false F.fltErr_REG_ERR fun s => { s with faults := { s.faults with frozen := true } })

/-- UNFREEZE (R420). -/
def execUnfreeze (port : Nat) (s : State) : Res :=
  .next (s.ownerCmd port false F.fltErr_REG_ERR fun s => { s with faults := { s.faults with frozen := false } })

/-- The image of a partner's gleaner that PEER_COPY writes (R423): the header, then the 4,096 records in ring order. A
record stands at its sequence modulo 4,096, so the newest sequence gives the head. -/
def peerImage (ident : BitVec 128) (x : Image) : Bytes :=
  let rs := (upto 0 4096).map fun i => itemData x.items 8 i
  let used := rs.filter fun r => !r.all (· == 0)
  let newest := (used.map fun r => le r 8 4).foldl max 0
  let head := if used.isEmpty then 0 else (newest + 1) % 4096
  ascii "LZGLNCP1" ++ bvBytes ident ++ leBytes 4 head ++ leBytes 4 newest ++ leBytes 8 x.seq ++ zeros 24 ++ rs.flatten

/-- PEER_COPY (R423): the region is checked first, then whether an image is held. -/
def execPeerCopy (port : Nat) (s : State) : Res :=
  .next (s.ownerCmd port (s.fld F.glnCtl_BUSY == 1) F.fltErr_REG_ERR fun s =>
    let addr := s.fld F.glnArg_ADDR
    match s.operandRow 0 true addr (64 + 4096 * 32) 1 with
    | none => s.setFld F.glnCtl_RESULT 2
    | some i =>
      if (s.row i).kind ≠ .tilled then s.setFld F.glnCtl_RESULT 2
      else if !s.pair.image.held then s.setFld F.glnCtl_RESULT 1
      else
        let ident := match s.pairPlot with | some p => p.partnerId | none => 0
        let (ok, s) := s.maintBytes (s.row i).part addr (peerImage ident s.pair.image)
        s.setFld F.glnCtl_RESULT (if ok then 0 else 2))

/-! ### Rehearsal -/

/-- Ends an injection with its RESULT. -/
def State.injectEnd (s : State) (code : Nat) : State := (s.setFld F.fltInject_RESULT code).setFld F.fltInject_BUSY 0

/-- The active REHEARSAL plot permits an injection (R424). -/
def RehPlot.permits (p : RehPlot) (kind target line : Nat) (canary : Region) : Bool :=
  match kind with
  | 1 => p.tag && decide (line < canary.count * linesPerGranule)
  | 2 => p.link && bit p.ports target
  | _ => p.lane && bit p.lanes target

/-- An injection would fall outside its rate: as many as the plot permits lie in the last second. -/
def State.injectRate (s : State) (p : RehPlot) : Bool :=
  decide (p.rate ≤ (s.faults.injTimes.filter fun t => decide (s.life.time < t + 10 ^ 9)).length)

/-- The other PAIR port is down or dropped (R424). -/
def State.otherPairDown (s : State) (n : Nat) : Bool :=
  decide ((s.port n).role = .pair) &&
    !((upto 0 40).any fun m => decide (m ≠ n ∧ (s.port m).role = .pair) && s.portUp m)

/-- The state of the block admits an injection (R424). -/
def State.injectable (s : State) (kind target : Nat) : Bool :=
  match kind with
  | 1 => true
  | 2 => (s.port target).serves && !s.faults.linkDrop.contains target && !s.otherPairDown target
  | _ => decide ((s.lane target).role = .active) && (s.lane target).swapTo.isNone && s.spareLane.isSome

/-- Applies an injection (R424). -/
def State.applyInject (s : State) (kind : Nat) (dbl : Bool) (target line : Nat) : State :=
  match kind with
  | 1 => { s.setFld F.fltInject_RESULT 5 with faults := { s.faults with tagInject := some { line := line, dbl := dbl } } }
  | 2 =>
    let s := { s with faults := { s.faults with linkDrop := s.faults.linkDrop ++ [target] } }
    (s.incFld F.fltRehearsal_LINK).portDown target true
  | _ => (s.incFld F.fltRehearsal_LANE).setLane target { s.lane target with swapTo := s.spareLane }

/-- INJECT (R424): authorised against the active REHEARSAL plot and its rate, then applied. -/
def execInject (port : Nat) (kind : BitVec 2) (dbl : Bool) (target : BitVec 8) (s : State) : Res :=
  let k := kind.toNat
  let t := target.toNat
  .next <| s.ownerCmd port (s.fld F.fltInject_BUSY == 1 || decide (kind = 0)) F.fltErr_REG_ERR fun s =>
    let off := s.fld F.fltInjarg_LINE
    let s := ((s.setFld F.fltInject_KIND k).setFld F.fltInject_DOUBLE (if dbl then 1 else 0)).setFld F.fltInject_TARGET t
    match s.cfg.active.bind (·.rehearsal) with
    | none => s.injectEnd 1
    | some p =>
      let r := s.row p.canary
      if !p.permits k t off r then s.injectEnd 1
      else if s.injectRate p then s.injectEnd 2
      else if !s.injectable k t then s.injectEnd 3
      else
        let line := r.base * linesPerGranule + off
        let s := { s with faults := { s.faults with injTimes := s.life.time :: s.faults.injTimes } }
        let s := s.record .inject .fault 0 none k (if k = 1 then line * 64 else t) true
        (s.setFld F.fltInject_BUSY 1).applyInject k dbl t line

/-- INJECT_EXPIRY (R424): an armed TAG injection that no read took expires; a link drop ends. -/
def execInjectExpiry (s : State) : Res :=
  if s.fld F.fltInject_BUSY = 0 then .next s
  else
    match s.fld F.fltInject_KIND with
    | 1 =>
      match s.faults.tagInject with
      | some i =>
        if i.taken.isSome then .next s
        else .next (({ s with faults := { s.faults with tagInject := none } }).injectEnd 4)
      | none => .next s
    | 2 =>
      let n := s.fld F.fltInject_TARGET
      .next (({ s with faults := { s.faults with linkDrop := s.faults.linkDrop.filter (· != n) } }).injectEnd 0)
    | _ => .next s

/-! ### Margins and the reeve -/

/-- An attachment is served by a port. -/
def State.served (s : State) (att : Nat) : Bool := (upto 0 40).any fun n => (s.port n).att == some att

/-- The minimum of a margin code and the ones since the last read of its register (R425). -/
def State.marginMin (s : State) (n : Nat) (f : Fld) (x : Nat) : Nat := min (s.fld f n) x

/-- A sample shows its codes and their minima (R425). -/
def State.showMargin (s : State) (n a b : Nat) : State :=
  let minA := s.marginMin n F.margin_MIN_A a
  let minB := s.marginMin n F.margin_MIN_B b
  let s := ((s.setFld F.margin_VALID 1 n).setFld F.margin_CUR_A a n).setFld F.margin_CUR_B b n
  (s.setFld F.margin_MIN_A minA n).setFld F.margin_MIN_B minB n

/-- A sample takes a minimum below its threshold, and the source's event has not fired since its last read (R425). -/
def State.marginLow (s : State) (n a b : Nat) : Bool :=
  decide (s.marginMin n F.margin_MIN_A a < s.fld F.margin_THRESH_A n ∨
    s.marginMin n F.margin_MIN_B b < s.fld F.margin_THRESH_B n) && !s.faults.marginFired.contains n && s.regsOpen

/-- MARGIN_SAMPLE (R425, R430): the current codes and their minima; a minimum below its threshold writes one MARGIN
record, until an owner's read resets it. A sensor has no field B, and an attachment that is not served is not valid. -/
def execMarginSample (n : Nat) (a b : BitVec 8) (valid : Bool) (s : State) : Res :=
  if 68 ≤ n ∨ !s.life.powered then .next s
  else if !valid ∨ (32 ≤ n ∧ !s.served (n - 32)) then .next (s.setFld F.margin_VALID 0 n)
  else
    let b := if n < 32 then 0 else b.toNat
    if s.marginLow n a.toNat b then
      let fired := nsInsert s.faults.marginFired n
      let arg := s.marginMin n F.margin_MIN_A a.toNat + s.marginMin n F.margin_MIN_B b * 256
      let s := s.showMargin n a.toNat b
      .next (({ s with faults := { s.faults with marginFired := fired } }).record .margin .sensor n none n arg)
    else .next (s.showMargin n a.toNat b)

/-- REEVE_HEARTBEAT (R407): the reeve firmware, which runs from phase BOOT, counts LZ_HEARTBEAT. -/
def execReeveHeartbeat (s : State) : Res :=
  if s.life.powered ∧ 5 ≤ s.life.phase ∧ s.life.phase ≠ 10 then
    .next (s.wr .heartbeat ((s.rd .heartbeat + 1) % 2 ^ 64))
  else .next s

end Sys2Proof.Machine
end

