-- ==== Sys2Proof/Machine/Own.lean ====
section
/-! DEFINITION. Ownership (R353 to R362): claims, cohorts and handovers. -/

namespace Sys2Proof.Machine

/-! ### The owner authority -/

/-- The owner authority digest in the user OTP area (R364): words 864 to 869. -/
def State.otpAuthority (s : State) : Digest :=
  BitVec.ofNat 384 (((upto 0 6).map fun i => s.otpWord (864 + i) * 2 ^ (64 * i)).sum)

/-- The owner authority digest in force (R364): in PRODUCTION what the rows hold once they are programmed, in TEST what the
first swap since the last cold start gave. -/
def State.authority (s : State) : Option Digest :=
  match s.life.lc with
  | .production => if s.otpAuthority = 0 then none else some s.otpAuthority
  | .test => s.cfg.testAuthority
  | _ => none

/-! ### Programming OTP rows -/

/-- The number of the lowest free spare row: one whose repair entry is not valid (R387). -/
def State.freeSpare (s : State) : Option Nat := (upto 0 32).find? fun k => !bit (s.otpWord (99 + k)) 63

/-- Programs a row with a value that only adds bits (R387), `rowOk` telling whether it verifies within three pulses and
`spareOk` whether the spare row and its entry do; the RESULT and the state. A row that fails holds some of the bits. -/
def State.programRow (s : State) (w v : Nat) (rowOk spareOk : Bool) : Nat × State :=
  let c := s.otpWord w
  if rowOk then (0, s.otpPut w v)
  else
    let x := c ||| (v &&& (s.freeVal 64).toNat)
    let s := (s.freed.otpPut w (if x = v then c else x)).incFld F.otpErr_VERIFY_FAIL
    match s.freeSpare with
    | none => (5, s)
    | some k =>
      if !spareOk then (5, s)
      else
        let rows := tset 0 (tset 0 s.otp.rows (992 + k) v) ((tget none s.otp.remap (99 + k)).getD (99 + k)) (2 ^ 63 + w)
        (4, { s with otp := { s.otp with rows := rows, repairs := nsInsert s.otp.repairs w } })

/-- Programs rows with their values, in order, each verified and repaired onto a spare row if it fails (R387); whether every
one was programmed or repaired. How a row takes its pulses is the array's: a free value. -/
def State.programRows (s : State) : List (Nat × Nat) → Bool × State
  | [] => (true, s)
  | (w, v) :: t =>
    let out := s.freeVal 2
    let (code, s) := s.freed.programRow w v (out.getLsbD 0) (out.getLsbD 1)
    if code = 5 then (false, s) else s.programRows t

/-! ### Claims -/

/-- The bytes of a port's claim bank (R356). -/
def State.claimBank (s : State) (port : Nat) : Bytes :=
  ((upto 0 1024).map fun n => leBytes 8 (s.rd .ownClaimdata n 0 port)).flatten

/-- OWN_CLAIM_POST (R356): the bank is copied and its claim waits to be checked. -/
def execOwnClaimPost (port : Nat) (s : State) : Res :=
  if !s.regsOpen ∨ 6 ≤ port then .next s
  else if s.fld F.ownClaim_BUSY 0 port = 1 then .next (s.regBad port F.ownErr_REG_ERR)
  else
    let s := (s.setFld F.ownClaim_POST 1 0 port).setFld F.ownClaim_BUSY 1 0 port
    let c : Claim := { port := port, time := s.life.time, bytes := s.claimBank port }
    .next (({ s with own := { s.own with claims := s.own.claims ++ [c] } }).regRsp port 0 false)

/-- The claim nonce. -/
def State.claimNonce (s : State) : Nat := s.rd .ownNonce0 + s.rd .ownNonce1 * 2 ^ 64

/-- The delegate digest of a handover (R360). -/
def State.hdigest (s : State) : Digest :=
  BitVec.ofNat 384 (((upto 0 6).map fun j => s.rd .ownHdigest j * 2 ^ (64 * j)).sum)

/-- Draws a new claim nonce (R359). -/
def State.newNonce (s : State) : State :=
  let n := (s.drawn 128).toNat
  ((s.drew).wr .ownNonce0 (n % 2 ^ 64)).wr .ownNonce1 (n / 2 ^ 64)

/-- The claim record's form (Table 1): magic, version, reserved fields, and an epoch below 2^48. -/
def claimForm (port : Nat) (b : Bytes) : Bool :=
  b.take 8 == ascii "LZCLAIM1" && decide (le b 8 2 = 1 ∧ le b 10 1 < 2 ∧ le b 11 1 = port ∧ le b 38 2 = 0) &&
  zeroAt b 12 4 && zeroAt b 56 8 && zeroAt b 2753 15

/-- SHA3-384 of the two public keys of a claim, a transition request or an image (R364), which all hold them at 64. -/
def keysDigest (b : Bytes) : Digest := Config.sha3_384 (sub b 64 2689)

/-- The two public keys of such a record. -/
def recordKeys (b : Bytes) : Bytes × Bytes := (sub b 64 2592, sub b 2656 97)

/-- The checks of a claim in the order of Table 2; the code of the first that fails. -/
def State.claimCheck (s : State) (c : Claim) : Option Nat :=
  let b := c.bytes
  let delegate := bit (le b 10 1) 0
  let open_ := s.fld F.ownStatus_HANDOVER == 1 && s.fld F.ownStatus_SUCCESSOR == c.port
  if s.life.lc = .blank ∨ s.life.lc = .endOfLife then some 8
  else if !claimForm c.port b then some 4
  else if sub b 16 16 ≠ bvBytes s.ident then some 5
  else if le b 40 16 ≠ s.claimNonce ∨ le b 32 8 ≤ s.fld F.ownEpoch_EPOCH then some 3
  else if delegate && (!open_ || s.hdigest == 0 || keysDigest b != s.hdigest) then some 6
  else if !delegate && s.authority != some (keysDigest b) then some 7
  else if !verifyBoth (recordKeys b) (b.take 2768) (ascii "LZCLAIM") (sub b 2768 4723) then some 7
  else none

/-- Whether a claim's signatures are verified, which the PKU does as its own operations (R358). -/
def claimVerified (r : Option Nat) (b : Bytes) (authority : Option Digest) : Bool :=
  match r with
  | none => true
  | some 7 => bit (le b 10 1) 0 || authority == some (keysDigest b)
  | some _ => false

/-- Ends a claim with its RESULT. -/
def State.claimEnd (s : State) (port code : Nat) : State :=
  ((s.setFld F.ownClaim_RESULT code 0 port).setFld F.ownClaim_BUSY 0 0 port).setFld F.ownClaim_POST 0 0 port

/-- Closes any handover. -/
def State.handoverEnd (s : State) (code : Nat) : State :=
  { s.setFld F.ownStatus_HANDOVER code with own := { s.own with lapseAt := 0 } }

/-- Ownership moves (R359): the owner, its epoch, and the event. -/
def State.moveOwner (s : State) (port epoch : Nat) (delegated : Bool) : State :=
  let s := (s.setFld F.ownStatus_OWNER port).setFld F.ownEpoch_EPOCH epoch
  let s := (s.setFld F.ownStatus_DELEGATED (if delegated then 1 else 0)).handoverEnd 0
  (s.trace 5 3 (Src.config.at 0) none port 0 epoch).record .ownerChange .config 0 none port epoch

/-- The winner of a cohort (R358): the highest epoch, then the lowest port. -/
def cohortWinner : List Claim → Option Claim
  | [] => none
  | c :: t =>
    match cohortWinner t with
    | none => some c
    | some d =>
      let a := le c.bytes 32 8
      let b := le d.bytes 32 8
      if b < a ∨ (a = b ∧ c.port < d.port) then some c else some d

/-- COHORT_DECISION (R357 to R359): the oldest cohort, the claims posted at one time, is decided; one with a winner waits
while the DRBG refuses the new nonce (R196). -/
def execCohortDecision (s : State) : Res :=
  match s.own.claims with
  | [] => .next s
  | c :: _ =>
    let cohort := s.own.claims.filter (·.time == c.time)
    let rest := s.own.claims.filter (·.time != c.time)
    let checked := cohort.map fun c => (c, s.claimCheck c)
    let good := (checked.filter fun x => x.2.isNone).map (·.1)
    if !s.life.ready ∨ (!good.isEmpty ∧ !s.drbgOk) then .next s
    else
      let ops := (checked.filter fun x => claimVerified x.2 x.1.bytes s.authority).length
      let s := { s.pkuOwn (2 * ops) with own := { s.own with claims := rest } }
      let s := checked.foldl (fun s x => match x.2 with
        | some code => (s.incFld F.ownErr_INVALID).claimEnd x.1.port code
        | none => s) s
      match cohortWinner good with
      | none => .next s
      | some w =>
        let s := (good.filter (·.port != w.port)).foldl (fun s c => (s.incFld F.ownErr_LOST).claimEnd c.port 2) s
        let s := s.moveOwner w.port (le w.bytes 32 8) (bit (le w.bytes 10 1) 0)
        .next ((s.newNonce).claimEnd w.port 1)

/-! ### Handover -/

/-- HANDOVER_GO (R360): a handover opens to a successor for 1 s; one to attach port 0 completes at once. A GO that names the
owner's own port, or no port, is answered with an error. -/
def execHandoverGo (port : Nat) (succ : BitVec 3) (s : State) : Res :=
  let n := succ.toNat
  .next <| s.ownerCmd port (decide (6 ≤ n ∨ n = s.ownerPort)) F.ownErr_REG_ERR fun s =>
    let next := s.fld F.ownEpoch_EPOCH + 1
    let s := (s.setFld F.ownHandover_SUCCESSOR n).setFld F.ownStatus_SUCCESSOR n
    if n = 0 then s.moveOwner 0 next false
    else { s.setFld F.ownStatus_HANDOVER 1 with own := { s.own with lapseAt := s.life.time + 10 ^ 9 } }

/-- HANDOVER_CANCEL (R360): an OPEN handover closes. -/
def execHandoverCancel (port : Nat) (s : State) : Res :=
  .next <| s.ownerCmd port false F.ownErr_REG_ERR fun s =>
    if s.fld F.ownStatus_HANDOVER = 1 then s.handoverEnd 0 else s

/-- HANDOVER_LAPSE (R360): an OPEN handover lapses 1 s after its GO. -/
def execHandoverLapse (s : State) : Res :=
  if s.fld F.ownStatus_HANDOVER = 1 ∧ s.own.lapseAt ≤ s.life.time then
    .next ((s.incFld F.ownErr_HANDOVER_LAPSED).handoverEnd 2)
  else .next s

end Sys2Proof.Machine
end

