-- ==== Sys2Proof/Machine/Pesum.lean ====
section
/-! DEFINITION. The Pesum image (R363, R365): its layout, its plots in decoded form, and the rules under which a plot
makes an image invalid (R366). A check is a pair: whether it holds, and the image offset of the field it looks at. -/

namespace Sys2Proof.Machine

/-- The offset of the first check that does not hold. -/
def firstBad (l : List (Bool × Nat)) : Option Nat := (l.find? fun c => !c.1).map (·.2)

/-- The number of plots (Table 8). -/
def plotCount (b : Bytes) : Nat := le b 10 1

/-- Where the directory ends (Table 8). -/
def dirEnd (b : Bytes) : Nat := 2768 + 16 * plotCount b

/-- Directory entry `k` (Table 8): type, offset, length. -/
def dirEntry (b : Bytes) (k : Nat) : Nat × Nat × Nat :=
  let o := 2768 + 16 * k
  (le b o 1, le b (o + 4) 4, le b (o + 8) 4)

/-- The directory of an image. -/
def directory (b : Bytes) : List (Nat × Nat × Nat) := (upto 0 (plotCount b)).map (dirEntry b)

/-- Where the plot of a type begins and how long it is. -/
def plotAt (b : Bytes) (t : Nat) : Option (Nat × Nat) := ((directory b).find? (·.1 == t)).map (·.2)

/-- The length that the layout gives a plot that begins at `o` (Table 9). -/
def plotLen (b : Bytes) (t o : Nat) : Nat :=
  match t with
  | 1 => 40 + 8 * le b (o + 32) 2
  | 2 => 2048
  | 3 => 64
  | 4 => 1600
  | 5 => 32 + 136 * le b (o + 20) 4
  | 6 => 16 + 16 * le b o 4
  | 7 => 1040
  | 8 => 480
  | 9 => 32 + 8 * le b (o + 4) 2
  | 10 => 32
  | 11 => 16
  | _ => 0

/-! ### Layout -/

/-- The checks of the header and trailer (Table 8, R10). -/
def headerChecks (b : Bytes) : List (Bool × Nat) :=
  let n := b.length
  let v := le b 24 8
  [(decide (n % 64 = 0 ∧ n ≤ 1048576 ∧ 7504 ≤ n), 16), (sub b 0 8 == ascii "LZPESUM1", 0), (le b 8 2 == 1, 8),
   (decide (6 ≤ plotCount b ∧ plotCount b ≤ 11), 10), (zeroAt b 11 5, 11), (le b 16 4 == n, 16),
   (zeroAt b 20 4, 20), (decide (1 ≤ v ∧ v < 2 ^ 63), 24), (zeroAt b 48 16, 48), (zeroAt b 2753 15, 2753),
   (zeroAt b (n - 13) 13, n - 13)]

/-- The checks of directory entry `k`, when the plots before it end at `last` and its predecessor has type `prev`: types
rise, the plot is aligned, lies after its predecessor and before the trailer, and has the length of its layout; the
bytes between two plots are zero. -/
def entryChecks (b : Bytes) (k prev last : Nat) : List (Bool × Nat) :=
  let o := 2768 + 16 * k
  let (t, off, len) := dirEntry b k
  [(decide (prev < t ∧ t ≤ 11), o), (zeroAt b (o + 1) 3, o + 1),
   (decide (off % 64 = 0 ∧ last ≤ off ∧ off + len ≤ b.length - 4736), o + 4),
   (decide (len = plotLen b t off), o + 8), (zeroAt b (o + 12) 4, o + 12), (zeroAt b last (off - last), last)]

/-- The checks of the directory from entry `k` on. -/
def dirChecks (b : Bytes) : (fuel k prev last : Nat) → List (Bool × Nat)
  | 0, _, _, last => [(zeroAt b last (b.length - 4736 - last), last)]
  | fuel + 1, k, prev, last =>
    let (t, off, len) := dirEntry b k
    entryChecks b k prev last ++ dirChecks b fuel (k + 1) t (off + len)

/-- The layout checks (Table 8): IDENT, PARTITIONS, LANES, PORTS, REGIONS and ARBITRATION are required. -/
def layoutBad (b : Bytes) : Option Nat :=
  match firstBad (headerChecks b) with
  | some o => some o
  | none => firstBad (dirChecks b (plotCount b) 0 0 (dirEnd b) ++
      ([1, 2, 3, 4, 5, 7] : List Nat).map fun t => ((plotAt b t).isSome, 2768))

/-! ### The plots in decoded form -/

/-- Entry `p` of PARTITIONS. -/
def readPart (b : Bytes) (o : Nat) : PartPlot :=
  let f := le b (o + 8) 1
  { present := bit f 0, radio := bit f 1, early := bit f 2, carveBase := le b o 4, carveCount := le b (o + 4) 4,
    hwinBase := le b (o + 16) 8, hwinPages := le b (o + 24) 4 }

/-- Entry `n` of PORTS; a SPARE port serves no attachment. -/
def readPort (b : Bytes) (o : Nat) : PortPlot :=
  let role := le b o 1
  let att := le b (o + 1) 1
  let rs := (upto 0 8).map fun i => (le b (o + 8 + 4 * i) 2, le b (o + 10 + 4 * i) 2)
  { role := role, att := if role = 2 ∨ att = 0x3F then none else some att, ranges := rs.filter fun r => r.1 != 0xFFFF }

/-- Entry `k` of KEYMAP. -/
def readKey (b : Bytes) (o : Nat) : KeyPlot :=
  { slot := le b o 2, kind := le b (o + 2) 1, exp := le b (o + 3) 1, cell := le b (o + 4) 4 }

/-- Entry `p` of ARBITRATION. -/
def readArb (b : Bytes) (o : Nat) : ArbPlot :=
  { weight := le b o 1, burst := le b (o + 2) 2, rate := le b (o + 4) 4, svcRate := le b (o + 8) 2,
    svcBurst := le b (o + 10) 2, hrate := le b (o + 12) 2, hburst := le b (o + 14) 2 }

/-- The DOMAIN plot. -/
def readDom (b : Bytes) (o : Nat) : DomPlot :=
  { domId := BitVec.ofNat 128 (le b o 16), unit := le b (o + 16) 2, gentag := le b (o + 18) 1 == 1,
    cands := (upto 0 (le b (o + 19) 1)).map fun i => le b (o + 32 + 2 * i) 2, testOk := bit (le b (o + 20) 1) 0,
    meas := (upto 0 (le b (o + 21) 1)).map fun i => BitVec.ofNat 384 (le b (o + 96 + 48 * i) 48),
    minVersion := le b (o + 24) 8, fmDigest := BitVec.ofNat 384 (le b (o + 48) 48) }

/-- The PAIR plot. -/
def readPair (b : Bytes) (o : Nat) : PairPlot :=
  { partner := le b o 2, attA := le b (o + 2) 1, attB := le b (o + 3) 1, radioSlot := le b (o + 6) 2,
    partnerId := BitVec.ofNat 128 (le b (o + 8) 16),
    cells := (upto 0 (le b (o + 4) 2)).map fun k => (le b (o + 32 + 8 * k) 4, le b (o + 36 + 8 * k) 1 == 1) }

/-- The REHEARSAL plot. -/
def readReh (b : Bytes) (o : Nat) : RehPlot :=
  let f := le b o 2
  { tag := bit f 0, link := bit f 1, lane := bit f 2, canary := le b (o + 4) 2, rate := le b (o + 6) 2,
    ports := le b (o + 8) 8, lanes := le b (o + 16) 8 }

/-- Where a required plot begins. -/
def plotOff (b : Bytes) (t : Nat) : Nat := ((plotAt b t).map (·.1)).getD 0

/-- Entry `k` of REGIONS: its row and its descriptor's bytes. -/
def regionEntry (b : Bytes) (k : Nat) : Nat × Bytes :=
  let o := plotOff b 5 + 32 + 136 * k
  (le b o 2, sub b (o + 8) 128)

/-- An image in decoded form (R363, R365). -/
def readPesum (b : Bytes) : Pesum :=
  let o1 := plotOff b 1
  let o2 := plotOff b 2
  let o3 := plotOff b 3
  let o4 := plotOff b 4
  let o5 := plotOff b 5
  let o7 := plotOff b 7
  { version := le b 24 8, unit := BitVec.ofNat 128 (le b 32 16), hash := Config.sha3_384 b, authority := keysDigest b,
    grade := le b o1 4, accVersion := BitVec.ofNat 128 (le b (o1 + 8) 16), reeveVersion := le b (o1 + 24) 8,
    profiles := (upto 0 (le b (o1 + 32) 2)).map fun i => le b (o1 + 40 + 8 * i) 8,
    parts := (upto 0 64).map fun p => readPart b (o2 + 32 * p),
    granule := 2 ^ le b o3 1, lanes := (upto 0 40).map fun g => le b (o3 + 8 + g) 1,
    ports := (upto 0 40).map fun n => readPort b (o4 + 40 * n),
    metaBase := le b o5 4, metaCount := le b (o5 + 4) 4, tspanBase := le b (o5 + 8) 4, tspanCount := le b (o5 + 12) 4,
    radioMeta := le b (o5 + 16) 1,
    regions := (upto 0 (le b (o5 + 20) 4)).map fun k =>
      ((regionEntry b k).1, (Staging.ofBytes (regionEntry b k).2).region),
    keymap := match plotAt b 6 with
      | some x => (upto 0 (le b x.1 4)).map fun k => readKey b (x.1 + 16 + 16 * k)
      | none => [],
    share := le b o7 2, arb := (upto 0 64).map fun p => readArb b (o7 + 16 + 16 * p),
    domain := (plotAt b 8).map fun x => readDom b x.1, pair := (plotAt b 9).map fun x => readPair b x.1,
    rehearsal := (plotAt b 10).map fun x => readReh b x.1,
    observe := (plotAt b 11).map fun x => (upto 0 6).map fun a => le b (x.1 + 2 * a) 2 }

/-! ### When a plot is invalid (Table 10) -/

/-- Granules of device memory (R83). -/
def allGranules : Nat := 196608

/-- A list has no repeats. -/
def distinct (l : List Nat) : Bool := l.eraseDups.length == l.length

/-- IDENT: its profiles, and the reeve firmware versions it may name. -/
def identChecks (b : Bytes) (o : Nat) (x : Pesum) (versions : List Nat) : List (Bool × Nat) :=
  let q := le b (o + 32) 2
  [(zeroAt b (o + 4) 4, o + 4), (versions.contains x.reeveVersion, o + 24), (decide (1 ≤ q ∧ q ≤ 64), o + 32),
   (zeroAt b (o + 34) 6, o + 34), (distinct x.profiles, o + 40)]

/-- PARTITIONS: each PRESENT carve-out has granules, ends within device memory, and overlaps no other and not the metadata
area; a partition that a radio region names is PRESENT if it is radio. -/
def partChecks (b : Bytes) (o : Nat) (x : Pesum) : List (Bool × Nat) :=
  ((upto 0 64).map fun p =>
    let q := x.parts.getD p {}
    let e := o + 32 * p
    let others := (upto 0 p).any fun i =>
      let r := x.parts.getD i {}
      r.present && overlap q.carveBase q.carveCount r.carveBase r.carveCount
    let named := x.regions.any fun r => r.2.radio && r.2.part == p
    [(!q.present || decide (q.carveCount ≠ 0 ∧ q.carveBase + q.carveCount ≤ allGranules) && !others &&
        !overlap q.carveBase q.carveCount x.metaBase x.metaCount, e),
     (decide (le b (e + 8) 1 < 8) && (q.present || !q.radio || !named), e + 8), (zeroAt b (e + 9) 7, e + 9),
     (decide (q.hwinBase % 4096 = 0), e + 16), (decide (q.hwinPages < 2 ^ 26), e + 24), (zeroAt b (e + 28) 4, e + 28)]).flatten

/-- LANES (R22): the interleave, and each group served by a lane of its own. -/
def laneChecks (b : Bytes) (o : Nat) (x : Pesum) : List (Bool × Nat) :=
  let i := le b o 1
  [(decide (11 ≤ i ∧ i ≤ 21), o), (zeroAt b (o + 1) 7, o + 1),
   (x.lanes.all (fun n => decide (n < 44)) && distinct x.lanes, o + 8), (zeroAt b (o + 48) 16, o + 48)]

/-- PORTS (R23): roles, attachments and ranges. -/
def portChecks (b : Bytes) (o : Nat) (x : Pesum) : List (Bool × Nat) :=
  let atts := x.ports.filterMap (·.att)
  let spares := (x.ports.filter fun p => p.role == 2).length
  ((upto 0 40).map fun n =>
    let p := x.ports.getD n {}
    let e := o + 40 * n
    let att := le b (e + 1) 1
    let pairPort := x.pair.isSome && decide (38 ≤ n)
    [(decide (p.role ≤ 2) && ((p.role == 1) == pairPort), e), (decide (att < 36 ∨ att = 0x3F), e + 1),
     (zeroAt b (e + 2) 6, e + 2), (p.ranges.all fun r => decide (r.1 ≤ r.2), e + 8)]).flatten
  ++ [(decide (spares = 4), o), (distinct atts, o)]

/-- The reserved and RO fields of an image's descriptor are zero (R10, R87). -/
def imageDescOk (d : Bytes) : Bool :=
  let w := fun j => le d (8 * j) 8
  let d0 := w 0
  (Staging.ofBytes d).reservedOk &&
    decide (bits d0 2 3 = 0 ∧ bits d0 6 1 = 0 ∧ bits d0 32 30 = 0 ∧ w 2 = 0 ∧ w 3 = 0 ∧ bits (w 4) 32 1 = 0 ∧ w 7 = 0)
    && zeroAt d 64 56

/-- A descriptor of an image breaks R86 or R88, apart from its KIDX: `before` are the entries that precede it. -/
def imageRegionOk (lc : Lc) (x : Pesum) (before : List (Nat × Region)) (r : Region) : Bool :=
  let p := x.parts.getD r.part {}
  decide (r.count ≠ 0 ∧ r.perm ≠ 0 ∧ (r.kind = .clear → lc = .test)) &&
  (!r.radio || (p.radio && decide (r.kind ≠ .sown))) &&
  !((bit r.perm 2 || bit r.perm 3) && decide (0xFC00 ≤ r.capidx)) &&
  p.present && decide (p.carveBase ≤ r.base ∧ r.base + r.count ≤ p.carveBase + p.carveCount) &&
  !(before.any fun e => overlap r.base r.count e.2.base e.2.count) &&
  !overlap r.base r.count x.metaBase x.metaCount &&
  decide (r.kind = .tilled → x.tspanBase ≤ r.base ∧ r.base + r.count ≤ x.tspanBase + x.tspanCount)

/-- REGIONS: the metadata area (R106) and the tilled span, the descriptors (R86 to R88), and the radio metadata (R109). -/
def regionChecks (b : Bytes) (o : Nat) (x : Pesum) (lc : Lc) : List (Bool × Nat) :=
  let radio := (x.regions.filter fun e => e.2.radio && e.2.kind == .tilled).map (·.2.count)
  [(decide (ceilDiv (x.tspanCount * 33288) 2097152 + 40 ≤ x.metaCount ∧ x.metaBase + x.metaCount ≤ allGranules) &&
      !overlap x.metaBase x.metaCount x.tspanBase x.tspanCount, o),
   (decide (x.tspanBase + x.tspanCount ≤ allGranules), o + 8),
   (decide (x.radioMeta ≤ 64 ∧ radio.sum * 33288 ≤ x.radioMeta * 65536), o + 16), (zeroAt b (o + 17) 3, o + 17),
   (zeroAt b (o + 24) 8, o + 24)] ++
  ((upto 0 x.regions.length).map fun k =>
    let e := o + 32 + 136 * k
    let before := x.regions.take k
    let r := x.regions.getD k (0, {})
    [(decide (r.1 < 16384) && !before.any fun q => q.1 == r.1, e), (zeroAt b (e + 2) 6, e + 2),
     (imageDescOk (sub b (e + 8) 128) && imageRegionOk lc x before r.2, e + 8)]).flatten

/-- KEYMAP: each slot in the range of its kind, once; a cell number only for CELL, an exponent only for SERVICE. -/
def keymapChecks (b : Bytes) (o : Nat) (x : Pesum) : List (Bool × Nat) :=
  (zeroAt b (o + 4) 12, o + 4) :: ((upto 0 x.keymap.length).map fun k =>
    let e := o + 16 + 16 * k
    let y := x.keymap.getD k ⟨0, 0, 0, 0⟩
    let range := (KeyKind.ofCode y.kind).range
    [(decide (range.1 ≤ y.slot ∧ y.slot ≤ range.2) && !(x.keymap.take k).any fun z => z.slot == y.slot, e),
     (([1, 2, 3, 6] : List Nat).contains y.kind, e + 2),
     (if y.kind = 6 then decide (10 ≤ y.exp ∧ y.exp ≤ 40) else y.exp == 0, e + 3),
     (y.kind == 2 || y.cell == 0, e + 4), (zeroAt b (e + 8) 8, e + 8)]).flatten

/-- ARBITRATION: no value that its register would treat as a reserved encoding. -/
def arbChecks (b : Bytes) (o : Nat) (x : Pesum) : List (Bool × Nat) :=
  [(decide (x.share ≤ 250), o), (zeroAt b (o + 2) 14, o + 2)] ++ ((upto 0 64).map fun p =>
    let e := o + 16 + 16 * p
    let a := x.arb.getD p {}
    [(a.weight != 0, e), (zeroAt b (e + 1) 1, e + 1), (decide (a.burst < 2 ^ 15), e + 2),
     (decide (a.rate ≤ 122880), e + 4), (decide (a.hrate ≤ 1536), e + 12), (decide (a.hburst < 2 ^ 15), e + 14)]).flatten

/-- DOMAIN. -/
def domainChecks (b : Bytes) (o : Nat) (d : DomPlot) : List (Bool × Nat) :=
  let n := le b (o + 19) 1
  [(decide (d.unit ≤ 16383), o + 16), (decide (le b (o + 18) 1 ≤ 1), o + 18), (decide (1 ≤ n ∧ n ≤ 8), o + 19),
   (decide (le b (o + 20) 1 < 2), o + 20), (decide (le b (o + 21) 1 ≤ 8), o + 21), (zeroAt b (o + 22) 2, o + 22)]

/-- PAIR; the slot of its radio link key is listed in KEYMAP as CELL (R365). -/
def pairChecks (b : Bytes) (o : Nat) (x : Pesum) (p : PairPlot) : List (Bool × Nat) :=
  let unit := (x.domain.getD {}).unit
  let att := fun n => (x.ports.getD n {}).att
  [(p.partner != unit, o), (decide (p.attA ≠ p.attB) && att 38 == some p.attA && att 39 == some p.attB, o + 2),
   (decide (le b (o + 4) 2 ≤ 256), o + 4), (x.keymap.any fun k => k.slot == p.radioSlot && k.kind == 2, o + 6),
   (zeroAt b (o + 24) 8, o + 24)] ++
  ((upto 0 p.cells.length).map fun k =>
    let e := o + 32 + 8 * k
    [(!(p.cells.take k).any fun c => c.1 == (p.cells.getD k (0, false)).1, e), (decide (le b (e + 4) 1 ≤ 1), e + 4),
     (zeroAt b (e + 5) 3, e + 5)]).flatten

/-- REHEARSAL: the canary row is a row of the REGIONS plot that is not radio. -/
def rehearsalChecks (b : Bytes) (o : Nat) (x : Pesum) (r : RehPlot) : List (Bool × Nat) :=
  [(decide (le b o 2 < 8), o), (zeroAt b (o + 2) 2, o + 2), (x.regions.any fun e => e.1 == r.canary && !e.2.radio, o + 4),
   (decide (r.ports < 2 ^ 40), o + 8), (decide (r.lanes < 2 ^ 44), o + 16), (zeroAt b (o + 24) 8, o + 24)]

/-- OBSERVE: bits 6 to 14 of an entry are not set. -/
def observeChecks (b : Bytes) (o : Nat) (l : List Nat) : List (Bool × Nat) :=
  ((upto 0 6).map fun a => (bits (l.getD a 0) 6 9 == 0, o + 2 * a)) ++ [(zeroAt b (o + 12) 4, o + 12)]

/-- The first plot that is invalid (R366), in type order: its type and the offset of the failing field. -/
def plotsBad (lc : Lc) (versions : List Nat) (b : Bytes) (x : Pesum) : Option (Nat × Nat) :=
  let opt := fun {α : Type} (t : Nat) (y : Option α) (f : Nat → α → List (Bool × Nat)) =>
    match y with | some v => firstBad (f (plotOff b t) v) | none => none
  let found : List (Nat × Option Nat) :=
    [(1, firstBad (identChecks b (plotOff b 1) x versions)), (2, firstBad (partChecks b (plotOff b 2) x)),
     (3, firstBad (laneChecks b (plotOff b 3) x)), (4, firstBad (portChecks b (plotOff b 4) x)),
     (5, firstBad (regionChecks b (plotOff b 5) x lc)),
     (6, if (plotAt b 6).isSome then firstBad (keymapChecks b (plotOff b 6) x) else none),
     (7, firstBad (arbChecks b (plotOff b 7) x)), (8, opt 8 x.domain (domainChecks b)),
     (9, opt 9 x.pair fun o => pairChecks b o x), (10, opt 10 x.rehearsal fun o => rehearsalChecks b o x),
     (11, opt 11 x.observe (observeChecks b))]
  (found.find? fun f => f.2.isSome).map fun f => (f.1, f.2.getD 0)

end Sys2Proof.Machine
end

