-- ==== Sys2Proof/Machine/CfgOps.lean ====
section
/-! DEFINITION. What a configuration swap checks and does (R366 to R375), and the register commands that load and swap
a Pesum image. -/

namespace Sys2Proof.Machine

/-! ### The image in force -/

/-- The references of a partition (R349, Table 7 of the host chapter), as LZ_PART_STAT.REFS shows them. -/
def State.partRefs (s : State) (p : Nat) : Nat :=
  (s.rowsWhere fun r => r.part == p && decide (r.state ≠ .free)).length + (s.queuesOf p).length + (s.chansOf p).length
  + (s.dig.stv.ctxs.filter fun e => e.2.part == p && decide (e.2.st ≠ .free)).length
  + (s.dig.watches.filter fun e => e.2.part == p && decide (e.2.st = .armed)).length
  + (s.dig.toks.filter fun e => e.2.part == p && decide (e.2.st = .opened)).length
  + (s.links.actrs.filter fun e => e.2.part == p && e.2.valid).length
  + (match tget none s.host.sessions p with | some x => if x.live then 1 else 0 | none => 0)

/-- The regions of the active image that a new image does not list. -/
def State.leaving (s : State) (x : Pesum) : List Nat :=
  (((s.cfg.active.map (·.regions)).getD []).filter fun e => !x.regions.any fun f => f.1 == e.1).map (·.1)

/-- The regions of a new image that the active one does not list. -/
def State.entering (s : State) (x : Pesum) : List (Nat × Region) :=
  let old := (s.cfg.active.map (·.regions)).getD []
  x.regions.filter fun e => !old.any fun f => f.1 == e.1

/-- The rows of the regions that stay in force across a swap to an image. -/
def State.staying (s : State) (x : Pesum) : List Nat :=
  let out := s.leaving x
  (s.rowsWhere fun r => decide (r.state ≠ .free)).filter fun i => !out.contains i

/-- The port that serves an attachment. -/
def State.portOf (s : State) (att : Nat) : Option Nat := (upto 0 40).find? fun n => (s.port n).att == some att

/-- A port carries flows (R271). -/
def State.boundFlows (s : State) (n : Nat) : Bool :=
  s.links.tx.any (fun f => f.port == n && !f.down) || s.links.rx.any (fun f => f.port == n && !f.down)

/-- The plot of a port in force; before any image, the reset roles. -/
def State.portPlotOf (s : State) (n : Nat) : PortPlot :=
  match s.cfg.active with
  | some x => x.ports.getD n {}
  | none => if n < 36 then { role := 0, att := some n } else {}

/-! ### The runtime column of Table 10 -/

/-- PARTITIONS: a region left outside its partition's carve-out, a partition with references that would lose PRESENT or
change RADIO, or a host window that would change while MIGRATE is set. -/
def State.partsOrphan (s : State) (x : Pesum) : Bool :=
  (s.staying x).any (fun i =>
    let r := s.row i
    let p := x.parts.getD r.part {}
    decide (r.base < p.carveBase ∨ p.carveBase + p.carveCount < r.base + r.count)) ||
  (upto 0 64).any fun p =>
    let old := s.plotOf p
    let new := x.parts.getD p {}
    (decide (s.partRefs p ≠ 0) && ((old.present && !new.present) || old.radio != new.radio)) ||
    (s.fld F.partCtl_MIGRATE p == 1 && (old.hwinBase != new.hwinBase || old.hwinPages != new.hwinPages))

/-- LANES: the interleave or the steering is not the one in service. -/
def State.lanesChange (s : State) (x : Pesum) : Bool :=
  x.granule != s.granule || (upto 0 40).any fun g => s.laneOf g != some (x.lanes.getD g 0)

/-- PORTS: a port with bound flows would change role or attachment. -/
def State.portsOrphan (s : State) (x : Pesum) : Bool :=
  (upto 0 40).any fun n =>
    let old := s.portPlotOf n
    let new := x.ports.getD n {}
    let live := match old.att with | some a => (s.portOf a).getD n | none => n
    (old.role != new.role || old.att != new.att) && s.boundFlows live

/-- REGIONS, CHANGE: the areas differ from those of the image in force, or a region listed in both has another
descriptor. -/
def State.regionsChange (s : State) (x : Pesum) : Bool :=
  match s.cfg.active with
  | none => false
  | some y => x.metaBase != y.metaBase || x.metaCount != y.metaCount || x.tspanBase != y.tspanBase
    || x.tspanCount != y.tspanCount || x.radioMeta != y.radioMeta
    || y.regions.any fun e => x.regions.any fun f => f.1 == e.1 && f.2 != e.2

/-- REGIONS, ORPHAN: a region to be removed has references. -/
def State.regionsOrphan (s : State) (x : Pesum) : Bool :=
  (s.leaving x).any fun i => decide ((s.row i).state ≠ .free ∧ s.regionRefs i ≠ 0)

/-- REGIONS, CONFLICT, apart from KIDX: a row that is not FREE, granules in use, or too little radio metadata. -/
def State.regionsConflict (s : State) (x : Pesum) : Bool :=
  let stay := s.staying x
  let new := s.entering x
  let radio := fun (r : Region) => if r.radio && r.kind == .tilled then r.count else 0
  new.any (fun e => decide ((s.row e.1).state ≠ .free) ||
    stay.any fun i => overlap e.2.base e.2.count (s.row i).base (s.row i).count) ||
  decide (x.radioMeta * 65536 < ((stay.map fun i => radio (s.row i)).sum + (new.map fun e => radio e.2).sum) * 33288)

/-- REGIONS, CONFLICT by R88: a region that is not CLEAR names a slot that is not MEMORY or CELL. -/
def State.kidxConflict (s : State) (x : Pesum) : Bool :=
  x.regions.any fun e => let k := (s.slot e.2.kidx).kind
    decide (e.2.kind ≠ .clear ∧ (e.2.kidx = 0 ∨ (k ≠ .memory ∧ k ≠ .cell)))

/-- KEYMAP: a listed slot holds a key of another kind. -/
def State.keymapConflict (s : State) (x : Pesum) : Bool :=
  x.keymap.any fun e => let k := (s.slot e.slot).kind
    decide (k ≠ .empty ∧ k.code ≠ e.kind)

/-- DOMAIN: identifier, unit number or mode differs while the agent is not DETACHED. -/
def State.domainChange (s : State) (x : Pesum) : Bool :=
  let old := s.domPlot
  let new := x.domain.getD {}
  s.dom.state != .detached && (old.domId != new.domId || old.unit != new.unit || old.gentag != new.gentag)

/-- PAIR, CHANGE: the partner differs while the pair is BOOTSTRAP or UP. -/
def State.pairChange (s : State) (x : Pesum) : Bool :=
  (s.pair.state == .bootstrap || s.pair.state == .up) &&
  s.pairPlot.map (fun p => (p.partner, p.partnerId)) != x.pair.map fun p => (p.partner, p.partnerId)

/-- PAIR, ORPHAN: a removed cell has a cell key with references. -/
def State.pairOrphan (s : State) (x : Pesum) : Bool :=
  let old := (s.pairPlot.map (·.cells)).getD []
  let new := (x.pair.map (·.cells)).getD []
  old.any fun c => !(new.any fun d => d.1 == c.1) &&
    s.keys.slots.any fun e => decide (e.2.kind = .cell ∧ e.2.cell = c.1) && decide (s.refCount e.1 ≠ 0)

/-- The SWAP_RESULT that refuses a swap at runtime (R366, R367), apart from the KIDX check; at start-up the column does
not apply (R371). -/
def State.swapRefusal (s : State) (x : Pesum) : Option Nat :=
  if !s.life.ready then none
  else if x.version ≤ s.cfg.ratchet then some 3
  else if s.partsOrphan x then some 5
  else if s.lanesChange x then some 4
  else if s.portsOrphan x then some 5
  else if s.regionsChange x then some 4
  else if s.regionsOrphan x then some 5
  else if s.regionsConflict x ∨ s.keymapConflict x then some 6
  else if s.domainChange x ∨ s.pairChange x then some 4
  else if s.pairOrphan x then some 5
  else none

/-! ### KEYMAP slots -/

/-- Allocates the KEYMAP slots not yet held, each with the configuration's driver reference (R369, R190). -/
def State.allocKeymap (s : State) (x : Pesum) : State :=
  (x.keymap.filter fun e => (s.slot e.slot).kind == .empty).foldl (fun s e =>
    let kind := KeyKind.ofCode e.kind
    let s := s.deriveSlot e.slot kind e.cell e.exp s.keys.meas 1
    let s := { s with cfg := { s.cfg with allocated := s.cfg.allocated ++ [e.slot] } }
    if kind = .cell then s.mirrorRoots else s) s

/-- A slot loses one driver reference. -/
def State.dropDref (s : State) (n : Nat) : State :=
  if (s.slot n).dref = 0 then s else s.putSlot n { s.slot n with dref := (s.slot n).dref - 1 }

/-- The slots that the prepare of a refused swap allocated lose their configuration reference (R369). -/
def State.releaseAllocated (s : State) : State :=
  let l := s.cfg.allocated
  l.foldl State.dropDref { s with cfg := { s.cfg with allocated := [] } }

/-! ### How loads and swaps end -/

/-- Shows a SWAP_RESULT; one other than DONE is counted and recorded. -/
def State.swapEnd (s : State) (code : Nat) : State :=
  let s := s.setFld F.cfgStatus_SWAP_RESULT code
  if code = 1 then s else (s.incFld F.cfgErr_SWAP_FAIL).record .cfgFail .config 0 none (256 + code) 0

/-- A swap in preparation is refused (R369): the shadow stays VALID. -/
def State.swapRefuse (s : State) (code : Nat) : State :=
  let s := s.releaseAllocated
  ({ s with cfg := { s.cfg with swapping := false, shadow := .valid } }).swapEnd code

/-- Shows a LOAD_RESULT; one other than DONE is counted and recorded. -/
def State.loadEnd (s : State) (code : Nat) : State :=
  let s := s.setFld F.cfgStatus_LOAD_RESULT code
  if code = 1 then s else (s.incFld F.cfgErr_LOAD_FAIL).record .cfgFail .config 0 none code 0

/-- The shadow becomes EMPTY. -/
def State.emptyShadow (s : State) : State :=
  ({ s with cfg := { s.cfg with shadow := .empty, image := none, imageBytes := [] } }).setFld F.cfgShadowVer_VERSION 0

/-! ### Load -/

/-- The reeve firmware versions that IDENT may name (R366): the running one, and during an update the next one. -/
def State.firmwareNames (s : State) : List Nat :=
  (match s.fwu.running with | some f => [f.version] | none => []) ++
  (match s.fwu.st, s.fwu.staged with | .idle, _ => [] | _, some f => [f.version] | _, none => [])

/-- The configuration floor (R367): word 870. -/
def State.cfgFloor (s : State) : Nat := s.otpWord 870

/-- What a load finds in an image that has been read (R368): the first failure as LOAD_RESULT, plot and offset. -/
def State.imageFault (s : State) (b : Bytes) : Option (Nat × Nat × Nat) :=
  match layoutBad b with
  | some o => some (3, 0, o)
  | none =>
    let x := readPesum b
    let auth := match s.authority with | some d => x.authority == d | none => true
    if x.unit ≠ s.ident then some (4, 0, 32)
    else if !auth then some (5, 0, 64)
    else if !verifyBoth (recordKeys b) (b.take (b.length - 4736)) (ascii "LZPESUM") (sub b (b.length - 4736) 4723) then
      some (6, 0, b.length - 4736)
    else if x.version < s.cfg.ratchet then some (7, 0, 24)
    else (plotsBad s.life.lc s.firmwareNames b x).map fun f => (8, f.1, f.2)

/-- Loads an image that was read, or not (R368): the shadow is VALID, or INVALID with the failing field. -/
def State.loadImage (s : State) (readOk : Bool) (b : Bytes) : State :=
  let s := s.emptyShadow
  match if readOk then s.imageFault b else some (2, 0, 0) with
  | none =>
    let x := readPesum b
    let s := { s with cfg := { s.cfg with shadow := .valid, image := some x, imageBytes := b } }
    (((s.setFld F.cfgShadowVer_VERSION x.version).setFld F.cfgStatus_FAIL_PLOT 0).setFld F.cfgStatus_FAIL_OFFSET 0).loadEnd 1
  | some (code, plot, off) =>
    let s := { s with cfg := { s.cfg with shadow := .invalid } }
    ((s.setFld F.cfgStatus_FAIL_PLOT plot).setFld F.cfgStatus_FAIL_OFFSET off).loadEnd code

/-- What the configuration area of the block store gives: what was written last, or what manufacturing left. -/
def State.storedConfig (s : State) (r : ReadOut) : Bool × Bytes :=
  match s.store.config with
  | some b => (!b.isEmpty, b)
  | none => (r.ok, r.bytes)

/-- CFG_LOAD (R368): the shadow is discarded and the image that LZ_CFG_SHADOW_BASE names is loaded: from the store, or
from device memory within one region with PERM bit 0. -/
def execCfgLoad (port : Nat) (r : ReadOut) (s : State) : Res :=
  .next <| s.ownerCmd port false F.cfgErr_REG_ERR fun s =>
    if s.life.lc = .blank ∨ s.life.lc = .endOfLife then s.loadEnd 10
    else if s.cfg.swapping then s.loadEnd 9
    else if s.fld F.cfgShadowBase_LOC = 0 then
      let x := s.storedConfig r
      s.loadImage x.1 x.2
    else
      let addr := s.fld F.cfgShadowBase_ADDR * 64
      let place := (s.operandRow 0 true addr r.bytes.length 0).isSome
      s.loadImage (place && r.ok && !r.bytes.isEmpty) r.bytes

/-- CFG_DISCARD (R375): DISCARD empties the shadow; while a swap is prepared it is taken and waits. -/
def execCfgDiscard (port : Nat) (s : State) : Res :=
  .next (if s.cfg.resuming then s.emptyShadow
    else s.ownerCmd port false F.cfgErr_REG_ERR fun s =>
      if s.cfg.swapping then s.holdSwap (.cfgDiscard port) else s.emptyShadow)

/-! ### The effect of a swap -/

/-- The partitions of an image come into force (R370): the carve-outs, and what differs from the plot before for the host
window and EARLY. -/
def State.applyParts (s : State) (x : Pesum) : State :=
  (upto 0 64).foldl (fun s p =>
    let old := s.plotOf p
    let new := x.parts.getD p {}
    if old = new then s
    else
      let s := { s with partPlot := tset {} s.partPlot p new }
      let s := (s.setFld F.partCarve_BASE new.carveBase p).setFld F.partCarve_COUNT new.carveCount p
      let s := if old.hwinBase = new.hwinBase ∧ old.hwinPages = new.hwinPages then s
        else (s.setFld F.partHwinBase_BASE (new.hwinBase / 4096) p).setFld F.partHwinSize_PAGES new.hwinPages p
      if old.early = new.early then s else s.setFld F.partCtl_EARLY (if new.early then 1 else 0) p) s

/-- The lanes take the steering of an image (R22). A lane that failed its test keeps out of it, and the lowest spare serves
its group (R42, R390). -/
def State.applyLanes (s : State) (x : Pesum) : State :=
  let s := { s with rgn := { s.rgn with granule := x.granule } }
  let out := fun (l : Lane) => decide (l.role = .bypassed ∨ l.role = .draining)
  let lost := (upto 0 44).filter fun n => out (s.lane n) && (x.lanes.idxOf? n).isSome
  let s := (upto 0 44).foldl (fun s n =>
    let g := x.lanes.idxOf? n
    let l := s.lane n
    if l.group = g ∨ out l then s
    else s.setLane n { l with group := g, role := if g.isSome then .active else .spare }) s
  lost.foldl (fun s n => match s.spareLane with
    | some sp => s.setLane sp { s.lane sp with group := x.lanes.idxOf? n, role := .active }
    | none => s) s

/-- The role of a code of PORTS. -/
def PortRole.ofPlot (n : Nat) : PortRole := if n = 0 then .fabric else if n = 1 then .pair else .spare

/-- The ports take what differs from the plot before (R23, R271); role, attachment and ranges follow the attachment to the
port that serves it. A port that failed its test keeps out of service, and the lowest spare stands for it (R42, R390). -/
def State.applyPorts (s : State) (x : Pesum) : State :=
  (upto 0 40).foldl (fun s n =>
    let old := s.portPlotOf n
    let new := x.ports.getD n {}
    let m := match old.att with | some a => (s.portOf a).getD n | none => n
    if old.role ≠ new.role ∨ old.att ≠ new.att then
      let out := decide ((s.port m).role = .bypassed ∨ (s.port m).role = .draining)
      match if out then (if new.role = 2 then none else s.sparePort) else some m with
      | some m => s.setPort m { s.port m with role := .ofPlot new.role, att := new.att, ranges := new.ranges }
      | none => s
    else s.setPort m { s.port m with ranges := new.ranges }) s

/-- Arbitration values are written into their registers (R370). -/
def State.applyArb (s : State) (x : Pesum) : State :=
  let s := s.setFld F.hrwShare_SHARE x.share
  (upto 0 64).foldl (fun s p =>
    let a := x.arb.getD p {}
    let s := s.setFld F.partWeight_WEIGHT a.weight p
    let s := if s.fld F.partRate_RATE p = 0 ∧ a.rate ≠ 0 then s.fullBuckets p else s
    let s := (s.setFld F.partRate_RATE a.rate p).setFld F.partRate_BURST a.burst p
    let s := (s.setFld F.partRate_SVC_RATE a.svcRate p).setFld F.partRate_SVC_BURST a.svcBurst p
    (s.setFld F.partHost_HRATE a.hrate p).setFld F.partHost_HBURST a.hburst p) s

/-- The metadata area, the tilled span and RADIO_META (R105, R106, R109). -/
def State.applyAreas (s : State) (x : Pesum) : State :=
  let s := { s with rgn := { s.rgn with metaBase := x.metaBase, metaCount := x.metaCount, tspanBase := x.tspanBase,
                                        tspanCount := x.tspanCount, radioMeta := x.radioMeta } }
  let s := (s.setFld F.rgnTspan_BASE x.tspanBase).setFld F.rgnTspan_COUNT x.tspanCount
  ((s.setFld F.rgnMeta_BASE x.metaBase).setFld F.rgnMeta_COUNT x.metaCount).setFld F.rgnMeta_RADIO_META x.radioMeta

/-- The pair takes the cells of a plot (R291, R297): a listed cell keeps its role, or begins as the plot says; a cell that
is not listed is not shared. The pair starts its bootstrap when pairing comes into force, and is DISABLED without a
plot. -/
def State.applyPair (s : State) (x : Pesum) : State :=
  match x.pair with
  | none => s.withPair { s.pair with state := .disabled, cells := [], radioSlot := 0, claiming := false }
  | some p =>
    let old := s.pair.cells
    let cells := p.cells.foldl (fun t c => tset none t c.1 (some ((tget none old c.1).getD c.2))) []
    let prev := (s.cfg.active.bind (·.pair)).map (·.radioSlot)
    let slot := if prev = some p.radioSlot then s.pair.radioSlot else p.radioSlot
    let st : PairState := if s.pair.state = .disabled then .bootstrap else s.pair.state
    s.withPair { s.pair with cells := cells, radioSlot := slot, state := st }

/-- The regions that leave are destroyed and those that enter are created, at one effect cycle (R370). -/
def State.applyRegions (s : State) (x : Pesum) : State :=
  let out := (s.leaving x).filter fun i => decide ((s.row i).state ≠ .free)
  let new := s.entering x
  let s := out.foldl (fun s i =>
    (if (s.row i).state = .closing then s else s.closeRegion i none).settleRegion i) s
  new.foldl (fun s e => s.createRegion e.1 e.2) s

/-- The configuration's references follow KEYMAP (R365, R370): slots that leave it lose theirs, and held slots that enter
it gain one. -/
def State.applyKeymap (s : State) (x : Pesum) : State :=
  let old := ((s.cfg.active.map (·.keymap)).getD []).map (·.slot)
  let new := x.keymap.map (·.slot)
  let got := new.filter fun n => !old.contains n && !s.cfg.allocated.contains n
  let lost := old.filter fun n => !new.contains n
  let s := got.foldl (fun s n => s.putSlot n { s.slot n with dref := (s.slot n).dref + 1 }) s
  lost.foldl State.dropDref s

/-- Shows the active image (R375). -/
def State.showActive (s : State) (x : Pesum) : State :=
  let s := s.setFld F.cfgActiveVer_VERSION x.version
  (upto 0 6).foldl (fun s j => s.setFld F.cfgHash_BYTES (bits x.hash.toNat (64 * j) 64) j) s

/-- The owner authority digest comes into force with the first swap (R364): programmed in PRODUCTION, held in TEST. -/
def State.takeAuthority (s : State) (d : Digest) : State :=
  match s.life.lc with
  | .production =>
    if s.otpAuthority ≠ 0 then s
    else (s.programRows ((upto 0 6).map fun j => (864 + j, bits d.toNat (64 * j) 64))).2
  | .test => { s with cfg := { s.cfg with testAuthority := some (s.cfg.testAuthority.getD d) } }
  | _ => s

/-- The plots other than REGIONS and KEYMAP come into force (R393). -/
def State.applyPlots (s : State) (x : Pesum) : State :=
  let s := ((s.applyParts x).applyPorts x).applyArb x
  (s.applyAreas x).applyPair x

/-- The new set is in force (R369, R370): the ratchet, the version and the hash change and the shadow is EMPTY; with PERSIST
the image will be written to the store (R373). -/
def State.swapIn (s : State) (x : Pesum) : State :=
  let first := s.cfg.active.isNone
  let s := s.applyPlots x
  let s := if first then s.applyLanes x else s
  let s := (s.applyRegions x).applyKeymap x
  let s := (s.takeAuthority x.authority).showActive x
  let s := { s with cfg := { s.cfg with active := some x, ratchet := x.version, swapping := false, allocated := [],
                                        persisting := s.cfg.persist, persistBytes := s.cfg.imageBytes } }
  let s := s.emptyShadow.swapEnd 1
  (s.trace 5 2 (Src.config.at 0) none 0 0 x.version).record .cfgSwap .config 0 none 0 x.version

/-- The prepare of a swap (R369): the checks, the allocation of KEYMAP slots, and the KIDX check of R88. -/
def State.prepareSwap (s : State) (x : Pesum) (persist : Bool) : State :=
  match s.swapRefusal x with
  | some code => s.swapEnd code
  | none =>
    if !x.keymap.isEmpty && !s.canDerive then s.swapEnd 6
    else
      let s := { s with cfg := { s.cfg with swapping := true, persist := persist, shadow := .preparing, allocated := [] } }
      let s := s.allocKeymap x
      if s.kidxConflict x then s.swapRefuse 6 else s

/-- CFG_SWAP (R369): with the shadow VALID a swap is prepared. -/
def execCfgSwap (port : Nat) (persist : Bool) (s : State) : Res :=
  .next <| s.ownerCmd port false F.cfgErr_REG_ERR fun s =>
    let s := s.setFld F.cfgSwap_PERSIST (if persist then 1 else 0)
    if s.cfg.swapping then s.swapEnd 7
    else
      match s.cfg.shadow, s.cfg.image with
      | .valid, some x => s.prepareSwap x persist
      | _, _ => s.swapEnd 2

/-- CFG_PERSIST (R373): the image in force is written to the store; a failed write is counted and leaves the swap. -/
def execCfgPersist (ok : Bool) (s : State) : Res :=
  if !s.cfg.persisting then .next s
  else
    let b := s.cfg.persistBytes
    let s := { s with cfg := { s.cfg with persisting := false, persistBytes := [] } }
    if ok then .next { s with store := { s.store with config := some b } }
    else .next ((s.incFld F.cfgErr_PERSIST_FAIL).record .cfgFail .config 0 none 257 0)

end Sys2Proof.Machine
end

