-- ==== Sys2Proof/Machine/Otp.lean ====
section
/-! DEFINITION. The OTP array (R384 to R388) and life-cycle transitions (R376 to R383). -/

namespace Sys2Proof.Machine

/-! ### Life-cycle codes -/

/-- The codes of the life-cycle states (Table 1). -/
def lcBlank : Nat := 0x00000000
def lcTest : Nat := 0x0F0F0F0F
def lcProduction : Nat := 0x3F3F3F3F
def lcEnd : Nat := 0xFFFFFFFF

/-- The state whose code a vote gives exactly (R379). -/
def Lc.ofCode (n : Nat) : Option Lc :=
  if n = lcBlank then some .blank else if n = lcTest then some .test
  else if n = lcProduction then some .production else if n = lcEnd then some .endOfLife else none

/-- The bitwise majority of three copies (R379). -/
def vote (a b c : Nat) : Nat := (a &&& b) ||| (a &&& c) ||| (b &&& c)

/-- A journal for a code (R377). -/
def journalWord (code : Nat) : Nat := code + (lcEnd - code) * 2 ^ 32

/-- Completes the transition whose valid journal is word `w` and code `code` (R378): every copy is a subset of the code, and
those that differ are programmed, each verified before the next. -/
def State.completeJournal (s : State) (w code : Nat) : State :=
  let copies := (upto 0 3).map fun i => s.otpWord i % 2 ^ 32
  if s.otpWord w = journalWord code ∧ copies.all (fun c => c ||| code == code) then
    if copies.all (· == code) then s
    else (s.programRows (((upto 0 3).filter fun i => copies.getD i 0 ≠ code).map fun i => (i, code))).2.setFld
      F.lcInfo_JOURNAL_DONE 1
  else s

/-! ### Which words the owner may read and program -/

/-- Words that no controller reads (R385). -/
def otpHidden (w : Nat) : Bool := decide (8 ≤ w ∧ w ≤ 23)

/-- The RESULT that refuses a program of a word in a life-cycle state (R385, Table 5): REFUSED_LOCKED for a word that is the
block's or nobody's, REFUSED_STATE for one that the owner may not program now. -/
def otpRefusal (lc : Lc) (w : Nat) : Option Nat :=
  let early := decide (lc = .blank ∨ lc = .test)
  let late := decide (lc = .test ∨ lc = .production)
  if w ≤ 23 ∨ (99 ≤ w ∧ w ≤ 130) then some 3
  else if w ≤ 25 then (if lc = .blank then none else some 2)
  else if w ≤ 863 then (if early then none else some 2)
  else if late then none else some 2

/-- Spare rows in use (LZ_OTP_STAT). -/
def State.sparesUsed (s : State) : Nat := ((upto 0 32).filter fun k => bit (s.otpWord (99 + k)) 63).length

/-- Programs a word (R386, R387); the RESULT and the state. -/
def State.program (s : State) (w v : Nat) (rowOk spareOk : Bool) : Nat × State :=
  let c := s.otpWord w
  match otpRefusal s.life.lc w with
  | some code => (code, s)
  | none =>
    if s.otp.repairs.contains w then (4, s)
    else if v = c then (0, s)
    else if v ||| c ≠ v then (1, s)
    else s.programRow w v rowOk spareOk

/-- Shows the RESULT of an OTP command; one other than DONE is counted. -/
def State.otpEnd (s : State) (code : Nat) : State :=
  let s := s.setFld F.otpCtl_RESULT code
  if code = 0 then s else s.incFld F.otpErr_REFUSED

/-- OTP_READ (R385, R388): LZ_OTP_DATA takes the word. Words 8 to 23 give zero with an error response (R168), and a word
above 991 is a reserved encoding. DEDUCED (log 48): any controller may read a word (R385), so the command is taken from
every port; a plain REGISTER_WRITE of LZ_OTP_CTL follows R14. -/
def execOtpRead (port : Nat) (w : BitVec 10) (s : State) : Res :=
  let n := w.toNat
  if !s.regsOpen then .next s
  else if 992 ≤ n then .next (s.regBad port F.otpErr_REG_ERR)
  else
    let s := s.setFld F.otpCtl_WORD n
    if otpHidden n then .next ((s.setFld F.otpData_VALUE 0).regBad port F.otpErr_REG_ERR)
    else .next (((s.setFld F.otpData_VALUE (s.otpWord n)).otpEnd 0).regRsp port 0 false)

/-- OTP_PROGRAM (R386, R387): from the registers, or as a service command whose ARG16 is the word and ARG0 the value. -/
def execOtpProgram (o : Origin) (w : BitVec 10) (rowOk spareOk : Bool) (s : State) : Res :=
  match o with
  | .reg port =>
    .next (s.ownerCmd port (decide (992 ≤ w.toNat)) F.otpErr_REG_ERR fun s =>
      let (code, s) := (s.setFld F.otpCtl_WORD w.toNat).program w.toNat (s.fld F.otpData_VALUE) rowOk spareOk
      s.otpEnd code)
  | .svc q k =>
    .next (s.svcCmd q k 0x70 fun c s =>
      if 992 ≤ c.desc.arg16 then s.svcDone q k 6 0 0 0 0
      else
        let (code, s) := s.program c.desc.arg16 c.desc.arg0 rowOk spareOk
        let s := if code = 0 then s else s.incFld F.otpErr_REFUSED
        if code = 0 then s.svcDone q k 0 0 0 0 0
        else if code = 1 then s.svcDone q k 8 0 0 0 0
        else s.svcDone q k 1 code 0 0 0)

/-! ### Transition requests -/

/-- The bytes of the life-cycle mailbox (R380). -/
def State.lcMailbox (s : State) : Bytes := ((upto 0 1528).map fun n => leBytes 8 (s.rd .lcMbox n)).flatten

/-- The transition nonce. -/
def State.lcNonce (s : State) : Nat := s.rd .lcNonce0 + s.rd .lcNonce1 * 2 ^ 64

/-- A code is the target of a transition of Table 3 from a state. -/
def lcMoves (lc : Lc) (target : Nat) : Bool :=
  match lc with
  | .blank => target == lcTest
  | .test => target == lcProduction || target == lcEnd
  | .production => target == lcEnd
  | .endOfLife => false

/-- A request must carry the owner's signatures (R381). -/
def State.ownerSigns (s : State) (target : Nat) : Bool :=
  decide (s.life.lc = .production) && target == lcEnd && s.authority.isSome

/-- The request's form (Table 2): magic, version, reserved fields, and the owner fields present or absent as Table 3 has
it. -/
def State.requestForm (s : State) (b : Bytes) : Bool :=
  let target := le b 12 4
  let keys := zeroAt b 64 2689
  let sigs := zeroAt b 7491 4723
  sub b 0 8 == ascii "LZLCREQ1" && le b 8 2 == 1 && zeroAt b 10 2 && zeroAt b 48 16 && zeroAt b 2753 15 &&
  zeroAt b 12214 10 &&
  (!lcMoves s.life.lc target || (if s.ownerSigns target then !keys && !sigs else keys && sigs))

/-- The checks of a transition request in the order of Table 4; the code of the first that fails. -/
def State.requestCheck (s : State) (b : Bytes) : Option Nat :=
  let target := le b 12 4
  if !s.requestForm b then some 2
  else if !lcMoves s.life.lc target then some 3
  else if s.lct.pending ≠ 0 then some 4
  else if le b 16 16 ≠ s.ident.toNat ∨ s.ident = 0 then some 5
  else if le b 32 16 ≠ s.lcNonce ∨ s.lct.nonceWait then some 6
  else if !verifyBoth Config.vendorPk (b.take 2768) (ascii "LZLCREQ") (sub b 2768 4723) then some 7
  else if s.ownerSigns target && !(s.authority == some (keysDigest b) &&
      verifyBoth (recordKeys b) (b.take 2768) (ascii "LZLCREQ") (sub b 7491 4723)) then some 8
  else none

/-- The journal word of a target. -/
def journalOf (target : Nat) : Nat := if target = lcTest then 3 else if target = lcProduction then 4 else 5

/-- The block programs the journal and then the first `n` copies. -/
def State.programCopies (s : State) (target n : Nat) : State :=
  (upto 0 n).foldl (fun s i => s.otpPut i target) (s.otpPut (journalOf target) (journalWord target))

/-- Ends a request with its RESULT; one other than DONE is counted, and a new nonce is drawn (R380). -/
def State.requestEnd (s : State) (code : Nat) : State :=
  let s := if code = 1 then s else s.incFld F.otpErr_LC_REFUSED
  (((s.setFld F.lcCtl_RESULT code).setFld F.lcCtl_POST 0).setFld F.lcCtl_BUSY 0).newLcNonce

/-- Every partition is hedged for END_OF_LIFE (R383). -/
def State.hedgeAll (s : State) : State := (upto 0 64).foldl (fun s p => s.addCause p .eol) s

/-- END_OF_LIFE takes effect (R383, R402): the state, the hedges, the end of an update, and the claims that were pending;
the wipe is to follow. -/
def State.endOfLife (s : State) : State :=
  let s := { s with life := { s.life with lc := .endOfLife }, lct := { s.lct with wiping := true } }
  let f := { s.fwu with st := .idle, staged := none, jobs := [], core := none, abandoning := false, back := false }
  let s := { s with fwu := f }
  let claims := s.own.claims
  let s := { s with own := { s.own with claims := [] } }
  (claims.foldl (fun s c => (s.incFld F.ownErr_INVALID).claimEnd c.port 8) s).hedgeAll

/-- LC_POST (R380 to R383): the mailbox is checked; a request that passes has its journal and copies programmed, END_OF_LIFE
taking effect at once and the others at the next reset. When programming fails, how many words were programmed is
not defined. -/
def execLcPost (port : Nat) (programs : Bool) (s : State) : Res :=
  if !s.regsOpen then .next s
  else
    let s := s.regRsp port 0 false
    let b := s.lcMailbox
    let target := le b 12 4
    let sigs := fun (code : Option Nat) => match code with
      | none => if s.ownerSigns target then 4 else 2
      | some 8 => if s.authority == some (keysDigest b) then 4 else 2
      | some 7 => 2
      | some _ => 0
    match s.requestCheck b with
    | some code => .next ((s.pkuOwn (sigs (some code))).requestEnd code)
    | none =>
      let s := s.pkuOwn (sigs none)
      if programs then
        let s := s.programCopies target 3
        if target = lcEnd then .next (s.endOfLife.requestEnd 1)
        else .next (({ s with lct := { s.lct with pending := target } }).requestEnd 1)
      else
        let n := (s.freeVal 2).toNat
        let s := s.freed
        .next ((if n = 0 then s else s.programCopies target (n - 1)).requestEnd 9)

/-! ### The wipe -/

/-- Steps 3 to 8 of R383: the root rows and the user area read all ones, no key is left, the memory ledger and the
configuration area are erased, and WIPE_MARK is set. -/
def State.wipe (s : State) : State :=
  let ones := 2 ^ 64 - 1
  let s := (upto 8 9).foldl (fun s w => s.otpPut w ones) s
  let k := s.keys
  let s := { s with keys := { k with
    slots := [], versions := [], newVersions := [], rewrap := false, root := 0, rootOk := false, metaKey := 0,
    metaKeyNext := none, measNext := none, ledgerKey := 0, ledgerKeyNext := 0, cached := [], pins := [], credits := [],
    creditReqs := [], noSucc := [], stuck := [], autoWait := [], tenantRefs := [] } }
  let h := s.host
  let s := { s with host := { h with bindings := [], slotBox := [], warned := [] }, kept := { s.kept with slots := [] } }
  let s := { s with harrow := { s.harrow with jobs := [], retags := [] } }
  let s := s.emit .ledgerZero
  let s := (upto 864 128).foldl (fun s w => s.otpPut w ones) s
  let s := { s with store := { s.store with config := some [] } }
  let s := s.otpPut 6 (s.otpWord 6 ||| 1)
  { s with lct := { s.lct with wiping := false } }

/-- END_OF_LIFE_WIPE (R383): every partition is hedged, the domain and pair keys are destroyed, and the wipe completes; in
phase WIPE the steps 3 to 8 are repeated. -/
def execEndOfLifeWipe (s : State) : Res :=
  if !s.lct.wiping then .next s
  else
    let s := s.hedgeAll.detach
    let s := s.withDom { s.dom with ballot := none, records := [], exchs := [], admitted := [] }
    let s := s.withPair { s.pair with state := .disabled, linkKey := 0, claiming := false, mirrorSlots := [],
                                      mirroredCells := [], radioSlot := 0 }
    let s := s.withLinks { s.links with tx := [], rx := [] }
    .next s.wipe

end Sys2Proof.Machine
end

