-- ==== Sys2Proof/Machine/Fwu.lean ====
section
/-! DEFINITION. Reeve firmware images and hitless firmware updates (R395 to R401), and the certificate chain (R389). -/

namespace Sys2Proof.Machine

/-! ### Firmware images -/

/-- The layout of a reeve firmware image (Table 10). -/
def firmwareForm (b : Bytes) : Bool :=
  let n := b.length
  decide (n % 64 = 0 ∧ 8192 ≤ n ∧ n ≤ 1048576 ∧ le b 8 2 = 1 ∧ le b 32 4 = n) && sub b 0 8 == ascii "LZREEVE1" &&
  zeroAt b 10 6 && zeroAt b 36 28 && zeroAt b (n - 13) 13

/-- What the boot ROM takes from an image (R395). -/
def readFirmware (b : Bytes) : Firmware :=
  { version := le b 16 8, security := le b 24 8, meas := Config.sha3_384 (b.take (b.length - 4736)) }

/-- The firmware security version floor (R396): word 871. -/
def State.fwFloor (s : State) : Nat := s.otpWord 871

/-- The checks of an image (R396): the RESULT of the first that fails. -/
def State.firmwareFault (s : State) (b : Bytes) : Option Nat :=
  let n := b.length
  if !firmwareForm b then some 2
  else if (readFirmware b).security < s.fwFloor then some 4
  else if !verifyBoth Config.vendorPk (b.take (n - 4736)) (ascii "LZREEVE") (sub b (n - 4736) 4723) then some 3
  else none

/-- A firmware slot as the boot ROM reads it: what STAGE wrote, or in slot A what manufacturing left, which the operand of
the phase gives. -/
def State.firmwareSlot (s : State) (slotB : Bool) (r : ReadOut) : Bytes :=
  if slotB then s.store.fwB.getD []
  else s.store.fwA.getD (if r.ok then r.bytes else [])

/-! ### Commands of the owner -/

/-- Ends an update command with its RESULT. -/
def State.fwuEnd (s : State) (code : Nat) : State := (s.setFld F.fwuCtl_RESULT code).setFld F.fwuCtl_BUSY 0

/-- An update command of the owner. -/
def State.fwuCmd (s : State) (port : Nat) (f : State → State) : State := s.ownerCmd port false F.otpErr_REG_ERR f

/-- What LZ_FWU_ARG names can be read (R314): one region with PERM bit 0, all its bytes verified. -/
def State.argRead (s : State) (r : ReadOut) (most : Nat) : Bool :=
  let len := s.fld F.fwuArg_LEN
  r.ok && decide (r.bytes.length = len ∧ 0 < len ∧ len ≤ most) &&
  (s.operandRow 0 true (s.fld F.fwuArg_ADDR) len 0).isSome

/-- FWU_STAGE (R397): an image that passes its checks, of another version than the running one, is written to the slot that
is not active. -/
def execFwuStage (port : Nat) (r : ReadOut) (stored : Bool) (s : State) : Res :=
  .next (s.fwuCmd port fun s =>
    let b := r.bytes
    let f := readFirmware b
    if s.fwu.st ≠ .idle ∨ s.life.lc = .endOfLife then s.fwuEnd 1
    else if !s.argRead r 1048576 then s.fwuEnd 2
    else
      match s.firmwareFault b with
      | some code => (if code = 3 then s.pkuOwn 2 else s).fwuEnd code
      | none =>
        let s := s.pkuOwn 2
        if (s.fwu.running.map (·.version)) = some f.version then s.fwuEnd 2
        else if !stored then s.fwuEnd 6
        else
          let st := if s.store.slotB then { s.store with fwA := some b } else { s.store with fwB := some b }
          ({ s with store := st, fwu := { s.fwu with st := .staged, staged := some f, boots := 0 } }).fwuEnd 0)

/-- The reeve core that is a healthy spare. -/
def State.spareReeve (s : State) : Option Nat :=
  (upto 0 3).find? fun i => decide ((s.unitOf 4 i).role = .spare)

/-- The spare reeve core boots the staged slot (R397): it is no spare until the update ends. -/
def State.bootSpare (s : State) (core : Nat) : State :=
  let s := s.setUnit 4 core { s.unitOf 4 core with role := .active }
  { s with fwu := { s.fwu with st := .booting, boots := 1, core := some core } }

/-- The reeve core of an update returns to role SPARE (R397). -/
def State.freeCore (s : State) : State :=
  match s.fwu.core with
  | none => s
  | some i =>
    let s := s.setUnit 4 i { s.unitOf 4 i with role := .spare }
    { s with fwu := { s.fwu with core := none } }

/-- FWU_START (R397): the spare core boots the staged slot; refused while a transition is pending, NO_CORE without a healthy
spare. -/
def execFwuStart (port : Nat) (s : State) : Res :=
  .next (s.fwuCmd port fun s =>
    if s.fwu.st ≠ .staged ∨ s.lct.pending ≠ 0 then s.fwuEnd 1
    else match s.spareReeve with
      | none => s.fwuEnd 8
      | some core => (({ s with fwu := { s.fwu with derived := false } }).bootSpare core).fwuEnd 0)

/-! ### Keys and jobs of an update -/

/-- The MEMORY and CELL slots that regions name. -/
def State.namedKeys (s : State) : List Nat :=
  ((s.rgn.rows.filter fun e => e.2.harrowable).map (·.2.kidx)).eraseDups.filter fun k =>
    decide ((s.slot k).kind = .memory ∨ (s.slot k).kind = .cell)

/-- EMPTY slots of a kind's range. -/
def State.emptySlots (s : State) (kind : KeyKind) : Nat :=
  let (lo, hi) := kind.range
  (hi + 1 - lo) - (s.keys.slots.filter fun e => decide (lo ≤ e.1 ∧ e.1 ≤ hi ∧ e.2.kind ≠ .empty)).length

/-- Both ranges hold enough EMPTY slots for a successor of each key that needs one (R398). -/
def State.slotsFor (s : State) (ks : List Nat) : Bool :=
  let cells := (ks.filter fun k => decide ((s.slot k).kind = .cell)).length
  decide (ks.length - cells ≤ s.emptySlots .memory ∧ cells ≤ s.emptySlots .cell)

/-- Runs a change of the keys under another memory key epoch count (R398). -/
def State.underCount (s : State) (n : Nat) (f : State → State) : State :=
  let c := s.keys.epochCount
  let s := f { s with keys := { s.keys with epochCount := n } }
  { s with keys := { s.keys with epochCount := c } }

/-- Derives a fresh successor of each slot under a measurement (R398, R400). -/
def State.deriveSuccs (s : State) (ks : List Nat) (m : Digest) : State :=
  ks.foldl (fun s k =>
    let x := s.slot k
    match s.freeSlot x.kind with
    | none => s
    | some n => (s.deriveSlot n x.kind x.cell 0 m 0).putSlot k { x with succ := n }) s

/-- The next metadata key, under a measurement and the next generation. -/
def State.nextMeta (s : State) (m : Digest) : State :=
  { s.count 450 1 with keys := { s.keys with metaKeyNext := some (s.metaKeyOf m (s.keys.metaGen + 1)) } }

/-- The lowest FREE job record other than one. -/
def State.freeJobBut (s : State) (n : Nat) : Option Nat :=
  (upto 0 16).find? fun j => decide ((s.job j).st = .free ∧ j ≠ n)

/-- The ALL job and then the META job of an update start (R145, R397), when START would take both; with no region to move
only the META job starts. -/
def State.startMoves (s : State) : Option State :=
  let rows := s.scopeRows .all 0
  match s.freeJob with
  | none => none
  | some a =>
    match if rows.isEmpty then some a else s.freeJobBut a with
    | none => none
    | some b =>
      if s.startCheck a .all 0 0 ≠ 0 ∨ s.startCheck b .metadata 0 0 ≠ 0 then none
      else
        let s := if rows.isEmpty then s else s.fillJob a .all false 0 0 0 rows
        let s := s.fillJob b .metadata false 0 0 0 []
        some { s with fwu := { s.fwu with jobs := if rows.isEmpty then [b] else [a, b] } }

/-- An update returns to IDLE (R397): the next measurement and the successors derived under it are dropped. -/
def State.dropUpdate (s : State) : State :=
  let m := s.keys.measNext
  let old := s.keys.slots.filter fun e => decide (e.2.succ ≠ 0) && some (s.slot e.2.succ).meas == m
  let s := old.foldl (fun s e => s.putSlot e.1 { s.slot e.1 with succ := 0 }) s
  let busy := s.harrow.jobs.any fun e => decide (e.2.scope = .metadata ∧ e.2.st ≠ .free)
  let s := s.freeCore
  let k := s.keys
  { s with keys := { k with measNext := none, metaKeyNext := if busy then k.metaKeyNext else none },
           fwu := { s.fwu with st := .idle, staged := none, boots := 0, jobs := [], abandoning := false, back := false,
                               derived := false } }

/-- KEYED goes on to MOVING when its jobs can start (R397). -/
def State.keyedOn (s : State) (m : Digest) : State :=
  match (s.underCount (s.keys.epochCount + 1) fun s => s.nextMeta m).startMoves with
  | some s => { s with fwu := { s.fwu with st := .moving } }
  | none => s

/-- FWU_READY (R398, R401): the staged firmware reports ready with the recorded measurement: the next measurement is
installed, the successors and the next ledger key are derived under it and the next epoch count, and the jobs start; too few
EMPTY slots end the update. After a warm reset nothing is derived again, and another measurement makes the update STUCK. -/
def execFwuReady (meas : Digest) (s : State) : Res :=
  match s.fwu.staged with
  | none => .next s
  | some f =>
    if s.fwu.st = .keyed then .next (s.keyedOn f.meas)
    else if s.fwu.st ≠ .booting then .next s
    else if s.fwu.derived then
      .next { s with fwu := { s.fwu with st := if meas = f.meas then .moving else .stuck } }
    else if meas ≠ f.meas then .next s
    else
      let s := { s with keys := { s.keys with measNext := some f.meas } }
      let ks := s.namedKeys.filter fun k => decide ((s.slot k).succ = 0)
      if !s.slotsFor ks then .next (s.dropUpdate.fwuEnd 5)
      else
        let s := s.underCount (s.keys.epochCount + 1) fun s =>
          let s := (s.deriveSuccs ks f.meas).count 450 1
          { s with keys := { s.keys with ledgerKeyNext := s.ledgerKeyOf f.meas (s.keys.ledgerGen + 1) } }
        .next (({ s with fwu := { s.fwu with st := .keyed } }).keyedOn f.meas)

/-- FWU_BOOT_TIMEOUT (R397): no ready 1 s after a boot: the core boots again, and after three boots the update ends with
RESULT BOOT. -/
def execFwuBootTimeout (s : State) : Res :=
  if s.fwu.st ≠ .booting then .next s
  else if s.fwu.boots < 3 then .next { s with fwu := { s.fwu with boots := s.fwu.boots + 1 } }
  else .next (s.dropUpdate.fwuEnd 7)

/-- The jobs of an update have SETTLED (R397); a job whose last region went is FREE. -/
def State.movesSettled (s : State) : Bool :=
  s.fwu.jobs.all fun n => let j := s.job n
    decide (j.st = .free ∨ j.st = .settled) || (j.scope != .all && j.scope != .metadata)

/-- The SETTLED jobs of an update retire. -/
def State.retireMoves (s : State) : State :=
  let js := s.fwu.jobs.filter fun n => decide ((s.job n).st = .settled)
  let s := js.foldl State.retireJob s
  { s with fwu := { s.fwu with jobs := [] } }

/-- ABANDON moves back (R400): once the jobs of the update have settled they retire, fresh successors are derived under the
current measurement and epoch count for every slot they moved to, and new jobs start. -/
def State.moveBack (s : State) : State :=
  if !s.movesSettled then s
  else
    let s := s.retireMoves
    let ks := s.namedKeys.filter fun k => some (s.slot k).meas == s.keys.measNext
    if !s.slotsFor ks then s
    else
      match ((s.deriveSuccs ks s.keys.meas).nextMeta s.keys.meas).startMoves with
      | some s => { s with fwu := { s.fwu with back := true } }
      | none => s

/-- The image that the handover swaps in (R372): a VALID shadow whose IDENT names the staged firmware. -/
def State.handoverImage (s : State) (f : Firmware) : Option Pesum :=
  match s.cfg.shadow, s.cfg.image with
  | .valid, some x => if x.reeveVersion = f.version then some x else none
  | _, _ => none

/-- The handover at T (R399): the boot record names the new slot, the next measurement is current, the epoch count advances,
the jobs retire, the shadow is swapped and the ledger rewrap starts. -/
def State.handover (s : State) (f : Firmware) (x : Pesum) : State :=
  let s := s.allocKeymap x
  if s.kidxConflict x then s.releaseAllocated
  else
    let s := { s with store := { s.store with slotB := !s.store.slotB },
                      keys := { s.keys with meas := f.meas, measNext := none, epochCount := s.keys.epochCount + 1 } }
    let s := { s with cfg := { s.cfg with persist := s.fld F.cfgSwap_PERSIST == 1 } }
    let s := s.retireMoves.swapIn x
    ({ s with fwu := { s.fwu with st := .handover, running := some f, staged := none, boots := 0, derived := false } }).startRewrap

/-- FWU_HANDOVER (R399, R400): with both jobs SETTLED and the shadow ready, the handover takes place; the resynchronisation
that follows ends the update. An update that is being abandoned moves back instead, and then ends. -/
def execFwuHandover (s : State) : Res :=
  match s.fwu.st with
  | .handover => .next ({ s with fwu := { s.fwu with st := .idle } }).freeCore
  | .moving =>
    if s.fwu.abandoning then
      if !s.fwu.back then .next s.moveBack
      else if s.movesSettled then .next s.retireMoves.dropUpdate
      else .next s
    else
      match s.fwu.staged with
      | none => .next s
      | some f =>
        match s.handoverImage f with
        | some x =>
          if s.movesSettled ∧ s.swapRefusal x = none ∧ !s.cfg.swapping then .next (s.handover f x) else .next s
        | none => .next s
  | _ => .next s

/-- FWU_CANCEL (R397): admitted in STAGED, BOOTING and KEYED. -/
def execFwuCancel (port : Nat) (s : State) : Res :=
  .next (s.fwuCmd port fun s =>
    if s.fwu.st = .staged ∨ s.fwu.st = .booting ∨ s.fwu.st = .keyed then s.dropUpdate.fwuEnd 0 else s.fwuEnd 1)

/-- FWU_STUCK (R397): the staged firmware faults in MOVING after three reboots of its core. -/
def execFwuStuck (s : State) : Res :=
  match s.fwu.st, s.fwu.staged, s.fwu.abandoning with
  | .moving, some f, false =>
    .next (({ s with fwu := { s.fwu with st := .stuck, boots := 3 } }).record .fwuStuck .reeve 0 none (f.version % 2 ^ 32) 0)
  | _, _, _ => .next s

/-- FWU_ABANDON (R400): admitted in STUCK; the regions move back to keys of the current firmware. -/
def execFwuAbandon (port : Nat) (s : State) : Res :=
  .next (s.fwuCmd port fun s =>
    if s.fwu.st ≠ .stuck then s.fwuEnd 1
    else (({ s with fwu := { s.fwu with st := .moving, abandoning := true, back := false } }).moveBack).fwuEnd 0)

/-- CERT (R389): the chain is written once, in PRODUCTION, when its leaf certifies the block's own identity keys. -/
def execCert (port : Nat) (r : ReadOut) (leafOk stored : Bool) (s : State) : Res :=
  .next (s.fwuCmd port fun s =>
    if s.life.lc ≠ .production ∨ s.store.chain.isSome then s.fwuEnd 1
    else if !s.argRead r 65536 then s.fwuEnd 2
    else if !leafOk then s.fwuEnd 1
    else if !stored then s.fwuEnd 6
    else ({ s with store := { s.store with chain := some r.bytes } }).fwuEnd 0)

end Sys2Proof.Machine
end

