-- ==== Sys2Proof/Machine/Bringup.lean ====
section
/-! DEFINITION. Resets and bring-up (R48, R295, R296, R390 to R396, R461): power-on and warm resets, the phases, and the
restore from the partner. -/

namespace Sys2Proof.Machine

/-! ### Phases -/

/-- LZ_READY.PHASE changes, which is traced (R437). -/
def State.setPhase (s : State) (n : Nat) : State :=
  ({ s with life := { s.life with phase := n } }).trace 0 1 (Src.fault.at 0) none n 0 0

/-- The phase that follows one (Table 8). -/
def nextPhase (lc : Lc) (wiped : Bool) (p : Nat) : Nat :=
  match lc with
  | .blank => if p < 5 then p + 1 else if p = 5 then 8 else 15
  | .endOfLife => if p < 3 then p + 1 else if p = 3 then 5 else if p = 5 && !wiped then 11 else 15
  | _ => if p < 9 then p + 1 else 15

/-- Bring-up stops in a phase with a cause (R394): it is recorded, and the fence stays high. -/
def State.stopBringup (s : State) (cause : Nat) : State :=
  ({ s with life := { s.life with fail := cause } }).record .bringupFail .fault 0 none s.life.phase cause

/-! ### Resets -/

/-- The levels that a reset changes at the boundary (R48): lz_warm_req, lz_drain_req, lz_acc_halt_ack and
lz_rdom_fenced fall. -/
def State.dropLevels (s : State) : State :=
  let s := if s.life.warmReq then s.emit (.warmReq false) else s
  let s := s.parts.foldl (fun s e =>
    let s := if e.2.drainReq then s.emit (.drainReq e.1 false) else s
    if e.2.haltAck then s.emit (.haltAck e.1 false) else s) s
  s.rdoms.foldl (fun s e => if e.2.fenced then s.emit (.rdomFenced e.1 false) else s) s

/-- What outlives every reset: OTP, the block store, and the model's own fields. So do the last generations used on RADIO
flows and under epoch 0, whose keys outlive a reset: no nonce is ever sealed twice (R63; log 63). -/
def State.cold (s : State) : State :=
  let s := s.dropLevels
  let gens := s.links.txGen.filter fun e => decide (e.1 < 2 ^ 16 ∨ 2 ^ 21 ≤ e.1)
  { State.reset with otp := s.otp, store := s.store, out := s.out, frees := s.frees, pending := s.pending,
                     keys := { State.reset.keys with draws := s.keys.draws },
                     links := { State.reset.links with txGen := gens } }

/-- The registers that a warm reset keeps (R418, R461): the gleaner's, the margin registers, LZ_FLT_REHEARSAL and the losses
of lock. -/
def keptReg (off : Nat) : Bool :=
  let margins := Reg.off .margin 0 0
  decide (margins ≤ off ∧ off < margins + 8 * 68) ||
  ([.fltRehearsal, .glnCtl, .glnStat, .glnArg, .clkStat] : List Reg).any fun r => Reg.off r 0 0 == off

/-- A block after a warm reset, before phase OTP (R418): what R418 keeps, what device memory holds, domain time, the power
requests, the trace ring, the partner's public key, and the update. -/
def State.warm (s : State) : State :=
  let c := s.cold
  let f := s.faults
  let o := s.obs
  let p := s.pair
  let was := if s.life.ready then some s.life.lc else s.lct.before
  let kept : Kept := if s.life.ready ∨ s.life.restored then
      { slots := s.keys.slots, drills := s.svc.drills, image := p.image }
    else s.kept
  let c := { c with
    regs := s.regs.filter fun e => keptReg e.1
    life := { c.life with powered := true, warm := true, time := s.life.time, pllLock := s.life.pllLock,
                          lockLost := s.life.lockLost && !s.life.pllLock,
                          rstCause := s.life.rstCause, settleAbandoned := s.life.settleAbandoned,
                          warmCount := s.life.warmCount, phase := s.life.phase }
    faults := { f with tagInject := none, linkDrop := [] }
    obs := { c.obs with ring := o.ring, next := o.next, held := o.held, staging := o.staging, lost := o.lost }
    units := { c.units with pwrReq := s.units.pwrReq }
    cfg := { c.cfg with testAuthority := s.cfg.testAuthority }
    pair := { c.pair with partnerKey := p.partnerKey, claimEpoch := p.claimEpoch, reqWait := p.reqWait }
    lct := { c.lct with before := was }
    fwu := s.fwu
    mem := { c.mem with poisoned := s.mem.poisoned }
    kept := kept }
  c.setFld F.fltCtl_REASON (s.fld F.fltCtl_REASON)

/-- The block reinitialises: phase OTP begins. -/
def State.reinit (s : State) : State := s.warm.setPhase 1

/-- POWER_ON_RESET_ASSERT (R48): lz_por_n falls: every field is at its reset value but what OTP and the block store hold. -/
def execPowerOnResetAssert (s : State) : Res := .next s.cold

/-- POWER_ON_RESET (R390): lz_por_n is released, and phase OTP begins. -/
def execPowerOnReset (s : State) : Res :=
  if s.life.powered then .next s
  else .next (({ s with life := { s.life with powered := true, rstCause := 0 } }).setPhase 1)

/-! ### The settle of a warm reset -/

/-- Dirty counter-cache lines remain. -/
def State.dirtyMeta (s : State) : Bool :=
  s.rgn.cache.any fun e => match e.2 with | some c => c.dirty | none => false

/-- The dirty metadata lines of a level are evicted (R295). -/
def State.evictLevel (s : State) (level : Nat) : State :=
  let hits := s.rgn.cache.filter fun e => e.1 / 2 ^ 32 == level &&
    (match e.2 with | some c => c.dirty | none => false)
  hits.foldl (fun s e => s.evict level (e.1 % 2 ^ 32)) s

/-- Steps 3 and 4 of the settle (R295): dirty lines are evicted, lower levels first, and once none is left the SETTLE record
goes out. -/
def State.settleStep (s : State) : State :=
  let s := ((s.evictLevel 1).evictLevel 2).evictLevel 3
  if s.dirtyMeta ∨ s.pair.unacked.any (·.settle) then s else s.sendMirror 0 true

/-- DOWN goes out at once on every transmitting CONTROL flow whose port is up (R290): it is the last frame of its flow that
carries no pair message, and what waited on the flow goes with the reset. -/
def State.sendDown (s : State) : State :=
  let flows := s.links.tx.filter fun f => f.lane == 2 && !f.down
  flows.foldl (fun s f =>
    let s := (s.setTx { f with waiting := [] }).sendDom "DOWN" 13 f.dest 0 f.epoch0 (leBytes 1 s.life.genCur ++ zeros 7)
    match s.links.tx.find? fun g => g.lane == 2 && g.dest == f.dest && g.fgen == f.fgen && g.epoch0 == f.epoch0 with
    | some g => if s.portUp g.port then s.sealOpen g else s
    | none => s) s

/-- Steps 1 and 2 of the settle (R295): DOWN, accepted reads are abandoned, held egress is discarded, commits not yet done
are lost (Table 12), and the levels at the boundary take their reset values (R48). -/
def State.beginSettle (s : State) : State :=
  let s := s.sendDown.dropLevels
  let parts := s.parts.map fun (e : Nat × Part) =>
    (e.1, { e.2 with halt := false, haltAck := false, drainReq := false, acked := false, lowering := false })
  let s := { s with parts := parts, rdoms := [], stile := {}, life := { s.life with telem := 0 } }
  s.withMem { s.mem with reads := [], ingress := [], spans := [], spanGranted := [], rsps := [], remoteRsps := [],
                         held := [], tids := [] }

/-- WARM_RESET (R295, R418): lz_warm_rst_n falls: the fence rises; a block in service whose pair is UP and whose PLL holds
lock settles first, unless a unit fault (`lost`) stops its evictions; otherwise the settle is abandoned and phase OTP
begins. -/
def execWarmReset (lost : Bool) (s : State) : Res :=
  let l := s.life
  if !l.powered ∨ l.settling then .next s
  else
    let cause := if l.lockLost then 3 else if l.warmReq then 2 else 1
    let s := if l.warmReq then s.emit (.warmReq false) else s
    let s := { s with life := { l with blkFence := true, warmReq := false, rstCause := cause,
                                       warmCount := (l.warmCount + 1) % 2 ^ 16, settleAbandoned := false } }
    let s := s.beginSettle
    if l.ready ∧ s.pair.state = .up ∧ !l.lockLost ∧ !lost then
      .next (({ s with life := { s.life with settling := true } }).setPhase 10).settleStep
    else .next ({ s with life := { s.life with settleAbandoned := true } }).reinit

/-- The settle is abandoned (R295). -/
def State.abandonSettle (s : State) : State :=
  ({ s with life := { s.life with settling := false, settleAbandoned := true } }).reinit

/-- SETTLE_TIMEOUT (R295): the settle is not done 5 ms after the fall. -/
def execSettleTimeout (s : State) : Res := if s.life.settling then .next s.abandonSettle else .next s

/-! ### Loss of lock -/

/-- PLL_LOCK_LOSS (R461): the loss is counted, lz_blk_fence and lz_warm_req rise; a settle in progress is abandoned. -/
def execPllLockLoss (s : State) : Res :=
  if !s.life.pllLock then .next s
  else
    let s := s.incFld F.clkStat_LOCK_LOSS
    let s := { s with life := { s.life with pllLock := false, lockLost := true, blkFence := true } }
    if s.life.settling then .next s.abandonSettle else .next s.raiseWarm

/-- PLL_LOCK_RETURN (R461): lock returns after a loss; the FATAL record names phase CALIBRATE and cause CLOCK. -/
def execPllLockReturn (s : State) : Res :=
  if s.life.pllLock ∨ !s.life.lockLost then .next s
  else .next (({ s with life := { s.life with pllLock := true } }).record .bringupFail .fault 0 none 3 2)

/-! ### The work of the early phases -/

/-- Phase OTP (R378, R379, R387, R390): the repair entries are applied, the highest-numbered one for a word; interrupted
transitions are completed; the state is voted; unit identity, disabled map and I3C static address (0x4A in BLANK, R69) are
loaded. -/
def State.phaseOtp (s : State) : State :=
  let entries := (upto 0 32).map fun k => (k, tget 0 s.otp.rows (99 + k))
  let remap := entries.foldl (fun (t : Tbl (Option Nat)) e =>
    if bit e.2 63 then tset none t (bits e.2 0 10) (some (992 + e.1)) else t) []
  let s := { s with otp := { s.otp with remap := remap, repairs := [] } }
  let s := ((s.completeJournal 3 lcTest).completeJournal 4 lcProduction).completeJournal 5 lcEnd
  let code := vote (s.otpWord 0 % 2 ^ 32) (s.otpWord 1 % 2 ^ 32) (s.otpWord 2 % 2 ^ 32)
  let lc := Lc.ofCode code
  let addr := BitVec.ofNat 7 (s.otpWord 26)
  let s := { s with life := { s.life with lc := lc.getD .endOfLife, decodeFail := lc.isNone,
                                          i3cStatic := if lc = some .blank ∨ addr = 0 then 0x4A else addr } }
  let s := (upto 0 2).foldl (fun s j => s.wr .unitId (s.otpWord (24 + j)) j) s
  (upto 0 8).foldl (fun s j => s.wr .disabledMap (s.otpWord (27 + j)) j) s

/-- Phase BOOT (R396): the active slot, or else the other one, holds an acceptable image, which is measured and runs; none
is cause FIRMWARE. -/
def State.phaseBoot (s : State) (r : ReadOut) : Option State :=
  let try_ := fun (slotB : Bool) =>
    let b := s.firmwareSlot slotB r
    if (s.firmwareFault b).isNone then some (slotB, readFirmware b) else none
  match (match try_ s.store.slotB with | some x => some x | none => try_ (!s.store.slotB)) with
  | none => none
  | some (slotB, f) => some { s with store := { s.store with slotB := slotB }, keys := { s.keys with meas := f.meas },
                                     fwu := { s.fwu with running := some f } }

/-- The check word of a copy of the root (R167). -/
def rootCheck (root : BitVec 256) : Nat := (Config.kmac256 (bvBytes root) [] 32 (ascii "LZROOTCK")).toNat

/-- A copy of the root in OTP: words 8 to 11 or 12 to 15. -/
def State.rootCopy (s : State) (i : Nat) : BitVec 256 :=
  BitVec.ofNat 256 (((upto 0 4).map fun j => s.otpWord (8 + 4 * i + j) * 2 ^ (64 * j)).sum)

/-- The root that a copy gives when its check word matches (R167). -/
def State.fusedRoot (s : State) : Option (BitVec 256) :=
  let ok := fun i => rootCheck (s.rootCopy i) == bits (s.otpWord 16) (32 * i) 32
  if ok 0 then some (s.rootCopy 0) else if ok 1 then some (s.rootCopy 1) else none

/-- The root rows are blank (R167). -/
def State.rootBlank (s : State) : Bool := (upto 8 9).all fun w => s.otpWord w == 0

/-- The root is drawn with prediction resistance and programmed, two copies and their check words (R167). -/
def State.makeRoot (s : State) : Bool × State :=
  let s := s.reseed
  let root := s.drawn 256
  s.drew.programRows (((upto 0 8).map fun j => (8 + j, bits root.toNat (64 * (j % 4)) 64)) ++
    [(16, rootCheck root * (1 + 2 ^ 32))])

/-- Phase KEYS (R167, R169, R174): the test root in TEST; in PRODUCTION the fused root, generated when the rows are blank,
and the identity keys; it fails when a row cannot be programmed nor repaired, or both checks fail. -/
def State.phaseKeys (s : State) : Bool × State :=
  if s.life.lc = .test then
    (true, { s with keys := { s.keys with root := Config.sha3_256 (ascii "LEMZAR TEST ROOT"), rootOk := true } })
  else
    let (ok, s) := if s.rootBlank then s.makeRoot else (true, s)
    match s.fusedRoot with
    | some r =>
      if ok then
        (true, { s with keys := { s.keys with root := r, rootOk := true }, store := { s.store with idKeys := true } })
      else (false, s)
    | none => (false, s)

/-! ### Phase METADATA -/

/-- The keys of the current generations are derived (R392). -/
def State.deriveInternal (s : State) : State :=
  let k := s.keys
  { s.count 450 2 with keys := { k with metaKey := s.metaKeyOf k.meas k.metaGen,
                                        ledgerKey := s.ledgerKeyOf k.meas k.ledgerGen } }

/-- Ports 38 and 39 serve the plot's two attachments, and the pair bootstraps (R392). -/
def State.connectPair (s : State) : State :=
  match s.cfg.image with
  | none => s
  | some x =>
    match x.pair with
    | none => s
    | some p =>
      let s := s.setPort 38 { s.port 38 with role := .pair, att := some p.attA }
      (s.setPort 39 { s.port 39 with role := .pair, att := some p.attB }).applyPair x

/-- A virgin start (R392, R95, R172, R173): a new memory key epoch, the generations at 1, the boot nonce and lz_gen_cur
drawn; a pair is bootstrapped, and one that is UP already takes a full mirror record. -/
def State.virginStart (s : State) : State :=
  let s := s.reseed
  let salt := s.drawn 256
  let s := s.drew
  let nonce := (s.drawn 64).toNat
  let s := s.drew
  let gen := (s.drawn 8).toNat
  let s := s.drew
  let s := { s with keys := { s.keys with epochCount := 1, epochSalt := salt, serial := 1, metaGen := 1, ledgerGen := 1,
                                          measNext := none },
                    life := { s.life with genCur := gen, restoreWait := false } }
  let s := { s with fwu := { running := s.fwu.running }, kept := {} }
  ((s.setFld F.shfNonce_NONCE nonce).connectPair).deriveInternal.mirrorRoots

/-- Phase METADATA begins (R392): a warm start in the state held before, not after a loss of lock, whose shadow is VALID with a
PAIR plot, asks the partner for a restore; any other start is virgin. In BLANK there is nothing but zeroing. -/
def State.beginMetadata (s : State) : State :=
  if s.life.lc = .blank then s
  else
    let paired := decide (s.cfg.shadow = .valid) && (s.cfg.image.bind (·.pair)).isSome
    if s.life.warm ∧ s.life.rstCause ≠ 3 ∧ s.lct.before = some s.life.lc ∧ paired then
      ({ s with life := { s.life with restoreWait := true } }).connectPair
    else s.virginStart

/-- RESTORE_WAIT_TIMEOUT (R392): no restore was accepted in time, and the block starts virgin; the draws of a virgin start
wait while ES_FAIL is set (R196). -/
def execRestoreWaitTimeout (s : State) : Res :=
  if s.life.restoreWait ∧ s.predOk then .next s.virginStart else .next s

/-! ### Restore -/

/-- The scalar roots of item 1 are installed (R296). -/
def State.takeScalars (s : State) (b : Bytes) : State :=
  let next := BitVec.ofNat 384 (le b 160 48)
  let k := s.keys
  let s := { s with
    rgn := { s.rgn with epsrc := le b 0 8 + 2 ^ 32 }
    keys := { k with epochCount := le b 8 8, epochSalt := BitVec.ofNat 256 (le b 16 32), serial := le b 48 8 + 2 ^ 32,
                     metaGen := le b 56 8, ledgerGen := le b 64 4, copyB := bit (le b 68 1) 0,
                     meas := BitVec.ofNat 384 (le b 112 48), measNext := if next = 0 then none else some next }
    life := { s.life with genCur := (le b 69 1 + 1) % 256 }
    cfg := { s.cfg with ratchet := le b 96 8 } }
  let s := ((s.setFld F.shfSeq_SEQ (le b 72 8 + 2 ^ 32)).setFld F.shfNonce_NONCE (le b 80 8)).setFld F.ownEpoch_EPOCH (le b 88 8)
  let s := s.setFld F.pairEpoch_EPOCH (le b 104 8)
  let i := s.kept.image
  let same := decide (i.verA = le b 208 8 ∧ i.verB = le b 216 8) && i.copyB == bit (le b 224 1) 0
  s.withPair { s.pair with image := { i with stale := i.stale || !same } }

/-- A restored region (R296, R225): a seal in progress has ended incomplete; after a commit restore TILLED and FURROW regions
restart virgin and an OPEN SOWN region is SEALED with SEAL_INCOMPLETE. -/
def State.restoreRow (s : State) (settle : Bool) (items : Items) (row : Nat) (b : Bytes) : State :=
  let r := Region.ofBytes b
  let win := match r.wslot with | some w => windowOf r.hwm (itemData items 3 w) | none => []
  let r := { r with win := win }
  let r := if r.state = .sealing then { r with state := .sealed, sealIncomplete := true, digest := 0 } else r
  if settle ∨ r.state = .free ∨ r.kind = .clear then s.setRow row r
  else if r.kind = .sown then
    s.setRow row (if r.state = .opened then { r with state := .sealed, sealIncomplete := true, digest := 0 } else r)
  else
    let (e, s) := s.drawEpoch
    s.setRow row { r with epoch := e, hwm := 0, win := [], stamp := s.life.time }

/-- The origin of a code (Table 5 of the keys chapter). -/
def KeyOrigin.ofCode (n : Nat) : KeyOrigin := ([.derived, .imported, .agreed, .mirror] : List KeyOrigin).getD n .derived

/-- What a memory ledger entry holds when it is accepted (R184, R186): its tag verifies under the ledger key, it is the
slot's, and its VERSION is at least the restored one. -/
def openEntry (lk : Key) (gen slot version : Nat) (e : Bytes) : Option (Nat × Slot) :=
  let attrs := sub e 32 20
  let ct := e.take 32
  let v := le e 45 4
  let iv := leBytes 4 gen ++ leBytes 2 slot ++ leBytes 4 v ++ [0, 0]
  let a := le e 34 1
  if e.length = 64 ∧ le e 32 2 = slot ∧ version ≤ v ∧ (bvBytes (gcmTag lk iv attrs ct)).take 12 = sub e 52 12 then
    some (v, { kind := KeyKind.ofCode (bits a 0 3), origin := KeyOrigin.ofCode (bits a 3 2), noexport := bit a 5,
               exp := le e 35 1, succ := le e 36 2, usage := le e 38 7, dref := le e 49 3,
               key := BitVec.ofNat 256 (ofLE ((gcmCrypt lk iv 2 (blocksOf ct)).take 32)) })
  else none

/-- A ledger entry of the active copy is loaded (R186): accepted with 2^20 added to its USAGE, or rejected, which empties the
slot, marks it FAILED, and is counted and recorded. Either change is written (R183) under the next VERSION. HOST keys end
with their sessions (R338). What an entry does not hold, the cell number and the measurement of the derivation, is as it
was before the reset (log 50). -/
def State.loadEntry (s : State) (ledger : List (Nat × Bytes)) (slot version : Nat) : State :=
  let setVersion := fun (s : State) (v : Nat) => { s with keys := { s.keys with versions := tset 0 s.keys.versions slot v } }
  match (ledger.find? (·.1 == slot)).bind fun e => openEntry s.keys.ledgerKey s.keys.ledgerGen slot version e.2 with
  | none =>
    (((setVersion s version).putSlot slot { failed := true }).incFld F.keyErr_LEDGER_FAIL).record .ledgerReject .key 0 none
      slot version
  | some (v, k) =>
    let s := setVersion s v
    if k.kind = .empty then s
    else
      let was := tget {} s.kept.slots slot
      s.putSlot slot { k with usage := min (k.usage + 2 ^ 20) k.limit, dref := if k.kind = .host then 0 else k.dref,
                              cell := was.cell, meas := was.meas }

/-- The metadata lines that a restore reads, upper levels first, are taken into the counter cache when they verify under the
metadata key, or under the next one of a META job (R37, R160). -/
def State.loadMeta (s : State) (mem : List (Nat × DmcBeat)) : State :=
  ([3, 2, 1] : List Nat).foldl (fun s level => mem.foldl (fun s x =>
    match s.metaAt x.1 with
    | some (l, idx) =>
      if l ≠ level then s
      else
        match s.parentEntry level idx with
        | none => s
        | some (major, minor) =>
          let ok := fun (k : Key) => metaOk k x.1 level major minor x.2.lo x.2.sbLo
          if !x.2.err && (ok s.keys.metaKey || s.keys.metaKeyNext.any ok) then
            s.cacheNode level idx (CtrLine.ofLine x.2.lo) false
          else s
    | none => s) s) s

/-- A line of a page that a restored job recovers (R165): verified under the new key, and if that fails under the old. -/
def State.recoverLine (s : State) (mem : List (Nat × DmcBeat)) (row line : Nat) : Option Line :=
  match mem.find? (·.1 == line) with
  | none => none
  | some (_, b) =>
    let c := s.moveCtr row line
    let try_ := fun (slot : Nat) =>
      let k := (s.slot slot).key
      if !b.err && lineOk k line c b.lo b.sbLo then some (openLine k line c b.lo) else none
    match try_ (s.row row).kidxNext with
    | some d => some d
    | none => try_ (s.row row).kidx

/-- A page of a restored job is recovered (R165): its lines are written under the new key, and a line that verifies under
neither key is moved poisoned. -/
def State.recoverPage (s : State) (mem : List (Nat × DmcBeat)) (row q : Nat) : State :=
  let abs := (s.row row).base * pagesPerGranule + q
  match (if (s.row row).kind = .tilled then s.counterOf abs else some {}) with
  | none => s.movePoison (s.row row).part (s.metaLine 1 (s.spanPage abs))
  | some c => s.moveOut row abs ((s.moveLines row q c).map fun i => (abs * 64 + i, s.recoverLine mem row (abs * 64 + i)))

/-- A metadata page of a restored META job is recovered: its lines are re-tagged under the new key. -/
def State.recoverMeta (s : State) (mem : List (Nat × DmcBeat)) (q : Nat) : State :=
  let abs := s.rgn.metaBase * pagesPerGranule + q
  let ks := match s.keys.metaKeyNext with | some k => [k, s.keys.metaKey] | none => [s.keys.metaKey]
  s.retagOut (s.judgeMeta abs (fun _ => ks) fun i => mem.find? (·.1 == abs * 64 + i))

/-- A restored job recovers the 4,352 pages from its mark (R165), and H passes them. -/
def State.recoverJob (s : State) (n : Nat) (mem : List (Nat × DmcBeat)) : State :=
  let j := s.job n
  let total := match j.scope, j.todo with
    | .metadata, _ => s.metaPages
    | _, row :: _ => if (s.row row).radio then 0 else (s.row row).count * pagesPerGranule
    | _, [] => 0
  if total = 0 ∨ ¬ (j.st = .running ∨ j.st = .suspended) then s
  else
    let h := min total (j.mark + 4352)
    let s := (upto j.mark (h - j.mark)).foldl (fun s q => match j.scope, j.todo with
      | .metadata, _ => s.recoverMeta mem q
      | _, row :: _ => s.recoverPage mem row q
      | _, [] => s) s
    (s.setJob n { j with head := h, done := [], retry := [] }).settleJob n

/-- The harrow records are installed and the jobs recover (R165, R296). -/
def State.restoreHarrow (s : State) (items : Items) (mem : List (Nat × DmcBeat)) : State :=
  let recs := items.filter fun x => x.1 == 6 && !zeroAt x.2.2 0 x.2.2.length
  let jobs := (recs.filter fun x => decide (x.2.1 < 16)).map fun x => (x.2.1, Job.ofBytes x.2.2)
  let retags := (recs.filter fun x => decide (16 ≤ x.2.1)).map fun x => Retag.ofBytes x.2.2
  let s := jobs.foldl (fun s j => s.setJob j.1 j.2) s
  let s := { s with harrow := { s.harrow with retags := retags, starts := (jobs.map fun (j : Nat × Job) => j.2.order + 1).foldl max 0 } }
  let s := if jobs.any fun j => j.2.scope == .metadata && s.keys.metaKeyNext.isNone then
      let m := s.keys.measNext.getD s.keys.meas
      let n := if s.keys.measNext.isSome then s.keys.epochCount + 1 else s.keys.epochCount
      s.underCount n fun s => s.nextMeta m
    else s
  jobs.foldl (fun s j => s.recoverJob j.1 mem) (s.loadMeta mem)

/-- A start whose booted measurement is the restored next one completes the handover (R396, R399). -/
def State.completeHandover (s : State) (booted : Digest) : State :=
  if s.keys.measNext = some booted ∧ s.keys.meas ≠ booted then
    let k := s.keys
    let s := { s with keys := { k with meas := booted, measNext := none, epochCount := k.epochCount + 1 } }
    let js := (s.harrow.jobs.filter fun e => decide (e.2.st = .settled ∧ (e.2.scope = .all ∨ e.2.scope = .metadata))).map (·.1)
    let s := js.foldl State.retireJob s
    ({ s with fwu := { running := s.fwu.running } }).startRewrap
  else s

/-- What a restore leaves of an update (R401): it returns to BOOTING, and derives nothing again once it was KEYED. -/
def State.resumeUpdate (s : State) : State :=
  let jobs := (s.harrow.jobs.filter fun e => decide (e.2.scope = .all ∨ e.2.scope = .metadata)).map (·.1)
  match s.fwu.st with
  | .idle | .handover => { s with fwu := { running := s.fwu.running } }
  | .staged => s
  | .booting => s.bootSpare (s.spareReeve.getD 2)
  | _ => if s.fwu.abandoning then { s with fwu := { s.fwu with jobs := jobs } }
         else ({ s with fwu := { s.fwu with derived := true, jobs := jobs } }).bootSpare (s.spareReeve.getD 2)

/-- The restored roots are installed (R296, R186, R165). -/
def State.installRoots (s : State) (settle : Bool) (items : Items) (ledger : List (Nat × Bytes))
    (mem : List (Nat × DmcBeat)) : State :=
  let booted := s.keys.meas
  let s := s.takeScalars (itemData items 1 0)
  let s := match s.cfg.image with | some x => s.applyAreas x | none => s
  let s := (items.filter fun x => x.1 == 2 && !zeroAt x.2.2 0 x.2.2.length).foldl
    (fun s x => s.restoreRow settle items x.2.1 x.2.2) s
  let tree := (items.filter fun x => x.1 == 4).foldl (fun (t : Tbl CtrLine) x =>
    let key := if x.2.1 < 384 then 4 * 2 ^ 32 + x.2.1 else 5 * 2 ^ 32 + (x.2.1 - 384)
    tset {} t key (CtrLine.ofLine (toLine x.2.2))) []
  let s := { s with rgn := { s.rgn with tree := tree } }
  let s := s.deriveInternal
  let s := (items.filter fun x => x.1 == 5 && decide (le x.2.2 0 4 ≠ 0)).foldl
    (fun s x => s.loadEntry ledger x.2.1 (le x.2.2 0 4)) s
  let drills := (items.filter fun x => x.1 == 9 && bit (le x.2.2 0 1) 0).foldl (fun (t : Tbl (Option Drill)) x =>
    match tget none s.kept.drills x.2.1 with
    | some d => if d.entry = x.2.2 then tset none t x.2.1 (some d) else t
    | none => t) []
  let s := { s with svc := { s.svc with drills := drills } }
  let s := s.restoreHarrow items mem
  let s := (s.resumeUpdate.completeHandover booted)
  let cells := s.pair.cells.map fun e => (e.1, some false)
  let s := s.withPair { s.pair with cells := cells, restore := if settle then 1 else 2 }
  { s with life := { s.life with restoreWait := false, restored := true }, kept := {} }

/-- RESTORE (R296, R392): the roots of a record whose ratchet is the shadow image's version are installed; an empty RESTORE,
or one of another ratchet, leaves the block to start virgin. `ledger` and `mem` are what device memory returns: the ledger
entries of the active copy, and the lines that the recovery reads. -/
def execRestore (kind : BitVec 2) (empty : Bool) (items : List (Nat × Nat × Bytes)) (ledger : List (Nat × Bytes))
    (mem : List (Nat × DmcBeat)) (s : State) : Res :=
  if !s.life.restoreWait ∨ s.pair.state ≠ .up then .next s
  else
    let version := (s.cfg.image.map (·.version)).getD 0
    let s := match s.pairPlot with | some p => s.forgetEpoch0 p.partner | none => s
    if empty ∨ le (itemData items 1 0) 96 8 ≠ version then .next (if s.predOk then s.virginStart.answerWaiting else s)
    else .next (s.installRoots (decide (kind = 1)) items ledger mem).answerWaiting

/-! ### Phase SWAP and READY -/

/-- Phase SWAP (R393, R371): a virgin start swaps a VALID shadow in; after a restore the shadow is the active image, whose
REGIONS and KEYMAP are not applied. -/
def State.phaseSwap (s : State) : State :=
  match s.cfg.shadow, s.cfg.image with
  | .valid, some x =>
    if s.life.restored then
      let s := ((s.applyPlots x).applyLanes x).showActive x
      let s := { s with cfg := { s.cfg with active := some x } }
      let s := s.emptyShadow
      (s.rowsWhere fun r => r.radio && decide (r.state ≠ .free ∧ r.state ≠ .closing)).foldl (fun s i =>
        if (s.slot (s.row i).kidx).kind = .cell then s.pinCell (s.row i).kidx else s) s
    else
      let s := s.prepareSwap x false
      if s.cfg.swapping then s.swapIn x else s
  | _, _ => s

/-- The PKU makes the domain agent's ML-KEM and ECDH key pairs of this start (R281), with prediction resistance. -/
def State.makeDomainKeys (s : State) : State :=
  let s := s.reseed
  (s.withDom { s.dom with keyNo := s.keys.draws }).drew

/-- What is drawn as READY sets: the domain agent's keys and both nonces. -/
def State.readyDraws (s : State) : State := (s.makeDomainKeys.setPhase 15).newNonce.newLcNonce

/-- READY sets (R390, R393): the fence falls, the nonces are drawn, END_OF_LIFE hedges every partition, a domain plot starts
joining, and a warm start is recorded. -/
def State.setReady (s : State) : State :=
  let s := State.readyDraws { s with life := { s.life with ready := true, blkFence := false } }
  let s := if s.life.lc = .endOfLife then s.hedgeAll else s
  let s := if s.life.warm then
      s.record .warmReset .fault 0 none s.life.genCur (if s.life.restored then 1 else 0)
    else s
  if (s.cfg.active.bind (·.domain)).isSome then s.startJoin else s

/-- The work of a phase at its end, and whether it succeeds. -/
def State.phaseWork (s : State) (r : ReadOut) : Bool × State :=
  match s.life.phase with
  | 1 => (true, s.phaseOtp)
  | 2 => (true, s.reseed)
  | 3 => (true, { s with life := { s.life with pllLock := s.life.pllLock || !s.life.warm } })
  | 5 => match s.phaseBoot r with
    | some s => (true, s)
    | none => (false, s)
  | 6 => s.phaseKeys
  | 7 => let x := s.storedConfig r
         (true, s.loadImage x.1 x.2)
  | 9 => (true, s.phaseSwap)
  | 11 => (true, if s.lct.wiping then s.wipe else s)
  | _ => (true, s)

/-- The entropy source holds a phase (R194, R196): ENTROPY until a start-up test has passed, and a phase that ends with draws
with prediction resistance (the root, the epoch salt, the domain agent's keys) while ES_FAIL is set. -/
def State.entropyHolds (s : State) : Bool :=
  let p := s.life.phase
  (p == 2 && s.keys.esFail) || (([6, 7, 9] : List Nat).contains p && !s.predOk)

/-- What a phase does as it begins: the configuration ratchet starts at its floor (R367), METADATA decides on a restore, WIPE
has the wipe to do. -/
def State.enterPhase (s : State) (p : Nat) : State :=
  let s := if p = 15 then s.setReady else s.setPhase p
  match p with
  | 7 => { s with cfg := { s.cfg with ratchet := s.cfgFloor } }
  | 8 => s.beginMetadata
  | 11 => { s with lct := { s.lct with wiping := true } }
  | _ => s

/-- The causes that a phase may stop with by the event alone (Table 9); FIRMWARE, and ROOT by its checks, come from the
phase's own work. -/
def stopCauses (p : Nat) : List Nat :=
  match p with
  | 2 => [1]
  | 3 => [2, 3]
  | 4 => [4]
  | _ => []

/-- BRINGUP_PHASE_DONE (R390 to R394): the phase's work is done and the next phase begins, or bring-up stops with its cause.
A settle ends with its acknowledgement, and METADATA waits for the restore it has asked for. -/
def execBringupPhaseDone (cause : BitVec 4) (r : ReadOut) (s : State) : Res :=
  let l := s.life
  if !l.powered ∨ l.fail ≠ 0 ∨ l.phase = 0 ∨ l.phase = 15 then .next s
  else if l.phase = 10 then .next (if l.settling then s.settleStep else s.reinit)
  else if cause ≠ 0 then
    if (stopCauses l.phase).contains cause.toNat then .next (s.stopBringup cause.toNat) else .next s
  else if (l.phase = 8 ∧ l.restoreWait) ∨ s.entropyHolds then .next s
  else
    let (ok, s) := s.phaseWork r
    if !ok then .next (s.stopBringup l.phase)
    else
      let wiped := bit (s.otpWord 6) 0 || s.life.decodeFail
      .next (s.enterPhase (nextPhase s.life.lc wiped l.phase))

/-- EPOCH0_ENTRY_EXPIRY (R279): an epoch-0 generation without a frame for 1 s is forgotten. -/
def execEpoch0EntryExpiry (src : BitVec 16) (lane : BitVec 2) (s : State) : Res :=
  let l := s.links
  .next (s.withLinks { l with rx := l.rx.filter fun f => !(f.epoch0 && f.src == src.toNat && f.lane == lane.toNat) })

end Sys2Proof.Machine
end

