-- ==== Sys2Proof/Machine/Observe.lean ====
section
/-! DEFINITION. Observation (R431 to R443): the trace ring, the counters and the observation mailbox. -/

namespace Sys2Proof.Machine

/-- TRACE_RECORD (R436): the oldest staged record takes the next sequence and enters the ring; one that follows a dropped
record carries LOST. -/
def execTraceRecord (s : State) : Res :=
  let o := s.obs
  match o.staging with
  | [] => .next s
  | r :: rest =>
    let r := { r with seq := o.next, flags := r.flags + (if o.lost then 1 else 0) }
    .next { s with obs := { o with ring := tput o.ring (o.next % 32768) r, next := (o.next + 1) % 2 ^ 32,
                                   held := min (o.held + 1) 32768, staging := rest, lost := false } }

/-- The 32 bytes of a trace record (Table 2). -/
def TraceRec.bytes (r : TraceRec) : Bytes :=
  leBytes 8 r.time ++ leBytes 4 r.seq ++ leBytes 2 (r.cls * 256 + r.ev) ++ leBytes 2 r.src ++ leBytes 1 r.part ++
  leBytes 1 r.flags ++ leBytes 2 r.a16 ++ leBytes 4 r.a32 ++ leBytes 8 r.a64

/-- The sequence of the oldest record held. -/
def State.traceOldest (s : State) : Nat := (s.obs.next + 2 ^ 32 - s.obs.held) % 2 ^ 32

/-- Collects records of a set of classes from a sequence on, at most `room`, examining at most `left`: the records, and the
sequence beyond the last one examined. -/
def collectTrace (ring : Tbl TraceRec) (classes : Nat) : (left room seq : Nat) → List TraceRec × Nat
  | 0, _, seq => ([], seq)
  | _ + 1, 0, seq => ([], seq)
  | left + 1, room + 1, seq =>
    let r := tget {} ring (seq % 32768)
    let next := (seq + 1) % 2 ^ 32
    if bit classes r.cls then
      let x := collectTrace ring classes left room next
      (r :: x.1, x.2)
    else collectTrace ring classes left (room + 1) next

/-- Ends a request of an observation mailbox with its RESULT and response. -/
def State.obsEnd (s : State) (port code : Nat) (rsp : Bytes) : State :=
  let s := ((s.fillBox .obsMbox rsp port).setFld F.obsMboxCtl_RSP_LEN rsp.length 0 port).setFld F.obsMboxCtl_RESULT code 0 port
  ((s.setFld F.obsMboxCtl_GO 0 0 port).setFld F.obsMboxCtl_BUSY 0 0 port).regRsp port 0 false

/-- Where a request for trace records from a sequence on starts (R439): whether records before it are gone, the sequence
of the first one examined, and how many are held from there on. -/
def State.traceFrom (s : State) (first : Nat) : Bool × Nat × Nat :=
  let o := s.obs
  let oldest := s.traceOldest
  let ahead := (first + 2 ^ 32 - o.next) % 2 ^ 32
  let behind := (first + 2 ^ 32 - oldest) % 2 ^ 32
  if behind < o.held then (false, first, o.held - behind)
  else if ahead < 2 ^ 31 then (false, first, 0)
  else (true, oldest, o.held)

/-- TRACE_READ (R439): the records of the port's classes from a sequence on, or from the oldest one held with GAP when that
sequence has been overwritten; a sequence not yet written gives none. -/
def execTraceRead (port : Nat) (first : BitVec 32) (count : BitVec 16) (s : State) : Res :=
  let n := count.toNat
  if !s.regsOpen ∨ 6 ≤ port then .next s
  else if n = 0 ∨ 255 < n then .next (s.obsEnd port 2 [])
  else
    let from_ := s.traceFrom first.toNat
    let found := collectTrace s.obs.ring (s.classes port) from_.2.2 n from_.2.1
    let head := ascii "LZTR" ++ leBytes 2 found.1.length ++ leBytes 2 (if from_.1 then 1 else 0) ++
      leBytes 4 found.2 ++ zeros 4
    .next (s.obsEnd port 1 (head ++ (found.1.map TraceRec.bytes).flatten))

/-- ALLOW_REOPEN of an attach port (R432). -/
def State.allowReopen (s : State) (port : Nat) : Bool :=
  match s.cfg.active.bind (·.observe) with
  | some l => bit (l.getD port 0) 15
  | none => false

/-- The challenge record before its signatures (R440). -/
def State.challengeRecord (s : State) (port classes : Nat) (nonce : BitVec 256) : Bytes :=
  ascii "LZOBSCH1" ++ leBytes 2 1 ++ leBytes 2 classes ++ leBytes 1 port ++ zeros 3 ++ bvBytes s.ident ++ bvBytes nonce ++
  leBytes 8 s.life.time ++ bvBytes s.keys.meas ++ zeros 8

/-- OBS_CHALLENGE (R440): a nonce is drawn for the bank, and the signed challenge record is the response; both wait while
ES_FAIL is set (R196). -/
def execObsChallenge (port : Nat) (classes : BitVec 16) (s : State) : Res :=
  if !s.regsOpen ∨ 6 ≤ port then .next s
  else if 256 ≤ classes.toNat then .next (s.obsEnd port 2 [])
  else if !s.allowReopen port then .next (s.obsEnd port 3 [])
  else if s.life.lc ≠ .production then .next (s.obsEnd port 4 [])
  else if !s.predOk then .next s
  else
    let nonce := s.drawn 256
    let s := s.drew
    let s := { s with obs := { s.obs with nonce := tset none s.obs.nonce port (some nonce) } }
    let b := s.challengeRecord port classes.toNat nonce
    let (sigs, s) := s.signBoth b (ascii "LZOBSCH")
    .next (s.obsEnd port 1 (b ++ sigs))

/-- The checks of a grant record in the order of the RESULT codes (R440). -/
def State.grantCheck (s : State) (port : Nat) (b : Bytes) : Option Nat :=
  let nonce := tget none s.obs.nonce port
  if ¬ (b.length = 4851 ∧ sub b 0 8 = ascii "LZOBSGR1" ∧ le b 8 2 = 1 ∧ le b 10 2 < 256) ∨ !zeroAt b 13 3 ∨
      !zeroAt b 112 16 then some 2
  else if !s.allowReopen port then some 3
  else if s.life.lc ≠ .production then some 4
  else if le b 16 16 ≠ s.ident.toNat then some 5
  else if le b 12 1 ≠ port ∨ nonce.map (·.toNat) ≠ some (le b 32 32) then some 6
  else if !verifyBoth Config.obsPk (b.take 128) (ascii "LZOBSGR") (sub b 128 4723) then some 7
  else none

/-- OBS_RESPONSE (R440): a grant record that passes adds its classes to the port; the bank's nonce ends in any case. -/
def execObsResponse (port : Nat) (rec : Bytes) (s : State) : Res :=
  if !s.regsOpen ∨ 6 ≤ port then .next s
  else
    let code := s.grantCheck port rec
    let s := { s with obs := { s.obs with nonce := tset none s.obs.nonce port none } }
    match code with
    | some c => .next (((if c = 7 then s.pkuOwn 2 else s).incFld F.obsErr_REOPEN_FAIL).obsEnd port c [])
    | none =>
      let got := tget 0 s.obs.reopened port ||| le rec 10 2
      .next (({ s.pkuOwn 2 with obs := { s.obs with reopened := tset 0 s.obs.reopened port got } }).obsEnd port 1 [])

/-- The class of a counter (Table 4). -/
def cntClass (n : Nat) : Nat :=
  if n < 320 then 1 else if n < 448 then 4 else if n < 455 then 5 else if n < 461 then 2
  else if n < 474 then 5 else if n < 477 then 2 else if n < 480 then 5 else 1

/-- A counter. -/
def State.cnt (s : State) (n : Nat) : Nat := tget 0 s.obs.cnts n

/-- COUNTER_HALF_READ (R438, R439): a read of the lower half loads the port's latch with the upper one; a read of the upper
half gives the latched value and empties the latch when it holds that counter, and the current value otherwise. A port
without the class gets an error response. -/
def execCounterHalfRead (port : Nat) (n : BitVec 9) (hi : Bool) (s : State) : Res :=
  let i := n.toNat
  if !s.regsOpen ∨ 6 ≤ port then .next s
  else if !bit (s.classes port) (cntClass i) then .next (s.regBad port F.obsErr_DENIED)
  else
    let x := s.cnt i
    let latch := fun (s : State) (v : Option (Nat × Nat)) =>
      ({ s with obs := { s.obs with latch := tset none s.obs.latch port v } } : State)
    if !hi then .next ((latch s (some (i, x / 2 ^ 32))).regRsp port (x % 2 ^ 32) false)
    else
      match tget none s.obs.latch port with
      | some (j, v) => if j = i then .next ((latch s none).regRsp port v false)
                       else .next (s.regRsp port (x / 2 ^ 32) false)
      | none => .next (s.regRsp port (x / 2 ^ 32) false)

end Sys2Proof.Machine
end

