-- ==== Sys2Proof/Machine/Views.lean ====
section
/-! DEFINITION. What a read of a register shows: fields that mirror the block's state are computed from it, all others lie
in the register file. -/

namespace Sys2Proof.Machine

/-- A word with fields replaced. -/
def withFlds (base : Nat) (l : List (Fld × Nat)) : Nat := l.foldl (fun n p => setBits n p.1.lo p.1.width p.2) base

/-- A truth value as a bit. -/
def b2n (b : Bool) : Nat := if b then 1 else 0

/-- Word `j` of 64 bits of a bit string. -/
def word64 {w : Nat} (x : BitVec w) (j : Nat) : Nat := bits x.toNat (64 * j) 64

/-- Codes of the role fields. -/
def Role.code : Role → Nat
  | .active => 0 | .spare => 1 | .draining => 2 | .bypassed => 3

/-- Codes of LZ_PORT_CTL.ROLE (Table 8 of the links chapter). -/
def PortRole.code : PortRole → Nat
  | .fabric => 0 | .pair => 1 | .spare => 2 | .draining => 3 | .bypassed => 4

/-- Codes of LZ_SVC_QSTAT.STATE and LZ_HOST_BSTAT.STATE. -/
def QState.code : QState → Nat
  | .disabled => 0 | .running => 1 | .stopped => 2 | .draining => 3

/-- Codes of LZ_CFG_STATUS.SHADOW. -/
def Shadow.code : Shadow → Nat
  | .empty => 0 | .loading => 1 | .valid => 2 | .invalid => 3 | .preparing => 4

/-- Codes of LZ_DOM_STAT.STATE. -/
def DomState.code : DomState → Nat
  | .detached => 0 | .joining => 1 | .member => 2 | .seat => 3 | .fallowHold => 4 | .leaving => 5

/-- Codes of LZ_PAIR_STAT.STATE. -/
def PairState.code : PairState → Nat
  | .disabled => 0 | .bootstrap => 1 | .up => 2 | .lost => 3

/-- Codes of LZ_FWU_STAT.STATE. -/
def FwuSt.code : FwuSt → Nat
  | .idle => 0 | .staged => 1 | .booting => 2 | .keyed => 3 | .moving => 4 | .handover => 5 | .stuck => 6

/-- Bit numbers of LZ_FLT_HEDGE.CAUSES. -/
def Cause.bitNo : Cause → Nat
  | .owner => 0 | .fallow => 1 | .eol => 2 | .reset => 3 | .winnow => 4

/-- LZ_LC_STATE.STATE of a life-cycle state. -/
def Lc.state : Lc → Nat
  | .blank => 0 | .test => 1 | .production => 2 | .endOfLife => 3

/-! ### Groups of fields -/

/-- GLB and CRS registers (R451, R465). -/
def State.glbFields (s : State) : Reg → List (Fld × Nat)
  | .ready => [(F.ready_READY, b2n (s.life.ready && s.life.phase == 15)), (F.ready_PHASE, s.life.phase),
      (F.ready_FAIL, s.life.fail), (F.ready_WARM, b2n s.life.warm), (F.ready_RESTORED, b2n s.life.restored)]
  | .lcState => [(F.lcState_CODE, if s.life.decodeFail then 2 ^ 32 - 1 else s.life.lc.code), (F.lcState_STATE, s.life.lc.state)]
  | .clkStat => [(F.clkStat_PLL_LOCK, b2n s.life.pllLock),
      (F.clkStat_REF_OK, if s.life.pllLock then 1 else (s.freeVal 1).toNat),
      (F.clkStat_SLEW, if 0 < s.life.slew then 1 else if s.life.slew < 0 then 2 else 0)]
  | .rstCtl => [(F.rstCtl_CAUSE, s.life.rstCause), (F.rstCtl_SETTLE_ABANDONED, b2n s.life.settleAbandoned),
      (F.rstCtl_WARM_COUNT, s.life.warmCount)]
  | .pwrRamp => [(F.pwrRamp_THROTTLING, b2n s.throttle.throttling)]
  | _ => []

/-- LANE and PORT registers of instance `i`, and the fabric's (R144, R274). -/
def State.laneFields (s : State) (i : Nat) : Reg → List (Fld × Nat)
  | .laneCtl => [(F.laneCtl_GROUP, (s.lane i).group.getD 0x3F), (F.laneCtl_ROLE, (s.lane i).role.code)]
  | .laneStat => [(F.laneStat_QUEUED, (s.mem.ingress.filter (·.lane == i)).length),
      (F.laneStat_PAGE_LOCK, b2n (s.mem.moves.any (·.lane == i))), (F.laneStat_MAINT_ACTIVE, b2n (!(s.lane i).maint.isEmpty || s.mem.accesses.any fun a => a.lane == i && a.maint)),
      (F.laneStat_HOLD_LINES, 256 - s.holdFree i), (F.laneStat_WBUF_LINES, (s.mem.wbuf.filter (·.lane == i)).length),
      (F.laneStat_PROGRESS, (s.lane i).progress)]
  | .portCtl => [(F.portCtl_ATT, (s.port i).att.getD 0x3F), (F.portCtl_ROLE, (s.port i).role.code)]
  | .portStat => [(F.portStat_LINK_UP, b2n (match (s.port i).att with | some a => s.links.up.contains a | none => false)),
      (F.portStat_FLOWS, (s.links.tx.filter (·.port == i)).length + (s.links.rx.filter (·.port == i)).length),
      (F.portStat_PROGRESS, (s.port i).progress)]
  | .fabStat => [(F.fabStat_TX_FLOWS, s.links.tx.length), (F.fabStat_RX_FLOWS, s.links.rx.length),
      (F.fabStat_CAPMAP_USED, s.links.caps.length), (F.fabStat_FLAGS_WAITING, s.links.flags.length)]
  | _ => []

/-- KEY, RGN and HRW registers (Tables 14 and 15 of the keys chapter, R89, R166); the harrow's show the record that
LZ_HRW_CTL.JOB names. -/
def State.keyFields (s : State) : Reg → List (Fld × Nat)
  | .keyGlobal =>
    let cells := s.keys.slots.filter fun e => decide (e.2.kind = .cell) && s.cellPinned e.1
    [(F.keyGlobal_SLOTS_USED, (s.keys.slots.filter fun e => decide (e.2.kind ≠ .empty)).length),
      (F.keyGlobal_ROWS_PINNED, s.rowPins.length + cells.length), (F.keyGlobal_SPARE_ROWS_USED, s.keys.spareRows.length),
      (F.keyGlobal_ES_FAIL, b2n s.keys.esFail), (F.keyGlobal_DRBG_READY, b2n s.keys.drbgReady),
      (F.keyGlobal_NOSUCC_WAIT, b2n !s.keys.noSucc.isEmpty)]
  | .keyEpoch => [(F.keyEpoch_COUNT, s.keys.epochCount)]
  | .keyLedger => [(F.keyLedger_GENERATION, s.keys.ledgerGen), (F.keyLedger_COPY, b2n s.keys.copyB),
      (F.keyLedger_REWRAP, b2n s.keys.rewrap)]
  | .rgnEpsrc => [(F.rgnEpsrc_NEXT, s.rgn.epsrc)]
  | .hrwHeadland =>
    let n := s.fld F.hrwCtl_JOB
    let j := s.job n
    [(F.hrwHeadland_PAGE, j.head), (F.hrwHeadland_IN_FLIGHT, (s.mem.closed.filter (·.job == n)).length),
      (F.hrwHeadland_MARK, j.mark / 4096)]
  | .hrwStat =>
    let n := fun (p : JobSt → Bool) => (s.harrow.jobs.filter fun e => p e.2.st).length
    [(F.hrwStat_RUNNING, n fun x => x == .running || x == .suspended), (F.hrwStat_QUEUED, n (· == .queued)),
      (F.hrwStat_RETAG, s.harrow.retags.length), (F.hrwStat_AUTO_WAIT, b2n !s.keys.autoWait.isEmpty),
      (F.hrwStat_PROGRESS, s.harrow.progress)]
  | .hrwJob =>
    let j := s.job (s.fld F.hrwCtl_JOB)
    [(F.hrwJob_STATE, j.st.code), (F.hrwJob_SCOPE, j.scope.code), (F.hrwJob_AUTO, b2n j.auto), (F.hrwJob_RADIO, b2n j.radio),
      (F.hrwJob_OLD, j.old), (F.hrwJob_NEW, j.new), (F.hrwJob_REGION, j.region)]
  | _ => []

/-- Stripes of gang commands that are running (R320). -/
def State.gangStripes (s : State) : Nat :=
  (s.svc.queues.map fun e => ((e.2.cmds.filter fun c => c.gang && decide (c.st = .running)).map fun c =>
    c.desc.stripes - c.stripes.length).sum).sum

/-- SVC registers of queue `i`, and the SCU's, PKU's and drills' (R328). -/
def State.svcFields (s : State) (i : Nat) : Reg → List (Fld × Nat)
  | .svcQstat =>
    let x := s.queue i
    [(F.svcQstat_SQ_HEAD, x.sqHead), (F.svcQstat_CQ_TAIL, x.cqTail), (F.svcQstat_INFLIGHT, x.cmds.length),
      (F.svcQstat_PHASE, b2n x.phase), (F.svcQstat_STATE, x.state.code), (F.svcQstat_PROGRESS, x.progress)]
  | .scuStat => [(F.scuStat_GANG_OK, b2n s.gangOk), (F.scuStat_GANG_LANES, min 44 s.gangStripes),
      (F.scuStat_QUEUE, s.svc.scu.queue), (F.scuStat_PROGRESS, s.svc.scu.progress)]
  | .pkuStat =>
    let n := (s.svc.queues.map fun e => (e.2.cmds.filter fun c => !c.owner && pkuOp c.desc.op && decide (c.st ≠ .done)).length).sum
    [(F.pkuStat_TENANT_WAIT, n), (F.pkuStat_PROGRESS, s.svc.scu.pkuProgress)]
  | .drillSel =>
    let stored := (s.svc.drills.filter fun e => e.2.isSome).length
    match tget none s.svc.drills (s.fld F.drillSel_INDEX) with
    | some d => [(F.drillSel_VALID, 1), (F.drillSel_PART, d.part), (F.drillSel_OWNER, b2n d.owner),
        (F.drillSel_STORED, min stored 1023)]
    | none => [(F.drillSel_STORED, min stored 1023)]
  | .drillDigest =>
    match tget none s.svc.drills (s.fld F.drillSel_INDEX) with
    | some d => [(F.drillDigest_BYTES, word64 d.digest i)]
    | none => []
  | _ => []

/-- Two lanes of an accumulator that is exposed (R227): zero unless its context is FINAL with EXPOSE. -/
def Ctx.accWord (c : Ctx) (i : Nat) : Nat :=
  if c.st = .final && c.expose then c.acc.getD (2 * i) 0 % 2 ^ 32 + c.acc.getD (2 * i + 1) 0 % 2 ^ 32 * 2 ^ 32 else 0

/-- STV registers (R227, R250). -/
def State.stvFields (s : State) (i : Nat) : Reg → List (Fld × Nat)
  | .stvStat => [(F.stvStat_CTX_FREE, 254 - (s.dig.stv.ctxs.filter fun e => decide (e.2.st ≠ .free)).length),
      (F.stvStat_CORES, ((upto 0 68).filter fun c => decide ((s.core c).role = .active)).length),
      (F.stvStat_SLOTS, s.dig.stv.asms.length), (F.stvStat_SEGS, (s.dig.stv.segs.filter fun g => !g.hashed).length),
      (F.stvStat_COL_SPARED, b2n (decide ((s.unitOf 1 64).role = .active)))]
  | .stvProgress => [(F.stvProgress_CHUNKS, s.dig.stv.progress)]
  | .stvAcc => [(F.stvAcc_LANES, (s.ctx (s.fld F.stvCtl_CTX)).accWord i)]
  | .stvBist => [(F.stvBist_ROLE, (s.core (s.fld F.stvBist_CORE)).role.code)]
  | .shfStat => [(F.shfStat_OPEN_LEAVES, s.dig.shf.leaves.length), (F.shfStat_SIGNING, b2n s.dig.shf.signing.isSome),
      (F.shfStat_FULL_WAIT, b2n s.dig.shf.closeDue.isSome), (F.shfStat_PROGRESS, s.dig.shf.progress)]
  | _ => []

/-- PART and HOST registers of instance `i` (R351, R352). -/
def State.partFields (s : State) (i : Nat) : Reg → List (Fld × Nat)
  | .partCtl => [(F.partCtl_FLIP, b2n !(s.part i).oldDirty.isEmpty), (F.partCtl_ACTIVE_MAP, b2n (s.part i).activeMap)]
  | .partStat => [(F.partStat_RADIO, b2n (s.plotOf i).radio), (F.partStat_HEDGED, b2n (s.hedged i)),
      (F.partStat_HALTED, b2n (s.part i).haltAck), (F.partStat_QUEUES, (s.queuesOf i).length),
      (F.partStat_CHANNELS, (s.chansOf i).length), (F.partStat_REFS, s.partRefs i)]
  | .hostStat => [(F.hostStat_ATC0, (s.host.atc.filter (·.att == 0)).length), (F.hostStat_ATC1, (s.host.atc.filter (·.att == 1)).length),
      (F.hostStat_SESSIONS, (s.host.sessions.filter fun e => match e.2 with | some x => x.live | none => false).length),
      (F.hostStat_BINDINGS, s.host.bindings.length)]
  | .hostProgress => [(F.hostProgress_INVOCATIONS, s.host.progress)]
  | .hostBstat => [(F.hostBstat_HEAD, (s.chan i).head), (F.hostBstat_STATE, (s.chan i).state.code),
      (F.hostBstat_PROGRESS, (s.chan i).progress)]
  | _ => []

/-- OWN, CFG, PAIR and DOM registers (R362, R375, R302). -/
def State.domFields (s : State) (port : Nat) : Reg → List (Fld × Nat)
  | .ownStatus => [(F.ownStatus_SELF, port), (F.ownStatus_AUTH_SET, b2n s.authority.isSome)]
  | .cfgStatus => [(F.cfgStatus_SHADOW, s.cfg.shadow.code)]
  | .cfgRatchet => [(F.cfgRatchet_RATCHET, s.cfg.ratchet)]
  | .pairStat => [(F.pairStat_STATE, s.pair.state.code), (F.pairStat_RESTORE, s.pair.restore),
      (F.pairStat_MIRRORS_OUT, s.pair.unacked.length),
      (F.pairStat_PRIMARY, (s.pair.cells.filter fun e => e.2 == some true).length)]
  | .domStat => [(F.domStat_STATE, s.dom.state.code), (F.domStat_MODE, b2n s.domPlot.gentag), (F.domStat_UNIT, s.unit),
      (F.domStat_MEMBERS, ((s.dom.cur.map (·.members.length)).getD 0)), (F.domStat_ADVANCING, b2n s.dom.advance.isSome)]
  | .domEpoch => [(F.domEpoch_EPOCH, s.epochNo)]
  | .domSeat => match s.dom.ballot with
    | some b => [(F.domSeat_UNIT, b.unit), (F.domSeat_SEAT_EPOCH, b.epoch)]
    | none => []
  | .domLease => [(F.domLease_END, if s.dom.state = .seat then ((s.dom.ballot.map (·.notAfter)).getD 0) else s.dom.leaseEnd)]
  | .domTime => [(F.domTime_TIME, s.life.time)]
  | .domId0 => [(F.domId0_ID, word64 s.domPlot.domId 0)]
  | .domId1 => [(F.domId1_ID, word64 s.domPlot.domId 1)]
  | _ => []

/-- FLT registers (R429); LZ_FLT_HEDGE and LZ_FLT_UNIT show the partition and the unit they name. -/
def State.fltFields (s : State) (i : Nat) : Reg → List (Fld × Nat)
  | .fltHedge =>
    let x := s.part (s.fld F.fltHedge_PART)
    [(F.fltHedge_CAUSES, (x.causes.eraseDups.map fun c => 2 ^ c.bitNo).sum),
      (F.fltHedge_STEP, (x.winnow.map (·.step)).getD 0)]
  | .fltUnit => [(F.fltUnit_ROLE, (s.unitOf (s.fld F.fltUnit_TYPE) (s.fld F.fltUnit_INDEX)).role.code)]
  | .glnStat => [(F.glnStat_HEAD, s.faults.head), (F.glnStat_FROZEN, b2n s.faults.frozen), (F.glnStat_WRAPPED, b2n s.faults.wrapped),
      (F.glnStat_SEQ, s.faults.seq)]
  | .glnEntry =>
    let b := if s.faults.ring.any (·.1 == i / 4) then (tget {} s.faults.ring (i / 4)).bytes else zeros 32
    [(F.glnEntry_BYTES, le b (8 * (i % 4)) 8)]
  | _ => []

/-- OBS and OTP registers (R443, R403). -/
def State.obsFields (s : State) (i port : Nat) : Reg → List (Fld × Nat)
  | .obsStat => [(F.obsStat_OLDEST, s.traceOldest), (F.obsStat_NEXT, s.obs.next)]
  | .obsClasses => [(F.obsClasses_HELD, s.classes port),
      (F.obsClasses_RECORDING, ((upto 0 8).map fun c => if s.recording c then 2 ^ c else 0).sum),
      (F.obsClasses_REOPENED, tget 0 s.obs.reopened port), (F.obsClasses_ALLOW, b2n (s.allowReopen port))]
  | .obsCnt => [(F.obsCnt_COUNT, s.cnt i)]
  | .otpStat => [(F.otpStat_SPARES_USED, s.sparesUsed), (F.otpStat_REPAIR_PENDING, b2n !s.otp.repairs.isEmpty)]
  | .lcInfo => [(F.lcInfo_PENDING, s.lct.pending), (F.lcInfo_DECODE_FAIL, b2n s.life.decodeFail),
      (F.lcInfo_WIPE_DONE, b2n (bit (s.otpWord 6) 0))]
  | .fwuStat => [(F.fwuStat_STATE, s.fwu.st.code), (F.fwuStat_ACTIVE_SLOT, b2n s.store.slotB), (F.fwuStat_BOOTS, s.fwu.boots),
      (F.fwuStat_CERT_SET, b2n s.store.chain.isSome)]
  | .fwuVer => [(F.fwuVer_VERSION, (s.fwu.running.map (·.version)).getD 0)]
  | .fwuCur => [(F.fwuCur_BYTES, word64 s.keys.meas i)]
  | .fwuNext => [(F.fwuNext_BYTES, match s.keys.measNext with | some d => word64 d i | none => 0)]
  | _ => []

/-- The fields of a register that mirror state, with their values. -/
def State.mirrors (s : State) (port : Nat) (r : Reg) (i : Nat) : List (Fld × Nat) :=
  s.glbFields r ++ s.laneFields i r ++ s.keyFields r ++ s.svcFields i r ++ s.stvFields i r ++ s.partFields i r
    ++ s.domFields port r ++ s.fltFields i r ++ s.obsFields i port r

/-- What a read of a register on an attach port shows. -/
def State.view (s : State) (port : Nat) (x : RegAt) : Nat :=
  withFlds (s.rd x.reg x.i x.j port) (s.mirrors port x.reg x.i)

end Sys2Proof.Machine
end

