-- ==== Sys2Proof/Machine/Bus.lean ====
section
/-! DEFINITION. Register accesses (R12 to R16, R444 to R450, R468): reads, writes, and the paths on which they arrive
(R68, R361, R447). A write that starts a command acts as that command; what the command takes from outside (bytes read,
outcomes of tests) is then a free value. -/

namespace Sys2Proof.Machine

/-! ### Error counters -/

/-- The error counter of a register's window (Table 1 of the register map, R446). -/
def Reg.errFld : Reg → Fld
  | .ownClaim | .ownStatus | .ownEpoch | .ownHandover | .ownNonce0 | .ownNonce1 | .ownErr | .ownHdigest
  | .ownClaimdata => F.ownErr_REG_ERR
  | .cfgShadowBase | .cfgLoad | .cfgStatus | .cfgSwap | .cfgActiveVer | .cfgShadowVer | .cfgRatchet | .cfgErr
  | .cfgHash => F.cfgErr_REG_ERR
  | .laneCtl | .laneStat | .laneErr | .laneBist => F.laneErr_REG_ERR
  | .portCtl | .portStat | .portErr | .portBist => F.portErr_REG_ERR
  | .fabCtl | .fabGrant | .fabActrSel | .fabActrVal | .fabStat | .fabErr => F.fabErr_REG_ERR
  | .keySel | .keyCmd | .keyStat | .keyUsage | .keyLimit | .keyGlobal | .keyEpoch | .keyLedger | .keyErr
  | .keyCell => F.keyErr_REG_ERR
  | .rgnSel | .rgnErr | .rgnEpsrc | .rgnTspan | .rgnMeta | .rgnDesc0 | .rgnDesc1 | .rgnDesc2 | .rgnDesc3 | .rgnDesc4
  | .rgnDesc5 | .rgnDesc6 | .rgnDesc7 | .rgnDesc8 | .rgnDesc9 | .rgnDesc10 | .rgnDesc11 | .rgnDesc12 | .rgnDesc13
  | .rgnDesc14 | .rgnDesc15 => F.rgnErr_REG_ERR
  | .hrwCtl | .hrwHeadland | .hrwStat | .hrwShare | .hrwJob | .hrwTurn | .hrwErr | .hrwTurnbase => F.hrwErr_REG_ERR
  | .svcQbase | .svcQcbase | .svcQcfg | .svcQtimeout | .svcQdoorbell | .svcQstat | .svcQerr => F.svcQerr_REG_ERR
  | .scuStat | .scuErr | .pkuStat | .drillSel | .drillDigest => F.scuErr_REG_ERR
  | .stvCtl | .stvArg | .stvStat | .stvProgress | .stvCtx | .stvCount | .stvDigest | .stvErr | .stvBist | .stvAcc
  | .watchCtl | .watchCfg | .watchThresh | .watchStat | .watchEvt | .watchErr | .watchRes
  | .tokCtl | .tokArg | .tokId0 | .tokId1 | .tokStat | .tokChain
  | .shfCtl | .shfStat | .shfSeq | .shfNonce | .shfErr => F.stvErr_REG_ERR
  | .partCtl | .partStat | .partWeight | .partRate | .partDirtyBase | .partHost | .partHwinBase | .partHwinSize
  | .partCarve | .partErr => F.partErr_REG_ERR
  | .hostCtl | .hostStat | .hostErr | .hostKeywarn | .hostProgress | .hostQpasid | .hostBcfg | .hostBring
  | .hostBdoorbell | .hostBstat | .hostMboxCtl | .hostMboxSess | .hostMboxData => F.hostErr_REG_ERR
  | .pairCtl | .pairStat | .pairEpoch | .pairCell | .pairAck | .pairErr => F.pairErr_REG_ERR
  | .domCtl | .domStat | .domEpoch | .domSeat | .domLease | .domTime | .domId0 | .domId1 | .domMboxCtl | .domErr
  | .domMbox => F.domErr_REG_ERR
  | .fltCtl | .fltPending | .fltIrq | .fltAbort | .fltReset | .fltHedge | .fltWinnow | .fltUnit | .fltInject
  | .fltInjarg | .fltRehearsal | .fltErr | .glnCtl | .glnStat | .glnArg | .glnEntry => F.fltErr_REG_ERR
  | .obsStat | .obsClasses | .obsErr | .obsCnt | .obsMboxCtl | .obsMbox => F.obsErr_REG_ERR
  | .otpCtl | .otpData | .otpStat | .otpErr | .lcCtl | .lcNonce0 | .lcNonce1 | .lcInfo | .fwuCtl | .fwuArg
  | .fwuStat | .fwuVer | .fwuCur | .fwuNext | .lcMbox => F.otpErr_REG_ERR
  | .id | .stepping | .ready | .lcState | .gstat | .unitId | .disabledMap | .heartbeat
  | .clkStat | .rstCtl | .pwrRamp | .margin => F.gstat_BAD_ACCESS

/-- The instance of a window's error counter that an access to instance `i` of a register counts in. -/
def Reg.errInst (r : Reg) (i : Nat) : Nat :=
  match r with
  | .laneCtl | .laneStat | .laneErr | .laneBist | .portCtl | .portStat | .portErr | .portBist
  | .svcQbase | .svcQcbase | .svcQcfg | .svcQtimeout | .svcQdoorbell | .svcQstat | .svcQerr
  | .partCtl | .partStat | .partWeight | .partRate | .partDirtyBase | .partHost | .partHwinBase | .partHwinSize
  | .partCarve | .partErr => i
  | _ => 0

/-- An error response that counts in the register's window (R446). -/
def State.winErr (s : State) (port : Nat) (x : RegAt) : State := s.regBad port x.reg.errFld (x.reg.errInst x.i)

/-! ### Fields of an access -/

/-- An access acts on a field: any in a 64-bit access, in a 32-bit one those wholly within the half (R448). -/
def acts (a : RegAccess) (f : Fld) : Bool :=
  a.wide || (if a.hi then decide (32 ≤ f.lo) else decide (f.lo + f.width ≤ 32))

/-- A write may set a field (R13, R468). -/
def AccCode.writable : AccCode → Bool
  | .ro | .rc => false
  | .rw | .w1c | .w1s | .wo | .any => true

/-- The word a write carries for the fields of a register (R448): what the access does not act on keeps the current value
of an RW field and is zero otherwise. -/
def State.writeWord (s : State) (port : Nat) (x : RegAt) (a : RegAccess) : Nat :=
  let cur := s.rd x.reg x.i x.j port
  let d := if a.wide then a.data.toNat else a.data.toNat % 2 ^ 32 * (if a.hi then 2 ^ 32 else 1)
  x.reg.fields.foldl (fun n f =>
    if acts a f then n + bits d f.lo f.width * 2 ^ f.lo
    else if f.acc = .rw then n + bits cur f.lo f.width * 2 ^ f.lo else n) 0

/-- Stores the RW and ANY fields of a write and clears the W1C bits it names (R13). -/
def State.storeFlds (s : State) (port : Nat) (x : RegAt) (w : Nat) : State :=
  let cur := s.rd x.reg x.i x.j port
  let v := x.reg.fields.foldl (fun n f =>
    let b := bits w f.lo f.width
    match f.acc with
    | .rw | .any => setBits n f.lo f.width b
    | .w1c => setBits n f.lo f.width (bits n f.lo f.width - (bits n f.lo f.width &&& b))
    | _ => n) cur
  s.wr x.reg v x.i x.j port

/-- The value a write gives a field. -/
def wf (w : Nat) (f : Fld) : Nat := bits w f.lo f.width

/-! ### Reads -/

/-- A read by the owner clears the RC fields it acts on (R13, R448); the minima of a margin take the current codes, and its
event is armed again (R425, R430). -/
def State.clearRc (s : State) (x : RegAt) (a : RegAccess) : State :=
  if x.reg = .margin then
    if a.wide || !a.hi then
      let s := (s.setFld F.margin_MIN_A (s.fld F.margin_CUR_A x.i) x.i).setFld F.margin_MIN_B (s.fld F.margin_CUR_B x.i) x.i
      { s with faults := { s.faults with marginFired := s.faults.marginFired.filter (· != x.i) } }
    else s
  else
    (x.reg.fields.filter fun f => decide (f.acc = .rc) && acts a f).foldl (fun s f => s.setFld f 0 x.i) s

/-- A read on an attach port (R12, R13, R16, R438, R439, R448): a 32-bit read presents its half in the low 32 bits. -/
def State.readReg (s : State) (port : Nat) (a : RegAccess) : State :=
  if !s.regsOpen then s
  else if a.off % 8 ≠ 0 then (s.incFld F.gstat_BAD_ACCESS).regRsp port 0 true
  else
    match regAt? a.off with
    | none => (s.incFld F.gstat_UNMAPPED).regRsp port 0 true
    | some x =>
      if x.reg = .obsCnt ∧ bit (s.classes port) (cntClass x.i) = false then s.regBad port F.obsErr_DENIED
      else if x.reg = .obsCnt ∧ a.wide = false then
        match execCounterHalfRead port (BitVec.ofNat 9 x.i) a.hi s with
        | .next t => t
        | _ => s
      else
        let v := s.view port x
        let v := if a.wide then v else bits v (if a.hi then 32 else 0) 32
        let s := if x.reg = .clkStat ∧ s.life.pllLock = false then s.freed else s
        let s := if port = s.ownerPort then s.clearRc x a else s
        s.regRsp port v false

/-! ### Reserved encodings -/

/-- More than one of START, SWAP and RETURN is set. -/
def threeBad (w lo : Nat) : Bool := decide (1 < bits w lo 1 + bits w (lo + 1) 1 + bits w (lo + 2) 1)

/-- A value lies outside a range. -/
def outside (v lo hi : Nat) : Bool := decide (v < lo ∨ hi < v)

/-- A write places a reserved encoding in a field (R11), as the owning chapters give them. -/
def State.reserved (s : State) (x : RegAt) (w : Nat) : Bool :=
  let v := wf w
  match x.reg with
  | .ownHandover => decide (6 ≤ v F.ownHandover_SUCCESSOR) || (bit w 3 && bit w 4)
  | .pwrRamp => outside (v F.pwrRamp_RAMP) 20 10000
  | .cfgShadowBase => decide (2 ≤ v F.cfgShadowBase_LOC)
  | .cfgLoad => bit w 0 && bit w 1
  | .laneBist => threeBad w 0 || decide (44 ≤ v F.laneBist_SPARE)
  | .portBist => threeBad w 0 || decide (40 ≤ v F.portBist_SPARE)
  | .fabCtl => outside (v F.fabCtl_RSP_TO) 10 10000 || outside (v F.fabCtl_IDLE_MS) 1 100000
  | .fabGrant => decide (3 ≤ v F.fabGrant_CMD)
  | .fabActrSel => decide (4 ≤ v F.fabActrSel_CMD)
  | .keyCmd => decide (7 ≤ v F.keyCmd_CMD)
  | .rgnSel => decide (7 ≤ v F.rgnSel_CMD)
  | .hrwCtl => decide (5 ≤ v F.hrwCtl_CMD)
  | .hrwShare => decide (250 < v F.hrwShare_SHARE)
  | .svcQcfg => outside (v F.svcQcfg_SIZE) 4 12 || decide (6 ≤ v F.svcQcfg_ATT ∨ v F.svcQcfg_CLS = 3 ∨ v F.svcQcfg_WEIGHT = 0) ||
      (decide (v F.svcQcfg_CLS = 0) && !(s.plotOf (v F.svcQcfg_PART)).radio)
  | .svcQtimeout => outside (v F.svcQtimeout_US) 1 60000000
  | .stvCtl => decide (5 ≤ v F.stvCtl_CMD ∨ 254 ≤ v F.stvCtl_CTX)
  | .stvBist => threeBad w 0 || decide (68 ≤ v F.stvBist_CORE ∨ 68 ≤ v F.stvBist_SPARE)
  | .watchCtl => decide (4 ≤ v F.watchCtl_CMD)
  | .watchCfg => decide (254 ≤ v F.watchCfg_CTX ∨ 9 ≤ v F.watchCfg_STAT ∨ v F.watchCfg_TKIND = 3 ∨ 19 ≤ v F.watchCfg_SEL)
  | .tokCtl => decide (5 ≤ v F.tokCtl_CMD)
  | .shfCtl => outside (v F.shfCtl_MAXWAIT) 1 1000
  | .partCtl => decide (v F.partCtl_CMD = 3)
  | .partWeight => decide (v F.partWeight_WEIGHT = 0)
  | .partRate => decide (122880 < v F.partRate_RATE)
  | .partDirtyBase => decide (v F.partDirtyBase_ADDR % 4096 ≠ 0)
  | .partHost => decide (1536 < v F.partHost_HRATE)
  | .hostBcfg => outside (v F.hostBcfg_SIZE) 4 12 || decide (v F.hostBcfg_CLS = 0 ∨ v F.hostBcfg_CLS = 3)
  | .pairCtl => outside (v F.pairCtl_SLOT_US) 62 1000 || decide (3 ≤ v F.pairCtl_CMD)
  | .domCtl => decide (4 ≤ v F.domCtl_CMD)
  | .fltAbort => decide (v F.fltAbort_TYPE = 0 ∨ v F.fltAbort_TYPE = 7)
  | .fltReset => decide (v F.fltReset_UNIT = 0 ∨ 10 ≤ v F.fltReset_UNIT)
  | .fltWinnow => outside (v F.fltWinnow_BOUND_US) 1 1000000
  | .fltUnit => threeBad w 18 || !unitIndexOk (v F.fltUnit_TYPE) (v F.fltUnit_INDEX)
  | .fltInject => decide (v F.fltInject_KIND = 0)
  | .fltInjarg => outside (v F.fltInjarg_DUR_US) 1 1000000
  | .glnCtl => bit w 0 && bit w 1
  | .glnArg => decide (v F.glnArg_ADDR % 64 ≠ 0)
  | .obsMboxCtl => decide (4 ≤ v F.obsMboxCtl_OP)
  | .otpCtl => decide (992 ≤ v F.otpCtl_WORD ∨ v F.otpCtl_CMD = 3)
  | .fwuCtl => decide (6 ≤ v F.fwuCtl_CMD)
  | .fwuArg => decide (v F.fwuArg_ADDR % 64 ≠ 0)
  | _ => false

/-! ### Writes that are ignored with an error response -/

/-- The partition's two dirty bitmaps lie in one TILLED region of it with PERM bits 0 and 1 set (R346). -/
def State.bitmapsPlaced (s : State) (p : Nat) : Bool :=
  let a := s.fld F.partDirtyBase_ADDR p
  match s.operandRow p false a (2 * s.bitmapSize p) 0 with
  | some row => decide ((s.row row).kind = .tilled) && bit (s.row row).perm 1
  | none => false

/-- Fields of a register other than one change with a write. -/
def State.changesBut (s : State) (x : RegAt) (w : Nat) (f : Fld) : Bool :=
  x.reg.fields.any fun g => decide (g ≠ f ∧ g.acc = .rw) && (wf w g != s.fld g x.i)

/-- A write that the register's rules ignore with an error response: while BUSY, to what is in use, or from a port that
may not write it. -/
def State.barred (s : State) (port : Nat) (x : RegAt) (w : Nat) : Bool :=
  let on := fun (f : Fld) => s.fld f x.i == 1
  match x.reg with
  | .ownClaim | .ownClaimdata => s.fld F.ownClaim_BUSY 0 port == 1
  | .ownHandover => bit w 3 && wf w F.ownHandover_SUCCESSOR == s.ownerPort
  | .laneBist => s.fld F.laneBist_RESULT x.i == 1
  | .portBist => s.fld F.portBist_RESULT x.i == 1
  | .stvBist => s.fld F.stvBist_RESULT == 1
  | .fltUnit => s.fld F.fltUnit_RESULT == 1
  | .fabGrant => on F.fabGrant_BUSY
  | .fabActrSel | .fabActrVal => s.fld F.fabActrSel_BUSY == 1
  | .keySel | .keyCmd | .keyCell => s.fld F.keyCmd_BUSY == 1
  | .rgnSel | .rgnDesc0 | .rgnDesc1 | .rgnDesc4 | .rgnDesc5 | .rgnDesc6 => s.fld F.rgnSel_BUSY == 1
  | .hrwCtl => on F.hrwCtl_BUSY
  | .svcQcfg =>
    let en := bit w 0
    (on F.svcQcfg_ENABLE && s.changesBut x w F.svcQcfg_ENABLE) ||
      (en && !on F.svcQcfg_ENABLE &&
        (decide ((s.queue x.i).state = .draining) || s.radioBars (wf w F.svcQcfg_PART) (wf w F.svcQcfg_ATT)))
  | .hostBcfg =>
    let en := bit w 0
    (on F.hostBcfg_ENABLE && s.changesBut x w F.hostBcfg_ENABLE) ||
      (en && !on F.hostBcfg_ENABLE &&
        (decide ((s.chan x.i).state = .draining) || s.radioBars (wf w F.hostBcfg_PART) (wf w F.hostBcfg_ATT + 1)))
  | .hostBring => s.fld F.hostBcfg_ENABLE x.i == 1 && wf w F.hostBring_BASE != s.fld F.hostBring_BASE x.i
  | .stvCtl | .stvArg => s.fld F.stvCtl_BUSY == 1
  | .watchCtl | .watchCfg | .watchThresh => s.fld F.watchCtl_BUSY == 1
  | .tokCtl | .tokArg | .tokId0 | .tokId1 => s.fld F.tokCtl_BUSY == 1
  | .partCtl =>
    (on F.partCtl_BUSY && wf w F.partCtl_CMD != 0) || (bit w 1 && !on F.partCtl_MIGRATE && !s.bitmapsPlaced x.i)
  | .partDirtyBase | .partHwinBase | .partHwinSize => s.fld F.partCtl_MIGRATE x.i == 1
  | .hostMboxCtl => !(port == 1 || port == 2) || on F.hostMboxCtl_GO ||
      (bit w 11 && outside (wf w F.hostMboxCtl_LEN) 1 1024)
  | .hostMboxData => !(port == 1 || port == 2) || s.fld F.hostMboxCtl_GO x.i == 1
  | .pairCtl => on F.pairCtl_BUSY
  | .domCtl => on F.domCtl_BUSY
  | .fltAbort => on F.fltAbort_BUSY
  | .fltReset => on F.fltReset_BUSY
  | .fltHedge => on F.fltHedge_BUSY
  | .fltInject | .fltInjarg => s.fld F.fltInject_BUSY == 1
  | .glnCtl | .glnArg => s.fld F.glnCtl_BUSY == 1
  | .obsMboxCtl | .obsMbox => s.fld F.obsMboxCtl_BUSY 0 port == 1
  | .otpCtl | .otpData => s.fld F.otpCtl_BUSY == 1
  | .lcCtl | .lcMbox => s.fld F.lcCtl_BUSY == 1
  | .fwuCtl | .fwuArg => s.fld F.fwuCtl_BUSY == 1
  | _ => false

/-! ### Writes that start commands -/

/-- What a command reads from memory when only its register write is given: a free value. -/
def State.readFree (s : State) : ReadOut × State :=
  (⟨bit (s.freeVal 1).toNat 0, Config.freeBytes s.frees⟩, s.freed)

/-- An outcome of a self-test, or another number, that only its register write does not give: a free value. -/
def State.natFree (s : State) (w : Nat) : Nat × State := ((s.freeVal w).toNat, s.freed)

/-- A truth value that a register write does not give: a free value. -/
def State.boolFree (s : State) : Bool × State := (bit (s.freeVal 1).toNat 0, s.freed)

/-- The next state of a command that always has one. -/
def nextOf (s : State) : Res → State
  | .next t => t
  | _ => s

/-- Runs the commands that one write starts, in order, and answers once: with an error when one of them did. -/
def State.together (s : State) (port : Nat) (fs : List (State → Res)) : State :=
  let isRsp := fun (o : Out) => match o with | .regRsp _ _ _ => true | _ => false
  let bad := fun (o : Out) => match o with | .regRsp _ _ e => e | _ => false
  let (t, err) := fs.foldl (fun (p : State × Bool) f =>
    let u := nextOf p.1 (f p.1)
    let new := u.out.take (u.out.length - p.1.out.length)
    ({ u with out := new.filter (fun o => !isRsp o) ++ p.1.out }, p.2 || new.any bad)) (s, false)
  t.regRsp port 0 err

/-- The commands of the memory side: regions, harrow, keys, lanes and ports. -/
def State.memoryCommand (s : State) (port : Nat) (x : RegAt) (w : Nat) : Option State :=
  let o : Origin := .reg port
  let slot := BitVec.ofNat 16 (s.fld F.keySel_SLOT)
  let row := BitVec.ofNat 14 (wf w F.rgnSel_INDEX)
  let job := BitVec.ofNat 4 (wf w F.hrwCtl_JOB)
  match x.reg with
  | .keyCmd =>
    match wf w F.keyCmd_CMD with
    | 1 => some (nextOf s (execKeyRead port slot s))
    | 2 => some (nextOf s (execKeyAlloc o slot s))
    | 3 => some (nextOf s (execKeyRef o slot s))
    | 4 => some (nextOf s (execKeyUnref o slot s))
    | 5 => some (nextOf s (execKeySucc port slot s))
    | 6 => some (nextOf s (execSetLimit port slot s))
    | _ => none
  | .rgnSel =>
    let (r, t) := s.readFree
    match wf w F.rgnSel_CMD with
    | 1 => some (nextOf s (execRgnRead port row s))
    | 2 => some (nextOf s (execRgnCreate o row r t))
    | 3 => some (nextOf s (execRgnDestroy o row r t))
    | 4 => some (nextOf s (execRgnSeal o row r t))
    | 5 => some (nextOf s (execRgnReset o row r t))
    | 6 => some (nextOf s (execRgnAdvance o row r t))
    | _ => none
  | .hrwCtl =>
    match wf w F.hrwCtl_CMD with
    | 1 => some (nextOf s (execHrwStart port job s))
    | 2 => some (nextOf s (execHrwSuspend port job s))
    | 3 => some (nextOf s (execHrwResume port job s))
    | 4 => some (nextOf s (execHrwRetire port job s))
    | _ => none
  | .laneBist =>
    let (n, t) := s.natFree 3
    if bit w 0 then some (nextOf s (execLaneBistStart port x.i n t))
    else if bit w 1 then some (nextOf s (execLaneSwap port x.i (BitVec.ofNat 6 (wf w F.laneBist_SPARE)) n t))
    else if bit w 2 then some (nextOf s (execLaneReturn port x.i s)) else none
  | .portBist =>
    let (n, t) := s.natFree 3
    if bit w 0 then some (nextOf s (execPortBistStart port x.i n t))
    else if bit w 1 then some (nextOf s (execPortSwap port x.i (BitVec.ofNat 6 (wf w F.portBist_SPARE)) n t))
    else if bit w 2 then some (nextOf s (execPortReturn port x.i s)) else none
  | .fabGrant =>
    match wf w F.fabGrant_CMD with
    | 1 => some (nextOf s (execFabGrant o s))
    | 2 => some (nextOf s (execFabRevoke o s))
    | _ => none
  | .fabActrSel =>
    let c := BitVec.ofNat 12 (wf w F.fabActrSel_INDEX)
    match wf w F.fabActrSel_CMD with
    | 1 => some (nextOf s (execActrRead o c s))
    | 2 => some (nextOf s (execActrConfig o c s))
    | 3 => some (nextOf s (execActrRelease o c s))
    | _ => none
  | _ => none

/-- The commands of the digest engines, of the domain agent and of the pair. -/
def State.digestCommand (s : State) (port : Nat) (x : RegAt) (w : Nat) : Option State :=
  let o : Origin := .reg port
  let ctx := BitVec.ofNat 8 (wf w F.stvCtl_CTX)
  let wt := BitVec.ofNat 6 (wf w F.watchCtl_WATCH)
  let tk := BitVec.ofNat 13 (wf w F.tokCtl_SESSION)
  match x.reg with
  | .stvCtl =>
    match wf w F.stvCtl_CMD with
    | 1 =>
      let (r, t) := s.readFree
      some (nextOf s (execStvOpen o ctx r t))
    | 2 => some (nextOf s (execStvClose o ctx s))
    | 3 => some (nextOf s (execStvRead o ctx s))
    | 4 => some (nextOf s (execStvFree o ctx s))
    | _ => none
  | .stvBist =>
    let core := BitVec.ofNat 7 (wf w F.stvBist_CORE)
    let (n, t) := s.natFree 2
    if bit w 0 then some (nextOf s (execStvBistStart port core n t))
    else if bit w 1 then some (nextOf s (execStvBistSwap port core (BitVec.ofNat 7 (wf w F.stvBist_SPARE)) n t))
    else if bit w 2 then some (nextOf s (execStvBistReturn port core s)) else none
  | .watchCtl =>
    match wf w F.watchCtl_CMD with
    | 1 => some (nextOf s (execWatchArm o wt s))
    | 2 => some (nextOf s (execWatchRead o wt s))
    | 3 => some (nextOf s (execWatchDisarm o wt s))
    | _ => none
  | .tokCtl =>
    match wf w F.tokCtl_CMD with
    | 1 => some (nextOf s (execTokOpen o tk s))
    | 2 => some (nextOf s (execTokClose o tk s))
    | 3 => some (nextOf s (execTokRead o tk s))
    | 4 => some (nextOf s (execTokFree o tk s))
    | _ => none
  | .shfCtl => if bit w 0 then some (nextOf s (execFlush port s)) else none
  | .pairCtl =>
    let i := BitVec.ofNat 8 (wf w F.pairCtl_CELL)
    match wf w F.pairCtl_CMD with
    | 1 => some (nextOf s (execCellRead port i s))
    | 2 => some (nextOf s (execCellHandover port i s))
    | _ => none
  | .domCtl =>
    match wf w F.domCtl_CMD with
    | 1 => some (nextOf s (execDomJoin port s))
    | 2 => some (nextOf s (execDomLeave port s))
    | 3 => some (nextOf s (execDomAdvance port s))
    | _ => none
  | .domMboxCtl =>
    if bit w 14 then some (nextOf s (execBallotPost port (BitVec.ofNat 14 (wf w F.domMboxCtl_LEN)) s)) else none
  | _ => none

/-- The commands of the queues, the host interface and the partitions. -/
def State.hostCommand (s : State) (port : Nat) (x : RegAt) (w : Nat) : Option State :=
  let p := BitVec.ofNat 6 x.i
  match x.reg with
  | .svcQdoorbell => some (nextOf s (execSqDoorbell port x.i (BitVec.ofNat 64 w) s))
  | .hostBdoorbell => some (nextOf s (execBounceDoorbell port x.i (BitVec.ofNat 64 w) s))
  | .hostMboxCtl =>
    if bit w 11 then some (nextOf s (execHostMboxGo port x.i (BitVec.ofNat 11 (wf w F.hostMboxCtl_LEN)) s)) else none
  | .partCtl =>
    let a := if bit w 2 then [execFlip port p] else []
    let b := match wf w F.partCtl_CMD with
      | 1 => [execResetDrain port p]
      | 2 => [execResetSquash port p]
      | _ => []
    match a ++ b with
    | [] => none
    | l => some (s.together port l)
  | _ => none

/-- The commands of the owner's windows: ownership, configuration, OTP, life cycle and firmware. -/
def State.ownCommand (s : State) (port : Nat) (x : RegAt) (w : Nat) : Option State :=
  match x.reg with
  | .ownClaim => if bit w 0 then some (nextOf s (execOwnClaimPost port s)) else none
  | .ownHandover =>
    if bit w 3 then some (nextOf s (execHandoverGo port (BitVec.ofNat 3 (wf w F.ownHandover_SUCCESSOR)) s))
    else if bit w 4 then some (nextOf s (execHandoverCancel port s)) else none
  | .cfgLoad =>
    let (r, t) := s.readFree
    if bit w 0 then some (nextOf s (execCfgLoad port r t))
    else if bit w 1 then some (nextOf s (execCfgDiscard port s)) else none
  | .cfgSwap => if bit w 0 then some (nextOf s (execCfgSwap port (bit w 1) s)) else none
  | .otpCtl =>
    let word := BitVec.ofNat 10 (wf w F.otpCtl_WORD)
    match wf w F.otpCtl_CMD with
    | 1 => some (nextOf s (execOtpRead port word s))
    | 2 =>
      let (a, t) := s.boolFree
      let (b, t) := t.boolFree
      some (nextOf s (execOtpProgram (.reg port) word a b t))
    | _ => none
  | .lcCtl =>
    if bit w 0 then
      let (a, t) := s.boolFree
      some (nextOf s (execLcPost port a t))
    else none
  | .fwuCtl =>
    let (r, t) := s.readFree
    let (a, t) := t.boolFree
    let (b, t) := t.boolFree
    match wf w F.fwuCtl_CMD with
    | 1 => some (nextOf s (execFwuStage port r a t))
    | 2 => some (nextOf s (execFwuStart port s))
    | 3 => some (nextOf s (execFwuCancel port s))
    | 4 => some (nextOf s (execFwuAbandon port s))
    | 5 => some (nextOf s (execCert port r a b t))
    | _ => none
  | _ => none

/-- A request of an observation mailbox (R439, R440): its form beside what the rows check. -/
def State.obsRequest (s : State) (port op len : Nat) : State :=
  let b := s.boxBytes .obsMbox len port
  match op with
  | 1 =>
    if len ≠ 8 ∨ zeroAt b 6 2 = false then s.obsEnd port 2 []
    else nextOf s (execTraceRead port (BitVec.ofNat 32 (le b 0 4)) (BitVec.ofNat 16 (le b 4 2)) s)
  | 2 =>
    if len ≠ 8 ∨ zeroAt b 2 6 = false then s.obsEnd port 2 []
    else nextOf s (execObsChallenge port (BitVec.ofNat 16 (le b 0 2)) s)
  | 3 => nextOf s (execObsResponse port b s)
  | _ => s.obsEnd port 2 []

/-- The commands of the fault logic and of observation. -/
def State.faultCommand (s : State) (port : Nat) (x : RegAt) (w : Nat) : Option State :=
  let go := fun (l : List (Bool × (State → Res))) =>
    match (l.filter (·.1)).map (·.2) with
    | [] => none
    | fs => some (s.together port fs)
  match x.reg with
  | .fltCtl => go [(bit w 0, execWarmReq port), (bit w 1, execPwrReq port), (bit w 2, execPwrStop port)]
  | .fltAbort =>
    if bit w 16 then
      let (d, t) := s.boolFree
      some (nextOf s (execFltAbort port (BitVec.ofNat 3 (wf w F.fltAbort_TYPE)) (BitVec.ofNat 13 (wf w F.fltAbort_INDEX)) d t))
    else none
  | .fltReset =>
    if bit w 10 then
      let (d, t) := s.boolFree
      let (n, t) := t.natFree 3
      some (nextOf s (execFltReset port (BitVec.ofNat 4 (wf w F.fltReset_UNIT)) (BitVec.ofNat 6 (wf w F.fltReset_INDEX)) d n t))
    else none
  | .fltHedge =>
    let p := BitVec.ofNat 6 (wf w F.fltHedge_PART)
    match wf w F.fltHedge_CMD with
    | 1 => some (nextOf s (execHedge port p s))
    | 2 => some (nextOf s (execUnhedge port p s))
    | 3 => some (nextOf s (execWinnow port p s))
    | _ => none
  | .fltUnit =>
    let ty := BitVec.ofNat 3 (wf w F.fltUnit_TYPE)
    let i := BitVec.ofNat 15 (wf w F.fltUnit_INDEX)
    let (n, t) := s.natFree 3
    if bit w 18 then some (nextOf s (execUnitBistStart port ty i n t))
    else if bit w 19 then some (nextOf s (execUnitSwap port ty i (BitVec.ofNat 15 (wf w F.fltUnit_SPARE)) n t))
    else if bit w 20 then some (nextOf s (execUnitReturn port ty i s)) else none
  | .fltInject =>
    if bit w 3 then
      some (nextOf s (execInject port (BitVec.ofNat 2 (wf w F.fltInject_KIND)) (bit w 2) (BitVec.ofNat 8 (wf w F.fltInject_TARGET)) s))
    else none
  | .glnCtl => go [(bit w 0, execFreeze port), (bit w 1, execUnfreeze port), (bit w 3, execPeerCopy port)]
  | .obsMboxCtl =>
    if bit w 3 then some (s.obsRequest port (wf w F.obsMboxCtl_OP) (wf w F.obsMboxCtl_LEN)) else none
  | _ => none

/-- The state after the command that a write starts, if it starts one. -/
def State.commandOf (s : State) (port : Nat) (x : RegAt) (w : Nat) : Option State :=
  match s.memoryCommand port x w with
  | some t => some t
  | none => match s.digestCommand port x w with
    | some t => some t
    | none => match s.hostCommand port x w with
      | some t => some t
      | none => match s.ownCommand port x w with
        | some t => some t
        | none => s.faultCommand port x w

/-! ### Writes -/

/-- The fields that a write stores before its command runs: a doorbell, a claim's POST and an ANY trigger are the
command's own. -/
def Reg.ownStore : Reg → Bool
  | .svcQdoorbell | .hostBdoorbell | .ownClaim | .svcQcfg | .hostBcfg | .ownHandover => true
  | _ => false

/-- Stores a write's fields, except triggers that their commands answer. -/
def State.storeWrite (s : State) (port : Nat) (x : RegAt) (w : Nat) : State :=
  match x.reg with
  | .hostMboxCtl => s.setFld F.hostMboxCtl_LEN (wf w F.hostMboxCtl_LEN) x.i
  | .domMboxCtl => s.setFld F.domMboxCtl_LEN (wf w F.domMboxCtl_LEN)
  | .obsMboxCtl =>
    (s.setFld F.obsMboxCtl_OP (wf w F.obsMboxCtl_OP) 0 port).setFld F.obsMboxCtl_LEN (wf w F.obsMboxCtl_LEN) 0 port
  | .lcCtl => s
  | .partCtl =>
    let was := s.fld F.partCtl_MIGRATE x.i
    let s := s.storeFlds port x w
    if was = 0 ∧ s.fld F.partCtl_MIGRATE x.i = 1 then s.setPart x.i { s.part x.i with logged := [] } else s
  | .partRate =>
    let was := s.fld F.partRate_RATE x.i
    let s := s.storeFlds port x w
    if was = 0 ∧ s.fld F.partRate_RATE x.i ≠ 0 then s.fullBuckets x.i else s
  | _ => if x.reg.ownStore then s else s.storeFlds port x w

/-- A write of LZ_SVC_QCFG (R307, R326, R332): a changed HKIDX ends the binding of a disabled queue; ENABLE enables or
disables it. -/
def State.writeQcfg (s : State) (port : Nat) (x : RegAt) (w : Nat) : State :=
  let q := x.i
  let was := s.fld F.svcQcfg_ENABLE q == 1
  let old := s.fld F.svcQcfg_HKIDX q
  if was then
    if bit w 0 then s.regRsp port 0 false else nextOf s (execQueueDisable port q s)
  else
    let t := (s.storeFlds port x w).setFld F.svcQcfg_ENABLE 0 q
    let t := if old ≠ wf w F.svcQcfg_HKIDX ∧ old ≠ 0 then t.unbind false q else t
    if bit w 0 then
      if t.queueRefused q then (s.incFld F.hostErr_BIND_REFUSED).regRsp port 0 true else nextOf t (execQueueEnable port q t)
    else t.regRsp port 0 false

/-- A write of LZ_HOST_BCFG (R332, R342, R349). -/
def State.writeBcfg (s : State) (port : Nat) (x : RegAt) (w : Nat) : State :=
  let c := x.i
  let was := s.fld F.hostBcfg_ENABLE c == 1
  let old := s.fld F.hostBcfg_HKIDX c
  if was then
    if bit w 0 then s.regRsp port 0 false else ((s.setFld F.hostBcfg_ENABLE 0 c).disableChan c).regRsp port 0 false
  else
    let t := (s.storeFlds port x w).setFld F.hostBcfg_ENABLE 0 c
    let t := if old ≠ wf w F.hostBcfg_HKIDX ∧ old ≠ 0 then t.unbind true c else t
    if bit w 0 then
      if t.chanRefused c then (s.incFld F.hostErr_BIND_REFUSED).regRsp port 0 true
      else (t.enableChan c).regRsp port 0 false
    else t.regRsp port 0 false

/-- What an accepted write of a register does, with its response. -/
def State.acceptWrite (s : State) (port : Nat) (x : RegAt) (w : Nat) : State :=
  match x.reg with
  | .svcQcfg => s.writeQcfg port x w
  | .hostBcfg => s.writeBcfg port x w
  | .ownHandover =>
    match s.commandOf port x w with
    | some t => if bit w 3 then t else t.setFld F.ownHandover_SUCCESSOR (wf w F.ownHandover_SUCCESSOR)
    | none => (s.setFld F.ownHandover_SUCCESSOR (wf w F.ownHandover_SUCCESSOR)).regRsp port 0 false
  | _ =>
    let t := s.storeWrite port x w
    match t.commandOf port x w with
    | some u => u
    | none => t.regRsp port 0 false

/-- A write on an attach port (R11, R12, R14, R16, R448, R468). -/
def State.writeReg (s : State) (port : Nat) (a : RegAccess) : State :=
  if !s.regsOpen then s
  else if a.off % 8 ≠ 0 then (s.incFld F.gstat_BAD_ACCESS).regRsp port 0 true
  else
    match regAt? a.off with
    | none => (s.incFld F.gstat_UNMAPPED).regRsp port 0 true
    | some x =>
      let w := s.writeWord port x a
      if !(x.reg.fields.any fun f => decide (f.acc = .any)) && port != s.ownerPort then
        (s.incFld F.gstat_NONOWNER).regRsp port 0 true
      else if !(x.reg.fields.any fun f => f.acc.writable && acts a f) then s.winErr port x
      else if s.reserved x w then s.winErr port x
      else if s.barred port x w then s.winErr port x
      else s.acceptWrite port x w

/-- An access on an attach port. -/
def State.access (s : State) (port : Nat) (a : RegAccess) : State := if a.write then s.writeReg port a else s.readReg port a

/-! ### The rows -/

/-- RC_REGISTER_READ (R13): a read on an attach port; the owner's clears RC fields. -/
def execRcRegisterRead (port : Nat) (a : RegAccess) (s : State) : Res :=
  if 6 ≤ port ∨ a.write then .next s else .next (s.readReg port a)

/-- REGISTER_WRITE (R468): a write on an attach port. -/
def execRegisterWrite (port : Nat) (a : RegAccess) (s : State) : Res :=
  if 6 ≤ port ∨ a.write = false then .next s else .next (s.writeReg port a)

/-- HOST_REGISTER_ACCESS (R65, R68, R447): attachment 0 is attach port 1, attachment 1 is attach port 2. -/
def execHostRegisterAccess (att : Nat) (a : RegAccess) (s : State) : Res :=
  if 2 ≤ att then .next s else .next (s.access (att + 1) a)

/-- PEER_REGISTER_REQUEST (R361): the partner is attach port 4, and the unit that holds the seat under the current domain
epoch attach port 5; a request under epoch 0 is dropped (R279). -/
def execPeerRegisterRequest (port : Nat) (src : BitVec 16) (epoch0 : Bool) (a : RegAccess) (s : State) : Res :=
  let partner : Bool := match s.pairPlot with | some p => p.partner == src.toNat | none => false
  let seat : Bool := match s.dom.ballot with | some b => b.unit == src.toNat && src.toNat != s.unit | none => false
  if epoch0 ∨ s.dom.cur.isNone then .next s
  else if port = 4 ∧ partner then .next (s.access 4 a)
  else if port = 5 ∧ seat then .next (s.access 5 a)
  else .next s

/-- MCTP_MESSAGE (R69): a register access on attach port 3, an SPDM message to the responder (path 65), or a forwarded
CLAIM record; before the end of CALIBRATE none is answered (R450). -/
def execMctpMessage (m : Mctp) (s : State) : Res :=
  match m with
  | .reg a => .next (s.access 3 a)
  | .spdm msg =>
    if !s.regsOpen then .next s
    else
      let (b, t) := s.spdm 65 msg
      .next (t.emit (.mctp b))
  | .claim rec => if !s.regsOpen then .next s else .next (s.takeClaim rec)

end Sys2Proof.Machine
end

