-- ==== Sys2Proof/Machine/Swap.lean ====
section
/-! DEFINITION. The effect of a configuration swap (R369, R370) and the commands that waited for it. -/

namespace Sys2Proof.Machine

/-- The meaning of a command that waits while a swap is prepared (R369): region, key, harrow, Stavub and arrival-counter
commands, and DISCARD. -/
def waitingMeaning : Instr → Option (State → Res)
  | .rgnRead port row => some (execRgnRead port row)
  | .rgnCreate o row r => some (execRgnCreate o row r)
  | .rgnDestroy o row r => some (execRgnDestroy o row r)
  | .rgnSeal o row r => some (execRgnSeal o row r)
  | .rgnReset o row r => some (execRgnReset o row r)
  | .rgnAdvance o row r => some (execRgnAdvance o row r)
  | .rgnRef q k => some (execRgnRef q k)
  | .rgnUnref q k => some (execRgnUnref q k)
  | .keyAlloc o slot => some (execKeyAlloc o slot)
  | .keyRef o slot => some (execKeyRef o slot)
  | .keyUnref o slot => some (execKeyUnref o slot)
  | .keyRead port slot => some (execKeyRead port slot)
  | .keySucc port slot => some (execKeySucc port slot)
  | .setLimit port slot => some (execSetLimit port slot)
  | .hrwStart port job => some (execHrwStart port job)
  | .hrwSuspend port job => some (execHrwSuspend port job)
  | .hrwResume port job => some (execHrwResume port job)
  | .hrwRetire port job => some (execHrwRetire port job)
  | .stvOpen o ctx r => some (execStvOpen o ctx r)
  | .stvClose o ctx => some (execStvClose o ctx)
  | .stvRead o ctx => some (execStvRead o ctx)
  | .stvFree o ctx => some (execStvFree o ctx)
  | .actrRead o c => some (execActrRead o c)
  | .actrConfig o c => some (execActrConfig o c)
  | .actrRelease o c => some (execActrRelease o c)
  | .cfgDiscard port => some (execCfgDiscard port)
  | _ => none

/-- The commands that waited are taken in arrival order under the set in force (R369). -/
def State.takeWaiting (s : State) : State :=
  let is := s.cfg.waiting
  let s := { s with cfg := { s.cfg with waiting := [], resuming := true } }
  let s := is.foldl (fun s i => match waitingMeaning i with
    | some f => nextOf s (f s)
    | none => s) s
  { s with cfg := { s.cfg with resuming := false } }

/-- SWAP_EFFECT (R369, R370): at the quiescent point the checks are repeated, and the new set takes effect or the swap is
refused; the commands that waited are then taken. -/
def execSwapEffect (s : State) : Res :=
  match s.cfg.swapping, s.cfg.image with
  | true, some x =>
    match s.swapRefusal x with
    | some code => .next (s.swapRefuse code).takeWaiting
    | none => if s.kidxConflict x then .next (s.swapRefuse 6).takeWaiting else .next (s.swapIn x).takeWaiting
  | _, _ => .next s

end Sys2Proof.Machine
end

