-- ==== Sys2Proof/Machine/Dispatch.lean ====
section
/-! DEFINITION. The dispatch of commands: one arm for each row of the table of operations and events. -/

namespace Sys2Proof.Machine

/-- What a command does to everything but the queue. -/
def exec (i : Instr) (s : State) : Host.Outcome State Fault Refusal :=
  match i with
  | .memoryRequest g r => Sys2Proof.Machine.execMemoryRequest g r s
  | .spanPartTimeout g tid => Sys2Proof.Machine.execSpanPartTimeout g tid s
  | .laneGrant n cycles => Sys2Proof.Machine.execLaneGrant n cycles s
  | .throttleWindow => Sys2Proof.Machine.execThrottleWindow s
  | .dmcReadData g tag b => Sys2Proof.Machine.execDmcReadData g tag b s
  | .metadataLineArrival g tag line sb err => Sys2Proof.Machine.execMetadataLineArrival g tag line sb err s
  | .tagVerdict g tag => Sys2Proof.Machine.execTagVerdict g tag s
  | .readRelease g => Sys2Proof.Machine.execReadRelease g s
  | .rereadVerdict g tag => Sys2Proof.Machine.execRereadVerdict g tag s
  | .stileRelease h => Sys2Proof.Machine.execStileRelease h s
  | .dmcAccessAccept g => Sys2Proof.Machine.execDmcAccessAccept g s
  | .creditRequest n slot => Sys2Proof.Machine.execCreditRequest n slot s
  | .creditDecision => Sys2Proof.Machine.execCreditDecision s
  | .nosuccRetry => Sys2Proof.Machine.execNosuccRetry s
  | .autoStartRetry => Sys2Proof.Machine.execAutoStartRetry s
  | .pageUnlock n page => Sys2Proof.Machine.execPageUnlock n page s
  | .counterEvict level idx => Sys2Proof.Machine.execCounterEvict level idx s
  | .nodeRetag r => Sys2Proof.Machine.execNodeRetag r s
  | .fabricRequest idx r => Sys2Proof.Machine.execFabricRequest idx r s
  | .frameClose flow dest => Sys2Proof.Machine.execFrameClose flow dest s
  | .frameReceive port f bad => Sys2Proof.Machine.execFrameReceive port f bad s
  | .flagStoreEffect w old => Sys2Proof.Machine.execFlagStoreEffect w old s
  | .breakReceive src flow q => Sys2Proof.Machine.execBreakReceive src flow q s
  | .creditMessage flow => Sys2Proof.Machine.execCreditMessage flow s
  | .responseTimeout mtag => Sys2Proof.Machine.execResponseTimeout mtag s
  | .flowIdleRelease flow dest => Sys2Proof.Machine.execFlowIdleRelease flow dest s
  | .flowRekey flow dest => Sys2Proof.Machine.execFlowRekey flow dest s
  | .copyLocalRead h r => Sys2Proof.Machine.execCopyLocalRead h r s
  | .linkDown att => Sys2Proof.Machine.execLinkDown att s
  | .linkUp att => Sys2Proof.Machine.execLinkUp att s
  | .stepCommit step => Sys2Proof.Machine.execStepCommit step s
  | .stileEvent step => Sys2Proof.Machine.execStileEvent step s
  | .stepDone step => Sys2Proof.Machine.execStepDone step s
  | .mirrorTimeout step => Sys2Proof.Machine.execMirrorTimeout step s
  | .accHalt p => Sys2Proof.Machine.execAccHalt p s
  | .accResume p => Sys2Proof.Machine.execAccResume p s
  | .haltAck p => Sys2Proof.Machine.execHaltAck p s
  | .drainAck p => Sys2Proof.Machine.execDrainAck p s
  | .drainAckFall p => Sys2Proof.Machine.execDrainAckFall p s
  | .drainOverrun p => Sys2Proof.Machine.execDrainOverrun p s
  | .scrubRequest p => Sys2Proof.Machine.execScrubRequest p s
  | .scrubDone p status => Sys2Proof.Machine.execScrubDone p status s
  | .scrubOverrun p => Sys2Proof.Machine.execScrubOverrun p s
  | .rdomFence d => Sys2Proof.Machine.execRdomFence d s
  | .rdomFenced d => Sys2Proof.Machine.execRdomFenced d s
  | .rdomUnfence d => Sys2Proof.Machine.execRdomUnfence d s
  | .fenceOverrun d => Sys2Proof.Machine.execFenceOverrun d s
  | .chunkDescriptor d => Sys2Proof.Machine.execChunkDescriptor d s
  | .scanRead seg r => Sys2Proof.Machine.execScanRead seg r s
  | .straddleFetch seg => Sys2Proof.Machine.execStraddleFetch seg s
  | .straddleFetchDone seg r => Sys2Proof.Machine.execStraddleFetchDone seg r s
  | .straddleFetchTimeout seg => Sys2Proof.Machine.execStraddleFetchTimeout seg s
  | .chunkDispatch core => Sys2Proof.Machine.execChunkDispatch core s
  | .chunkHashed core => Sys2Proof.Machine.execChunkHashed core s
  | .stvOpen o ctx r => Sys2Proof.Machine.execStvOpen o ctx r s
  | .stvClose o ctx => Sys2Proof.Machine.execStvClose o ctx s
  | .contextFinish ctx => Sys2Proof.Machine.execContextFinish ctx s
  | .stvRead o ctx => Sys2Proof.Machine.execStvRead o ctx s
  | .stvFree o ctx => Sys2Proof.Machine.execStvFree o ctx s
  | .partialRecord rec => Sys2Proof.Machine.execPartialRecord rec s
  | .finalRecord rec => Sys2Proof.Machine.execFinalRecord rec s
  | .gatherTimeout ctx => Sys2Proof.Machine.execGatherTimeout ctx s
  | .stvBistStart port core out => Sys2Proof.Machine.execStvBistStart port core out s
  | .stvBistSwap port core spare out => Sys2Proof.Machine.execStvBistSwap port core spare out s
  | .stvBistReturn port core => Sys2Proof.Machine.execStvBistReturn port core s
  | .watchArm o w => Sys2Proof.Machine.execWatchArm o w s
  | .watchRead o w => Sys2Proof.Machine.execWatchRead o w s
  | .watchDisarm o w => Sys2Proof.Machine.execWatchDisarm o w s
  | .tokOpen o t => Sys2Proof.Machine.execTokOpen o t s
  | .tokClose o t => Sys2Proof.Machine.execTokClose o t s
  | .tokRead o t => Sys2Proof.Machine.execTokRead o t s
  | .tokFree o t => Sys2Proof.Machine.execTokFree o t s
  | .tokenRecordChained t r => Sys2Proof.Machine.execTokenRecordChained t r s
  | .sheaf q k r => Sys2Proof.Machine.execSheaf q k r s
  | .sheafAppend q k => Sys2Proof.Machine.execSheafAppend q k s
  | .stookClose => Sys2Proof.Machine.execStookClose s
  | .flush port => Sys2Proof.Machine.execFlush port s
  | .maxwaitExpiry => Sys2Proof.Machine.execMaxwaitExpiry s
  | .stookSigned => Sys2Proof.Machine.execStookSigned s
  | .rgnRead port row => Sys2Proof.Machine.execRgnRead port row s
  | .rgnCreate o row r => Sys2Proof.Machine.execRgnCreate o row r s
  | .rgnDestroy o row r => Sys2Proof.Machine.execRgnDestroy o row r s
  | .regionFree row => Sys2Proof.Machine.execRegionFree row s
  | .rgnSeal o row r => Sys2Proof.Machine.execRgnSeal o row r s
  | .sealComplete row manifest chunks => Sys2Proof.Machine.execSealComplete row manifest chunks s
  | .sealGatherTimeout row => Sys2Proof.Machine.execSealGatherTimeout row s
  | .rgnReset o row r => Sys2Proof.Machine.execRgnReset o row r s
  | .rgnAdvance o row r => Sys2Proof.Machine.execRgnAdvance o row r s
  | .advanceComplete row => Sys2Proof.Machine.execAdvanceComplete row s
  | .rgnRef q k => Sys2Proof.Machine.execRgnRef q k s
  | .rgnUnref q k => Sys2Proof.Machine.execRgnUnref q k s
  | .hrwStart port job => Sys2Proof.Machine.execHrwStart port job s
  | .hrwSuspend port job => Sys2Proof.Machine.execHrwSuspend port job s
  | .hrwResume port job => Sys2Proof.Machine.execHrwResume port job s
  | .hrwRetire port job => Sys2Proof.Machine.execHrwRetire port job s
  | .jobRun => Sys2Proof.Machine.execJobRun s
  | .harrowPageClose job page => Sys2Proof.Machine.execHarrowPageClose job page s
  | .harrowPageOpen job page lines => Sys2Proof.Machine.execHarrowPageOpen job page lines s
  | .harrowMoveAbandon job page lines => Sys2Proof.Machine.execHarrowMoveAbandon job page lines s
  | .turnover job => Sys2Proof.Machine.execTurnover job s
  | .headlandMark job => Sys2Proof.Machine.execHeadlandMark job s
  | .keyRead port slot => Sys2Proof.Machine.execKeyRead port slot s
  | .keyAlloc o slot => Sys2Proof.Machine.execKeyAlloc o slot s
  | .keyRef o slot => Sys2Proof.Machine.execKeyRef o slot s
  | .keyUnref o slot => Sys2Proof.Machine.execKeyUnref o slot s
  | .keySucc port slot => Sys2Proof.Machine.execKeySucc port slot s
  | .setLimit port slot => Sys2Proof.Machine.execSetLimit port slot s
  | .slotTeardown slot => Sys2Proof.Machine.execSlotTeardown slot s
  | .ledgerRewrap => Sys2Proof.Machine.execLedgerRewrap s
  | .keyRowCheckFail row spare => Sys2Proof.Machine.execKeyRowCheckFail row spare s
  | .esHealthFail raw => Sys2Proof.Machine.execEsHealthFail raw s
  | .drbgReseed => Sys2Proof.Machine.execDrbgReseed s
  | .laneBistStart port n out => Sys2Proof.Machine.execLaneBistStart port n out s
  | .laneSwap port n spare out => Sys2Proof.Machine.execLaneSwap port n spare out s
  | .laneReturn port n => Sys2Proof.Machine.execLaneReturn port n s
  | .switchover unit n => Sys2Proof.Machine.execSwitchover unit n s
  | .portBistStart port n out => Sys2Proof.Machine.execPortBistStart port n out s
  | .portSwap port n spare out => Sys2Proof.Machine.execPortSwap port n spare out s
  | .portReturn port n => Sys2Proof.Machine.execPortReturn port n s
  | .fabGrant o => Sys2Proof.Machine.execFabGrant o s
  | .fabRevoke o => Sys2Proof.Machine.execFabRevoke o s
  | .grantUnreachable => Sys2Proof.Machine.execGrantUnreachable s
  | .actrRead o c => Sys2Proof.Machine.execActrRead o c s
  | .actrConfig o c => Sys2Proof.Machine.execActrConfig o c s
  | .actrRelease o c => Sys2Proof.Machine.execActrRelease o c s
  | .domJoin port => Sys2Proof.Machine.execDomJoin port s
  | .domLeave port => Sys2Proof.Machine.execDomLeave port s
  | .domAdvance port => Sys2Proof.Machine.execDomAdvance port s
  | .ballotPost port len => Sys2Proof.Machine.execBallotPost port len s
  | .hello src exch body => Sys2Proof.Machine.execHello src exch body s
  | .challenge src exch body => Sys2Proof.Machine.execChallenge src exch body s
  | .evidence src exch body => Sys2Proof.Machine.execEvidence src exch body s
  | .admitCmd src exch status epoch => Sys2Proof.Machine.execAdmit src exch status epoch s
  | .admissionTimeout => Sys2Proof.Machine.execAdmissionTimeout s
  | .prepare src epoch wrap members gens => Sys2Proof.Machine.execPrepare src epoch wrap members gens s
  | .prepared src epoch => Sys2Proof.Machine.execPrepared src epoch s
  | .prepareTimeout => Sys2Proof.Machine.execPrepareTimeout s
  | .commit src epoch => Sys2Proof.Machine.execCommit src epoch s
  | .commitRepeat => Sys2Proof.Machine.execCommitRepeat s
  | .committed src epoch => Sys2Proof.Machine.execCommitted src epoch s
  | .abort src epoch => Sys2Proof.Machine.execAbort src epoch s
  | .epochGraceEnd => Sys2Proof.Machine.execEpochGraceEnd s
  | .heartbeatSend => Sys2Proof.Machine.execHeartbeatSend s
  | .heartbeat src time => Sys2Proof.Machine.execHeartbeat src time s
  | .lease src echoed seatTime leaseEnd seatEpoch ballotHash => Sys2Proof.Machine.execLease src echoed seatTime leaseEnd seatEpoch ballotHash s
  | .memberSilent u => Sys2Proof.Machine.execMemberSilent u s
  | .leaseExpiry => Sys2Proof.Machine.execLeaseExpiry s
  | .ballotLapse => Sys2Proof.Machine.execBallotLapse s
  | .fallowRetry => Sys2Proof.Machine.execFallowRetry s
  | .leaveTimeout => Sys2Proof.Machine.execLeaveTimeout s
  | .ballot src rec => Sys2Proof.Machine.execBallot src rec s
  | .down src gen => Sys2Proof.Machine.execDown src gen s
  | .records src recs => Sys2Proof.Machine.execRecords src recs s
  | .leave src => Sys2Proof.Machine.execLeave src s
  | .domainTick mw => Sys2Proof.Machine.execDomainTick mw s
  | .pairBootstrap th peerId sigs meas peerKey peerEpoch peerPrimary => Sys2Proof.Machine.execPairBootstrap th peerId sigs meas peerKey peerEpoch peerPrimary s
  | .pairHeartbeat => Sys2Proof.Machine.execPairHeartbeat s
  | .mirror seq kind form items => Sys2Proof.Machine.execMirror seq kind form items s
  | .mirrorAck seq stale => Sys2Proof.Machine.execMirrorAck seq stale s
  | .restoreReq imageOk unit => Sys2Proof.Machine.execRestoreReq imageOk unit s
  | .restore kind empty items ledger mem => Sys2Proof.Machine.execRestore kind empty items ledger mem s
  | .partnerLost byDown => Sys2Proof.Machine.execPartnerLost byDown s
  | .claimSend => Sys2Proof.Machine.execClaimSend s
  | .claimReceive rec => Sys2Proof.Machine.execClaimReceive rec s
  | .handoverReceive cell => Sys2Proof.Machine.execHandoverReceive cell s
  | .cellRead port idx => Sys2Proof.Machine.execCellRead port idx s
  | .cellHandover port idx => Sys2Proof.Machine.execCellHandover port idx s
  | .peerRegisterRequest port src epoch0 a => Sys2Proof.Machine.execPeerRegisterRequest port src epoch0 a s
  | .sqDoorbell port q v => Sys2Proof.Machine.execSqDoorbell port q v s
  | .descriptorFetch q d => Sys2Proof.Machine.execDescriptorFetch q d s
  | .completionWrite q k => Sys2Proof.Machine.execCompletionWrite q k s
  | .queueTimeout q k drained => Sys2Proof.Machine.execQueueTimeout q k drained s
  | .queueDisable port q => Sys2Proof.Machine.execQueueDisable port q s
  | .queueEnable port q => Sys2Proof.Machine.execQueueEnable port q s
  | .nop q k => Sys2Proof.Machine.execNop q k s
  | .aesEnc q k src => Sys2Proof.Machine.execAesEnc q k src s
  | .aesDec q k src => Sys2Proof.Machine.execAesDec q k src s
  | .xtsEnc q k src => Sys2Proof.Machine.execXtsEnc q k src s
  | .xtsDec q k src => Sys2Proof.Machine.execXtsDec q k src s
  | .scuBurst => Sys2Proof.Machine.execScuBurst s
  | .gangStripeDone q k stripe ok => Sys2Proof.Machine.execGangStripeDone q k stripe ok s
  | .keyWrap q k => Sys2Proof.Machine.execKeyWrap q k s
  | .keyImport q k src => Sys2Proof.Machine.execKeyImport q k src s
  | .keyOrigin q k nonce => Sys2Proof.Machine.execKeyOrigin q k nonce s
  | .pkHash q k src => Sys2Proof.Machine.execPkHash q k src s
  | .pkMldsaVerify q k src => Sys2Proof.Machine.execPkMldsaVerify q k src s
  | .pkEcdsaVerify q k src => Sys2Proof.Machine.execPkEcdsaVerify q k src s
  | .drillStore q k image => Sys2Proof.Machine.execDrillStore q k image s
  | .drillRun q k params lines => Sys2Proof.Machine.execDrillRun q k params lines s
  | .drillDrop q k => Sys2Proof.Machine.execDrillDrop q k s
  | .hostMboxGo port m len => Sys2Proof.Machine.execHostMboxGo port m len s
  | .mctpMessage m => Sys2Proof.Machine.execMctpMessage m s
  | .atsCompletion att va pa perm ok => Sys2Proof.Machine.execAtsCompletion att va pa perm ok s
  | .atsInvalidate att first last => Sys2Proof.Machine.execAtsInvalidate att first last s
  | .hostDmaReadDone tag seg rerr => Sys2Proof.Machine.execHostDmaReadDone tag seg rerr s
  | .bounceDoorbell port c v => Sys2Proof.Machine.execBounceDoorbell port c v s
  | .bounceTransfer c d src => Sys2Proof.Machine.execBounceTransfer c d src s
  | .transferComplete c => Sys2Proof.Machine.execTransferComplete c s
  | .keywarn slot => Sys2Proof.Machine.execKeywarn slot s
  | .resetDrain port p => Sys2Proof.Machine.execResetDrain port p s
  | .resetSquash port p => Sys2Proof.Machine.execResetSquash port p s
  | .flip port p => Sys2Proof.Machine.execFlip port p s
  | .dirtyLogOr p page old => Sys2Proof.Machine.execDirtyLogOr p page old s
  | .ownClaimPost port => Sys2Proof.Machine.execOwnClaimPost port s
  | .cohortDecision => Sys2Proof.Machine.execCohortDecision s
  | .handoverGo port succ => Sys2Proof.Machine.execHandoverGo port succ s
  | .handoverCancel port => Sys2Proof.Machine.execHandoverCancel port s
  | .handoverLapse => Sys2Proof.Machine.execHandoverLapse s
  | .cfgLoad port image => Sys2Proof.Machine.execCfgLoad port image s
  | .cfgDiscard port => Sys2Proof.Machine.execCfgDiscard port s
  | .cfgSwap port persist => Sys2Proof.Machine.execCfgSwap port persist s
  | .swapEffect => Sys2Proof.Machine.execSwapEffect s
  | .cfgPersist ok => Sys2Proof.Machine.execCfgPersist ok s
  | .lcPost port programs => Sys2Proof.Machine.execLcPost port programs s
  | .endOfLifeWipe => Sys2Proof.Machine.execEndOfLifeWipe s
  | .otpRead port w => Sys2Proof.Machine.execOtpRead port w s
  | .otpProgram o w rowOk spareOk => Sys2Proof.Machine.execOtpProgram o w rowOk spareOk s
  | .fwuStage port image stored => Sys2Proof.Machine.execFwuStage port image stored s
  | .fwuStart port => Sys2Proof.Machine.execFwuStart port s
  | .fwuReady meas => Sys2Proof.Machine.execFwuReady meas s
  | .fwuBootTimeout => Sys2Proof.Machine.execFwuBootTimeout s
  | .fwuHandover => Sys2Proof.Machine.execFwuHandover s
  | .fwuCancel port => Sys2Proof.Machine.execFwuCancel port s
  | .fwuAbandon port => Sys2Proof.Machine.execFwuAbandon port s
  | .fwuStuck => Sys2Proof.Machine.execFwuStuck s
  | .cert port chain leafOk stored => Sys2Proof.Machine.execCert port chain leafOk stored s
  | .powerOnReset => Sys2Proof.Machine.execPowerOnReset s
  | .bringupPhaseDone cause image => Sys2Proof.Machine.execBringupPhaseDone cause image s
  | .warmReset lost => Sys2Proof.Machine.execWarmReset lost s
  | .settleTimeout => Sys2Proof.Machine.execSettleTimeout s
  | .restoreWaitTimeout => Sys2Proof.Machine.execRestoreWaitTimeout s
  | .pllLockLoss => Sys2Proof.Machine.execPllLockLoss s
  | .fltAbort port type index drained => Sys2Proof.Machine.execFltAbort port type index drained s
  | .fltReset port unit index drained tests => Sys2Proof.Machine.execFltReset port unit index drained tests s
  | .hedge port p => Sys2Proof.Machine.execHedge port p s
  | .unhedge port p => Sys2Proof.Machine.execUnhedge port p s
  | .winnow port p => Sys2Proof.Machine.execWinnow port p s
  | .warmReq port => Sys2Proof.Machine.execWarmReq port s
  | .pwrReq port => Sys2Proof.Machine.execPwrReq port s
  | .pwrStop port => Sys2Proof.Machine.execPwrStop port s
  | .powerCycleSend => Sys2Proof.Machine.execPowerCycleSend s
  | .gleanerRecord => Sys2Proof.Machine.execGleanerRecord s
  | .freeze port => Sys2Proof.Machine.execFreeze port s
  | .unfreeze port => Sys2Proof.Machine.execUnfreeze port s
  | .peerCopy port => Sys2Proof.Machine.execPeerCopy port s
  | .unitBistStart port type index out => Sys2Proof.Machine.execUnitBistStart port type index out s
  | .unitSwap port type index spare out => Sys2Proof.Machine.execUnitSwap port type index spare out s
  | .unitReturn port type index => Sys2Proof.Machine.execUnitReturn port type index s
  | .inject port kind dbl target => Sys2Proof.Machine.execInject port kind dbl target s
  | .injectExpiry => Sys2Proof.Machine.execInjectExpiry s
  | .marginSample n a b valid => Sys2Proof.Machine.execMarginSample n a b valid s
  | .reeveHeartbeat => Sys2Proof.Machine.execReeveHeartbeat s
  | .traceRecord => Sys2Proof.Machine.execTraceRecord s
  | .traceRead port first count => Sys2Proof.Machine.execTraceRead port first count s
  | .obsChallenge port classes => Sys2Proof.Machine.execObsChallenge port classes s
  | .obsResponse port rec => Sys2Proof.Machine.execObsResponse port rec s
  | .counterHalfRead port n hi => Sys2Proof.Machine.execCounterHalfRead port n hi s
  | .rcRegisterRead port a => Sys2Proof.Machine.execRcRegisterRead port a s
  | .registerWrite port a => Sys2Proof.Machine.execRegisterWrite port a s
  | .hostRegisterAccess att a => Sys2Proof.Machine.execHostRegisterAccess att a s
  | .powerOnResetAssert => Sys2Proof.Machine.execPowerOnResetAssert s
  | .pllLockReturn => Sys2Proof.Machine.execPllLockReturn s
  | .epoch0EntryExpiry src lane => Sys2Proof.Machine.execEpoch0EntryExpiry src lane s
  | .startUpTestPass => Sys2Proof.Machine.execStartUpTestPass s
  | .unitOutOfService type index => Sys2Proof.Machine.execUnitOutOfService type index s

end Sys2Proof.Machine
end

