-- ==== Sys2Proof/Safety.lean ====
section
/-! DEFINITION. What a safe run is: one that stops in no fault and meets no refusal; who the owner is; and the bounds every
reachable state keeps. -/

namespace Sys2Proof

/-- A step answers a next state. -/
def stepsOn (s : Machine.State) : Prop := ∃ t, Machine.step s = .next t

/-- `k` steps from a state all answer a next state. -/
def safeFor : Nat → Machine.State → Prop
  | 0, _ => True
  | k + 1, s => ∃ t, Machine.step s = .next t ∧ safeFor k t

namespace Machine

/-- The owner writes: registers are accessible and the access comes on the owner's attach port (R14, R450). -/
abbrev State.owner (s : State) (port : Nat) : Prop := s.regsOpen = true ∧ port = s.ownerPort

/-- A command completes with a next state of which something holds. -/
def Completes (c : Instr) (s : State) (P : State → Prop) : Prop := ∃ t, exec c s = .next t ∧ P t

/-- Place `k` of queue `q` holds command `c`, of an opcode, and it may start (R305). -/
abbrev State.startable (s : State) (q k op : Nat) (c : Cmd) : Prop :=
  s.cmd q k = some c ∧ c.desc.op = op ∧ s.canStart q c = true

/-- The state in which a command of a queue has started. -/
def State.started (s : State) (q : Nat) (c : Cmd) : State := s.setCmd q { c with st := .running }

/-- The state in which a tenant's operation of the public-key unit runs, its source of `n` bytes read from device memory: the
lines are counted (R438), the partition's token is taken (R344), and the operation is counted (R321). -/
def State.pkuStarted (s : State) (q : Nat) (c : Cmd) (n : Nat) : State :=
  let s' := (((s.readLines (s.qPart q) (c.desc.src % 2 ^ 63) n).svcTake (s.qPart q)).count 470 1)
  s'.withScu { s'.svc.scu with pkuProgress := (s'.svc.scu.pkuProgress + 1) % 2 ^ 32 }

/-- The recorders stay inside the storage the spec gives them: GLEANER stages at most 64 records before it writes them to its
4,096-slot ring under a 32-bit sequence (R420, R421); the trace ring stages at most 256 records, numbers them in 32 bits and
holds at most 32,768 (R436). -/
def RecordersBounded (f : Faults) (o : Obs) : Prop :=
  f.staging.length ≤ 64 ∧ f.head < 4096 ∧ f.seq < 2 ^ 32 ∧ o.staging.length ≤ 256 ∧ o.next < 2 ^ 32 ∧ o.held ≤ 32768

/-- The register file lists each register once, in address order, and the recorders are inside their storage. -/
def Bounded (s : State) : Prop := rising 0 s.regs ∧ RecordersBounded s.faults s.obs

end Machine

end Sys2Proof
end

