-- ==== Sys2Proof/Certificates/Slice0/Obligations.lean ====
section
/-! DEFINITION. The statements about the block that its proofs are asked for: what a step does, what every step keeps, and for
each family of commands the next state its commands end in. -/

open Sys2Proof Sys2Proof.Machine

/-- The front command of the queue takes effect on the state with the queue's rest, whatever it answers; a block without a
command waiting idles. -/
def Obligations.StepRunsFront : Prop :=
  (∀ (c : Instr) (s t : State) (rest : List Instr), s.pending = c :: rest → t = { s with pending := rest } →
    step s = exec c t) ∧
  (∀ s : State, s.pending = [] → step s = .next s)

/-- R48, R390 and the Reset columns of the register map: at reset every register reads its reset value on every bank, the
block is without power and not ready, its fence is high, no warm reset is asked for, no region, no key, no job, no
queue and no flow exists, the agent is DETACHED, the pair DISABLED, and nothing is outstanding. -/
def Obligations.ResetValues : Prop :=
  (∀ (r : Reg) (i j port : Nat), State.reset.rd r i j port = (BitVec.ofNat 64 r.rst).toNat) ∧
  State.reset.life.ready = false ∧ State.reset.life.powered = false ∧ State.reset.life.phase = 0 ∧
  State.reset.life.blkFence = true ∧ State.reset.life.warmReq = false ∧
  State.reset.rgn.rows = [] ∧ State.reset.keys.slots = [] ∧ State.reset.harrow.jobs = [] ∧ State.reset.links.tx = [] ∧
  State.reset.links.rx = [] ∧ State.reset.mem.tids = [] ∧ State.reset.dom.state = .detached ∧
  State.reset.pair.state = .disabled ∧ State.reset.faults.staging = [] ∧ State.reset.obs.held = 0 ∧
  State.reset.pending = []

/-- At reset the register file and the recorders are inside their bounds. -/
def Obligations.BoundedAtReset : Prop :=
  Bounded State.reset

/-- R420, R421, R436: whatever the state, no command takes a recorder outside its storage: GLEANER's staging queue of 64
records and ring of 4,096, the trace's of 256 and 32,768, and their 32-bit sequences; and the register file keeps its
canonical form, so that equal register contents are equal data. -/
def Obligations.BoundedKept : Prop :=
  ∀ s t : State, Bounded s → step s = .next t → Bounded t

/-- A field of a register reads back what was written, as far as it is wide; the register's other fields and every other
register are unchanged. -/
def Obligations.RegisterFile : Prop :=
  ∀ (s : State) (f : Fld) (v i port : Nat), Bounded s → f.lo + f.width ≤ 64 →
    (s.setFld f v i port).fld f i port = v % 2 ^ f.width ∧
    (∀ g : Fld, g.reg = f.reg → g.lo + g.width ≤ f.lo ∨ f.lo + f.width ≤ g.lo → g.lo + g.width ≤ 64 →
      (s.setFld f v i port).fld g i port = s.fld g i port) ∧
    (∀ (r : Reg) (i' j port' : Nat), r.key i' j port' ≠ f.reg.key i 0 port →
      (s.setFld f v i port).rd r i' j port' = s.rd r i' j port')

/-- Every command of the table, on every state, ends in a next state; the one stop is the fault of a request that reuses an
identifier still outstanding on its interface, which R51 forbids. -/
def Obligations.EveryCommandRuns : Prop :=
  ∀ (i : Instr) (s : State), (∃ t, exec i s = .next t) ∨ (exec i s = .fault .tidReused ∧
    ((∃ k r, i = .memoryRequest k r) ∨ ∃ k r, i = .fabricRequest k r))

/-- R16: no offset from 0x80_0000 on is mapped, and a read or a write of an unmapped offset, on any attach port, returns
zero data with an error response, has no other effect, and is counted in LZ_GSTAT. -/
def Obligations.UnmappedAccesses : Prop :=
  (∀ off : Nat, 0x800000 ≤ off → regAt? off = none) ∧
  (∀ (s : State) (port : Nat) (a : RegAccess), s.regsOpen = true → port < 6 → a.off % 8 = 0 → regAt? a.off = none →
    (a.write = false → exec (.rcRegisterRead port a) s = .next ((s.incFld F.gstat_UNMAPPED).regRsp port 0 true)) ∧
    (a.write = true → exec (.registerWrite port a) s = .next ((s.incFld F.gstat_UNMAPPED).regRsp port 0 true)))

/-- R14: a write by a controller that is not the owner to a register with no ANY field is ignored, answered with an error
response, and counted in LZ_GSTAT. -/
def Obligations.NonOwnerWrites : Prop :=
  ∀ (s : State) (port : Nat) (a : RegAccess) (x : RegAt), s.regsOpen = true → port < 6 → a.write = true → a.off % 8 = 0 →
    regAt? a.off = some x → (∀ f ∈ x.reg.fields, f.acc ≠ .any) → port ≠ s.ownerPort →
    exec (.registerWrite port a) s = .next ((s.incFld F.gstat_NONOWNER).regRsp port 0 true)

/-- R11: a write, by a controller that may write the register, that places a reserved encoding in a field is discarded as a
whole: it is answered with an error response, counted in the error counter of its window, and changes nothing else. -/
def Obligations.ReservedWrites : Prop :=
  ∀ (s : State) (port : Nat) (a : RegAccess) (x : RegAt), s.regsOpen = true → port < 6 → a.write = true → a.off % 8 = 0 →
    regAt? a.off = some x → (port = s.ownerPort ∨ ∃ f ∈ x.reg.fields, f.acc = .any) →
    (∃ f ∈ x.reg.fields, f.acc.writable = true ∧ acts a f = true) → s.reserved x (s.writeWord port x a) = true →
    exec (.registerWrite port a) s = .next ((s.incFld x.reg.errFld (x.reg.errInst x.i)).regRsp port 0 true)

/-- R13, R65, R69, R361, R448, R450, R468: before CALIBRATE has ended no path answers; an unaligned access is an error; a
read of a plain register by another controller returns its value and changes nothing; a write by the owner to a register
with no writable field is an error, and one that is neither reserved nor barred has its effect; the attachments, MCTP, the
partner and the seat reach the registers on ports 1 to 5, and a request under epoch 0 is dropped. Completes:
RC_REGISTER_READ, REGISTER_WRITE, HOST_REGISTER_ACCESS, PEER_REGISTER_REQUEST, MCTP_MESSAGE. -/
def Obligations.RegisterAccesses : Prop :=
  (∀ (s : State) (port att : Nat) (src : BitVec 16) (e0 : Bool) (a : RegAccess), s.regsOpen = false →
    exec (.rcRegisterRead port a) s = .next s ∧ exec (.registerWrite port a) s = .next s ∧
    exec (.hostRegisterAccess att a) s = .next s ∧ exec (.peerRegisterRequest port src e0 a) s = .next s ∧
    exec (.mctpMessage (.reg a)) s = .next s) ∧
  (∀ (s : State) (port : Nat) (a : RegAccess), s.regsOpen = true → port < 6 → a.off % 8 ≠ 0 →
    (a.write = false → exec (.rcRegisterRead port a) s = .next ((s.incFld F.gstat_BAD_ACCESS).regRsp port 0 true)) ∧
    (a.write = true → exec (.registerWrite port a) s = .next ((s.incFld F.gstat_BAD_ACCESS).regRsp port 0 true))) ∧
  (∀ (s : State) (port : Nat) (a : RegAccess) (x : RegAt), s.regsOpen = true → port < 6 → a.write = false → a.wide = true →
    a.off % 8 = 0 → regAt? a.off = some x → x.reg ≠ .obsCnt → x.reg ≠ .clkStat → port ≠ s.ownerPort →
    exec (.rcRegisterRead port a) s = .next (s.regRsp port (s.view port x) false)) ∧
  (∀ (s : State) (port : Nat) (a : RegAccess) (x : RegAt) (w : Nat), s.regsOpen = true → port < 6 → port = s.ownerPort →
    a.write = true → a.off % 8 = 0 → regAt? a.off = some x → w = s.writeWord port x a →
    ((∀ f ∈ x.reg.fields, f.acc.writable = false) →
      exec (.registerWrite port a) s = .next (s.regBad port x.reg.errFld (x.reg.errInst x.i))) ∧
    ((∃ f ∈ x.reg.fields, f.acc.writable = true ∧ acts a f = true) → s.reserved x w = false → s.barred port x w = false →
      exec (.registerWrite port a) s = .next (s.acceptWrite port x w))) ∧
  (∀ (s : State) (a : RegAccess) (att : Nat), att < 2 → exec (.hostRegisterAccess att a) s = .next (s.access (att + 1) a)) ∧
  (∀ (s : State) (a : RegAccess), exec (.mctpMessage (.reg a)) s = .next (s.access 3 a)) ∧
  (∀ (s : State) (src : BitVec 16) (a : RegAccess) (port : Nat), exec (.peerRegisterRequest port src true a) s = .next s) ∧
  (∀ (s : State) (src : BitVec 16) (a : RegAccess) (e : EpochKey), s.dom.cur = some e →
    (∀ p : PairPlot, s.pairPlot = some p → p.partner = src.toNat →
      exec (.peerRegisterRequest 4 src false a) s = .next (s.access 4 a)) ∧
    (∀ b : Ballot, s.dom.ballot = some b → b.unit = src.toNat → src.toNat ≠ s.unit →
      exec (.peerRegisterRequest 5 src false a) s = .next (s.access 5 a)))

/-- R356 to R359: a port posts the claim of its bank, which waits with its time; a cohort of one claim that passes every
check makes its port the owner with the claim's epoch, draws a new claim nonce from the seeded DRBG, and answers WON (RESULT
1); one whose claim fails a check answers the code of the first check that fails. R360: the owner opens a handover to
another port, which lapses 1 s later; one to port 0 completes at once under the next epoch; a cancel closes it; and when its
second has passed the lapse closes it with HANDOVER 2 and is counted. Completes: OWN_CLAIM_POST, COHORT_DECISION,
HANDOVER_GO, HANDOVER_CANCEL, HANDOVER_LAPSE. -/
def Obligations.Ownership : Prop :=
  ((∀ (s : State) (port : Nat), s.regsOpen = true → port < 6 → s.fld F.ownClaim_BUSY 0 port ≠ 1 →
      ∀ u : State, u = (s.setFld F.ownClaim_POST 1 0 port).setFld F.ownClaim_BUSY 1 0 port →
      exec (.ownClaimPost port) s = .next (({ u with own := { s.own with claims := s.own.claims ++
        [({ port := port, time := s.life.time, bytes := u.claimBank port } : Claim)] } }).regRsp port 0 false)) ∧
    (∀ (s : State) (c : Claim), s.own.claims = [c] → s.life.ready = true → s.drbgOk = true → s.claimCheck c = none →
      exec .cohortDecision s = .next (((({ s.pkuOwn 2 with own := { s.own with claims := [] } }).moveOwner c.port
        (le c.bytes 32 8) (bit (le c.bytes 10 1) 0)).newNonce).claimEnd c.port 1)) ∧
    (∀ (s : State) (c : Claim) (code : Nat), s.own.claims = [c] → s.life.ready = true → s.claimCheck c = some code →
      code ≠ 7 → exec .cohortDecision s = .next (({ s.pkuOwn 0 with own := { s.own with claims := [] } }.incFld
        F.ownErr_INVALID).claimEnd c.port code))) ∧
  ((∀ (s : State) (port : Nat) (n : BitVec 3), s.owner port → 0 < n.toNat → n.toNat < 6 → n.toNat ≠ s.ownerPort →
      exec (.handoverGo port n) s = .next (({ (((s.setFld F.ownHandover_SUCCESSOR n.toNat).setFld F.ownStatus_SUCCESSOR
        n.toNat).setFld F.ownStatus_HANDOVER 1) with own := { s.own with lapseAt := s.life.time + 10 ^ 9 } }).regRsp port 0
        false)) ∧
    (∀ (s : State) (port : Nat), s.owner port → s.ownerPort ≠ 0 →
      exec (.handoverGo port 0) s = .next ((((s.setFld F.ownHandover_SUCCESSOR 0).setFld F.ownStatus_SUCCESSOR 0).moveOwner 0
        (s.fld F.ownEpoch_EPOCH + 1) false).regRsp port 0 false)) ∧
    (∀ (s : State) (port : Nat), s.owner port → s.fld F.ownStatus_HANDOVER = 1 →
      exec (.handoverCancel port) s = .next ((s.handoverEnd 0).regRsp port 0 false)) ∧
    (∀ (s : State), s.fld F.ownStatus_HANDOVER = 1 → s.own.lapseAt ≤ s.life.time →
      exec .handoverLapse s = .next ((s.incFld F.ownErr_HANDOVER_LAPSED).handoverEnd 2)))

/-- R436, R439: the oldest staged trace record takes the next sequence at its place in the ring of 32,768; a read of the
trace answers the port's records with RESULT 1, and one that asks for none, or for more than 255, gets RESULT 2. R438, R439:
a read of the lower half of a counter the port may see gives its low 32 bits and loads the port's latch with the upper half;
the upper half that the latch holds for that counter is given and empties the latch; a port without the class gets an error
and is counted. Completes: TRACE_RECORD, TRACE_READ, COUNTER_HALF_READ. -/
def Obligations.TraceAndCounters : Prop :=
  ((∀ (s : State) (r : TraceRec) (rest : List TraceRec), s.obs.staging = r :: rest → s.obs.lost = false →
      ∀ x : TraceRec, x = { r with seq := s.obs.next } →
      exec .traceRecord s = .next { s with obs := { s.obs with
        ring := tput s.obs.ring (s.obs.next % 32768) x, next := (s.obs.next + 1) % 2 ^ 32,
        held := min (s.obs.held + 1) 32768, staging := rest } }) ∧
    (∀ (s : State) (port : Nat) (first : BitVec 32) (n : BitVec 16), s.regsOpen = true → port < 6 → 0 < n.toNat →
      n.toNat ≤ 255 → ∀ x y, x = s.traceFrom first.toNat →
      y = collectTrace s.obs.ring (s.classes port) x.2.2 n.toNat x.2.1 →
      exec (.traceRead port first n) s = .next (s.obsEnd port 1 (ascii "LZTR" ++ leBytes 2 y.1.length ++
        leBytes 2 (if x.1 then 1 else 0) ++ leBytes 4 y.2 ++ zeros 4 ++ (y.1.map TraceRec.bytes).flatten))) ∧
    (∀ (s : State) (port : Nat) (first : BitVec 32) (n : BitVec 16), s.regsOpen = true → port < 6 →
      (n.toNat = 0 ∨ 255 < n.toNat) → exec (.traceRead port first n) s = .next (s.obsEnd port 2 []))) ∧
  ((∀ (s : State) (port : Nat) (n : BitVec 9), s.regsOpen = true → port < 6 →
      bit (s.classes port) (cntClass n.toNat) = true →
      exec (.counterHalfRead port n false) s = .next (({ s with obs := { s.obs with
        latch := tset none s.obs.latch port (some (n.toNat, s.cnt n.toNat / 2 ^ 32)) } }).regRsp port
        (s.cnt n.toNat % 2 ^ 32) false)) ∧
    (∀ (s : State) (port : Nat) (n : BitVec 9) (v : Nat), s.regsOpen = true → port < 6 →
      bit (s.classes port) (cntClass n.toNat) = true → tget none s.obs.latch port = some (n.toNat, v) →
      exec (.counterHalfRead port n true) s = .next (({ s with obs := { s.obs with
        latch := tset none s.obs.latch port none } }).regRsp port v false)) ∧
    (∀ (s : State) (port : Nat) (n : BitVec 9) (hi : Bool), s.regsOpen = true → port < 6 →
      bit (s.classes port) (cntClass n.toNat) = false →
      exec (.counterHalfRead port n hi) s = .next ((s.incFld F.obsErr_DENIED).regRsp port 0 true)))

/-- R440: with ALLOW_REOPEN in PRODUCTION, and an entropy source to reseed from (R195), a challenge draws a nonce for its
bank and answers the signed challenge record; a grant record that passes every check adds its classes to the port and ends
the nonce; one that fails answers the code of its check, is counted, and ends the nonce too. Completes: OBS_CHALLENGE,
OBS_RESPONSE. -/
def Obligations.Reopening : Prop :=
  (∀ (s : State) (port : Nat) (cl : BitVec 16), s.regsOpen = true → port < 6 → cl.toNat < 256 →
    s.allowReopen port = true → s.life.lc = .production → s.predOk = true → ∀ u x,
    u = { s.drew with obs := { s.obs with nonce := tset none s.obs.nonce port (some (s.drawn 256)) } } →
    x = u.signBoth (u.challengeRecord port cl.toNat (s.drawn 256)) (ascii "LZOBSCH") →
    exec (.obsChallenge port cl) s = .next (x.2.obsEnd port 1 (u.challengeRecord port cl.toNat (s.drawn 256) ++ x.1))) ∧
  (∀ (s : State) (port : Nat) (rec_ : Bytes), s.regsOpen = true → port < 6 → s.grantCheck port rec_ = none → ∀ u : State,
    u = { s with obs := { s.obs with nonce := tset none s.obs.nonce port none } } → ∀ v : State, v = u.pkuOwn 2 →
    exec (.obsResponse port rec_) s = .next (({ v with obs := { u.obs with
      reopened := tset 0 s.obs.reopened port (tget 0 s.obs.reopened port ||| le rec_ 10 2) } }).obsEnd port 1 [])) ∧
  (∀ (s : State) (port : Nat) (rec_ : Bytes) (c : Nat), s.regsOpen = true → port < 6 → s.grantCheck port rec_ = some c →
    c ≠ 7 → ∀ u : State, u = { s with obs := { s.obs with nonce := tset none s.obs.nonce port none } } →
    exec (.obsResponse port rec_) s = .next ((u.incFld F.obsErr_REOPEN_FAIL).obsEnd port c []))

/-- R385 to R388: any controller reads an OTP word that is not hidden into LZ_OTP_DATA with RESULT 0; words 8 to 23 give
zero with an error. The owner's program of a word sets bits when its row verifies (RESULT 0); a value that would clear a bit
is refused NOT_SUBSET (1), and a word that is not the owner's to program now with its code. R380 to R383: a transition
request that passes has its journal and its three copies programmed; PRODUCTION waits for the next reset while END_OF_LIFE
takes effect at once; one that fails is answered with the code of its first failing check. In every case a new nonce is
drawn. The wipe then hedges every partition, ends the pair and the domain's state, erases the keys and marks itself done.
Completes: OTP_READ, OTP_PROGRAM, LC_POST, END_OF_LIFE_WIPE. -/
def Obligations.OtpAndLifeCycle : Prop :=
  ((∀ (s : State) (port : Nat) (w : BitVec 10), s.regsOpen = true → w.toNat < 992 → ¬ (8 ≤ w.toNat ∧ w.toNat ≤ 23) →
      exec (.otpRead port w) s = .next ((((s.setFld F.otpCtl_WORD w.toNat).setFld F.otpData_VALUE (s.otpWord
        w.toNat)).setFld F.otpCtl_RESULT 0).regRsp port 0 false)) ∧
    (∀ (s : State) (port : Nat) (w : BitVec 10), s.regsOpen = true → 8 ≤ w.toNat → w.toNat ≤ 23 →
      exec (.otpRead port w) s = .next ((((s.setFld F.otpCtl_WORD w.toNat).setFld F.otpData_VALUE 0).incFld
        F.otpErr_REG_ERR).regRsp port 0 true)) ∧
    (∀ (s : State) (port : Nat) (w : BitVec 10) (spare : Bool), s.owner port → w.toNat < 992 →
      otpRefusal s.life.lc w.toNat = none → s.otp.repairs.contains w.toNat = false →
      s.fld F.otpData_VALUE ≠ s.otpWord w.toNat → s.fld F.otpData_VALUE ||| s.otpWord w.toNat = s.fld F.otpData_VALUE →
      exec (.otpProgram (.reg port) w true spare) s = .next ((((s.setFld F.otpCtl_WORD w.toNat).otpPut w.toNat
        (s.fld F.otpData_VALUE)).setFld F.otpCtl_RESULT 0).regRsp port 0 false)) ∧
    (∀ (s : State) (port : Nat) (w : BitVec 10) (ok spare : Bool), s.owner port → w.toNat < 992 →
      otpRefusal s.life.lc w.toNat = none → s.otp.repairs.contains w.toNat = false →
      s.fld F.otpData_VALUE ||| s.otpWord w.toNat ≠ s.fld F.otpData_VALUE →
      exec (.otpProgram (.reg port) w ok spare) s = .next ((((s.setFld F.otpCtl_WORD w.toNat).setFld F.otpCtl_RESULT
        1).incFld F.otpErr_REFUSED).regRsp port 0 false)) ∧
    (∀ (s : State) (port : Nat) (w : BitVec 10) (ok spare : Bool) (code : Nat), s.owner port → w.toNat < 992 →
      otpRefusal s.life.lc w.toNat = some code → code ≠ 0 →
      exec (.otpProgram (.reg port) w ok spare) s = .next ((((s.setFld F.otpCtl_WORD w.toNat).setFld F.otpCtl_RESULT
        code).incFld F.otpErr_REFUSED).regRsp port 0 false))) ∧
  ((∀ (s : State) (port : Nat), s.regsOpen = true → (s.regRsp port 0 false).requestCheck (s.lcMailbox) = none →
      le s.lcMailbox 12 4 = lcProduction → s.life.lc = .test → ∀ u : State,
      u = ((s.regRsp port 0 false).pkuOwn 2).programCopies lcProduction 3 →
      exec (.lcPost port true) s = .next (({ u with lct := { u.lct with pending := lcProduction } }).requestEnd 1)) ∧
    (∀ (s : State) (port : Nat) (code : Nat) (b : Bool), s.regsOpen = true →
      (s.regRsp port 0 false).requestCheck (s.lcMailbox) = some code → code < 7 →
      exec (.lcPost port b) s = .next (((s.regRsp port 0 false).pkuOwn 0).requestEnd code)) ∧
    (∀ s : State, s.lct.wiping = true → Completes .endOfLifeWipe s fun t => t.keys.slots = [] ∧ t.keys.root = 0 ∧
      t.lct.wiping = false ∧ t.store.config = some [] ∧ t.host.bindings = [] ∧ t.kept.slots = [] ∧ t.harrow.jobs = [] ∧
      t.pair.linkKey = 0 ∧ t.links.tx = [] ∧ t.links.rx = [] ∧ t.dom.ballot = none))

/-- R48, R390, R295, R418, R461, R279: the fall of lz_por_n leaves the reset values but for OTP, the block store and the
model's own queues, and its release begins phase OTP; the fall of lz_warm_rst_n raises the fence and counts, and a block in
service with its pair UP settles, in phase SETTLE, where another begins phase OTP at once; a settle that takes too long is
abandoned; a loss of lock is counted, raises the fence and asks for a warm reset, and its return is recorded; an epoch-0
entry without a frame for its time is forgotten. Completes: POWER_ON_RESET_ASSERT, POWER_ON_RESET, WARM_RESET,
SETTLE_TIMEOUT, PLL_LOCK_LOSS, PLL_LOCK_RETURN, EPOCH0_ENTRY_EXPIRY. -/
def Obligations.Resets : Prop :=
  (∀ s : State, Completes .powerOnResetAssert s fun t => t.regs = [] ∧ t.life = State.reset.life ∧ t.mem = State.reset.mem ∧
    t.otp = s.otp ∧ t.store = s.store ∧ t.pending = s.pending ∧ t.keys.slots = [] ∧ t.rgn.rows = []) ∧
  (∀ s : State, s.life.powered = false → ∀ l : Life, l = { s.life with powered := true, rstCause := 0 } →
    exec .powerOnReset s = .next (({ s with life := l }).setPhase 1)) ∧
  (∀ (s u : State) (l : Life), s.life.powered = true → s.life.settling = false → s.life.warmReq = false →
    s.life.lockLost = false → l = { s.life with blkFence := true, warmReq := false, rstCause := 1,
                                                warmCount := (s.life.warmCount + 1) % 2 ^ 16, settleAbandoned := false } →
    u = ({ s with life := l }).beginSettle →
    (s.life.ready = true → s.pair.state = .up → exec (.warmReset false) s =
      .next (({ u with life := { u.life with settling := true } }).setPhase 10).settleStep) ∧
    (∀ lost, s.life.ready = false → exec (.warmReset lost) s =
      .next ({ u with life := { u.life with settleAbandoned := true } }).reinit)) ∧
  (∀ (s : State), s.life.settling = true → ∀ l : Life, l = { s.life with settling := false, settleAbandoned := true } →
    exec .settleTimeout s = .next (({ s with life := l }).warm.setPhase 1)) ∧
  (∀ (s u v : State), s.life.pllLock = true → s.life.settling = false → u = s.incFld F.clkStat_LOCK_LOSS →
    v = { u with life := { u.life with pllLock := false, lockLost := true, blkFence := true } } →
    exec .pllLockLoss s = .next v.raiseWarm) ∧
  (∀ s : State, s.life.pllLock = false → s.life.lockLost = true → ∀ l : Life, l = { s.life with pllLock := true } →
    exec .pllLockReturn s = .next (({ s with life := l }).record .bringupFail .fault 0 none 3 2)) ∧
  (∀ (s : State) (src : BitVec 16) (lane : BitVec 2), Completes (.epoch0EntryExpiry src lane) s fun t =>
    (∀ f ∈ t.links.rx, f.epoch0 = true → f.src = src.toNat → f.lane ≠ lane.toNat) ∧
    (∀ f ∈ s.links.rx, f.epoch0 = false → f ∈ t.links.rx))

/-- R390, R392, R394, R396: with the entropy that the phase draws from at hand, a phase that has done its work is followed
by the next phase of the life-cycle state, one whose work fails stops the bring-up with the phase's cause, as does a fault
of the phase; METADATA waits for the restore it asked for, whose roots are installed when its ratchet is the image's
version, and no answer, an empty one, or one of another ratchet leaves a virgin start. Completes: BRINGUP_PHASE_DONE,
RESTORE_WAIT_TIMEOUT, RESTORE. -/
def Obligations.BringupPhases : Prop :=
  (∀ (s : State) (r : ReadOut), s.life.powered = true → s.life.fail = 0 → s.life.phase ≠ 0 → s.life.phase ≠ 10 →
    s.life.phase ≠ 15 → (s.life.phase = 8 → s.life.restoreWait = false) →
    (s.life.phase = 2 → s.keys.esFail = false) →
    ((s.life.phase = 6 ∨ s.life.phase = 7 ∨ s.life.phase = 9) → s.predOk = true) →
    (∀ t, s.phaseWork r = (true, t) → exec (.bringupPhaseDone 0 r) s =
      .next (t.enterPhase (nextPhase t.life.lc (bit (t.otpWord 6) 0 || t.life.decodeFail) s.life.phase))) ∧
    (∀ t, s.phaseWork r = (false, t) → exec (.bringupPhaseDone 0 r) s = .next (t.stopBringup s.life.phase)) ∧
    (∀ c : BitVec 4, c ≠ 0 → (stopCauses s.life.phase).contains c.toNat = true →
      exec (.bringupPhaseDone c r) s = .next (s.stopBringup c.toNat))) ∧
  (∀ (s : State) (c : Nat), (s.stopBringup c).life.fail = c ∧ (s.stopBringup c).life.ready = s.life.ready ∧
    (s.stopBringup c).life.phase = s.life.phase) ∧
  (∀ s : State, (s.life.restoreWait = true → s.predOk = true → exec .restoreWaitTimeout s = .next s.virginStart) ∧
    (s.life.restoreWait = false → exec .restoreWaitTimeout s = .next s)) ∧
  (∀ (s u : State) (kind : BitVec 2) (items : List (Nat × Nat × Bytes)) (ledger : List (Nat × Bytes))
    (mem : List (Nat × DmcBeat)) (x : Pesum) (p : PairPlot),
    s.life.restoreWait = true → s.pair.state = .up → s.cfg.image = some x → s.pairPlot = some p →
    u = s.forgetEpoch0 p.partner →
    (s.predOk = true → exec (.restore kind true items ledger mem) s = .next u.virginStart.answerWaiting) ∧
    (s.predOk = true → le (itemData items 1 0) 96 8 ≠ x.version →
      exec (.restore kind false items ledger mem) s = .next u.virginStart.answerWaiting) ∧
    (le (itemData items 1 0) 96 8 = x.version → exec (.restore kind false items ledger mem) s =
      .next (u.installRoots (decide (kind = 1)) items ledger mem).answerWaiting))

/-- R397 to R401, R389: STAGE puts an image that passes its checks in the slot that is not active; START boots the lowest
spare core; a ready with the recorded measurement derives the keys of the update and starts its jobs; three boots without
one end it; the handover waits for the jobs, and the resynchronisation after it ends the update and frees its core; CANCEL
drops an update that has not begun to move, a fault in MOVING makes it STUCK, and ABANDON moves back; the certificate chain
is written once. Completes: FWU_STAGE, FWU_START, FWU_CANCEL, FWU_ABANDON, FWU_READY, FWU_BOOT_TIMEOUT, FWU_HANDOVER,
FWU_STUCK, CERT. -/
def Obligations.FirmwareUpdates : Prop :=
  (∀ (s u : State) (port : Nat) (r : ReadOut), s.owner port → s.fwu.st = .idle → s.life.lc ≠ .endOfLife →
    s.argRead r 1048576 = true → u = s.pkuOwn 2 →
    (s.firmwareFault r.bytes = none → (s.fwu.running.map (·.version)) ≠ some (readFirmware r.bytes).version →
      s.store.slotB = false → ∀ (st : Store) (f : Fwu), st = { s.store with fwB := some r.bytes } →
      f = { s.fwu with st := .staged, staged := some (readFirmware r.bytes), boots := 0 } →
      exec (.fwuStage port r true) s = .next (((({ u with store := st, fwu := f }).fwuEnd 0)).regRsp port 0 false)) ∧
    (∀ code, s.firmwareFault r.bytes = some code → code ≠ 3 →
      exec (.fwuStage port r true) s = .next ((s.fwuEnd code).regRsp port 0 false))) ∧
  (∀ (s : State) (port : Nat), s.owner port →
    (s.fwu.st = .staged → s.lct.pending = 0 → (∀ i < 3, (s.unitOf 4 i).role ≠ .spare) →
      exec (.fwuStart port) s = .next ((s.fwuEnd 8).regRsp port 0 false)) ∧
    (s.fwu.st = .staged → s.lct.pending = 0 → ∀ core < 3, (s.unitOf 4 core).role = .spare →
      (∀ i < core, (s.unitOf 4 i).role ≠ .spare) → ∀ f : Fwu,
      f = { s.fwu with st := .booting, boots := 1, derived := false, core := some core } →
      exec (.fwuStart port) s = .next ((({ s.setUnit 4 core { s.unitOf 4 core with role := .active } with
        fwu := f }).fwuEnd 0).regRsp port 0 false)) ∧
    (s.fwu.st ≠ .staged → exec (.fwuStart port) s = .next ((s.fwuEnd 1).regRsp port 0 false)) ∧
    (s.fwu.st = .staged ∨ s.fwu.st = .booting ∨ s.fwu.st = .keyed →
      exec (.fwuCancel port) s = .next ((s.dropUpdate.fwuEnd 0).regRsp port 0 false)) ∧
    (s.fwu.st = .stuck → ∀ f : Fwu, f = { s.fwu with st := .moving, abandoning := true, back := false } →
      exec (.fwuAbandon port) s = .next ((({ s with fwu := f }).moveBack.fwuEnd 0).regRsp port 0 false))) ∧
  (∀ (s u v : State) (f : Firmware), s.fwu.staged = some f → s.fwu.st = .booting → s.fwu.derived = false →
    u = { s with keys := { s.keys with measNext := some f.meas } } →
    (∀ m, m ≠ f.meas → exec (.fwuReady m) s = .next s) ∧
    (u.slotsFor (u.namedKeys.filter fun k => decide ((u.slot k).succ = 0)) = false →
      exec (.fwuReady f.meas) s = .next (u.dropUpdate.fwuEnd 5)) ∧
    (u.slotsFor (u.namedKeys.filter fun k => decide ((u.slot k).succ = 0)) = true →
      v = u.underCount (s.keys.epochCount + 1) (fun w =>
        let w := (w.deriveSuccs (u.namedKeys.filter fun k => decide ((u.slot k).succ = 0)) f.meas).count 450 1
        { w with keys := { w.keys with ledgerKeyNext := w.ledgerKeyOf f.meas (w.keys.ledgerGen + 1) } }) →
      exec (.fwuReady f.meas) s = .next (({ v with fwu := { v.fwu with st := .keyed } }).keyedOn f.meas))) ∧
  (∀ s : State, s.fwu.st = .booting →
    (s.fwu.boots < 3 → ∀ f : Fwu, f = { s.fwu with boots := s.fwu.boots + 1 } →
      exec .fwuBootTimeout s = .next { s with fwu := f }) ∧
    (3 ≤ s.fwu.boots → exec .fwuBootTimeout s = .next (s.dropUpdate.fwuEnd 7))) ∧
  (∀ s : State, (s.fwu.st = .handover → ∀ f : Fwu, f = { s.fwu with st := .idle } →
      exec .fwuHandover s = .next ({ s with fwu := f }).freeCore) ∧
    (∀ (f : Firmware) (x : Pesum), s.fwu.st = .moving → s.fwu.abandoning = false → s.fwu.staged = some f →
      s.handoverImage f = some x → s.movesSettled = true → s.swapRefusal x = none → s.cfg.swapping = false →
      exec .fwuHandover s = .next (s.handover f x)) ∧
    (s.fwu.st = .moving → s.fwu.abandoning = true → s.fwu.back = true → s.movesSettled = true →
      exec .fwuHandover s = .next s.retireMoves.dropUpdate)) ∧
  (∀ (s : State) (f : Firmware), s.fwu.st = .moving → s.fwu.staged = some f → s.fwu.abandoning = false → ∀ w : Fwu,
    w = { s.fwu with st := .stuck, boots := 3 } →
    exec .fwuStuck s = .next (({ s with fwu := w }).record .fwuStuck .reeve 0 none (f.version % 2 ^ 32) 0)) ∧
  (∀ (s : State) (port : Nat) (r : ReadOut), s.owner port → s.life.lc = .production → s.argRead r 65536 = true →
    (s.store.chain = none → ∀ st : Store, st = { s.store with chain := some r.bytes } →
      exec (.cert port r true true) s = .next ((({ s with store := st }).fwuEnd 0).regRsp port 0 false)) ∧
    (s.store.chain = none → exec (.cert port r false true) s = .next ((s.fwuEnd 1).regRsp port 0 false)) ∧
    (∀ c, s.store.chain = some c → exec (.cert port r true true) s = .next ((s.fwuEnd 1).regRsp port 0 false)))

/-- R368 to R375: LOAD takes an image from the store or from device memory into the shadow, DISCARD empties it; a swap of a
VALID shadow is prepared and refused with the first check that fails, and at the quiescent point takes effect, or is refused
when a check fails there, and then the commands that waited for it are taken, as a DISCARD is; with PERSIST the image is
written to the store, and a write that fails is counted and recorded. Completes: CFG_LOAD, CFG_DISCARD, CFG_SWAP,
SWAP_EFFECT, CFG_PERSIST. -/
def Obligations.Configuration : Prop :=
  (∀ (s : State) (port : Nat) (r : ReadOut), s.owner port → s.cfg.swapping = false →
    (s.life.lc = .blank ∨ s.life.lc = .endOfLife → exec (.cfgLoad port r) s = .next ((s.loadEnd 10).regRsp port 0 false)) ∧
    (s.life.lc ≠ .blank → s.life.lc ≠ .endOfLife → s.fld F.cfgShadowBase_LOC = 0 → exec (.cfgLoad port r) s =
      .next ((s.loadImage (s.storedConfig r).1 (s.storedConfig r).2).regRsp port 0 false)) ∧
    (s.life.lc ≠ .blank → s.life.lc ≠ .endOfLife → s.fld F.cfgShadowBase_LOC ≠ 0 → r.ok = true → r.bytes ≠ [] → ∀ row,
      s.operandRow 0 true (s.fld F.cfgShadowBase_ADDR * 64) r.bytes.length 0 = some row →
      exec (.cfgLoad port r) s = .next ((s.loadImage true r.bytes).regRsp port 0 false)) ∧
    (s.cfg.resuming = false → exec (.cfgDiscard port) s = .next (s.emptyShadow.regRsp port 0 false))) ∧
  (∀ (s : State) (port : Nat), s.owner port → s.cfg.resuming = false → s.cfg.swapping = true →
    s.cfg.waiting.contains (.cfgDiscard port) = false → ∀ c : Cfg,
    c = { s.cfg with waiting := s.cfg.waiting ++ [.cfgDiscard port] } →
    exec (.cfgDiscard port) s = .next (({ s with cfg := c }).regRsp port 0 false)) ∧
  (∀ (s : State) (b : Bytes) (c : Nat × Nat × Nat), s.emptyShadow.imageFault b = some c →
    (s.loadImage true b).cfg.shadow = .invalid ∧ (s.loadImage true b).cfg.active = s.cfg.active) ∧
  (∀ (s u : State) (port : Nat) (persist : Bool) (x : Pesum), s.owner port → s.cfg.swapping = false →
    s.cfg.shadow = .valid → s.cfg.image = some x → u = s.setFld F.cfgSwap_PERSIST (if persist then 1 else 0) →
    (∀ code, u.swapRefusal x = some code → exec (.cfgSwap port persist) s = .next ((u.swapEnd code).regRsp port 0 false)) ∧
    (∀ (v : State) (c : Cfg), u.swapRefusal x = none → x.keymap = [] →
      c = { u.cfg with swapping := true, persist := persist, shadow := .preparing, allocated := [] } →
      v = ({ u with cfg := c }).allocKeymap x → v.kidxConflict x = false →
      exec (.cfgSwap port persist) s = .next (v.regRsp port 0 false))) ∧
  (∀ (s : State) (x : Pesum), s.cfg.swapping = true → s.cfg.image = some x →
    (∀ code, s.swapRefusal x = some code → exec .swapEffect s = .next (s.swapRefuse code).takeWaiting) ∧
    (s.swapRefusal x = none → s.kidxConflict x = true → exec .swapEffect s = .next (s.swapRefuse 6).takeWaiting) ∧
    (s.swapRefusal x = none → s.kidxConflict x = false → exec .swapEffect s = .next (s.swapIn x).takeWaiting)) ∧
  (∀ (s u : State), s.cfg.persisting = true →
    u = { s with cfg := { s.cfg with persisting := false, persistBytes := [] } } →
    (∀ st : Store, st = { s.store with config := some s.cfg.persistBytes } →
      exec (.cfgPersist true) s = .next { u with store := st }) ∧
    exec (.cfgPersist false) s = .next ((u.incFld F.cfgErr_PERSIST_FAIL).record .cfgFail .config 0 none 257 0))

/-- R410, R411: an abort that names no object is refused with RESULT 1; the abort of a queue is a clearing of its ENABLE,
whose records are written when its engines drained; that of a mailbox session ends it. The reset of the SCU that drained and
passes its tests ends DONE, with an ENGINE_RESET record. Completes: FLT_ABORT, FLT_RESET. -/
def Obligations.AbortReset : Prop :=
  (∀ (s : State) (port : Nat) (i : BitVec 13) (d : Bool), s.owner port → s.fld F.fltAbort_BUSY ≠ 1 → 256 ≤ i.toNat →
    exec (.fltAbort port 1 i d) s = .next ((((s.setFld F.fltAbort_TYPE 1).setFld F.fltAbort_INDEX i.toNat).abortEnd
      1).regRsp port 0 false)) ∧
  (∀ (s : State) (port : Nat) (i : BitVec 13) (d : Bool), s.owner port → s.fld F.fltAbort_BUSY ≠ 1 → i.toNat < 256 →
    exec (.fltAbort port 1 i d) s = .next ((((s.setFld F.fltAbort_TYPE 1).setFld F.fltAbort_INDEX i.toNat).abortQueueObj
      i.toNat d).regRsp port 0 false)) ∧
  (∀ (s : State) (port : Nat) (i : BitVec 13) (d : Bool), s.owner port → s.fld F.fltAbort_BUSY ≠ 1 → i.toNat < 65 →
    exec (.fltAbort port 3 i d) s = .next (((((s.setFld F.fltAbort_TYPE 3).setFld F.fltAbort_INDEX i.toNat).endSession
      i.toNat).abortEnd 0).regRsp port 0 false)) ∧
  (∀ (s : State) (port : Nat) (i : BitVec 6), s.owner port → s.fld F.fltReset_BUSY ≠ 1 → ∀ (u : State) (rest : List Nat), rest = s.units.dead.filter (· != 3) →
    u = ((s.setFld F.fltReset_UNIT 3).setFld F.fltReset_INDEX i.toNat).setFld F.fltReset_BUSY 1 →
    exec (.fltReset port 3 i true 0) s = .next ((({ u with units := { s.units with dead := rest } }).resetEnd .scu 0 0).regRsp port 0 false))

/-- R417, R419: a warm-reset request raises lz_warm_req once and the block goes on serving; a power-cycle request is
recorded and stands until PWR_STOP; while it stands a signed request message goes to the tray controller. Completes:
WARM_REQ, PWR_REQ, PWR_STOP, POWER_CYCLE_SEND. -/
def Obligations.ChipRequests : Prop :=
  (∀ (s : State) (port : Nat), s.owner port → s.life.warmReq = false →
    exec (.warmReq port) s = .next ((({ s.setFld F.fltCtl_WARM_REQ 1 with life := { s.life with warmReq := true } }).emit
      (.warmReq true)).regRsp port 0 false)) ∧
  (∀ (s : State) (port : Nat), s.owner port → s.units.pwrReq = false →
    exec (.pwrReq port) s = .next ((({ s.setFld F.fltCtl_PWR_REQ 1 with units := { s.units with pwrReq := true }
      }).record .powerCycleReq .fault 0 none (s.fld F.fltCtl_REASON) 0).regRsp port 0 false)) ∧
  (∀ (s : State) (port : Nat), s.owner port → exec (.pwrStop port) s = .next (({ s.setFld F.fltCtl_PWR_REQ 0 with
    units := { s.units with pwrReq := false } }).regRsp port 0 false)) ∧
  (∀ s : State, s.units.pwrReq = true → s.life.powered = true → s.predOk = true → ∃ sig, sig.length = 96 ∧
    exec .powerCycleSend s = .next ((s.reseed.drew.pkuOwn 1).emit (.mctp ([0x7F] ++ s.powerRecord ++ sig))))

/-- R405, R420, R421: the oldest staged record, with no freeze, takes the ring's head and the next sequence, is traced, and
sets the class bit of an event above INFO; while FROZEN it is dropped and counted. FREEZE and UNFREEZE set and clear FROZEN.
Completes: GLEANER_RECORD, FREEZE, UNFREEZE, PEER_COPY. -/
def Obligations.Gleaner : Prop :=
  (∀ (s : State) (r : Staged) (rest : List Staged), s.faults.staging = r :: rest → s.faults.frozen = false →
    r.sev = .notice → s.faults.lost = false → r.rehearsal = false → ∀ u : State,
    u = ({ s with faults := { s.faults with staging := rest } }).trace 0 2 (r.src.at r.inst) r.part r.ev.code s.faults.seq
      0 false →
    exec .gleanerRecord s = .next (({ u with faults := { s.faults with
      staging := rest,
      ring := tput s.faults.ring s.faults.head ⟨s.life.time, s.faults.seq, r.src.code * 256 + r.inst % 256, r.ev.code,
        r.part.getD 0xFF, 1, r.arg0 % 2 ^ 32, r.arg1 % 2 ^ 64⟩,
      head := (s.faults.head + 1) % 4096,
      seq := (s.faults.seq + 1) % 2 ^ 32,
      wrapped := s.faults.wrapped || s.faults.head + 1 == 4096 } }).pend r.ev.cls)) ∧
  (∀ (s : State) (r : Staged) (rest : List Staged), s.faults.staging = r :: rest → s.faults.frozen = true →
    exec .gleanerRecord s = .next { s.incFld F.glnStat_DROPPED with
      faults := { s.faults with staging := rest, lost := true } }) ∧
  (∀ (s : State) (port : Nat), s.owner port →
    (exec (.freeze port) s = .next (({ s with faults := { s.faults with frozen := true } }).regRsp port 0 false)) ∧
    (exec (.unfreeze port) s = .next (({ s with faults := { s.faults with frozen := false } }).regRsp port 0 false))) ∧
  (∀ (s : State) (port i : Nat), s.owner port → s.fld F.glnCtl_BUSY ≠ 1 →
    s.operandRow 0 true (s.fld F.glnArg_ADDR) (64 + 4096 * 32) 1 = some i → (s.row i).kind = .tilled →
    s.pair.image.held = true → ∀ x, x = s.maintBytes (s.row i).part (s.fld F.glnArg_ADDR)
      (peerImage (match s.pairPlot with | some p => p.partnerId | none => 0) s.pair.image) →
    exec (.peerCopy port) s = .next ((x.2.setFld F.glnCtl_RESULT (if x.1 then 0 else 2)).regRsp port 0 false))

/-- R424: a TAG injection that the active REHEARSAL plot permits, within its rate, is recorded as a rehearsal and arms the
tag fault at the canary line; the expiry of an armed one that no read took ends it EXPIRED. Completes: INJECT,
INJECT_EXPIRY. -/
def Obligations.Rehearsal : Prop :=
  (∀ (s : State) (port : Nat) (dbl : Bool) (tg : BitVec 8) (c : Pesum) (p : RehPlot), s.owner port →
    s.fld F.fltInject_BUSY ≠ 1 → s.cfg.active = some c → c.rehearsal = some p → ∀ u : State,
    u = ((s.setFld F.fltInject_KIND 1).setFld F.fltInject_DOUBLE (if dbl then 1 else 0)).setFld F.fltInject_TARGET
      tg.toNat →
    p.permits 1 tg.toNat (s.fld F.fltInjarg_LINE) (s.row p.canary) = true → s.injectRate p = false →
    ∀ line, line = (s.row p.canary).base * linesPerGranule + s.fld F.fltInjarg_LINE →
    exec (.inject port 1 dbl tg) s = .next ((((({ u with faults := { s.faults with
      injTimes := s.life.time :: s.faults.injTimes } }).record .inject .fault 0 none 1 (line * 64) true).setFld F.fltInject_BUSY 1).applyInject 1 dbl
      tg.toNat line).regRsp port 0 false)) ∧
  (∀ (s : State) (i : TagInject), s.fld F.fltInject_BUSY ≠ 0 → s.fld F.fltInject_KIND = 1 → s.faults.tagInject = some i →
    i.taken = none → exec .injectExpiry s = .next (({ s with faults := { s.faults with tagInject := none } }).injectEnd 4))

/-- R407, R425: from phase BOOT the reeve counts LZ_HEARTBEAT, modulo 2^64; a sample of a sensor that stays above its
thresholds shows its codes and their minima, and one of an attachment that is not served shows VALID 0. Completes:
REEVE_HEARTBEAT, HEARTBEAT, MARGIN_SAMPLE. -/
def Obligations.Telemetry : Prop :=
  (∀ s : State, s.life.powered = true → 5 ≤ s.life.phase → s.life.phase ≠ 10 →
    exec .reeveHeartbeat s = .next (s.wr .heartbeat ((s.rd .heartbeat + 1) % 2 ^ 64))) ∧
  (∀ (s : State) (n : Nat) (a b : BitVec 8), n < 32 → s.life.powered = true → s.marginLow n a.toNat 0 = false →
    exec (.marginSample n a b true) s = .next (s.showMargin n a.toNat 0)) ∧
  (∀ (s : State) (n : Nat) (a b : BitVec 8), 32 ≤ n → n < 68 → s.life.powered = true → s.served (n - 32) = false →
    exec (.marginSample n a b true) s = .next (s.setFld F.margin_VALID 0 n))

/-- R51, R54, R55, R57, R119, R135, R457, R465: a request transfers when its class's ready is high and is queued at its
lane, or refused under items 1 to 5 of R57; a transaction identifier that is in use stops the model; the first part of a
spanning request waits, and is refused when its partner does not come; a lane grants the request, or the engine work, that
its arbiter chose when the throttle's budget allows it and withholds it otherwise, but never a RADIO request; a throttle
window passes its estimate on. Completes: MEMORY_REQUEST, SPAN_PART_TIMEOUT, LANE_GRANT, THROTTLE_WINDOW. -/
def Obligations.MemoryRequests : Prop :=
  (∀ (s u : State) (g : Nat) (r : MemReq) (t : Txn), g < 40 → s.mreqReady g r.cls.toNat = true →
    s.mem.tids.contains (g * 1024 + r.tid.toNat) = false → r.span = 0 →
    t = { id := s.mem.nextId, lane := (s.laneOf g).getD 63, grp := g, req := r, pre := s.refusedAtTransfer g r } →
    u = { s with mem := { s.mem with tids := (g * 1024 + r.tid.toNat) :: s.mem.tids, nextId := s.mem.nextId + 1 } } →
    (s.refusedAtTransfer g r = none → exec (.memoryRequest g r) s = .next (u.enqueue t)) ∧
    (∀ x : Nat × Status, s.refusedAtTransfer g r = some x → exec (.memoryRequest g r) s = .next (u.refuseEarly t x))) ∧
  (∀ (s : State) (g : Nat) (r : MemReq), g < 40 → s.mreqReady g r.cls.toNat = true →
    s.mem.tids.contains (g * 1024 + r.tid.toNat) = true → exec (.memoryRequest g r) s = .fault .tidReused) ∧
  (∀ (s : State) (g : Nat) (r : MemReq), s.mreqReady g r.cls.toNat = false → exec (.memoryRequest g r) s = .next s) ∧
  (∀ (s : State) (g : Nat) (tid : BitVec 10) (u : Txn),
    s.mem.spans.find? (fun u => u.grp == g && u.req.tid == tid) = some u → ∀ v : State,
    v = { s with mem := { s.mem with spans := s.mem.spans.filter fun v => !(v.id == u.id) } } →
    exec (.spanPartTimeout g tid) s = .next (v.refuseEarly u (1, .regionFault))) ∧
  (∀ (s u : State) (n cycles e : Nat) (t : Txn) (l : Lane), n < 44 → u = s.refill n cycles → u.choose n = .work t l →
    e = grantEnergy (grantCycles (reqLines t.req)) →
    (u.fits e = true → exec (.laneGrant n cycles) s =
      .next ((((u.setLane n l).debit n (u.chargePart t) (reqLines t.req)).spend e).grant t).fitCache) ∧
    (u.fits e = false → exec (.laneGrant n cycles) s = .next u.withhold)) ∧
  (∀ (s u : State) (n cycles e : Nat) (m : Maint) (l : Lane), n < 44 → u = s.refill n cycles → u.choose n = .maint m l →
    e = grantEnergy (grantCycles m.lines) →
    (u.fits e = true → exec (.laneGrant n cycles) s = .next (((u.setLane n l).spend e).grantMaint n m)) ∧
    (u.fits e = false → exec (.laneGrant n cycles) s = .next u.withhold)) ∧
  (∀ (s u : State) (n cycles : Nat) (t : Txn), n < 44 → u = s.refill n cycles → u.choose n = .radio t →
    exec (.laneGrant n cycles) s = .next ((u.spend (grantEnergy (grantCycles (reqLines t.req)))).grant t).fitCache) ∧
  (∀ (s u : State), u = (if s.throttle.withheld then s.incFld F.pwrRamp_DELAYED else s) → ∀ x : Throttle,
    x = { estimate := 0, prev := s.throttle.estimate, ramp := u.fld F.pwrRamp_RAMP, withheld := false,
          throttling := s.throttle.withheld } → exec .throttleWindow s = .next { u with throttle := x })

/-- R29, R31, R53, R58, R59, R94, R106, R123 to R125, R127 to R130: the memory controller accepts the first access offered
to it, and its beats fill the read it serves; a read whose lines are all returned and verified completes; a re-read line
that verifies or fails ends its read with the first failure recorded; the RADIO response, or else the oldest, is released
with its identifier free again; a held write whose reads have all passed takes its effect, unless its region's life has
ended since; a metadata line is verified as it arrives. Completes: DMC_ACCESS_ACCEPT, DMC_READ_DATA, TAG_VERDICT,
REREAD_VERDICT, READ_RELEASE, STILE_RELEASE, METADATA_LINE_ARRIVAL. -/
def Obligations.ReadsAndVerdicts : Prop :=
  (∀ (s u : State) (g : Nat) (a : Access), s.mem.accesses.find? (fun a => a.grp == g && !a.accepted) = some a →
    u = s.emit (.dmc a) → a.data ≠ [] → a.maint = false →
    exec (.dmcAccessAccept g) s = .next ((u.dropAccess a).withMem { (u.dropAccess a).mem with
      wbuf := (u.dropAccess a).mem.wbuf.filter fun w => w.tag != some a.tag || w.lane != a.lane })) ∧
  (∀ (s u : State) (g : Nat) (a : Access) (l : List Access), u = s.emit (.dmc a) → a.data = [] →
    s.mem.accesses.find? (fun a => a.grp == g && !a.accepted) = some a →
    l = updWhere (fun x => x.grp == g && x.tag == a.tag) (fun x => { x with accepted := true }) u.mem.accesses →
    exec (.dmcAccessAccept g) s = .next (u.withMem { u.mem with accesses := l })) ∧
  (∀ (s u : State) (g : Nat) (tag : BitVec 12) (b : DmcBeat) (a : Access) (id : Nat) (l : List Access) (rs : List Rd),
    s.accessOf g tag = some a → a.got < a.n → a.n ≤ a.got + 1 → a.purpose = .read id → a.maint = false →
    l = updWhere (fun x => x.grp == g && x.tag == tag) (fun x => { x with got := x.got + 2 }) s.mem.accesses →
    rs = updWhere (·.txn.id == id) (fun r => { r with lines := storeLine (a.line + a.got) b.lo b.sbLo b.err r.lines }) s.mem.reads →
    u = s.withMem { s.mem with accesses := l, reads := rs } →
    exec (.dmcReadData g tag b) s = .next (u.tryEarly id)) ∧
  (∀ (s u : State) (g : Nat) (tag : BitVec 12) (a : Access) (id : Nat) (r : Rd) (ls : List LineRd), s.accessOf g tag = some a →
    a.n ≤ a.got → a.purpose = .read id → s.mem.reads.find? (fun r => r.txn.id == id) = some r →
    (∀ l ∈ r.lines, l.ctr.isSome = true) → (s.dropAccess a).judgeLines r.txn.lane id
      (fun l => decide (a.line ≤ l ∧ l < a.line + a.n)) r.lines = (ls, u) → r.early = false → ∀ r' : Rd,
    r' = { r with lines := ls } →
    exec (.tagVerdict g tag) s = .next (if r'.settled then u.finishRead r' else u.setRead r')) ∧
  (∀ (s : State) (g : Nat) (tag : BitVec 12) (a : Access) (id line : Nat) (r : Rd) (ok : Bool) (l' : LineRd),
    s.accessOf g tag = some a → a.purpose = .reread id line → s.mem.reads.find? (fun r => r.txn.id == id) = some r →
    (r.lines.find? (·.line == line)).bind s.secondVerdict = some (ok, l') → r.early = false → ∀ (u : State) (r' : Rd),
    u = (s.dropAccess a).tagFirst a.lane r.txn.req.part.toNat line ok false (s.injected id) →
    r' = { r with lines := updWhere (·.line == line) (fun _ => l') r.lines } →
    exec (.rereadVerdict g tag) s = .next (if r'.settled then u.finishRead r' else u.setRead r')) ∧
  (∀ (s u : State) (g : Nat) (x : Rsp), s.mem.rsps.filter (·.grp == g) = [x] → x.prov = false →
    u = s.withMem { s.mem with rsps := s.mem.rsps.filter fun y => !(y.id == x.id && y.grp == g) } →
    exec (.readRelease g) s = .next (((u.emit (.mrsp g x.tid x.status (beatsFrom 0 x.data) false)).freeTid g
      x.tid).laneProgress x.lane)) ∧
  (∀ (s u v w : State) (h row : Nat) (e : Held) (t : Txn), s.mem.held.find? (·.id == h) = some e → e.deps = [] →
    s.mem.held.any (fun x => x.id < h && sameLane x e) = false → e.what = .mem t row → u = (s.heldTime e).count 457 1 →
    v = u.withMem { u.mem with held := u.mem.held.filter fun x => !(x.id == h) } → w = v.holdLevel t.lane e.part →
    ((w.row row).epoch = e.epoch → exec (.stileRelease h) s = .next ((w.topUp t row).performWrite t row).fitCache) ∧
    ((w.row row).epoch ≠ e.epoch → exec (.stileRelease h) s = .next w)) ∧
  (∀ (s u : State) (g : Nat) (tag : BitVec 12) (line : Line) (sb : BitVec 64) (err : Bool) (a : Access) (level idx : Nat),
    s.accessOf g tag = some a → a.purpose = .mdata level idx → u = s.dropAccess a → ∀ x : MetaArr,
    x = ⟨level, idx, line, sb, err, false⟩ → ∀ v : State,
    v = { u with rgn := { u.rgn with arrived := u.rgn.arrived ++ [x] } } →
    exec (.metadataLineArrival g tag line sb err) s = .next v.settleMeta.fitCache)

/-- R106, R108, R146, R161, R187, R188: a lane short of credit asks for it, and the oldest request is decided with the
writes that waited; keys that wait for a successor or a job record try again; a page whose move is settled takes a new major
and unlocks; a resident clean counter line that nothing pins leaves the cache, and one that a radio region, a re-tag or a
closed page pins stays; a re-tag record passes a child that was never written. Completes: CREDIT_REQUEST, CREDIT_DECISION,
NOSUCC_RETRY, AUTO_START_RETRY, PAGE_UNLOCK, COUNTER_EVICT, NODE_RETAG. -/
def Obligations.CreditsAndCounters : Prop :=
  (∀ (s : State) (n : Nat) (slot : BitVec 16), n < 44 → (s.slot slot.toNat).kind = .memory → s.credit n slot.toNat < 1024 →
    exec (.creditRequest n slot) s = .next (s.askCredit n slot.toNat)) ∧
  (∀ (s u : State) (c : CreditReq) (rest : List CreditReq), s.keys.creditReqs = c :: rest → s.mem.waitCredit = [] →
    u = ({ s with keys := { s.keys with creditReqs := rest } }).grantCredit c.lane c.slot → u.mem.waitCredit = [] →
    exec .creditDecision s = .next (u.withMem { u.mem with waitCredit := [] }).fitCache) ∧
  (∀ (s u : State) (k : Nat), s.keys.noSucc = [k] → u = s.obtainSucc k →
    exec .nosuccRetry s = .next (if (u.slot k).succ ≠ 0 then u.autoStart k else u)) ∧
  (∀ (s u : State) (k : Nat), s.keys.autoWait = [k] → u = s.autoStart k →
    exec .autoStartRetry s = .next (if u.keys.metaWait then u.autoMeta else u)) ∧
  (∀ (s u v w : State) (n page : Nat) (m : Move) (c : CtrLine), s.mem.moves.find? (fun m => m.lane == n && m.page == page) =
      some m → m.lines = [] → m.fresh = [] → s.wbufRoom n 0 = true →
    u = s.withMem { s.mem with moves := s.mem.moves.filter fun x => !(x.lane == n && x.page == page) } →
    v = u.cycles.2.trace 2 7 (Src.lane.at n) (some (u.row m.row).part) (0x100 + n)
      (u.cycles.2.mem.ingress.filter fun x => reqPage x.req == page).length u.cycles.1 →
    c = ⟨v.drawEpoch.1, (List.range 64).map fun i => if m.old.minor i ≠ 0 then 1 else 0⟩ →
    w = v.drawEpoch.2.setNode 1 (v.drawEpoch.2.spanPage page) c → exec (.pageUnlock n page) s =
    .next (((w.maintWrites n (w.lineSlot m.row ((u.row m.row).offset (page * 64)) c.major) 0).resolveReads).resolveWrites).fitCache) ∧
  (∀ (s : State) (level idx : Nat) (c : Cached), s.cachedNode level idx = some c → 1 ≤ level → level < 4 →
    (s.pinnedMeta level idx = false → c.dirty = false →
      exec (.counterEvict level idx) s = .next (s.uncache level idx)) ∧
    (s.pinnedMeta level idx = true → exec (.counterEvict level idx) s = .next s)) ∧
  (∀ (s : State) (r : Nat) (t : Retag), s.harrow.retags[r]? = some t → t.old.minor t.cursor = 0 → t.cursor < 63 →
    ∀ rs : List Retag, rs = s.harrow.retags.set r { t with cursor := t.cursor + 1, fetched := false } →
    exec (.nodeRetag r) s = .next { s with harrow := { s.harrow with retags := rs } })

/-- R70, R71, R126, R134, R294: a commit is taken while fewer than 16 are outstanding and withholds the chunks of its step's
unfilled segments; the oldest commit, with nothing held or unjudged, gets its stile event, with the POISONED kind when it is
poisoned; one evented and mirrored completes with its status, is counted, and its entry is IDLE again; a mirror that is not
acknowledged in time lets it complete LOCAL. R73, R76: a halt is acknowledged when nothing of its partition is outstanding
and no commit of it is pending, and a resume lowers the acknowledgement; a reset domain's fence is acknowledged when nothing
of the domain is outstanding, falls with its request, and overruns with a FENCE_OVERRUN record. Completes: STEP_COMMIT,
STILE_EVENT, STEP_DONE, MIRROR_TIMEOUT, ACC_HALT, HALT_ACK, ACC_RESUME, RDOM_FENCE, RDOM_FENCED, RDOM_UNFENCE,
FENCE_OVERRUN. -/
def Obligations.CommitsAndFences : Prop :=
  ((∀ (s : State) (t : BitVec 12), s.life.blkFence = false → s.life.lc ≠ .endOfLife → s.stile.commits.length < 16 →
      (s.stepEnt t.toNat).st ≠ .committing → ∀ u : State,
      u = s.setStepEnt t.toNat { s.stepEnt t.toNat with st := .committing } →
      exec (.stepCommit t) s = .next (({ u with stile := { u.stile with commits := s.stile.commits ++ [t.toNat]
        } }).commitSegs t.toNat)) ∧
    (∀ (s : State) (t : BitVec 12), s.nextEvent = some t.toNat → s.readsOpen t.toNat = false →
      s.mem.held.any (·.step == t.toNat) = false → (s.part (s.stepEnt t.toNat).part).haltAck = false →
      (s.stepEnt t.toNat).heldEver = false → (s.stepEnt t.toNat).poisoned = false →
      exec (.stileEvent t) s = .next ((s.setStepEnt t.toNat { s.stepEnt t.toNat with evented := true }).mirrorCommit
        t.toNat)) ∧
    (∀ (s : State) (t : BitVec 12), s.nextEvent = some t.toNat → s.readsOpen t.toNat = false →
      s.mem.held.any (·.step == t.toNat) = false → (s.part (s.stepEnt t.toNat).part).haltAck = false →
      (s.stepEnt t.toNat).poisoned = true → ∀ u : State,
      u = ((s.cycles.2.trace 2 5 (Src.stile.at 0) (some (s.stepEnt t.toNat).part) t.toNat 1 s.cycles.1).emit
        (.stileEvt t.toNat 1)) →
      exec (.stileEvent t) s = .next ((u.setStepEnt t.toNat { u.stepEnt t.toNat with evented := true }).mirrorCommit
        t.toNat)) ∧
    (∀ (s : State) (t : BitVec 12), s.stile.commits.head? = some t.toNat → (s.stepEnt t.toNat).evented = true →
      (s.stepEnt t.toNat).poisoned = true → (s.stepEnt t.toNat).mirrored = some 0 →
      s.writesPending (s.stepEnt t.toNat).upto = false → ∀ u x v : State,
      u = (s.emit (.stepDone t.toNat 1)).count 459 1 →
      x = (u.cycles.2.trace 2 8 (Src.stile.at 0) (some (s.stepEnt t.toNat).part) t.toNat 1 u.cycles.1) →
      v = { x with stile := { steps := tdel (x.stile.steps.map fun (e : Nat × StepEnt) => (e.1, { e.2 with
        boundTo := e.2.boundTo.filter (· != t.toNat) })) t.toNat, commits := x.stile.commits.drop 1 } } →
      exec (.stepDone t) s = .next (v.tellSheaves t.toNat 1)) ∧
    (∀ (s : State) (t : BitVec 12), (s.stepEnt t.toNat).st = .committing → (s.stepEnt t.toNat).evented = true →
      (s.stepEnt t.toNat).mirrored = none → ∀ u : State,
      u = s.setStepEnt t.toNat { s.stepEnt t.toNat with mirrored := some 2 } → exec (.mirrorTimeout t) s =
      .next (u.withPair { u.pair with unacked := u.pair.unacked.filter fun r =>
        (s.stepEnt t.toNat).mirrorSeq != some r.seq }).mirrorWaiting)) ∧
  ((∀ (s : State) (p : BitVec 6), exec (.accHalt p) s = .next (s.setPart p.toNat { s.part p.toNat with halt := true })) ∧
    (∀ (s : State) (p : BitVec 6), (s.part p.toNat).halt = true → (s.part p.toNat).haltAck = false →
      s.outsReset = false → s.partBusy p.toNat = false → s.stile.commits.any (fun t => (s.stepEnt t).part == p.toNat) = false → ∀ u : State,
      u = s.cycles.2.setPart p.toNat { s.part p.toNat with haltAck := true } →
      exec (.haltAck p) s = .next ((u.trace 2 9 (Src.stile.at 0) (some p.toNat) 0 s.cycles.1 0).emit
        (.haltAck p.toNat true))) ∧
    (∀ (s : State) (p : BitVec 6), (s.part p.toNat).haltAck = true → ∀ u : State,
      u = s.setPart p.toNat { s.part p.toNat with halt := false, haltAck := false } →
      exec (.accResume p) s = .next ((u.cycles.2.trace 2 9 (Src.stile.at 0) (some p.toNat) 1 u.cycles.1 0).emit
        (.haltAck p.toNat false))) ∧
    (∀ (s : State) (d : BitVec 3), exec (.rdomFence d) s = .next (s.setRdom d.toNat { s.rdom d.toNat with fence := true })) ∧
    (∀ (s : State) (d : BitVec 3), (s.rdom d.toNat).fence = true → (s.rdom d.toNat).fenced = false →
      s.outsReset = false → s.rdomBusy d.toNat = false →
      exec (.rdomFenced d) s = .next ((s.setRdom d.toNat { s.rdom d.toNat with fenced := true }).emit
        (.rdomFenced d.toNat true))) ∧
    (∀ (s : State) (d : BitVec 3), (s.rdom d.toNat).fenced = true →
      exec (.rdomUnfence d) s = .next ((s.setRdom d.toNat {}).emit (.rdomFenced d.toNat false))) ∧
    (∀ (s : State) (d : BitVec 3), (s.rdom d.toNat).fence = true → (s.rdom d.toNat).fenced = false →
      exec (.fenceOverrun d) s = .next (s.record .fenceOverrun .fault 0 none d.toNat 0)))

/-- R141, R14: BIST_START of a lane that is SPARE or BYPASSED shows PASS, or FAIL with the failing stage, which is recorded;
the outcome is kept, and RETURN makes a BYPASSED lane whose last test passed a spare. R141, R42: SWAP of an ACTIVE lane
tests the SPARE it names, which no other lane's SWAP names; one that passes is marked for the switch-over, with RESULT
RUNNING. The switch-over, of a SWAP or of a fault, then gives the spare that passed the lane's group and leaves the lane
draining, or bypassed when nothing of it is left. Completes: LANE_BIST_START, LANE_RETURN, LANE_SWAP, SWITCHOVER. -/
def Obligations.LaneTests : Prop :=
  ((∀ (s : State) (port n : Nat), s.owner port → n < 44 → s.fld F.laneBist_RESULT n ≠ 1 →
      ((s.lane n).role = .spare ∨ (s.lane n).role = .bypassed) →
      exec (.laneBistStart port n 0) s = .next ((((s.setLane n { s.lane n with bistOk := true }).setFld
        F.laneBist_RESULT 2 n).setFld F.laneBist_FAIL_STAGE 0 n).regRsp port 0 false) ∧
      ∀ out : Nat, 0 < out → out ≤ 5 → exec (.laneBistStart port n out) s = .next (((((s.setLane n { s.lane n with
        bistOk := false }).setFld F.laneBist_RESULT 3 n).setFld F.laneBist_FAIL_STAGE out n).record .bistFail .lane n none
        out 0).regRsp port 0 false)) ∧
    (∀ (s : State) (port n : Nat), s.owner port → n < 44 → s.fld F.laneBist_RESULT n ≠ 1 →
      (s.lane n).role = .bypassed → (s.lane n).bistOk = true →
      exec (.laneReturn port n) s = .next (((s.setLane n { s.lane n with role := .spare }).setFld F.laneBist_RESULT 0
        n).regRsp port 0 false))) ∧
  ((∀ (s : State) (port n : Nat) (sp : BitVec 6), s.owner port → n < 44 → sp.toNat < 44 → s.fld F.laneBist_RESULT n ≠ 1 →
      (s.lane n).role = .active → (s.lane n).swapTo = none → (s.lane sp.toNat).role = .spare → s.whyLane n ≠ 2 →
      (∀ m < 44, (s.lane m).swapTo ≠ some sp.toNat) →
      exec (.laneSwap port n sp 0) s = .next ((((((s.setFld F.laneBist_SPARE sp.toNat n).setLane sp.toNat
        { s.lane sp.toNat with bistOk := true }).setLane n { s.lane n with swapTo := some sp.toNat }).setFld
        F.laneBist_RESULT 1 n).setFld F.laneBist_SWAP 1 n).regRsp port 0 false)) ∧
    (∀ (s : State) (n sp : Nat), n < 44 → (s.lane n).role = .active → (s.lane n).swapTo = some sp → sp ≠ n →
      Completes (.switchover ⟨1, 0⟩ n) s fun t => (t.lane sp).group = (s.lane n).group ∧ (t.lane sp).role = .active ∧
        ((t.lane n).role = .draining ∨ (t.lane n).role = .bypassed) ∧
        t = { s with regs := t.regs, mem := t.mem, faults := t.faults, obs := t.obs }) ∧
    (∀ (s : State) (n sp : Nat), n < 44 → (s.lane n).role = .active → (s.lane n).swapTo = none → s.spareLane = some sp →
      sp ≠ n → Completes (.switchover ⟨1, 0⟩ n) s fun t => (t.lane sp).group = (s.lane n).group ∧
        (t.lane sp).role = .active ∧ (t.lane sp).bistOk = true ∧
        ((t.lane n).role = .draining ∨ (t.lane n).role = .bypassed)))

/-- R272, R14: the owner's commands of a port: BIST_START of a SPARE or BYPASSED port that passes, SWAP of a serving port to
a SPARE that passes and that no other SWAP names, and RETURN of a BYPASSED port whose last test passed; the switch-over of a
port gives the spare its attachment and role and leaves it draining or bypassed. Completes: PORT_BIST_START, PORT_SWAP,
PORT_RETURN, SWITCHOVER. -/
def Obligations.PortTest : Prop :=
  (∀ (s : State) (port n : Nat), s.owner port → n < 40 → s.fld F.portBist_RESULT n ≠ 1 →
    ((s.port n).role = .spare ∨ (s.port n).role = .bypassed) →
    exec (.portBistStart port n 0) s = .next ((((s.setPort n { s.port n with bistOk := true }).setFld
      F.portBist_RESULT 2 n).setFld F.portBist_FAIL_STAGE 0 n).regRsp port 0 false)) ∧
  (∀ (s : State) (port n : Nat) (sp : BitVec 6), s.owner port → n < 40 → sp.toNat < 40 → s.fld F.portBist_RESULT n ≠ 1 →
    (s.port n).serves = true → (s.port n).swapTo = none → (s.port sp.toNat).role = .spare →
    (∀ m < 40, (s.port m).swapTo ≠ some sp.toNat) →
    exec (.portSwap port n sp 0) s = .next ((((((s.setFld F.portBist_SPARE sp.toNat n).setPort sp.toNat
      { s.port sp.toNat with bistOk := true }).setPort n { s.port n with swapTo := some sp.toNat }).setFld
      F.portBist_RESULT 1 n).setFld F.portBist_SWAP 1 n).regRsp port 0 false)) ∧
  (∀ (s : State) (port n : Nat), s.owner port → n < 40 → s.fld F.portBist_RESULT n ≠ 1 →
    (s.port n).role = .bypassed → (s.port n).bistOk = true →
    exec (.portReturn port n) s = .next (((s.setPort n { s.port n with role := .spare }).setFld F.portBist_RESULT 0
      n).regRsp port 0 false)) ∧
  (∀ (s : State) (n sp : Nat), n < 40 → (s.port n).serves = true → (s.port n).swapTo = some sp → sp ≠ n →
    Completes (.switchover ⟨2, 0⟩ n) s fun t => (t.port sp).att = (s.port n).att ∧ (t.port sp).role = (s.port n).role ∧
      ((t.port n).role = .draining ∨ (t.port n).role = .bypassed))

/-- R223, R14: the owner's commands of a Keccak core: BIST_START of a SPARE or BYPASSED core that passes, SWAP of an ACTIVE
core's work to a spare that passes its test, which waits RUNNING for the switch-over, the switch-over, and RETURN. R427,
R182, R43: the units of LZ_FLT_UNIT: BIST_START, SWAP and RETURN by the owner; a key-cache row that fails its check is
switched over to a spare row that passes its test; and an ACTIVE lane without a spare left is out of service, with the
event. Completes: STV_BIST_START, STV_BIST_SWAP, SWITCHOVER, STV_BIST_RETURN, UNIT_BIST_START, UNIT_SWAP, UNIT_RETURN,
KEY_ROW_CHECK_FAIL, UNIT_OUT_OF_SERVICE. -/
def Obligations.CoreAndUnitTests : Prop :=
  ((∀ (s : State) (port : Nat) (c : BitVec 7), s.owner port → c.toNat < 68 → s.fld F.stvBist_RESULT ≠ 1 →
      ((s.core c.toNat).role = .spare ∨ (s.core c.toNat).role = .bypassed) →
      exec (.stvBistStart port c 0) s = .next (((((s.setFld F.stvBist_CORE c.toNat).setCore c.toNat
        { s.core c.toNat with bistOk := true }).setFld F.stvBist_RESULT 2).setFld F.stvBist_FAIL_STAGE 0).regRsp port 0
        false)) ∧
    (∀ (s : State) (port : Nat) (c sp : BitVec 7), s.owner port → c.toNat < 68 → sp.toNat < 68 →
      s.fld F.stvBist_RESULT ≠ 1 → (s.core c.toNat).role = .active → (s.core sp.toNat).role = .spare →
      ∀ u : State, u = ((s.setFld F.stvBist_CORE c.toNat).setFld F.stvBist_SPARE sp.toNat).setCore sp.toNat
        { s.core sp.toNat with bistOk := true } → exec (.stvBistSwap port c sp 0) s = .next ((((u.setCore c.toNat
        { u.core c.toNat with swapTo := some sp.toNat }).setFld F.stvBist_RESULT 1).setFld F.stvBist_SWAP 1).regRsp port 0
        false)) ∧
    (∀ (s : State) (c sp : Nat), c < 68 → (s.core c).role = .active → (s.core c).swapTo = some sp →
      exec (.switchover ⟨3, 0⟩ c) s = .next (s.steerCore c sp 0)) ∧
    (∀ (s : State) (port : Nat) (c : BitVec 7), s.owner port → c.toNat < 68 → s.fld F.stvBist_RESULT ≠ 1 →
      (s.core c.toNat).role = .bypassed → (s.core c.toNat).bistOk = true →
      exec (.stvBistReturn port c) s = .next ((((s.setFld F.stvBist_CORE c.toNat).setCore c.toNat
        { s.core c.toNat with role := .spare }).setFld F.stvBist_RESULT 0).regRsp port 0 false))) ∧
  ((∀ (s : State) (port : Nat) (ty : BitVec 3) (i : BitVec 15), s.owner port → unitIndexOk ty.toNat i.toNat = true →
      s.fld F.fltUnit_RESULT ≠ 1 →
      ((s.unitOf ty.toNat i.toNat).role = .spare ∨ (s.unitOf ty.toNat i.toNat).role = .bypassed) →
      exec (.unitBistStart port ty i 0) s = .next (((((s.setFld F.fltUnit_TYPE ty.toNat).setFld F.fltUnit_INDEX
        i.toNat).setUnit ty.toNat i.toNat { s.unitOf ty.toNat i.toNat with bistOk := true }).setFld F.fltUnit_RESULT
        2).regRsp port 0 false)) ∧
    (∀ (s : State) (port : Nat) (ty : BitVec 3) (i sp : BitVec 15), s.owner port → unitIndexOk ty.toNat i.toNat = true →
      unitIndexOk ty.toNat sp.toNat = true → s.fld F.fltUnit_RESULT ≠ 1 → (s.unitOf ty.toNat i.toNat).role = .active →
      (s.unitOf ty.toNat sp.toNat).role = .spare → (ty ≠ 4 ∨ s.fwu.st = .idle) →
      exec (.unitSwap port ty i sp 0) s = .next (((((((s.setFld F.fltUnit_TYPE ty.toNat).setFld F.fltUnit_INDEX
        i.toNat).setFld F.fltUnit_SPARE sp.toNat).setUnit ty.toNat sp.toNat { s.unitOf ty.toNat sp.toNat with
        bistOk := true }).steerUnit ty.toNat i.toNat sp.toNat 0).setFld F.fltUnit_RESULT 4).regRsp port 0 false)) ∧
    (∀ (s : State) (port : Nat) (ty : BitVec 3) (i : BitVec 15), s.owner port → unitIndexOk ty.toNat i.toNat = true →
      s.fld F.fltUnit_RESULT ≠ 1 → (s.unitOf ty.toNat i.toNat).role = .bypassed →
      (s.unitOf ty.toNat i.toNat).bistOk = true →
      exec (.unitReturn port ty i) s = .next (((((s.setFld F.fltUnit_TYPE ty.toNat).setFld F.fltUnit_INDEX
        i.toNat).setUnit ty.toNat i.toNat { s.unitOf ty.toNat i.toNat with role := .spare }).setFld F.fltUnit_RESULT
        0).regRsp port 0 false)) ∧
    (∀ (s : State) (row sp : Nat), row ≤ 4351 → sp ≤ 4351 → (s.unitOf 2 row).role = .active → (s.unitOf 2 sp).role = .spare →
      ∀ u : State, u = s.setUnit 2 sp { s.unitOf 2 sp with bistOk := true } →
      exec (.keyRowCheckFail row ⟨sp, 0⟩) s = .next (u.steerUnit 2 row sp 1)) ∧
    (∀ (s : State) (n : Nat), n < 44 → (s.lane n).role = .active → s.spareLane = none →
      exec (.unitOutOfService 1 n) s = .next ((s.laneOut n).record .unitOut .lane n none 0 0)))

/-- R190, R197, R469: ALLOC derives a key of the kind into the slot it names, or the lowest EMPTY one, with one driver
reference; REF and UNREF change the driver references by one; each is refused in BLANK and END_OF_LIFE first, and a refused
command is counted; UNREF at zero references gives REF_RANGE. Completes: KEY_ALLOC, KEY_REF, KEY_UNREF, KEY_READ, KEY_SUCC,
SET_LIMIT. -/
def Obligations.KeySlots : Prop :=
  (∀ (s u : State) (port : Nat) (slot : BitVec 16) (a : AllocArg) (n : Nat), s.owner port → s.cfg.swapping = false → s.cfg.resuming = false →
    s.fld F.keyCmd_BUSY = 0 → u = s.setFld F.keySel_SLOT slot.toNat → a = allocArg (u.rd .keySel) (u.rd .keyCell) →
    u.keyLc true = false → (a.slot ≠ 0 → (u.slot a.slot).kind = .empty) → a.kindOk = true → a.kind ≠ .cell →
    (if a.slot = 0 then u.freeSlot a.kind else some a.slot) = some n →
    exec (.keyAlloc (.reg port) slot) s = .next ((((u.deriveSlot n a.kind a.cell a.exp u.keys.meas
      1).setFld F.keySel_SLOT n).keyEnd (.reg port) 0 n).regRsp port 0 false)) ∧
  (∀ (s u : State) (port : Nat) (slot : BitVec 16), s.owner port → s.cfg.swapping = false → s.cfg.resuming = false →
    s.fld F.keyCmd_BUSY = 0 →
    u = s.setFld F.keySel_SLOT slot.toNat → u.keyLc false = false → u.slotLive slot.toNat = true → ∀ k : Slot,
    k = u.slot slot.toNat →
    (k.dref < 2 ^ 24 - 1 → exec (.keyRef (.reg port) slot) s = .next (((u.putSlot slot.toNat { k with dref := k.dref + 1
      }).keyEnd (.reg port) 0 0).regRsp port 0 false)) ∧
    (0 < k.dref → exec (.keyUnref (.reg port) slot) s = .next (((u.putSlot slot.toNat { k with dref := k.dref - 1
      }).keyEnd (.reg port) 0 0).regRsp port 0 false)) ∧
    (k.dref = 0 → exec (.keyUnref (.reg port) slot) s = .next ((u.keyEnd (.reg port) 5 0).regRsp port 0 false))) ∧
  (∀ (s u : State) (port : Nat) (slot : BitVec 16) (i : Instr),
    i ∈ [Instr.keyAlloc (.reg port) slot, .keyRef (.reg port) slot, .keyUnref (.reg port) slot, .keyRead port slot,
      .keySucc port slot, .setLimit port slot] → s.owner port → s.cfg.swapping = false → s.cfg.resuming = false →
    s.fld F.keyCmd_BUSY = 0 →
    u = s.setFld F.keySel_SLOT slot.toNat → s.life.lc = .blank →
    exec i s = .next ((u.keyEnd (.reg port) 4 0).regRsp port 0 false))

/-- R197: READ shows a slot in LZ_KEY_STAT, LZ_KEY_USAGE and LZ_KEY_LIMIT; SUCC derives a key of the kind into the EMPTY
slot that ARG names and makes it the successor; SET_LIMIT sets the exponent of a SERVICE slot's limit, from 10 to 40, when
its usage is not above it. Completes: KEY_READ, KEY_SUCC, SET_LIMIT. -/
def Obligations.KeyAttributes : Prop :=
  ∀ (s u : State) (port : Nat) (slot : BitVec 16) (k : Slot), s.owner port → s.cfg.swapping = false → s.cfg.resuming = false →
    s.fld F.keyCmd_BUSY = 0 → u = s.setFld F.keySel_SLOT slot.toNat → k = u.slot slot.toNat →
    (u.keyLc false = false → k.kind ≠ .empty → ∀ stat : Nat, stat = k.kind.code + k.origin.code * 8 +
        (if k.noexport then 64 else 0) + (if u.keys.cached.contains slot.toNat then 128 else 0) +
        (if u.pinned slot.toNat then 256 else 0) + (if k.failed then 512 else 0) + k.succ * 2 ^ 16 +
        u.refCount slot.toNat % 2 ^ 32 * 2 ^ 32 →
      exec (.keyRead port slot) s = .next (((((u.wr .keyStat stat).wr .keyUsage k.usage).wr .keyLimit k.limit).keyEnd
        (.reg port) 0 0).regRsp port 0 false)) ∧
    (u.keyLc true = false → u.slotLive slot.toNat = true → k.succ = 0 → k.kind = .memory → ∀ t : Nat,
      t = u.fld F.keySel_ARG → (u.slot t).kind = .empty → k.kind.range.1 ≤ t → t ≤ k.kind.range.2 →
      exec (.keySucc port slot) s = .next ((((u.deriveSlot t .memory k.cell 0 (u.keys.measNext.getD u.keys.meas) 0).putSlot
        slot.toNat { k with succ := t }).keyEnd (.reg port) 0 0).regRsp port 0 false)) ∧
    (u.keyLc false = false → u.slotLive slot.toNat = true → k.kind = .service → ∀ e : Nat, e = u.fld F.keySel_EXP →
      10 ≤ e → e ≤ 40 → k.usage ≤ 2 ^ e → exec (.setLimit port slot) s =
      .next (((u.putSlot slot.toNat { k with exp := e }).keyEnd (.reg port) 0 0).regRsp port 0 false))

/-- R185, R186, R189, R191, R194, R195: a slot whose last reference is gone is torn down; a ledger VERSION at its end starts
the rewrap, and one in progress completes; a window of raw bits that fails a health test sets ES_FAIL and is counted and
recorded, and the start-up test clears it; a reseed restarts the DRBG's count, and falls due while ES_FAIL is set.
Completes: SLOT_TEARDOWN, LEDGER_REWRAP, ES_HEALTH_FAIL, START_UP_TEST_PASS, DRBG_RESEED. -/
def Obligations.KeyUpkeep : Prop :=
  (∀ (s : State) (slot : BitVec 16), (s.slot slot.toNat).kind ≠ .empty → s.refCount slot.toNat = 0 →
    exec (.slotTeardown slot) s = .next (s.teardown slot.toNat)) ∧
  (∀ s : State, s.keys.rewrap = true → exec .ledgerRewrap s = .next s.endRewrap) ∧
  (∀ s : State, s.keys.rewrap = false → s.keys.versions.any (fun e => e.2 == 0xFFFFFFFF) = true →
    exec .ledgerRewrap s = .next s.startRewrap) ∧
  (∀ (s u : State) (raw : List Bool) (test : Nat), healthFault raw = some test →
    u = { s with keys := { s.keys with esFail := true } } →
    exec (.esHealthFail raw) s = .next ((u.incFld F.keyErr_ES_HEALTH).record .entropyFail .key 0 none test 0)) ∧
  (∀ s : State, exec .startUpTestPass s = .next { s with keys := { s.keys with esFail := false } }) ∧
  (∀ s : State, s.keys.esFail = true → exec .drbgReseed s = .next { s with keys := { s.keys with reseedDue := true } }) ∧
  (∀ (s : State) (k : KeyMgr), s.keys.esFail = false → s.lct.nonceWait = false →
    k = { s.keys with reseedDue := false, drbgReady := true, drbgCount := 0, drbgTime := s.life.time, draws := s.keys.draws + 1 } →
    exec .drbgReseed s = .next { s with keys := k })

/-- R148, R149: START fills a FREE job record from LZ_HRW_CTL and queues it, and is refused when its checks fail; a RUNNING
job is suspended, a SUSPENDED one resumes, and a SETTLED one retires, none of which another state allows; the oldest queued
job runs while fewer than four do. Completes: HRW_START, HRW_SUSPEND, HRW_RESUME, HRW_RETIRE, JOB_RUN. -/
def Obligations.HarrowJobs : Prop :=
  (∀ (s u : State) (port : Nat) (job : BitVec 4), s.owner port → s.cfg.swapping = false → s.cfg.resuming = false →
    s.fld F.hrwCtl_BUSY = 0 →
    u = s.setFld F.hrwCtl_JOB job.toNat →
    (∀ rows : List Nat, u.fld F.hrwCtl_SCOPE = 0 → u.startCheck job.toNat .key (u.fld F.hrwCtl_TARGET) (u.fld F.hrwCtl_NEW) = 0 →
      rows = u.scopeRows .key (u.fld F.hrwCtl_TARGET) → exec (.hrwStart port job) s =
      .next ((((u.fillJob job.toNat .key false (u.fld F.hrwCtl_TARGET) (u.fld F.hrwCtl_NEW) (u.fld F.hrwTurn_TIME) rows).trace
        5 4 (Src.harrow.at 0) none job.toNat 1 (rows.headD 0)).hrwEnd 0).regRsp port 0 false)) ∧
    ((u.job job.toNat).st ≠ .free → exec (.hrwStart port job) s = .next ((u.hrwEnd 1).regRsp port 0 false)) ∧
    ((u.job job.toNat).st = .running → exec (.hrwSuspend port job) s = .next (((u.putJob job.toNat { u.job job.toNat with
      st := .suspended }).hrwEnd 0).regRsp port 0 false)) ∧
    ((u.job job.toNat).st ≠ .running → exec (.hrwSuspend port job) s = .next ((u.hrwEnd 1).regRsp port 0 false)) ∧
    ((u.job job.toNat).st = .suspended → exec (.hrwResume port job) s = .next (((((u.putJob job.toNat { u.job job.toNat with
      st := .running }).pinJob job.toNat).settleJob job.toNat).hrwEnd 0).regRsp port 0 false)) ∧
    ((u.job job.toNat).st = .settled → exec (.hrwRetire port job) s =
      .next (((u.retireJob job.toNat).hrwEnd 0).regRsp port 0 false)) ∧
    ((u.job job.toNat).st ≠ .settled → exec (.hrwRetire port job) s = .next ((u.hrwEnd 1).regRsp port 0 false))) ∧
  (∀ (s : State) (n : Nat) (j : Job), s.harrow.jobs = [(n, j)] → j.st = .queued →
    exec .jobRun s = .next (s.runJob n))

/-- R151, R152, R154, R158, R162, R165, R457: a page of the running job's window, of a region that is not radio or of the
metadata, is done at once when it has no line to move, and closes when its lane grants the harrow and the throttle's budget
allows it; a closed page whose lines verify is moved, and one with a line that fails on its first attempt opens unchanged
and is tried again, each such line being read again for its record; at its time a job with radio regions, RUNNING or
SUSPENDED, turns over, recording each region's threshold; a headland 4,096 pages beyond its mark is mirrored while the pair
is UP, at once or when a mirror slot is free. Completes: HARROW_PAGE_CLOSE, HARROW_PAGE_OPEN, HARROW_MOVE_ABANDON, TURNOVER,
HEADLAND_MARK. -/
def Obligations.HarrowPages : Prop :=
  (∀ (s : State) (job : BitVec 4) (q abs : Nat), (s.job job.toNat).st = .running → (s.job job.toNat).scope = .metadata →
    (s.job job.toNat).head ≤ q → q < (s.job job.toNat).head + 256 → (s.job job.toNat).done.contains q = false →
    s.engineOut 7 = false → abs = s.rgn.metaBase * pagesPerGranule + q → q < s.metaPages → s.pageClosed abs = false →
    s.closedOn abs < 4 → s.mem.accesses.any (fun a => a.line / 64 == abs) = false → s.metaParents abs = [] →
    ∀ lines : Nat, lines = (s.metaLines abs).length + (s.sealedSpots abs).length →
    (lines = 0 → exec (.harrowPageClose job q) s = .next (s.pageDone job.toNat q)) ∧
    (0 < lines → s.mayClose (s.homeLane abs) = true → s.fits (grantEnergy (grantCycles lines)) = true →
      exec (.harrowPageClose job q) s =
      .next (s.closePage job.toNat abs q 0 ((s.job job.toNat).retry.contains q) lines)) ∧
    (0 < lines → s.mayClose (s.homeLane abs) = true → s.fits (grantEnergy (grantCycles lines)) = false →
      exec (.harrowPageClose job q) s = .next s.withhold)) ∧
  (∀ (s : State) (job : BitVec 4) (q abs row : Nat) (rest : List Nat) (c : CtrLine), (s.job job.toNat).st = .running →
    (s.job job.toNat).scope ≠ .metadata → (s.job job.toNat).todo = row :: rest →
    (s.job job.toNat).head ≤ q → q < (s.job job.toNat).head + 256 → (s.job job.toNat).done.contains q = false →
    s.engineOut 7 = false → abs = (s.row row).base * pagesPerGranule + q → q < (s.row row).count * pagesPerGranule →
    s.pageClosed abs = false → s.pageLocked abs false = false → s.closedOn abs < 4 → (s.row row).radio = false →
    ((s.row row).kind = .tilled → s.counterOf abs = some c) → ((s.row row).kind ≠ .tilled → c = {}) →
    ∀ lines : Nat, lines = (s.moveLines row q c).length →
    (lines = 0 → exec (.harrowPageClose job q) s = .next (s.pageDone job.toNat q)) ∧
    (0 < lines → s.mayClose (s.homeLane abs) = true → s.fits (grantEnergy (grantCycles lines)) = true →
      exec (.harrowPageClose job q) s =
      .next (s.closePage job.toNat abs q row ((s.job job.toNat).retry.contains q) lines))) ∧
  (∀ (s : State) (job : BitVec 4) (page abs row : Nat) (lines : List (Nat × DmcBeat)) (x : Closed)
      (ls : List (Nat × Option Line)), s.closedPage job.toNat page lines = some (x, abs, some row, ls) →
    ls.any (fun l => l.2.isNone) = false →
    exec (.harrowPageOpen job page lines) s = .next (s.movePage job.toNat row abs page ls)) ∧
  (∀ (s : State) (job : BitVec 4) (page abs : Nat) (row : Option Nat) (lines : List (Nat × DmcBeat)) (x : Closed)
      (ls : List (Nat × Option Line)), s.closedPage job.toNat page lines = some (x, abs, row, ls) → x.second = false →
    ls.any (fun l => l.2.isNone) = true → ∀ u : State,
    u = ((ls.filter fun l => l.2.isNone).map (·.1)).foldl (fun s l => match row with
      | some i => s.diagnose (s.row i).part l (s.lineRead i l)
      | none => s.diagnose 0xFF l { line := l, ctr := none, slot := 0, st := .again }) s → ∀ v : State,
    v = u.setJob job.toNat { u.job job.toNat with retry := nsInsert (u.job job.toNat).retry page } →
    exec (.harrowMoveAbandon job page lines) s = .next (v.openPage job.toNat abs)) ∧
  (∀ (s : State) (job : BitVec 4) (rows : List Nat) (thresh : List (Nat × Nat)),
    ((s.job job.toNat).st = .running ∨ (s.job job.toNat).st = .suspended) →
    (s.job job.toNat).radio = true → (s.job job.toNat).turned = false → (s.job job.toNat).turnAt ≤ s.life.time →
    rows = ((s.job job.toNat).todo ++ (s.job job.toNat).passed).filter (fun i => (s.row i).radio) →
    rows.any (fun i => !s.cellMirrored (s.row i).kidxNext) = false →
    thresh = rows.map (fun i => (i, if (s.row i).kind = .tilled then s.rgn.epsrc else (s.row i).foldTop)) → ∀ u : State,
    u = (s.setJob job.toNat { s.job job.toNat with turned := true, thresh := thresh }).settleJob job.toNat →
    u.pair.radioSlot = 0 → exec (.turnover job) s = .next u) ∧
  (∀ (s : State) (job : BitVec 4), s.pair.state = .up → (s.job job.toNat).st = .running →
    (s.job job.toNat).mark + 4096 ≤ (s.job job.toNat).head →
    exec (.headlandMark job) s = .next (if s.mirrorsFull then s.withPair { s.pair with rootsDue := true }
      else s.sendMirror 0 false))

/-- R83 to R90, R102, R113, R466: with the staged descriptor, CREATE of a FREE row that passes its checks in order makes the
region and otherwise gives the first code that applies; DESTROY starts its closing and RESET restarts it virgin; READ copies
the row into the descriptor registers; a command on a FREE or CLOSING row is refused. Completes: RGN_CREATE, RGN_READ,
RGN_DESTROY, RGN_RESET, RGN_SEAL, RGN_ADVANCE. -/
def Obligations.RegionCommands : Prop :=
  ∀ (s u : State) (port : Nat) (row : BitVec 14) (r : ReadOut), s.owner port → s.cfg.swapping = false → s.cfg.resuming = false →
    s.fld F.rgnSel_BUSY = 0 → u = (s.setFld F.rgnSel_INDEX row.toNat).setFld F.rgnSel_BUSY 1 →
    (u.createCheck row.toNat s.staged = none → exec (.rgnCreate (.reg port) row r) s =
      .next (((u.createRegion row.toNat s.staged.region).rgnEnd (.reg port) 0).regRsp port 0 false)) ∧
    (∀ code : Nat, u.createCheck row.toNat s.staged = some code → exec (.rgnCreate (.reg port) row r) s =
      .next ((u.rgnEnd (.reg port) code).regRsp port 0 false)) ∧
    (∀ v : State, v = ((s.setFld F.rgnSel_INDEX row.toNat).setFld F.rgnSel_RESULT 0).setFld F.rgnSel_BUSY 0 →
      exec (.rgnRead port row) s =
      .next (((upto 0 16).foldl (fun x j => x.wr (descRegs.getD j .rgnDesc0) ((s.row row.toNat).word (s.regionRefs
        row.toNat) j)) v).regRsp port 0 false)) ∧
    (u.rowCheck row.toNat = none → (u.row row.toNat).state ≠ .sealing → exec (.rgnDestroy (.reg port) row r) s =
      .next ((u.closeRegion row.toNat (some (.reg port))).regRsp port 0 false)) ∧
    (u.rowCheck row.toNat = none → (u.row row.toNat).state = .opened → (u.row row.toNat).kind = .furrow →
      (u.row row.toNat).wslot ≠ none → exec (.rgnReset (.reg port) row r) s =
      .next (((u.resetRegion row.toNat).rgnEnd (.reg port) 0).regRsp port 0 false)) ∧
    ((u.row row.toNat).state = .free → u.life.lc ≠ .blank → ∀ i : Instr, i ∈ [Instr.rgnDestroy (.reg port) row r,
      .rgnSeal (.reg port) row r, .rgnReset (.reg port) row r, .rgnAdvance (.reg port) row r] →
      exec i s = .next ((u.rgnEnd (.reg port) 1).regRsp port 0 false))

/-- R97, R98, R103, R114: SEAL of an OPEN SOWN region makes it SEALING; ADVANCE of an OPEN SOWN or FURROW region reserves
its zero writes, of every unwritten and unreserved offset below the argument; once nothing reserves an offset of the range
of the oldest ADVANCE, and no page of the region is closed, they are written, HWM is the argument or what it has passed, and
moves on over the bits set above; a driver takes and drops a reference. Completes: RGN_SEAL, RGN_ADVANCE, ADVANCE_COMPLETE,
RGN_REF, RGN_UNREF. -/
def Obligations.SealAndAdvance : Prop :=
  (∀ (s u : State) (port : Nat) (row : BitVec 14) (r : ReadOut), s.owner port → s.cfg.swapping = false → s.cfg.resuming = false →
    s.fld F.rgnSel_BUSY = 0 → u = (s.setFld F.rgnSel_INDEX row.toNat).setFld F.rgnSel_BUSY 1 →
    u.rowCheck row.toNat = none → (u.row row.toNat).state = .opened →
    (∀ x : Region, x = { u.row row.toNat with state := .sealing, stamp := u.life.time,
                                              sealRun := some { addr := s.staged.argAddr, origin := .reg port } } →
      (u.row row.toNat).kind = .sown →
      exec (.rgnSeal (.reg port) row r) s = .next ((u.setRow row.toNat x).regRsp port 0 false)) ∧
    (∀ (a : Nat) (x y : Region), x = u.row row.toNat → x.kind = .furrow ∨ x.kind = .sown → a = s.staged.argLine →
      x.hwm < a → a ≤ x.hwm + 1024 → a ≤ x.count * linesPerGranule →
      ∀ zs : NatSet, zs = (upto x.hwm (a - x.hwm)).filter (fun i => !x.win.contains i && !x.rsv.contains i) →
      y = { x with adv := x.adv ++ [{ target := a, zeros := zs, origin := .reg port }] } →
      exec (.rgnAdvance (.reg port) row r) s = .next ((u.setRow row.toNat y).regRsp port 0 false))) ∧
  (∀ (s u : State) (row : BitVec 14) (x y : Region) (a : AdvRun) (rest : List AdvRun), x = s.row row.toNat →
    x.adv = a :: rest → x.rsv.any (· < a.target) = false → s.closedIn row.toNat = false →
    u = s.zeroLines row.toNat ((upto x.hwm (a.target - x.hwm)).filter fun i => !x.win.contains i) → ∀ h : Nat,
    h = max (u.row row.toNat).hwm a.target →
    y = { u.row row.toNat with adv := rest, hwm := h, win := (u.row row.toNat).win.filter (h ≤ ·) } →
    exec (.advanceComplete row) s = .next ((u.setRow row.toNat y.advanceHwm).rgnEnd a.origin 0)) ∧
  (∀ (s u : State) (q k : Nat) (c : Cmd), s.cfg.swapping = false → s.startable q k 0x25 c → u = s.started q c →
    c.desc.arg16 < 16384 → u.rowCheck c.desc.arg16 = none → u.mayAct q c (u.row c.desc.arg16).part = true →
    ∀ x : Region, x = { u.row c.desc.arg16 with drvRefs := (u.row c.desc.arg16).drvRefs + 1 } →
    exec (.rgnRef q k) s = .next ((u.setRow c.desc.arg16 x).svcDone q k 0 0 0 0 0)) ∧
  (∀ (s u : State) (q k : Nat) (c : Cmd), s.cfg.swapping = false → s.startable q k 0x26 c → u = s.started q c →
    c.desc.arg16 < 16384 → (u.row c.desc.arg16).state ≠ .free → 0 < (u.row c.desc.arg16).drvRefs →
    u.mayAct q c (u.row c.desc.arg16).part = true →
    ∀ x : Region, x = { u.row c.desc.arg16 with drvRefs := (u.row c.desc.arg16).drvRefs - 1 } →
    exec (.rgnUnref q k) s = .next ((u.setRow c.desc.arg16 x).svcDone q k 0 0 0 0 0))

/-- R97, R99, R100, R221: with every write of the region issued the fold is made, and a manifest that does not verify ends
the seal incomplete with code 7; a seal whose contexts have ended takes their digests; so does one whose sharded digests
have not arrived in time. Completes: SEAL_COMPLETE, SEAL_GATHER_TIMEOUT. -/
def Obligations.Seals : Prop :=
  (∀ (s u : State) (row : BitVec 14) (m : ReadOut) (chunks : List ReadOut) (run : SealRun),
    (s.row row.toNat).sealRun = some run → run.waiting = false → run.started = false → s.writesOut row.toNat = false →
    u = s.fold_ row.toNat → u.manifest row.toNat run.addr m = none →
    exec (.sealComplete row m chunks) s = .next (u.sealEnd row.toNat run none 7)) ∧
  (∀ (s : State) (row : BitVec 14) (m : ReadOut) (chunks : List ReadOut) (run : SealRun),
    (s.row row.toNat).sealRun = some run → run.waiting = true → (run.ctxs.all fun i => (s.ctx i).ended) = true →
    exec (.sealComplete row m chunks) s = .next (s.sealTake row.toNat run)) ∧
  (∀ (s : State) (row : BitVec 14) (run : SealRun), (s.row row.toNat).sealRun = some run → run.waiting = true →
    (run.ctxs.any fun i => decide ((s.ctx i).st = .gathering)) = true →
    exec (.sealGatherTimeout row) s = .next (s.sealTake row.toNat run))

/-- R228 to R234, R250: ARM takes a FREE watch on an OPEN context with nothing covered, READ shows a watch in its registers,
DISARM frees it, and a FREE watch is refused. Completes: WATCH_ARM, WATCH_READ, WATCH_DISARM. -/
def Obligations.Watches : Prop :=
  ∀ (s u : State) (port : Nat) (w : BitVec 6), s.owner port → s.fld F.watchCtl_BUSY = 0 →
    u = s.setFld F.watchCtl_WATCH w.toNat →
    (∀ x y : Watch, x = { st := .armed, cfg := u.rd .watchCfg, thresh := u.rd .watchThresh } →
      watchCfgBad (u.rd .watchCfg) = false → (u.watch w.toNat).st = .free → (u.ctx x.ctx).st = .opened →
      (u.ctx x.ctx).cover = [] → watchKindBad x.stat x.tkind (u.ctx x.ctx).fmt = false →
      y = { x with part := (u.ctx x.ctx).part, fmt := (u.ctx x.ctx).fmt } →
      exec (.watchArm (.reg port) w) s = .next (((u.setWatch w.toNat y).watchEnd (.reg port) 0).regRsp port 0 false)) ∧
    (∀ (x : Watch) (v : State), x = u.watch w.toNat → x.st ≠ .free →
      v = ((u.wr .watchCfg x.cfg).wr .watchThresh x.thresh).wr .watchStat x.word → exec (.watchRead (.reg port) w) s =
      .next ((((upto 0 16).foldl (fun s n => s.wr .watchRes (bits (x.result x.fmt) (64 * n) 64) n) v).watchEnd
        (.reg port) 0).regRsp port 0 false)) ∧
    ((u.watch w.toNat).st ≠ .free → exec (.watchDisarm (.reg port) w) s =
      .next (((u.disarm w.toNat).watchEnd (.reg port) 0).regRsp port 0 false)) ∧
    ((u.watch w.toNat).st = .free → ∀ i ∈ [Instr.watchRead (.reg port) w, .watchDisarm (.reg port) w],
      exec i s = .next ((u.watchEnd (.reg port) 1).regRsp port 0 false))

/-- R235 to R237, R250, R457: OPEN starts a session on an OPEN FURROW region with no OPEN session, with chain T_0; each line
below HWM adds its two records when the throttle's budget allows their digests, and is withheld otherwise; CLOSE makes the
session CLOSED, over the lines below HWM at its effect; READ shows a session, and FREE frees one that has ended and is
refused for one that is OPEN. Completes: TOK_OPEN, TOK_CLOSE, TOK_READ, TOK_FREE, TOKEN_RECORD_CHAINED. -/
def Obligations.TokenSessions : Prop :=
  (∀ (s u : State) (port : Nat) (t : BitVec 13), s.owner port → s.fld F.tokCtl_BUSY = 0 →
    u = s.setFld F.tokCtl_SESSION t.toNat →
    (∀ (row : Nat) (x : Tok) (id : BitVec 128), row = bits (u.rd .tokArg) 0 14 → bits (u.rd .tokArg) 48 16 = 0 →
      (u.tok t.toNat).st = .free → (u.row row).kind = .furrow → (u.row row).state = .opened →
      u.dig.toks.any (fun e => decide (e.2.st = .opened ∧ e.2.row = row)) = false →
      id = BitVec.ofNat 128 (u.rd .tokId0 + u.rd .tokId1 * 2 ^ 64) →
      x = { st := .opened, part := (u.row row).part, row := row, next := bits (u.rd .tokArg) 14 34, id := id,
            chain := Config.sha3_384 (ascii "LZTOKEN1" ++ bvBytes id) } →
      exec (.tokOpen (.reg port) t) s = .next (((u.setTok t.toNat x).tokEnd (.reg port) 0).regRsp port 0 false)) ∧
    (∀ (x : Tok) (v : State), (u.tok t.toNat).st = .opened → v = u.setFld F.tokCtl_BUSY 1 → x = { u.tok t.toNat with
        st := .closed, closing := some (v.row (u.tok t.toNat).row).hwm, origin := some (.reg port) } →
      exec (.tokClose (.reg port) t) s = .next (((v.setTok t.toNat x).tokSettle t.toNat).regRsp port 0 false)) ∧
    ((u.tok t.toNat).st ≠ .free → exec (.tokRead (.reg port) t) s = .next ((((upto 0 6).foldl (fun s j => s.wr .tokChain
      (bits (u.tok t.toNat).shown.toNat (64 * j) 64) j) (u.wr .tokStat (u.tok t.toNat).word)).tokEnd (.reg port) 0).regRsp
      port 0 false)) ∧
    ((u.tok t.toNat).st = .closed → (u.tok t.toNat).closing = none → exec (.tokFree (.reg port) t) s =
      .next (((u.setTok t.toNat {}).tokEnd (.reg port) 0).regRsp port 0 false)) ∧
    ((u.tok t.toNat).st = .opened → exec (.tokFree (.reg port) t) s =
      .next ((u.tokEnd (.reg port) 1).regRsp port 0 false))) ∧
  (∀ (s : State) (t : BitVec 13) (r : ReadOut) (x y z : Tok) (e : Nat), x = s.tok t.toNat →
    (x.st = .opened ∨ x.closing ≠ none) → x.next < x.closing.getD (s.row x.row).hwm → r.ok = true → r.bytes.length = 64 →
    y = (x.chained (r.bytes.take 32)).chained (r.bytes.drop 32) → z = { y with next := x.next + 1 } →
    e = keccakEnergy (y.count - x.count) →
    ((e = 0 ∨ s.fits e = true) → exec (.tokenRecordChained t r) s =
      .next ((((s.spend e).count 464 (y.count - x.count)).setTok t.toNat z).tokSettle t.toNat)) ∧
    (0 < e → s.fits e = false → exec (.tokenRecordChained t r) s = .next s.withhold))

/-- R208, R209, R216, R219, R220, R227, R457: OPEN of a FREE context with a descriptor that verifies makes it OPEN; CLOSE
makes it CLOSING and its straddle fetches due; READ shows a context in its registers; FREE frees it; a FREE context is
refused; a CLOSING context with no work left, not sharded and covering its tensor, is FINAL; a gatherer takes a partial
record of its tensor, a contributor the final one, and one that waits too long is INCOMPLETE. R212 to R217, R222: a
descriptor that passes its checks arms a segment, and one that fails them is counted and gives its OPEN context reason
BAD_CHD; the oldest SCAN segment, on pages that are open, is filled by its read; a due straddle fetch is issued, and fills
its segment, or fails with the count when it is refused, not OK or late; the chunk that became complete first goes to an
idle core when the throttle's budget allows its digest, and once hashed is added to its context. Completes: STV_OPEN,
STV_CLOSE, STV_READ, STV_FREE, CONTEXT_FINISH, PARTIAL_RECORD, FINAL_RECORD, GATHER_TIMEOUT, CHUNK_DESCRIPTOR, SCAN_READ,
STRADDLE_FETCH, STRADDLE_FETCH_DONE, STRADDLE_FETCH_TIMEOUT, CHUNK_DISPATCH, CHUNK_HASHED. -/
def Obligations.StavubContexts : Prop :=
  ((∀ (s u : State) (port : Nat) (ctx : BitVec 8) (r : ReadOut), s.owner port → s.cfg.swapping = false → s.cfg.resuming = false →
      ctx.toNat < 254 →
      s.fld F.stvCtl_BUSY = 0 → u = s.setFld F.stvCtl_CTX ctx.toNat → u.noEngines = false →
      (∀ c : Ctx, (u.ctx ctx.toNat).st = .free → u.openCheck (u.fld F.stvArg_ADDR) false r = (0, c) →
        exec (.stvOpen (.reg port) ctx r) s = .next (((u.setCtx ctx.toNat c).stvEnd (.reg port) 0).regRsp port 0 false)) ∧
      (∀ (v w : State) (l : List Seg), (u.ctx ctx.toNat).st = .opened →
        v = u.setCtx ctx.toNat { u.ctx ctx.toNat with st := .closing } → l = updWhere
          (fun g => g.ctx == ctx.toNat && decide (g.fetch = .atClose)) (fun g => { g with fetch := .due }) v.dig.stv.segs →
        w = v.withStv { v.dig.stv with segs := l } →
        exec (.stvClose (.reg port) ctx) s = .next ((w.stvEnd (.reg port) 0).regRsp port 0 false)) ∧
      (∀ (c : Ctx) (v : State), c = u.ctx ctx.toNat → c.st ≠ .free →
        v = (u.wr .stvCtx c.word).wr .stvCount (coveredCount c.cover) → exec (.stvRead (.reg port) ctx) s =
        .next ((((upto 0 6).foldl (fun s j => s.wr .stvDigest (bits c.digest.toNat (64 * j) 64) j) v).stvEnd (.reg port)
          0).regRsp port 0 false)) ∧
      ((u.ctx ctx.toNat).st ≠ .free → exec (.stvFree (.reg port) ctx) s =
        .next (((u.freeCtx ctx.toNat).stvEnd (.reg port) 0).regRsp port 0 false)) ∧
      ((u.ctx ctx.toNat).st = .free → ∀ i ∈ [Instr.stvClose (.reg port) ctx, .stvRead (.reg port) ctx, .stvFree (.reg port) ctx],
        exec i s = .next ((u.stvEnd (.reg port) 1).regRsp port 0 false))) ∧
    (∀ (s u : State) (ctx : BitVec 8) (c : Ctx), c = s.ctx ctx.toNat → c.st = .closing → s.ctxBusy ctx.toNat = false →
      u = s.withStv { s.dig.stv with segs := s.dig.stv.segs.filter (·.ctx != ctx.toNat) } → c.sharded = false →
      coversAll c.cover c.n = true → c.reason = [] → exec (.contextFinish ctx) s = .next (u.ctxFinal ctx.toNat)) ∧
    (∀ (s u : State) (rec : Bytes), u = s.count 463 1 → partialOk rec = true → (s.ctx (le rec 6 1)).gatherer = true →
      recMatches rec (s.ctx (le rec 6 1)) = true → (s.ctx (le rec 6 1)).st = .gathering →
      exec (.partialRecord rec) s = .next ((u.setCtx (le rec 6 1) ((s.ctx (le rec 6 1)).merge rec)).gatherSettle (le rec 6 1))) ∧
    (∀ (s : State) (rec : Bytes) (i : Nat), finalOk rec = true → le rec 5 1 = 0 →
      (upto 0 254).filter (fun i => decide ((s.ctx i).st = .gathering) && !(s.ctx i).gatherer && recMatches rec (s.ctx i)) = [i] →
      exec (.finalRecord rec) s = .next (s.setCtx i { s.ctx i with
        st := .final, digest := BitVec.ofNat 384 (le rec 64 48) })) ∧
    (∀ (s : State) (ctx : BitVec 8), (s.ctx ctx.toNat).st = .gathering → (s.ctx ctx.toNat).gatherer = true →
      exec (.gatherTimeout ctx) s = .next ((s.ctxIncomplete ctx.toNat).sendFinal ctx.toNat (s.ctx ctx.toNat).senders))) ∧
  ((∀ (s : State) (w : BitVec 256) (d : Chd), s.chdReady = true → d = Chd.ofNat w.toNat → (s.ctx d.ctx).st = .opened →
      exec (.chunkDescriptor w) s = .next (if d.fieldsOk && d.fits (s.ctx d.ctx) && s.chdPlace d (s.ctx d.ctx).part
        then s.armSeg d.ctx d else (s.incFld F.stvErr_BAD_CHD).setCtx d.ctx ((s.ctx d.ctx).why 0))) ∧
    (∀ (s : State) (r : ReadOut) (g : Seg), s.dig.stv.segs.find? (fun g => decide (g.path = .scan) && !g.filled) = some g →
      (∀ p, g.addr / 4096 ≤ p → p ≤ (g.addr + g.len - 1) / 4096 → s.pageClosed p = false) →
      r.ok = true → (s.regionAt g.addr).isSome = true → r.bytes.length = g.len →
      exec (.scanRead g.no r) s = .next (s.setSeg (g.full r.bytes))) ∧
    (∀ (s : State) (n : Nat) (g : Seg), s.segNo n = some g → g.fetch = .due → exec (.straddleFetch n) s =
      .next (if g.crosses || (s.fabCheck (s.fetchReq g) true).isSome then s.fetchFail g
        else (s.setSeg { g with fetch := .out }).fabSend ownIntf (s.fetchReq g) false)) ∧
    (∀ (s : State) (n : Nat) (r : ReadOut) (g : Seg), s.segNo n = some g → g.fetch = .out →
      (r.ok = true → r.bytes.length = g.rlen →
        exec (.straddleFetchDone n r) s = .next (s.setSeg { g with fetch := .done r.bytes })) ∧
      (r.ok = false → exec (.straddleFetchDone n r) s = .next (s.fetchFail g)) ∧
      exec (.straddleFetchTimeout n) s = .next (s.fetchFail g)) ∧
    (∀ (s : State) (c : Nat) (a : Asm), c < 68 → (s.core c).role = .active →
      s.dig.stv.asms.any (fun a => decide (a.st = .onCore c)) = false →
      s.dig.stv.asms.find? (fun a => decide (a.st = .ready)) = some a → ∀ l : List Asm,
      l = updWhere (· == a) (fun a => { a with st := .onCore c }) s.dig.stv.asms →
      (s.fits (keccakEnergy 61) = true → exec (.chunkDispatch c) s =
        .next ((s.spend (keccakEnergy 61)).withStv { s.dig.stv with asms := l })) ∧
      (s.fits (keccakEnergy 61) = false → exec (.chunkDispatch c) s = .next s.withhold)) ∧
    (∀ (s : State) (c : Nat) (a : Asm), s.dig.stv.asms.find? (fun a => decide (a.st = .onCore c)) = some a →
      exec (.chunkHashed c) s = .next (s.hashAsm a)))

/-- R304, R305, R342: a doorbell on the bound attach port sets the indices whose valid bits are set; on another port it
changes nothing but the count of refused doorbells, with an error response; a bounce channel's doorbell does the same for
its tail. Completes: SQ_DOORBELL, BOUNCE_DOORBELL. -/
def Obligations.Doorbells : Prop :=
  (∀ (s : State) (port q : Nat) (v : Word), q < 256 → s.regsOpen = true → port = s.fld F.svcQcfg_ATT q →
    (s.queue q).state = .running → bit v.toNat 12 = true → bits v.toNat 0 12 < s.qSize q → bit v.toNat 28 = false →
    ∀ u : State, u = s.regRsp port 0 false →
    exec (.sqDoorbell port q v) s = .next ((u.setQueue q { u.queue q with sqTail := bits v.toNat 0 12 }).setFld
      F.svcQdoorbell_SQ_TAIL (bits v.toNat 0 12) q)) ∧
  (∀ (s : State) (port q : Nat) (v : Word), q < 256 → s.regsOpen = true → port = s.fld F.svcQcfg_ATT q →
    (s.queue q).state = .running → bit v.toNat 12 = false → bit v.toNat 28 = true → bits v.toNat 16 12 < s.qSize q →
    ∀ u : State, u = s.regRsp port 0 false →
    exec (.sqDoorbell port q v) s = .next ((u.setQueue q { u.queue q with cqHead := bits v.toNat 16 12 }).setFld
      F.svcQdoorbell_CQ_HEAD (bits v.toNat 16 12) q)) ∧
  (∀ (s : State) (port q : Nat) (v : Word), q < 256 → s.regsOpen = true → port ≠ s.fld F.svcQcfg_ATT q →
    exec (.sqDoorbell port q v) s = .next ((s.incFld F.svcQerr_DB_REFUSED q).regRsp port 0 true)) ∧
  (∀ (s : State) (port c : Nat) (v : Word), c < 128 → s.regsOpen = true → port = s.cAtt c + 1 →
    (s.chan c).state = .running → bit v.toNat 12 = true → bits v.toNat 0 12 < 2 ^ s.fld F.hostBcfg_SIZE c →
    exec (.bounceDoorbell port c v) s = .next (((s.regRsp port 0 false).setChan c { s.chan c with
      tail := bits v.toNat 0 12 }).setFld F.hostBdoorbell_TAIL (bits v.toNat 0 12) c)) ∧
  (∀ (s : State) (port c : Nat) (v : Word), c < 128 → s.regsOpen = true → port ≠ s.cAtt c + 1 →
    exec (.bounceDoorbell port c v) s = .next ((s.incFld F.hostErr_REG_ERR).regRsp port 0 true))

/-- R307, R326, R332: the owner enables a disabled queue, whose indices become zero, whose parity becomes 1 and whose HOST
slot is bound to it; an ENABLE that R332 refuses is counted and answered with an error; a queue that is disabled takes no
more commands, and with none in flight it is disabled at once. R303, R306, R308, R310, R312: a running queue with an entry,
room in flight and room for a completion takes its next descriptor from a device ring, and stops when the entry cannot be
read; a finished command's record is written to a device ring with room and the command leaves; a command that has run 50 ms
completes TIMEOUT; NOP completes SUCCESS. Completes: QUEUE_ENABLE, QUEUE_DISABLE, DESCRIPTOR_FETCH, COMPLETION_WRITE,
QUEUE_TIMEOUT, NOP. -/
def Obligations.ServiceQueues : Prop :=
  ((∀ (s : State) (port q : Nat), q < 256 → s.owner port → (s.queue q).state = .disabled → s.queueRefused q = false →
      s.radioBars (s.qPart q) (s.fld F.svcQcfg_ATT q) = false → ∀ u : State,
      u = (s.bind false q (s.fld F.svcQcfg_HKIDX q)).setFld F.svcQcfg_ENABLE 1 q →
      ∀ x : SvcQ, x = { state := .running, phase := true, progress := (s.queue q).progress } →
      exec (.queueEnable port q) s = .next ((u.setQueue q x).regRsp port 0 false)) ∧
    (∀ (s : State) (port q : Nat), q < 256 → s.owner port → s.fld F.svcQcfg_ENABLE q = 0 → (s.queue q).state = .disabled →
      s.queueRefused q = true →
      exec (.queueEnable port q) s = .next ((s.incFld F.hostErr_BIND_REFUSED).regRsp port 0 true)) ∧
    (∀ (s : State) (port q : Nat), q < 256 → s.owner port → (s.queue q).state = .running → (s.queue q).cmds = [] →
      ∀ u : State, u = s.setFld F.svcQcfg_ENABLE 0 q →
      exec (.queueDisable port q) s = .next ((((u.setQueue q { s.queue q with state := .draining }).abortQueue
        q).settleQueue q).regRsp port 0 false)) ∧
    (∀ (s : State) (port q : Nat), q < 256 → s.owner port → (s.queue q).state = .disabled →
      exec (.queueDisable port q) s = .next ((s.setFld F.svcQcfg_ENABLE 0 q).regRsp port 0 false))) ∧
  ((∀ (s : State) (q : Nat) (d : OpenOut), q < 256 → (s.queue q).state = .running →
      (s.queue q).sqHead ≠ (s.queue q).sqTail → (s.queue q).cmds.length < 16 → s.cqFull q = false →
      (s.part (s.qPart q)).instReset = none → (s.part (s.qPart q)).winnow = none → s.fld F.svcQbase_LOC q = 0 →
      s.deviceRing (s.qPart q) (s.fld F.svcQbase_BASE q * 4096) (64 * s.qSize q) = true →
      d.bytes.length = 64 →
      exec (.descriptorFetch q d) s = .next (if d.ok then s.takeDesc q d.bytes else s.stopQueue q)) ∧
    (∀ (s u : State) (q k : Nat) (c : Cmd), s.cmd q k = some c → c.st = .done → s.cqFull q = false →
      (s.cqEntry q).1 = false → s.putRecord q c = (true, u) →
      exec (.completionWrite q k) s = .next ((u.endRecord q c).partGo (s.qPart q))) ∧
    (∀ (s : State) (q k : Nat) (c : Cmd), s.cmd q k = some c → c.st = .running → (s.part (s.qPart q)).haltAck = false →
      s.originWaits q c = false →
      exec (.queueTimeout q k true) s = .next (s.abortCmd q k 2 (if c.desc.stands then 1 else 0))) ∧
    (∀ (s : State) (q k : Nat) (c : Cmd), s.cmd q k = some c → c.st = .running → (s.part (s.qPart q)).haltAck = false →
      s.originWaits q c = false → c.desc.op = 1 → ∀ u : State, u = s.abortCmd q k 2 0 →
      exec (.queueTimeout q k false) s = .next (u.resetScu.record .engineReset .scu 0 none 2 1)) ∧
    (∀ (s : State) (q k : Nat) (c : Cmd), s.startable q k 0 c →
      exec (.nop q k) s = .next ((s.started q c).svcDone q k 0 0 0 0 0)))

/-- R238, R239, R243, R245: SHEAF reads its request and its assembly starts; the oldest waiting sheaf of a queue, with its
sources ready, is filled and its leaf appended to the open stook; FLUSH, the maximum wait and the 4,096th leaf close the
open stook, at once or when the stook that signs has ended; a signed stook that no command waits for is counted, and one
that waited starts to sign. Completes: SHEAF, SHEAF_APPEND, FLUSH, MAXWAIT_EXPIRY, STOOK_CLOSE, STOOK_SIGNED. -/
def Obligations.Sheaves : Prop :=
  (∀ (s : State) (q k : Nat) (r : ReadOut) (c : Cmd) (row : Nat) (j : SheafJob), s.startable q k 0x40 c →
    r.ok = true → bit c.desc.src 63 = false →
    (s.started q c).operandRow 0 true (c.desc.src % 2 ^ 63) r.bytes.length 0 = some row →
    c.drill = none → SheafJob.parse r.bytes q k c.desc.tag 0 = some j →
    ((s.started q c).row row).part = j.part → (s.started q c).mayAct q c j.part = true →
    (s.started q c).sheafCause j = none → ∀ u : State, u = s.started q c →
    exec (.sheaf q k r) s = .next (u.withShf { u.dig.shf with jobs := u.dig.shf.jobs ++ [j] })) ∧
  (∀ (s : State) (q k : Nat) (j : SheafJob), s.sheafTurn q k = some j → (j.waitStep = true → j.stepStatus ≠ none) →
    s.engineOut 8 = false →
    ∀ u : State, u = s.sheafCloses j → u.sheafReady j = true → u.drbgOk = true → u.dig.shf.closeDue = none →
    u.dig.shf.leaves.length < 4096 → exec (.sheafAppend q k) s = .next (u.appendSheaf j)) ∧
  (∀ (s : State) (port : Nat), s.owner port → exec (.flush port) s = .next (s.closeStook.regRsp port 0 false)) ∧
  (∀ s : State, s.dig.shf.leaves ≠ [] → s.dig.shf.closeDue = none → s.dig.shf.signing = none → s.maySign = true →
    exec .maxwaitExpiry s = .next (s.startSigning s.life.time)) ∧
  (∀ (s : State) (x : Shf), s.dig.shf.leaves ≠ [] → s.dig.shf.closeDue = none → s.dig.shf.signing ≠ none →
    x = { s.dig.shf with closeDue := some s.life.time } → exec .maxwaitExpiry s = .next (s.withShf x)) ∧
  (∀ s : State, s.dig.shf.leaves.length = 4096 → s.dig.shf.closeDue = none → s.dig.shf.signing = none →
    s.maySign = true → exec .stookClose s = .next (s.startSigning s.life.time)) ∧
  (∀ (s : State) (g : Signing), s.dig.shf.signing = some g → (s.life.lc ≠ .test → s.predOk = true) →
    (∀ l ∈ g.leaves, l.job = none) → ∀ u : State, u = (s.stookRecord g).2 →
    exec .stookSigned s = .next (((u.withShf { u.dig.shf with signing := none }).count 466 1).dueStook))

/-- R331, R333, R336, R339, R340, R342, R343, R334: a translation that the host grants is cached, one that it refuses is
counted and fails what waited; an invalidation drops its pages and is answered when no read of the attachment is out; the
transfer that waited for a translation goes on; an ended transfer has its status written; a segment that opens under the key
of its queue is the command's next input, and one that does not, or could not be read, is counted and ends it; a mailbox
message of 1 to 1,024 bytes is answered in place; a HOST slot at 75 % of its limit raises its mailbox's warning. Completes:
ATS_COMPLETION, ATS_INVALIDATE, BOUNCE_TRANSFER, TRANSFER_COMPLETE, HOST_DMA_READ_DONE, HOST_MBOX_GO, KEYWARN. -/
def Obligations.HostInterface : Prop :=
  (∀ (s : State) (att : Nat) (va pa : BitVec 52) (perm : BitVec 2) (r : AtsReq),
    s.host.atsOut.find? (fun r => r.att == att && r.va == va.toNat) = some r → perm ≠ 0 →
    exec (.atsCompletion att va pa perm true) s = .next
      (({ s with host := { s.host with atsOut := s.host.atsOut.filter (· != r) } }).cacheTrans
        { att := att, pasid := r.pasid, va := r.va, pa := pa.toNat, perm := perm.toNat })) ∧
  (∀ (s : State) (att : Nat) (va pa : BitVec 52) (perm : BitVec 2) (r : AtsReq),
    s.host.atsOut.find? (fun r => r.att == att && r.va == va.toNat) = some r →
    exec (.atsCompletion att va pa perm false) s = .next (r.who.foldl State.failWaiter
      (({ s with host := { s.host with atsOut := s.host.atsOut.filter (· != r) } }).incFld F.hostErr_TRANS_FAIL))) ∧
  (∀ (s : State) (att : Nat) (first last : BitVec 52), att < 2 → s.host.reads.filter (·.att == att) = [] →
    exec (.atsInvalidate att first last) s = .next (({ s with host := { s.host with atc := s.host.atc.filter fun t =>
      !(t.att == att && decide (first.toNat ≤ t.va ∧ t.va ≤ last.toNat)) } }).emit (.atsInvDone att))) ∧
  (∀ (s : State) (c : Nat) (d src : ReadOut) (f : Xfer), c < 128 → (s.chan c).state = .running →
    (s.chan c).xfers.length < 8 → (s.part (s.cPart c)).winnow = none →
    s.engineOut 9 = false → (s.chan c).waiting = some f →
    exec (.bounceTransfer c d src) s = .next (s.startXfer c f src)) ∧
  (∀ (s : State) (c : Nat) (f : Xfer) (fs : List Xfer), (s.chan c).xfers = f :: fs → f.done = true →
    exec (.transferComplete c) s = .next ((s.endXfer c f).partGo (s.cPart c))) ∧
  (∀ (s : State) (tag : BitVec 10) (seg : Bytes) (r : HostRead) (c : Cmd),
    s.host.reads.find? (fun r => r.tag == tag.toNat) = some r → r.chan = false → ∀ u : State,
    u = (s.readGone r.tag).spend (hostEnergy seg.length) → u.cmd r.obj r.k = some c → c.idx = r.no → c.st = .running →
    (∀ b : Bytes, u.openRead r c.input.length c.ord c.drillStep seg = some b → ∀ d : Cmd,
      d = { c with input := c.input ++ b } →
      exec (.hostDmaReadDone tag seg false) s = .next (((u.setCmd r.obj d).askSegment r.obj d).moreReads.partGo r.part)) ∧
    ∀ v : State, v = (u.incFld F.hostErr_OPEN_FAIL).svcDone r.obj r.k 1 3 c.pos 0 0 →
    (u.openRead r c.input.length c.ord c.drillStep seg = none →
      exec (.hostDmaReadDone tag seg false) s = .next (v.moreReads.partGo r.part)) ∧
    exec (.hostDmaReadDone tag seg true) s = .next (v.moreReads.partGo r.part)) ∧
  (∀ (s : State) (port m : Nat) (len : BitVec 11), m < 65 → s.regsOpen = true → (port = 1 ∨ port = 2) →
    1 ≤ len.toNat → len.toNat ≤ 1024 → ∀ u : State, u = (s.setFld F.hostMboxCtl_LEN len.toNat m).regRsp port 0 false →
    ∀ a : Bytes, a = (u.spdm m (u.mboxBytes m len.toNat)).1.take 1024 →
    exec (.hostMboxGo port m len) s = .next ((((((u.spdm m (u.mboxBytes m len.toNat)).2.setMbox m a).setFld
      F.hostMboxCtl_GO 0 m).setFld F.hostMboxCtl_RSP_READY 1 m).setFld F.hostMboxCtl_RSP_LEN a.length m))) ∧
  (∀ (s : State) (slot : BitVec 16), (s.slot slot.toNat).kind = .host → 3 * 2 ^ 40 ≤ 4 * (s.slot slot.toNat).usage →
    s.host.warned.contains slot.toNat = false → tget 0 s.host.slotBox slot.toNat = 65 →
    ∀ u : State, u = ({ s with host := { s.host with warned := nsInsert s.host.warned slot.toNat } }).setFld
      F.hostStat_MGR_WARN 1 →
    exec (.keywarn slot) s = .next (u.emit (.msix (u.fld F.hostCtl_WARN_ATT) (u.fld F.hostCtl_WARN_VEC))))

/-- R314, R315, R316, R318: AES_ENC, AES_DEC, XTS_ENC and XTS_DEC, with a length and unit in range, SERVICE keys with room
below their limits and operands in device memory, charge their slots and hold their input for the SCU; a key of another kind
fails with DETAIL KIND, and a charge past a limit completes KEY_LIMIT and charges nothing. Completes: AES_ENC, AES_DEC,
XTS_ENC, XTS_DEC. -/
def Obligations.CipherStarts : Prop :=
  ∀ (s u v : State) (q k op : Nat) (src : ReadOut) (c : Cmd) (i : Instr),
    (i, op) ∈ [(.aesEnc q k src, 1), (.aesDec q k src, 2), (.xtsEnc q k src, 3), (.xtsDec q k src, 4)] →
    s.startable q k op c → u = s.started q c → c.desc.cipherOk (u.gangs c) = true → u.noEngines = false →
    (∀ x : Cmd, x = { c with st := .running, gang := u.gangs c, input := src.bytes } →
      (∀ x ∈ c.desc.charges, (u.slot x.1).kind = .service) → (3 ≤ op → c.desc.kidx ≠ c.desc.arg16) →
      u.overLimit c.desc.charges = false → bit c.desc.src 63 = false → bit c.desc.dst 63 = false →
      u.operandOk q c c.desc.src c.desc.len 0 = true → u.operandOk q c c.desc.dst c.desc.len 1 = true →
      v = c.desc.charges.foldl (fun s x => s.chargeSlot x.1 x.2) u → v.srcOk q c c.desc.len src = true →
      exec i s = .next ((v.readLines (v.qPart q) (c.desc.src % 2 ^ 63) c.desc.len).setCmd q x)) ∧
    ((u.slot c.desc.kidx).kind ≠ .service → exec i s = .next (u.svcDone q c.k 1 1 0 0 0)) ∧
    ((∀ x ∈ c.desc.charges, (u.slot x.1).kind = .service) → (3 ≤ op → c.desc.kidx ≠ c.desc.arg16) →
      u.overLimit c.desc.charges = true → exec i s = .next (u.svcDone q c.k 7 0 0 0 0))

/-- R313, R319, R320: the arbiter's next burst is processed with one draw of the DRBG, and the last one ends its command; a
stripe of a gang command that is not the last is counted, and one that failed is marked. Completes: SCU_BURST,
GANG_STRIPE_DONE. -/
def Obligations.BurstsAndStripes : Prop :=
  (∀ (s u : State) (q n : Nat) (x : Scu) (c d : Cmd), s.drbgOk = true → s.engineOut 3 = false → s.scuPick = some (q, x) →
    s.scuJob q = some c → n = c.burst →
    u = ((s.withScu { x with progress := (x.progress + n / 16) % 2 ^ 32 }).svcTake (s.qPart q)).drew →
    d = { c with pos := c.pos + n, output := c.output ++ s.scuOut c.desc c.pos (sub c.input c.pos n) } →
    exec .scuBurst s = .next (if c.desc.len ≤ c.pos + n then (u.setCmd q d).cipherEnd q d else u.setCmd q d)) ∧
  (∀ (s : State) (q k i : Nat) (c : Cmd), s.cmd q k = some c → c.st = .running → c.gang = true → i < c.desc.stripes →
    c.stripes.contains i = false → (nsInsert c.stripes i).length < c.desc.stripes → ∀ d : Cmd,
    d = { c with stripes := nsInsert c.stripes i, failed := c.failed + 2 ^ i } →
    exec (.gangStripeDone q k i false) s = .next ((s.count 468 1).setCmd q d)) ∧
  (∀ (s u : State) (q k i : Nat) (c : Cmd), s.cmd q k = some c → c.st = .running → c.gang = true → i < c.desc.stripes →
    c.stripes.contains i = false → (nsInsert c.stripes i).length < c.desc.stripes → bit c.desc.dst 63 = false →
    ∀ d : Cmd, d = { c with stripes := nsInsert c.stripes i } →
    s.stripeOut q c i (s.scuOut c.desc (65536 * i) (sub c.input (65536 * i) (min 65536 (c.desc.len - 65536 * i)))) = (true, u) →
    exec (.gangStripeDone q k i true) s = .next ((u.count 468 1).setCmd q d))

/-- R192, R317: a SERVICE key that was imported and is not NOEXPORT is wrapped under the wrapping key and written at DST; a
wrapped key that opens goes into the lowest EMPTY slot, one that does not is counted and fails; the key-origin statement of
a slot that holds a key is written at DST. Completes: KEY_WRAP, KEY_IMPORT, KEY_ORIGIN. -/
def Obligations.WrappedKeys : Prop :=
  (∀ (s u v : State) (q k : Nat) (c : Cmd) (key : Key), s.startable q k 0x05 c → u = s.started q c →
    u.wrapKey q c = .inr (key, v) → (u.slot c.desc.arg16).kind = .service → (u.slot c.desc.arg16).origin = .imported →
    (u.slot c.desc.arg16).noexport = false → c.desc.hostUnits 0 48 = 0 → bit c.desc.dst 63 = false →
    u.operandOk q c c.desc.dst 48 1 = true →
    exec (.keyWrap q k) s = .next (v.finishDst q c (kwWrap key (wrapBody (u.slot c.desc.arg16))) 0 0)) ∧
  (∀ (s u v : State) (q k n : Nat) (c : Cmd) (key : Key) (src : ReadOut) (x : Slot), s.startable q k 0x06 c →
    u = s.started q c → (∃ y, u.wrapKey q c = .inr y) → c.desc.hostUnits 48 0 = 0 → bit c.desc.src 63 = false →
    u.srcOk q c 48 src = true →
    (u.readLines (u.qPart q) (c.desc.src % 2 ^ 63) 48).wrapKey q c = .inr (key, v) → (kwUnwrap key src.bytes).bind unwrapBody = some x → v.freeSlot .service = some n →
    c.owner = true → exec (.keyImport q k src) s = .next ((v.putSlot n x).svcDone q k 0 0 48 n 0)) ∧
  (∀ (s u v : State) (q k : Nat) (c : Cmd) (key : Key) (src : ReadOut), s.startable q k 0x06 c →
    u = s.started q c → (∃ y, u.wrapKey q c = .inr y) → c.desc.hostUnits 48 0 = 0 → bit c.desc.src 63 = false →
    u.srcOk q c 48 src = true →
    (u.readLines (u.qPart q) (c.desc.src % 2 ^ 63) 48).wrapKey q c = .inr (key, v) → (kwUnwrap key src.bytes).bind unwrapBody = none →
    exec (.keyImport q k src) s = .next ((v.incFld F.scuErr_UNWRAP).svcDone q k 1 4 0 0 0)) ∧
  (∀ (s u v : State) (q k : Nat) (c : Cmd) (nonce : ReadOut), s.startable q k 0x13 c → u = s.started q c →
    v = u.readLines (u.qPart q) (c.desc.src % 2 ^ 63) 32 → u.life.lc ≠ .blank →
    (u.slot c.desc.arg16).kind ≠ .empty → (u.life.lc = .test ∨ u.predOk = true) → c.desc.hostUnits 32 4899 = 0 → bit c.desc.src 63 = false →
    bit c.desc.dst 63 = false → u.operandOk q c c.desc.dst 4899 1 = true → u.srcOk q c 32 nonce = true →
    exec (.keyOrigin q k nonce) s = .next ((v.keyOriginStatement c.desc.arg16 nonce.bytes).2.finishDst q c
      (v.keyOriginStatement c.desc.arg16 nonce.bytes).1 0 0))

/-- R321, R322, R344: an operation of the public-key unit takes a token of its partition's bucket and counts; PK_HASH writes
the digest at DST, and the verifications complete SUCCESS with RES0 1 for a valid signature and 0 otherwise. Completes:
PK_HASH, PK_MLDSA_VERIFY, PK_ECDSA_VERIFY. -/
def Obligations.PublicKeyUnit : Prop :=
  ∀ (s u w : State) (q k : Nat) (c : Cmd) (src : ReadOut), u = s.started q c → u.svcAdmits (u.qPart q) = true →
    u.engineOut 6 = false → bit c.desc.src 63 = false → bit c.desc.dst 63 = false → c.desc.len ≠ 0 →
    u.srcOk q c c.desc.len src = true → w = u.pkuStarted q c c.desc.len →
    (∀ d : Bytes, s.startable q k 0x50 c → pkDigest c.desc.arg16 (src.bytes.take c.desc.len) = some d →
      c.desc.len ≤ 2 ^ 20 → u.operandOk q c c.desc.dst (pkLen c.desc.arg16) 1 = true →
      exec (.pkHash q k src) s = .next (w.finishDst q c d 0 0)) ∧
    (s.startable q k 0x51 c → 7475 ≤ c.desc.len → c.desc.len ≤ 7475 + 65536 →
      exec (.pkMldsaVerify q k src) s = .next (w.svcDone q k 0 0 c.desc.len (if mldsaOperand src.bytes then 1 else 0) 0)) ∧
    (s.startable q k 0x52 c → c.desc.len = 241 →
      exec (.pkEcdsaVerify q k src) s = .next (w.svcDone q k 0 0 241
        (if Config.ecdsaVerify (src.bytes.take 97) (sub src.bytes 193 48) (sub src.bytes 97 96) then 1 else 0) 0))

/-- R323, R324, R325: a drill image that is read and admitted is stored under a fresh version with its digest; a drill runs
with its parameters patched in, its first step starting in the command's place; a drill that does not run is dropped.
Completes: DRILL_STORE, DRILL_RUN, DRILL_DROP. -/
def Obligations.Drills : Prop :=
  (∀ (s u v : State) (q k : Nat) (c : Cmd) (image : ReadOut) (x : Drill), s.startable q k 0x60 c → u = s.started q c →
    c.desc.arg16 < 1024 → 192 ≤ c.desc.len → c.desc.len ≤ 4736 → bit c.desc.src 63 = false →
    u.srcOk q c c.desc.len image = true → drillOk image.bytes = true → c.owner = true → u.drill c.desc.arg16 = none →
    u.drillRuns c.desc.arg16 = false → u.sealedClosed 4 = false →
    v = u.readLines (u.qPart q) (c.desc.src % 2 ^ 63) c.desc.len → x =
      { owner := true, part := u.qPart q, s := le image.bytes 10 1, p := le image.bytes 11 1, q := le image.bytes 12 1,
        version := v.drawEpoch.1, digest := Config.sha3_384 image.bytes, image := image.bytes } →
    exec (.drillStore q k image) s = .next (((v.drawEpoch.2.setDrill c.desc.arg16 (some x)).drillLines c.desc.arg16
      v.drawEpoch.1 image.bytes).svcDone q k 0 0 image.bytes.length 0 0)) ∧
  (∀ (s u : State) (q k : Nat) (c : Cmd) (params lines : ReadOut) (x : Drill) (b : Bytes) (rest : List Bytes)
      (r : DrillRun), s.startable q k 0x61 c → u = s.started q c → u.drill c.desc.arg16 = some x → x.part = u.qPart q →
    c.owner = true → c.desc.len = 8 * x.p → c.desc.len ≠ 0 → bit c.desc.src 63 = false → c.desc.hostUnits c.desc.len 0 = 0 →
    u.srcOk q c c.desc.len params = true → lines.ok = true → x.steps params.bytes = b :: rest →
    ∀ v : State, v = (u.readLines (u.qPart q) (c.desc.src % 2 ^ 63) c.desc.len).count 473 1 →
    v.admitDesc q true (Desc.parse b) = none →
    r = { drill := c.desc.arg16, steps := rest, step := 0, ok := 0, digest := x.digest, tag := c.desc.tag,
          flags := c.desc.flags } →
    ∀ d : Cmd, d = { c with st := .fetched, desc := Desc.raw b, drill := some r } →
    exec (.drillRun q k params lines) s = .next (v.setCmd q d)) ∧
  (∀ (s u : State) (q k : Nat) (c : Cmd) (x : Drill), s.startable q k 0x62 c → u = s.started q c →
    u.drill c.desc.arg16 = some x → x.part = u.qPart q → u.drillRuns c.desc.arg16 = false →
    exec (.drillDrop q k) s = .next ((u.setDrill c.desc.arg16 none).svcDone q k 0 0 0 0 0))

/-- R74, R75, R413, R415, R416: an acknowledgement that was asked for is taken, and one that was not is recorded; its fall
ends the lowering; one that does not rise in time ends what waits ESCALATED with its records; with the acknowledgement high
a winnow's scrub is presented; an answered scrub lets the winnow go on, one that nothing asked for is counted, and one that
fails or does not answer escalates. Completes: DRAIN_ACK, DRAIN_OVERRUN, DRAIN_ACK_FALL, SCRUB_REQUEST, SCRUB_DONE,
SCRUB_OVERRUN. -/
def Obligations.DrainAndScrub : Prop :=
  (∀ (s : State) (p : BitVec 6), (s.part p.toNat).drainAck = false → (s.part p.toNat).drainReq = true →
    (s.part p.toNat).acked = false → exec (.drainAck p) s = .next ((s.setPart p.toNat { s.part p.toNat with
      drainAck := true, acked := true }).ackTaken p.toNat)) ∧
  (∀ (s : State) (p : BitVec 6), (s.part p.toNat).drainAck = false → (s.part p.toNat).drainReq = false →
    exec (.drainAck p) s = .next ((s.setPart p.toNat { s.part p.toNat with drainAck := true }).record .drainOverrun .fault 0
      (some p.toNat) 2 0)) ∧
  (∀ (s : State) (p : BitVec 6), (s.part p.toNat).drainAck = true → (s.part p.toNat).drainReq = false →
    exec (.drainAckFall p) s = .next (s.setPart p.toNat { s.part p.toNat with drainAck := false, lowering := false })) ∧
  (∀ (s : State) (p : BitVec 6), (s.part p.toNat).drainReq = false → (s.part p.toNat).lowering = true → ∀ u : State,
    u = s.setPart p.toNat { s.part p.toNat with lowering := false } →
    exec (.drainOverrun p) s = .next ((u.record .drainOverrun .fault 0 (some p.toNat) 1 0).record .escalate .fault 0
      (some p.toNat) 3 0x30)) ∧
  (∀ (s : State) (p : BitVec 6) (w : WinnowRun), (s.part p.toNat).winnow = some w → w.step = 3 →
    (s.part p.toNat).drainAck = true → (s.part p.toNat).scrub = false → ∀ u : State,
    u = (s.setPart p.toNat { s.part p.toNat with scrub := true }).emit (.scrub p.toNat w.scope) →
    exec (.scrubRequest p) s = .next (((u.clearPart p.toNat).winnowStep p.toNat 6).winnowGo p.toNat)) ∧
  (∀ (s : State) (p : BitVec 6), (s.part p.toNat).scrub = true → ∀ x : Part, x = { s.part p.toNat with
      scrub := false, winnow := (s.part p.toNat).winnow.map fun w => { w with scrubDone := true } } →
    exec (.scrubDone p 0) s = .next ((s.setPart p.toNat x).winnowGo p.toNat)) ∧
  (∀ (s : State) (p : BitVec 6) (st : BitVec 2), (s.part p.toNat).scrub = false →
    exec (.scrubDone p st) s = .next (s.incFld F.gstat_SCRUB_SPURIOUS)) ∧
  (∀ (s : State) (p : BitVec 6) (w : WinnowRun), (s.part p.toNat).winnow = some w → (s.part p.toNat).scrub = true →
    exec (.scrubOverrun p) s = .next ((s.record .scrubOverrun .fault 0 (some p.toNat) w.bound 0).winnowFail p.toNat 0x31))

/-- R345, R413, R415: outside a settle, HEDGE on a partition without a cause raises its drain request, adds cause OWNER and
stays busy until the acknowledgement; UNHEDGE drops that cause; WINNOW of a partition with nothing in its way adds its cause
with the scope and bound it takes now, and of a radio partition is refused; RESET_DRAIN and RESET_SQUASH of a partition with
no cause, reset or winnow add cause RESET and set BUSY, and are refused otherwise. Completes: HEDGE, UNHEDGE, WINNOW,
RESET_DRAIN, RESET_SQUASH. -/
def Obligations.HedgesAndResets : Prop :=
  (∀ (s u : State) (port : Nat) (p : BitVec 6), s.owner port → s.fld F.fltHedge_BUSY = 0 →
    u = s.setFld F.fltHedge_PART p.toNat → (s.part p.toNat).causes = [] → s.hedged p.toNat = false →
    s.life.settling = false → ∀ v : State, v = (u.setPart p.toNat { s.part p.toNat with causes := [.owner], drainReq := true, acked := false, lowering := false
      }).emit (.drainReq p.toNat true) → exec (.hedge port p) s =
      .next (((v.setPart p.toNat { v.part p.toNat with hedgeBusy := true }).setFld F.fltHedge_BUSY 1).regRsp port 0 false)) ∧
  (∀ (s u : State) (port : Nat) (p : BitVec 6), s.owner port → s.fld F.fltHedge_BUSY = 0 →
    u = s.setFld F.fltHedge_PART p.toNat →
    exec (.unhedge port p) s = .next (((u.removeCause p.toNat .owner).hedgeEnd p.toNat 1 0).regRsp port 0 false)) ∧
  (∀ (s u : State) (port : Nat) (p : BitVec 6), s.owner port → s.fld F.fltHedge_BUSY = 0 →
    u = s.setFld F.fltHedge_PART p.toNat → (s.plotOf p.toNat).radio = true →
    exec (.winnow port p) s = .next ((u.hedgeEnd p.toNat 2 1).regRsp port 0 false)) ∧
  (∀ (s u v : State) (port : Nat) (p : BitVec 6), s.owner port → s.fld F.fltHedge_BUSY = 0 →
    u = s.setFld F.fltHedge_PART p.toNat → (s.plotOf p.toNat).radio = false → (s.part p.toNat).causes = [] →
    (s.part p.toNat).winnow = none → (s.part p.toNat).instReset = none → s.hedged p.toNat = false →
    v = (u.addCause p.toNat .winnow).setFld F.fltHedge_BUSY 1 → ∀ w : WinnowRun,
    w = { step := 1, scope := v.fld F.fltWinnow_SCOPE, bound := v.fld F.fltWinnow_BOUND_US } →
    exec (.winnow port p) s = .next ((v.setPart p.toNat { v.part p.toNat with winnow := some w }).regRsp port 0 false)) ∧
  (∀ (s v : State) (port : Nat) (p : BitVec 6) (i : Instr) (squash : Bool),
    (i, squash) ∈ [(.resetDrain port p, false), (.resetSquash port p, true)] → s.owner port →
    s.fld F.partCtl_BUSY p.toNat = 0 → (s.plotOf p.toNat).radio = false → (s.part p.toNat).causes = [] →
    (s.part p.toNat).winnow = none → (s.part p.toNat).instReset = none →
    v = (s.addCause p.toNat .reset).setFld F.partCtl_BUSY 1 p.toNat → exec i s = .next ((v.setPart p.toNat
      { v.part p.toNat with instReset := some { step := 1, squash := squash } }).regRsp port 0 false)) ∧
  (∀ (s : State) (port : Nat) (p : BitVec 6) (i : Instr) (squash : Bool),
    (i, squash) ∈ [(.resetDrain port p, false), (.resetSquash port p, true)] → s.owner port →
    s.fld F.partCtl_BUSY p.toNat = 0 → (s.part p.toNat).causes ≠ [] →
    exec i s = .next (((s.setFld F.partCtl_RESULT 1 p.toNat).partTrace p.toNat 3 1).regRsp port 0 false))

/-- R346, R347, R114: FLIP switches the bitmap, with the pages that wait as the old one's; the bit of a logged page is ORed
into its line and the page is logged no more; a CLOSING region without references becomes FREE. Completes: FLIP,
DIRTY_LOG_OR, REGION_FREE. -/
def Obligations.DirtyLogging : Prop :=
  (∀ (s : State) (port : Nat) (p : BitVec 6), s.owner port → (s.part p.toNat).oldDirty = [] → ∀ x : Part,
    x = { s.part p.toNat with activeMap := !(s.part p.toNat).activeMap, oldDirty := (s.part p.toNat).dirty,
                              dirty := [], logged := [] } →
    exec (.flip port p) s = .next ((s.setPart p.toNat x).regRsp port 0 false)) ∧
  (∀ (s u : State) (p : BitVec 6) (page : Nat) (old : ReadOut), (s.part p.toNat).oldDirty.contains page = false →
    (s.part p.toNat).dirty.contains page = true → old.ok = true → old.bytes.length = 64 → ∀ base b : Nat,
    base = s.fld F.partDirtyBase_ADDR p.toNat + (if (s.part p.toNat).activeMap then s.bitmapSize p.toNat else 0) →
    b = s.pageBit p.toNat page → s.maintBytes p.toNat (base + b / 512 * 64)
      (bvBytes (toLine old.bytes ||| BitVec.ofNat 512 (2 ^ (b % 512)))) = (true, u) → ∀ x : Part,
    x = { s.part p.toNat with dirty := (s.part p.toNat).dirty.filter (· != page) } → ∀ v : State,
    v = { u with parts := s.parts } → exec (.dirtyLogOr p page old) s = .next (v.setPart p.toNat x)) ∧
  (∀ (s : State) (row : BitVec 14), (s.row row.toNat).state = .closing → s.regionRefs row.toNat = 0 →
    (s.row row.toNat).closer = none →
    exec (.regionFree row) s = .next ((s.freeRegion row.toNat).winnowGo (s.row row.toNat).part))

/-- R60, R131, R132, R259, R263, R266, R270: a fabric request is refused at its source, is discarded when its step is
poisoned, is held behind a provisional read of its step, or goes to its flow, and an identifier in use stops the model; a
COPY sends the lines it read; a receiver that owes 4 KiB returns it; a request without a response completes RETRY, or POISON
for ATOMIC, and FENCED without a time-out when its destination is. Completes: FABRIC_REQUEST, COPY_LOCAL_READ,
CREDIT_MESSAGE, RESPONSE_TIMEOUT. -/
def Obligations.FabricRequests : Prop :=
  (∀ (s u v : State) (i : Nat) (r : FabReq), i < 16 → s.freqReady i r.cls.toNat = true →
    s.mem.tids.contains ((64 + i) * 1024 + r.tid.toNat) = false →
    u = s.withMem { s.mem with tids := ((64 + i) * 1024 + r.tid.toNat) :: s.mem.tids } →
    (∀ x, u.fabCheck r false = some x → exec (.fabricRequest i r) s = .next (u.fabRefuse i r x)) ∧
    (u.fabCheck r false = none → v = (u.openStep r.step.toNat r.part.toNat).2 →
      ((v.stepEnt r.step.toNat).discard = true → exec (.fabricRequest i r) s = .next (v.frsp i r .poison [] true)) ∧
      ((v.stepEnt r.step.toNat).discard = false → (v.stepEnt r.step.toNat).pend ≠ [] → r.cls ≠ 0 →
        exec (.fabricRequest i r) s =
          .next (v.hold r.step.toNat r.part.toNat (v.stepEnt r.step.toNat).pend (.fab i r))) ∧
      ((v.stepEnt r.step.toNat).discard = false → (r.cls = 0 ∨ (v.stepEnt r.step.toNat).pend = []) →
        exec (.fabricRequest i r) s = .next (v.fabSend i r false)))) ∧
  (∀ (s : State) (i : Nat) (r : FabReq), i < 16 → s.freqReady i r.cls.toNat = true →
    s.mem.tids.contains ((64 + i) * 1024 + r.tid.toNat) = true → exec (.fabricRequest i r) s = .fault .tidReused) ∧
  (∀ (s : State) (h : Nat) (r : ReadOut) (o : FabOut) (t : Txn) (req : MemReq),
    s.links.outs.find? (fun o => o.mtag == h && o.req.op == 4 && !o.entered) = some o → r.ok = true →
    req = { addr := BitVec.ofNat 40 (o.req.op1.toNat % 2 ^ 40), len := o.req.len, write := false,
            kidx := BitVec.ofNat 16 (bits o.req.op1.toNat 40 16), part := o.req.part, gen := o.req.gen, step := o.req.step,
            cls := o.req.cls, tid := 0, span := 0, rdom := o.req.rdom, data := [] } →
    t = { id := 0, lane := 63, grp := s.groupOf (o.req.op1.toNat % 2 ^ 40), req := req } →
    o.req.op1.toNat % 2 ^ 40 / 64 % 64 + o.req.len.toNat ≤ 63 → s.admitCheck t = none →
    r.bytes.length = 64 * (o.req.len.toNat + 1) → ∀ o' : FabOut,
    o' = { o with data := toLines r.bytes (o.req.len.toNat + 1) } →
    exec (.copyLocalRead h r) s = .next ((s.readLines o.req.part.toNat (o.req.op1.toNat % 2 ^ 40)
      (64 * (o.req.len.toNat + 1))).placeOut o')) ∧
  (∀ (s : State) (flow : BitVec 32) (f : RxFlow), bits flow.toNat 16 2 ≠ 0 → s.links.rx.find? (fun f =>
      f.src == bits flow.toNat 0 16 && f.lane == bits flow.toNat 16 2 && f.fgen == bits flow.toNat 18 14) = some f →
    4096 ≤ f.owed → ∀ (n : Nat) (u : State), s.takeOwed f = (n, u) →
    exec (.creditMessage flow) s = .next (u.sendCtl (bits flow.toNat 0 16) false
      { mtype := 3, gen := u.life.genCur, word := n, data := leBytes 4 flow.toNat })) ∧
  (∀ (s : State) (mtag : BitVec 16) (o : FabOut), s.links.outs.find? (fun o => o.mtag == mtag.toNat && o.entered && o.sealed) =
      some o →
    (s.dom.fenced.contains o.req.dest.toNat = false ∨ o.lane ≠ 1 → exec (.responseTimeout mtag) s =
      .next ((s.incFld F.fabErr_RSP_TIMEOUT).finishOut o (if o.req.op = 2 then .poison else .retry) []).retryWaiting) ∧
    (s.dom.fenced.contains o.req.dest.toNat = true → o.lane = 1 → exec (.responseTimeout mtag) s =
      .next (s.finishOut o .fenced []).retryWaiting))

/-- R62, R256 to R259, R261, R262, R457: an INFER flow's open frame closes, when no RADIO frame waits at its port and the
throttle's budget allows it, with the messages that fit its credit, sealed under its next sequence, transmitted and counted,
with one unit charged to its key and the credit taken; a received frame with a bad link mark is dropped and counted, one of
a known CONTROL flow in sequence whose tag verifies has its messages passed on, one that fails its tag, or leaves a gap, is
a break, and one of an earlier sequence is dropped and counted. Completes: FRAME_CLOSE, FRAME_RECEIVE. -/
def Obligations.Frames : Prop :=
  (∀ (s u v w : State) (flow : BitVec 32) (dest : BitVec 16) (f f' : TxFlow) (ms rest : List Msg) (payload : Bytes) (fr : Frame),
    bits flow.toNat 16 2 = 1 → u = s.collectRsps 1 dest.toNat → flow.toNat % 65536 = u.unit →
    u.links.tx.find? (fun f => f.lane == 1 && f.dest == dest.toNat && f.fgen == bits flow.toNat 18 14 && !f.down) = some f →
    u.portUp f.port = true → u.radioFirst f.port = false → u.life.settling = false →
    packMsgs f.waiting.length (min 4096 f.credit) f.waiting = (ms, rest) → ms ≠ [] →
    (u.fits f.energy = false → exec (.frameClose flow dest) s = .next u.withhold) ∧
    (u.fits f.energy = true → f.epoch0 = false → (u.slot f.slot).usage + 1 ≤ (u.slot f.slot).limit →
      payload = (ms.map Msg.bytes).flatten →
      fr = sealFrame (u.txKey f) (frameHeader (flowId u.unit 1 f.fgen) f.seq f.dest payload.length f.epoch) payload →
      v = (((u.chargeSlot f.slot 1).spend f.energy).count (160 + 4 * f.port) 1).count (162 + 4 * f.port) payload.length →
      w = (v.setPort f.port { v.port f.port with progress := ((v.port f.port).progress + 1) % 2 ^ 32 }).emit
        (.frame ((v.port f.port).att.getD 63) fr) →
      f' = { f with seq := f.seq + 1, waiting := rest, sent := [], used := w.links.uses,
                    credit := f.credit - payload.length, due := f.due + payload.length } →
      exec (.frameClose flow dest) s = .next (ms.foldl (fun s m => s.noteSent f f.seq m) (w.setTx f').useFlow))) ∧
  (∀ (s : State) (port : Nat) (fr : Frame), port < 40 → s.portUp port = true →
    exec (.frameReceive port fr true) s = .next (s.incFld F.portErr_LINK_BAD port)) ∧
  (∀ (s u : State) (port len fgen src seq : Nat) (fr : Frame) (h : Bytes) (f : RxFlow), port < 40 → s.portUp port = true →
    h = bvBytes fr.header → len = bits (le h 14 2) 0 13 → src = bits (le h 0 4) 0 16 → bits (le h 0 4) 16 2 = 2 →
    fgen = bits (le h 0 4) 18 14 → seq = le h 4 8 → bits (le h 14 2) 14 2 = 1 → 16 ≤ len → len ≤ 4096 → len % 16 = 0 →
    fr.body.length = len → le h 12 2 = s.unit → fgen ≠ 0 →
    s.links.rx.filter (fun f => f.src == src && f.lane == 2 && f.fgen == fgen) = [f] → f.epoch0 = false →
    f.epoch % 2 = bits (le h 14 2) 13 1 → f.broken = false → f.down = false → u = s.spend (portEnergy (len + 32)) →
    (seq = f.next → ∀ payload : Bytes, gcmOpen (s.rxKey f) (h.take 12) h fr.body fr.tag = some payload →
      exec (.frameReceive port fr false) s = .next ((((u.setRx { f with next := seq + 1, used := u.links.uses
        }).useFlow).passOn port f payload).retryWaiting)) ∧
    (seq = f.next → gcmOpen (s.rxKey f) (h.take 12) h fr.body fr.tag = none →
      exec (.frameReceive port fr false) s = .next (u.breakAt port f seq true).retryWaiting) ∧
    (f.next < seq → exec (.frameReceive port fr false) s = .next (u.breakAt port f seq false).retryWaiting) ∧
    (seq < f.next → exec (.frameReceive port fr false) s = .next (u.incFld F.portErr_DUP_DROP port).retryWaiting))

/-- R255, R256, R260, R264, R268, R269, R271, R274, R64: a break moves the flow to its next generation, where what was sent
from the broken frame on and what waits is sent; an idle flow is released, and one whose key is worn is rekeyed, or at the
last generation asks for an epoch; a waiting flag that its region refuses completes so; a link that falls takes its port
down, one that rises is up; the owner's grant of a capability slot sends its token and one without rights is refused; a
grant without an answer ends UNREACHABLE; the owner configures, reads and releases an arrival counter. Completes:
BREAK_RECEIVE, FLOW_IDLE_RELEASE, FLOW_REKEY, FLAG_STORE_EFFECT, LINK_DOWN, LINK_UP, FAB_GRANT, FAB_REVOKE,
GRANT_UNREACHABLE, ACTR_CONFIG, ACTR_READ, ACTR_RELEASE. -/
def Obligations.FlowsAndGrants : Prop :=
  (∀ (s u : State) (src : BitVec 16) (flow : BitVec 32) (q : Word) (f : TxFlow), s.links.tx.find? (fun f =>
      f.dest == src.toNat && flowId s.unit f.lane f.fgen == flow.toNat) = some f → s.links.outs = [] → ∀ ms : List Msg,
    ms = (f.sent.filter fun x => decide (q.toNat ≤ x.1)).map (·.2) ++ f.waiting →
    u = s.trace 3 3 (Src.port.at f.port) none f.dest flow.toNat q.toNat → exec (.breakReceive src flow q) s =
    .next ((u.moveTx f ms).getD (u.setTx { f with down := true, waiting := ms })).retryWaiting) ∧
  (∀ (s : State) (flow : BitVec 32) (dest : BitVec 16) (f : TxFlow), s.links.tx.find? (fun f => f.dest == dest.toNat &&
      flowId s.unit f.lane f.fgen == flow.toNat) = some f →
    (s.txIdle f = true → exec (.flowIdleRelease flow dest) s =
      .next ((s.trace 3 2 (Src.port.at f.port) none f.dest flow.toNat 0).dropTx f).retryWaiting) ∧
    (f.lane = 1 → f.epoch0 = false → 3 * 2 ^ 38 ≤ (s.slot f.slot).usage → f.fgen < 16383 →
      exec (.flowRekey flow dest) s = .next ((s.moveTx f f.waiting).getD s)) ∧
    (f.lane = 1 → f.epoch0 = false → 3 * 2 ^ 38 ≤ (s.slot f.slot).usage → f.fgen = 16383 → s.dom.asked = false →
      s.dom.state = .seat → exec (.flowRekey flow dest) s = .next (s.withDom { s.dom with asked := true }).wantEpoch)) ∧
  (∀ (s u v x : State) (w n : Nat) (old : ReadOut) (t : Txn) (r : Remote) (f : RxFlow) (row : Nat) (d : Line),
    s.links.flags.find? (fun t => t.remote.any (·.no == w)) = some t → t.remote = some r → s.links.reqs = [] →
    s.pageLocked (reqPage t.req) false = false → s.pageClosed (reqPage t.req) = false →
    u = s.withLinks { s.links with flags := s.links.flags.filter fun x => !(x.id == t.id) } →
    (∀ e, u.admitCheck t = some e → exec (.flagStoreEffect w old) s = .next ((u.countCapFail t e.2).refuse t e.2)) ∧
    (u.admitCheck t = none → row = u.rowOf t → u.cycles = (n, v) →
      v.links.rx.find? (fun f => f.src == r.src && f.lane == r.lane) = some f →
      ((v.trace 2 3 (Src.port.at r.port) (some t.req.part.toNat) r.src (flowId r.src r.lane f.fgen) n).count 475 n).chargeCap
        t = (true, x) →
      x.shortfalls [t] row = [] → (x.lineRead row (reqLine t.req)).st = .known d →
      exec (.flagStoreEffect w old) s = .next (x.finishAtomic t r row (some d)))) ∧
  (∀ (s u : State) (att n : Nat), s.links.up.contains att = true → u = s.withLinks { s.links with up := s.links.up.filter (· != att) } →
    (upto 0 40).find? (fun n => decide ((u.port n).att = some att)) = some n →
    exec (.linkDown att) s = .next (u.portDown n false)) ∧
  (∀ (s : State) (att : Nat), att < 36 →
    exec (.linkUp att) s = .next (s.withLinks { s.links with up := nsInsert s.links.up att })) ∧
  (∀ (s : State) (port : Nat) (a : GrantArg) (i : Instr) (revoke : Bool),
    (i, revoke) ∈ [(.fabGrant (.reg port), false), (.fabRevoke (.reg port), true)] → s.owner port → s.links.grant = none →
    a = grantArg (s.rd .fabGrant) →
    ((s.slot a.capidx).kind = .capability → a.rights ≠ 0 → ∀ (m : Msg) (u : State),
      m = { mtype := if revoke then 5 else 4, part := a.hpart, tag := s.links.nextTag % 65536, gen := s.life.genCur,
            capidx := a.capidx, rights := a.rights,
            data := if revoke then [] else bvBytes (s.capToken a.holder a.hpart a.rights a.capidx) } →
      u = (s.withLinks { s.links with nextTag := s.links.nextTag + 1,
                                      grant := some ⟨s.links.nextTag % 65536, a.holder, .reg port, revoke⟩ }).setFld F.fabGrant_BUSY 1 →
      exec i s = .next ((u.sendCtl a.holder false m).regRsp port 0 false)) ∧
    ((s.slot a.capidx).kind ≠ .capability → exec i s =
      .next ((s.engineEnd (.reg port) F.fabGrant_RESULT F.fabGrant_BUSY 1).regRsp port 0 false))) ∧
  (∀ (s : State) (g : GrantRun), s.links.grant = some g → exec .grantUnreachable s = .next
    ((s.withLinks { s.links with grant := none }).engineEnd g.origin F.fabGrant_RESULT F.fabGrant_BUSY 3)) ∧
  (∀ (s u : State) (port : Nat) (c : BitVec 12) (x : Actr), s.owner port → s.cfg.swapping = false →
    s.cfg.resuming = false → s.fld F.fabActrSel_BUSY = 0 → u = s.setFld F.fabActrSel_INDEX c.toNat → x = s.actr c.toNat →
    (∀ y : Actr, x.valid = false → y = { part := s.fld F.fabActrSel_PART, count := 0, target := s.fld F.fabActrVal_TARGET,
                                          valid := true, armed := true } →
      exec (.actrConfig (.reg port) c) s = .next ((((u.setActr c.toNat y).setFld F.fabActrSel_RESULT 0).setFld
        F.fabActrSel_BUSY 0).regRsp port 0 false)) ∧
    (x.valid = false → exec (.actrRead (.reg port) c) s = .next ((u.setFld F.fabActrSel_RESULT 1).regRsp port 0 false)) ∧
    (x.valid = true → exec (.actrRead (.reg port) c) s = .next (((s.wr .fabActrSel (c.toNat + x.part * 2 ^ 16 + 2 ^ 27 +
      (if x.armed then 2 ^ 28 else 0) + (if x.err then 2 ^ 29 else 0))).wr .fabActrVal (x.count + x.target * 2 ^ 32)).regRsp
      port 0 false)) ∧
    (∀ y : Actr, x.valid = true → y = { x with valid := false, armed := false } →
      exec (.actrRelease (.reg port) c) s = .next ((((u.setActr c.toNat y).setFld F.fabActrSel_RESULT 0).setFld
        F.fabActrSel_BUSY 0).regRsp port 0 false)))

/-- R277, R278, R280: JOIN starts admission with HELLO to the first candidate; a candidate with a ballot answers CHALLENGE;
a joiner that finds chain, signatures and ballot good sends EVIDENCE; the seat answers ADMIT, and an admission proposes an
epoch; an admitted joiner waits, NOT_SEAT or BUSY sends it to the next candidate, another refusal ends joining, as does 1 s
without admission; a block in fallow-hold tries the candidates again. Completes: DOM_JOIN, HELLO, CHALLENGE, EVIDENCE,
ADMIT, ADMISSION_TIMEOUT, FALLOW_RETRY. -/
def Obligations.Admission : Prop :=
  (∀ (s : State) (port : Nat), s.owner port → s.fld F.domCtl_BUSY = 0 → s.life.lc ≠ .blank → s.life.lc ≠ .endOfLife →
    (s.dom.state = .detached → exec (.domJoin port) s =
      .next ((((s.setFld F.domCtl_BUSY 1).withDom { s.dom with joinBusy := true }).startJoin).regRsp port 0 false)) ∧
    (s.dom.state ≠ .detached → exec (.domJoin port) s = .next (((s.setFld F.domCtl_BUSY 1).domEnd 1).regRsp port 0 false))) ∧
  (∀ (s u v : State) (src : BitVec 16) (exch : BitVec 32) (body head sigs : Bytes) (b : Ballot),
    (s.dom.ballot = none → exec (.hello src exch body) s =
      .next (s.sendDom "ADMIT" 4 src.toNat exch.toNat true ([5] ++ zeros 15))) ∧
    (s.dom.ballot = some b → s.predOk = true →
      head = leBytes 2 s.unit ++ zeros 6 ++ bvBytes (s.drawn 256) ++ padTo 7491 b.bytes ++ chainField s.chainBytes →
      s.drew.signBoth (exchHash body head) (ascii "LZADMIT") = (sigs, u) → ∀ x : Exch,
      x = { peer := src.toNat, exch := exch.toNat, bodies := body ++ head ++ sigs, ident := BitVec.ofNat 128 (le body 8 16),
            gen := le body 2 1 } → v = u.withDom { u.dom with exchs := (u.dom.exchs.filter fun y => y.peer != src.toNat) ++ [x] } →
      exec (.hello src exch body) s = .next (v.sendDom "CHALLENGE" 2 src.toNat exch.toNat true (head ++ sigs)))) ∧
  (∀ (s u v : State) (src : BitVec 16) (exch : BitVec 32) (body chain head sigs : Bytes) (x : Exch), s.dom.exch = some x →
    x.peer = src.toNat → x.exch = exch.toNat → s.dom.state = .joining → chainSigs x.bodies body 7531 = some chain →
    (s.pkuOwn 2).takeBallot (sub body 40 7491) = (1, u) → u.dom.state = .joining → u.predOk = true →
    head = u.evidenceRecord ++ u.memberRecord ++ chainField u.chainBytes →
    u.signBoth (exchHash (x.bodies ++ body) head) (ascii "LZADMIT") = (sigs, v) →
    exec (.challenge src exch body) s = .next
      ((v.withDom { v.dom with exch := some { x with bodies := x.bodies ++ body ++ head ++ sigs } }).sendDom "EVIDENCE" 3
        src.toNat exch.toNat true (head ++ sigs))) ∧
  (∀ (s u v : State) (src : BitVec 16) (exch : BitVec 32) (body : Bytes) (x : Exch), s.dom.exchs.find? (fun x =>
      x.peer == src.toNat && x.exch == exch.toNat) = some x →
    u = (s.pkuOwn 2).withDom { s.dom with exchs := s.dom.exchs.filter fun y => !(y.peer == src.toNat) } →
    (s.admission x body ≠ 0 → exec (.evidence src exch body) s = .next ((u.sendDom "ADMIT" 4 src.toNat exch.toNat true
      (leBytes 1 (s.admission x body) ++ zeros 7 ++ leBytes 8 0)).forgetEpoch0 src.toNat)) ∧
    (∀ (b : Ballot) (r : MemberRec), s.admission x body = 0 → s.dom.ballot = some b →
      v = (u.sendDom "ADMIT" 4 src.toNat exch.toNat true
        (leBytes 1 0 ++ zeros 7 ++ leBytes 8 (b.epoch * 2 ^ 32 + s.dom.lastCount + 1))).forgetEpoch0 src.toNat →
      r = { (MemberRec.parse (sub body 256 1696)).2 with gen := x.gen } →
      exec (.evidence src exch body) s = .next (v.withDom { v.dom with
        records := tset none v.dom.records (le x.bodies 0 2) (some r), admitted := nsInsert v.dom.admitted (le x.bodies 0 2),
        drop := v.dom.drop.filter (· != le x.bodies 0 2) }).wantEpoch)) ∧
  (∀ (s u : State) (src : BitVec 16) (exch : BitVec 32) (st : BitVec 8) (epoch : Word) (x : Exch), s.dom.exch = some x →
    x.peer = src.toNat → x.exch = exch.toNat → s.dom.state = .joining →
    u = (s.forgetEpoch0 src.toNat).setFld F.domStat_CAUSE st.toNat →
    (st = 0 → exec (.admitCmd src exch st epoch) s = .next (u.withDom { u.dom with exch := none, admitOk := true })) ∧
    (st = 5 ∨ st = 6 → exec (.admitCmd src exch st epoch) s =
      .next ((u.withDom { u.dom with exch := none }).sendHello (u.dom.cand + 1))) ∧
    (0 < st.toNat → st.toNat < 5 → exec (.admitCmd src exch st epoch) s =
      .next ((u.record .admitRefused .domain 0 none st.toNat 0).joinFailed 2))) ∧
  (∀ s : State, s.dom.state = .joining →
    (s.dom.joinedAt + 1000000000 ≤ s.life.time → exec .admissionTimeout s = .next (s.joinFailed 3)) ∧
    (s.life.time < s.dom.joinedAt + 1000000000 → s.dom.admitOk = false →
      exec .admissionTimeout s = .next ((s.withDom { s.dom with exch := none }).sendHello (s.dom.cand + 1)))) ∧
  (∀ s : State, s.dom.state = .fallowHold → exec .fallowRetry s =
    .next ((s.withDom { s.dom with joinedAt := s.life.time, admitOk := false }).sendHello 0))

/-- R283, R284, R277: the seat advances the epoch at command, when a member leaves and when one falls silent; a member
unwraps the key it is sent and answers; all answers, or 100 ms, bring COMMIT, which makes next current; it is repeated to
those that have not answered, and the last answer ends the advance; ABORT discards next; the grace ends the old epoch's
flows and key; a block leaves through its seat, or after 1 s without it. Completes: DOM_ADVANCE, DOM_LEAVE, LEAVE,
MEMBER_SILENT, PREPARE, PREPARED, PREPARE_TIMEOUT, COMMIT, ABORT, COMMIT_REPEAT, COMMITTED, EPOCH_GRACE_END, LEAVE_TIMEOUT.
-/
def Obligations.EpochAdvances : Prop :=
  (∀ (s u : State) (port : Nat), s.owner port → s.fld F.domCtl_BUSY = 0 → s.life.lc ≠ .blank → s.life.lc ≠ .endOfLife →
    u = s.setFld F.domCtl_BUSY 1 →
    (s.dom.state = .seat → s.dom.lastCount + 1 < 2 ^ 32 → exec (.domAdvance port) s =
      .next (((u.withDom { u.dom with advanceBusy := true }).wantEpoch).regRsp port 0 false)) ∧
    (∀ (n : Nat) (v : State), s.dom.state = .member → u.abortAdvance.seatUnit = some n → n ≠ u.abortAdvance.unit →
      v = u.abortAdvance.withDom { u.abortAdvance.dom with state := .leaving, leaveBusy := true } →
      exec (.domLeave port) s = .next ((v.sendMember "LEAVE" 15 n []).regRsp port 0 false))) ∧
  (∀ (s : State) (n : BitVec 16), s.dom.state = .seat → n.toNat ≠ s.unit → s.isMember n.toNat = true →
    exec (.leave n) s = .next (s.withDom { s.dom with drop := nsInsert s.dom.drop n.toNat }).wantEpoch ∧
    ((∀ h ∈ s.dom.heard, h.1 = n.toNat → h.2 + 2500000000 ≤ s.life.time) → exec (.memberSilent n) s =
      .next (s.withDom { s.dom with drop := nsInsert s.dom.drop n.toNat }).wantEpoch)) ∧
  (∀ (s u : State) (src : BitVec 16) (epoch : Word) (wrap key : Bytes) (ms : List (BitVec 16))
    (gens : List (BitVec 16 × BitVec 8)) (m : NatSet) (e : EpochKey), s.dom.state = .member → s.seatUnit = some src.toNat →
    s.epochNo < epoch.toNat → m = ms.foldl (fun (t : NatSet) u => nsInsert t u.toNat) [] → m.contains s.unit = true →
    gcmOpen (epochKek (Config.mlkemDecaps s.dom.keyNo (sub wrap 120 1568)) (Config.ecdh s.dom.keyNo (sub wrap 16 97))
      s.domPlot.domId epoch.toNat s.unit) (zeros 12) (wrap.take 16) (sub wrap 1688 32)
      (BitVec.ofNat 128 (le wrap 1720 16)) = some key →
    e = { epoch := epoch.toNat, key := BitVec.ofNat 256 (ofLE key), members := m,
          gens := gens.foldl (fun (t : Tbl Nat) g => tset 0 t g.1.toNat g.2.toNat)
            ((s.dom.cur.elim [] (·.gens)).filter fun g => m.contains g.1) } →
    u = (s.pkuOwn 2).withDom { s.dom with next := some e } →
    exec (.prepare src epoch wrap ms gens) s =
      .next (u.sendDom "PREPARED" 6 src.toNat 0 u.dom.cur.isNone (leBytes 8 epoch.toNat))) ∧
  (∀ (s u : State) (src : BitVec 16) (epoch : Word) (a b : Advance), s.dom.advance = some a → a.epoch = epoch.toNat →
    a.waiting = none → a.members.contains src.toNat = true → b = { a with prepared := nsInsert a.prepared src.toNat } →
    u = s.withDom { s.dom with advance := some b } →
    ((∀ n ∈ b.members, n = u.unit ∨ b.prepared.contains n = true) →
      exec (.prepared src epoch) s = .next u.sendCommit.endIfDone) ∧
    (∀ n ∈ b.members, n ≠ u.unit → b.prepared.contains n = false → exec (.prepared src epoch) s = .next u) ∧
    exec .prepareTimeout s = .next s.sendCommit.endIfDone) ∧
  (∀ (s : State) (src : BitVec 16) (epoch : Word) (e : EpochKey), s.seatUnit = some src.toNat → s.dom.next = some e →
    e.epoch = epoch.toNat →
    exec (.commit src epoch) s =
      .next (s.commitNext.retryWaiting.sendMember "COMMITTED" 8 src.toNat (leBytes 8 epoch.toNat)) ∧
    exec (.abort src epoch) s = .next (s.withDom { s.dom with next := none })) ∧
  (∀ (s : State) (src : BitVec 16) (epoch : Word) (a : Advance) (w v : NatSet), s.dom.advance = some a → a.waiting = some w →
    exec .commitRepeat s = .next (w.foldl (fun s u => s.sendMember "COMMIT" 7 u (leBytes 8 a.epoch)) s) ∧
    (a.epoch = epoch.toNat → v = w.filter (· != src.toNat) → ∀ u : State,
      u = s.withDom { s.dom with advance := some { a with waiting := some v } } →
      (v = [] → exec (.committed src epoch) s = .next u.endAdvance) ∧
      (v ≠ [] → exec (.committed src epoch) s = .next u))) ∧
  (∀ (s : State) (e : EpochKey), s.dom.old = some e → s.links.tx = [] → s.links.rx = [] →
    exec .epochGraceEnd s = .next (s.withDom { s.dom with old := none }).retryWaiting) ∧
  (∀ s : State, s.dom.state = .leaving →
    (s.dom.leaveBusy = true → exec .leaveTimeout s = .next (s.detach.domEnd 0)) ∧
    (s.dom.leaveBusy = false → exec .leaveTimeout s = .next s.detach))

/-- R282, R286, R287, R289, R290, R281: a ballot posted or received is checked, and its code answered; a member's heartbeat
is answered with a lease, after the ballot the first time; a lease sets its end, and disciplines domain time: an offset
above 1 ms is stepped, another slewed; a lease or a ballot that ends puts the block in fallow-hold; a peer that resets is
marked; a candidate takes the seat's records. Completes: BALLOT_POST, BALLOT, HEARTBEAT_SEND, HEARTBEAT, LEASE,
LEASE_EXPIRY, BALLOT_LAPSE, DOWN, RECORDS. -/
def Obligations.BallotsAndLeases : Prop :=
  (∀ (s u v : State) (port code : Nat) (len : BitVec 14) (rec : Bytes), s.regsOpen = true → u = s.setFld F.domMboxCtl_LEN len.toNat →
    (len.toNat ≠ 7491 → exec (.ballotPost port len) s =
      .next (((u.setFld F.domMboxCtl_POST 0).setFld F.domMboxCtl_RESULT 4).regRsp port 0 false)) ∧
    (len.toNat = 7491 → u.takeBallot (u.boxBytes .domMbox 7491) = (code, v) → exec (.ballotPost port len) s =
      .next (((v.setFld F.domMboxCtl_POST 0).setFld F.domMboxCtl_RESULT code).regRsp port 0 false)) ∧
    (∀ src : BitVec 16, s.takeBallot rec = (code, v) → exec (.ballot src rec) s = .next v)) ∧
  (∀ (s : State) (b : Bytes), s.checkBallot b = 1 → s.dom.ballot = none → s.dom.state = .detached → le b 32 2 = s.unit →
    ∃ v, s.takeBallot b = (1, State.propose v) ∧ v.dom.state = .seat ∧ v.dom.lastCount = 0 ∧
      v.dom.ballot = some (Ballot.parse b)) ∧
  (∀ (s : State) (n : Nat), s.seatUnit = some n → s.dom.state = .member →
    exec .heartbeatSend s = .next (s.sendMember "HEARTBEAT" 10 n (leBytes 8 s.life.time))) ∧
  (∀ (s u : State) (src : BitVec 16) (time : Word) (b : Ballot), s.dom.state = .seat → s.isMember src.toNat = true →
    s.dom.ballot = some b → b.unit = s.unit → b.notBefore ≤ s.life.time → s.life.time + 100000000 ≤ b.notAfter →
    s.dom.ballotSent.contains src.toNat = true → s.dom.again = false → u = s.withDom { s.dom with heard := tput s.dom.heard src.toNat s.life.time } →
    exec (.heartbeat src time) s = .next (u.sendMember "LEASE" 11 src.toNat (leBytes 8 time.toNat ++ leBytes 8 s.life.time ++
      leBytes 8 (s.life.time + 2000000000) ++ leBytes 8 b.epoch ++ bvBytes b.hash))) ∧
  (∀ (s u : State) (src : BitVec 16) (echoed seatTime leaseEnd epoch : Word) (h : Digest), s.dom.state = .member →
    s.seatUnit = some src.toNat → s.life.time ≤ s.dom.leaseEnd → echoed.toNat ≤ s.life.time → u = s.withDom { s.dom with leaseEnd := leaseEnd.toNat } →
    (∀ (n : Nat) (l : Life), seatTime.toNat + (s.life.time - echoed.toNat) / 2 = s.life.time + n → 1000000 < n →
      l = { s.life with time := s.life.time + n, slew := 0 } →
      exec (.lease src echoed seatTime leaseEnd epoch h) s = .next { u with life := l }) ∧
    (∀ (n : Nat) (l : Life), seatTime.toNat + (s.life.time - echoed.toNat) / 2 = s.life.time + n → n ≤ 1000000 →
      l = { s.life with slew := n } → exec (.lease src echoed seatTime leaseEnd epoch h) s = .next { u with life := l }) ∧
    (∀ (n : Nat) (l : Life), seatTime.toNat + (s.life.time - echoed.toNat) / 2 + n = s.life.time →
      l = { s.life with slew := -n } → exec (.lease src echoed seatTime leaseEnd epoch h) s = .next { u with life := l })) ∧
  (∀ s : State, s.dom.state = .member → (s.dom.leaseEnd < s.life.time → exec .leaseExpiry s = .next s.enterFallow) ∧
    (s.life.time ≤ s.dom.leaseEnd → exec .leaseExpiry s = .next s)) ∧
  (∀ (s : State) (b : Ballot), s.dom.ballot = some b → s.dom.state = .seat →
    (b.notAfter < s.life.time + 100000000 → exec .ballotLapse s = .next s.abortAdvance.enterFallow) ∧
    (s.life.time + 100000000 ≤ b.notAfter → exec .ballotLapse s = .next s)) ∧
  (∀ (s u : State) (src : BitVec 16) (gen : BitVec 8), u = s.withLinks { s.links with
      tx := updWhere (fun (f : TxFlow) => f.dest == src.toNat) (fun f => { f with down := true }) s.links.tx,
      rx := updWhere (fun (f : RxFlow) => f.src == src.toNat) (fun f => { f with down := true }) s.links.rx } →
    (∀ p, s.pairPlot = some p → p.partner ≠ src.toNat) →
    (s.domPlot.gentag = true ∨ s.isMember src.toNat = false → exec (.down src gen) s = .next u) ∧
    (s.domPlot.gentag = false → s.isMember src.toNat = true →
      exec (.down src gen) s = .next (u.withDom { s.dom with fenced := nsInsert s.dom.fenced src.toNat }))) ∧
  (∀ (s : State) (src : BitVec 16) (gen : BitVec 8) (p : PairPlot), s.pairPlot = some p → p.partner = src.toNat →
    s.pair.state = .up → (s.unitDown src.toNat).pair.state = .up → (s.unitDown src.toNat).pairPlot = some p →
    exec (.down src gen) s = .next ((s.unitDown src.toNat).losePartner true)) ∧
  (∀ (s : State) (src : BitVec 16) (rec : Bytes) (n : Nat) (r : MemberRec), s.seatUnit = some src.toNat →
    s.domPlot.cands.contains s.unit = true → MemberRec.parse rec = (n, r) →
    exec (.records src [rec]) s = .next (s.withDom { s.dom with records := tset none s.dom.records n (some r) }))

/-- R291 to R296: an exchange with the partner whose signatures verify brings the pair UP with its link key; each side sends
HEARTBEAT while it is UP; a mirror record is applied to the inactive copy under a drawn version and acknowledged, and a
stale image takes only a full one; an acknowledged STALE record makes the next a full one; an image is sent to the partner
that asks with its measurement and identity, and refused with a count otherwise. R39, R286, R298 to R300, R302: domain time
advances by 1,000 ns at a tick, by 1,001 while it is behind and 999 while it is ahead, and lz_pwr_telem takes the period's
power; a lost partner leaves this block PRIMARY for every cell under the next pair epoch, with a record and CLAIMs; a CLAIM
that fails its checks is dropped and counted; a handed-over cell becomes PRIMARY; the owner reads a cell and hands over one
it holds PRIMARY while the pair is UP. Completes: PAIR_BOOTSTRAP, PAIR_HEARTBEAT, MIRROR, MIRROR_ACK, RESTORE_REQ,
DOMAIN_TICK, PARTNER_LOST, CLAIM_SEND, CLAIM_RECEIVE, HANDOVER_RECEIVE, CELL_READ, CELL_HANDOVER. -/
def Obligations.PairAndCells : Prop :=
  ((∀ (s u v w : State) (th : Bytes) (peerId : BitVec 128) (meas : Digest) (peerKey : Bytes) (e : Word)
        (cells : List (BitVec 32)) (p : PairPlot) (x : Pair), s.pairPlot = some p → peerId = p.partnerId →
      s.pair.state = .bootstrap ∨ s.pair.state = .lost →
      u = (s.freed.withPair { s.pair with conflictEpoch := 0 }).resolveCells (cells.map (·.toNat)) e.toNat →
      v = (if s.pair.conflictEpoch = 0 then u else u.setFld F.pairEpoch_EPOCH (s.pair.conflictEpoch + 1)) →
      x = { v.pair with state := .up, txCount := 0, fullDue := true, unacked := [], partnerKey := peerKey, claiming := false,
                        evidence := meas,
                        linkKey := Config.kmac256 (bvBytes (s.freeVal 640)) th 256 (ascii "LZPAIR1") } →
      w = v.withPair x → w.life.ready = true →
      exec (.pairBootstrap th peerId true meas peerKey e cells) s = .next w) ∧
    (∀ s : State, s.pair.state = .up → exec .pairHeartbeat s = .next (s.sendPair "HEARTBEAT" 4 [])) ∧
    (∀ (s : State) (seq : Word) (kind : BitVec 8) (ok : Bool) (items : List (Nat × Nat × Bytes)) (i : Image),
      s.pair.state = .up → s.sealedClosed 5 = false → i = { s.pair.image with stale := true } →
      (s.pair.image.stale = true ∨ (s.pair.image.held = true ∧ ok = false)) →
      exec (.mirror seq kind (.changes ok) items) s =
        .next ((s.withPair { s.pair with image := i }).ackMirror seq.toNat true)) ∧
    (∀ (s u w : State) (seq : Word) (items : List (Nat × Nat × Bytes)) (v : Nat) (i : Image), s.pair.state = .up →
      s.sealedClosed 5 = false → s.drawEpoch = (v, u) → s.pair.image.copyB = false →
      i = { s.pair.image with held := true, stale := false, settle := false, seq := seq.toNat, copyB := true, verB := v,
                              items := items.filter fun x => !zeroAt x.2.2 0 x.2.2.length } →
      w = u.withPair { u.pair with image := i } →
      exec (.mirror seq 0 .full items) s = .next (((w.emit (.image true (w.imageLines true v
        (recordBytes seq.toNat 0 0 (fullItems i.items))))).installCells items).ackMirror seq.toNat false)) ∧
    (∀ (s : State) (seq : Word), exec (.mirrorAck seq true) s = .next (s.withPair { s.pair with fullDue := true })) ∧
    (∀ (s : State) (seq : Word), s.pair.unacked.find? (·.seq == seq.toNat) = none →
      exec (.mirrorAck seq false) s = .next s) ∧
    (∀ (s : State) (ok : Bool) (unit : BitVec 128) (p : PairPlot) (q : Pair), s.pairPlot = some p →
      (s.life.settling = true ∨ s.life.restoreWait = true) → q = { s.pair with reqWait := some (ok, unit) } →
      exec (.restoreReq ok unit) s = .next (s.withPair q)) ∧
    (∀ (s u : State) (p : PairPlot), s.pairPlot = some p → s.life.settling = false → s.life.restoreWait = false →
      u = (s.forgetEpoch0 p.partner).withPair { (s.forgetEpoch0 p.partner).pair with reqWait := none } →
      u.pair.image.held = true → u.pair.image.stale = false →
      (u.pair.evidence = BitVec.ofNat 384 (le (itemData u.pair.image.items 1 0) 112 48) →
        exec (.restoreReq true p.partnerId) s = .next (u.sendPair "RESTORE" 8 (recordBytes u.pair.image.seq 0
          (if u.pair.image.settle then 1 else 0) (fullItems u.pair.image.items)))) ∧
      (∀ unit : BitVec 128, unit ≠ p.partnerId → exec (.restoreReq true unit) s =
        .next ((u.incFld F.pairErr_RESTORE_REFUSED).sendPair "RESTORE" 8 [])))) ∧
  ((∀ (s : State) (mw : BitVec 16) (dt : Nat) (ds : Int), s.life.ready = true → s.life.settling = false →
      s.dom.state = .member → dt = (if 0 < s.life.slew then 1001 else if s.life.slew < 0 then 999 else 1000) →
      ds = (if 0 < s.life.slew then -1 else if s.life.slew < 0 then 1 else 0) → Completes (.domainTick mw) s fun t =>
        t.life = { s.life with telem := mw, time := s.life.time + dt, slew := s.life.slew + ds } ∧ t.regs = s.regs ∧ t.mem = s.mem ∧ t.keys = s.keys) ∧
    (∀ (s : State) (mw : BitVec 16), s.dom.state ≠ .member → Completes (.domainTick mw) s fun t =>
        t.life.time = s.life.time + 1000 ∧ t.life.slew = s.life.slew ∧ (s.life.ready = false → t.life.telem = 0)) ∧
    (∀ (s u v : State) (x : Pair) (byDown : Bool), s.pair.state = .up ∨ s.pair.state = .bootstrap →
      x = { s.pair with state := .lost, claiming := true, cells := s.pair.cells.map fun e => (e.1, e.2.map fun _ => true),
                        image := { s.pair.image with stale := s.pair.image.stale || !byDown } } →
      u = s.withPair x → v = u.setFld F.pairEpoch_EPOCH (u.pairEpochNo + 1) → s.stile.steps = [] → s.harrow.jobs = [] →
      exec (.partnerLost byDown) s = .next (v.record .pairLost .pair 0 none v.pairEpochNo 0)) ∧
    (∀ (s : State) (p : PairPlot), s.pairPlot = some p → s.pair.claiming = true → s.predOk = true →
      exec .claimSend s =
      .next ((s.claimRecord p).2.emit (.mctp (s.claimRecord p).1))) ∧
    (∀ (s : State) (p : PairPlot) (b : Bytes), s.pairPlot = some p → exec (.claimReceive b) s =
      .next (if s.claimOk p b then (s.withPair { s.pair with claimEpoch := le b 48 8 }).resolveCells
          (readList 4 (b.drop 64) (le b 10 2)) (le b 48 8) else s.incFld F.pairStat_CLAIM_DROP)) ∧
    (∀ (s : State) (cell : BitVec 32), s.pair.state = .up → (tget none s.pair.cells cell.toNat).isSome = true →
      exec (.handoverReceive cell) s = .next (s.setCell cell.toNat true)) ∧
    (∀ (s u : State) (port : Nat) (i : BitVec 8), s.owner port → s.fld F.pairCtl_BUSY = 0 →
      u = (s.setFld F.pairCtl_CELL i.toNat).setFld F.pairCtl_RESULT 0 →
      (∀ c : Nat, u.cellAt i.toNat = some c → exec (.cellRead port i) s = .next ((u.wr .pairCell
        (c + (if tget none u.pair.cells c == some true then 2 ^ 32 else 0))).regRsp port 0 false)) ∧
      (u.cellAt i.toNat = none → exec (.cellRead port i) s = .next ((u.wr .pairCell 0).regRsp port 0 false))) ∧
    (∀ (s u : State) (port c : Nat) (i : BitVec 8), s.owner port → s.fld F.pairCtl_BUSY = 0 →
      u = s.setFld F.pairCtl_CELL i.toNat → u.cellAt i.toNat = some c → exec (.cellHandover port i) s =
      .next ((if u.pair.state = .up ∧ tget none u.pair.cells c = some true then
          ((u.setFld F.pairCtl_RESULT 0).setCell c false).sendPair "HANDOVER" 10 (leBytes 4 c)
        else u.setFld F.pairCtl_RESULT 1).regRsp port 0 false)))
end

