-- ==== Sys2Proof/Laws/Table.lean ====
section
/-! SUPPORT. What the operations on sparse tables keep and what they read back. -/

namespace Sys2Proof.Machine

theorem rising_mono {α : Type} {t : Tbl α} {a b : Nat} (h : a ≤ b) (ht : rising b t) : rising a t := by
  cases t with
  | nil => trivial
  | cons x t => exact ⟨Nat.le_trans h ht.1, ht.2⟩

theorem rising_tdel {α : Type} {t : Tbl α} {a : Nat} (k : Nat) (ht : rising a t) : rising a (tdel t k) := by
  induction t generalizing a with
  | nil => trivial
  | cons x t ih =>
    unfold tdel
    split
    · exact rising_mono (Nat.le_trans ht.1 (Nat.le_succ _)) ht.2
    · exact ⟨ht.1, ih ht.2⟩

theorem rising_tput {α : Type} {t : Tbl α} {a k : Nat} (v : α) (h : a ≤ k) (ht : rising a t) : rising a (tput t k v) := by
  induction t generalizing a with
  | nil => exact ⟨h, trivial⟩
  | cons x t ih =>
    unfold tput
    split
    · next hk => exact ⟨h, hk, ht.2⟩
    · split
      · next hk => subst hk; exact ⟨h, ht.2⟩
      · next h1 h2 => exact ⟨ht.1, ih (by omega) ht.2⟩

theorem rising_tset {α : Type} [DecidableEq α] {d : α} {t : Tbl α} {k : Nat} {v : α} (ht : rising 0 t) : rising 0 (tset d t k v) := by
  unfold tset
  split
  · exact rising_tdel k ht
  · exact rising_tput v (Nat.zero_le _) ht

theorem rising_filter {α : Type} {t : Tbl α} {a : Nat} (p : Nat × α → Bool) (ht : rising a t) : rising a (t.filter p) := by
  induction t generalizing a with
  | nil => trivial
  | cons x t ih =>
    rw [List.filter_cons]
    split
    · exact ⟨ht.1, ih ht.2⟩
    · exact ih (rising_mono (Nat.le_trans ht.1 (Nat.le_succ _)) ht.2)

theorem tget_rising {α : Type} {d : α} {t : Tbl α} {a k : Nat} (ht : rising a t) (h : k < a) : tget d t k = d := by
  induction t generalizing a with
  | nil => rfl
  | cons x t ih =>
    unfold tget
    rw [if_neg (by have := ht.1; omega)]
    exact ih ht.2 (by have := ht.1; omega)

theorem tget_tput_self {α : Type} {d : α} (t : Tbl α) (k : Nat) (v : α) : tget d (tput t k v) k = v := by
  induction t with
  | nil => simp [tput, tget]
  | cons x t ih =>
    unfold tput
    split
    · simp [tget]
    · split
      · simp [tget]
      · next h => simp [tget, Ne.symm h, ih]

theorem tget_tput_ne {α : Type} {d : α} (t : Tbl α) {k k' : Nat} (v : α) (h : k' ≠ k) : tget d (tput t k v) k' = tget d t k' := by
  induction t with
  | nil => simp [tput, tget, Ne.symm h]
  | cons x t ih =>
    unfold tput
    split
    · simp [tget, Ne.symm h]
    · split
      · next e => simp [tget, Ne.symm h, ← e]
      · simp [tget, ih]

theorem tget_tdel_self {α : Type} {d : α} {t : Tbl α} {a : Nat} (k : Nat) (ht : rising a t) : tget d (tdel t k) k = d := by
  induction t generalizing a with
  | nil => rfl
  | cons x t ih =>
    unfold tdel
    split
    · next e => exact tget_rising ht.2 (by omega)
    · next e => simp only [tget, if_neg e]; exact ih ht.2

theorem tget_tdel_ne {α : Type} {d : α} (t : Tbl α) {k k' : Nat} (h : k' ≠ k) : tget d (tdel t k) k' = tget d t k' := by
  induction t with
  | nil => rfl
  | cons x t ih =>
    unfold tdel
    split
    · next e => simp [tget, e, Ne.symm h]
    · simp [tget, ih]

/-- An entry reads back as it was set. -/
theorem tget_tset_self {α : Type} [DecidableEq α] {d : α} {t : Tbl α} {a : Nat} (k : Nat) (v : α) (ht : rising a t) :
    tget d (tset d t k v) k = v := by
  unfold tset
  split
  · next e => rw [e]; exact tget_tdel_self k ht
  · exact tget_tput_self t k v

/-- Setting an entry leaves every other one alone, whatever either default is. -/
theorem tget_tset_ne {α : Type} [DecidableEq α] {d d' : α} (t : Tbl α) {k k' : Nat} (v : α) (h : k' ≠ k) :
    tget d' (tset d t k v) k' = tget d' t k' := by
  unfold tset
  split
  · exact tget_tdel_ne t h
  · exact tget_tput_ne t v h

end Sys2Proof.Machine
end

