-- ==== Sys2Proof/Laws/Bounded.lean ====
section
/-! SUPPORT. The bounds of `Bounded` through the shapes a meaning is built of, and through the plainest updates. -/

namespace Sys2Proof.Machine

/-- An outcome that, when it is a next state, is bounded. -/
def BoundedRes (r : Res) : Prop := ∀ t, r = .next t → Bounded t
/-- A result that, when it is present, is bounded. -/
def BoundedOpt (r : Option State) : Prop := ∀ t, r = some t → Bounded t
/-- A result paired with a value that, when it is present, is bounded. -/
def BoundedOptPair {α : Type} (r : Option (α × State)) : Prop := ∀ a t, r = some (a, t) → Bounded t
/-- A state paired with a value. -/
def BoundedPair {α : Type} (x : α × State) : Prop := Bounded x.2
/-- A state behind two values. -/
def BoundedTriple {α β : Type} (x : α × β × State) : Prop := Bounded x.2.2
/-- A state behind three values. -/
def BoundedQuad {α β γ : Type} (x : α × β × γ × State) : Prop := Bounded x.2.2.2
/-- Every step of a list of steps keeps the bounds. -/
def BoundedList (l : List (State → Res)) : Prop := ∀ f ∈ l, ∀ s, Bounded s → BoundedRes (f s)

theorem Bounded.of_eq {s t : State} (h : Bounded s) (hr : t.regs = s.regs) (hf : t.faults = s.faults) (ho : t.obs = s.obs) : Bounded t := by
  unfold Bounded at *; rw [hf, ho, hr]; exact h

theorem Bounded.mk_ {s : State} {a2 a3 a4 a5 a6 a7 a8 a9 a10 a12 a13 a14 a15 a16 a17 a18 a19 a20 a21 a22 a23 a24 a26 a27 a28 a29 a30} (h : Bounded s) :
  Bounded (State.mk s.regs a2 a3 a4 a5 a6 a7 a8 a9 a10 s.faults a12 a13 a14 a15 a16 a17 a18 a19 a20 a21 a22 a23 a24 s.obs a26 a27 a28 a29 a30) := Bounded.of_eq h rfl rfl rfl

theorem Bounded.mk_iff {s : State} {a2 a3 a4 a5 a6 a7 a8 a9 a10 a12 a13 a14 a15 a16 a17 a18 a19 a20 a21 a22 a23 a24 a26 a27 a28 a29 a30} :
  Bounded (State.mk s.regs a2 a3 a4 a5 a6 a7 a8 a9 a10 s.faults a12 a13 a14 a15 a16 a17 a18 a19 a20 a21 a22 a23 a24 s.obs a26 a27 a28 a29 a30) ↔ Bounded s := ⟨fun h => h, fun h => h⟩

theorem BoundedPair.mk_ {α : Type} {a : α} {s : State} (h : Bounded s) : BoundedPair (a, s) := h

theorem BoundedTriple.mk_ {α β : Type} {a : α} {b : β} {s : State} (h : Bounded s) : BoundedTriple (a, b, s) := h

theorem BoundedQuad.mk_ {α β γ : Type} {a : α} {b : β} {c : γ} {s : State} (h : Bounded s) : BoundedQuad (a, b, c, s) := h

theorem BoundedPair.of_snd {α : Type} {x : α × State} (h : BoundedPair x) : Bounded x.2 := h

theorem BoundedTriple.of_snd {α β : Type} {x : α × β × State} (h : BoundedTriple x) : Bounded x.2.2 := h

theorem BoundedQuad.of_snd {α β γ : Type} {x : α × β × γ × State} (h : BoundedQuad x) : Bounded x.2.2.2 := h

theorem Bounded.snd {α : Type} {a : α} {s : State} (h : Bounded s) : Bounded (a, s).2 := h

theorem Bounded.ofPair {α : Type} {x : α × State} {a s} (h : BoundedPair x) (e : x = (a, s)) : Bounded s := by subst e; exact h

theorem Bounded.ofPair2 {α β : Type} {x : α × β × State} {a b s} (h : BoundedTriple x) (e : x = (a, b, s)) : Bounded s := by subst e; exact h

theorem Bounded.ofPair3 {α β γ : Type} {x : α × β × γ × State} {a b c s} (h : BoundedQuad x) (e : x = (a, b, c, s)) : Bounded s := by subst e; exact h

theorem Bounded.ofSome {x : Option State} {s} (h : BoundedOpt x) (e : x = some s) : Bounded s := h s e

theorem Bounded.ofSomeP {α : Type} {x : Option (α × State)} {a s} (h : BoundedOptPair x) (e : x = some (a, s)) : Bounded s := h a s e

theorem Bounded.ofNext {x : Res} {s} (h : BoundedRes x) (e : x = .next s) : Bounded s := h s e

theorem BoundedRes.mkNext {s : State} (h : Bounded s) : BoundedRes (.next s) := fun t e => by injection e with e; subst e; exact h

theorem BoundedRes.mkFault {f} : BoundedRes (.fault f) := fun t e => by injection e

theorem BoundedOpt.mkSome {s : State} (h : Bounded s) : BoundedOpt (some s) := fun t e => by injection e with e; subst e; exact h

theorem BoundedOpt.mkNone : BoundedOpt none := fun t e => by injection e

theorem BoundedOptPair.mkSome {α : Type} {a : α} {s : State} (h : Bounded s) : BoundedOptPair (some (a, s)) := fun a t e => by injection e with e; injection e with _ e; subst e; exact h

theorem BoundedOptPair.mkNone {α : Type} : BoundedOptPair (none : Option (α × State)) := fun a t e => by injection e

theorem Bounded.id_ {s : State} (h : Bounded s) : Bounded (id s) := h

theorem foldl_bounded {α : Type} {f : State → α → State} {l : List α} {s : State} (hf : ∀ s a, Bounded s → Bounded (f s a)) (h : Bounded s) :
    Bounded (l.foldl f s) := by
  induction l generalizing s with
  | nil => exact h
  | cons a l ih => exact ih (hf s a h)

theorem foldlP_bounded {α β : Type} {f : β × State → α → β × State} {l : List α} {p : β × State} (hf : ∀ p a, BoundedPair p → BoundedPair (f p a)) (h : BoundedPair p) :
    BoundedPair (l.foldl f p) := by
  induction l generalizing p with
  | nil => exact h
  | cons a l ih => exact ih (hf p a h)

theorem nextOf_bounded {s : State} {r : Res} (hs : Bounded s) (h : BoundedRes r) : Bounded (nextOf s r) := by
  unfold nextOf; split
  · exact h _ rfl
  · exact hs

theorem Bounded.mk_iffO {s : State} {a2 a3 a4 a5 a6 a7 a8 a9 a10 a12 a13 a14 a15 a16 a17 a18 a19 a20 a21 a22 a23 a24 a26 a27 a28 a29 a30 r l c la re no sa} :
  Bounded (State.mk s.regs a2 a3 a4 a5 a6 a7 a8 a9 a10 s.faults a12 a13 a14 a15 a16 a17 a18 a19 a20 a21 a22 a23 a24 (Obs.mk r s.obs.next s.obs.held s.obs.staging l c la re no sa) a26 a27 a28 a29 a30) ↔ Bounded s := ⟨fun h => h, fun h => h⟩

theorem Bounded.mk_iffF {s : State} {a2 a3 a4 a5 a6 a7 a8 a9 a10 a12 a13 a14 a15 a16 a17 a18 a19 a20 a21 a22 a23 a24 a26 a27 a28 a29 a30 r w f l t d i m} :
  Bounded (State.mk s.regs a2 a3 a4 a5 a6 a7 a8 a9 a10 (Faults.mk r s.faults.head s.faults.seq w f s.faults.staging l t d i m) a12 a13 a14 a15 a16 a17 a18 a19 a20 a21 a22 a23 a24 s.obs a26 a27 a28 a29 a30) ↔ Bounded s := ⟨fun h => h, fun h => h⟩

theorem Bounded.mk_two {s t : State} {a2 a3 a4 a5 a6 a7 a8 a9 a10 a12 a13 a14 a15 a16 a17 a18 a19 a20 a21 a22 a23 a24 a26 a27 a28 a29 a30 r w f l tt d i m} (h : Bounded s) (h' : Bounded t) :
  Bounded (State.mk s.regs a2 a3 a4 a5 a6 a7 a8 a9 a10 (Faults.mk r t.faults.head t.faults.seq w f t.faults.staging l tt d i m) a12 a13 a14 a15 a16 a17 a18 a19 a20 a21 a22 a23 a24 s.obs a26 a27 a28 a29 a30) := by
  obtain ⟨hr, _, _, _, hs⟩ := h; obtain ⟨_, a, b, c, _⟩ := h'; exact ⟨hr, a, b, c, hs⟩

theorem Bounded.mk_twoO {s t : State} {a2 a3 a4 a5 a6 a7 a8 a9 a10 a12 a13 a14 a15 a16 a17 a18 a19 a20 a21 a22 a23 a24 a26 a27 a28 a29 a30 r l c la re no sa} (h : Bounded s) (h' : Bounded t) :
  Bounded (State.mk s.regs a2 a3 a4 a5 a6 a7 a8 a9 a10 s.faults a12 a13 a14 a15 a16 a17 a18 a19 a20 a21 a22 a23 a24 (Obs.mk r t.obs.next t.obs.held t.obs.staging l c la re no sa) a26 a27 a28 a29 a30) := by
  obtain ⟨hr, a, b, c, _⟩ := h; obtain ⟨_, _, _, _, hs⟩ := h'; exact ⟨hr, a, b, c, hs⟩

theorem Bounded.mk_both {s t : State} {keep : Nat × Word → Bool} {a2 a3 a4 a5 a6 a7 a8 a9 a10 a12 a13 a14 a15 a16 a17 a18 a19 a20 a21 a22 a23 a24 a26 a27 a28 a29 a30 r w f l tt d i m r' l' c la re no sa} (h : Bounded s) (h' : Bounded t) :
  Bounded (State.mk (s.regs.filter keep) a2 a3 a4 a5 a6 a7 a8 a9 a10 (Faults.mk r t.faults.head t.faults.seq w f t.faults.staging l tt d i m) a12 a13 a14 a15 a16 a17 a18 a19 a20 a21 a22 a23 a24 (Obs.mk r' s.obs.next s.obs.held s.obs.staging l' c la re no sa) a26 a27 a28 a29 a30) := by
  obtain ⟨hr, _, _, _, hs⟩ := h; obtain ⟨_, a, b, c, _⟩ := h'; exact ⟨rising_filter keep hr, a, b, c, hs⟩

theorem reset_bounded : Bounded State.reset := by
  refine ⟨trivial, ?_, ?_, ?_, ?_, ?_, ?_⟩ <;> decide

theorem BoundedOpt.map_ {x : Option State} {f : State → State} (h : BoundedOpt x) (hf : ∀ s, Bounded s → Bounded (f s)) : BoundedOpt (x.map f) := by
  intro t e; obtain ⟨u, hu, rfl⟩ := Option.map_eq_some_iff.mp e; exact hf u (h u hu)

theorem BoundedOpt.mapP_ {α : Type} {x : Option (α × State)} {f : α × State → State} (h : BoundedOptPair x) (hf : ∀ a s, Bounded s → Bounded (f (a, s))) : BoundedOpt (x.map f) := by
  intro t e; obtain ⟨⟨a, u⟩, hu, rfl⟩ := Option.map_eq_some_iff.mp e; exact hf a u (h a u hu)

theorem BoundedOptPair.mapP_ {α β : Type} {x : Option (α × State)} {f : α × State → β × State} (h : BoundedOptPair x) (hf : ∀ a s, Bounded s → BoundedPair (f (a, s))) : BoundedOptPair (x.map f) := by
  intro b t e; obtain ⟨⟨a, u⟩, hu, he⟩ := Option.map_eq_some_iff.mp e; have := hf a u (h a u hu); rw [he] at this; exact this

theorem BoundedOptPair.mapV_ {α β : Type} {x : Option α} {f : α → β} {s : State} (h : Bounded s) : BoundedOptPair (x.map fun a => (f a, s)) := by
  intro b t e; obtain ⟨u, _, hu⟩ := Option.map_eq_some_iff.mp e; injection hu with _ hu; subst hu; exact h

theorem Bounded.getD_ {x : Option State} {s : State} (h : BoundedOpt x) (hs : Bounded s) : Bounded (x.getD s) := by
  cases x with
  | none => exact hs
  | some t => exact h t rfl

theorem Bounded.ite_ {c : Prop} [Decidable c] {s t : State} (hs : Bounded s) (ht : Bounded t) : Bounded (if c then s else t) := by split <;> assumption

theorem BoundedRes.ite_ {c : Prop} [Decidable c] {s t : Res} (hs : BoundedRes s) (ht : BoundedRes t) : BoundedRes (if c then s else t) := by split <;> assumption

theorem BoundedOpt.ite_ {c : Prop} [Decidable c] {s t : Option State} (hs : BoundedOpt s) (ht : BoundedOpt t) : BoundedOpt (if c then s else t) := by split <;> assumption

theorem BoundedPair.ite_ {α : Type} {c : Prop} [Decidable c] {s t : α × State} (hs : BoundedPair s) (ht : BoundedPair t) : BoundedPair (if c then s else t) := by split <;> assumption

theorem BoundedOptPair.ite_ {α : Type} {c : Prop} [Decidable c] {s t : Option (α × State)} (hs : BoundedOptPair s) (ht : BoundedOptPair t) : BoundedOptPair (if c then s else t) := by split <;> assumption

theorem State.wr_bounded {s : State} {r v i j p} (h : Bounded s) : Bounded (s.wr r v i j p) := by
  unfold Bounded at *; exact ⟨rising_tset h.1, h.2⟩

theorem State.setFld_bounded {s : State} {r v i p} (h : Bounded s) : Bounded (s.setFld r v i p) := State.wr_bounded h

theorem State.addFld_bounded {s : State} {r n i p} (h : Bounded s) : Bounded (s.addFld r n i p) := State.setFld_bounded h

theorem State.incFld_bounded {s : State} {r i p} (h : Bounded s) : Bounded (s.incFld r i p) := State.addFld_bounded h

theorem State.emit_bounded {s : State} {o} (h : Bounded s) : Bounded (s.emit o) := Bounded.of_eq h rfl rfl rfl

theorem State.count_bounded {s : State} {a b} (h : Bounded s) : Bounded (s.count a b) := by unfold Bounded at *; exact h

theorem State.trace_bounded {s : State} {a b c d e f g k} (h : Bounded s) : Bounded (s.trace a b c d e f g k) := by
  unfold State.trace
  split
  · exact h
  · split
    · unfold Bounded at *
      obtain ⟨r,a,b,c,d,e⟩ := h
      refine ⟨r, a, b, c, ?_, e⟩
      simp; omega
    · have := State.incFld_bounded (r := F.obsErr_DROPPED) (i := 0) (p := 0) h
      unfold Bounded at *
      exact this

theorem State.stage_bounded {s : State} {r} (h : Bounded s) : Bounded (s.stage r) := by
  unfold State.stage
  split
  · unfold Bounded at *
    obtain ⟨r,a,b,c,d,e⟩ := h
    refine ⟨r, ?_, b, c, d, e⟩
    simp; omega
  · have := State.incFld_bounded (r := F.glnStat_DROPPED) (i := 0) (p := 0) h
    unfold Bounded at *
    exact this

end Sys2Proof.Machine
end

