-- ==== Sys2Proof/Laws/BoundedOps.lean ====
section
/-! SUPPORT. Every operation of Machine/Ops.lean keeps the bounds. -/

namespace Sys2Proof.Machine

theorem State.setLane_bounded {s n l} (h0 : Bounded s) : Bounded (State.setLane s n l) := by
  unfold State.setLane
  with_reducible repeat' first
    | assumption | simp -zeta only [↓Bounded.mk_iff]

theorem State.setPort_bounded {s n v2_} (h0 : Bounded s) : Bounded (State.setPort s n v2_) := by
  unfold State.setPort
  with_reducible repeat' first
    | assumption | simp -zeta only [↓Bounded.mk_iff]

theorem State.withMem_bounded {s m} (h0 : Bounded s) : Bounded (State.withMem s m) := by
  unfold State.withMem
  with_reducible repeat' first
    | assumption | simp -zeta only [↓Bounded.mk_iff]

theorem State.setActr_bounded {s i v2_} (h0 : Bounded s) : Bounded (State.setActr s i v2_) := by
  unfold State.setActr
  with_reducible repeat' first
    | assumption | simp -zeta only [↓Bounded.mk_iff]

theorem State.withLinks_bounded {s l} (h0 : Bounded s) : Bounded (State.withLinks s l) := by
  unfold State.withLinks
  with_reducible repeat' first
    | assumption | simp -zeta only [↓Bounded.mk_iff]

theorem State.withPair_bounded {s p} (h0 : Bounded s) : Bounded (State.withPair s p) := by
  unfold State.withPair
  with_reducible repeat' first
    | assumption | simp -zeta only [↓Bounded.mk_iff]

theorem State.reseed_bounded {s} (h0 : Bounded s) : Bounded (State.reseed s) := by
  unfold State.reseed
  with_reducible repeat' first
    | assumption | (intro _; try beta_reduce) | apply Bounded.ite_ | simp -zeta only [↓Bounded.mk_iff]
    | split | (extract_lets +onlyGivenNames s_; refine (fun (_ : Bounded s_) => ?_) ?_; swap; subst s_)
    | (extract_lets +onlyGivenNames s_; clear_value s_) | extract_lets +onlyGivenNames s_

theorem State.drew_bounded {s} (h0 : Bounded s) : Bounded (State.drew s) := by
  unfold State.drew
  with_reducible repeat' first
    | assumption | (intro _; try beta_reduce) | apply Bounded.ite_ | apply State.reseed_bounded
    | simp -zeta only [↓Bounded.mk_iff] | split
    | (extract_lets +onlyGivenNames s_; refine (fun (_ : Bounded s_) => ?_) ?_; swap; subst s_)
    | (extract_lets +onlyGivenNames s_; clear_value s_) | extract_lets +onlyGivenNames s_

theorem State.setSlot_bounded {s k v2_} (h0 : Bounded s) : Bounded (State.setSlot s k v2_) := by
  unfold State.setSlot
  with_reducible repeat' first
    | assumption | simp -zeta only [↓Bounded.mk_iff]

theorem State.freed_bounded {s} (h0 : Bounded s) : Bounded (State.freed s) := by
  unfold State.freed
  with_reducible repeat' first
    | assumption | simp -zeta only [↓Bounded.mk_iff]

theorem State.setRow_bounded {s i r} (h0 : Bounded s) : Bounded (State.setRow s i r) := by
  unfold State.setRow
  with_reducible repeat' first
    | assumption | simp -zeta only [↓Bounded.mk_iff]

theorem State.setJob_bounded {s j v2_} (h0 : Bounded s) : Bounded (State.setJob s j v2_) := by
  unfold State.setJob
  with_reducible repeat' first
    | assumption | simp -zeta only [↓Bounded.mk_iff]

theorem State.setPart_bounded {s p v2_} (h0 : Bounded s) : Bounded (State.setPart s p v2_) := by
  unfold State.setPart
  with_reducible repeat' first
    | assumption | simp -zeta only [↓Bounded.mk_iff]

theorem State.withDom_bounded {s d} (h0 : Bounded s) : Bounded (State.withDom s d) := by
  unfold State.withDom
  with_reducible repeat' first
    | assumption | simp -zeta only [↓Bounded.mk_iff]

theorem State.otpPut_bounded {s w v} (h0 : Bounded s) : Bounded (State.otpPut s w v) := by
  unfold State.otpPut
  with_reducible repeat' first
    | assumption | simp -zeta only [↓Bounded.mk_iff]

theorem State.fullBuckets_bounded {s p} (h0 : Bounded s) : Bounded (State.fullBuckets s p) := by
  unfold State.fullBuckets
  with_reducible repeat' first
    | assumption | (intro _; try beta_reduce) | apply State.setLane_bounded | apply foldl_bounded

theorem State.setQueue_bounded {s q v2_} (h0 : Bounded s) : Bounded (State.setQueue s q v2_) := by
  unfold State.setQueue
  with_reducible repeat' first
    | assumption | simp -zeta only [↓Bounded.mk_iff]

theorem State.setChan_bounded {s c v2_} (h0 : Bounded s) : Bounded (State.setChan s c v2_) := by
  unfold State.setChan
  with_reducible repeat' first
    | assumption | simp -zeta only [↓Bounded.mk_iff]

theorem State.setStepEnt_bounded {s t e} (h0 : Bounded s) : Bounded (State.setStepEnt s t e) := by
  unfold State.setStepEnt
  with_reducible repeat' first
    | assumption | simp -zeta only [↓Bounded.mk_iff]

theorem State.emits_bounded {s os} (h0 : Bounded s) : Bounded (State.emits s os) := by
  unfold State.emits
  with_reducible repeat' first
    | assumption | apply State.emit_bounded | apply foldl_bounded

end Sys2Proof.Machine
end

