-- ==== Sys2Proof/Laws/BoundedCmdOps.lean ====
section
/-! SUPPORT. Every operation of Machine/CmdOps.lean keeps the bounds. -/

namespace Sys2Proof.Machine

theorem State.regRsp_bounded {s port data err} (h0 : Bounded s) : Bounded (State.regRsp s port data err) := by
  unfold State.regRsp
  with_reducible repeat' first
    | assumption | apply State.emit_bounded

theorem State.ownerCmd_bounded {s port busy err f ei} (h0 : Bounded s) (h4 : ∀ x0, Bounded x0 → Bounded (f x0)) : Bounded (State.ownerCmd s port busy err f ei) := by
  unfold State.ownerCmd
  with_reducible repeat' first
    | assumption | apply State.incFld_bounded | apply State.regRsp_bounded | apply h4 | split

theorem State.setCmd_bounded {s q c} (h0 : Bounded s) : Bounded (State.setCmd s q c) := by
  unfold State.setCmd
  with_reducible repeat' first
    | assumption | apply State.setQueue_bounded

theorem State.countSheaf_bounded {s op status} (h0 : Bounded s) : Bounded (State.countSheaf s op status) := by
  unfold State.countSheaf
  with_reducible repeat' first
    | assumption | (intro _; try beta_reduce) | apply Bounded.ite_ | apply State.incFld_bounded | split

theorem State.svcDone_bounded {s q k status detail count res0 res1} (h0 : Bounded s) : Bounded (State.svcDone s q k status detail count res0 res1) := by
  unfold State.svcDone
  with_reducible repeat' first
    | assumption | (intro _; try beta_reduce) | apply Bounded.ite_ | apply State.countSheaf_bounded
    | apply State.count_bounded | apply State.setCmd_bounded | simp -zeta only [↓Bounded.mk_iff]
    | refine Bounded.ofSome ?_ (by assumption) | refine Bounded.ofSomeP ?_ (by assumption)
    | refine Bounded.ofPair ?_ (by assumption) | refine Bounded.ofPair2 ?_ (by assumption)
    | refine Bounded.ofPair3 ?_ (by assumption) | apply Bounded.getD_ | split
    | (extract_lets +onlyGivenNames s_; refine (fun (_ : Bounded s_) => ?_) ?_; swap; subst s_)
    | (extract_lets +onlyGivenNames s_; clear_value s_) | extract_lets +onlyGivenNames s_

theorem State.engineEnd_bounded {s o res busy code bad r0 r1} (h0 : Bounded s) : Bounded (State.engineEnd s o res busy code bad r0 r1) := by
  unfold State.engineEnd
  with_reducible repeat' first
    | assumption | apply State.setFld_bounded | apply State.svcDone_bounded | split

theorem State.svcCmd_bounded {s q k op f} (h0 : Bounded s) (h4 : ∀ x0 x1, Bounded x1 → Bounded (f x0 x1)) : Bounded (State.svcCmd s q k op f) := by
  unfold State.svcCmd
  with_reducible repeat' first
    | assumption | apply State.setCmd_bounded | apply h4 | split

theorem State.regBad_bounded {s port err ei} (h0 : Bounded s) : Bounded (State.regBad s port err ei) := by
  unfold State.regBad
  with_reducible repeat' first
    | assumption | apply State.incFld_bounded | apply State.regRsp_bounded

theorem State.holdSwap_bounded {s i} (h0 : Bounded s) : Bounded (State.holdSwap s i) := by
  unfold State.holdSwap
  with_reducible repeat' first
    | assumption | (intro _; try beta_reduce) | apply Bounded.ite_ | simp -zeta only [↓Bounded.mk_iff]
    | split | (extract_lets +onlyGivenNames s_; refine (fun (_ : Bounded s_) => ?_) ?_; swap; subst s_)
    | (extract_lets +onlyGivenNames s_; clear_value s_) | extract_lets +onlyGivenNames s_

theorem State.regCmd_bounded {s i port busy err busyFld f} (h0 : Bounded s) (h6 : ∀ x0, Bounded x0 → Bounded (f x0)) : Bounded (State.regCmd s i port busy err busyFld f) := by
  unfold State.regCmd
  with_reducible repeat' first
    | assumption | (intro _; try beta_reduce) | apply Bounded.ite_ | apply h6 | apply State.holdSwap_bounded
    | apply State.ownerCmd_bounded | apply State.setFld_bounded | split

theorem State.queueCmd_bounded {s i q k op f} (h0 : Bounded s) (h5 : ∀ x0 x1, Bounded x1 → Bounded (f x0 x1)) : Bounded (State.queueCmd s i q k op f) := by
  unfold State.queueCmd
  with_reducible repeat' first
    | assumption | (intro _; try beta_reduce) | apply Bounded.ite_ | apply h5 | apply State.holdSwap_bounded
    | apply State.svcCmd_bounded | split

end Sys2Proof.Machine
end

