-- ==== Sys2Proof/Laws/BoundedFlags.lean ====
section
/-! SUPPORT. Every operation of Machine/Flags.lean keeps the bounds. -/

namespace Sys2Proof.Machine

theorem State.record_bounded {s ev src inst part arg0 arg1 rehearsal} (h0 : Bounded s) : Bounded (State.record s ev src inst part arg0 arg1 rehearsal) := by
  unfold State.record
  with_reducible repeat' first
    | assumption | apply State.incFld_bounded | apply State.stage_bounded | split

theorem State.pkuOwn_bounded {s n} (h0 : Bounded s) : Bounded (State.pkuOwn s n) := by
  unfold State.pkuOwn
  with_reducible repeat' first
    | assumption | apply State.count_bounded | simp -zeta only [↓Bounded.mk_iff]
    | (extract_lets +onlyGivenNames s_; refine (fun (_ : Bounded s_) => ?_) ?_; swap; subst s_)
    | extract_lets +onlyGivenNames s_

theorem State.cycles_bounded {s} (h0 : Bounded s) : BoundedPair (State.cycles s) := by
  unfold State.cycles
  with_reducible repeat' first
    | assumption | apply BoundedPair.mk_ | apply State.freed_bounded
theorem State.cycles_bounded2 {s} (h0 : Bounded s) : Bounded (State.cycles s).2 := BoundedPair.of_snd (State.cycles_bounded h0)

theorem State.pend_bounded {s c} (h0 : Bounded s) : Bounded (State.pend s c) := by
  unfold State.pend
  with_reducible repeat' first
    | assumption | apply State.emit_bounded | apply State.setFld_bounded | split
    | (extract_lets +onlyGivenNames s_; have _x : Option State := s_; clear _x; subst s_)
    | extract_lets +onlyGivenNames s_

theorem State.writeRecord_bounded {s} (h0 : Bounded s) : Bounded (State.writeRecord s) := by
  unfold State.writeRecord
  split
  · exact h0
  · next r rest e =>
    have hs : Bounded { s with faults := { s.faults with staging := rest } } := by
      unfold Bounded at *
      obtain ⟨g, a, b⟩ := h0
      rw [e] at a
      exact ⟨g, by simp only [List.length_cons] at a; dsimp only; omega, b⟩
    extract_lets +onlyGivenNames fs s1
    have hs1 : Bounded s1 := hs
    split
    · extract_lets f2
      exact Bounded.mk_two (State.incFld_bounded hs1) hs1
    extract_lets f flags rec_ s2 s3
    have hs2 : Bounded s2 := State.trace_bounded hs1
    have hs3 : Bounded s3 := by
      unfold Bounded at hs1 hs2 ⊢
      obtain ⟨_, a, _⟩ := hs1
      obtain ⟨g, _, _, _, b⟩ := hs2
      exact ⟨g, a, Nat.mod_lt _ (by decide), Nat.mod_lt _ (by decide), b⟩
    split
    · exact hs3
    · exact State.pend_bounded hs3

theorem State.spend_bounded {s e} (h0 : Bounded s) : Bounded (State.spend s e) := by
  unfold State.spend
  with_reducible repeat' first
    | assumption | (intro _; try beta_reduce) | apply Bounded.ite_ | simp -zeta only [↓Bounded.mk_iff]
    | split | (extract_lets +onlyGivenNames s_; refine (fun (_ : Bounded s_) => ?_) ?_; swap; subst s_)
    | (extract_lets +onlyGivenNames s_; clear_value s_) | extract_lets +onlyGivenNames s_

theorem State.withhold_bounded {s} (h0 : Bounded s) : Bounded (State.withhold s) := by
  unfold State.withhold
  with_reducible repeat' first
    | assumption | (intro _; try beta_reduce) | apply Bounded.ite_ | simp -zeta only [↓Bounded.mk_iff]
    | split | (extract_lets +onlyGivenNames s_; refine (fun (_ : Bounded s_) => ?_) ?_; swap; subst s_)
    | (extract_lets +onlyGivenNames s_; clear_value s_) | extract_lets +onlyGivenNames s_

end Sys2Proof.Machine
end

