-- ==== Sys2Proof/Laws/BoundedHedgeOps.lean ====
section
/-! SUPPORT. Every operation of Machine/HedgeOps.lean keeps the bounds. -/

namespace Sys2Proof.Machine

theorem State.addCause_bounded {s p c} (h0 : Bounded s) : Bounded (State.addCause s p c) := by
  unfold State.addCause
  with_reducible repeat' first
    | assumption | (intro _; try beta_reduce) | apply Bounded.ite_ | apply State.emit_bounded
    | apply State.setPart_bounded | simp -zeta only [↓Bounded.mk_iff] | split
    | (extract_lets +onlyGivenNames s_; refine (fun (_ : Bounded s_) => ?_) ?_; swap; subst s_)
    | (extract_lets +onlyGivenNames s_; clear_value s_) | extract_lets +onlyGivenNames s_

theorem State.removeCause_bounded {s p c} (h0 : Bounded s) : Bounded (State.removeCause s p c) := by
  unfold State.removeCause
  with_reducible repeat' first
    | assumption | apply State.emit_bounded | apply State.setPart_bounded | split | extract_lets +onlyGivenNames s_

end Sys2Proof.Machine
end

