-- ==== Sys2Proof/Laws/BoundedHooks.lean ====
section
/-! SUPPORT. Every operation of Machine/Hooks.lean keeps the bounds. -/

namespace Sys2Proof.Machine

theorem State.countArrival_bounded {s i n src} (h0 : Bounded s) : Bounded (State.countArrival s i n src) := by
  unfold State.countArrival
  with_reducible repeat' first
    | assumption | apply State.count_bounded | apply State.emit_bounded | apply State.setActr_bounded
    | apply State.trace_bounded | split | extract_lets +onlyGivenNames s_

theorem State.arrive_bounded {s t r st} (h0 : Bounded s) : Bounded (State.arrive s t r st) := by
  unfold State.arrive
  with_reducible repeat' first
    | assumption | apply State.countArrival_bounded | apply State.setActr_bounded | split

theorem State.remoteEffect_bounded {s t r st data} (h0 : Bounded s) : Bounded (State.remoteEffect s t r st data) := by
  unfold State.remoteEffect
  with_reducible repeat' first
    | assumption | apply State.arrive_bounded | simp -zeta only [↓Bounded.mk_iff]
    | (extract_lets +onlyGivenNames s_; have _x : Option State := s_; clear _x; subst s_)
    | extract_lets +onlyGivenNames s_

theorem State.withStv_bounded {s v1_} (h0 : Bounded s) : Bounded (State.withStv s v1_) := by
  unfold State.withStv
  with_reducible repeat' first
    | assumption | simp -zeta only [↓Bounded.mk_iff]

theorem State.setTok_bounded {s t v2_} (h0 : Bounded s) : Bounded (State.setTok s t v2_) := by
  unfold State.setTok
  with_reducible repeat' first
    | assumption | simp -zeta only [↓Bounded.mk_iff]

theorem State.tokEnd_bounded {s o code r0 r1} (h0 : Bounded s) : Bounded (State.tokEnd s o code r0 r1) := by
  unfold State.tokEnd
  with_reducible repeat' first
    | assumption | apply State.engineEnd_bounded

theorem State.tokBreak_bounded {s row} (h0 : Bounded s) : Bounded (State.tokBreak s row) := by
  unfold State.tokBreak
  with_reducible repeat' first
    | assumption | (intro _; try beta_reduce) | apply Bounded.ite_ | apply State.setTok_bounded
    | simp -zeta only [↓Bounded.mk_iff] | refine Bounded.ofSome ?_ (by assumption)
    | refine Bounded.ofSomeP ?_ (by assumption) | refine Bounded.ofPair ?_ (by assumption)
    | refine Bounded.ofPair2 ?_ (by assumption) | refine Bounded.ofPair3 ?_ (by assumption) | split
    | (extract_lets +onlyGivenNames s_; refine (fun (_ : Bounded s_) => ?_) ?_; swap; subst s_)
    | (extract_lets +onlyGivenNames s_; clear_value s_) | extract_lets +onlyGivenNames s_

theorem State.logDirty_bounded {s p page} (h0 : Bounded s) : Bounded (State.logDirty s p page) := by
  unfold State.logDirty
  with_reducible repeat' first
    | assumption | apply State.setPart_bounded | split | extract_lets +onlyGivenNames s_

theorem State.segFill_bounded {s write t row line data} (h0 : Bounded s) : Bounded (State.segFill s write t row line data) := by
  unfold State.segFill
  with_reducible repeat' first
    | assumption | (intro _; try beta_reduce) | apply Bounded.ite_ | apply State.withStv_bounded
    | apply foldl_bounded | simp -zeta only [↓Bounded.mk_iff] | split
    | (extract_lets +onlyGivenNames s_; refine (fun (_ : Bounded s_) => ?_) ?_; swap; subst s_)
    | (extract_lets +onlyGivenNames s_; clear_value s_) | extract_lets +onlyGivenNames s_

end Sys2Proof.Machine
end

