-- ==== Sys2Proof/Laws/BoundedCounters.lean ====
section
/-! SUPPORT. Every operation of Machine/Counters.lean keeps the bounds. -/

namespace Sys2Proof.Machine

theorem State.uncache_bounded {s level idx} (h0 : Bounded s) : Bounded (State.uncache s level idx) := by
  unfold State.uncache
  with_reducible repeat' first
    | assumption | simp -zeta only [↓Bounded.mk_iff]

theorem State.cacheNode_bounded {s level idx c dirty} (h0 : Bounded s) : Bounded (State.cacheNode s level idx c dirty) := by
  unfold State.cacheNode
  with_reducible repeat' first
    | assumption | simp -zeta only [↓Bounded.mk_iff]

theorem State.setNode_bounded {s level idx c} (h0 : Bounded s) : Bounded (State.setNode s level idx c) := by
  unfold State.setNode
  with_reducible repeat' first
    | assumption | apply State.cacheNode_bounded | simp -zeta only [↓Bounded.mk_iff] | split

theorem State.drawEpoch_bounded {s} (h0 : Bounded s) : BoundedPair (State.drawEpoch s) := by
  unfold State.drawEpoch
  with_reducible repeat' first
    | assumption | apply BoundedPair.mk_ | simp -zeta only [↓Bounded.mk_iff]
theorem State.drawEpoch_bounded2 {s} (h0 : Bounded s) : Bounded (State.drawEpoch s).2 := BoundedPair.of_snd (State.drawEpoch_bounded h0)

end Sys2Proof.Machine
end

