-- ==== Sys2Proof/Laws/BoundedMemory.lean ====
section
/-! SUPPORT. Every operation of Machine/Memory.lean keeps the bounds. -/

namespace Sys2Proof.Machine

theorem State.laneProgress_bounded {s n} (h0 : Bounded s) : Bounded (State.laneProgress s n) := by
  unfold State.laneProgress
  with_reducible repeat' first
    | assumption | apply Bounded.ite_ | apply State.setLane_bounded

theorem State.freeTid_bounded {s g tid} (h0 : Bounded s) : Bounded (State.freeTid s g tid) := by
  unfold State.freeTid
  with_reducible repeat' first
    | assumption | simp -zeta only [↓Bounded.mk_iff]

theorem State.completeWrite_bounded {s t st prov} (h0 : Bounded s) : Bounded (State.completeWrite s t st prov) := by
  unfold State.completeWrite
  with_reducible repeat' first
    | assumption | apply State.emit_bounded | apply State.freeTid_bounded | apply State.laneProgress_bounded
    | apply State.remoteEffect_bounded | split

theorem State.queueRsp_bounded {s t row st data prov} (h0 : Bounded s) : Bounded (State.queueRsp s t row st data prov) := by
  unfold State.queueRsp
  with_reducible repeat' first
    | assumption | (intro _; try beta_reduce) | apply Bounded.ite_ | apply State.remoteEffect_bounded
    | apply Bounded.id_ | simp -zeta only [↓Bounded.mk_iff] | refine Bounded.ofSome ?_ (by assumption)
    | refine Bounded.ofSomeP ?_ (by assumption) | refine Bounded.ofPair ?_ (by assumption)
    | refine Bounded.ofPair2 ?_ (by assumption) | refine Bounded.ofPair3 ?_ (by assumption) | split
    | (extract_lets +onlyGivenNames s_; refine (fun (_ : Bounded s_) => ?_) ?_; swap; subst s_)
    | (extract_lets +onlyGivenNames s_; clear_value s_) | extract_lets +onlyGivenNames s_

theorem State.refuse_bounded {s t st} (h0 : Bounded s) : Bounded (State.refuse s t st) := by
  unfold State.refuse
  with_reducible repeat' first
    | assumption | (intro _; try beta_reduce) | apply Bounded.ite_ | apply State.completeWrite_bounded
    | apply State.incFld_bounded | apply State.queueRsp_bounded | refine Bounded.ofSome ?_ (by assumption)
    | refine Bounded.ofSomeP ?_ (by assumption) | refine Bounded.ofPair ?_ (by assumption)
    | refine Bounded.ofPair2 ?_ (by assumption) | refine Bounded.ofPair3 ?_ (by assumption) | split
    | (extract_lets +onlyGivenNames s_; refine (fun (_ : Bounded s_) => ?_) ?_; swap; subst s_)
    | (extract_lets +onlyGivenNames s_; clear_value s_) | extract_lets +onlyGivenNames s_

theorem State.offer_bounded {s g lane p line n data first} (h0 : Bounded s) : Bounded (State.offer s g lane p line n data first) := by
  unfold State.offer
  with_reducible repeat' first
    | assumption | (intro _; try beta_reduce) | apply Bounded.ite_ | apply State.spend_bounded
    | simp -zeta only [↓Bounded.mk_iff] | split
    | (extract_lets +onlyGivenNames s_; refine (fun (_ : Bounded s_) => ?_) ?_; swap; subst s_)
    | (extract_lets +onlyGivenNames s_; clear_value s_) | extract_lets +onlyGivenNames s_

theorem State.fetchMeta_bounded {s level idx} (h0 : Bounded s) : Bounded (State.fetchMeta s level idx) := by
  unfold State.fetchMeta
  with_reducible repeat' first
    | assumption | (intro _; try beta_reduce) | apply Bounded.ite_ | apply State.count_bounded
    | apply State.offer_bounded | apply foldl_bounded | apply Bounded.getD_ | split
    | (extract_lets +onlyGivenNames s_; refine (fun (_ : Bounded s_) => ?_) ?_; swap; subst s_)
    | (extract_lets +onlyGivenNames s_; clear_value s_) | extract_lets +onlyGivenNames s_

theorem State.setCredit_bounded {s lane slot n} (h0 : Bounded s) : Bounded (State.setCredit s lane slot n) := by
  unfold State.setCredit
  with_reducible repeat' first
    | assumption | simp -zeta only [↓Bounded.mk_iff]

theorem State.holdLevel_bounded {s n part} (h0 : Bounded s) : Bounded (State.holdLevel s n part) := by
  unfold State.holdLevel
  with_reducible repeat' first
    | assumption | (intro _; try beta_reduce) | apply Bounded.ite_ | apply State.cycles_bounded
    | apply State.cycles_bounded2 | apply State.record_bounded | apply State.setLane_bounded
    | apply State.trace_bounded | simp -zeta only [↓Bounded.mk_iff]
    | refine Bounded.ofSome ?_ (by assumption) | refine Bounded.ofSomeP ?_ (by assumption)
    | refine Bounded.ofPair ?_ (by assumption) | refine Bounded.ofPair2 ?_ (by assumption)
    | refine Bounded.ofPair3 ?_ (by assumption) | split
    | (extract_lets +onlyGivenNames s_; refine (fun (_ : Bounded s_) => ?_) ?_; swap; subst s_)
    | (extract_lets +onlyGivenNames s_; clear_value s_) | extract_lets +onlyGivenNames s_

theorem State.hold_bounded {s step part deps what} (h0 : Bounded s) : Bounded (State.hold s step part deps what) := by
  unfold State.hold
  with_reducible repeat' first
    | assumption | (intro _; try beta_reduce) | apply Bounded.ite_ | apply State.count_bounded
    | apply State.holdLevel_bounded | apply State.setStepEnt_bounded | apply State.trace_bounded
    | apply Bounded.id_ | simp -zeta only [↓Bounded.mk_iff] | refine Bounded.ofSome ?_ (by assumption)
    | refine Bounded.ofSomeP ?_ (by assumption) | refine Bounded.ofPair ?_ (by assumption)
    | refine Bounded.ofPair2 ?_ (by assumption) | refine Bounded.ofPair3 ?_ (by assumption) | split
    | (extract_lets +onlyGivenNames s_; refine (fun (_ : Bounded s_) => ?_) ?_; swap; subst s_)
    | (extract_lets +onlyGivenNames s_; clear_value s_) | extract_lets +onlyGivenNames s_

theorem State.askCredit_bounded {s lane slot} (h0 : Bounded s) : Bounded (State.askCredit s lane slot) := by
  unfold State.askCredit
  with_reducible repeat' first
    | assumption | apply Bounded.ite_ | simp -zeta only [↓Bounded.mk_iff]

theorem State.takeCredit_bounded {s lane slot n} (h0 : Bounded s) : Bounded (State.takeCredit s lane slot n) := by
  unfold State.takeCredit
  with_reducible repeat' first
    | assumption | apply Bounded.ite_ | apply State.askCredit_bounded | apply State.setCredit_bounded

theorem State.bufferLines_bounded {s lane row line data tag maint owner acc} (h0 : Bounded s) : Bounded (State.bufferLines s lane row line data tag maint owner acc) := by
  unfold State.bufferLines
  with_reducible repeat' first
    | assumption | (intro _; try beta_reduce) | apply Bounded.ite_ | simp -zeta only [↓Bounded.mk_iff]
    | apply Bounded.getD_ | split
    | (extract_lets +onlyGivenNames s_; refine (fun (_ : Bounded s_) => ?_) ?_; swap; subst s_)
    | (extract_lets +onlyGivenNames s_; clear_value s_) | extract_lets +onlyGivenNames s_

theorem State.offerMaint_bounded {s g lane p line n data prio} (h0 : Bounded s) : Bounded (State.offerMaint s g lane p line n data prio) := by
  unfold State.offerMaint
  with_reducible repeat' first
    | assumption | (intro _; try beta_reduce) | apply Bounded.ite_ | apply State.setLane_bounded
    | simp -zeta only [↓Bounded.mk_iff] | refine Bounded.ofSome ?_ (by assumption)
    | refine Bounded.ofSomeP ?_ (by assumption) | refine Bounded.ofPair ?_ (by assumption)
    | refine Bounded.ofPair2 ?_ (by assumption) | refine Bounded.ofPair3 ?_ (by assumption) | split
    | (extract_lets +onlyGivenNames s_; refine (fun (_ : Bounded s_) => ?_) ?_; swap; subst s_)
    | (extract_lets +onlyGivenNames s_; clear_value s_) | extract_lets +onlyGivenNames s_

theorem State.offerLines_bounded {s lane row line data ctrs maint acc} (h0 : Bounded s) : Bounded (State.offerLines s lane row line data ctrs maint acc) := by
  unfold State.offerLines
  with_reducible repeat' first
    | assumption | (intro _; try beta_reduce) | apply Bounded.ite_ | apply State.bufferLines_bounded
    | apply State.offerMaint_bounded | apply State.offer_bounded | simp -zeta only [↓Bounded.mk_iff]
    | refine Bounded.ofSome ?_ (by assumption) | refine Bounded.ofSomeP ?_ (by assumption)
    | refine Bounded.ofPair ?_ (by assumption) | refine Bounded.ofPair2 ?_ (by assumption)
    | refine Bounded.ofPair3 ?_ (by assumption) | split
    | (extract_lets +onlyGivenNames s_; refine (fun (_ : Bounded s_) => ?_) ?_; swap; subst s_)
    | (extract_lets +onlyGivenNames s_; clear_value s_) | extract_lets +onlyGivenNames s_

theorem State.offerWrite_bounded {s lane row line data ctrs maint acc} (h0 : Bounded s) : Bounded (State.offerWrite s lane row line data ctrs maint acc) := by
  unfold State.offerWrite
  with_reducible repeat' first
    | assumption | (intro _; try beta_reduce) | apply Bounded.ite_ | apply State.count_bounded
    | apply State.offerLines_bounded | split

theorem State.startMove_bounded {s row page old fresh} (h0 : Bounded s) : Bounded (State.startMove s row page old fresh) := by
  unfold State.startMove
  with_reducible repeat' first
    | assumption | (intro _; try beta_reduce) | apply Bounded.ite_ | apply State.count_bounded
    | apply State.offerMaint_bounded | apply State.offer_bounded | apply State.trace_bounded
    | apply foldl_bounded | simp -zeta only [↓Bounded.mk_iff] | refine Bounded.ofSome ?_ (by assumption)
    | refine Bounded.ofSomeP ?_ (by assumption) | refine Bounded.ofPair ?_ (by assumption)
    | refine Bounded.ofPair2 ?_ (by assumption) | refine Bounded.ofPair3 ?_ (by assumption)
    | apply Bounded.getD_ | split
    | (extract_lets +onlyGivenNames s_; refine (fun (_ : Bounded s_) => ?_) ?_; swap; subst s_)
    | (extract_lets +onlyGivenNames s_; clear_value s_) | extract_lets +onlyGivenNames s_

theorem State.queueTilled_bounded {s t row data} (h0 : Bounded s) : Bounded (State.queueTilled s t row data) := by
  unfold State.queueTilled
  with_reducible repeat' first
    | assumption | (intro _; try beta_reduce) | apply Bounded.ite_ | apply State.bufferLines_bounded
    | apply Bounded.id_ | simp -zeta only [↓Bounded.mk_iff] | split
    | (extract_lets +onlyGivenNames s_; refine (fun (_ : Bounded s_) => ?_) ?_; swap; subst s_)
    | (extract_lets +onlyGivenNames s_; clear_value s_) | extract_lets +onlyGivenNames s_

theorem State.joinMove_bounded {s page line data} (h0 : Bounded s) : Bounded (State.joinMove s page line data) := by
  unfold State.joinMove
  with_reducible repeat' first
    | assumption | (intro _; try beta_reduce) | apply Bounded.ite_ | simp -zeta only [↓Bounded.mk_iff]
    | split | (extract_lets +onlyGivenNames s_; refine (fun (_ : Bounded s_) => ?_) ?_; swap; subst s_)
    | (extract_lets +onlyGivenNames s_; clear_value s_) | extract_lets +onlyGivenNames s_

theorem State.countedWrite_bounded {s t row line data c} (h0 : Bounded s) : Bounded (State.countedWrite s t row line data c) := by
  unfold State.countedWrite
  with_reducible repeat' first
    | assumption | (intro _; try beta_reduce) | apply Bounded.ite_ | apply State.drawEpoch_bounded
    | apply State.drawEpoch_bounded2 | apply State.offerWrite_bounded | apply State.setNode_bounded
    | apply foldl_bounded | refine Bounded.ofSome ?_ (by assumption)
    | refine Bounded.ofSomeP ?_ (by assumption) | refine Bounded.ofPair ?_ (by assumption)
    | refine Bounded.ofPair2 ?_ (by assumption) | refine Bounded.ofPair3 ?_ (by assumption) | split
    | (extract_lets +onlyGivenNames s_; refine (fun (_ : Bounded s_) => ?_) ?_; swap; subst s_)
    | (extract_lets +onlyGivenNames s_; clear_value s_) | extract_lets +onlyGivenNames s_

theorem State.applyTilled_bounded {s t row line data c} (h0 : Bounded s) : Bounded (State.applyTilled s t row line data c) := by
  unfold State.applyTilled
  with_reducible repeat' first
    | assumption | (intro _; try beta_reduce) | apply Bounded.ite_ | apply State.countedWrite_bounded
    | apply State.startMove_bounded | split

theorem State.tilledWrite_bounded {s t row line data} (h0 : Bounded s) : Bounded (State.tilledWrite s t row line data) := by
  unfold State.tilledWrite
  with_reducible repeat' first
    | assumption | (intro _; try beta_reduce) | apply Bounded.ite_ | apply State.applyTilled_bounded
    | apply State.fetchMeta_bounded | apply State.joinMove_bounded | apply State.queueTilled_bounded
    | refine Bounded.ofSome ?_ (by assumption) | refine Bounded.ofSomeP ?_ (by assumption)
    | refine Bounded.ofPair ?_ (by assumption) | refine Bounded.ofPair2 ?_ (by assumption)
    | refine Bounded.ofPair3 ?_ (by assumption) | split
    | (extract_lets +onlyGivenNames s_; refine (fun (_ : Bounded s_) => ?_) ?_; swap; subst s_)
    | (extract_lets +onlyGivenNames s_; clear_value s_) | extract_lets +onlyGivenNames s_

theorem State.performWrite_bounded {s t row} (h0 : Bounded s) : Bounded (State.performWrite s t row) := by
  unfold State.performWrite
  with_reducible repeat' first
    | assumption | (intro _; try beta_reduce) | apply Bounded.ite_ | apply State.logDirty_bounded
    | apply State.offerWrite_bounded | apply State.segFill_bounded | apply State.setRow_bounded
    | apply State.takeCredit_bounded | apply State.tilledWrite_bounded | apply foldl_bounded
    | simp -zeta only [↓Bounded.mk_iff] | refine Bounded.ofSome ?_ (by assumption)
    | refine Bounded.ofSomeP ?_ (by assumption) | refine Bounded.ofPair ?_ (by assumption)
    | refine Bounded.ofPair2 ?_ (by assumption) | refine Bounded.ofPair3 ?_ (by assumption) | split
    | (extract_lets +onlyGivenNames s_; refine (fun (_ : Bounded s_) => ?_) ?_; swap; subst s_)
    | (extract_lets +onlyGivenNames s_; clear_value s_) | extract_lets +onlyGivenNames s_

theorem State.heldTime_bounded {s h} (h0 : Bounded s) : Bounded (State.heldTime s h) := by
  unfold State.heldTime
  with_reducible repeat' first
    | assumption | (intro _; try beta_reduce) | apply Bounded.ite_ | apply State.count_bounded
    | apply State.cycles_bounded | apply State.cycles_bounded2 | refine Bounded.ofSome ?_ (by assumption)
    | refine Bounded.ofSomeP ?_ (by assumption) | refine Bounded.ofPair ?_ (by assumption)
    | refine Bounded.ofPair2 ?_ (by assumption) | refine Bounded.ofPair3 ?_ (by assumption) | split
    | (extract_lets +onlyGivenNames s_; refine (fun (_ : Bounded s_) => ?_) ?_; swap; subst s_)
    | (extract_lets +onlyGivenNames s_; clear_value s_) | extract_lets +onlyGivenNames s_

theorem State.discard_bounded {s h} (h0 : Bounded s) : Bounded (State.discard s h) := by
  unfold State.discard
  with_reducible repeat' first
    | assumption | (intro _; try beta_reduce) | apply Bounded.ite_ | apply State.count_bounded
    | apply State.emit_bounded | apply State.freeTid_bounded | apply State.heldTime_bounded
    | apply State.holdLevel_bounded | apply State.setChan_bounded | apply State.setRow_bounded
    | apply State.svcDone_bounded | simp -zeta only [↓Bounded.mk_iff]
    | refine Bounded.ofSome ?_ (by assumption) | refine Bounded.ofSomeP ?_ (by assumption)
    | refine Bounded.ofPair ?_ (by assumption) | refine Bounded.ofPair2 ?_ (by assumption)
    | refine Bounded.ofPair3 ?_ (by assumption) | split
    | (extract_lets +onlyGivenNames s_; refine (fun (_ : Bounded s_) => ?_) ?_; swap; subst s_)
    | (extract_lets +onlyGivenNames s_; clear_value s_) | extract_lets +onlyGivenNames s_

theorem State.poisonOne_bounded {s step} (h0 : Bounded s) : Bounded (State.poisonOne s step) := by
  unfold State.poisonOne
  with_reducible repeat' first
    | assumption | (intro _; try beta_reduce) | apply State.discard_bounded | apply State.setStepEnt_bounded
    | apply foldl_bounded | simp -zeta only [↓Bounded.mk_iff]

theorem State.poisonStep_bounded {s step line} (h0 : Bounded s) : Bounded (State.poisonStep s step line) := by
  unfold State.poisonStep
  with_reducible repeat' first
    | assumption | (intro _; try beta_reduce) | apply Bounded.ite_ | apply State.poisonOne_bounded
    | apply State.record_bounded | apply foldl_bounded

theorem State.finishAtomic_bounded {s t r row line} (h0 : Bounded s) : Bounded (State.finishAtomic s t r row line) := by
  unfold State.finishAtomic
  with_reducible repeat' first
    | assumption | apply State.performWrite_bounded | apply State.remoteEffect_bounded | split

theorem Rd.fill_bounded {r s} (h1 : Bounded s) : Bounded (Rd.fill r s) := by
  unfold Rd.fill
  with_reducible repeat' first
    | assumption | (intro _; try beta_reduce) | apply State.segFill_bounded | apply foldl_bounded

theorem State.markPoisoned_bounded {s step} (h0 : Bounded s) : Bounded (State.markPoisoned s step) := by
  unfold State.markPoisoned
  with_reducible repeat' first
    | assumption | apply State.setStepEnt_bounded

theorem State.endInjection_bounded {s id} (h0 : Bounded s) : Bounded (State.endInjection s id) := by
  unfold State.endInjection
  with_reducible repeat' first
    | assumption | apply Bounded.ite_ | apply State.setFld_bounded
    | simp -zeta only [↓Bounded.mk_iffO, ↓Bounded.mk_iffF]
    | (extract_lets +onlyGivenNames s_; have _x : Faults := s_; clear _x; subst s_)

theorem State.freeLines_bounded {s n} (h0 : Bounded s) : BoundedPair (State.freeLines s n) := by
  unfold State.freeLines
  with_reducible repeat' first
    | assumption | (intro _; try beta_reduce) | apply BoundedPair.ite_ | apply BoundedPair.mk_
    | apply Bounded.ite_ | simp -zeta only [↓Bounded.mk_iff] | split
    | (extract_lets +onlyGivenNames s_; refine (fun (_ : Bounded s_) => ?_) ?_; swap; subst s_)
    | (extract_lets +onlyGivenNames s_; clear_value s_) | extract_lets +onlyGivenNames s_
theorem State.freeLines_bounded2 {s n} (h0 : Bounded s) : Bounded (State.freeLines s n).2 := BoundedPair.of_snd (State.freeLines_bounded h0)

theorem State.queuePoison_bounded {s t row} (h0 : Bounded s) : Bounded (State.queuePoison s t row) := by
  unfold State.queuePoison
  with_reducible repeat' first
    | assumption | (intro _; try beta_reduce) | apply Bounded.ite_ | apply State.freeLines_bounded
    | apply State.freeLines_bounded2 | apply State.queueRsp_bounded
    | refine Bounded.ofSome ?_ (by assumption) | refine Bounded.ofSomeP ?_ (by assumption)
    | refine Bounded.ofPair ?_ (by assumption) | refine Bounded.ofPair2 ?_ (by assumption)
    | refine Bounded.ofPair3 ?_ (by assumption) | split
    | (extract_lets +onlyGivenNames s_; refine (fun (_ : Bounded s_) => ?_) ?_; swap; subst s_)
    | (extract_lets +onlyGivenNames s_; clear_value s_) | extract_lets +onlyGivenNames s_

theorem State.finishRead_bounded {s r} (h0 : Bounded s) : Bounded (State.finishRead s r) := by
  unfold State.finishRead
  with_reducible repeat' first
    | assumption | (intro _; try beta_reduce) | apply Bounded.ite_ | apply Rd.fill_bounded
    | apply State.count_bounded | apply State.endInjection_bounded | apply State.finishAtomic_bounded
    | apply State.freed_bounded | apply State.incFld_bounded | apply State.markPoisoned_bounded
    | apply State.poisonStep_bounded | apply State.queuePoison_bounded | apply State.queueRsp_bounded
    | apply State.stage_bounded | apply Bounded.id_ | apply foldl_bounded
    | simp -zeta only [↓Bounded.mk_iff] | refine Bounded.ofSome ?_ (by assumption)
    | refine Bounded.ofSomeP ?_ (by assumption) | refine Bounded.ofPair ?_ (by assumption)
    | refine Bounded.ofPair2 ?_ (by assumption) | refine Bounded.ofPair3 ?_ (by assumption)
    | apply Bounded.getD_ | split
    | (extract_lets +onlyGivenNames s_; refine (fun (_ : Bounded s_) => ?_) ?_; swap; subst s_)
    | (extract_lets +onlyGivenNames s_; clear_value s_) | extract_lets +onlyGivenNames s_

theorem State.takeRead_bounded {s t upper} (h0 : Bounded s) : Bounded (State.takeRead s t upper) := by
  unfold State.takeRead
  with_reducible repeat' first
    | assumption | (intro _; try beta_reduce) | apply Bounded.ite_ | apply State.fetchMeta_bounded
    | apply State.finishRead_bounded | apply State.offer_bounded | apply State.setStepEnt_bounded
    | apply Bounded.id_ | apply foldl_bounded | simp -zeta only [↓Bounded.mk_iff]
    | refine Bounded.ofSome ?_ (by assumption) | refine Bounded.ofSomeP ?_ (by assumption)
    | refine Bounded.ofPair ?_ (by assumption) | refine Bounded.ofPair2 ?_ (by assumption)
    | refine Bounded.ofPair3 ?_ (by assumption) | apply Bounded.getD_ | split
    | (extract_lets +onlyGivenNames s_; refine (fun (_ : Bounded s_) => ?_) ?_; swap; subst s_)
    | (extract_lets +onlyGivenNames s_; clear_value s_) | extract_lets +onlyGivenNames s_

theorem State.reserve_bounded {s t row} (h0 : Bounded s) : Bounded (State.reserve s t row) := by
  unfold State.reserve
  with_reducible repeat' first
    | assumption | (intro _; try beta_reduce) | apply Bounded.ite_ | apply State.setRow_bounded
    | simp -zeta only [↓Bounded.mk_iff] | refine Bounded.ofSome ?_ (by assumption)
    | refine Bounded.ofSomeP ?_ (by assumption) | refine Bounded.ofPair ?_ (by assumption)
    | refine Bounded.ofPair2 ?_ (by assumption) | refine Bounded.ofPair3 ?_ (by assumption) | split
    | (extract_lets +onlyGivenNames s_; refine (fun (_ : Bounded s_) => ?_) ?_; swap; subst s_)
    | (extract_lets +onlyGivenNames s_; clear_value s_) | extract_lets +onlyGivenNames s_

theorem State.takeWrite_bounded {s t} (h0 : Bounded s) : Bounded (State.takeWrite s t) := by
  unfold State.takeWrite
  with_reducible repeat' first
    | assumption | (intro _; try beta_reduce) | apply Bounded.ite_ | apply State.completeWrite_bounded
    | apply State.discard_bounded | apply State.hold_bounded | apply State.pend_bounded
    | apply State.performWrite_bounded | apply State.reserve_bounded | apply State.takeRead_bounded
    | refine Bounded.ofSome ?_ (by assumption) | refine Bounded.ofSomeP ?_ (by assumption)
    | refine Bounded.ofPair ?_ (by assumption) | refine Bounded.ofPair2 ?_ (by assumption)
    | refine Bounded.ofPair3 ?_ (by assumption) | split
    | (extract_lets +onlyGivenNames s_; refine (fun (_ : Bounded s_) => ?_) ?_; swap; subst s_)
    | (extract_lets +onlyGivenNames s_; clear_value s_) | extract_lets +onlyGivenNames s_

theorem State.presentEarly_bounded {s r} (h0 : Bounded s) : Bounded (State.presentEarly s r) := by
  unfold State.presentEarly
  with_reducible repeat' first
    | assumption | (intro _; try beta_reduce) | apply Bounded.ite_ | apply State.queueRsp_bounded
    | apply Bounded.getD_ | split

theorem State.setRead_bounded {s r} (h0 : Bounded s) : Bounded (State.setRead s r) := by
  unfold State.setRead
  with_reducible repeat' first
    | assumption | simp -zeta only [↓Bounded.mk_iff]

theorem State.chargeMaint_bounded {s lane lines} (h0 : Bounded s) : Bounded (State.chargeMaint s lane lines) := by
  unfold State.chargeMaint
  with_reducible repeat' first
    | assumption | (intro _; try beta_reduce) | apply Bounded.ite_ | apply State.setLane_bounded
    | apply State.spend_bounded | simp -zeta only [↓Bounded.mk_iff] | split
    | (extract_lets +onlyGivenNames s_; refine (fun (_ : Bounded s_) => ?_) ?_; swap; subst s_)
    | (extract_lets +onlyGivenNames s_; clear_value s_) | extract_lets +onlyGivenNames s_

theorem State.unqueueTilled_bounded {s w} (h0 : Bounded s) : Bounded (State.unqueueTilled s w) := by
  unfold State.unqueueTilled
  with_reducible repeat' first
    | assumption | (intro _; try beta_reduce) | apply Bounded.ite_ | apply Bounded.id_
    | simp -zeta only [↓Bounded.mk_iff] | split
    | (extract_lets +onlyGivenNames s_; refine (fun (_ : Bounded s_) => ?_) ?_; swap; subst s_)
    | (extract_lets +onlyGivenNames s_; clear_value s_) | extract_lets +onlyGivenNames s_

end Sys2Proof.Machine
end

