-- ==== Sys2Proof/Laws/BoundedKeyOps.lean ====
section
/-! SUPPORT. Every operation of Machine/KeyOps.lean keeps the bounds. -/

namespace Sys2Proof.Machine

theorem State.startRewrap_bounded {s} (h0 : Bounded s) : Bounded (State.startRewrap s) := by
  unfold State.startRewrap
  with_reducible repeat' first
    | assumption | apply State.count_bounded | simp -zeta only [↓Bounded.mk_iff] | split
    | (extract_lets +onlyGivenNames s_; have _x : Option State := s_; clear _x; subst s_)
    | extract_lets +onlyGivenNames s_

theorem State.writeLedger_bounded {s slot} (h0 : Bounded s) : Bounded (State.writeLedger s slot) := by
  unfold State.writeLedger
  with_reducible repeat' first
    | assumption | apply State.emit_bounded | apply State.startRewrap_bounded | simp -zeta only [↓Bounded.mk_iff]
    | split | (extract_lets +onlyGivenNames s_; have _x : Option State := s_; clear _x; subst s_)
    | extract_lets +onlyGivenNames s_

theorem State.putSlot_bounded {s slot k} (h0 : Bounded s) : Bounded (State.putSlot s slot k) := by
  unfold State.putSlot
  with_reducible repeat' first
    | assumption | apply State.setSlot_bounded | apply State.writeLedger_bounded

theorem State.touchKey_bounded {s slot src} (h0 : Bounded s) : Bounded (State.touchKey s slot src) := by
  unfold State.touchKey
  with_reducible repeat' first
    | assumption | apply State.count_bounded | apply State.freed_bounded | apply State.trace_bounded
    | simp -zeta only [↓Bounded.mk_iff] | split
    | (extract_lets +onlyGivenNames s_; have _x : Option State := s_; clear _x; subst s_)
    | extract_lets +onlyGivenNames s_

theorem State.fillJob_bounded {s j scope auto old new turnAt rows} (h0 : Bounded s) : Bounded (State.fillJob s j scope auto old new turnAt rows) := by
  unfold State.fillJob
  with_reducible repeat' first
    | assumption | apply State.setJob_bounded | simp -zeta only [↓Bounded.mk_iff]
    | (extract_lets +onlyGivenNames s_; refine (fun (_ : Bounded s_) => ?_) ?_; swap; subst s_)

theorem State.autoMeta_bounded {s} (h0 : Bounded s) : Bounded (State.autoMeta s) := by
  unfold State.autoMeta
  with_reducible repeat' first
    | assumption | (intro _; try beta_reduce) | apply Bounded.ite_ | apply State.fillJob_bounded
    | simp -zeta only [↓Bounded.mk_iff] | refine Bounded.ofSome ?_ (by assumption)
    | refine Bounded.ofSomeP ?_ (by assumption) | refine Bounded.ofPair ?_ (by assumption)
    | refine Bounded.ofPair2 ?_ (by assumption) | refine Bounded.ofPair3 ?_ (by assumption) | split
    | (extract_lets +onlyGivenNames s_; refine (fun (_ : Bounded s_) => ?_) ?_; swap; subst s_)
    | (extract_lets +onlyGivenNames s_; clear_value s_) | extract_lets +onlyGivenNames s_

theorem State.chargeMeta_bounded {s} (h0 : Bounded s) : Bounded (State.chargeMeta s) := by
  unfold State.chargeMeta
  with_reducible repeat' first
    | assumption | (intro _; try beta_reduce) | apply Bounded.ite_ | apply State.autoMeta_bounded
    | apply State.count_bounded | simp -zeta only [↓Bounded.mk_iff]
    | refine Bounded.ofSome ?_ (by assumption) | refine Bounded.ofSomeP ?_ (by assumption)
    | refine Bounded.ofPair ?_ (by assumption) | refine Bounded.ofPair2 ?_ (by assumption)
    | refine Bounded.ofPair3 ?_ (by assumption) | apply Bounded.getD_ | split
    | (extract_lets +onlyGivenNames s_; refine (fun (_ : Bounded s_) => ?_) ?_; swap; subst s_)
    | (extract_lets +onlyGivenNames s_; clear_value s_) | extract_lets +onlyGivenNames s_

theorem State.deriveSlot_bounded {s slot kind cell exp m dref} (h0 : Bounded s) : Bounded (State.deriveSlot s slot kind cell exp m dref) := by
  unfold State.deriveSlot
  with_reducible repeat' first
    | assumption | apply State.count_bounded | apply State.putSlot_bounded | simp -zeta only [↓Bounded.mk_iff]

theorem State.obtainSucc_bounded {s slot} (h0 : Bounded s) : Bounded (State.obtainSucc s slot) := by
  unfold State.obtainSucc
  with_reducible repeat' first
    | assumption | apply State.deriveSlot_bounded | apply State.putSlot_bounded | apply State.record_bounded
    | simp -zeta only [↓Bounded.mk_iff] | split
    | (extract_lets +onlyGivenNames s_; have _x : Option State := s_; clear _x; subst s_)
    | extract_lets +onlyGivenNames s_

theorem State.autoStart_bounded {s slot} (h0 : Bounded s) : Bounded (State.autoStart s slot) := by
  unfold State.autoStart
  with_reducible repeat' first
    | assumption | (intro _; try beta_reduce) | apply State.fillJob_bounded | apply hf_
    | simp -zeta only [↓Bounded.mk_iff] | split
    | (extract_lets +onlyGivenNames s_; refine (fun (hf_ : ∀ x, Bounded x → Bounded (s_ x)) => ?_) ?_; swap; subst s_)
    | extract_lets +onlyGivenNames s_

theorem State.trigger75_bounded {s slot} (h0 : Bounded s) : Bounded (State.trigger75 s slot) := by
  unfold State.trigger75
  with_reducible repeat' first
    | assumption | apply State.autoStart_bounded | apply State.obtainSucc_bounded | apply State.record_bounded | split
    | (extract_lets +onlyGivenNames s_; refine (fun (_ : Bounded s_) => ?_) ?_; swap; subst s_)

theorem State.chargeSlot_bounded {s slot n} (h0 : Bounded s) : Bounded (State.chargeSlot s slot n) := by
  unfold State.chargeSlot
  with_reducible repeat' first
    | assumption | apply State.putSlot_bounded | apply State.trigger75_bounded | split
    | extract_lets +onlyGivenNames s_

theorem State.grantCredit_bounded {s lane slot} (h0 : Bounded s) : Bounded (State.grantCredit s lane slot) := by
  unfold State.grantCredit
  with_reducible repeat' first
    | assumption | apply State.chargeSlot_bounded | apply State.count_bounded | apply State.setCredit_bounded
    | apply State.touchKey_bounded | split | extract_lets +onlyGivenNames s_

theorem State.pinCell_bounded {s slot} (h0 : Bounded s) : Bounded (State.pinCell s slot) := by
  unfold State.pinCell
  with_reducible repeat' first
    | assumption | (intro _; try beta_reduce) | apply Bounded.ite_ | apply State.grantCredit_bounded
    | apply State.touchKey_bounded | apply foldl_bounded | simp -zeta only [↓Bounded.mk_iff] | split
    | (extract_lets +onlyGivenNames s_; refine (fun (_ : Bounded s_) => ?_) ?_; swap; subst s_)
    | (extract_lets +onlyGivenNames s_; clear_value s_) | extract_lets +onlyGivenNames s_

theorem State.maintWrites_bounded {s lane slot n} (h0 : Bounded s) : Bounded (State.maintWrites s lane slot n) := by
  unfold State.maintWrites
  with_reducible repeat' first
    | assumption | (intro _; try beta_reduce) | apply Bounded.ite_ | apply State.grantCredit_bounded
    | apply State.takeCredit_bounded | split

theorem State.unpin_bounded {s} (h0 : Bounded s) : Bounded (State.unpin s) := by
  unfold State.unpin
  with_reducible repeat' first
    | assumption | (intro _; try beta_reduce) | apply Bounded.ite_ | simp -zeta only [↓Bounded.mk_iff]
    | split | (extract_lets +onlyGivenNames s_; refine (fun (_ : Bounded s_) => ?_) ?_; swap; subst s_)
    | (extract_lets +onlyGivenNames s_; clear_value s_) | extract_lets +onlyGivenNames s_

theorem State.pin_bounded {s slot} (h0 : Bounded s) : Bounded (State.pin s slot) := by
  unfold State.pin
  with_reducible repeat' first
    | assumption | (intro _; try beta_reduce) | apply Bounded.ite_ | apply State.incFld_bounded
    | apply State.touchKey_bounded | apply State.unpin_bounded | simp -zeta only [↓Bounded.mk_iff] | split
    | (extract_lets +onlyGivenNames s_; refine (fun (_ : Bounded s_) => ?_) ?_; swap; subst s_)
    | (extract_lets +onlyGivenNames s_; clear_value s_) | extract_lets +onlyGivenNames s_

theorem State.topUp_bounded {s t row} (h0 : Bounded s) : Bounded (State.topUp s t row) := by
  unfold State.topUp
  with_reducible repeat' first
    | assumption | (intro _; try beta_reduce) | apply Bounded.ite_ | apply State.grantCredit_bounded
    | apply foldl_bounded | split

end Sys2Proof.Machine
end

