-- ==== Sys2Proof/Laws/BoundedLinkOps.lean ====
section
/-! SUPPORT. Every operation of Machine/LinkOps.lean keeps the bounds. -/

namespace Sys2Proof.Machine

theorem State.setTx_bounded {s f} (h0 : Bounded s) : Bounded (State.setTx s f) := by
  unfold State.setTx
  with_reducible repeat' first
    | assumption | (intro _; try beta_reduce) | apply Bounded.ite_ | apply State.withLinks_bounded
    | simp -zeta only [↓Bounded.mk_iff] | split
    | (extract_lets +onlyGivenNames s_; refine (fun (_ : Bounded s_) => ?_) ?_; swap; subst s_)
    | (extract_lets +onlyGivenNames s_; clear_value s_) | extract_lets +onlyGivenNames s_

theorem State.dropFlowSlot_bounded {s slot} (h0 : Bounded s) : Bounded (State.dropFlowSlot s slot) := by
  unfold State.dropFlowSlot
  with_reducible repeat' first
    | assumption | apply State.putSlot_bounded | split

theorem State.dropTx_bounded {s f} (h0 : Bounded s) : Bounded (State.dropTx s f) := by
  unfold State.dropTx
  with_reducible repeat' first
    | assumption | (intro _; try beta_reduce) | apply Bounded.ite_ | apply State.dropFlowSlot_bounded
    | apply State.withLinks_bounded | simp -zeta only [↓Bounded.mk_iff] | split
    | (extract_lets +onlyGivenNames s_; refine (fun (_ : Bounded s_) => ?_) ?_; swap; subst s_)
    | (extract_lets +onlyGivenNames s_; clear_value s_) | extract_lets +onlyGivenNames s_

theorem State.roomTx_bounded {s} (h0 : Bounded s) : Bounded (State.roomTx s) := by
  unfold State.roomTx
  with_reducible repeat' first
    | assumption | apply State.dropTx_bounded | apply State.trace_bounded | split | extract_lets +onlyGivenNames s_

theorem State.useFlow_bounded {s} (h0 : Bounded s) : Bounded (State.useFlow s) := by
  unfold State.useFlow
  with_reducible repeat' first
    | assumption | apply State.withLinks_bounded

theorem State.flowSlot_bounded {s key} (h0 : Bounded s) : BoundedOptPair (State.flowSlot s key) := by
  unfold State.flowSlot
  with_reducible repeat' first
    | assumption | apply BoundedOptPair.mkSome | exact BoundedOptPair.mkNone | apply State.putSlot_bounded | split

theorem State.openTx_bounded {s lane dest epoch0 carry} (h0 : Bounded s) : BoundedOpt (State.openTx s lane dest epoch0 carry) := by
  unfold State.openTx
  with_reducible repeat' first
    | assumption | (intro _; try beta_reduce) | apply BoundedOpt.ite_ | apply BoundedOpt.mkSome
    | exact BoundedOpt.mkNone | apply Bounded.ite_ | apply State.count_bounded
    | apply State.flowSlot_bounded | apply State.pinCell_bounded | apply State.pin_bounded
    | apply State.roomTx_bounded | apply State.trace_bounded | apply State.useFlow_bounded
    | apply State.withLinks_bounded | simp -zeta only [↓Bounded.mk_iff]
    | refine Bounded.ofSome ?_ (by assumption) | refine Bounded.ofSomeP ?_ (by assumption)
    | refine Bounded.ofPair ?_ (by assumption) | refine Bounded.ofPair2 ?_ (by assumption)
    | refine Bounded.ofPair3 ?_ (by assumption) | split
    | (extract_lets +onlyGivenNames s_; refine (fun (_ : Bounded s_) => ?_) ?_; swap; subst s_)
    | (extract_lets +onlyGivenNames s_; clear_value s_) | extract_lets +onlyGivenNames s_

theorem State.keepPast_bounded {s f} (h0 : Bounded s) : Bounded (State.keepPast s f) := by
  unfold State.keepPast
  with_reducible repeat' first
    | assumption | (intro _; try beta_reduce) | apply Bounded.ite_ | apply State.withLinks_bounded
    | simp -zeta only [↓Bounded.mk_iff] | split
    | (extract_lets +onlyGivenNames s_; refine (fun (_ : Bounded s_) => ?_) ?_; swap; subst s_)
    | (extract_lets +onlyGivenNames s_; clear_value s_) | extract_lets +onlyGivenNames s_

theorem State.needTx_bounded {s lane dest epoch0} (h0 : Bounded s) : BoundedOptPair (State.needTx s lane dest epoch0) := by
  unfold State.needTx
  with_reducible repeat' first
    | assumption | (intro _; try beta_reduce) | apply BoundedOptPair.ite_ | apply BoundedOptPair.mkSome
    | exact BoundedOptPair.mkNone | apply Bounded.ite_ | apply State.dropTx_bounded
    | apply State.keepPast_bounded | apply State.openTx_bounded | apply foldl_bounded
    | refine Bounded.ofSome ?_ (by assumption) | refine Bounded.ofSomeP ?_ (by assumption)
    | refine Bounded.ofPair ?_ (by assumption) | refine Bounded.ofPair2 ?_ (by assumption)
    | refine Bounded.ofPair3 ?_ (by assumption) | apply BoundedOptPair.mapP_ | apply BoundedOptPair.mapV_
    | split | (extract_lets +onlyGivenNames s_; refine (fun (_ : Bounded s_) => ?_) ?_; swap; subst s_)
    | (extract_lets +onlyGivenNames s_; clear_value s_) | extract_lets +onlyGivenNames s_

theorem State.enterMsg_bounded {s lane dest epoch0 m} (h0 : Bounded s) : BoundedOpt (State.enterMsg s lane dest epoch0 m) := by
  unfold State.enterMsg
  with_reducible repeat' first
    | assumption | (intro _; try beta_reduce) | apply State.needTx_bounded | apply State.setTx_bounded
    | apply BoundedOpt.mapP_

theorem State.sendCtl_bounded {s dest epoch0 m} (h0 : Bounded s) : Bounded (State.sendCtl s dest epoch0 m) := by
  unfold State.sendCtl
  with_reducible repeat' first
    | assumption | (intro _; try beta_reduce) | apply Bounded.ite_ | apply State.enterMsg_bounded
    | apply foldl_bounded | apply Bounded.getD_ | split

theorem State.sendDom_bounded {s name dtype dest exch epoch0 body} (h0 : Bounded s) : Bounded (State.sendDom s name dtype dest exch epoch0 body) := by
  unfold State.sendDom
  with_reducible repeat' first
    | assumption | apply State.emit_bounded | apply State.sendCtl_bounded

theorem State.dropRx_bounded {s f} (h0 : Bounded s) : Bounded (State.dropRx s f) := by
  unfold State.dropRx
  with_reducible repeat' first
    | assumption | (intro _; try beta_reduce) | apply Bounded.ite_ | apply State.dropFlowSlot_bounded
    | apply State.withLinks_bounded | simp -zeta only [↓Bounded.mk_iff] | split
    | (extract_lets +onlyGivenNames s_; refine (fun (_ : Bounded s_) => ?_) ?_; swap; subst s_)
    | (extract_lets +onlyGivenNames s_; clear_value s_) | extract_lets +onlyGivenNames s_

theorem State.frspLines_bounded {s r st data} (h0 : Bounded s) : BoundedPair (State.frspLines s r st data) := by
  unfold State.frspLines
  with_reducible repeat' first
    | assumption | (intro _; try beta_reduce) | apply BoundedPair.ite_ | apply BoundedPair.mk_
    | apply Bounded.ite_ | apply State.freeLines_bounded | apply State.freeLines_bounded2 | split
theorem State.frspLines_bounded2 {s r st data} (h0 : Bounded s) : Bounded (State.frspLines s r st data).2 := BoundedPair.of_snd (State.frspLines_bounded h0)

theorem State.frsp_bounded {s intf r st data prov} (h0 : Bounded s) : Bounded (State.frsp s intf r st data prov) := by
  unfold State.frsp
  with_reducible repeat' first
    | assumption | (intro _; try beta_reduce) | apply Bounded.ite_ | apply State.emit_bounded
    | apply State.freeTid_bounded | apply State.frspLines_bounded | apply State.frspLines_bounded2
    | refine Bounded.ofSome ?_ (by assumption) | refine Bounded.ofSomeP ?_ (by assumption)
    | refine Bounded.ofPair ?_ (by assumption) | refine Bounded.ofPair2 ?_ (by assumption)
    | refine Bounded.ofPair3 ?_ (by assumption) | split
    | (extract_lets +onlyGivenNames s_; refine (fun (_ : Bounded s_) => ?_) ?_; swap; subst s_)
    | (extract_lets +onlyGivenNames s_; clear_value s_) | extract_lets +onlyGivenNames s_

theorem State.finishOut_bounded {s o st data} (h0 : Bounded s) : Bounded (State.finishOut s o st data) := by
  unfold State.finishOut
  with_reducible repeat' first
    | assumption | (intro _; try beta_reduce) | apply Bounded.ite_ | apply State.countArrival_bounded
    | apply State.frsp_bounded | apply State.setActr_bounded | apply State.withLinks_bounded
    | simp -zeta only [↓Bounded.mk_iff] | split
    | (extract_lets +onlyGivenNames s_; refine (fun (_ : Bounded s_) => ?_) ?_; swap; subst s_)
    | (extract_lets +onlyGivenNames s_; clear_value s_) | extract_lets +onlyGivenNames s_

theorem State.setRx_bounded {s f} (h0 : Bounded s) : Bounded (State.setRx s f) := by
  unfold State.setRx
  with_reducible repeat' first
    | assumption | (intro _; try beta_reduce) | apply Bounded.ite_ | apply State.withLinks_bounded
    | simp -zeta only [↓Bounded.mk_iff] | split
    | (extract_lets +onlyGivenNames s_; refine (fun (_ : Bounded s_) => ?_) ?_; swap; subst s_)
    | (extract_lets +onlyGivenNames s_; clear_value s_) | extract_lets +onlyGivenNames s_

theorem State.moveTx_bounded {s f waiting} (h0 : Bounded s) : BoundedOpt (State.moveTx s f waiting) := by
  unfold State.moveTx
  with_reducible repeat' first
    | assumption | (intro _; try beta_reduce) | apply BoundedOpt.ite_ | apply BoundedOpt.mkSome
    | exact BoundedOpt.mkNone | apply Bounded.ite_ | apply State.dropTx_bounded
    | apply State.keepPast_bounded | apply State.openTx_bounded | apply BoundedOpt.map_
    | apply BoundedOpt.mapP_ | split

theorem State.placeOut_bounded {s o} (h0 : Bounded s) : Bounded (State.placeOut s o) := by
  unfold State.placeOut
  with_reducible repeat' first
    | assumption | (intro _; try beta_reduce) | apply Bounded.ite_ | apply State.frsp_bounded
    | apply State.incFld_bounded | apply State.needTx_bounded | apply State.setTx_bounded
    | apply State.withLinks_bounded | simp -zeta only [↓Bounded.mk_iff]
    | refine Bounded.ofSome ?_ (by assumption) | refine Bounded.ofSomeP ?_ (by assumption)
    | refine Bounded.ofPair ?_ (by assumption) | refine Bounded.ofPair2 ?_ (by assumption)
    | refine Bounded.ofPair3 ?_ (by assumption) | split
    | (extract_lets +onlyGivenNames s_; refine (fun (_ : Bounded s_) => ?_) ?_; swap; subst s_)
    | (extract_lets +onlyGivenNames s_; clear_value s_) | extract_lets +onlyGivenNames s_

theorem State.fabSend_bounded {s intf r prov} (h0 : Bounded s) : Bounded (State.fabSend s intf r prov) := by
  unfold State.fabSend
  with_reducible repeat' first
    | assumption | apply State.placeOut_bounded | apply State.withLinks_bounded | split

theorem State.fabRefuse_bounded {s intf r x} (h0 : Bounded s) : Bounded (State.fabRefuse s intf r x) := by
  unfold State.fabRefuse
  with_reducible repeat' first
    | assumption | (intro _; try beta_reduce) | apply Bounded.ite_ | apply State.frsp_bounded
    | apply State.incFld_bounded | split
    | (extract_lets +onlyGivenNames s_; refine (fun (_ : Bounded s_) => ?_) ?_; swap; subst s_)
    | (extract_lets +onlyGivenNames s_; clear_value s_) | extract_lets +onlyGivenNames s_

theorem State.retryWaiting_bounded {s} (h0 : Bounded s) : Bounded (State.retryWaiting s) := by
  unfold State.retryWaiting
  with_reducible repeat' first
    | assumption | apply State.placeOut_bounded | apply State.withLinks_bounded | apply foldl_bounded

theorem State.forgetEpoch0_bounded {s src} (h0 : Bounded s) : Bounded (State.forgetEpoch0 s src) := by
  unfold State.forgetEpoch0
  with_reducible repeat' first
    | assumption | (intro _; try beta_reduce) | apply Bounded.ite_ | apply State.withLinks_bounded
    | simp -zeta only [↓Bounded.mk_iff] | split
    | (extract_lets +onlyGivenNames s_; refine (fun (_ : Bounded s_) => ?_) ?_; swap; subst s_)
    | (extract_lets +onlyGivenNames s_; clear_value s_) | extract_lets +onlyGivenNames s_

end Sys2Proof.Machine
end

