-- ==== Sys2Proof/Laws/BoundedDomOps.lean ====
section
/-! SUPPORT. Every operation of Machine/DomOps.lean keeps the bounds. -/

namespace Sys2Proof.Machine

theorem State.sendHello_bounded {s rank} (h0 : Bounded s) : Bounded (State.sendHello s rank) := by
  unfold State.sendHello
  with_reducible repeat' first
    | assumption | (intro _; try beta_reduce) | apply Bounded.ite_ | apply State.drew_bounded
    | apply State.sendDom_bounded | apply State.withDom_bounded | apply Bounded.id_
    | simp -zeta only [↓Bounded.mk_iff] | refine Bounded.ofSome ?_ (by assumption)
    | refine Bounded.ofSomeP ?_ (by assumption) | refine Bounded.ofPair ?_ (by assumption)
    | refine Bounded.ofPair2 ?_ (by assumption) | refine Bounded.ofPair3 ?_ (by assumption) | split
    | (extract_lets +onlyGivenNames s_; refine (fun (_ : Bounded s_) => ?_) ?_; swap; subst s_)
    | (extract_lets +onlyGivenNames s_; clear_value s_) | extract_lets +onlyGivenNames s_

theorem State.startJoin_bounded {s} (h0 : Bounded s) : Bounded (State.startJoin s) := by
  unfold State.startJoin
  with_reducible repeat' first
    | assumption | apply State.sendHello_bounded | apply State.withDom_bounded

theorem State.domEnd_bounded {s code} (h0 : Bounded s) : Bounded (State.domEnd s code) := by
  unfold State.domEnd
  with_reducible repeat' first
    | assumption | apply State.setFld_bounded

theorem State.sendMember_bounded {s name dtype dest body} (h0 : Bounded s) : Bounded (State.sendMember s name dtype dest body) := by
  unfold State.sendMember
  with_reducible repeat' first
    | assumption | apply State.sendDom_bounded

theorem State.detach_bounded {s} (h0 : Bounded s) : Bounded (State.detach s) := by
  unfold State.detach
  with_reducible repeat' first
    | assumption | apply State.dropRx_bounded | apply State.dropTx_bounded | apply State.withDom_bounded
    | apply foldl_bounded

theorem State.liftFallow_bounded {s} (h0 : Bounded s) : Bounded (State.liftFallow s) := by
  unfold State.liftFallow
  with_reducible repeat' first
    | assumption | (intro _; try beta_reduce) | apply State.removeCause_bounded | apply foldl_bounded

theorem State.staleOuts_bounded {s before after} (h0 : Bounded s) : Bounded (State.staleOuts s before after) := by
  unfold State.staleOuts
  with_reducible repeat' first
    | assumption | (intro _; try beta_reduce) | apply Bounded.ite_ | apply State.finishOut_bounded
    | apply foldl_bounded | split
    | (extract_lets +onlyGivenNames s_; refine (fun (_ : Bounded s_) => ?_) ?_; swap; subst s_)
    | (extract_lets +onlyGivenNames s_; clear_value s_) | extract_lets +onlyGivenNames s_

theorem State.commitNext_bounded {s} (h0 : Bounded s) : Bounded (State.commitNext s) := by
  unfold State.commitNext
  with_reducible repeat' first
    | assumption | (intro _; try beta_reduce) | apply Bounded.ite_ | apply State.count_bounded
    | apply State.detach_bounded | apply State.domEnd_bounded | apply State.liftFallow_bounded
    | apply State.staleOuts_bounded | apply State.withDom_bounded | apply State.withLinks_bounded
    | simp -zeta only [↓Bounded.mk_iff] | refine Bounded.ofSome ?_ (by assumption)
    | refine Bounded.ofSomeP ?_ (by assumption) | refine Bounded.ofPair ?_ (by assumption)
    | refine Bounded.ofPair2 ?_ (by assumption) | refine Bounded.ofPair3 ?_ (by assumption) | split
    | (extract_lets +onlyGivenNames s_; refine (fun (_ : Bounded s_) => ?_) ?_; swap; subst s_)
    | (extract_lets +onlyGivenNames s_; clear_value s_) | extract_lets +onlyGivenNames s_

theorem State.unitDown_bounded {s u} (h0 : Bounded s) : Bounded (State.unitDown s u) := by
  unfold State.unitDown
  with_reducible repeat' first
    | assumption | apply State.withDom_bounded | apply State.withLinks_bounded | split
    | (extract_lets +onlyGivenNames s_; have _x : Option State := s_; clear _x; subst s_)
    | extract_lets +onlyGivenNames s_

theorem State.enterFallow_bounded {s} (h0 : Bounded s) : Bounded (State.enterFallow s) := by
  unfold State.enterFallow
  with_reducible repeat' first
    | assumption | (intro _; try beta_reduce) | apply State.addCause_bounded | apply State.record_bounded
    | apply State.withDom_bounded | apply foldl_bounded

end Sys2Proof.Machine
end

