-- ==== Sys2Proof/Laws/BoundedBist.lean ====
section
/-! SUPPORT. Every operation of Machine/Bist.lean keeps the bounds. -/

namespace Sys2Proof.Machine

theorem State.bistFailed_bounded {s src inst stage} (h0 : Bounded s) : Bounded (State.bistFailed s src inst stage) := by
  unfold State.bistFailed
  with_reducible repeat' first
    | assumption | apply State.record_bounded | split

theorem State.endLane_bounded {s n} (h0 : Bounded s) : Bounded (State.endLane s n) := by
  unfold State.endLane
  with_reducible repeat' first
    | assumption | apply State.record_bounded | apply State.setFld_bounded | apply State.setLane_bounded | split
    | (extract_lets +onlyGivenNames s_; have _x : Option State := s_; clear _x; subst s_)
    | extract_lets +onlyGivenNames s_

theorem State.endPort_bounded {s n} (h0 : Bounded s) : Bounded (State.endPort s n) := by
  unfold State.endPort
  with_reducible repeat' first
    | assumption | apply State.record_bounded | apply State.setFld_bounded | apply State.setPort_bounded | split
    | (extract_lets +onlyGivenNames s_; have _x : Option State := s_; clear _x; subst s_)
    | extract_lets +onlyGivenNames s_

theorem State.laneOut_bounded {s n} (h0 : Bounded s) : Bounded (State.laneOut s n) := by
  unfold State.laneOut
  with_reducible repeat' first
    | assumption | (intro _; try beta_reduce) | apply State.refuse_bounded | apply State.setLane_bounded
    | apply State.withMem_bounded | apply foldl_bounded

theorem State.portOut_bounded {s n} (h0 : Bounded s) : Bounded (State.portOut s n) := by
  unfold State.portOut
  with_reducible repeat' first
    | assumption | (intro _; try beta_reduce) | apply Bounded.ite_ | apply State.sendMember_bounded
    | apply State.setPort_bounded | apply State.withLinks_bounded | apply foldl_bounded
    | simp -zeta only [↓Bounded.mk_iff] | split
    | (extract_lets +onlyGivenNames s_; refine (fun (_ : Bounded s_) => ?_) ?_; swap; subst s_)
    | (extract_lets +onlyGivenNames s_; clear_value s_) | extract_lets +onlyGivenNames s_

theorem State.redispatch_bounded {s c} (h0 : Bounded s) : Bounded (State.redispatch s c) := by
  unfold State.redispatch
  with_reducible repeat' first
    | assumption | apply State.withStv_bounded

theorem State.setCore_bounded {s c v2_} (h0 : Bounded s) : Bounded (State.setCore s c v2_) := by
  unfold State.setCore
  with_reducible repeat' first
    | assumption | apply State.withStv_bounded

theorem State.setUnit_bounded {s type i u} (h0 : Bounded s) : Bounded (State.setUnit s type i u) := by
  unfold State.setUnit
  with_reducible repeat' first
    | assumption | simp -zeta only [↓Bounded.mk_iff] | split
    | (extract_lets +onlyGivenNames s_; have _x : Option State := s_; clear _x; subst s_)
    | extract_lets +onlyGivenNames s_

theorem State.switched_bounded {s src inst spare why} (h0 : Bounded s) : Bounded (State.switched s src inst spare why) := by
  unfold State.switched
  with_reducible repeat' first
    | assumption | apply State.record_bounded | apply State.trace_bounded

theorem State.steerCore_bounded {s c sp why} (h0 : Bounded s) : Bounded (State.steerCore s c sp why) := by
  unfold State.steerCore
  with_reducible repeat' first
    | assumption | (intro _; try beta_reduce) | apply Bounded.ite_ | apply State.redispatch_bounded
    | apply State.setCore_bounded | apply State.setFld_bounded | apply State.switched_bounded
    | simp -zeta only [↓Bounded.mk_iff] | split
    | (extract_lets +onlyGivenNames s_; refine (fun (_ : Bounded s_) => ?_) ?_; swap; subst s_)
    | (extract_lets +onlyGivenNames s_; clear_value s_) | extract_lets +onlyGivenNames s_

theorem State.steerLane_bounded {s n sp why} (h0 : Bounded s) : Bounded (State.steerLane s n sp why) := by
  unfold State.steerLane
  with_reducible repeat' first
    | assumption | (intro _; try beta_reduce) | apply Bounded.ite_ | apply State.endLane_bounded
    | apply State.setLane_bounded | apply State.switched_bounded | apply State.withMem_bounded
    | simp -zeta only [↓Bounded.mk_iff] | split
    | (extract_lets +onlyGivenNames s_; refine (fun (_ : Bounded s_) => ?_) ?_; swap; subst s_)
    | (extract_lets +onlyGivenNames s_; clear_value s_) | extract_lets +onlyGivenNames s_

theorem State.steerPort_bounded {s n sp why} (h0 : Bounded s) : Bounded (State.steerPort s n sp why) := by
  unfold State.steerPort
  with_reducible repeat' first
    | assumption | apply State.endPort_bounded | apply State.setPort_bounded | apply State.switched_bounded
    | apply State.withLinks_bounded

theorem State.steerUnit_bounded {s type i sp why} (h0 : Bounded s) : Bounded (State.steerUnit s type i sp why) := by
  unfold State.steerUnit
  with_reducible repeat' first
    | assumption | apply State.setUnit_bounded | apply State.switched_bounded

theorem State.faultUnit_bounded {s type i sp out} (h0 : Bounded s) : Bounded (State.faultUnit s type i sp out) := by
  unfold State.faultUnit
  with_reducible repeat' first
    | assumption | (intro _; try beta_reduce) | apply Bounded.ite_ | apply State.bistFailed_bounded
    | apply State.setUnit_bounded | apply State.steerUnit_bounded | simp -zeta only [↓Bounded.mk_iff]
    | split | (extract_lets +onlyGivenNames s_; refine (fun (_ : Bounded s_) => ?_) ?_; swap; subst s_)
    | (extract_lets +onlyGivenNames s_; clear_value s_) | extract_lets +onlyGivenNames s_

theorem execKeyRowCheckFail_bounded {row spare s} (h2 : Bounded s) : BoundedRes (execKeyRowCheckFail row spare s) := by
  unfold execKeyRowCheckFail
  with_reducible repeat' first
    | assumption | (intro _; try beta_reduce) | apply BoundedRes.ite_ | apply BoundedRes.mkNext
    | exact BoundedRes.mkFault | apply Bounded.ite_ | apply State.faultUnit_bounded | split

theorem execLaneBistStart_bounded {port n out s} (h3 : Bounded s) : BoundedRes (execLaneBistStart port n out s) := by
  unfold execLaneBistStart
  with_reducible repeat' first
    | assumption | (intro _; try beta_reduce) | apply BoundedRes.mkNext | apply State.bistFailed_bounded
    | apply State.ownerCmd_bounded | apply State.setFld_bounded | apply State.setLane_bounded | split
    | extract_lets +onlyGivenNames s_

theorem execLaneReturn_bounded {port n s} (h2 : Bounded s) : BoundedRes (execLaneReturn port n s) := by
  unfold execLaneReturn
  with_reducible repeat' first
    | assumption | (intro _; try beta_reduce) | apply BoundedRes.mkNext | apply State.ownerCmd_bounded
    | apply State.setFld_bounded | apply State.setLane_bounded | split | extract_lets +onlyGivenNames s_

theorem execLaneSwap_bounded {port n spare out s} (h4 : Bounded s) : BoundedRes (execLaneSwap port n spare out s) := by
  unfold execLaneSwap
  with_reducible repeat' first
    | assumption | (intro _; try beta_reduce) | apply BoundedRes.ite_ | apply BoundedRes.mkNext
    | exact BoundedRes.mkFault | apply Bounded.ite_ | apply State.bistFailed_bounded
    | apply State.ownerCmd_bounded | apply State.setFld_bounded | apply State.setLane_bounded
    | apply State.stage_bounded | apply Bounded.id_ | simp -zeta only [↓Bounded.mk_iff]
    | refine Bounded.ofSome ?_ (by assumption) | refine Bounded.ofSomeP ?_ (by assumption)
    | refine Bounded.ofPair ?_ (by assumption) | refine Bounded.ofPair2 ?_ (by assumption)
    | refine Bounded.ofPair3 ?_ (by assumption) | split
    | (extract_lets +onlyGivenNames s_; refine (fun (_ : Bounded s_) => ?_) ?_; swap; subst s_)
    | (extract_lets +onlyGivenNames s_; clear_value s_) | extract_lets +onlyGivenNames s_

theorem execPortBistStart_bounded {port n out s} (h3 : Bounded s) : BoundedRes (execPortBistStart port n out s) := by
  unfold execPortBistStart
  with_reducible repeat' first
    | assumption | (intro _; try beta_reduce) | apply BoundedRes.mkNext | apply State.bistFailed_bounded
    | apply State.ownerCmd_bounded | apply State.setFld_bounded | apply State.setPort_bounded | split
    | extract_lets +onlyGivenNames s_

theorem execPortReturn_bounded {port n s} (h2 : Bounded s) : BoundedRes (execPortReturn port n s) := by
  unfold execPortReturn
  with_reducible repeat' first
    | assumption | (intro _; try beta_reduce) | apply BoundedRes.mkNext | apply State.ownerCmd_bounded
    | apply State.setFld_bounded | apply State.setPort_bounded | split | extract_lets +onlyGivenNames s_

theorem execPortSwap_bounded {port n spare out s} (h4 : Bounded s) : BoundedRes (execPortSwap port n spare out s) := by
  unfold execPortSwap
  with_reducible repeat' first
    | assumption | (intro _; try beta_reduce) | apply BoundedRes.ite_ | apply BoundedRes.mkNext
    | exact BoundedRes.mkFault | apply Bounded.ite_ | apply State.bistFailed_bounded
    | apply State.ownerCmd_bounded | apply State.setFld_bounded | apply State.setPort_bounded
    | apply State.stage_bounded | apply Bounded.id_ | simp -zeta only [↓Bounded.mk_iff]
    | refine Bounded.ofSome ?_ (by assumption) | refine Bounded.ofSomeP ?_ (by assumption)
    | refine Bounded.ofPair ?_ (by assumption) | refine Bounded.ofPair2 ?_ (by assumption)
    | refine Bounded.ofPair3 ?_ (by assumption) | split
    | (extract_lets +onlyGivenNames s_; refine (fun (_ : Bounded s_) => ?_) ?_; swap; subst s_)
    | (extract_lets +onlyGivenNames s_; clear_value s_) | extract_lets +onlyGivenNames s_

theorem execStvBistReturn_bounded {port core s} (h2 : Bounded s) : BoundedRes (execStvBistReturn port core s) := by
  unfold execStvBistReturn
  with_reducible repeat' first
    | assumption | (intro _; try beta_reduce) | apply BoundedRes.mkNext | apply State.ownerCmd_bounded
    | apply State.setCore_bounded | apply State.setFld_bounded | split
    | (extract_lets +onlyGivenNames s_; have _x : Option State := s_; clear _x; subst s_)
    | extract_lets +onlyGivenNames s_

theorem execStvBistStart_bounded {port core out s} (h3 : Bounded s) : BoundedRes (execStvBistStart port core out s) := by
  unfold execStvBistStart
  with_reducible repeat' first
    | assumption | (intro _; try beta_reduce) | apply BoundedRes.mkNext | apply State.bistFailed_bounded
    | apply State.ownerCmd_bounded | apply State.setCore_bounded | apply State.setFld_bounded | split
    | (extract_lets +onlyGivenNames s_; have _x : Option State := s_; clear _x; subst s_)
    | extract_lets +onlyGivenNames s_

theorem execStvBistSwap_bounded {port core spare out s} (h4 : Bounded s) : BoundedRes (execStvBistSwap port core spare out s) := by
  unfold execStvBistSwap
  with_reducible repeat' first
    | assumption | (intro _; try beta_reduce) | apply BoundedRes.ite_ | apply BoundedRes.mkNext
    | exact BoundedRes.mkFault | apply Bounded.ite_ | apply State.bistFailed_bounded
    | apply State.ownerCmd_bounded | apply State.setCore_bounded | apply State.setFld_bounded
    | apply State.stage_bounded | simp -zeta only [↓Bounded.mk_iff]
    | refine Bounded.ofSome ?_ (by assumption) | refine Bounded.ofSomeP ?_ (by assumption)
    | refine Bounded.ofPair ?_ (by assumption) | refine Bounded.ofPair2 ?_ (by assumption)
    | refine Bounded.ofPair3 ?_ (by assumption) | split
    | (extract_lets +onlyGivenNames s_; refine (fun (_ : Bounded s_) => ?_) ?_; swap; subst s_)
    | (extract_lets +onlyGivenNames s_; clear_value s_) | extract_lets +onlyGivenNames s_

theorem State.switchLane_bounded {s n out} (h0 : Bounded s) : Bounded (State.switchLane s n out) := by
  unfold State.switchLane
  with_reducible repeat' first
    | assumption | (intro _; try beta_reduce) | apply Bounded.ite_ | apply State.bistFailed_bounded
    | apply State.endLane_bounded | apply State.setLane_bounded | apply State.steerLane_bounded
    | simp -zeta only [↓Bounded.mk_iff] | refine Bounded.ofSome ?_ (by assumption)
    | refine Bounded.ofSomeP ?_ (by assumption) | refine Bounded.ofPair ?_ (by assumption)
    | refine Bounded.ofPair2 ?_ (by assumption) | refine Bounded.ofPair3 ?_ (by assumption) | split
    | (extract_lets +onlyGivenNames s_; refine (fun (_ : Bounded s_) => ?_) ?_; swap; subst s_)
    | (extract_lets +onlyGivenNames s_; clear_value s_) | extract_lets +onlyGivenNames s_

theorem State.switchPort_bounded {s n out} (h0 : Bounded s) : Bounded (State.switchPort s n out) := by
  unfold State.switchPort
  with_reducible repeat' first
    | assumption | (intro _; try beta_reduce) | apply Bounded.ite_ | apply State.bistFailed_bounded
    | apply State.endPort_bounded | apply State.setPort_bounded | apply State.steerPort_bounded
    | simp -zeta only [↓Bounded.mk_iff] | refine Bounded.ofSome ?_ (by assumption)
    | refine Bounded.ofSomeP ?_ (by assumption) | refine Bounded.ofPair ?_ (by assumption)
    | refine Bounded.ofPair2 ?_ (by assumption) | refine Bounded.ofPair3 ?_ (by assumption) | split
    | (extract_lets +onlyGivenNames s_; refine (fun (_ : Bounded s_) => ?_) ?_; swap; subst s_)
    | (extract_lets +onlyGivenNames s_; clear_value s_) | extract_lets +onlyGivenNames s_

theorem State.switchCore_bounded {s c out} (h0 : Bounded s) : Bounded (State.switchCore s c out) := by
  unfold State.switchCore
  with_reducible repeat' first
    | assumption | (intro _; try beta_reduce) | apply Bounded.ite_ | apply State.bistFailed_bounded
    | apply State.setCore_bounded | apply State.steerCore_bounded | simp -zeta only [↓Bounded.mk_iff]
    | refine Bounded.ofSome ?_ (by assumption) | refine Bounded.ofSomeP ?_ (by assumption)
    | refine Bounded.ofPair ?_ (by assumption) | refine Bounded.ofPair2 ?_ (by assumption)
    | refine Bounded.ofPair3 ?_ (by assumption) | split
    | (extract_lets +onlyGivenNames s_; refine (fun (_ : Bounded s_) => ?_) ?_; swap; subst s_)
    | (extract_lets +onlyGivenNames s_; clear_value s_) | extract_lets +onlyGivenNames s_

theorem execSwitchover_bounded {unit n s} (h2 : Bounded s) : BoundedRes (execSwitchover unit n s) := by
  unfold execSwitchover
  with_reducible repeat' first
    | assumption | (intro _; try beta_reduce) | apply BoundedRes.ite_ | apply BoundedRes.mkNext
    | exact BoundedRes.mkFault | apply Bounded.ite_ | apply State.faultUnit_bounded
    | apply State.switchCore_bounded | apply State.switchLane_bounded | apply State.switchPort_bounded
    | refine Bounded.ofSome ?_ (by assumption) | refine Bounded.ofSomeP ?_ (by assumption)
    | refine Bounded.ofPair ?_ (by assumption) | refine Bounded.ofPair2 ?_ (by assumption)
    | refine Bounded.ofPair3 ?_ (by assumption) | split
    | (extract_lets +onlyGivenNames s_; refine (fun (_ : Bounded s_) => ?_) ?_; swap; subst s_)
    | (extract_lets +onlyGivenNames s_; clear_value s_) | extract_lets +onlyGivenNames s_

theorem execUnitBistStart_bounded {port type index out s} (h4 : Bounded s) : BoundedRes (execUnitBistStart port type index out s) := by
  unfold execUnitBistStart
  with_reducible repeat' first
    | assumption | (intro _; try beta_reduce) | apply BoundedRes.mkNext | apply State.bistFailed_bounded
    | apply State.ownerCmd_bounded | apply State.setFld_bounded | apply State.setUnit_bounded | split
    | (extract_lets +onlyGivenNames s_; have _x : Option State := s_; clear _x; subst s_)
    | extract_lets +onlyGivenNames s_

theorem execUnitOutOfService_bounded {type index s} (h2 : Bounded s) : BoundedRes (execUnitOutOfService type index s) := by
  unfold execUnitOutOfService
  with_reducible repeat' first
    | assumption | (intro _; try beta_reduce) | apply BoundedRes.ite_ | apply BoundedRes.mkNext
    | exact BoundedRes.mkFault | apply Bounded.ite_ | apply State.laneOut_bounded
    | apply State.portOut_bounded | apply State.record_bounded | apply State.redispatch_bounded
    | apply State.setCore_bounded | apply State.setUnit_bounded | simp -zeta only [↓Bounded.mk_iff]
    | refine Bounded.ofSome ?_ (by assumption) | refine Bounded.ofSomeP ?_ (by assumption)
    | refine Bounded.ofPair ?_ (by assumption) | refine Bounded.ofPair2 ?_ (by assumption)
    | refine Bounded.ofPair3 ?_ (by assumption) | split
    | (extract_lets +onlyGivenNames s_; refine (fun (_ : Bounded s_) => ?_) ?_; swap; subst s_)
    | (extract_lets +onlyGivenNames s_; clear_value s_) | extract_lets +onlyGivenNames s_

theorem execUnitReturn_bounded {port type index s} (h3 : Bounded s) : BoundedRes (execUnitReturn port type index s) := by
  unfold execUnitReturn
  with_reducible repeat' first
    | assumption | (intro _; try beta_reduce) | apply BoundedRes.mkNext | apply State.ownerCmd_bounded
    | apply State.setFld_bounded | apply State.setUnit_bounded | split
    | (extract_lets +onlyGivenNames s_; have _x : Option State := s_; clear _x; subst s_)
    | extract_lets +onlyGivenNames s_

theorem execUnitSwap_bounded {port type index spare out s} (h5 : Bounded s) : BoundedRes (execUnitSwap port type index spare out s) := by
  unfold execUnitSwap
  with_reducible repeat' first
    | assumption | (intro _; try beta_reduce) | apply BoundedRes.mkNext | apply State.bistFailed_bounded
    | apply State.ownerCmd_bounded | apply State.setFld_bounded | apply State.setUnit_bounded
    | apply State.steerUnit_bounded | split
    | (extract_lets +onlyGivenNames s_; have _x : Option State := s_; clear _x; subst s_)

end Sys2Proof.Machine
end

