-- ==== Sys2Proof/Laws/BoundedOwn.lean ====
section
/-! SUPPORT. Every operation of Machine/Own.lean keeps the bounds. -/

namespace Sys2Proof.Machine

theorem State.newNonce_bounded {s} (h0 : Bounded s) : Bounded (State.newNonce s) := by
  unfold State.newNonce
  with_reducible repeat' first
    | assumption | apply State.drew_bounded | apply State.wr_bounded

theorem execOwnClaimPost_bounded {port s} (h1 : Bounded s) : BoundedRes (execOwnClaimPost port s) := by
  unfold execOwnClaimPost
  with_reducible repeat' first
    | assumption | apply BoundedRes.mkNext | apply State.regBad_bounded | apply State.regRsp_bounded
    | apply State.setFld_bounded | simp -zeta only [↓Bounded.mk_iff] | split

theorem State.handoverEnd_bounded {s code} (h0 : Bounded s) : Bounded (State.handoverEnd s code) := by
  unfold State.handoverEnd
  with_reducible repeat' first
    | assumption | apply State.setFld_bounded | simp -zeta only [↓Bounded.mk_iff]
    | (extract_lets +onlyGivenNames s_; refine (fun (_ : Bounded s_) => ?_) ?_; swap; subst s_)

theorem State.moveOwner_bounded {s port epoch delegated} (h0 : Bounded s) : Bounded (State.moveOwner s port epoch delegated) := by
  unfold State.moveOwner
  with_reducible repeat' first
    | assumption | apply State.handoverEnd_bounded | apply State.record_bounded | apply State.setFld_bounded
    | apply State.trace_bounded

theorem execHandoverGo_bounded {port succ s} (h2 : Bounded s) : BoundedRes (execHandoverGo port succ s) := by
  unfold execHandoverGo
  with_reducible repeat' first
    | assumption | (intro _; try beta_reduce) | apply BoundedRes.mkNext | apply State.moveOwner_bounded
    | apply State.ownerCmd_bounded | apply State.setFld_bounded | simp -zeta only [↓Bounded.mk_iff] | split
    | (extract_lets +onlyGivenNames s_; have _x : Option State := s_; clear _x; subst s_)

theorem execHandoverCancel_bounded {port s} (h1 : Bounded s) : BoundedRes (execHandoverCancel port s) := by
  unfold execHandoverCancel
  with_reducible repeat' first
    | assumption | (intro _; try beta_reduce) | apply BoundedRes.mkNext | apply State.handoverEnd_bounded
    | apply State.ownerCmd_bounded | split

theorem State.claimEnd_bounded {s port code} (h0 : Bounded s) : Bounded (State.claimEnd s port code) := by
  unfold State.claimEnd
  with_reducible repeat' first
    | assumption | apply State.setFld_bounded

theorem execCohortDecision_bounded {s} (h0 : Bounded s) : BoundedRes (execCohortDecision s) := by
  unfold execCohortDecision
  with_reducible repeat' first
    | assumption | (intro _; try beta_reduce) | apply BoundedRes.ite_ | apply BoundedRes.mkNext
    | exact BoundedRes.mkFault | apply Bounded.ite_ | apply State.claimEnd_bounded
    | apply State.incFld_bounded | apply State.moveOwner_bounded | apply State.newNonce_bounded
    | apply State.pkuOwn_bounded | apply foldl_bounded | simp -zeta only [↓Bounded.mk_iff]
    | refine Bounded.ofSome ?_ (by assumption) | refine Bounded.ofSomeP ?_ (by assumption)
    | refine Bounded.ofPair ?_ (by assumption) | refine Bounded.ofPair2 ?_ (by assumption)
    | refine Bounded.ofPair3 ?_ (by assumption) | split
    | (extract_lets +onlyGivenNames s_; refine (fun (_ : Bounded s_) => ?_) ?_; swap; subst s_)
    | (extract_lets +onlyGivenNames s_; clear_value s_) | extract_lets +onlyGivenNames s_

theorem execHandoverLapse_bounded {s} (h0 : Bounded s) : BoundedRes (execHandoverLapse s) := by
  unfold execHandoverLapse
  with_reducible repeat' first
    | assumption | apply BoundedRes.mkNext | apply State.handoverEnd_bounded | apply State.incFld_bounded | split

theorem State.programRow_bounded {s w v rowOk spareOk} (h0 : Bounded s) : BoundedPair (State.programRow s w v rowOk spareOk) := by
  unfold State.programRow
  with_reducible repeat' first
    | assumption | (intro _; try beta_reduce) | apply BoundedPair.ite_ | apply BoundedPair.mk_
    | apply Bounded.ite_ | apply State.freed_bounded | apply State.incFld_bounded
    | apply State.otpPut_bounded | simp -zeta only [↓Bounded.mk_iff]
    | refine Bounded.ofSome ?_ (by assumption) | refine Bounded.ofSomeP ?_ (by assumption)
    | refine Bounded.ofPair ?_ (by assumption) | refine Bounded.ofPair2 ?_ (by assumption)
    | refine Bounded.ofPair3 ?_ (by assumption) | apply Bounded.getD_ | split
    | (extract_lets +onlyGivenNames s_; refine (fun (_ : Bounded s_) => ?_) ?_; swap; subst s_)
    | (extract_lets +onlyGivenNames s_; clear_value s_) | extract_lets +onlyGivenNames s_
theorem State.programRow_bounded2 {s w v rowOk spareOk} (h0 : Bounded s) : Bounded (State.programRow s w v rowOk spareOk).2 := BoundedPair.of_snd (State.programRow_bounded h0)

theorem State.programRows_bounded2 {s l} (h0 : Bounded s) : Bounded (State.programRows s l).2 := by
  induction l generalizing s with
  | nil => exact h0
  | cons w t ih =>
  unfold State.programRows
  with_reducible
    extract_lets out
    split
    rename_i code u e
    have h : Bounded u := Bounded.ofPair (State.programRow_bounded (State.freed_bounded h0)) e
    split
    · exact h
    · exact ih h
theorem State.programRows_bounded {s l} (h0 : Bounded s) : BoundedPair (State.programRows s l) := State.programRows_bounded2 h0

end Sys2Proof.Machine
end

