-- ==== Sys2Proof/Laws/BoundedHarrowOps.lean ====
section
/-! SUPPORT. Every operation of Machine/HarrowOps.lean keeps the bounds. -/

namespace Sys2Proof.Machine

theorem State.putJob_bounded {s n j} (h0 : Bounded s) : Bounded (State.putJob s n j) := by
  unfold State.putJob
  with_reducible repeat' first
    | assumption | apply State.setJob_bounded | apply State.trace_bounded | split

theorem State.normJob_bounded {s n a2} (h0 : Bounded s) : Bounded (State.normJob s n a2) := by
  induction a2 generalizing s with
  | zero => exact h0
  | succ fuel ih =>
  unfold State.normJob
  with_reducible repeat' first
    | assumption | apply ih | apply State.putJob_bounded | apply State.record_bounded | apply State.setJob_bounded
    | split | extract_lets +onlyGivenNames s_

theorem State.settleJob_bounded {s n} (h0 : Bounded s) : Bounded (State.settleJob s n) := by
  unfold State.settleJob
  with_reducible repeat' first
    | assumption | apply State.normJob_bounded

theorem State.refetch_bounded {s} (h0 : Bounded s) : Bounded (State.refetch s) := by
  unfold State.refetch
  with_reducible repeat' first
    | assumption | (intro _; try beta_reduce) | apply Bounded.ite_ | apply State.fetchMeta_bounded
    | apply foldl_bounded | split
    | (extract_lets +onlyGivenNames s_; refine (fun (_ : Bounded s_) => ?_) ?_; swap; subst s_)
    | (extract_lets +onlyGivenNames s_; clear_value s_) | extract_lets +onlyGivenNames s_

theorem State.openWrites_bounded {s abs} (h0 : Bounded s) : Bounded (State.openWrites s abs) := by
  unfold State.openWrites
  with_reducible repeat' first
    | assumption | (intro _; try beta_reduce) | apply Bounded.ite_ | apply State.performWrite_bounded
    | apply State.topUp_bounded | apply State.withMem_bounded | apply foldl_bounded
    | simp -zeta only [↓Bounded.mk_iff] | split
    | (extract_lets +onlyGivenNames s_; refine (fun (_ : Bounded s_) => ?_) ?_; swap; subst s_)
    | (extract_lets +onlyGivenNames s_; clear_value s_) | extract_lets +onlyGivenNames s_

theorem State.openPage_bounded {s n abs} (h0 : Bounded s) : Bounded (State.openPage s n abs) := by
  unfold State.openPage
  with_reducible repeat' first
    | assumption | (intro _; try beta_reduce) | apply Bounded.ite_ | apply State.count_bounded
    | apply State.cycles_bounded | apply State.cycles_bounded2 | apply State.openWrites_bounded
    | apply State.refetch_bounded | apply State.trace_bounded | apply State.withMem_bounded
    | simp -zeta only [↓Bounded.mk_iff] | refine Bounded.ofSome ?_ (by assumption)
    | refine Bounded.ofSomeP ?_ (by assumption) | refine Bounded.ofPair ?_ (by assumption)
    | refine Bounded.ofPair2 ?_ (by assumption) | refine Bounded.ofPair3 ?_ (by assumption) | split
    | (extract_lets +onlyGivenNames s_; refine (fun (_ : Bounded s_) => ?_) ?_; swap; subst s_)
    | (extract_lets +onlyGivenNames s_; clear_value s_) | extract_lets +onlyGivenNames s_

theorem State.openRegion_bounded {s n row} (h0 : Bounded s) : Bounded (State.openRegion s n row) := by
  unfold State.openRegion
  with_reducible repeat' first
    | assumption | (intro _; try beta_reduce) | apply Bounded.ite_ | apply State.count_bounded
    | apply State.openPage_bounded | apply foldl_bounded | split
    | (extract_lets +onlyGivenNames s_; refine (fun (_ : Bounded s_) => ?_) ?_; swap; subst s_)
    | (extract_lets +onlyGivenNames s_; clear_value s_) | extract_lets +onlyGivenNames s_

theorem State.dropFromJob_bounded {s row} (h0 : Bounded s) : Bounded (State.dropFromJob s row) := by
  unfold State.dropFromJob
  with_reducible repeat' first
    | assumption | (intro _; try beta_reduce) | apply Bounded.ite_ | apply State.openRegion_bounded
    | apply State.putJob_bounded | apply State.setJob_bounded | apply State.settleJob_bounded
    | refine Bounded.ofSome ?_ (by assumption) | refine Bounded.ofSomeP ?_ (by assumption)
    | refine Bounded.ofPair ?_ (by assumption) | refine Bounded.ofPair2 ?_ (by assumption)
    | refine Bounded.ofPair3 ?_ (by assumption) | split
    | (extract_lets +onlyGivenNames s_; refine (fun (_ : Bounded s_) => ?_) ?_; swap; subst s_)
    | (extract_lets +onlyGivenNames s_; clear_value s_) | extract_lets +onlyGivenNames s_

theorem State.joinJob_bounded {s row} (h0 : Bounded s) : Bounded (State.joinJob s row) := by
  unfold State.joinJob
  with_reducible repeat' first
    | assumption | (intro _; try beta_reduce) | apply Bounded.ite_ | apply State.setJob_bounded
    | apply State.setRow_bounded | simp -zeta only [↓Bounded.mk_iff]
    | simp -zeta only [↓Bounded.mk_iffO, ↓Bounded.mk_iffF] | refine Bounded.ofSome ?_ (by assumption)
    | refine Bounded.ofSomeP ?_ (by assumption) | refine Bounded.ofPair ?_ (by assumption)
    | refine Bounded.ofPair2 ?_ (by assumption) | refine Bounded.ofPair3 ?_ (by assumption) | split
    | (extract_lets +onlyGivenNames s_; refine (fun (_ : Bounded s_) => ?_) ?_; swap; subst s_)
    | (extract_lets +onlyGivenNames s_; clear_value s_) | extract_lets +onlyGivenNames s_

theorem State.advanceHead_bounded {s n} (h0 : Bounded s) : Bounded (State.advanceHead s n) := by
  unfold State.advanceHead
  with_reducible repeat' first
    | assumption | apply State.setJob_bounded | apply State.settleJob_bounded

theorem State.pageDone_bounded {s n q} (h0 : Bounded s) : Bounded (State.pageDone s n q) := by
  unfold State.pageDone
  with_reducible repeat' first
    | assumption | (intro _; try beta_reduce) | apply Bounded.ite_ | apply State.advanceHead_bounded
    | apply State.setJob_bounded | simp -zeta only [↓Bounded.mk_iff] | split
    | (extract_lets +onlyGivenNames s_; refine (fun (_ : Bounded s_) => ?_) ?_; swap; subst s_)
    | (extract_lets +onlyGivenNames s_; clear_value s_) | extract_lets +onlyGivenNames s_

end Sys2Proof.Machine
end

