-- ==== Sys2Proof/Laws/BoundedIdentOps.lean ====
section
/-! SUPPORT. Every operation of Machine/IdentOps.lean keeps the bounds. -/

namespace Sys2Proof.Machine

theorem State.signEcdsa_bounded {s msg} (h0 : Bounded s) : BoundedPair (State.signEcdsa s msg) := by
  unfold State.signEcdsa
  with_reducible repeat' first
    | assumption | (intro _; try beta_reduce) | apply BoundedPair.ite_ | apply BoundedPair.mk_
    | apply Bounded.ite_ | apply State.drew_bounded | apply State.pkuOwn_bounded
    | apply State.reseed_bounded | split
    | (extract_lets +onlyGivenNames s_; refine (fun (_ : Bounded s_) => ?_) ?_; swap; subst s_)
    | (extract_lets +onlyGivenNames s_; clear_value s_) | extract_lets +onlyGivenNames s_
theorem State.signEcdsa_bounded2 {s msg} (h0 : Bounded s) : Bounded (State.signEcdsa s msg).2 := BoundedPair.of_snd (State.signEcdsa_bounded h0)

theorem State.signBoth_bounded {s msg ctx} (h0 : Bounded s) : BoundedPair (State.signBoth s msg ctx) := by
  unfold State.signBoth
  with_reducible repeat' first
    | assumption | (intro _; try beta_reduce) | apply BoundedPair.ite_ | apply BoundedPair.mk_
    | apply Bounded.ite_ | apply State.drew_bounded | apply State.pkuOwn_bounded
    | apply State.reseed_bounded | apply State.signEcdsa_bounded | apply State.signEcdsa_bounded2
    | refine Bounded.ofSome ?_ (by assumption) | refine Bounded.ofSomeP ?_ (by assumption)
    | refine Bounded.ofPair ?_ (by assumption) | refine Bounded.ofPair2 ?_ (by assumption)
    | refine Bounded.ofPair3 ?_ (by assumption) | split
    | (extract_lets +onlyGivenNames s_; refine (fun (_ : Bounded s_) => ?_) ?_; swap; subst s_)
    | (extract_lets +onlyGivenNames s_; clear_value s_) | extract_lets +onlyGivenNames s_
theorem State.signBoth_bounded2 {s msg ctx} (h0 : Bounded s) : Bounded (State.signBoth s msg ctx).2 := BoundedPair.of_snd (State.signBoth_bounded h0)

end Sys2Proof.Machine
end

