-- ==== Sys2Proof/Laws/BoundedPairOps.lean ====
section
/-! SUPPORT. Every operation of Machine/PairOps.lean keeps the bounds. -/

namespace Sys2Proof.Machine

theorem State.sendPair_bounded {s name ptype body} (h0 : Bounded s) : Bounded (State.sendPair s name ptype body) := by
  unfold State.sendPair
  with_reducible repeat' first
    | assumption | (intro _; try beta_reduce) | apply Bounded.ite_ | apply State.emit_bounded
    | apply State.sendCtl_bounded | apply State.withPair_bounded | simp -zeta only [↓Bounded.mk_iff]
    | refine Bounded.ofSome ?_ (by assumption) | refine Bounded.ofSomeP ?_ (by assumption)
    | refine Bounded.ofPair ?_ (by assumption) | refine Bounded.ofPair2 ?_ (by assumption)
    | refine Bounded.ofPair3 ?_ (by assumption) | split
    | (extract_lets +onlyGivenNames s_; refine (fun (_ : Bounded s_) => ?_) ?_; swap; subst s_)
    | (extract_lets +onlyGivenNames s_; clear_value s_) | extract_lets +onlyGivenNames s_

theorem State.sendRecord_bounded {s step settle} (h0 : Bounded s) : Bounded (State.sendRecord s step settle) := by
  unfold State.sendRecord
  with_reducible repeat' first
    | assumption | (intro _; try beta_reduce) | apply Bounded.ite_ | apply State.count_bounded
    | apply State.sendPair_bounded | apply State.withPair_bounded | simp -zeta only [↓Bounded.mk_iff]
    | split | (extract_lets +onlyGivenNames s_; refine (fun (_ : Bounded s_) => ?_) ?_; swap; subst s_)
    | (extract_lets +onlyGivenNames s_; clear_value s_) | extract_lets +onlyGivenNames s_

theorem State.sendMirror_bounded {s step settle} (h0 : Bounded s) : Bounded (State.sendMirror s step settle) := by
  unfold State.sendMirror
  with_reducible repeat' first
    | assumption | (intro _; try beta_reduce) | apply Bounded.ite_ | apply State.sendRecord_bounded | split

theorem State.setCell_bounded {s cell primary} (h0 : Bounded s) : Bounded (State.setCell s cell primary) := by
  unfold State.setCell
  with_reducible repeat' first
    | assumption | apply State.withPair_bounded

theorem State.resolveCells_bounded {s cells epoch} (h0 : Bounded s) : Bounded (State.resolveCells s cells epoch) := by
  unfold State.resolveCells
  with_reducible repeat' first
    | assumption | (intro _; try beta_reduce) | apply State.incFld_bounded | apply State.record_bounded
    | apply State.setCell_bounded | apply State.withPair_bounded | apply foldl_bounded | split

theorem State.mirrorCommit_bounded {s step} (h0 : Bounded s) : Bounded (State.mirrorCommit s step) := by
  unfold State.mirrorCommit
  with_reducible repeat' first
    | assumption | (intro _; try beta_reduce) | apply Bounded.ite_ | apply State.sendMirror_bounded
    | apply State.setStepEnt_bounded | simp -zeta only [↓Bounded.mk_iff]
    | refine Bounded.ofSome ?_ (by assumption) | refine Bounded.ofSomeP ?_ (by assumption)
    | refine Bounded.ofPair ?_ (by assumption) | refine Bounded.ofPair2 ?_ (by assumption)
    | refine Bounded.ofPair3 ?_ (by assumption) | split
    | (extract_lets +onlyGivenNames s_; refine (fun (_ : Bounded s_) => ?_) ?_; swap; subst s_)
    | (extract_lets +onlyGivenNames s_; clear_value s_) | extract_lets +onlyGivenNames s_

theorem State.installCells_bounded {s is} (h0 : Bounded s) : Bounded (State.installCells s is) := by
  unfold State.installCells
  with_reducible repeat' first
    | assumption | (intro _; try beta_reduce) | apply State.putSlot_bounded | apply State.withPair_bounded
    | apply foldl_bounded | split

theorem State.claimRecord_bounded {s p} (h0 : Bounded s) : BoundedPair (State.claimRecord s p) := by
  unfold State.claimRecord
  with_reducible repeat' first
    | assumption | (intro _; try beta_reduce) | apply BoundedPair.ite_ | apply BoundedPair.mk_
    | apply Bounded.ite_ | apply State.signEcdsa_bounded | apply State.signEcdsa_bounded2
    | refine Bounded.ofSome ?_ (by assumption) | refine Bounded.ofSomeP ?_ (by assumption)
    | refine Bounded.ofPair ?_ (by assumption) | refine Bounded.ofPair2 ?_ (by assumption)
    | refine Bounded.ofPair3 ?_ (by assumption) | split
    | (extract_lets +onlyGivenNames s_; refine (fun (_ : Bounded s_) => ?_) ?_; swap; subst s_)
    | (extract_lets +onlyGivenNames s_; clear_value s_) | extract_lets +onlyGivenNames s_
theorem State.claimRecord_bounded2 {s p} (h0 : Bounded s) : Bounded (State.claimRecord s p).2 := BoundedPair.of_snd (State.claimRecord_bounded h0)

theorem State.mirrorRoots_bounded {s} (h0 : Bounded s) : Bounded (State.mirrorRoots s) := by
  unfold State.mirrorRoots
  with_reducible repeat' first
    | assumption | (intro _; try beta_reduce) | apply Bounded.ite_ | apply State.sendMirror_bounded
    | apply State.withPair_bounded | simp -zeta only [↓Bounded.mk_iff] | split
    | (extract_lets +onlyGivenNames s_; refine (fun (_ : Bounded s_) => ?_) ?_; swap; subst s_)
    | (extract_lets +onlyGivenNames s_; clear_value s_) | extract_lets +onlyGivenNames s_

theorem State.mirrorWaiting_bounded {s} (h0 : Bounded s) : Bounded (State.mirrorWaiting s) := by
  unfold State.mirrorWaiting
  with_reducible repeat' first
    | assumption | (intro _; try beta_reduce) | apply Bounded.ite_ | apply State.mirrorCommit_bounded
    | apply State.mirrorRoots_bounded | apply State.withPair_bounded | apply foldl_bounded
    | simp -zeta only [↓Bounded.mk_iff] | split
    | (extract_lets +onlyGivenNames s_; refine (fun (_ : Bounded s_) => ?_) ?_; swap; subst s_)
    | (extract_lets +onlyGivenNames s_; clear_value s_) | extract_lets +onlyGivenNames s_

theorem State.losePartner_bounded {s byDown} (h0 : Bounded s) : Bounded (State.losePartner s byDown) := by
  unfold State.losePartner
  with_reducible repeat' first
    | assumption | (intro _; try beta_reduce) | apply Bounded.ite_ | apply State.advanceHead_bounded
    | apply State.record_bounded | apply State.setFld_bounded | apply State.setStepEnt_bounded
    | apply State.withPair_bounded | apply foldl_bounded | simp -zeta only [↓Bounded.mk_iff]
    | simp -zeta only [↓Bounded.mk_iffO, ↓Bounded.mk_iffF] | refine Bounded.ofSome ?_ (by assumption)
    | refine Bounded.ofSomeP ?_ (by assumption) | refine Bounded.ofPair ?_ (by assumption)
    | refine Bounded.ofPair2 ?_ (by assumption) | refine Bounded.ofPair3 ?_ (by assumption) | split
    | (extract_lets +onlyGivenNames s_; refine (fun (_ : Bounded s_) => ?_) ?_; swap; subst s_)
    | (extract_lets +onlyGivenNames s_; clear_value s_) | extract_lets +onlyGivenNames s_

theorem State.answerRestore_bounded {s p imageOk unit} (h0 : Bounded s) : Bounded (State.answerRestore s p imageOk unit) := by
  unfold State.answerRestore
  with_reducible repeat' first
    | assumption | (intro _; try beta_reduce) | apply Bounded.ite_ | apply State.forgetEpoch0_bounded
    | apply State.incFld_bounded | apply State.sendPair_bounded | apply State.withPair_bounded
    | simp -zeta only [↓Bounded.mk_iff] | split
    | (extract_lets +onlyGivenNames s_; refine (fun (_ : Bounded s_) => ?_) ?_; swap; subst s_)
    | (extract_lets +onlyGivenNames s_; clear_value s_) | extract_lets +onlyGivenNames s_

theorem State.answerWaiting_bounded {s} (h0 : Bounded s) : Bounded (State.answerWaiting s) := by
  unfold State.answerWaiting
  with_reducible repeat' first
    | assumption | (intro _; try beta_reduce) | apply Bounded.ite_ | apply State.answerRestore_bounded
    | refine Bounded.ofSome ?_ (by assumption) | refine Bounded.ofSomeP ?_ (by assumption)
    | refine Bounded.ofPair ?_ (by assumption) | refine Bounded.ofPair2 ?_ (by assumption)
    | refine Bounded.ofPair3 ?_ (by assumption) | split

end Sys2Proof.Machine
end

