-- ==== Sys2Proof/Laws/BoundedSvcOps.lean ====
section
/-! SUPPORT. Every operation of Machine/SvcOps.lean keeps the bounds. -/

namespace Sys2Proof.Machine

theorem State.askPages_bounded {s att pasid who pages} (h0 : Bounded s) : Bounded (State.askPages s att pasid who pages) := by
  unfold State.askPages
  with_reducible repeat' first
    | assumption | (intro _; try beta_reduce) | apply Bounded.ite_ | apply State.emit_bounded | apply foldl_bounded
    | simp -zeta only [↓Bounded.mk_iff] | (extract_lets +onlyGivenNames s_; clear_value s_)

theorem State.chargeHost_bounded {s slot n} (h0 : Bounded s) : Bounded (State.chargeHost s slot n) := by
  unfold State.chargeHost
  with_reducible repeat' first
    | assumption | apply State.count_bounded | apply State.putSlot_bounded | simp -zeta only [↓Bounded.mk_iff]
    | (extract_lets +onlyGivenNames s_; refine (fun (_ : Bounded s_) => ?_) ?_; swap; subst s_)

theorem State.logHost_bounded {s part addr len} (h0 : Bounded s) : Bounded (State.logHost s part addr len) := by
  unfold State.logHost
  with_reducible repeat' first
    | assumption | (intro _; try beta_reduce) | apply State.logDirty_bounded | apply foldl_bounded

theorem State.hostAddr_bounded {s att pasid addr} (h0 : Bounded s) : BoundedTriple (State.hostAddr s att pasid addr) := by
  unfold State.hostAddr
  with_reducible repeat' first
    | assumption | apply BoundedTriple.mk_ | apply State.emit_bounded | apply State.freed_bounded | split
theorem State.hostAddr_bounded2 {s att pasid addr} (h0 : Bounded s) : Bounded (State.hostAddr s att pasid addr).2.2 := BoundedTriple.of_snd (State.hostAddr_bounded h0)

theorem State.hostWrite_bounded {att pasid fuel a3 addr a5} (h3 : Bounded a3) : Bounded (State.hostWrite att pasid fuel a3 addr a5) := by
  induction fuel generalizing a3 addr a5 with
  | zero => exact h3
  | succ fuel ih =>
  unfold State.hostWrite
  with_reducible repeat' first
    | assumption | apply ih | apply Bounded.ite_ | apply State.emit_bounded | apply State.spend_bounded
    | apply State.freed_bounded | apply State.hostAddr_bounded2

theorem State.hostSegments_bounded {s att pasid part slot kind obj seq seg0 addr b} (h0 : Bounded s) : Bounded (State.hostSegments s att pasid part slot kind obj seq seg0 addr b) := by
  unfold State.hostSegments
  with_reducible repeat' first
    | assumption | (intro _; try beta_reduce) | apply State.hostWrite_bounded | apply State.logHost_bounded
    | apply foldl_bounded

theorem State.hostOut_bounded {s q c b} (h0 : Bounded s) : Bounded (State.hostOut s q c b) := by
  unfold State.hostOut
  with_reducible repeat' first
    | assumption | (intro _; try beta_reduce) | apply Bounded.ite_ | apply State.hostSegments_bounded
    | split

theorem State.engineTake_bounded {s t row step} (h0 : Bounded s) : Bounded (State.engineTake s t row step) := by
  unfold State.engineTake
  with_reducible repeat' first
    | assumption | (intro _; try beta_reduce) | apply Bounded.ite_ | apply State.discard_bounded
    | apply State.hold_bounded | apply State.performWrite_bounded | apply State.reserve_bounded
    | apply State.withMem_bounded | simp -zeta only [↓Bounded.mk_iff]
    | refine Bounded.ofSome ?_ (by assumption) | refine Bounded.ofSomeP ?_ (by assumption)
    | refine Bounded.ofPair ?_ (by assumption) | refine Bounded.ofPair2 ?_ (by assumption)
    | refine Bounded.ofPair3 ?_ (by assumption) | apply Bounded.getD_ | split
    | (extract_lets +onlyGivenNames s_; refine (fun (_ : Bounded s_) => ?_) ?_; swap; subst s_)
    | (extract_lets +onlyGivenNames s_; clear_value s_) | extract_lets +onlyGivenNames s_

theorem State.engineLine_bounded {s part addr data step maint cls} (h0 : Bounded s) : BoundedPair (State.engineLine s part addr data step maint cls) := by
  unfold State.engineLine
  with_reducible repeat' first
    | assumption | (intro _; try beta_reduce) | apply BoundedPair.ite_ | apply BoundedPair.mk_
    | apply Bounded.ite_ | apply State.count_bounded | apply State.engineTake_bounded
    | apply State.grantCredit_bounded | apply State.incFld_bounded | apply State.withMem_bounded
    | apply foldl_bounded | simp -zeta only [↓Bounded.mk_iff] | refine Bounded.ofSome ?_ (by assumption)
    | refine Bounded.ofSomeP ?_ (by assumption) | refine Bounded.ofPair ?_ (by assumption)
    | refine Bounded.ofPair2 ?_ (by assumption) | refine Bounded.ofPair3 ?_ (by assumption) | split
    | (extract_lets +onlyGivenNames s_; refine (fun (_ : Bounded s_) => ?_) ?_; swap; subst s_)
    | (extract_lets +onlyGivenNames s_; clear_value s_) | extract_lets +onlyGivenNames s_
theorem State.engineLine_bounded2 {s part addr data step maint cls} (h0 : Bounded s) : Bounded (State.engineLine s part addr data step maint cls).2 := BoundedPair.of_snd (State.engineLine_bounded h0)

theorem State.engineLines_bounded {s part addr step maint cls l} (h0 : Bounded s) : BoundedTriple (State.engineLines s part addr step maint cls l) := by
  induction l generalizing s addr with
  | nil => exact BoundedTriple.mk_ h0
  | cons d t ih =>
  unfold State.engineLines
  with_reducible repeat' first
    | assumption | apply BoundedTriple.of_snd (ih ?_) | apply BoundedTriple.mk_ | apply State.engineLine_bounded2
    | refine Bounded.ofPair2 ?_ (by assumption) | split
theorem State.engineLines_bounded2 {s part addr step maint cls l} (h0 : Bounded s) : Bounded (State.engineLines s part addr step maint cls l).2.2 := BoundedTriple.of_snd (State.engineLines_bounded h0)

theorem State.engineWrite_bounded {s part addr step b cls} (h0 : Bounded s) : BoundedTriple (State.engineWrite s part addr step b cls) := by
  unfold State.engineWrite
  with_reducible repeat' first
    | assumption | (intro _; try beta_reduce) | apply BoundedTriple.mk_ | apply Bounded.ite_
    | apply State.engineLines_bounded | apply State.engineLines_bounded2
    | refine Bounded.ofSome ?_ (by assumption) | refine Bounded.ofSomeP ?_ (by assumption)
    | refine Bounded.ofPair ?_ (by assumption) | refine Bounded.ofPair2 ?_ (by assumption)
    | refine Bounded.ofPair3 ?_ (by assumption) | split
    | (extract_lets +onlyGivenNames s_; refine (fun (_ : Bounded s_) => ?_) ?_; swap; subst s_)
    | (extract_lets +onlyGivenNames s_; clear_value s_) | extract_lets +onlyGivenNames s_
theorem State.engineWrite_bounded2 {s part addr step b cls} (h0 : Bounded s) : Bounded (State.engineWrite s part addr step b cls).2.2 := BoundedTriple.of_snd (State.engineWrite_bounded h0)

theorem State.writeDst_bounded {s q c b} (h0 : Bounded s) : BoundedQuad (State.writeDst s q c b) := by
  unfold State.writeDst
  with_reducible repeat' first
    | assumption | (intro _; try beta_reduce) | apply BoundedQuad.mk_ | apply Bounded.ite_
    | apply State.discard_bounded | apply State.engineWrite_bounded | apply State.engineWrite_bounded2
    | apply State.hold_bounded | apply State.hostOut_bounded | apply State.pend_bounded
    | apply State.setCmd_bounded | simp -zeta only [↓Bounded.mk_iff]
    | refine Bounded.ofSome ?_ (by assumption) | refine Bounded.ofSomeP ?_ (by assumption)
    | refine Bounded.ofPair ?_ (by assumption) | refine Bounded.ofPair2 ?_ (by assumption)
    | refine Bounded.ofPair3 ?_ (by assumption) | split
    | (extract_lets +onlyGivenNames s_; refine (fun (_ : Bounded s_) => ?_) ?_; swap; subst s_)
    | (extract_lets +onlyGivenNames s_; clear_value s_) | extract_lets +onlyGivenNames s_
theorem State.writeDst_bounded2 {s q c b} (h0 : Bounded s) : Bounded (State.writeDst s q c b).2.2.2 := BoundedQuad.of_snd (State.writeDst_bounded h0)

theorem State.finishDst_bounded {s q c b res0 res1} (h0 : Bounded s) : Bounded (State.finishDst s q c b res0 res1) := by
  unfold State.finishDst
  with_reducible repeat' first
    | assumption | apply Bounded.ite_ | apply State.setCmd_bounded | apply State.svcDone_bounded
    | apply State.writeDst_bounded2 | split

theorem State.setBinding_bounded {s b} (h0 : Bounded s) : Bounded (State.setBinding s b) := by
  unfold State.setBinding
  with_reducible repeat' first
    | assumption | simp -zeta only [↓Bounded.mk_iff]

theorem State.maintBytes_bounded {s part addr b prio} (h0 : Bounded s) : BoundedPair (State.maintBytes s part addr b prio) := by
  unfold State.maintBytes
  with_reducible repeat' first
    | assumption | (intro _; try beta_reduce) | apply BoundedPair.ite_ | apply BoundedPair.mk_
    | apply Bounded.ite_ | apply State.engineLines_bounded | apply State.engineLines_bounded2
    | refine Bounded.ofSome ?_ (by assumption) | refine Bounded.ofSomeP ?_ (by assumption)
    | refine Bounded.ofPair ?_ (by assumption) | refine Bounded.ofPair2 ?_ (by assumption)
    | refine Bounded.ofPair3 ?_ (by assumption) | split
    | (extract_lets +onlyGivenNames s_; refine (fun (_ : Bounded s_) => ?_) ?_; swap; subst s_)
    | (extract_lets +onlyGivenNames s_; clear_value s_) | extract_lets +onlyGivenNames s_
theorem State.maintBytes_bounded2 {s part addr b prio} (h0 : Bounded s) : Bounded (State.maintBytes s part addr b prio).2 := BoundedPair.of_snd (State.maintBytes_bounded h0)

theorem State.hostAsk_bounded {att pasid tag fuel a3 addr len} (h3 : Bounded a3) : Bounded (State.hostAsk att pasid tag fuel a3 addr len) := by
  induction fuel generalizing a3 addr len with
  | zero => exact h3
  | succ fuel ih =>
  unfold State.hostAsk
  with_reducible repeat' first
    | assumption | apply ih | apply Bounded.ite_ | apply State.emit_bounded | apply State.hostAddr_bounded2

theorem State.dmaRelease_bounded {s q k} (h0 : Bounded s) : Bounded (State.dmaRelease s q k) := by
  unfold State.dmaRelease
  with_reducible repeat' first
    | assumption | apply State.hostOut_bounded | apply State.svcDone_bounded | split

theorem State.setXfer_bounded {s c f} (h0 : Bounded s) : Bounded (State.setXfer s c f) := by
  unfold State.setXfer
  with_reducible repeat' first
    | assumption | apply State.setChan_bounded

theorem State.xferSend_bounded {s c f} (h0 : Bounded s) : Bounded (State.xferSend s c f) := by
  unfold State.xferSend
  with_reducible repeat' first
    | assumption | apply State.hostSegments_bounded | apply State.setXfer_bounded

theorem State.xferRelease_bounded {s c no} (h0 : Bounded s) : Bounded (State.xferRelease s c no) := by
  unfold State.xferRelease
  with_reducible repeat' first
    | assumption | apply Bounded.ite_ | apply State.xferSend_bounded | split

theorem State.readLines_bounded {s part addr len} (h0 : Bounded s) : Bounded (State.readLines s part addr len) := by
  unfold State.readLines
  with_reducible repeat' first
    | assumption | (intro _; try beta_reduce) | apply Bounded.ite_ | apply State.count_bounded
    | apply foldl_bounded | split

theorem State.takeSrc_bounded {s q c len r} (h0 : Bounded s) : BoundedPair (State.takeSrc s q c len r) := by
  unfold State.takeSrc
  with_reducible repeat' first
    | assumption | (intro _; try beta_reduce) | apply BoundedPair.ite_ | apply BoundedPair.mk_
    | apply Bounded.ite_ | apply State.freed_bounded | apply State.hostAsk_bounded
    | apply State.readLines_bounded | apply State.spend_bounded | simp -zeta only [↓Bounded.mk_iff]
    | refine Bounded.ofSome ?_ (by assumption) | refine Bounded.ofSomeP ?_ (by assumption)
    | refine Bounded.ofPair ?_ (by assumption) | refine Bounded.ofPair2 ?_ (by assumption)
    | refine Bounded.ofPair3 ?_ (by assumption) | split
    | (extract_lets +onlyGivenNames s_; refine (fun (_ : Bounded s_) => ?_) ?_; swap; subst s_)
    | (extract_lets +onlyGivenNames s_; clear_value s_) | extract_lets +onlyGivenNames s_
theorem State.takeSrc_bounded2 {s q c len r} (h0 : Bounded s) : Bounded (State.takeSrc s q c len r).2 := BoundedPair.of_snd (State.takeSrc_bounded h0)

end Sys2Proof.Machine
end

