-- ==== Sys2Proof/Laws/BoundedRegionOps.lean ====
section
/-! SUPPORT. Every operation of Machine/RegionOps.lean keeps the bounds. -/

namespace Sys2Proof.Machine

theorem State.hostCharge_bounded {s q n} (h0 : Bounded s) : BoundedPair (State.hostCharge s q n) := by
  unfold State.hostCharge
  with_reducible repeat' first
    | assumption | (intro _; try beta_reduce) | apply BoundedPair.ite_ | apply BoundedPair.mk_
    | apply Bounded.ite_ | apply State.chargeHost_bounded | split
    | (extract_lets +onlyGivenNames s_; refine (fun (_ : Bounded s_) => ?_) ?_; swap; subst s_)
    | (extract_lets +onlyGivenNames s_; clear_value s_) | extract_lets +onlyGivenNames s_
theorem State.hostCharge_bounded2 {s q n} (h0 : Bounded s) : Bounded (State.hostCharge s q n).2 := BoundedPair.of_snd (State.hostCharge_bounded h0)

theorem State.charged_bounded {s q c srcLen dstLen f} (h0 : Bounded s) (h5 : ∀ x0, Bounded x0 → Bounded (f x0)) : Bounded (State.charged s q c srcLen dstLen f) := by
  unfold State.charged
  with_reducible repeat' first
    | assumption | (intro _; try beta_reduce) | apply Bounded.ite_ | apply h5 | apply State.askPages_bounded
    | apply State.hostCharge_bounded | apply State.hostCharge_bounded2 | apply State.incFld_bounded
    | apply State.setCmd_bounded | apply State.setQueue_bounded | apply State.svcDone_bounded
    | simp -zeta only [↓Bounded.mk_iff] | refine Bounded.ofSome ?_ (by assumption)
    | refine Bounded.ofSomeP ?_ (by assumption) | refine Bounded.ofPair ?_ (by assumption)
    | refine Bounded.ofPair2 ?_ (by assumption) | refine Bounded.ofPair3 ?_ (by assumption) | split
    | (extract_lets +onlyGivenNames s_; refine (fun (_ : Bounded s_) => ?_) ?_; swap; subst s_)
    | (extract_lets +onlyGivenNames s_; clear_value s_) | extract_lets +onlyGivenNames s_

theorem State.srcFail_bounded {s q c} (h0 : Bounded s) : Bounded (State.srcFail s q c) := by
  unfold State.srcFail
  with_reducible repeat' first
    | assumption | apply Bounded.ite_ | apply State.incFld_bounded | apply State.svcDone_bounded

theorem State.zeroLines_bounded {s row offs} (h0 : Bounded s) : Bounded (State.zeroLines s row offs) := by
  unfold State.zeroLines
  with_reducible repeat' first
    | assumption | (intro _; try beta_reduce) | apply Bounded.ite_ | apply State.maintWrites_bounded
    | apply State.offerLines_bounded | apply foldl_bounded | refine Bounded.ofSome ?_ (by assumption)
    | refine Bounded.ofSomeP ?_ (by assumption) | refine Bounded.ofPair ?_ (by assumption)
    | refine Bounded.ofPair2 ?_ (by assumption) | refine Bounded.ofPair3 ?_ (by assumption)
    | apply Bounded.getD_ | split
    | (extract_lets +onlyGivenNames s_; refine (fun (_ : Bounded s_) => ?_) ?_; swap; subst s_)
    | (extract_lets +onlyGivenNames s_; clear_value s_) | extract_lets +onlyGivenNames s_

end Sys2Proof.Machine
end

