-- ==== Sys2Proof/Laws/BoundedRegions.lean ====
section
/-! SUPPORT. Every operation of Machine/Regions.lean keeps the bounds. -/

namespace Sys2Proof.Machine

theorem State.rgnEnd_bounded {s o code} (h0 : Bounded s) : Bounded (State.rgnEnd s o code) := by
  unfold State.rgnEnd
  with_reducible repeat' first
    | assumption | apply State.engineEnd_bounded | apply State.incFld_bounded | split

theorem State.freeRegion_bounded {s row} (h0 : Bounded s) : Bounded (State.freeRegion s row) := by
  unfold State.freeRegion
  with_reducible repeat' first
    | assumption | (intro _; try beta_reduce) | apply Bounded.ite_ | apply State.dropFromJob_bounded
    | apply State.rgnEnd_bounded | apply State.setRow_bounded | apply foldl_bounded | split
    | (extract_lets +onlyGivenNames s_; refine (fun (_ : Bounded s_) => ?_) ?_; swap; subst s_)
    | (extract_lets +onlyGivenNames s_; clear_value s_) | extract_lets +onlyGivenNames s_

theorem State.settleRegion_bounded {s row} (h0 : Bounded s) : Bounded (State.settleRegion s row) := by
  unfold State.settleRegion
  with_reducible repeat' first
    | assumption | apply State.freeRegion_bounded | apply State.rgnEnd_bounded | split
    | extract_lets +onlyGivenNames s_

theorem State.closeRegion_bounded {s row o} (h0 : Bounded s) : Bounded (State.closeRegion s row o) := by
  unfold State.closeRegion
  with_reducible repeat' first
    | assumption | (intro _; try beta_reduce) | apply Bounded.ite_ | apply State.dropFromJob_bounded
    | apply State.setRow_bounded | apply State.tokBreak_bounded | apply State.unpin_bounded
    | simp -zeta only [↓Bounded.mk_iff] | split
    | (extract_lets +onlyGivenNames s_; refine (fun (_ : Bounded s_) => ?_) ?_; swap; subst s_)
    | (extract_lets +onlyGivenNames s_; clear_value s_) | extract_lets +onlyGivenNames s_

theorem State.createRegion_bounded {s row r} (h0 : Bounded s) : Bounded (State.createRegion s row r) := by
  unfold State.createRegion
  with_reducible repeat' first
    | assumption | apply State.drawEpoch_bounded2 | apply State.joinJob_bounded | apply State.pinCell_bounded
    | apply State.setRow_bounded | simp -zeta only [↓Bounded.mk_iff] | split
    | (extract_lets +onlyGivenNames s_; have _x : Option State := s_; clear _x; subst s_)
    | extract_lets +onlyGivenNames s_

theorem execRgnRead_bounded {port row s} (h2 : Bounded s) : BoundedRes (execRgnRead port row s) := by
  unfold execRgnRead
  with_reducible repeat' first
    | assumption | (intro _; try beta_reduce) | apply BoundedRes.ite_ | apply BoundedRes.mkNext
    | exact BoundedRes.mkFault | apply Bounded.ite_ | apply State.regCmd_bounded
    | apply State.setFld_bounded | apply State.wr_bounded | apply foldl_bounded | apply Bounded.getD_
    | split | (extract_lets +onlyGivenNames s_; refine (fun (_ : Bounded s_) => ?_) ?_; swap; subst s_)
    | (extract_lets +onlyGivenNames s_; clear_value s_) | extract_lets +onlyGivenNames s_

theorem State.rgnCmd_bounded {s i o row op r f} (h0 : Bounded s) (h6 : ∀ x0 x1 x2, Bounded x2 → Bounded (f x0 x1 x2)) : Bounded (State.rgnCmd s i o row op r f) := by
  unfold State.rgnCmd
  with_reducible repeat' first
    | assumption | (intro _; try beta_reduce) | apply Bounded.ite_ | apply h6 | apply State.charged_bounded
    | apply State.queueCmd_bounded | apply State.regCmd_bounded | apply State.setFld_bounded
    | apply State.srcFail_bounded | apply State.svcDone_bounded | apply State.takeSrc_bounded
    | apply State.takeSrc_bounded2 | refine Bounded.ofSome ?_ (by assumption)
    | refine Bounded.ofSomeP ?_ (by assumption) | refine Bounded.ofPair ?_ (by assumption)
    | refine Bounded.ofPair2 ?_ (by assumption) | refine Bounded.ofPair3 ?_ (by assumption) | split
    | (extract_lets +onlyGivenNames s_; refine (fun (_ : Bounded s_) => ?_) ?_; swap; subst s_)
    | (extract_lets +onlyGivenNames s_; clear_value s_) | extract_lets +onlyGivenNames s_

theorem execRgnCreate_bounded {o row r s} (h3 : Bounded s) : BoundedRes (execRgnCreate o row r s) := by
  unfold execRgnCreate
  with_reducible repeat' first
    | assumption | (intro _; try beta_reduce) | apply BoundedRes.ite_ | apply BoundedRes.mkNext
    | exact BoundedRes.mkFault | apply Bounded.ite_ | apply State.createRegion_bounded
    | apply State.rgnCmd_bounded | apply State.rgnEnd_bounded | refine Bounded.ofSome ?_ (by assumption)
    | refine Bounded.ofSomeP ?_ (by assumption) | refine Bounded.ofPair ?_ (by assumption)
    | refine Bounded.ofPair2 ?_ (by assumption) | refine Bounded.ofPair3 ?_ (by assumption) | split

theorem execRgnDestroy_bounded {o row r s} (h3 : Bounded s) : BoundedRes (execRgnDestroy o row r s) := by
  unfold execRgnDestroy
  with_reducible repeat' first
    | assumption | (intro _; try beta_reduce) | apply BoundedRes.ite_ | apply BoundedRes.mkNext
    | exact BoundedRes.mkFault | apply Bounded.ite_ | apply State.closeRegion_bounded
    | apply State.rgnCmd_bounded | apply State.rgnEnd_bounded | refine Bounded.ofSome ?_ (by assumption)
    | refine Bounded.ofSomeP ?_ (by assumption) | refine Bounded.ofPair ?_ (by assumption)
    | refine Bounded.ofPair2 ?_ (by assumption) | refine Bounded.ofPair3 ?_ (by assumption) | split

theorem execRgnSeal_bounded {o row r s} (h3 : Bounded s) : BoundedRes (execRgnSeal o row r s) := by
  unfold execRgnSeal
  with_reducible repeat' first
    | assumption | (intro _; try beta_reduce) | apply BoundedRes.ite_ | apply BoundedRes.mkNext
    | exact BoundedRes.mkFault | apply Bounded.ite_ | apply State.rgnCmd_bounded
    | apply State.rgnEnd_bounded | apply State.setRow_bounded | simp -zeta only [↓Bounded.mk_iff]
    | refine Bounded.ofSome ?_ (by assumption) | refine Bounded.ofSomeP ?_ (by assumption)
    | refine Bounded.ofPair ?_ (by assumption) | refine Bounded.ofPair2 ?_ (by assumption)
    | refine Bounded.ofPair3 ?_ (by assumption) | split
    | (extract_lets +onlyGivenNames s_; refine (fun (_ : Bounded s_) => ?_) ?_; swap; subst s_)
    | (extract_lets +onlyGivenNames s_; clear_value s_) | extract_lets +onlyGivenNames s_

theorem State.resetRegion_bounded {s row} (h0 : Bounded s) : Bounded (State.resetRegion s row) := by
  unfold State.resetRegion
  with_reducible repeat' first
    | assumption | (intro _; try beta_reduce) | apply Bounded.ite_ | apply State.drawEpoch_bounded
    | apply State.drawEpoch_bounded2 | apply State.dropFromJob_bounded | apply State.rgnEnd_bounded
    | apply State.setRow_bounded | apply State.tokBreak_bounded | apply foldl_bounded
    | simp -zeta only [↓Bounded.mk_iff] | refine Bounded.ofSome ?_ (by assumption)
    | refine Bounded.ofSomeP ?_ (by assumption) | refine Bounded.ofPair ?_ (by assumption)
    | refine Bounded.ofPair2 ?_ (by assumption) | refine Bounded.ofPair3 ?_ (by assumption) | split
    | (extract_lets +onlyGivenNames s_; refine (fun (_ : Bounded s_) => ?_) ?_; swap; subst s_)
    | (extract_lets +onlyGivenNames s_; clear_value s_) | extract_lets +onlyGivenNames s_

theorem execRgnReset_bounded {o row r s} (h3 : Bounded s) : BoundedRes (execRgnReset o row r s) := by
  unfold execRgnReset
  with_reducible repeat' first
    | assumption | (intro _; try beta_reduce) | apply BoundedRes.ite_ | apply BoundedRes.mkNext
    | exact BoundedRes.mkFault | apply Bounded.ite_ | apply State.resetRegion_bounded
    | apply State.rgnCmd_bounded | apply State.rgnEnd_bounded | refine Bounded.ofSome ?_ (by assumption)
    | refine Bounded.ofSomeP ?_ (by assumption) | refine Bounded.ofPair ?_ (by assumption)
    | refine Bounded.ofPair2 ?_ (by assumption) | refine Bounded.ofPair3 ?_ (by assumption) | split
    | (extract_lets +onlyGivenNames s_; refine (fun (_ : Bounded s_) => ?_) ?_; swap; subst s_)
    | (extract_lets +onlyGivenNames s_; clear_value s_) | extract_lets +onlyGivenNames s_

theorem execRgnAdvance_bounded {o row r s} (h3 : Bounded s) : BoundedRes (execRgnAdvance o row r s) := by
  unfold execRgnAdvance
  with_reducible repeat' first
    | assumption | (intro _; try beta_reduce) | apply BoundedRes.ite_ | apply BoundedRes.mkNext
    | exact BoundedRes.mkFault | apply Bounded.ite_ | apply State.count_bounded | apply State.rgnCmd_bounded
    | apply State.rgnEnd_bounded | apply State.setRow_bounded | simp -zeta only [↓Bounded.mk_iff]
    | refine Bounded.ofSome ?_ (by assumption) | refine Bounded.ofSomeP ?_ (by assumption)
    | refine Bounded.ofPair ?_ (by assumption) | refine Bounded.ofPair2 ?_ (by assumption)
    | refine Bounded.ofPair3 ?_ (by assumption) | split
    | (extract_lets +onlyGivenNames s_; refine (fun (_ : Bounded s_) => ?_) ?_; swap; subst s_)
    | (extract_lets +onlyGivenNames s_; clear_value s_) | extract_lets +onlyGivenNames s_

theorem execAdvanceComplete_bounded {row s} (h1 : Bounded s) : BoundedRes (execAdvanceComplete row s) := by
  unfold execAdvanceComplete
  with_reducible repeat' first
    | assumption | (intro _; try beta_reduce) | apply BoundedRes.ite_ | apply BoundedRes.mkNext
    | exact BoundedRes.mkFault | apply Bounded.ite_ | apply State.rgnEnd_bounded
    | apply State.setRow_bounded | apply State.zeroLines_bounded | simp -zeta only [↓Bounded.mk_iff]
    | refine Bounded.ofSome ?_ (by assumption) | refine Bounded.ofSomeP ?_ (by assumption)
    | refine Bounded.ofPair ?_ (by assumption) | refine Bounded.ofPair2 ?_ (by assumption)
    | refine Bounded.ofPair3 ?_ (by assumption) | split
    | (extract_lets +onlyGivenNames s_; refine (fun (_ : Bounded s_) => ?_) ?_; swap; subst s_)
    | (extract_lets +onlyGivenNames s_; clear_value s_) | extract_lets +onlyGivenNames s_

theorem State.drvRef_bounded {s i q k op up} (h0 : Bounded s) : Bounded (State.drvRef s i q k op up) := by
  unfold State.drvRef
  with_reducible repeat' first
    | assumption | (intro _; try beta_reduce) | apply Bounded.ite_ | apply State.queueCmd_bounded
    | apply State.setRow_bounded | apply State.svcDone_bounded | simp -zeta only [↓Bounded.mk_iff] | split
    | (extract_lets +onlyGivenNames s_; refine (fun (_ : Bounded s_) => ?_) ?_; swap; subst s_)
    | (extract_lets +onlyGivenNames s_; clear_value s_) | extract_lets +onlyGivenNames s_

theorem execRgnRef_bounded {q k s} (h2 : Bounded s) : BoundedRes (execRgnRef q k s) := by
  unfold execRgnRef
  with_reducible repeat' first
    | assumption | (intro _; try beta_reduce) | apply BoundedRes.ite_ | apply BoundedRes.mkNext
    | exact BoundedRes.mkFault | apply Bounded.ite_ | apply State.drvRef_bounded | split

theorem execRgnUnref_bounded {q k s} (h2 : Bounded s) : BoundedRes (execRgnUnref q k s) := by
  unfold execRgnUnref
  with_reducible repeat' first
    | assumption | (intro _; try beta_reduce) | apply BoundedRes.ite_ | apply BoundedRes.mkNext
    | exact BoundedRes.mkFault | apply Bounded.ite_ | apply State.drvRef_bounded | split

end Sys2Proof.Machine
end

