-- ==== Sys2Proof/Laws/BoundedCfgOps.lean ====
section
/-! SUPPORT. Every operation of Machine/CfgOps.lean keeps the bounds. -/

namespace Sys2Proof.Machine

theorem State.applyPair_bounded {s v1_} (h0 : Bounded s) : Bounded (State.applyPair s v1_) := by
  unfold State.applyPair
  with_reducible repeat' first
    | assumption | apply State.withPair_bounded | split

theorem State.applyAreas_bounded {s v1_} (h0 : Bounded s) : Bounded (State.applyAreas s v1_) := by
  unfold State.applyAreas
  with_reducible repeat' first
    | assumption | apply State.setFld_bounded | simp -zeta only [↓Bounded.mk_iff]

theorem State.showActive_bounded {s v1_} (h0 : Bounded s) : Bounded (State.showActive s v1_) := by
  unfold State.showActive
  with_reducible repeat' first
    | assumption | (intro _; try beta_reduce) | apply State.setFld_bounded | apply foldl_bounded

theorem State.applyLanes_bounded {s x} (h0 : Bounded s) : Bounded (State.applyLanes s x) := by
  unfold State.applyLanes
  with_reducible repeat' first
    | assumption | (intro _; try beta_reduce) | apply Bounded.ite_ | apply State.setLane_bounded
    | apply foldl_bounded | simp -zeta only [↓Bounded.mk_iff] | refine Bounded.ofSome ?_ (by assumption)
    | refine Bounded.ofSomeP ?_ (by assumption) | refine Bounded.ofPair ?_ (by assumption)
    | refine Bounded.ofPair2 ?_ (by assumption) | refine Bounded.ofPair3 ?_ (by assumption) | split
    | (extract_lets +onlyGivenNames s_; refine (fun (_ : Bounded s_) => ?_) ?_; swap; subst s_)
    | (extract_lets +onlyGivenNames s_; clear_value s_) | extract_lets +onlyGivenNames s_

theorem State.applyArb_bounded {s v1_} (h0 : Bounded s) : Bounded (State.applyArb s v1_) := by
  unfold State.applyArb
  with_reducible repeat' first
    | assumption | (intro _; try beta_reduce) | apply Bounded.ite_ | apply State.fullBuckets_bounded
    | apply State.setFld_bounded | apply foldl_bounded

theorem State.applyPorts_bounded {s x} (h0 : Bounded s) : Bounded (State.applyPorts s x) := by
  unfold State.applyPorts
  with_reducible repeat' first
    | assumption | (intro _; try beta_reduce) | apply Bounded.ite_ | apply State.setPort_bounded
    | apply foldl_bounded | simp -zeta only [↓Bounded.mk_iff] | refine Bounded.ofSome ?_ (by assumption)
    | refine Bounded.ofSomeP ?_ (by assumption) | refine Bounded.ofPair ?_ (by assumption)
    | refine Bounded.ofPair2 ?_ (by assumption) | refine Bounded.ofPair3 ?_ (by assumption)
    | apply Bounded.getD_ | split
    | (extract_lets +onlyGivenNames s_; refine (fun (_ : Bounded s_) => ?_) ?_; swap; subst s_)
    | (extract_lets +onlyGivenNames s_; clear_value s_) | extract_lets +onlyGivenNames s_

theorem State.applyParts_bounded {s v1_} (h0 : Bounded s) : Bounded (State.applyParts s v1_) := by
  unfold State.applyParts
  with_reducible repeat' first
    | assumption | (intro _; try beta_reduce) | apply Bounded.ite_ | apply State.setFld_bounded | apply foldl_bounded
    | simp -zeta only [↓Bounded.mk_iff]

theorem State.applyPlots_bounded {s v1_} (h0 : Bounded s) : Bounded (State.applyPlots s v1_) := by
  unfold State.applyPlots
  with_reducible repeat' first
    | assumption | apply State.applyArb_bounded | apply State.applyAreas_bounded | apply State.applyPair_bounded
    | apply State.applyParts_bounded | apply State.applyPorts_bounded

theorem State.emptyShadow_bounded {s} (h0 : Bounded s) : Bounded (State.emptyShadow s) := by
  unfold State.emptyShadow
  with_reducible repeat' first
    | assumption | apply State.setFld_bounded | simp -zeta only [↓Bounded.mk_iff]

theorem State.swapEnd_bounded {s code} (h0 : Bounded s) : Bounded (State.swapEnd s code) := by
  unfold State.swapEnd
  with_reducible repeat' first
    | assumption | apply Bounded.ite_ | apply State.incFld_bounded | apply State.record_bounded
    | apply State.setFld_bounded

theorem State.allocKeymap_bounded {s x} (h0 : Bounded s) : Bounded (State.allocKeymap s x) := by
  unfold State.allocKeymap
  with_reducible repeat' first
    | assumption | (intro _; try beta_reduce) | apply Bounded.ite_ | apply State.deriveSlot_bounded
    | apply State.mirrorRoots_bounded | apply foldl_bounded | simp -zeta only [↓Bounded.mk_iff] | split
    | (extract_lets +onlyGivenNames s_; refine (fun (_ : Bounded s_) => ?_) ?_; swap; subst s_)
    | (extract_lets +onlyGivenNames s_; clear_value s_) | extract_lets +onlyGivenNames s_

theorem State.dropDref_bounded {s n} (h0 : Bounded s) : Bounded (State.dropDref s n) := by
  unfold State.dropDref
  with_reducible repeat' first
    | assumption | apply Bounded.ite_ | apply State.putSlot_bounded

theorem State.releaseAllocated_bounded {s} (h0 : Bounded s) : Bounded (State.releaseAllocated s) := by
  unfold State.releaseAllocated
  with_reducible repeat' first
    | assumption | (intro _; try beta_reduce) | apply State.dropDref_bounded | apply foldl_bounded
    | simp -zeta only [↓Bounded.mk_iff]

theorem State.swapRefuse_bounded {s code} (h0 : Bounded s) : Bounded (State.swapRefuse s code) := by
  unfold State.swapRefuse
  with_reducible repeat' first
    | assumption | apply State.releaseAllocated_bounded | apply State.swapEnd_bounded
    | simp -zeta only [↓Bounded.mk_iff]

theorem State.prepareSwap_bounded {s v1_ persist} (h0 : Bounded s) : Bounded (State.prepareSwap s v1_ persist) := by
  unfold State.prepareSwap
  with_reducible repeat' first
    | assumption | apply Bounded.ite_ | apply State.allocKeymap_bounded | apply State.swapEnd_bounded
    | apply State.swapRefuse_bounded | simp -zeta only [↓Bounded.mk_iff] | split

theorem State.applyKeymap_bounded {s v1_} (h0 : Bounded s) : Bounded (State.applyKeymap s v1_) := by
  unfold State.applyKeymap
  with_reducible repeat' first
    | assumption | (intro _; try beta_reduce) | apply State.dropDref_bounded | apply State.putSlot_bounded
    | apply foldl_bounded

theorem State.applyRegions_bounded {s v1_} (h0 : Bounded s) : Bounded (State.applyRegions s v1_) := by
  unfold State.applyRegions
  with_reducible repeat' first
    | assumption | (intro _; try beta_reduce) | apply Bounded.ite_ | apply State.closeRegion_bounded
    | apply State.createRegion_bounded | apply State.settleRegion_bounded | apply foldl_bounded

theorem State.takeAuthority_bounded {s d} (h0 : Bounded s) : Bounded (State.takeAuthority s d) := by
  unfold State.takeAuthority
  with_reducible repeat' first
    | assumption | (intro _; try beta_reduce) | apply Bounded.ite_ | apply State.programRows_bounded
    | apply State.programRows_bounded2 | simp -zeta only [↓Bounded.mk_iff]
    | refine Bounded.ofSome ?_ (by assumption) | refine Bounded.ofSomeP ?_ (by assumption)
    | refine Bounded.ofPair ?_ (by assumption) | refine Bounded.ofPair2 ?_ (by assumption)
    | refine Bounded.ofPair3 ?_ (by assumption) | apply Bounded.getD_ | split
    | (extract_lets +onlyGivenNames s_; refine (fun (_ : Bounded s_) => ?_) ?_; swap; subst s_)
    | (extract_lets +onlyGivenNames s_; clear_value s_) | extract_lets +onlyGivenNames s_

theorem State.swapIn_bounded {s v1_} (h0 : Bounded s) : Bounded (State.swapIn s v1_) := by
  unfold State.swapIn
  with_reducible repeat' first
    | assumption | apply Bounded.ite_ | apply State.applyKeymap_bounded | apply State.applyLanes_bounded
    | apply State.applyPlots_bounded | apply State.applyRegions_bounded | apply State.emptyShadow_bounded
    | apply State.record_bounded | apply State.showActive_bounded | apply State.swapEnd_bounded
    | apply State.takeAuthority_bounded | apply State.trace_bounded | simp -zeta only [↓Bounded.mk_iff]

theorem State.loadEnd_bounded {s code} (h0 : Bounded s) : Bounded (State.loadEnd s code) := by
  unfold State.loadEnd
  with_reducible repeat' first
    | assumption | apply Bounded.ite_ | apply State.incFld_bounded | apply State.record_bounded
    | apply State.setFld_bounded

theorem State.loadImage_bounded {s readOk b} (h0 : Bounded s) : Bounded (State.loadImage s readOk b) := by
  unfold State.loadImage
  with_reducible repeat' first
    | assumption | apply State.emptyShadow_bounded | apply State.loadEnd_bounded | apply State.setFld_bounded
    | simp -zeta only [↓Bounded.mk_iff] | split
    | (extract_lets +onlyGivenNames s_; refine (fun (_ : Bounded s_) => ?_) ?_; swap; subst s_)

theorem execCfgLoad_bounded {port r s} (h2 : Bounded s) : BoundedRes (execCfgLoad port r s) := by
  unfold execCfgLoad
  with_reducible repeat' first
    | assumption | (intro _; try beta_reduce) | apply Bounded.ite_ | apply BoundedRes.mkNext
    | apply State.loadEnd_bounded | apply State.loadImage_bounded | apply State.ownerCmd_bounded

theorem execCfgDiscard_bounded {port s} (h1 : Bounded s) : BoundedRes (execCfgDiscard port s) := by
  unfold execCfgDiscard
  with_reducible repeat' first
    | assumption | (intro _; try beta_reduce) | apply BoundedRes.ite_ | apply BoundedRes.mkNext
    | exact BoundedRes.mkFault | apply Bounded.ite_ | apply State.emptyShadow_bounded
    | apply State.holdSwap_bounded | apply State.ownerCmd_bounded | split

theorem execCfgSwap_bounded {port persist s} (h2 : Bounded s) : BoundedRes (execCfgSwap port persist s) := by
  unfold execCfgSwap
  with_reducible repeat' first
    | assumption | (intro _; try beta_reduce) | apply Bounded.ite_ | apply BoundedRes.mkNext
    | apply State.ownerCmd_bounded | apply State.prepareSwap_bounded | apply State.setFld_bounded
    | apply State.swapEnd_bounded | split

theorem execCfgPersist_bounded {ok s} (h1 : Bounded s) : BoundedRes (execCfgPersist ok s) := by
  unfold execCfgPersist
  with_reducible repeat' first
    | assumption | apply BoundedRes.ite_ | apply BoundedRes.mkNext | apply State.incFld_bounded
    | apply State.record_bounded | simp -zeta only [↓Bounded.mk_iff]

end Sys2Proof.Machine
end

