-- ==== Sys2Proof/Laws/BoundedKeys.lean ====
section
/-! SUPPORT. Every operation of Machine/Keys.lean keeps the bounds. -/

namespace Sys2Proof.Machine

theorem State.keyCmdOf_bounded {s i o slot op f} (h0 : Bounded s) (h5 : ∀ x0 x1, Bounded x1 → Bounded (f x0 x1)) : Bounded (State.keyCmdOf s i o slot op f) := by
  unfold State.keyCmdOf
  with_reducible repeat' first
    | assumption | (intro _; try beta_reduce) | apply Bounded.ite_ | apply h5 | apply State.queueCmd_bounded
    | apply State.regCmd_bounded | apply State.setFld_bounded | refine Bounded.ofSome ?_ (by assumption)
    | refine Bounded.ofSomeP ?_ (by assumption) | refine Bounded.ofPair ?_ (by assumption)
    | refine Bounded.ofPair2 ?_ (by assumption) | refine Bounded.ofPair3 ?_ (by assumption) | split

theorem State.keyEnd_bounded {s o code r0} (h0 : Bounded s) : Bounded (State.keyEnd s o code r0) := by
  unfold State.keyEnd
  with_reducible repeat' first
    | assumption | apply Bounded.ite_ | apply State.engineEnd_bounded | apply State.incFld_bounded

theorem execKeyRead_bounded {port slot s} (h2 : Bounded s) : BoundedRes (execKeyRead port slot s) := by
  unfold execKeyRead
  with_reducible repeat' first
    | assumption | (intro _; try beta_reduce) | apply BoundedRes.ite_ | apply BoundedRes.mkNext
    | exact BoundedRes.mkFault | apply Bounded.ite_ | apply State.keyCmdOf_bounded
    | apply State.keyEnd_bounded | apply State.wr_bounded | split
    | (extract_lets +onlyGivenNames s_; refine (fun (_ : Bounded s_) => ?_) ?_; swap; subst s_)
    | (extract_lets +onlyGivenNames s_; clear_value s_) | extract_lets +onlyGivenNames s_

theorem State.tenantRef_bounded {s slot part} (h0 : Bounded s) : Bounded (State.tenantRef s slot part) := by
  unfold State.tenantRef
  with_reducible repeat' first
    | assumption | simp -zeta only [↓Bounded.mk_iff] | (extract_lets +onlyGivenNames s_; clear_value s_)

theorem State.keyAllocAt_bounded {s o a} (h0 : Bounded s) : Bounded (State.keyAllocAt s o a) := by
  unfold State.keyAllocAt
  with_reducible repeat' first
    | assumption | (intro _; try beta_reduce) | apply Bounded.ite_ | apply State.deriveSlot_bounded
    | apply State.keyEnd_bounded | apply State.mirrorRoots_bounded | apply State.setFld_bounded
    | apply State.tenantRef_bounded | refine Bounded.ofSome ?_ (by assumption)
    | refine Bounded.ofSomeP ?_ (by assumption) | refine Bounded.ofPair ?_ (by assumption)
    | refine Bounded.ofPair2 ?_ (by assumption) | refine Bounded.ofPair3 ?_ (by assumption) | split
    | (extract_lets +onlyGivenNames s_; refine (fun (_ : Bounded s_) => ?_) ?_; swap; subst s_)
    | (extract_lets +onlyGivenNames s_; clear_value s_) | extract_lets +onlyGivenNames s_

theorem execKeyAlloc_bounded {o slot s} (h2 : Bounded s) : BoundedRes (execKeyAlloc o slot s) := by
  unfold execKeyAlloc
  with_reducible repeat' first
    | assumption | (intro _; try beta_reduce) | apply BoundedRes.ite_ | apply BoundedRes.mkNext
    | exact BoundedRes.mkFault | apply Bounded.ite_ | apply State.keyAllocAt_bounded
    | apply State.keyCmdOf_bounded | refine Bounded.ofSome ?_ (by assumption)
    | refine Bounded.ofSomeP ?_ (by assumption) | refine Bounded.ofPair ?_ (by assumption)
    | refine Bounded.ofPair2 ?_ (by assumption) | refine Bounded.ofPair3 ?_ (by assumption) | split

theorem State.keyRefAt_bounded {s o n} (h0 : Bounded s) : Bounded (State.keyRefAt s o n) := by
  unfold State.keyRefAt
  with_reducible repeat' first
    | assumption | apply Bounded.ite_ | apply State.keyEnd_bounded | apply State.putSlot_bounded

theorem execKeyRef_bounded {o slot s} (h2 : Bounded s) : BoundedRes (execKeyRef o slot s) := by
  unfold execKeyRef
  with_reducible repeat' first
    | assumption | (intro _; try beta_reduce) | apply BoundedRes.ite_ | apply BoundedRes.mkNext
    | exact BoundedRes.mkFault | apply Bounded.ite_ | apply State.keyCmdOf_bounded
    | apply State.keyRefAt_bounded | simp -zeta only [↓Bounded.mk_iff]
    | refine Bounded.ofSome ?_ (by assumption) | refine Bounded.ofSomeP ?_ (by assumption)
    | refine Bounded.ofPair ?_ (by assumption) | refine Bounded.ofPair2 ?_ (by assumption)
    | refine Bounded.ofPair3 ?_ (by assumption) | split
    | (extract_lets +onlyGivenNames s_; refine (fun (_ : Bounded s_) => ?_) ?_; swap; subst s_)
    | (extract_lets +onlyGivenNames s_; clear_value s_) | extract_lets +onlyGivenNames s_

theorem State.keyUnrefAt_bounded {s o n} (h0 : Bounded s) : Bounded (State.keyUnrefAt s o n) := by
  unfold State.keyUnrefAt
  with_reducible repeat' first
    | assumption | apply Bounded.ite_ | apply State.keyEnd_bounded | apply State.putSlot_bounded

theorem execKeyUnref_bounded {o slot s} (h2 : Bounded s) : BoundedRes (execKeyUnref o slot s) := by
  unfold execKeyUnref
  with_reducible repeat' first
    | assumption | (intro _; try beta_reduce) | apply BoundedRes.ite_ | apply BoundedRes.mkNext
    | exact BoundedRes.mkFault | apply Bounded.ite_ | apply State.keyCmdOf_bounded
    | apply State.keyUnrefAt_bounded | simp -zeta only [↓Bounded.mk_iff]
    | refine Bounded.ofSome ?_ (by assumption) | refine Bounded.ofSomeP ?_ (by assumption)
    | refine Bounded.ofPair ?_ (by assumption) | refine Bounded.ofPair2 ?_ (by assumption)
    | refine Bounded.ofPair3 ?_ (by assumption) | split
    | (extract_lets +onlyGivenNames s_; refine (fun (_ : Bounded s_) => ?_) ?_; swap; subst s_)
    | (extract_lets +onlyGivenNames s_; clear_value s_) | extract_lets +onlyGivenNames s_

theorem execKeySucc_bounded {port slot s} (h2 : Bounded s) : BoundedRes (execKeySucc port slot s) := by
  unfold execKeySucc
  with_reducible repeat' first
    | assumption | (intro _; try beta_reduce) | apply BoundedRes.ite_ | apply BoundedRes.mkNext
    | exact BoundedRes.mkFault | apply Bounded.ite_ | apply State.deriveSlot_bounded
    | apply State.keyCmdOf_bounded | apply State.keyEnd_bounded | apply State.mirrorRoots_bounded
    | apply State.putSlot_bounded | simp -zeta only [↓Bounded.mk_iff] | apply Bounded.getD_ | split
    | (extract_lets +onlyGivenNames s_; refine (fun (_ : Bounded s_) => ?_) ?_; swap; subst s_)
    | (extract_lets +onlyGivenNames s_; clear_value s_) | extract_lets +onlyGivenNames s_

theorem execSetLimit_bounded {port slot s} (h2 : Bounded s) : BoundedRes (execSetLimit port slot s) := by
  unfold execSetLimit
  with_reducible repeat' first
    | assumption | (intro _; try beta_reduce) | apply BoundedRes.ite_ | apply BoundedRes.mkNext
    | exact BoundedRes.mkFault | apply Bounded.ite_ | apply State.keyCmdOf_bounded
    | apply State.keyEnd_bounded | apply State.putSlot_bounded | simp -zeta only [↓Bounded.mk_iff] | split
    | (extract_lets +onlyGivenNames s_; refine (fun (_ : Bounded s_) => ?_) ?_; swap; subst s_)
    | (extract_lets +onlyGivenNames s_; clear_value s_) | extract_lets +onlyGivenNames s_

theorem State.teardown_bounded {s n} (h0 : Bounded s) : Bounded (State.teardown s n) := by
  unfold State.teardown
  with_reducible repeat' first
    | assumption | apply State.putSlot_bounded | apply State.withPair_bounded | simp -zeta only [↓Bounded.mk_iff]

theorem execSlotTeardown_bounded {slot s} (h1 : Bounded s) : BoundedRes (execSlotTeardown slot s) := by
  unfold execSlotTeardown
  with_reducible repeat' first
    | assumption | apply BoundedRes.ite_ | apply BoundedRes.mkNext | apply State.teardown_bounded

theorem State.endRewrap_bounded {s} (h0 : Bounded s) : Bounded (State.endRewrap s) := by
  unfold State.endRewrap
  with_reducible repeat' first
    | assumption | (intro _; try beta_reduce) | apply State.emit_bounded | apply foldl_bounded
    | simp -zeta only [↓Bounded.mk_iff]
    | (extract_lets +onlyGivenNames s_; refine (fun (_ : Bounded s_) => ?_) ?_; swap; subst s_)
    | (extract_lets +onlyGivenNames s_; clear_value s_)

theorem execLedgerRewrap_bounded {s} (h0 : Bounded s) : BoundedRes (execLedgerRewrap s) := by
  unfold execLedgerRewrap
  with_reducible repeat' first
    | assumption | apply BoundedRes.ite_ | apply BoundedRes.mkNext | apply State.endRewrap_bounded
    | apply State.startRewrap_bounded

theorem execEsHealthFail_bounded {raw s} (h1 : Bounded s) : BoundedRes (execEsHealthFail raw s) := by
  unfold execEsHealthFail
  with_reducible repeat' first
    | assumption | (intro _; try beta_reduce) | apply BoundedRes.ite_ | apply BoundedRes.mkNext
    | exact BoundedRes.mkFault | apply Bounded.ite_ | apply State.incFld_bounded
    | apply State.record_bounded | simp -zeta only [↓Bounded.mk_iff]
    | refine Bounded.ofSome ?_ (by assumption) | refine Bounded.ofSomeP ?_ (by assumption)
    | refine Bounded.ofPair ?_ (by assumption) | refine Bounded.ofPair2 ?_ (by assumption)
    | refine Bounded.ofPair3 ?_ (by assumption) | split
    | (extract_lets +onlyGivenNames s_; refine (fun (_ : Bounded s_) => ?_) ?_; swap; subst s_)
    | (extract_lets +onlyGivenNames s_; clear_value s_) | extract_lets +onlyGivenNames s_

theorem State.newLcNonce_bounded {s} (h0 : Bounded s) : Bounded (State.newLcNonce s) := by
  unfold State.newLcNonce
  with_reducible repeat' first
    | assumption | (intro _; try beta_reduce) | apply Bounded.ite_ | apply State.drew_bounded
    | apply State.wr_bounded | simp -zeta only [↓Bounded.mk_iff] | split
    | (extract_lets +onlyGivenNames s_; refine (fun (_ : Bounded s_) => ?_) ?_; swap; subst s_)
    | (extract_lets +onlyGivenNames s_; clear_value s_) | extract_lets +onlyGivenNames s_

theorem execDrbgReseed_bounded {s} (h0 : Bounded s) : BoundedRes (execDrbgReseed s) := by
  unfold execDrbgReseed
  with_reducible repeat' first
    | assumption | (intro _; try beta_reduce) | apply BoundedRes.ite_ | apply BoundedRes.mkNext
    | exact BoundedRes.mkFault | apply Bounded.ite_ | apply State.newLcNonce_bounded
    | apply State.reseed_bounded | simp -zeta only [↓Bounded.mk_iff] | split
    | (extract_lets +onlyGivenNames s_; refine (fun (_ : Bounded s_) => ?_) ?_; swap; subst s_)
    | (extract_lets +onlyGivenNames s_; clear_value s_) | extract_lets +onlyGivenNames s_

theorem execStartUpTestPass_bounded {s} (h0 : Bounded s) : BoundedRes (execStartUpTestPass s) := by
  unfold execStartUpTestPass
  with_reducible repeat' first
    | assumption | apply BoundedRes.mkNext | simp -zeta only [↓Bounded.mk_iff]

end Sys2Proof.Machine
end

