-- ==== Sys2Proof/Laws/BoundedWatchOps.lean ====
section
/-! SUPPORT. Every operation of Machine/WatchOps.lean keeps the bounds. -/

namespace Sys2Proof.Machine

theorem State.setWatch_bounded {s w v2_} (h0 : Bounded s) : Bounded (State.setWatch s w v2_) := by
  unfold State.setWatch
  with_reducible repeat' first
    | assumption | simp -zeta only [↓Bounded.mk_iff]

theorem State.crossWatch_bounded {s w chunk} (h0 : Bounded s) : Bounded (State.crossWatch s w chunk) := by
  unfold State.crossWatch
  with_reducible repeat' first
    | assumption | apply State.incFld_bounded | apply State.record_bounded | apply State.setWatch_bounded
    | apply State.wr_bounded

theorem State.watchesDone_bounded {s i st} (h0 : Bounded s) : Bounded (State.watchesDone s i st) := by
  unfold State.watchesDone
  with_reducible repeat' first
    | assumption | (intro _; try beta_reduce) | apply Bounded.ite_ | apply State.crossWatch_bounded
    | apply State.setWatch_bounded | apply foldl_bounded

theorem State.disarm_bounded {s w} (h0 : Bounded s) : Bounded (State.disarm s w) := by
  unfold State.disarm
  with_reducible repeat' first
    | assumption | apply State.setWatch_bounded

theorem State.watchesTake_bounded {s i c chunk content} (h0 : Bounded s) : Bounded (State.watchesTake s i c chunk content) := by
  unfold State.watchesTake
  with_reducible repeat' first
    | assumption | (intro _; try beta_reduce) | apply Bounded.ite_ | apply State.crossWatch_bounded
    | apply State.setWatch_bounded | apply foldl_bounded

end Sys2Proof.Machine
end

