-- ==== Sys2Proof/Laws/BoundedWatch.lean ====
section
/-! SUPPORT. Every operation of Machine/Watch.lean keeps the bounds. -/

namespace Sys2Proof.Machine

theorem State.watchCmd_bounded {s o w op f} (h0 : Bounded s) (h4 : ∀ x0 x1 x2, Bounded x2 → Bounded (f x0 x1 x2)) : Bounded (State.watchCmd s o w op f) := by
  unfold State.watchCmd
  with_reducible repeat' first
    | assumption | (intro _; try beta_reduce) | apply Bounded.ite_ | apply State.ownerCmd_bounded
    | apply State.setFld_bounded | apply State.svcCmd_bounded | apply State.svcDone_bounded | apply h4 | split

theorem State.watchEnd_bounded {s o code r0} (h0 : Bounded s) : Bounded (State.watchEnd s o code r0) := by
  unfold State.watchEnd
  with_reducible repeat' first
    | assumption | apply Bounded.ite_ | apply State.engineEnd_bounded | apply State.incFld_bounded

theorem execWatchArm_bounded {o w s} (h2 : Bounded s) : BoundedRes (execWatchArm o w s) := by
  unfold execWatchArm
  with_reducible repeat' first
    | assumption | (intro _; try beta_reduce) | apply Bounded.ite_ | apply BoundedRes.mkNext
    | apply State.setWatch_bounded | apply State.svcDone_bounded | apply State.watchCmd_bounded
    | apply State.watchEnd_bounded | split

theorem execWatchRead_bounded {o w s} (h2 : Bounded s) : BoundedRes (execWatchRead o w s) := by
  unfold execWatchRead
  with_reducible repeat' first
    | assumption | (intro _; try beta_reduce) | apply Bounded.ite_ | apply BoundedRes.mkNext
    | apply State.charged_bounded | apply State.finishDst_bounded | apply State.svcDone_bounded
    | apply State.watchCmd_bounded | apply State.watchEnd_bounded | apply State.wr_bounded | apply foldl_bounded
    | split

theorem execWatchDisarm_bounded {o w s} (h2 : Bounded s) : BoundedRes (execWatchDisarm o w s) := by
  unfold execWatchDisarm
  with_reducible repeat' first
    | assumption | (intro _; try beta_reduce) | apply Bounded.ite_ | apply BoundedRes.mkNext
    | apply State.disarm_bounded | apply State.watchCmd_bounded | apply State.watchEnd_bounded

theorem State.tokCmd_bounded {s o t op f} (h0 : Bounded s) (h4 : ∀ x0 x1 x2, Bounded x2 → Bounded (f x0 x1 x2)) : Bounded (State.tokCmd s o t op f) := by
  unfold State.tokCmd
  with_reducible repeat' first
    | assumption | (intro _; try beta_reduce) | apply Bounded.ite_ | apply State.ownerCmd_bounded
    | apply State.setFld_bounded | apply State.svcCmd_bounded | apply State.svcDone_bounded | apply h4 | split

theorem execTokOpen_bounded {o t s} (h2 : Bounded s) : BoundedRes (execTokOpen o t s) := by
  unfold execTokOpen
  with_reducible repeat' first
    | assumption | (intro _; try beta_reduce) | apply Bounded.ite_ | apply BoundedRes.mkNext
    | apply State.setTok_bounded | apply State.svcDone_bounded | apply State.tokCmd_bounded
    | apply State.tokEnd_bounded | split

theorem State.tokSettle_bounded {s t} (h0 : Bounded s) : Bounded (State.tokSettle s t) := by
  unfold State.tokSettle
  with_reducible repeat' first
    | assumption | (intro _; try beta_reduce) | apply Bounded.ite_ | apply State.setTok_bounded
    | apply State.tokEnd_bounded | simp -zeta only [↓Bounded.mk_iff]
    | refine Bounded.ofSome ?_ (by assumption) | refine Bounded.ofSomeP ?_ (by assumption)
    | refine Bounded.ofPair ?_ (by assumption) | refine Bounded.ofPair2 ?_ (by assumption)
    | refine Bounded.ofPair3 ?_ (by assumption) | split
    | (extract_lets +onlyGivenNames s_; refine (fun (_ : Bounded s_) => ?_) ?_; swap; subst s_)
    | (extract_lets +onlyGivenNames s_; clear_value s_) | extract_lets +onlyGivenNames s_

theorem State.tokClose_bounded {s t o} (h0 : Bounded s) : Bounded (State.tokClose s t o) := by
  unfold State.tokClose
  with_reducible repeat' first
    | assumption | (intro _; try beta_reduce) | apply Bounded.ite_ | apply State.setTok_bounded
    | apply State.tokSettle_bounded | simp -zeta only [↓Bounded.mk_iff]
    | refine Bounded.ofSome ?_ (by assumption) | refine Bounded.ofSomeP ?_ (by assumption)
    | refine Bounded.ofPair ?_ (by assumption) | refine Bounded.ofPair2 ?_ (by assumption)
    | refine Bounded.ofPair3 ?_ (by assumption) | split
    | (extract_lets +onlyGivenNames s_; refine (fun (_ : Bounded s_) => ?_) ?_; swap; subst s_)
    | (extract_lets +onlyGivenNames s_; clear_value s_) | extract_lets +onlyGivenNames s_

theorem execTokClose_bounded {o t s} (h2 : Bounded s) : BoundedRes (execTokClose o t s) := by
  unfold execTokClose
  with_reducible repeat' first
    | assumption | (intro _; try beta_reduce) | apply BoundedRes.ite_ | apply BoundedRes.mkNext
    | exact BoundedRes.mkFault | apply Bounded.ite_ | apply State.setFld_bounded
    | apply State.tokClose_bounded | apply State.tokCmd_bounded | apply State.tokEnd_bounded
    | simp -zeta only [↓Bounded.mk_iff] | refine Bounded.ofSome ?_ (by assumption)
    | refine Bounded.ofSomeP ?_ (by assumption) | refine Bounded.ofPair ?_ (by assumption)
    | refine Bounded.ofPair2 ?_ (by assumption) | refine Bounded.ofPair3 ?_ (by assumption) | split
    | (extract_lets +onlyGivenNames s_; refine (fun (_ : Bounded s_) => ?_) ?_; swap; subst s_)
    | (extract_lets +onlyGivenNames s_; clear_value s_) | extract_lets +onlyGivenNames s_

theorem execTokRead_bounded {o t s} (h2 : Bounded s) : BoundedRes (execTokRead o t s) := by
  unfold execTokRead
  with_reducible repeat' first
    | assumption | (intro _; try beta_reduce) | apply Bounded.ite_ | apply BoundedRes.mkNext
    | apply State.charged_bounded | apply State.finishDst_bounded | apply State.svcDone_bounded
    | apply State.tokCmd_bounded | apply State.tokEnd_bounded | apply State.wr_bounded | apply foldl_bounded | split

theorem execTokFree_bounded {o t s} (h2 : Bounded s) : BoundedRes (execTokFree o t s) := by
  unfold execTokFree
  with_reducible repeat' first
    | assumption | (intro _; try beta_reduce) | apply BoundedRes.ite_ | apply BoundedRes.mkNext
    | exact BoundedRes.mkFault | apply Bounded.ite_ | apply State.setTok_bounded
    | apply State.tokCmd_bounded | apply State.tokEnd_bounded | split
    | (extract_lets +onlyGivenNames s_; refine (fun (_ : Bounded s_) => ?_) ?_; swap; subst s_)
    | (extract_lets +onlyGivenNames s_; clear_value s_) | extract_lets +onlyGivenNames s_

theorem execTokenRecordChained_bounded {t r s} (h2 : Bounded s) : BoundedRes (execTokenRecordChained t r s) := by
  unfold execTokenRecordChained
  with_reducible repeat' first
    | assumption | (intro _; try beta_reduce) | apply BoundedRes.ite_ | apply BoundedRes.mkNext
    | exact BoundedRes.mkFault | apply Bounded.ite_ | apply State.count_bounded | apply State.setTok_bounded
    | apply State.spend_bounded | apply State.tokSettle_bounded | apply State.withhold_bounded
    | simp -zeta only [↓Bounded.mk_iff] | apply Bounded.getD_ | split
    | (extract_lets +onlyGivenNames s_; refine (fun (_ : Bounded s_) => ?_) ?_; swap; subst s_)
    | (extract_lets +onlyGivenNames s_; clear_value s_) | extract_lets +onlyGivenNames s_

end Sys2Proof.Machine
end

