-- ==== Sys2Proof/Laws/BoundedSheaf.lean ====
section
/-! SUPPORT. Every operation of Machine/Sheaf.lean keeps the bounds. -/

namespace Sys2Proof.Machine

theorem State.withShf_bounded {s v1_} (h0 : Bounded s) : Bounded (State.withShf s v1_) := by
  unfold State.withShf
  with_reducible repeat' first
    | assumption | simp -zeta only [↓Bounded.mk_iff]

theorem State.dropSheaf_bounded {s q k} (h0 : Bounded s) : Bounded (State.dropSheaf s q k) := by
  unfold State.dropSheaf
  with_reducible repeat' first
    | assumption | apply State.withShf_bounded

theorem State.startSigning_bounded {s time} (h0 : Bounded s) : Bounded (State.startSigning s time) := by
  unfold State.startSigning
  with_reducible repeat' first
    | assumption | (intro _; try beta_reduce) | apply Bounded.ite_ | apply State.mirrorRoots_bounded
    | apply State.setFld_bounded | apply State.withShf_bounded | simp -zeta only [↓Bounded.mk_iff]
    | refine Bounded.ofSome ?_ (by assumption) | refine Bounded.ofSomeP ?_ (by assumption)
    | refine Bounded.ofPair ?_ (by assumption) | refine Bounded.ofPair2 ?_ (by assumption)
    | refine Bounded.ofPair3 ?_ (by assumption) | split
    | (extract_lets +onlyGivenNames s_; refine (fun (_ : Bounded s_) => ?_) ?_; swap; subst s_)
    | (extract_lets +onlyGivenNames s_; clear_value s_) | extract_lets +onlyGivenNames s_

theorem State.closeStook_bounded {s} (h0 : Bounded s) : Bounded (State.closeStook s) := by
  unfold State.closeStook
  with_reducible repeat' first
    | assumption | apply Bounded.ite_ | apply State.startSigning_bounded | apply State.withShf_bounded

theorem execFlush_bounded {port s} (h1 : Bounded s) : BoundedRes (execFlush port s) := by
  unfold execFlush
  with_reducible repeat' first
    | assumption | (intro _; try beta_reduce) | apply BoundedRes.mkNext | apply State.closeStook_bounded
    | apply State.ownerCmd_bounded

theorem State.sheafDone_bounded {s q k status detail} (h0 : Bounded s) : Bounded (State.sheafDone s q k status detail) := by
  unfold State.sheafDone
  with_reducible repeat' first
    | assumption | (intro _; try beta_reduce) | apply Bounded.ite_ | apply State.svcDone_bounded | split

theorem execSheaf_bounded {q k r s} (h3 : Bounded s) : BoundedRes (execSheaf q k r s) := by
  unfold execSheaf
  with_reducible repeat' first
    | assumption | (intro _; try beta_reduce) | apply Bounded.ite_ | apply BoundedRes.mkNext
    | apply State.sheafDone_bounded | apply State.svcCmd_bounded | apply State.withShf_bounded
    | simp -zeta only [↓Bounded.mk_iff] | split | (extract_lets +onlyGivenNames s_; clear_value s_)

theorem State.sheafCloses_bounded {s j} (h0 : Bounded s) : Bounded (State.sheafCloses s j) := by
  unfold State.sheafCloses
  with_reducible repeat' first
    | assumption | (intro _; try beta_reduce) | apply Bounded.ite_ | apply State.tokClose_bounded
    | apply foldl_bounded | split
    | (extract_lets +onlyGivenNames s_; refine (fun (_ : Bounded s_) => ?_) ?_; swap; subst s_)
    | (extract_lets +onlyGivenNames s_; clear_value s_) | extract_lets +onlyGivenNames s_

theorem State.appendSheaf_bounded {s j} (h0 : Bounded s) : Bounded (State.appendSheaf s j) := by
  unfold State.appendSheaf
  with_reducible repeat' first
    | assumption | apply Bounded.ite_ | apply State.count_bounded | apply State.drew_bounded
    | apply State.freed_bounded | apply State.incFld_bounded | apply State.withShf_bounded

theorem execSheafAppend_bounded {q k s} (h2 : Bounded s) : BoundedRes (execSheafAppend q k s) := by
  unfold execSheafAppend
  with_reducible repeat' first
    | assumption | apply BoundedRes.ite_ | apply BoundedRes.mkNext | apply State.appendSheaf_bounded
    | apply State.sheafCloses_bounded | split

theorem State.dueStook_bounded {s} (h0 : Bounded s) : Bounded (State.dueStook s) := by
  unfold State.dueStook
  with_reducible repeat' first
    | assumption | apply Bounded.ite_ | apply State.startSigning_bounded | split

theorem execStookClose_bounded {s} (h0 : Bounded s) : BoundedRes (execStookClose s) := by
  unfold execStookClose
  with_reducible repeat' first
    | assumption | apply BoundedRes.ite_ | apply BoundedRes.mkNext | apply State.closeStook_bounded
    | apply State.dueStook_bounded

theorem execMaxwaitExpiry_bounded {s} (h0 : Bounded s) : BoundedRes (execMaxwaitExpiry s) := by
  unfold execMaxwaitExpiry
  with_reducible repeat' first
    | assumption | apply BoundedRes.mkNext | apply State.closeStook_bounded

theorem State.stookRecord_bounded {s g} (h0 : Bounded s) : BoundedPair (State.stookRecord s g) := by
  unfold State.stookRecord
  with_reducible repeat' first
    | assumption | apply BoundedPair.ite_ | apply BoundedPair.mk_ | apply State.signBoth_bounded2
theorem State.stookRecord_bounded2 {s g} (h0 : Bounded s) : Bounded (State.stookRecord s g).2 := BoundedPair.of_snd (State.stookRecord_bounded h0)

theorem State.writeBundle_bounded {s g rec_ m j} (h0 : Bounded s) : Bounded (State.writeBundle s g rec_ m j) := by
  unfold State.writeBundle
  with_reducible repeat' first
    | assumption | apply Bounded.ite_ | apply State.maintBytes_bounded2 | apply State.sheafDone_bounded
    | apply State.svcDone_bounded | apply State.withShf_bounded

theorem execStookSigned_bounded {s} (h0 : Bounded s) : BoundedRes (execStookSigned s) := by
  unfold execStookSigned
  with_reducible repeat' first
    | assumption | (intro _; try beta_reduce) | apply BoundedRes.ite_ | apply BoundedRes.mkNext
    | exact BoundedRes.mkFault | apply Bounded.ite_ | apply State.count_bounded
    | apply State.dueStook_bounded | apply State.stookRecord_bounded | apply State.stookRecord_bounded2
    | apply State.withShf_bounded | apply State.writeBundle_bounded | apply foldl_bounded
    | simp -zeta only [↓Bounded.mk_iff] | simp -zeta only [↓Bounded.mk_iffO, ↓Bounded.mk_iffF]
    | refine Bounded.ofSome ?_ (by assumption) | refine Bounded.ofSomeP ?_ (by assumption)
    | refine Bounded.ofPair ?_ (by assumption) | refine Bounded.ofPair2 ?_ (by assumption)
    | refine Bounded.ofPair3 ?_ (by assumption) | split
    | (extract_lets +onlyGivenNames s_; refine (fun (_ : Bounded s_) => ?_) ?_; swap; subst s_)
    | (extract_lets +onlyGivenNames s_; clear_value s_) | extract_lets +onlyGivenNames s_

end Sys2Proof.Machine
end

