-- ==== Sys2Proof/Laws/BoundedStavub.lean ====
section
/-! SUPPORT. Every operation of Machine/Stavub.lean keeps the bounds. -/

namespace Sys2Proof.Machine

theorem State.stvCmd_bounded {s cmd o i op f} (h0 : Bounded s) (h5 : ∀ x0 x1, Bounded x1 → Bounded (f x0 x1)) : Bounded (State.stvCmd s cmd o i op f) := by
  unfold State.stvCmd
  with_reducible repeat' first
    | assumption | (intro _; try beta_reduce) | apply Bounded.ite_ | apply h5 | apply State.queueCmd_bounded
    | apply State.regCmd_bounded | apply State.setFld_bounded | apply State.svcDone_bounded
    | refine Bounded.ofSome ?_ (by assumption) | refine Bounded.ofSomeP ?_ (by assumption)
    | refine Bounded.ofPair ?_ (by assumption) | refine Bounded.ofPair2 ?_ (by assumption)
    | refine Bounded.ofPair3 ?_ (by assumption) | split
    | (extract_lets +onlyGivenNames s_; refine (fun (_ : Bounded s_) => ?_) ?_; swap; subst s_)
    | (extract_lets +onlyGivenNames s_; clear_value s_) | extract_lets +onlyGivenNames s_

theorem State.stvEnd_bounded {s o code r0 r1} (h0 : Bounded s) : Bounded (State.stvEnd s o code r0 r1) := by
  unfold State.stvEnd
  with_reducible repeat' first
    | assumption | apply State.engineEnd_bounded

theorem State.setCtx_bounded {s i c} (h0 : Bounded s) : Bounded (State.setCtx s i c) := by
  unfold State.setCtx
  with_reducible repeat' first
    | assumption | apply Bounded.ite_ | apply State.trace_bounded | apply State.watchesDone_bounded
    | apply State.withStv_bounded

theorem execStvOpen_bounded {o ctx r s} (h3 : Bounded s) : BoundedRes (execStvOpen o ctx r s) := by
  unfold execStvOpen
  with_reducible repeat' first
    | assumption | (intro _; try beta_reduce) | apply BoundedRes.ite_ | apply BoundedRes.mkNext
    | exact BoundedRes.mkFault | apply Bounded.ite_ | apply State.setCtx_bounded
    | apply State.stvCmd_bounded | apply State.stvEnd_bounded | apply State.svcDone_bounded
    | refine Bounded.ofSome ?_ (by assumption) | refine Bounded.ofSomeP ?_ (by assumption)
    | refine Bounded.ofPair ?_ (by assumption) | refine Bounded.ofPair2 ?_ (by assumption)
    | refine Bounded.ofPair3 ?_ (by assumption) | split
    | (extract_lets +onlyGivenNames s_; refine (fun (_ : Bounded s_) => ?_) ?_; swap; subst s_)
    | (extract_lets +onlyGivenNames s_; clear_value s_) | extract_lets +onlyGivenNames s_

theorem execStvClose_bounded {o ctx s} (h2 : Bounded s) : BoundedRes (execStvClose o ctx s) := by
  unfold execStvClose
  with_reducible repeat' first
    | assumption | (intro _; try beta_reduce) | apply BoundedRes.ite_ | apply BoundedRes.mkNext
    | exact BoundedRes.mkFault | apply Bounded.ite_ | apply State.setCtx_bounded
    | apply State.stvCmd_bounded | apply State.stvEnd_bounded | apply State.withStv_bounded
    | simp -zeta only [↓Bounded.mk_iff] | split
    | (extract_lets +onlyGivenNames s_; refine (fun (_ : Bounded s_) => ?_) ?_; swap; subst s_)
    | (extract_lets +onlyGivenNames s_; clear_value s_) | extract_lets +onlyGivenNames s_

theorem execStvRead_bounded {o ctx s} (h2 : Bounded s) : BoundedRes (execStvRead o ctx s) := by
  unfold execStvRead
  with_reducible repeat' first
    | assumption | (intro _; try beta_reduce) | apply BoundedRes.ite_ | apply BoundedRes.mkNext
    | exact BoundedRes.mkFault | apply Bounded.ite_ | apply State.charged_bounded
    | apply State.finishDst_bounded | apply State.stvCmd_bounded | apply State.stvEnd_bounded
    | apply State.svcDone_bounded | apply State.wr_bounded | apply foldl_bounded
    | refine Bounded.ofSome ?_ (by assumption) | refine Bounded.ofSomeP ?_ (by assumption)
    | refine Bounded.ofPair ?_ (by assumption) | refine Bounded.ofPair2 ?_ (by assumption)
    | refine Bounded.ofPair3 ?_ (by assumption) | split
    | (extract_lets +onlyGivenNames s_; refine (fun (_ : Bounded s_) => ?_) ?_; swap; subst s_)
    | (extract_lets +onlyGivenNames s_; clear_value s_) | extract_lets +onlyGivenNames s_

theorem State.freeCtx_bounded {s i} (h0 : Bounded s) : Bounded (State.freeCtx s i) := by
  unfold State.freeCtx
  with_reducible repeat' first
    | assumption | apply Bounded.ite_ | apply State.trace_bounded | apply State.watchesDone_bounded
    | apply State.withStv_bounded

theorem execStvFree_bounded {o ctx s} (h2 : Bounded s) : BoundedRes (execStvFree o ctx s) := by
  unfold execStvFree
  with_reducible repeat' first
    | assumption | (intro _; try beta_reduce) | apply BoundedRes.ite_ | apply BoundedRes.mkNext
    | exact BoundedRes.mkFault | apply Bounded.ite_ | apply State.freeCtx_bounded
    | apply State.stvCmd_bounded | apply State.stvEnd_bounded | split

theorem State.withhold__bounded {s i chunk why} (h0 : Bounded s) : Bounded (State.withhold_ s i chunk why) := by
  unfold State.withhold_
  with_reducible repeat' first
    | assumption | apply State.count_bounded | apply State.setCtx_bounded | apply State.withStv_bounded

theorem State.commitSegs_bounded {s step} (h0 : Bounded s) : Bounded (State.commitSegs s step) := by
  unfold State.commitSegs
  with_reducible repeat' first
    | assumption | (intro _; try beta_reduce) | apply Bounded.ite_ | apply State.withStv_bounded
    | apply State.withhold__bounded | apply foldl_bounded | simp -zeta only [↓Bounded.mk_iff] | split
    | (extract_lets +onlyGivenNames s_; refine (fun (_ : Bounded s_) => ?_) ?_; swap; subst s_)
    | (extract_lets +onlyGivenNames s_; clear_value s_) | extract_lets +onlyGivenNames s_

theorem State.addSeg_bounded {s v1_ i d} (h0 : Bounded s) : Bounded (State.addSeg s v1_ i d) := by
  unfold State.addSeg
  with_reducible repeat' first
    | assumption | apply State.withStv_bounded

theorem State.armSeg_bounded {s i d} (h0 : Bounded s) : Bounded (State.armSeg s i d) := by
  unfold State.armSeg
  with_reducible repeat' first
    | assumption | apply Bounded.ite_ | apply State.addSeg_bounded | apply State.setCtx_bounded
    | apply State.withhold__bounded | split | (extract_lets +onlyGivenNames s_; clear_value s_)

theorem execChunkDescriptor_bounded {d s} (h1 : Bounded s) : BoundedRes (execChunkDescriptor d s) := by
  unfold execChunkDescriptor
  with_reducible repeat' first
    | assumption | apply BoundedRes.ite_ | apply BoundedRes.mkNext | apply State.armSeg_bounded
    | apply State.incFld_bounded | apply State.setCtx_bounded

theorem State.setSeg_bounded {s g} (h0 : Bounded s) : Bounded (State.setSeg s g) := by
  unfold State.setSeg
  with_reducible repeat' first
    | assumption | apply State.withStv_bounded

theorem execScanRead_bounded {seg r s} (h2 : Bounded s) : BoundedRes (execScanRead seg r s) := by
  unfold execScanRead
  with_reducible repeat' first
    | assumption | (intro _; try beta_reduce) | apply BoundedRes.ite_ | apply BoundedRes.mkNext
    | exact BoundedRes.mkFault | apply Bounded.ite_ | apply State.setSeg_bounded
    | apply State.withhold__bounded | refine Bounded.ofSome ?_ (by assumption)
    | refine Bounded.ofSomeP ?_ (by assumption) | refine Bounded.ofPair ?_ (by assumption)
    | refine Bounded.ofPair2 ?_ (by assumption) | refine Bounded.ofPair3 ?_ (by assumption) | split

theorem State.fetchFail_bounded {s g} (h0 : Bounded s) : Bounded (State.fetchFail s g) := by
  unfold State.fetchFail
  with_reducible repeat' first
    | assumption | apply State.incFld_bounded | apply State.withhold__bounded

theorem execStraddleFetch_bounded {seg s} (h1 : Bounded s) : BoundedRes (execStraddleFetch seg s) := by
  unfold execStraddleFetch
  with_reducible repeat' first
    | assumption | (intro _; try beta_reduce) | apply BoundedRes.ite_ | apply BoundedRes.mkNext
    | exact BoundedRes.mkFault | apply Bounded.ite_ | apply State.fabSend_bounded
    | apply State.fetchFail_bounded | apply State.setSeg_bounded | simp -zeta only [↓Bounded.mk_iff]
    | refine Bounded.ofSome ?_ (by assumption) | refine Bounded.ofSomeP ?_ (by assumption)
    | refine Bounded.ofPair ?_ (by assumption) | refine Bounded.ofPair2 ?_ (by assumption)
    | refine Bounded.ofPair3 ?_ (by assumption) | split
    | (extract_lets +onlyGivenNames s_; refine (fun (_ : Bounded s_) => ?_) ?_; swap; subst s_)
    | (extract_lets +onlyGivenNames s_; clear_value s_) | extract_lets +onlyGivenNames s_

theorem execStraddleFetchDone_bounded {seg r s} (h2 : Bounded s) : BoundedRes (execStraddleFetchDone seg r s) := by
  unfold execStraddleFetchDone
  with_reducible repeat' first
    | assumption | apply BoundedRes.ite_ | apply BoundedRes.mkNext | apply State.fetchFail_bounded
    | apply State.setSeg_bounded | split

theorem execStraddleFetchTimeout_bounded {seg s} (h1 : Bounded s) : BoundedRes (execStraddleFetchTimeout seg s) := by
  unfold execStraddleFetchTimeout
  with_reducible repeat' first
    | assumption | apply BoundedRes.ite_ | apply BoundedRes.mkNext | apply State.fetchFail_bounded | split

theorem execChunkDispatch_bounded {c s} (h1 : Bounded s) : BoundedRes (execChunkDispatch c s) := by
  unfold execChunkDispatch
  with_reducible repeat' first
    | assumption | (intro _; try beta_reduce) | apply BoundedRes.ite_ | apply BoundedRes.mkNext
    | exact BoundedRes.mkFault | apply Bounded.ite_ | apply State.spend_bounded
    | apply State.withStv_bounded | apply State.withhold_bounded | simp -zeta only [↓Bounded.mk_iff]
    | refine Bounded.ofSome ?_ (by assumption) | refine Bounded.ofSomeP ?_ (by assumption)
    | refine Bounded.ofPair ?_ (by assumption) | refine Bounded.ofPair2 ?_ (by assumption)
    | refine Bounded.ofPair3 ?_ (by assumption) | split
    | (extract_lets +onlyGivenNames s_; refine (fun (_ : Bounded s_) => ?_) ?_; swap; subst s_)
    | (extract_lets +onlyGivenNames s_; clear_value s_) | extract_lets +onlyGivenNames s_

theorem State.hashAsm_bounded {s a} (h0 : Bounded s) : Bounded (State.hashAsm s a) := by
  unfold State.hashAsm
  with_reducible repeat' first
    | assumption | (intro _; try beta_reduce) | apply Bounded.ite_ | apply State.count_bounded
    | apply State.setCtx_bounded | apply State.watchesTake_bounded | apply State.withStv_bounded
    | apply Bounded.id_ | simp -zeta only [↓Bounded.mk_iff] | split
    | (extract_lets +onlyGivenNames s_; refine (fun (_ : Bounded s_) => ?_) ?_; swap; subst s_)
    | (extract_lets +onlyGivenNames s_; clear_value s_) | extract_lets +onlyGivenNames s_

theorem execChunkHashed_bounded {core s} (h1 : Bounded s) : BoundedRes (execChunkHashed core s) := by
  unfold execChunkHashed
  with_reducible repeat' first
    | assumption | apply BoundedRes.mkNext | apply State.hashAsm_bounded | split

theorem State.ctxFinal_bounded {s i} (h0 : Bounded s) : Bounded (State.ctxFinal s i) := by
  unfold State.ctxFinal
  with_reducible repeat' first
    | assumption | apply State.setCtx_bounded

theorem State.ctxIncomplete_bounded {s i} (h0 : Bounded s) : Bounded (State.ctxIncomplete s i) := by
  unfold State.ctxIncomplete
  with_reducible repeat' first
    | assumption | apply State.setCtx_bounded

theorem State.sendStavub_bounded {s name dest rec_} (h0 : Bounded s) : Bounded (State.sendStavub s name dest rec_) := by
  unfold State.sendStavub
  with_reducible repeat' first
    | assumption | apply State.emit_bounded | apply State.sendCtl_bounded

theorem State.sendFinal_bounded {s i units} (h0 : Bounded s) : Bounded (State.sendFinal s i units) := by
  unfold State.sendFinal
  with_reducible repeat' first
    | assumption | (intro _; try beta_reduce) | apply State.sendStavub_bounded | apply foldl_bounded

theorem State.gatherSettle_bounded {s i} (h0 : Bounded s) : Bounded (State.gatherSettle s i) := by
  unfold State.gatherSettle
  with_reducible repeat' first
    | assumption | apply Bounded.ite_ | apply State.ctxFinal_bounded | apply State.ctxIncomplete_bounded
    | apply State.sendFinal_bounded

theorem State.finishCtx_bounded {s i} (h0 : Bounded s) : Bounded (State.finishCtx s i) := by
  unfold State.finishCtx
  with_reducible repeat' first
    | assumption | apply Bounded.ite_ | apply State.ctxFinal_bounded | apply State.ctxIncomplete_bounded
    | apply State.gatherSettle_bounded | apply State.sendStavub_bounded | apply State.setCtx_bounded
    | apply State.withStv_bounded

theorem execContextFinish_bounded {ctx s} (h1 : Bounded s) : BoundedRes (execContextFinish ctx s) := by
  unfold execContextFinish
  with_reducible repeat' first
    | assumption | apply BoundedRes.mkNext | apply State.finishCtx_bounded

theorem execPartialRecord_bounded {rec s} (h1 : Bounded s) : BoundedRes (execPartialRecord rec s) := by
  unfold execPartialRecord
  with_reducible repeat' first
    | assumption | apply BoundedRes.ite_ | apply BoundedRes.mkNext | apply State.count_bounded
    | apply State.gatherSettle_bounded | apply State.incFld_bounded | apply State.sendFinal_bounded
    | apply State.setCtx_bounded | split

theorem execFinalRecord_bounded {rec s} (h1 : Bounded s) : BoundedRes (execFinalRecord rec s) := by
  unfold execFinalRecord
  with_reducible repeat' first
    | assumption | (intro _; try beta_reduce) | apply Bounded.ite_ | apply BoundedRes.ite_ | apply BoundedRes.mkNext
    | apply State.incFld_bounded | apply State.setCtx_bounded | apply foldl_bounded

theorem execGatherTimeout_bounded {ctx s} (h1 : Bounded s) : BoundedRes (execGatherTimeout ctx s) := by
  unfold execGatherTimeout
  with_reducible repeat' first
    | assumption | apply BoundedRes.ite_ | apply BoundedRes.mkNext | apply State.ctxIncomplete_bounded
    | apply State.sendFinal_bounded | apply State.setCtx_bounded

theorem State.resetStavub_bounded {s} (h0 : Bounded s) : Bounded (State.resetStavub s) := by
  unfold State.resetStavub
  with_reducible repeat' first
    | assumption | (intro _; try beta_reduce) | apply Bounded.ite_ | apply State.freeCtx_bounded
    | apply foldl_bounded | split

end Sys2Proof.Machine
end

