-- ==== Sys2Proof/Laws/BoundedInstOps.lean ====
section
/-! SUPPORT. Every operation of Machine/InstOps.lean keeps the bounds. -/

namespace Sys2Proof.Machine

theorem State.settleQueue_bounded {s q} (h0 : Bounded s) : Bounded (State.settleQueue s q) := by
  unfold State.settleQueue
  with_reducible repeat' first
    | assumption | apply Bounded.ite_ | apply State.setQueue_bounded

theorem State.forget_bounded {s q k} (h0 : Bounded s) : Bounded (State.forget s q k) := by
  unfold State.forget
  with_reducible repeat' first
    | assumption | simp -zeta only [↓Bounded.mk_iff]
    | (extract_lets +onlyGivenNames s_; have _x : _ → _ := s_; clear _x)
    | (extract_lets +onlyGivenNames s_; clear_value s_)

theorem State.abortCmd_bounded {s q k status detail} (h0 : Bounded s) : Bounded (State.abortCmd s q k status detail) := by
  unfold State.abortCmd
  with_reducible repeat' first
    | assumption | apply Bounded.ite_ | apply State.dropSheaf_bounded | apply State.forget_bounded
    | apply State.svcDone_bounded | apply State.withMem_bounded | split

theorem State.abortQueue_bounded {s q} (h0 : Bounded s) : Bounded (State.abortQueue s q) := by
  unfold State.abortQueue
  with_reducible repeat' first
    | assumption | (intro _; try beta_reduce) | apply State.abortCmd_bounded | apply foldl_bounded

theorem State.abortChan_bounded {s c} (h0 : Bounded s) : Bounded (State.abortChan s c) := by
  unfold State.abortChan
  with_reducible repeat' first
    | assumption | (intro _; try beta_reduce) | apply Bounded.ite_ | apply State.setChan_bounded
    | apply State.withMem_bounded | simp -zeta only [↓Bounded.mk_iff]
    | refine Bounded.ofSome ?_ (by assumption) | refine Bounded.ofSomeP ?_ (by assumption)
    | refine Bounded.ofPair ?_ (by assumption) | refine Bounded.ofPair2 ?_ (by assumption)
    | refine Bounded.ofPair3 ?_ (by assumption) | split
    | (extract_lets +onlyGivenNames s_; refine (fun (_ : Bounded s_) => ?_) ?_; swap; subst s_)
    | (extract_lets +onlyGivenNames s_; clear_value s_) | extract_lets +onlyGivenNames s_

theorem State.endSession_bounded {s m} (h0 : Bounded s) : Bounded (State.endSession s m) := by
  unfold State.endSession
  with_reducible repeat' first
    | assumption | (intro _; try beta_reduce) | apply Bounded.ite_ | apply State.putSlot_bounded
    | apply State.setFld_bounded | apply State.wr_bounded | apply foldl_bounded | simp -zeta only [↓Bounded.mk_iff]
    | split

theorem State.partTrace_bounded {s p kind result} (h0 : Bounded s) : Bounded (State.partTrace s p kind result) := by
  unfold State.partTrace
  with_reducible repeat' first
    | assumption | apply State.trace_bounded

theorem State.putEntry_bounded {s part addr b} (h0 : Bounded s) : BoundedPair (State.putEntry s part addr b) := by
  unfold State.putEntry
  with_reducible repeat' first
    | assumption | (intro _; try beta_reduce) | apply BoundedPair.ite_ | apply BoundedPair.mk_
    | apply Bounded.ite_ | apply State.engineLine_bounded | apply State.engineLine_bounded2
    | apply State.freed_bounded | split
    | (extract_lets +onlyGivenNames s_; refine (fun (_ : Bounded s_) => ?_) ?_; swap; subst s_)
    | (extract_lets +onlyGivenNames s_; clear_value s_) | extract_lets +onlyGivenNames s_
theorem State.putEntry_bounded2 {s part addr b} (h0 : Bounded s) : Bounded (State.putEntry s part addr b).2 := BoundedPair.of_snd (State.putEntry_bounded h0)

theorem State.putRecord_bounded {s q c} (h0 : Bounded s) : BoundedPair (State.putRecord s q c) := by
  unfold State.putRecord
  with_reducible repeat' first
    | assumption | (intro _; try beta_reduce) | apply BoundedPair.ite_ | apply BoundedPair.mk_
    | apply Bounded.ite_ | apply State.chargeHost_bounded | apply State.hostWrite_bounded
    | apply State.logHost_bounded | apply State.putEntry_bounded | apply State.putEntry_bounded2
    | apply State.setBinding_bounded | simp -zeta only [↓Bounded.mk_iff]
    | refine Bounded.ofSome ?_ (by assumption) | refine Bounded.ofSomeP ?_ (by assumption)
    | refine Bounded.ofPair ?_ (by assumption) | refine Bounded.ofPair2 ?_ (by assumption)
    | refine Bounded.ofPair3 ?_ (by assumption) | split
    | (extract_lets +onlyGivenNames s_; refine (fun (_ : Bounded s_) => ?_) ?_; swap; subst s_)
    | (extract_lets +onlyGivenNames s_; clear_value s_) | extract_lets +onlyGivenNames s_
theorem State.putRecord_bounded2 {s q c} (h0 : Bounded s) : Bounded (State.putRecord s q c).2 := BoundedPair.of_snd (State.putRecord_bounded h0)

theorem State.dropCmd_bounded {s q c} (h0 : Bounded s) : Bounded (State.dropCmd s q c) := by
  unfold State.dropCmd
  with_reducible repeat' first
    | assumption | apply Bounded.ite_ | apply State.incFld_bounded | apply State.setQueue_bounded
    | apply State.settleQueue_bounded

theorem State.endRecord_bounded {s q c} (h0 : Bounded s) : Bounded (State.endRecord s q c) := by
  unfold State.endRecord
  with_reducible repeat' first
    | assumption | apply Bounded.ite_ | apply State.count_bounded | apply State.dropCmd_bounded
    | apply State.emit_bounded | apply State.setQueue_bounded

theorem State.endXfer_bounded {s c f} (h0 : Bounded s) : Bounded (State.endXfer s c f) := by
  unfold State.endXfer
  with_reducible repeat' first
    | assumption | (intro _; try beta_reduce) | apply Bounded.ite_ | apply State.countArrival_bounded
    | apply State.putEntry_bounded | apply State.putEntry_bounded2 | apply State.setActr_bounded
    | apply State.setChan_bounded | simp -zeta only [↓Bounded.mk_iff]
    | refine Bounded.ofSome ?_ (by assumption) | refine Bounded.ofSomeP ?_ (by assumption)
    | refine Bounded.ofPair ?_ (by assumption) | refine Bounded.ofPair2 ?_ (by assumption)
    | refine Bounded.ofPair3 ?_ (by assumption) | split
    | (extract_lets +onlyGivenNames s_; refine (fun (_ : Bounded s_) => ?_) ?_; swap; subst s_)
    | (extract_lets +onlyGivenNames s_; clear_value s_) | extract_lets +onlyGivenNames s_

theorem State.flushChan_bounded {s c} (h0 : Bounded s) : Bounded (State.flushChan s c) := by
  unfold State.flushChan
  with_reducible repeat' first
    | assumption | (intro _; try beta_reduce) | apply State.endXfer_bounded | apply foldl_bounded

theorem State.hedgeEnd_bounded {s p kind result} (h0 : Bounded s) : Bounded (State.hedgeEnd s p kind result) := by
  unfold State.hedgeEnd
  with_reducible repeat' first
    | assumption | apply State.partTrace_bounded | apply State.setFld_bounded

theorem State.winnowGo_bounded {s p} (h0 : Bounded s) : Bounded (State.winnowGo s p) := by
  unfold State.winnowGo
  with_reducible repeat' first
    | assumption | apply Bounded.ite_ | apply State.hedgeEnd_bounded | apply State.removeCause_bounded
    | apply State.setPart_bounded | split

theorem State.poisonPart_bounded {s p} (h0 : Bounded s) : Bounded (State.poisonPart s p) := by
  unfold State.poisonPart
  with_reducible repeat' first
    | assumption | (intro _; try beta_reduce) | apply State.poisonOne_bounded | apply foldl_bounded

theorem State.loseRecord_bounded {s q c} (h0 : Bounded s) : Bounded (State.loseRecord s q c) := by
  unfold State.loseRecord
  with_reducible repeat' first
    | assumption | apply State.dropCmd_bounded | apply State.incFld_bounded

theorem State.flushQueue_bounded {s q} (h0 : Bounded s) : Bounded (State.flushQueue s q) := by
  unfold State.flushQueue
  with_reducible repeat' first
    | assumption | (intro _; try beta_reduce) | apply Bounded.ite_ | apply State.endRecord_bounded
    | apply State.loseRecord_bounded | apply State.putRecord_bounded | apply State.putRecord_bounded2
    | apply foldl_bounded | refine Bounded.ofSome ?_ (by assumption)
    | refine Bounded.ofSomeP ?_ (by assumption) | refine Bounded.ofPair ?_ (by assumption)
    | refine Bounded.ofPair2 ?_ (by assumption) | refine Bounded.ofPair3 ?_ (by assumption) | split
    | (extract_lets +onlyGivenNames s_; refine (fun (_ : Bounded s_) => ?_) ?_; swap; subst s_)
    | (extract_lets +onlyGivenNames s_; clear_value s_) | extract_lets +onlyGivenNames s_

theorem State.flushPart_bounded {s p} (h0 : Bounded s) : Bounded (State.flushPart s p) := by
  unfold State.flushPart
  with_reducible repeat' first
    | assumption | (intro _; try beta_reduce) | apply State.flushChan_bounded | apply State.flushQueue_bounded
    | apply foldl_bounded

theorem State.abortPart_bounded {s p} (h0 : Bounded s) : Bounded (State.abortPart s p) := by
  unfold State.abortPart
  with_reducible repeat' first
    | assumption | (intro _; try beta_reduce) | apply State.abortChan_bounded | apply State.abortQueue_bounded
    | apply foldl_bounded

theorem State.offQueue_bounded {s q} (h0 : Bounded s) : Bounded (State.offQueue s q) := by
  unfold State.offQueue
  with_reducible repeat' first
    | assumption | apply State.setFld_bounded | apply State.setQueue_bounded

theorem State.offChan_bounded {s c} (h0 : Bounded s) : Bounded (State.offChan s c) := by
  unfold State.offChan
  with_reducible repeat' first
    | assumption | apply State.setChan_bounded | apply State.setFld_bounded

theorem State.freePart_bounded {s p} (h0 : Bounded s) : Bounded (State.freePart s p) := by
  unfold State.freePart
  with_reducible repeat' first
    | assumption | (intro _; try beta_reduce) | apply State.abortCmd_bounded | apply State.disarm_bounded
    | apply State.freeCtx_bounded | apply State.setActr_bounded | apply State.setFld_bounded
    | apply State.setTok_bounded | apply State.tokEnd_bounded | apply State.withLinks_bounded | apply foldl_bounded
    | split

theorem State.instEnd_bounded {s p result} (h0 : Bounded s) : Bounded (State.instEnd s p result) := by
  unfold State.instEnd
  with_reducible repeat' first
    | assumption | apply State.partTrace_bounded | apply State.setFld_bounded | apply State.setPart_bounded

theorem State.instGo_bounded {s p} (h0 : Bounded s) : Bounded (State.instGo s p) := by
  unfold State.instGo
  with_reducible repeat' first
    | assumption | (intro _; try beta_reduce) | apply Bounded.ite_ | apply State.endSession_bounded
    | apply State.flushPart_bounded | apply State.freePart_bounded | apply State.incFld_bounded
    | apply State.instEnd_bounded | apply State.offChan_bounded | apply State.offQueue_bounded
    | apply State.poisonPart_bounded | apply State.removeCause_bounded | apply State.setFld_bounded
    | apply foldl_bounded | split

theorem State.partGo_bounded {s p} (h0 : Bounded s) : Bounded (State.partGo s p) := by
  unfold State.partGo
  with_reducible repeat' first
    | assumption | apply State.instGo_bounded | apply State.winnowGo_bounded

end Sys2Proof.Machine
end

