-- ==== Sys2Proof/Laws/BoundedService.lean ====
section
/-! SUPPORT. Every operation of Machine/Service.lean keeps the bounds. -/

namespace Sys2Proof.Machine

theorem State.disableQueue_bounded {s q} (h0 : Bounded s) : Bounded (State.disableQueue s q) := by
  unfold State.disableQueue
  with_reducible repeat' first
    | assumption | apply Bounded.ite_ | apply State.abortQueue_bounded | apply State.setQueue_bounded
    | apply State.settleQueue_bounded

theorem execQueueDisable_bounded {port q s} (h2 : Bounded s) : BoundedRes (execQueueDisable port q s) := by
  unfold execQueueDisable
  with_reducible repeat' first
    | assumption | (intro _; try beta_reduce) | apply BoundedRes.ite_ | apply BoundedRes.mkNext
    | apply State.disableQueue_bounded | apply State.ownerCmd_bounded | apply State.setFld_bounded

theorem State.unbind_bounded {s chan obj} (h0 : Bounded s) : Bounded (State.unbind s chan obj) := by
  unfold State.unbind
  with_reducible repeat' first
    | assumption | simp -zeta only [↓Bounded.mk_iff]
    | (extract_lets +onlyGivenNames s_; have _x : _ → _ := s_; clear _x)

theorem State.bind_bounded {s chan obj hkidx} (h0 : Bounded s) : Bounded (State.bind s chan obj hkidx) := by
  unfold State.bind
  with_reducible repeat' first
    | assumption | apply Bounded.ite_ | simp -zeta only [↓Bounded.mk_iff]

theorem State.enableQueue_bounded {s q} (h0 : Bounded s) : Bounded (State.enableQueue s q) := by
  unfold State.enableQueue
  with_reducible repeat' first
    | assumption | apply State.bind_bounded | apply State.setFld_bounded | apply State.setQueue_bounded

theorem execQueueEnable_bounded {port q s} (h2 : Bounded s) : BoundedRes (execQueueEnable port q s) := by
  unfold execQueueEnable
  with_reducible repeat' first
    | assumption | (intro _; try beta_reduce) | apply Bounded.ite_ | apply BoundedRes.ite_ | apply BoundedRes.mkNext
    | apply State.enableQueue_bounded | apply State.incFld_bounded | apply State.ownerCmd_bounded
    | apply State.regRsp_bounded

theorem execSqDoorbell_bounded {port q v s} (h3 : Bounded s) : BoundedRes (execSqDoorbell port q v s) := by
  unfold execSqDoorbell
  with_reducible repeat' first
    | assumption | apply Bounded.ite_ | apply BoundedRes.ite_ | apply BoundedRes.mkNext | apply State.incFld_bounded
    | apply State.regRsp_bounded | apply State.setFld_bounded | apply State.setQueue_bounded

theorem State.abortOps_bounded {s p} (h0 : Bounded s) : Bounded (State.abortOps s p) := by
  unfold State.abortOps
  with_reducible repeat' first
    | assumption | (intro _; try beta_reduce) | apply Bounded.ite_ | apply State.abortCmd_bounded
    | apply foldl_bounded

theorem State.resetScu_bounded {s} (h0 : Bounded s) : Bounded (State.resetScu s) := by
  unfold State.resetScu
  with_reducible repeat' first
    | assumption | apply State.abortOps_bounded

theorem State.resetPku_bounded {s} (h0 : Bounded s) : Bounded (State.resetPku s) := by
  unfold State.resetPku
  with_reducible repeat' first
    | assumption | apply State.abortOps_bounded

theorem State.resetShf_bounded {s} (h0 : Bounded s) : Bounded (State.resetShf s) := by
  unfold State.resetShf
  with_reducible repeat' first
    | assumption | apply State.abortOps_bounded | apply State.withShf_bounded

theorem State.stopQueue_bounded {s q} (h0 : Bounded s) : Bounded (State.stopQueue s q) := by
  unfold State.stopQueue
  with_reducible repeat' first
    | assumption | apply State.setQueue_bounded

theorem State.buryDead_bounded {s d} (h0 : Bounded s) : Bounded (State.buryDead s d) := by
  unfold State.buryDead
  with_reducible repeat' first
    | assumption | (intro _; try beta_reduce) | apply Bounded.ite_ | apply State.teardown_bounded
    | apply foldl_bounded | split

theorem State.takeDesc_bounded {s q b} (h0 : Bounded s) : Bounded (State.takeDesc s q b) := by
  unfold State.takeDesc
  with_reducible repeat' first
    | assumption | (intro _; try beta_reduce) | apply Bounded.ite_ | apply State.buryDead_bounded
    | apply State.countSheaf_bounded | apply State.setBinding_bounded | apply State.setQueue_bounded
    | simp -zeta only [↓Bounded.mk_iff] | refine Bounded.ofSome ?_ (by assumption)
    | refine Bounded.ofSomeP ?_ (by assumption) | refine Bounded.ofPair ?_ (by assumption)
    | refine Bounded.ofPair2 ?_ (by assumption) | refine Bounded.ofPair3 ?_ (by assumption)
    | apply Bounded.getD_ | split
    | (extract_lets +onlyGivenNames s_; refine (fun (_ : Bounded s_) => ?_) ?_; swap; subst s_)
    | (extract_lets +onlyGivenNames s_; clear_value s_) | extract_lets +onlyGivenNames s_

theorem execDescriptorFetch_bounded {q d s} (h2 : Bounded s) : BoundedRes (execDescriptorFetch q d s) := by
  unfold execDescriptorFetch
  with_reducible repeat' first
    | assumption | (intro _; try beta_reduce) | apply BoundedRes.ite_ | apply BoundedRes.mkNext
    | exact BoundedRes.mkFault | apply Bounded.ite_ | apply State.askPages_bounded
    | apply State.chargeHost_bounded | apply State.freed_bounded | apply State.hostAsk_bounded
    | apply State.incFld_bounded | apply State.spend_bounded | apply State.stopQueue_bounded
    | apply State.takeDesc_bounded | refine Bounded.ofSome ?_ (by assumption)
    | refine Bounded.ofSomeP ?_ (by assumption) | refine Bounded.ofPair ?_ (by assumption)
    | refine Bounded.ofPair2 ?_ (by assumption) | refine Bounded.ofPair3 ?_ (by assumption) | split
    | (extract_lets +onlyGivenNames s_; refine (fun (_ : Bounded s_) => ?_) ?_; swap; subst s_)
    | (extract_lets +onlyGivenNames s_; clear_value s_) | extract_lets +onlyGivenNames s_

theorem execCompletionWrite_bounded {q k s} (h2 : Bounded s) : BoundedRes (execCompletionWrite q k s) := by
  unfold execCompletionWrite
  with_reducible repeat' first
    | assumption | (intro _; try beta_reduce) | apply BoundedRes.ite_ | apply BoundedRes.mkNext
    | exact BoundedRes.mkFault | apply Bounded.ite_ | apply State.askPages_bounded
    | apply State.dropCmd_bounded | apply State.endRecord_bounded | apply State.incFld_bounded
    | apply State.partGo_bounded | apply State.putRecord_bounded | apply State.putRecord_bounded2
    | apply State.stopQueue_bounded | refine Bounded.ofSome ?_ (by assumption)
    | refine Bounded.ofSomeP ?_ (by assumption) | refine Bounded.ofPair ?_ (by assumption)
    | refine Bounded.ofPair2 ?_ (by assumption) | refine Bounded.ofPair3 ?_ (by assumption) | split
    | (extract_lets +onlyGivenNames s_; refine (fun (_ : Bounded s_) => ?_) ?_; swap; subst s_)
    | (extract_lets +onlyGivenNames s_; clear_value s_) | extract_lets +onlyGivenNames s_

theorem State.resetStv_bounded {s} (h0 : Bounded s) : Bounded (State.resetStv s) := by
  unfold State.resetStv
  with_reducible repeat' first
    | assumption | (intro _; try beta_reduce) | apply Bounded.ite_ | apply State.abortOps_bounded
    | apply State.resetStavub_bounded | split

theorem execQueueTimeout_bounded {q k drained s} (h3 : Bounded s) : BoundedRes (execQueueTimeout q k drained s) := by
  unfold execQueueTimeout
  with_reducible repeat' first
    | assumption | (intro _; try beta_reduce) | apply BoundedRes.ite_ | apply BoundedRes.mkNext
    | exact BoundedRes.mkFault | apply Bounded.ite_ | apply State.abortCmd_bounded
    | apply State.record_bounded | apply State.resetPku_bounded | apply State.resetScu_bounded
    | apply State.resetShf_bounded | apply State.resetStv_bounded | apply State.svcDone_bounded
    | refine Bounded.ofSome ?_ (by assumption) | refine Bounded.ofSomeP ?_ (by assumption)
    | refine Bounded.ofPair ?_ (by assumption) | refine Bounded.ofPair2 ?_ (by assumption)
    | refine Bounded.ofPair3 ?_ (by assumption) | split
    | (extract_lets +onlyGivenNames s_; refine (fun (_ : Bounded s_) => ?_) ?_; swap; subst s_)
    | (extract_lets +onlyGivenNames s_; clear_value s_) | extract_lets +onlyGivenNames s_

theorem execNop_bounded {q k s} (h2 : Bounded s) : BoundedRes (execNop q k s) := by
  unfold execNop
  with_reducible repeat' first
    | assumption | (intro _; try beta_reduce) | apply BoundedRes.mkNext | apply State.svcCmd_bounded
    | apply State.svcDone_bounded

end Sys2Proof.Machine
end

