-- ==== Sys2Proof/Laws/BoundedCipher.lean ====
section
/-! SUPPORT. Every operation of Machine/Cipher.lean keeps the bounds. -/

namespace Sys2Proof.Machine

theorem State.askSegment_bounded {s q c} (h0 : Bounded s) : Bounded (State.askSegment s q c) := by
  unfold State.askSegment
  with_reducible repeat' first
    | assumption | (intro _; try beta_reduce) | apply Bounded.ite_ | apply State.hostAsk_bounded
    | simp -zeta only [↓Bounded.mk_iff] | refine Bounded.ofSome ?_ (by assumption)
    | refine Bounded.ofSomeP ?_ (by assumption) | refine Bounded.ofPair ?_ (by assumption)
    | refine Bounded.ofPair2 ?_ (by assumption) | refine Bounded.ofPair3 ?_ (by assumption) | split
    | (extract_lets +onlyGivenNames s_; refine (fun (_ : Bounded s_) => ?_) ?_; swap; subst s_)
    | (extract_lets +onlyGivenNames s_; clear_value s_) | extract_lets +onlyGivenNames s_

theorem State.cipherEnd_bounded {s q c} (h0 : Bounded s) : Bounded (State.cipherEnd s q c) := by
  unfold State.cipherEnd
  with_reducible repeat' first
    | assumption | apply State.count_bounded | apply State.finishDst_bounded

theorem State.cipherStart_bounded {s q c src} (h0 : Bounded s) : Bounded (State.cipherStart s q c src) := by
  unfold State.cipherStart
  with_reducible repeat' first
    | assumption | (intro _; try beta_reduce) | apply Bounded.ite_ | apply State.askSegment_bounded
    | apply State.chargeSlot_bounded | apply State.charged_bounded | apply State.setCmd_bounded
    | apply State.srcFail_bounded | apply State.svcDone_bounded | apply State.takeSrc_bounded
    | apply State.takeSrc_bounded2 | apply foldl_bounded | simp -zeta only [↓Bounded.mk_iff]
    | refine Bounded.ofSome ?_ (by assumption) | refine Bounded.ofSomeP ?_ (by assumption)
    | refine Bounded.ofPair ?_ (by assumption) | refine Bounded.ofPair2 ?_ (by assumption)
    | refine Bounded.ofPair3 ?_ (by assumption) | split
    | (extract_lets +onlyGivenNames s_; refine (fun (_ : Bounded s_) => ?_) ?_; swap; subst s_)
    | (extract_lets +onlyGivenNames s_; clear_value s_) | extract_lets +onlyGivenNames s_

theorem State.drillLines_bounded {s i version b} (h0 : Bounded s) : Bounded (State.drillLines s i version b) := by
  unfold State.drillLines
  with_reducible repeat' first
    | assumption | (intro _; try beta_reduce) | apply Bounded.ite_ | apply State.chargeMeta_bounded
    | apply State.offer_bounded | apply foldl_bounded | refine Bounded.ofSome ?_ (by assumption)
    | refine Bounded.ofSomeP ?_ (by assumption) | refine Bounded.ofPair ?_ (by assumption)
    | refine Bounded.ofPair2 ?_ (by assumption) | refine Bounded.ofPair3 ?_ (by assumption)
    | apply Bounded.getD_ | split
    | (extract_lets +onlyGivenNames s_; refine (fun (_ : Bounded s_) => ?_) ?_; swap; subst s_)
    | (extract_lets +onlyGivenNames s_; clear_value s_) | extract_lets +onlyGivenNames s_

theorem State.keyOriginStatement_bounded {s slot nonce} (h0 : Bounded s) : BoundedPair (State.keyOriginStatement s slot nonce) := by
  unfold State.keyOriginStatement
  with_reducible repeat' first
    | assumption | apply BoundedPair.ite_ | apply BoundedPair.mk_ | apply State.signBoth_bounded2
theorem State.keyOriginStatement_bounded2 {s slot nonce} (h0 : Bounded s) : Bounded (State.keyOriginStatement s slot nonce).2 := BoundedPair.of_snd (State.keyOriginStatement_bounded h0)

theorem State.setDrill_bounded {s i d} (h0 : Bounded s) : Bounded (State.setDrill s i d) := by
  unfold State.setDrill
  with_reducible repeat' first
    | assumption | simp -zeta only [↓Bounded.mk_iff]

theorem State.stripeOut_bounded {s q c i b} (h0 : Bounded s) : BoundedPair (State.stripeOut s q c i b) := by
  unfold State.stripeOut
  with_reducible repeat' first
    | assumption | (intro _; try beta_reduce) | apply BoundedPair.ite_ | apply BoundedPair.mk_
    | apply Bounded.ite_ | apply State.engineWrite_bounded | apply State.engineWrite_bounded2
    | apply State.hostSegments_bounded | refine Bounded.ofSome ?_ (by assumption)
    | refine Bounded.ofSomeP ?_ (by assumption) | refine Bounded.ofPair ?_ (by assumption)
    | refine Bounded.ofPair2 ?_ (by assumption) | refine Bounded.ofPair3 ?_ (by assumption) | split
    | (extract_lets +onlyGivenNames s_; refine (fun (_ : Bounded s_) => ?_) ?_; swap; subst s_)
    | (extract_lets +onlyGivenNames s_; clear_value s_) | extract_lets +onlyGivenNames s_
theorem State.stripeOut_bounded2 {s q c i b} (h0 : Bounded s) : Bounded (State.stripeOut s q c i b).2 := BoundedPair.of_snd (State.stripeOut_bounded h0)

theorem State.withScu_bounded {s v1_} (h0 : Bounded s) : Bounded (State.withScu s v1_) := by
  unfold State.withScu
  with_reducible repeat' first
    | assumption | simp -zeta only [↓Bounded.mk_iff]

theorem State.svcTake_bounded {s p} (h0 : Bounded s) : Bounded (State.svcTake s p) := by
  unfold State.svcTake
  with_reducible repeat' first
    | assumption | apply State.withScu_bounded | split

theorem State.tenantOp_bounded {s q c srcLen dstLen src f} (h0 : Bounded s) (h6 : ∀ x0 x1, Bounded x1 → Bounded (f x0 x1)) : Bounded (State.tenantOp s q c srcLen dstLen src f) := by
  unfold State.tenantOp
  with_reducible repeat' first
    | assumption | (intro _; try beta_reduce) | apply Bounded.ite_ | apply h6 | apply State.charged_bounded
    | apply State.count_bounded | apply State.setCmd_bounded | apply State.srcFail_bounded
    | apply State.svcTake_bounded | apply State.takeSrc_bounded | apply State.takeSrc_bounded2
    | apply State.withScu_bounded | simp -zeta only [↓Bounded.mk_iff]
    | refine Bounded.ofSome ?_ (by assumption) | refine Bounded.ofSomeP ?_ (by assumption)
    | refine Bounded.ofPair ?_ (by assumption) | refine Bounded.ofPair2 ?_ (by assumption)
    | refine Bounded.ofPair3 ?_ (by assumption) | split
    | (extract_lets +onlyGivenNames s_; refine (fun (_ : Bounded s_) => ?_) ?_; swap; subst s_)
    | (extract_lets +onlyGivenNames s_; clear_value s_) | extract_lets +onlyGivenNames s_

theorem execAesDec_bounded {q k src s} (h3 : Bounded s) : BoundedRes (execAesDec q k src s) := by
  unfold execAesDec
  with_reducible repeat' first
    | assumption | (intro _; try beta_reduce) | apply BoundedRes.mkNext | apply State.cipherStart_bounded
    | apply State.svcCmd_bounded

theorem execAesEnc_bounded {q k src s} (h3 : Bounded s) : BoundedRes (execAesEnc q k src s) := by
  unfold execAesEnc
  with_reducible repeat' first
    | assumption | (intro _; try beta_reduce) | apply BoundedRes.mkNext | apply State.cipherStart_bounded
    | apply State.svcCmd_bounded

theorem execDrillDrop_bounded {q k s} (h2 : Bounded s) : BoundedRes (execDrillDrop q k s) := by
  unfold execDrillDrop
  with_reducible repeat' first
    | assumption | (intro _; try beta_reduce) | apply Bounded.ite_ | apply BoundedRes.mkNext
    | apply State.setDrill_bounded | apply State.svcCmd_bounded | apply State.svcDone_bounded | split
    | (extract_lets +onlyGivenNames s_; clear_value s_)

theorem execDrillRun_bounded {q k params lines s} (h4 : Bounded s) : BoundedRes (execDrillRun q k params lines s) := by
  unfold execDrillRun
  with_reducible repeat' first
    | assumption | (intro _; try beta_reduce) | apply BoundedRes.ite_ | apply BoundedRes.mkNext
    | exact BoundedRes.mkFault | apply Bounded.ite_ | apply State.charged_bounded
    | apply State.count_bounded | apply State.setCmd_bounded | apply State.setDrill_bounded
    | apply State.srcFail_bounded | apply State.svcCmd_bounded | apply State.svcDone_bounded
    | apply State.takeSrc_bounded | apply State.takeSrc_bounded2 | simp -zeta only [↓Bounded.mk_iff]
    | refine Bounded.ofSome ?_ (by assumption) | refine Bounded.ofSomeP ?_ (by assumption)
    | refine Bounded.ofPair ?_ (by assumption) | refine Bounded.ofPair2 ?_ (by assumption)
    | refine Bounded.ofPair3 ?_ (by assumption) | split
    | (extract_lets +onlyGivenNames s_; refine (fun (_ : Bounded s_) => ?_) ?_; swap; subst s_)
    | (extract_lets +onlyGivenNames s_; clear_value s_) | extract_lets +onlyGivenNames s_

theorem execDrillStore_bounded {q k image s} (h3 : Bounded s) : BoundedRes (execDrillStore q k image s) := by
  unfold execDrillStore
  with_reducible repeat' first
    | assumption | (intro _; try beta_reduce) | apply BoundedRes.ite_ | apply BoundedRes.mkNext
    | exact BoundedRes.mkFault | apply Bounded.ite_ | apply State.drawEpoch_bounded
    | apply State.drawEpoch_bounded2 | apply State.drillLines_bounded | apply State.readLines_bounded
    | apply State.setDrill_bounded | apply State.svcCmd_bounded | apply State.svcDone_bounded
    | simp -zeta only [↓Bounded.mk_iff] | refine Bounded.ofSome ?_ (by assumption)
    | refine Bounded.ofSomeP ?_ (by assumption) | refine Bounded.ofPair ?_ (by assumption)
    | refine Bounded.ofPair2 ?_ (by assumption) | refine Bounded.ofPair3 ?_ (by assumption) | split
    | (extract_lets +onlyGivenNames s_; refine (fun (_ : Bounded s_) => ?_) ?_; swap; subst s_)
    | (extract_lets +onlyGivenNames s_; clear_value s_) | extract_lets +onlyGivenNames s_

theorem execGangStripeDone_bounded {q k stripe ok s} (h4 : Bounded s) : BoundedRes (execGangStripeDone q k stripe ok s) := by
  unfold execGangStripeDone
  with_reducible repeat' first
    | assumption | apply BoundedRes.ite_ | apply BoundedRes.mkNext | apply State.count_bounded
    | apply State.finishDst_bounded | apply State.setCmd_bounded | apply State.stripeOut_bounded2
    | apply State.svcDone_bounded | simp -zeta only [↓Bounded.mk_iff] | split

theorem State.wrapKey_bounded {s : State} {q c k t} (h : Bounded s) (e : s.wrapKey q c = .inr (k, t)) : Bounded t := by
  unfold State.wrapKey at e
  dsimp only at e
  split at e
  · injection e
  · split at e
    · split at e
      · injection e
      · injection e with e; injection e with _ e; subst e; exact State.count_bounded h
    · split at e
      · injection e
      · split at e
        · injection e
        · injection e with e; injection e with _ e; subst e; exact State.chargeSlot_bounded h

theorem execKeyImport_bounded {q k src s} (h3 : Bounded s) : BoundedRes (execKeyImport q k src s) := by
  unfold execKeyImport
  with_reducible repeat' first
    | assumption | (intro _; try beta_reduce) | apply BoundedRes.ite_ | apply BoundedRes.mkNext
    | exact BoundedRes.mkFault | apply Bounded.ite_ | apply State.bind_bounded | apply State.charged_bounded
    | apply State.incFld_bounded | apply State.putSlot_bounded | apply State.srcFail_bounded
    | apply State.svcCmd_bounded | apply State.svcDone_bounded | apply State.takeSrc_bounded
    | apply State.takeSrc_bounded2 | apply State.tenantRef_bounded
    | refine State.wrapKey_bounded ?_ (by assumption) | refine Bounded.ofSome ?_ (by assumption)
    | refine Bounded.ofSomeP ?_ (by assumption) | refine Bounded.ofPair ?_ (by assumption)
    | refine Bounded.ofPair2 ?_ (by assumption) | refine Bounded.ofPair3 ?_ (by assumption) | split
    | (extract_lets +onlyGivenNames s_; refine (fun (_ : Bounded s_) => ?_) ?_; swap; subst s_)
    | (extract_lets +onlyGivenNames s_; clear_value s_) | extract_lets +onlyGivenNames s_

theorem execKeyOrigin_bounded {q k nonce s} (h3 : Bounded s) : BoundedRes (execKeyOrigin q k nonce s) := by
  unfold execKeyOrigin
  with_reducible repeat' first
    | assumption | (intro _; try beta_reduce) | apply BoundedRes.ite_ | apply BoundedRes.mkNext
    | exact BoundedRes.mkFault | apply Bounded.ite_ | apply State.charged_bounded
    | apply State.finishDst_bounded | apply State.keyOriginStatement_bounded
    | apply State.keyOriginStatement_bounded2 | apply State.setCmd_bounded | apply State.srcFail_bounded
    | apply State.svcCmd_bounded | apply State.svcDone_bounded | apply State.takeSrc_bounded
    | apply State.takeSrc_bounded2 | refine Bounded.ofSome ?_ (by assumption)
    | refine Bounded.ofSomeP ?_ (by assumption) | refine Bounded.ofPair ?_ (by assumption)
    | refine Bounded.ofPair2 ?_ (by assumption) | refine Bounded.ofPair3 ?_ (by assumption) | split
    | (extract_lets +onlyGivenNames s_; refine (fun (_ : Bounded s_) => ?_) ?_; swap; subst s_)
    | (extract_lets +onlyGivenNames s_; clear_value s_) | extract_lets +onlyGivenNames s_

theorem execKeyWrap_bounded {q k s} (h2 : Bounded s) : BoundedRes (execKeyWrap q k s) := by
  unfold execKeyWrap
  with_reducible repeat' first
    | assumption | (intro _; try beta_reduce) | refine State.wrapKey_bounded ?_ (by assumption) | apply Bounded.ite_
    | apply BoundedRes.mkNext | apply State.charged_bounded | apply State.finishDst_bounded
    | apply State.svcCmd_bounded | apply State.svcDone_bounded | split

theorem execPkEcdsaVerify_bounded {q k src s} (h3 : Bounded s) : BoundedRes (execPkEcdsaVerify q k src s) := by
  unfold execPkEcdsaVerify
  with_reducible repeat' first
    | assumption | (intro _; try beta_reduce) | apply BoundedRes.ite_ | apply BoundedRes.mkNext
    | exact BoundedRes.mkFault | apply Bounded.ite_ | apply State.svcCmd_bounded
    | apply State.svcDone_bounded | apply State.tenantOp_bounded | split

theorem execPkHash_bounded {q k src s} (h3 : Bounded s) : BoundedRes (execPkHash q k src s) := by
  unfold execPkHash
  with_reducible repeat' first
    | assumption | (intro _; try beta_reduce) | apply BoundedRes.ite_ | apply BoundedRes.mkNext
    | exact BoundedRes.mkFault | apply Bounded.ite_ | apply State.finishDst_bounded
    | apply State.svcCmd_bounded | apply State.svcDone_bounded | apply State.tenantOp_bounded
    | refine Bounded.ofSome ?_ (by assumption) | refine Bounded.ofSomeP ?_ (by assumption)
    | refine Bounded.ofPair ?_ (by assumption) | refine Bounded.ofPair2 ?_ (by assumption)
    | refine Bounded.ofPair3 ?_ (by assumption) | apply Bounded.getD_ | split
    | (extract_lets +onlyGivenNames s_; refine (fun (_ : Bounded s_) => ?_) ?_; swap; subst s_)
    | (extract_lets +onlyGivenNames s_; clear_value s_) | extract_lets +onlyGivenNames s_

theorem execPkMldsaVerify_bounded {q k src s} (h3 : Bounded s) : BoundedRes (execPkMldsaVerify q k src s) := by
  unfold execPkMldsaVerify
  with_reducible repeat' first
    | assumption | (intro _; try beta_reduce) | apply BoundedRes.ite_ | apply BoundedRes.mkNext
    | exact BoundedRes.mkFault | apply Bounded.ite_ | apply State.svcCmd_bounded
    | apply State.svcDone_bounded | apply State.tenantOp_bounded | split
    | (extract_lets +onlyGivenNames s_; refine (fun (_ : Bounded s_) => ?_) ?_; swap; subst s_)
    | (extract_lets +onlyGivenNames s_; clear_value s_) | extract_lets +onlyGivenNames s_

theorem execScuBurst_bounded {s} (h0 : Bounded s) : BoundedRes (execScuBurst s) := by
  unfold execScuBurst
  with_reducible repeat' first
    | assumption | apply Bounded.ite_ | apply BoundedRes.ite_ | apply BoundedRes.mkNext
    | apply State.cipherEnd_bounded | apply State.drew_bounded | apply State.setCmd_bounded
    | apply State.svcTake_bounded | apply State.withScu_bounded | split

theorem execXtsDec_bounded {q k src s} (h3 : Bounded s) : BoundedRes (execXtsDec q k src s) := by
  unfold execXtsDec
  with_reducible repeat' first
    | assumption | (intro _; try beta_reduce) | apply BoundedRes.mkNext | apply State.cipherStart_bounded
    | apply State.svcCmd_bounded

theorem execXtsEnc_bounded {q k src s} (h3 : Bounded s) : BoundedRes (execXtsEnc q k src s) := by
  unfold execXtsEnc
  with_reducible repeat' first
    | assumption | (intro _; try beta_reduce) | apply BoundedRes.mkNext | apply State.cipherStart_bounded
    | apply State.svcCmd_bounded

end Sys2Proof.Machine
end

