-- ==== Sys2Proof/Laws/BoundedHost.lean ====
section
/-! SUPPORT. Every operation of Machine/Host.lean keeps the bounds. -/

namespace Sys2Proof.Machine

theorem State.disableChan_bounded {s c} (h0 : Bounded s) : Bounded (State.disableChan s c) := by
  unfold State.disableChan
  with_reducible repeat' first
    | assumption | apply Bounded.ite_ | apply State.abortChan_bounded | apply State.setChan_bounded

theorem State.enableChan_bounded {s c} (h0 : Bounded s) : Bounded (State.enableChan s c) := by
  unfold State.enableChan
  with_reducible repeat' first
    | assumption | apply State.bind_bounded | apply State.setChan_bounded | apply State.setFld_bounded

theorem execBounceDoorbell_bounded {port c v s} (h3 : Bounded s) : BoundedRes (execBounceDoorbell port c v s) := by
  unfold execBounceDoorbell
  with_reducible repeat' first
    | assumption | apply BoundedRes.ite_ | apply BoundedRes.mkNext | apply State.incFld_bounded
    | apply State.regRsp_bounded | apply State.setChan_bounded | apply State.setFld_bounded

theorem State.stopChan_bounded {s c} (h0 : Bounded s) : Bounded (State.stopChan s c) := by
  unfold State.stopChan
  with_reducible repeat' first
    | assumption | apply State.setChan_bounded

theorem State.cacheTrans_bounded {s t} (h0 : Bounded s) : Bounded (State.cacheTrans s t) := by
  unfold State.cacheTrans
  with_reducible repeat' first
    | assumption | apply Bounded.ite_ | apply State.freed_bounded | simp -zeta only [↓Bounded.mk_iff] | split
    | (extract_lets +onlyGivenNames s_; refine (fun (_ : Bounded s_) => ?_) ?_; swap; subst s_)

theorem State.failWaiter_bounded {s w} (h0 : Bounded s) : Bounded (State.failWaiter s w) := by
  unfold State.failWaiter
  with_reducible repeat' first
    | assumption | apply Bounded.ite_ | apply State.setChan_bounded | apply State.stopQueue_bounded
    | apply State.svcDone_bounded | split | (extract_lets +onlyGivenNames s_; clear_value s_)

theorem execAtsCompletion_bounded {att va pa perm ok s} (h5 : Bounded s) : BoundedRes (execAtsCompletion att va pa perm ok s) := by
  unfold execAtsCompletion
  with_reducible repeat' first
    | assumption | (intro _; try beta_reduce) | apply BoundedRes.ite_ | apply BoundedRes.mkNext
    | apply State.cacheTrans_bounded | apply State.failWaiter_bounded | apply State.incFld_bounded
    | apply foldl_bounded | simp -zeta only [↓Bounded.mk_iff] | split

theorem execAtsInvalidate_bounded {att first last s} (h3 : Bounded s) : BoundedRes (execAtsInvalidate att first last s) := by
  unfold execAtsInvalidate
  with_reducible repeat' first
    | assumption | apply BoundedRes.ite_ | apply BoundedRes.mkNext | apply State.emit_bounded
    | simp -zeta only [↓Bounded.mk_iff] | split
    | (extract_lets +onlyGivenNames s_; refine (fun (_ : Bounded s_) => ?_) ?_; swap; subst s_)
    | (extract_lets +onlyGivenNames s_; clear_value s_)

theorem State.readGone_bounded {s tag} (h0 : Bounded s) : Bounded (State.readGone s tag) := by
  unfold State.readGone
  with_reducible repeat' first
    | assumption | (intro _; try beta_reduce) | apply State.emit_bounded | apply foldl_bounded
    | simp -zeta only [↓Bounded.mk_iff]

theorem State.askXfer_bounded {s c f} (h0 : Bounded s) : Bounded (State.askXfer s c f) := by
  unfold State.askXfer
  with_reducible repeat' first
    | assumption | (intro _; try beta_reduce) | apply Bounded.ite_ | apply State.count_bounded
    | apply State.hostAsk_bounded | simp -zeta only [↓Bounded.mk_iff]
    | refine Bounded.ofSome ?_ (by assumption) | refine Bounded.ofSomeP ?_ (by assumption)
    | refine Bounded.ofPair ?_ (by assumption) | refine Bounded.ofPair2 ?_ (by assumption)
    | refine Bounded.ofPair3 ?_ (by assumption) | split
    | (extract_lets +onlyGivenNames s_; refine (fun (_ : Bounded s_) => ?_) ?_; swap; subst s_)
    | (extract_lets +onlyGivenNames s_; clear_value s_) | extract_lets +onlyGivenNames s_

theorem State.moreReads_bounded {s} (h0 : Bounded s) : Bounded (State.moreReads s) := by
  unfold State.moreReads
  with_reducible repeat' first
    | assumption | (intro _; try beta_reduce) | apply Bounded.ite_ | apply State.askSegment_bounded
    | apply State.askXfer_bounded | apply foldl_bounded | split
    | (extract_lets +onlyGivenNames s_; refine (fun (_ : Bounded s_) => ?_) ?_; swap; subst s_)
    | (extract_lets +onlyGivenNames s_; clear_value s_) | extract_lets +onlyGivenNames s_

theorem execHostDmaReadDone_bounded {tag seg rerr s} (h3 : Bounded s) : BoundedRes (execHostDmaReadDone tag seg rerr s) := by
  unfold execHostDmaReadDone
  with_reducible repeat' first
    | assumption | (intro _; try beta_reduce) | apply BoundedRes.ite_ | apply BoundedRes.mkNext
    | exact BoundedRes.mkFault | apply Bounded.ite_ | apply State.askSegment_bounded
    | apply State.askXfer_bounded | apply State.count_bounded | apply State.engineWrite_bounded
    | apply State.engineWrite_bounded2 | apply State.incFld_bounded | apply State.moreReads_bounded
    | apply State.partGo_bounded | apply State.readGone_bounded | apply State.setCmd_bounded
    | apply State.setXfer_bounded | apply State.spend_bounded | apply State.svcDone_bounded
    | simp -zeta only [↓Bounded.mk_iff] | refine Bounded.ofSome ?_ (by assumption)
    | refine Bounded.ofSomeP ?_ (by assumption) | refine Bounded.ofPair ?_ (by assumption)
    | refine Bounded.ofPair2 ?_ (by assumption) | refine Bounded.ofPair3 ?_ (by assumption) | split
    | (extract_lets +onlyGivenNames s_; refine (fun (_ : Bounded s_) => ?_) ?_; swap; subst s_)
    | (extract_lets +onlyGivenNames s_; clear_value s_) | extract_lets +onlyGivenNames s_

theorem State.addXfer_bounded {s c f} (h0 : Bounded s) : Bounded (State.addXfer s c f) := by
  unfold State.addXfer
  with_reducible repeat' first
    | assumption | apply State.setChan_bounded

theorem State.startXfer_bounded {s c f src} (h0 : Bounded s) : Bounded (State.startXfer s c f src) := by
  unfold State.startXfer
  with_reducible repeat' first
    | assumption | (intro _; try beta_reduce) | apply Bounded.ite_ | apply State.addXfer_bounded
    | apply State.askPages_bounded | apply State.askXfer_bounded | apply State.chargeHost_bounded
    | apply State.discard_bounded | apply State.hold_bounded | apply State.incFld_bounded
    | apply State.pend_bounded | apply State.readLines_bounded | apply State.setChan_bounded
    | apply State.stopChan_bounded | apply State.xferSend_bounded | simp -zeta only [↓Bounded.mk_iff]
    | refine Bounded.ofSome ?_ (by assumption) | refine Bounded.ofSomeP ?_ (by assumption)
    | refine Bounded.ofPair ?_ (by assumption) | refine Bounded.ofPair2 ?_ (by assumption)
    | refine Bounded.ofPair3 ?_ (by assumption) | split
    | (extract_lets +onlyGivenNames s_; refine (fun (_ : Bounded s_) => ?_) ?_; swap; subst s_)
    | (extract_lets +onlyGivenNames s_; clear_value s_) | extract_lets +onlyGivenNames s_

theorem execBounceTransfer_bounded {c d src s} (h3 : Bounded s) : BoundedRes (execBounceTransfer c d src s) := by
  unfold execBounceTransfer
  with_reducible repeat' first
    | assumption | (intro _; try beta_reduce) | apply BoundedRes.ite_ | apply BoundedRes.mkNext
    | exact BoundedRes.mkFault | apply Bounded.ite_ | apply State.addXfer_bounded
    | apply State.count_bounded | apply State.setBinding_bounded | apply State.setChan_bounded
    | apply State.startXfer_bounded | apply State.stopChan_bounded | simp -zeta only [↓Bounded.mk_iff]
    | refine Bounded.ofSome ?_ (by assumption) | refine Bounded.ofSomeP ?_ (by assumption)
    | refine Bounded.ofPair ?_ (by assumption) | refine Bounded.ofPair2 ?_ (by assumption)
    | refine Bounded.ofPair3 ?_ (by assumption) | split
    | (extract_lets +onlyGivenNames s_; refine (fun (_ : Bounded s_) => ?_) ?_; swap; subst s_)
    | (extract_lets +onlyGivenNames s_; clear_value s_) | extract_lets +onlyGivenNames s_

theorem execTransferComplete_bounded {c s} (h1 : Bounded s) : BoundedRes (execTransferComplete c s) := by
  unfold execTransferComplete
  with_reducible repeat' first
    | assumption | apply BoundedRes.ite_ | apply BoundedRes.mkNext | apply State.endXfer_bounded
    | apply State.partGo_bounded | split

theorem execKeywarn_bounded {slot s} (h1 : Bounded s) : BoundedRes (execKeywarn slot s) := by
  unfold execKeywarn
  with_reducible repeat' first
    | assumption | apply Bounded.ite_ | apply BoundedRes.ite_ | apply BoundedRes.mkNext | apply State.emit_bounded
    | apply State.setFld_bounded | simp -zeta only [↓Bounded.mk_iff]

end Sys2Proof.Machine
end

