-- ==== Sys2Proof/Laws/BoundedLanes.lean ====
section
/-! SUPPORT. Every operation of Machine/Lanes.lean keeps the bounds. -/

namespace Sys2Proof.Machine

theorem State.writeBack_bounded {s level idx c p} (h0 : Bounded s) : Bounded (State.writeBack s level idx c p) := by
  unfold State.writeBack
  with_reducible repeat' first
    | assumption | (intro _; try beta_reduce) | apply Bounded.ite_ | apply State.chargeMeta_bounded
    | apply State.count_bounded | apply State.offer_bounded | apply State.uncache_bounded
    | apply Bounded.getD_ | split
    | (extract_lets +onlyGivenNames s_; refine (fun (_ : Bounded s_) => ?_) ?_; swap; subst s_)
    | (extract_lets +onlyGivenNames s_; clear_value s_) | extract_lets +onlyGivenNames s_

theorem State.evict_bounded {s level idx} (h0 : Bounded s) : Bounded (State.evict s level idx) := by
  unfold State.evict
  with_reducible repeat' first
    | assumption | (intro _; try beta_reduce) | apply Bounded.ite_ | apply State.drawEpoch_bounded
    | apply State.drawEpoch_bounded2 | apply State.fetchMeta_bounded | apply State.setNode_bounded
    | apply State.uncache_bounded | apply State.writeBack_bounded | simp -zeta only [↓Bounded.mk_iff]
    | refine Bounded.ofSome ?_ (by assumption) | refine Bounded.ofSomeP ?_ (by assumption)
    | refine Bounded.ofPair ?_ (by assumption) | refine Bounded.ofPair2 ?_ (by assumption)
    | refine Bounded.ofPair3 ?_ (by assumption) | split
    | (extract_lets +onlyGivenNames s_; refine (fun (_ : Bounded s_) => ?_) ?_; swap; subst s_)
    | (extract_lets +onlyGivenNames s_; clear_value s_) | extract_lets +onlyGivenNames s_

theorem State.passRead_bounded {s step id} (h0 : Bounded s) : Bounded (State.passRead s step id) := by
  unfold State.passRead
  with_reducible repeat' first
    | assumption | apply State.setStepEnt_bounded | simp -zeta only [↓Bounded.mk_iff] | split
    | (extract_lets +onlyGivenNames s_; refine (fun (_ : Bounded s_) => ?_) ?_; swap; subst s_)
    | (extract_lets +onlyGivenNames s_; clear_value s_)

theorem State.accept_bounded {s t} (h0 : Bounded s) : BoundedPair (State.accept s t) := by
  unfold State.accept
  with_reducible repeat' first
    | assumption | (intro _; try beta_reduce) | apply BoundedPair.ite_ | apply BoundedPair.mk_
    | apply Bounded.ite_ | apply State.withMem_bounded | simp -zeta only [↓Bounded.mk_iff] | split
    | (extract_lets +onlyGivenNames s_; refine (fun (_ : Bounded s_) => ?_) ?_; swap; subst s_)
    | (extract_lets +onlyGivenNames s_; clear_value s_) | extract_lets +onlyGivenNames s_
theorem State.accept_bounded2 {s t} (h0 : Bounded s) : Bounded (State.accept s t).2 := BoundedPair.of_snd (State.accept_bounded h0)

theorem State.refuseEarly_bounded {s t x} (h0 : Bounded s) : Bounded (State.refuseEarly s t x) := by
  unfold State.refuseEarly
  with_reducible repeat' first
    | assumption | (intro _; try beta_reduce) | apply Bounded.ite_ | apply State.accept_bounded
    | apply State.accept_bounded2 | apply State.incFld_bounded | apply State.refuse_bounded
    | refine Bounded.ofSome ?_ (by assumption) | refine Bounded.ofSomeP ?_ (by assumption)
    | refine Bounded.ofPair ?_ (by assumption) | refine Bounded.ofPair2 ?_ (by assumption)
    | refine Bounded.ofPair3 ?_ (by assumption) | split
    | (extract_lets +onlyGivenNames s_; refine (fun (_ : Bounded s_) => ?_) ?_; swap; subst s_)
    | (extract_lets +onlyGivenNames s_; clear_value s_) | extract_lets +onlyGivenNames s_

theorem State.openStep_bounded {s step part} (h0 : Bounded s) : BoundedPair (State.openStep s step part) := by
  unfold State.openStep
  with_reducible repeat' first
    | assumption | apply BoundedPair.mk_ | apply State.setStepEnt_bounded | split
theorem State.openStep_bounded2 {s step part} (h0 : Bounded s) : Bounded (State.openStep s step part).2 := BoundedPair.of_snd (State.openStep_bounded h0)

theorem State.enqueue_bounded {s t} (h0 : Bounded s) : Bounded (State.enqueue s t) := by
  unfold State.enqueue
  with_reducible repeat' first
    | assumption | apply State.openStep_bounded2 | simp -zeta only [↓Bounded.mk_iff]

theorem execMemoryRequest_bounded {g r s} (h2 : Bounded s) : BoundedRes (execMemoryRequest g r s) := by
  unfold execMemoryRequest
  with_reducible repeat' first
    | assumption | apply BoundedRes.ite_ | apply BoundedRes.mkNext | exact BoundedRes.mkFault
    | apply State.enqueue_bounded | apply State.refuseEarly_bounded | simp -zeta only [↓Bounded.mk_iff] | split

theorem execSpanPartTimeout_bounded {g tid s} (h2 : Bounded s) : BoundedRes (execSpanPartTimeout g tid s) := by
  unfold execSpanPartTimeout
  with_reducible repeat' first
    | assumption | apply BoundedRes.mkNext | apply State.refuseEarly_bounded | simp -zeta only [↓Bounded.mk_iff]
    | split

theorem State.refill_bounded {s n cycles} (h0 : Bounded s) : Bounded (State.refill s n cycles) := by
  unfold State.refill
  with_reducible repeat' first
    | assumption | (intro _; try beta_reduce) | apply Bounded.ite_ | apply State.cycles_bounded
    | apply State.cycles_bounded2 | apply State.setLane_bounded | simp -zeta only [↓Bounded.mk_iff] | split
    | (extract_lets +onlyGivenNames s_; refine (fun (_ : Bounded s_) => ?_) ?_; swap; subst s_)
    | (extract_lets +onlyGivenNames s_; clear_value s_) | extract_lets +onlyGivenNames s_

theorem State.sampleGrant_bounded {s t} (h0 : Bounded s) : Bounded (State.sampleGrant s t) := by
  unfold State.sampleGrant
  with_reducible repeat' first
    | assumption | apply Bounded.ite_ | apply State.trace_bounded
    | simp -zeta only [↓Bounded.mk_iffO, ↓Bounded.mk_iffF]
    | (extract_lets +onlyGivenNames s_; have _x : Obs := s_; clear _x; subst s_)

theorem State.countCapFail_bounded {s t st} (h0 : Bounded s) : Bounded (State.countCapFail s t st) := by
  unfold State.countCapFail
  with_reducible repeat' first
    | assumption | apply Bounded.ite_ | apply State.incFld_bounded | split

theorem State.chargeCap_bounded {s t} (h0 : Bounded s) : BoundedPair (State.chargeCap s t) := by
  unfold State.chargeCap
  with_reducible repeat' first
    | assumption | apply BoundedPair.mk_ | apply State.chargeSlot_bounded | split
    | (extract_lets +onlyGivenNames s_; clear_value s_)
theorem State.chargeCap_bounded2 {s t} (h0 : Bounded s) : Bounded (State.chargeCap s t).2 := BoundedPair.of_snd (State.chargeCap_bounded h0)

theorem State.reportStuck_bounded {s row slot} (h0 : Bounded s) : Bounded (State.reportStuck s row slot) := by
  unfold State.reportStuck
  with_reducible repeat' first
    | assumption | apply Bounded.ite_ | apply State.record_bounded | simp -zeta only [↓Bounded.mk_iff]

theorem State.usageCheck_bounded {s ts row} (h0 : Bounded s) : Bounded (State.usageCheck s ts row) := by
  unfold State.usageCheck
  with_reducible repeat' first
    | assumption | (intro _; try beta_reduce) | apply Bounded.ite_ | apply State.incFld_bounded
    | apply State.refuse_bounded | apply State.reportStuck_bounded | apply State.takeWrite_bounded
    | apply foldl_bounded | simp -zeta only [↓Bounded.mk_iff]

theorem State.lookUpKey_bounded {s t} (h0 : Bounded s) : Bounded (State.lookUpKey s t) := by
  unfold State.lookUpKey
  with_reducible repeat' first
    | assumption | (intro _; try beta_reduce) | apply Bounded.ite_ | apply State.count_bounded
    | apply State.touchKey_bounded | split
    | (extract_lets +onlyGivenNames s_; refine (fun (_ : Bounded s_) => ?_) ?_; swap; subst s_)
    | (extract_lets +onlyGivenNames s_; clear_value s_) | extract_lets +onlyGivenNames s_

theorem State.lookUpLines_bounded {s t row} (h0 : Bounded s) : Bounded (State.lookUpLines s t row) := by
  unfold State.lookUpLines
  with_reducible repeat' first
    | assumption | (intro _; try beta_reduce) | apply Bounded.ite_ | apply State.touchKey_bounded
    | apply foldl_bounded | split

theorem State.serve_bounded {s ts} (h0 : Bounded s) : Bounded (State.serve s ts) := by
  unfold State.serve
  with_reducible repeat' first
    | assumption | (intro _; try beta_reduce) | apply Bounded.ite_ | apply State.askCredit_bounded
    | apply State.chargeCap_bounded | apply State.chargeCap_bounded2 | apply State.countCapFail_bounded
    | apply State.incFld_bounded | apply State.lookUpKey_bounded | apply State.lookUpLines_bounded
    | apply State.refuse_bounded | apply State.takeRead_bounded | apply State.usageCheck_bounded
    | apply foldl_bounded | refine Bounded.ofSome ?_ (by assumption)
    | refine Bounded.ofSomeP ?_ (by assumption) | refine Bounded.ofPair ?_ (by assumption)
    | refine Bounded.ofPair2 ?_ (by assumption) | refine Bounded.ofPair3 ?_ (by assumption) | split
    | (extract_lets +onlyGivenNames s_; refine (fun (_ : Bounded s_) => ?_) ?_; swap; subst s_)
    | (extract_lets +onlyGivenNames s_; clear_value s_) | extract_lets +onlyGivenNames s_

theorem State.grant_bounded {s t} (h0 : Bounded s) : Bounded (State.grant s t) := by
  unfold State.grant
  with_reducible repeat' first
    | assumption | (intro _; try beta_reduce) | apply Bounded.ite_ | apply State.accept_bounded
    | apply State.accept_bounded2 | apply State.count_bounded | apply State.sampleGrant_bounded
    | apply State.serve_bounded | apply Bounded.id_ | simp -zeta only [↓Bounded.mk_iff]
    | refine Bounded.ofSome ?_ (by assumption) | refine Bounded.ofSomeP ?_ (by assumption)
    | refine Bounded.ofPair ?_ (by assumption) | refine Bounded.ofPair2 ?_ (by assumption)
    | refine Bounded.ofPair3 ?_ (by assumption) | split
    | (extract_lets +onlyGivenNames s_; refine (fun (_ : Bounded s_) => ?_) ?_; swap; subst s_)
    | (extract_lets +onlyGivenNames s_; clear_value s_) | extract_lets +onlyGivenNames s_

theorem State.debit_bounded {s n p k} (h0 : Bounded s) : Bounded (State.debit s n p k) := by
  unfold State.debit
  with_reducible repeat' first
    | assumption | apply State.setLane_bounded | split

theorem State.fitCache_bounded {s} (h0 : Bounded s) : Bounded (State.fitCache s) := by
  unfold State.fitCache
  with_reducible repeat' first
    | assumption | (intro _; try beta_reduce) | apply Bounded.ite_ | apply State.evict_bounded
    | apply State.freed_bounded | apply foldl_bounded | apply Bounded.getD_ | split
    | (extract_lets +onlyGivenNames s_; refine (fun (_ : Bounded s_) => ?_) ?_; swap; subst s_)
    | (extract_lets +onlyGivenNames s_; clear_value s_) | extract_lets +onlyGivenNames s_

theorem State.grantMaint_bounded {s n m} (h0 : Bounded s) : Bounded (State.grantMaint s n m) := by
  unfold State.grantMaint
  with_reducible repeat' first
    | assumption | (intro _; try beta_reduce) | apply Bounded.ite_ | apply State.laneProgress_bounded
    | apply State.withMem_bounded | simp -zeta only [↓Bounded.mk_iff]
    | refine Bounded.ofSome ?_ (by assumption) | refine Bounded.ofSomeP ?_ (by assumption)
    | refine Bounded.ofPair ?_ (by assumption) | refine Bounded.ofPair2 ?_ (by assumption)
    | refine Bounded.ofPair3 ?_ (by assumption) | split
    | (extract_lets +onlyGivenNames s_; refine (fun (_ : Bounded s_) => ?_) ?_; swap; subst s_)
    | (extract_lets +onlyGivenNames s_; clear_value s_) | extract_lets +onlyGivenNames s_

theorem State.carryOut_bounded {s n a2} (h0 : Bounded s) : Bounded (State.carryOut s n a2) := by
  unfold State.carryOut
  with_reducible repeat' first
    | assumption | (intro _; try beta_reduce) | apply Bounded.ite_ | apply State.debit_bounded
    | apply State.fitCache_bounded | apply State.grantMaint_bounded | apply State.grant_bounded
    | apply State.setLane_bounded | apply State.spend_bounded | apply State.withhold_bounded | split
    | (extract_lets +onlyGivenNames s_; refine (fun (_ : Bounded s_) => ?_) ?_; swap; subst s_)
    | (extract_lets +onlyGivenNames s_; clear_value s_) | extract_lets +onlyGivenNames s_

theorem execLaneGrant_bounded {n cycles s} (h2 : Bounded s) : BoundedRes (execLaneGrant n cycles s) := by
  unfold execLaneGrant
  with_reducible repeat' first
    | assumption | (intro _; try beta_reduce) | apply BoundedRes.ite_ | apply BoundedRes.mkNext
    | exact BoundedRes.mkFault | apply Bounded.ite_ | apply State.carryOut_bounded
    | apply State.cycles_bounded | apply State.cycles_bounded2 | apply State.refill_bounded | split
    | (extract_lets +onlyGivenNames s_; refine (fun (_ : Bounded s_) => ?_) ?_; swap; subst s_)
    | (extract_lets +onlyGivenNames s_; clear_value s_) | extract_lets +onlyGivenNames s_

theorem execThrottleWindow_bounded {s} (h0 : Bounded s) : BoundedRes (execThrottleWindow s) := by
  unfold execThrottleWindow
  with_reducible repeat' first
    | assumption | apply Bounded.ite_ | apply BoundedRes.mkNext | apply State.incFld_bounded
    | simp -zeta only [↓Bounded.mk_iff]

theorem State.tryEarly_bounded {s id} (h0 : Bounded s) : Bounded (State.tryEarly s id) := by
  unfold State.tryEarly
  with_reducible repeat' first
    | assumption | (intro _; try beta_reduce) | apply Bounded.ite_ | apply State.presentEarly_bounded
    | apply State.setRead_bounded | apply Bounded.id_ | simp -zeta only [↓Bounded.mk_iff]
    | refine Bounded.ofSome ?_ (by assumption) | refine Bounded.ofSomeP ?_ (by assumption)
    | refine Bounded.ofPair ?_ (by assumption) | refine Bounded.ofPair2 ?_ (by assumption)
    | refine Bounded.ofPair3 ?_ (by assumption) | split
    | (extract_lets +onlyGivenNames s_; refine (fun (_ : Bounded s_) => ?_) ?_; swap; subst s_)
    | (extract_lets +onlyGivenNames s_; clear_value s_) | extract_lets +onlyGivenNames s_

theorem execDmcReadData_bounded {g tag b s} (h3 : Bounded s) : BoundedRes (execDmcReadData g tag b s) := by
  unfold execDmcReadData
  with_reducible repeat' first
    | assumption | (intro _; try beta_reduce) | apply BoundedRes.ite_ | apply BoundedRes.mkNext
    | exact BoundedRes.mkFault | apply Bounded.ite_ | apply State.laneProgress_bounded
    | apply State.tryEarly_bounded | apply Bounded.id_ | simp -zeta only [↓Bounded.mk_iff]
    | refine Bounded.ofSome ?_ (by assumption) | refine Bounded.ofSomeP ?_ (by assumption)
    | refine Bounded.ofPair ?_ (by assumption) | refine Bounded.ofPair2 ?_ (by assumption)
    | refine Bounded.ofPair3 ?_ (by assumption) | split
    | (extract_lets +onlyGivenNames s_; refine (fun (_ : Bounded s_) => ?_) ?_; swap; subst s_)
    | (extract_lets +onlyGivenNames s_; clear_value s_) | extract_lets +onlyGivenNames s_

theorem State.dropAccess_bounded {s a} (h0 : Bounded s) : Bounded (State.dropAccess s a) := by
  unfold State.dropAccess
  with_reducible repeat' first
    | assumption | simp -zeta only [↓Bounded.mk_iff]

theorem State.resolveWrites_bounded {s} (h0 : Bounded s) : Bounded (State.resolveWrites s) := by
  unfold State.resolveWrites
  with_reducible repeat' first
    | assumption | (intro _; try beta_reduce) | apply Bounded.ite_ | apply State.applyTilled_bounded
    | apply State.unqueueTilled_bounded | apply Bounded.id_ | apply foldl_bounded
    | refine Bounded.ofSome ?_ (by assumption) | refine Bounded.ofSomeP ?_ (by assumption)
    | refine Bounded.ofPair ?_ (by assumption) | refine Bounded.ofPair2 ?_ (by assumption)
    | refine Bounded.ofPair3 ?_ (by assumption) | split
    | (extract_lets +onlyGivenNames s_; refine (fun (_ : Bounded s_) => ?_) ?_; swap; subst s_)
    | (extract_lets +onlyGivenNames s_; clear_value s_) | extract_lets +onlyGivenNames s_

theorem State.resolveReads_bounded {s} (h0 : Bounded s) : Bounded (State.resolveReads s) := by
  unfold State.resolveReads
  with_reducible repeat' first
    | assumption | (intro _; try beta_reduce) | apply Bounded.ite_ | apply State.finishRead_bounded
    | apply State.tryEarly_bounded | apply Bounded.id_ | apply foldl_bounded
    | simp -zeta only [↓Bounded.mk_iff] | refine Bounded.ofSome ?_ (by assumption)
    | refine Bounded.ofSomeP ?_ (by assumption) | refine Bounded.ofPair ?_ (by assumption)
    | refine Bounded.ofPair2 ?_ (by assumption) | refine Bounded.ofPair3 ?_ (by assumption) | split
    | (extract_lets +onlyGivenNames s_; refine (fun (_ : Bounded s_) => ?_) ?_; swap; subst s_)
    | (extract_lets +onlyGivenNames s_; clear_value s_) | extract_lets +onlyGivenNames s_

theorem State.tagFirst_bounded {s lane part line verified metadata reh} (h0 : Bounded s) : Bounded (State.tagFirst s lane part line verified metadata reh) := by
  unfold State.tagFirst
  with_reducible repeat' first
    | assumption | apply Bounded.ite_ | apply State.incFld_bounded | apply State.stage_bounded

theorem State.fetchFailed_bounded {s n q part line} (h0 : Bounded s) : Bounded (State.fetchFailed s n q part line) := by
  unfold State.fetchFailed
  with_reducible repeat' first
    | assumption | (intro _; try beta_reduce) | apply Bounded.ite_ | apply State.incFld_bounded
    | apply State.pageDone_bounded | apply State.record_bounded | apply State.setJob_bounded
    | simp -zeta only [↓Bounded.mk_iff] | refine Bounded.ofSome ?_ (by assumption)
    | refine Bounded.ofSomeP ?_ (by assumption) | refine Bounded.ofPair ?_ (by assumption)
    | refine Bounded.ofPair2 ?_ (by assumption) | refine Bounded.ofPair3 ?_ (by assumption) | split
    | (extract_lets +onlyGivenNames s_; refine (fun (_ : Bounded s_) => ?_) ?_; swap; subst s_)
    | (extract_lets +onlyGivenNames s_; clear_value s_) | extract_lets +onlyGivenNames s_

theorem State.metaFail_bounded {s level idx} (h0 : Bounded s) : Bounded (State.metaFail s level idx) := by
  unfold State.metaFail
  with_reducible repeat' first
    | assumption | (intro _; try beta_reduce) | apply Bounded.ite_ | apply State.fetchFailed_bounded
    | apply State.finishRead_bounded | apply State.markPoisoned_bounded | apply State.poisonStep_bounded
    | apply State.setRead_bounded | apply State.stage_bounded | apply State.unqueueTilled_bounded
    | apply foldl_bounded | simp -zeta only [↓Bounded.mk_iff] | refine Bounded.ofSome ?_ (by assumption)
    | refine Bounded.ofSomeP ?_ (by assumption) | refine Bounded.ofPair ?_ (by assumption)
    | refine Bounded.ofPair2 ?_ (by assumption) | refine Bounded.ofPair3 ?_ (by assumption)
    | apply Bounded.getD_ | split
    | (extract_lets +onlyGivenNames s_; refine (fun (_ : Bounded s_) => ?_) ?_; swap; subst s_)
    | (extract_lets +onlyGivenNames s_; clear_value s_) | extract_lets +onlyGivenNames s_

theorem State.settleMeta1_bounded {s} (h0 : Bounded s) : Bounded (State.settleMeta1 s) := by
  unfold State.settleMeta1
  with_reducible repeat' first
    | assumption | (intro _; try beta_reduce) | apply Bounded.ite_ | apply State.cacheNode_bounded
    | apply State.metaFail_bounded | apply State.offer_bounded | apply State.tagFirst_bounded
    | apply foldl_bounded | simp -zeta only [↓Bounded.mk_iff] | refine Bounded.ofSome ?_ (by assumption)
    | refine Bounded.ofSomeP ?_ (by assumption) | refine Bounded.ofPair ?_ (by assumption)
    | refine Bounded.ofPair2 ?_ (by assumption) | refine Bounded.ofPair3 ?_ (by assumption)
    | apply Bounded.getD_ | split
    | (extract_lets +onlyGivenNames s_; refine (fun (_ : Bounded s_) => ?_) ?_; swap; subst s_)
    | (extract_lets +onlyGivenNames s_; clear_value s_) | extract_lets +onlyGivenNames s_

theorem State.settleMeta_bounded {s} (h0 : Bounded s) : Bounded (State.settleMeta s) := by
  unfold State.settleMeta
  with_reducible repeat' first
    | assumption | apply State.resolveReads_bounded | apply State.resolveWrites_bounded
    | apply State.settleMeta1_bounded

theorem execMetadataLineArrival_bounded {g tag line sb err s} (h5 : Bounded s) : BoundedRes (execMetadataLineArrival g tag line sb err s) := by
  unfold execMetadataLineArrival
  with_reducible repeat' first
    | assumption | (intro _; try beta_reduce) | apply BoundedRes.ite_ | apply BoundedRes.mkNext
    | exact BoundedRes.mkFault | apply Bounded.ite_ | apply State.dropAccess_bounded
    | apply State.fitCache_bounded | apply State.settleMeta_bounded | simp -zeta only [↓Bounded.mk_iff]
    | refine Bounded.ofSome ?_ (by assumption) | refine Bounded.ofSomeP ?_ (by assumption)
    | refine Bounded.ofPair ?_ (by assumption) | refine Bounded.ofPair2 ?_ (by assumption)
    | refine Bounded.ofPair3 ?_ (by assumption) | split
    | (extract_lets +onlyGivenNames s_; refine (fun (_ : Bounded s_) => ?_) ?_; swap; subst s_)
    | (extract_lets +onlyGivenNames s_; clear_value s_) | extract_lets +onlyGivenNames s_

theorem State.takeInjection_bounded {s id l c sb err} (h0 : Bounded s) : Bounded (State.takeInjection s id l c sb err) := by
  unfold State.takeInjection
  with_reducible repeat' first
    | assumption | apply Bounded.ite_ | apply State.incFld_bounded
    | simp -zeta only [↓Bounded.mk_iffO, ↓Bounded.mk_iffF] | split
    | (extract_lets +onlyGivenNames s_; have _x : Faults := s_; clear _x; subst s_)

theorem State.judgeLine_bounded {s lane id radioRead l} (h0 : Bounded s) : BoundedPair (State.judgeLine s lane id radioRead l) := by
  unfold State.judgeLine
  with_reducible repeat' first
    | assumption | (intro _; try beta_reduce) | apply BoundedPair.ite_ | apply BoundedPair.mk_
    | apply Bounded.ite_ | apply State.offer_bounded | apply State.takeInjection_bounded | apply Bounded.id_
    | simp -zeta only [↓Bounded.mk_iff] | refine Bounded.ofSome ?_ (by assumption)
    | refine Bounded.ofSomeP ?_ (by assumption) | refine Bounded.ofPair ?_ (by assumption)
    | refine Bounded.ofPair2 ?_ (by assumption) | refine Bounded.ofPair3 ?_ (by assumption)
    | apply Bounded.getD_ | split
    | (extract_lets +onlyGivenNames s_; refine (fun (_ : Bounded s_) => ?_) ?_; swap; subst s_)
    | (extract_lets +onlyGivenNames s_; clear_value s_) | extract_lets +onlyGivenNames s_
theorem State.judgeLine_bounded2 {s lane id radioRead l} (h0 : Bounded s) : Bounded (State.judgeLine s lane id radioRead l).2 := BoundedPair.of_snd (State.judgeLine_bounded h0)

theorem State.judgeLines_bounded {s lane id inAcc a4} (h0 : Bounded s) : BoundedPair (State.judgeLines s lane id inAcc a4) := by
  induction a4 generalizing s with
  | nil => exact BoundedPair.mk_ h0
  | cons d t ih =>
  unfold State.judgeLines
  with_reducible repeat' first
    | assumption | apply BoundedPair.of_snd (ih ?_) | apply BoundedPair.mk_ | apply State.judgeLine_bounded2 | split
theorem State.judgeLines_bounded2 {s lane id inAcc a4} (h0 : Bounded s) : Bounded (State.judgeLines s lane id inAcc a4).2 := BoundedPair.of_snd (State.judgeLines_bounded h0)

theorem State.judgeMove_bounded {s m inAcc a3} (h0 : Bounded s) : BoundedPair (State.judgeMove s m inAcc a3) := by
  induction a3 generalizing s with
  | nil => exact BoundedPair.mk_ h0
  | cons d t ih =>
  unfold State.judgeMove
  with_reducible repeat' first
    | assumption | apply BoundedPair.of_snd (ih ?_) | apply BoundedPair.mk_ | apply State.offer_bounded | split
theorem State.judgeMove_bounded2 {s m inAcc a3} (h0 : Bounded s) : Bounded (State.judgeMove s m inAcc a3).2 := BoundedPair.of_snd (State.judgeMove_bounded h0)

theorem execReadRelease_bounded {g s} (h1 : Bounded s) : BoundedRes (execReadRelease g s) := by
  unfold execReadRelease
  with_reducible repeat' first
    | assumption | (intro _; try beta_reduce) | apply BoundedRes.ite_ | apply BoundedRes.mkNext
    | exact BoundedRes.mkFault | apply Bounded.ite_ | apply State.emit_bounded | apply State.freeTid_bounded
    | apply State.laneProgress_bounded | apply State.pend_bounded | apply State.setRead_bounded
    | apply State.setStepEnt_bounded | apply Bounded.id_ | apply foldl_bounded
    | simp -zeta only [↓Bounded.mk_iff] | refine Bounded.ofSome ?_ (by assumption)
    | refine Bounded.ofSomeP ?_ (by assumption) | refine Bounded.ofPair ?_ (by assumption)
    | refine Bounded.ofPair2 ?_ (by assumption) | refine Bounded.ofPair3 ?_ (by assumption) | split
    | (extract_lets +onlyGivenNames s_; refine (fun (_ : Bounded s_) => ?_) ?_; swap; subst s_)
    | (extract_lets +onlyGivenNames s_; clear_value s_) | extract_lets +onlyGivenNames s_

theorem execRereadVerdict_bounded {g tag s} (h2 : Bounded s) : BoundedRes (execRereadVerdict g tag s) := by
  unfold execRereadVerdict
  with_reducible repeat' first
    | assumption | (intro _; try beta_reduce) | apply BoundedRes.ite_ | apply BoundedRes.mkNext
    | exact BoundedRes.mkFault | apply Bounded.ite_ | apply State.dropAccess_bounded
    | apply State.endInjection_bounded | apply State.finishRead_bounded | apply State.setRead_bounded
    | apply State.tagFirst_bounded | apply Bounded.id_ | simp -zeta only [↓Bounded.mk_iff]
    | refine Bounded.ofSome ?_ (by assumption) | refine Bounded.ofSomeP ?_ (by assumption)
    | refine Bounded.ofPair ?_ (by assumption) | refine Bounded.ofPair2 ?_ (by assumption)
    | refine Bounded.ofPair3 ?_ (by assumption) | split
    | (extract_lets +onlyGivenNames s_; refine (fun (_ : Bounded s_) => ?_) ?_; swap; subst s_)
    | (extract_lets +onlyGivenNames s_; clear_value s_) | extract_lets +onlyGivenNames s_

theorem execStileRelease_bounded {h s} (h1 : Bounded s) : BoundedRes (execStileRelease h s) := by
  unfold execStileRelease
  with_reducible repeat' first
    | assumption | (intro _; try beta_reduce) | apply BoundedRes.ite_ | apply BoundedRes.mkNext
    | exact BoundedRes.mkFault | apply Bounded.ite_ | apply State.count_bounded
    | apply State.dmaRelease_bounded | apply State.fabSend_bounded | apply State.fitCache_bounded
    | apply State.heldTime_bounded | apply State.holdLevel_bounded | apply State.performWrite_bounded
    | apply State.topUp_bounded | apply State.xferRelease_bounded | apply Bounded.id_
    | simp -zeta only [↓Bounded.mk_iff] | refine Bounded.ofSome ?_ (by assumption)
    | refine Bounded.ofSomeP ?_ (by assumption) | refine Bounded.ofPair ?_ (by assumption)
    | refine Bounded.ofPair2 ?_ (by assumption) | refine Bounded.ofPair3 ?_ (by assumption) | split
    | (extract_lets +onlyGivenNames s_; refine (fun (_ : Bounded s_) => ?_) ?_; swap; subst s_)
    | (extract_lets +onlyGivenNames s_; clear_value s_) | extract_lets +onlyGivenNames s_

theorem execDmcAccessAccept_bounded {g s} (h1 : Bounded s) : BoundedRes (execDmcAccessAccept g s) := by
  unfold execDmcAccessAccept
  with_reducible repeat' first
    | assumption | (intro _; try beta_reduce) | apply BoundedRes.ite_ | apply BoundedRes.mkNext
    | exact BoundedRes.mkFault | apply Bounded.ite_ | apply State.dropAccess_bounded
    | apply State.emit_bounded | apply State.laneProgress_bounded | simp -zeta only [↓Bounded.mk_iff]
    | refine Bounded.ofSome ?_ (by assumption) | refine Bounded.ofSomeP ?_ (by assumption)
    | refine Bounded.ofPair ?_ (by assumption) | refine Bounded.ofPair2 ?_ (by assumption)
    | refine Bounded.ofPair3 ?_ (by assumption) | split
    | (extract_lets +onlyGivenNames s_; refine (fun (_ : Bounded s_) => ?_) ?_; swap; subst s_)
    | (extract_lets +onlyGivenNames s_; clear_value s_) | extract_lets +onlyGivenNames s_

theorem execCreditRequest_bounded {n slot s} (h2 : Bounded s) : BoundedRes (execCreditRequest n slot s) := by
  unfold execCreditRequest
  with_reducible repeat' first
    | assumption | apply BoundedRes.ite_ | apply BoundedRes.mkNext | apply State.askCredit_bounded

theorem execCreditDecision_bounded {s} (h0 : Bounded s) : BoundedRes (execCreditDecision s) := by
  unfold execCreditDecision
  with_reducible repeat' first
    | assumption | (intro _; try beta_reduce) | apply BoundedRes.ite_ | apply BoundedRes.mkNext
    | exact BoundedRes.mkFault | apply Bounded.ite_ | apply State.fitCache_bounded
    | apply State.grantCredit_bounded | apply State.refuse_bounded | apply State.usageCheck_bounded
    | apply foldl_bounded | simp -zeta only [↓Bounded.mk_iff] | refine Bounded.ofSome ?_ (by assumption)
    | refine Bounded.ofSomeP ?_ (by assumption) | refine Bounded.ofPair ?_ (by assumption)
    | refine Bounded.ofPair2 ?_ (by assumption) | refine Bounded.ofPair3 ?_ (by assumption) | split
    | (extract_lets +onlyGivenNames s_; refine (fun (_ : Bounded s_) => ?_) ?_; swap; subst s_)
    | (extract_lets +onlyGivenNames s_; clear_value s_) | extract_lets +onlyGivenNames s_

theorem execNosuccRetry_bounded {s} (h0 : Bounded s) : BoundedRes (execNosuccRetry s) := by
  unfold execNosuccRetry
  with_reducible repeat' first
    | assumption | (intro _; try beta_reduce) | apply Bounded.ite_ | apply BoundedRes.mkNext
    | apply State.autoStart_bounded | apply State.obtainSucc_bounded | apply foldl_bounded

theorem execAutoStartRetry_bounded {s} (h0 : Bounded s) : BoundedRes (execAutoStartRetry s) := by
  unfold execAutoStartRetry
  with_reducible repeat' first
    | assumption | (intro _; try beta_reduce) | apply BoundedRes.ite_ | apply BoundedRes.mkNext
    | exact BoundedRes.mkFault | apply Bounded.ite_ | apply State.autoMeta_bounded
    | apply State.autoStart_bounded | apply foldl_bounded | split
    | (extract_lets +onlyGivenNames s_; refine (fun (_ : Bounded s_) => ?_) ?_; swap; subst s_)
    | (extract_lets +onlyGivenNames s_; clear_value s_) | extract_lets +onlyGivenNames s_

theorem execCounterEvict_bounded {level idx s} (h2 : Bounded s) : BoundedRes (execCounterEvict level idx s) := by
  unfold execCounterEvict
  with_reducible repeat' first
    | assumption | apply BoundedRes.mkNext | apply State.evict_bounded

theorem State.passChild_bounded {s r t} (h0 : Bounded s) : Bounded (State.passChild s r t) := by
  unfold State.passChild
  with_reducible repeat' first
    | assumption | (intro _; try beta_reduce) | apply Bounded.ite_ | apply State.evict_bounded
    | simp -zeta only [↓Bounded.mk_iff] | split
    | (extract_lets +onlyGivenNames s_; refine (fun (_ : Bounded s_) => ?_) ?_; swap; subst s_)
    | (extract_lets +onlyGivenNames s_; clear_value s_) | extract_lets +onlyGivenNames s_

theorem State.retagChild_bounded {s t c} (h0 : Bounded s) : Bounded (State.retagChild s t c) := by
  unfold State.retagChild
  with_reducible repeat' first
    | assumption | (intro _; try beta_reduce) | apply Bounded.ite_ | apply State.cacheNode_bounded
    | apply State.chargeMeta_bounded | apply State.count_bounded | apply State.offer_bounded
    | apply Bounded.getD_ | split
    | (extract_lets +onlyGivenNames s_; refine (fun (_ : Bounded s_) => ?_) ?_; swap; subst s_)
    | (extract_lets +onlyGivenNames s_; clear_value s_) | extract_lets +onlyGivenNames s_

theorem execNodeRetag_bounded {r s} (h1 : Bounded s) : BoundedRes (execNodeRetag r s) := by
  unfold execNodeRetag
  with_reducible repeat' first
    | assumption | (intro _; try beta_reduce) | apply BoundedRes.ite_ | apply BoundedRes.mkNext
    | exact BoundedRes.mkFault | apply Bounded.ite_ | apply State.cacheNode_bounded
    | apply State.fetchMeta_bounded | apply State.passChild_bounded | apply State.retagChild_bounded
    | simp -zeta only [↓Bounded.mk_iff] | refine Bounded.ofSome ?_ (by assumption)
    | refine Bounded.ofSomeP ?_ (by assumption) | refine Bounded.ofPair ?_ (by assumption)
    | refine Bounded.ofPair2 ?_ (by assumption) | refine Bounded.ofPair3 ?_ (by assumption) | split
    | (extract_lets +onlyGivenNames s_; refine (fun (_ : Bounded s_) => ?_) ?_; swap; subst s_)
    | (extract_lets +onlyGivenNames s_; clear_value s_) | extract_lets +onlyGivenNames s_

theorem execTagVerdict_bounded {g tag s} (h2 : Bounded s) : BoundedRes (execTagVerdict g tag s) := by
  unfold execTagVerdict
  with_reducible repeat' first
    | assumption | (intro _; try beta_reduce) | apply BoundedRes.ite_ | apply BoundedRes.mkNext
    | exact BoundedRes.mkFault | apply Bounded.ite_ | apply Rd.fill_bounded | apply State.dropAccess_bounded
    | apply State.finishRead_bounded | apply State.incFld_bounded | apply State.judgeLines_bounded
    | apply State.judgeLines_bounded2 | apply State.judgeMove_bounded | apply State.judgeMove_bounded2
    | apply State.passRead_bounded | apply State.poisonStep_bounded | apply State.setRead_bounded
    | apply foldl_bounded  | refine Bounded.ofSome ?_ (by assumption)
    | refine Bounded.ofSomeP ?_ (by assumption) | refine Bounded.ofPair ?_ (by assumption)
    | refine Bounded.ofPair2 ?_ (by assumption) | refine Bounded.ofPair3 ?_ (by assumption) | split
    | (extract_lets +onlyGivenNames s_; clear_value s_) | extract_lets +onlyGivenNames s_ | apply Bounded.mk_iff.mpr

theorem execPageUnlock_bounded {n page s} (h2 : Bounded s) : BoundedRes (execPageUnlock n page s) := by
  unfold execPageUnlock
  with_reducible repeat' first
    | assumption | (intro _; try beta_reduce) | apply BoundedRes.ite_ | apply BoundedRes.mkNext
    | exact BoundedRes.mkFault | apply Bounded.ite_ | apply State.cycles_bounded
    | apply State.cycles_bounded2 | apply State.drawEpoch_bounded | apply State.drawEpoch_bounded2
    | apply State.fitCache_bounded | apply State.maintWrites_bounded | apply State.offerLines_bounded
    | apply State.record_bounded | apply State.resolveReads_bounded | apply State.resolveWrites_bounded
    | apply State.setNode_bounded | apply State.trace_bounded | apply foldl_bounded
     | refine Bounded.ofSome ?_ (by assumption)
    | refine Bounded.ofSomeP ?_ (by assumption) | refine Bounded.ofPair ?_ (by assumption)
    | refine Bounded.ofPair2 ?_ (by assumption) | refine Bounded.ofPair3 ?_ (by assumption)
    | apply Bounded.getD_ | split
    | (extract_lets +onlyGivenNames s_; clear_value s_) | extract_lets +onlyGivenNames s_ | apply Bounded.mk_iff.mpr

end Sys2Proof.Machine
end

