-- ==== Sys2Proof/Laws/BoundedLinks.lean ====
section
/-! SUPPORT. Every operation of Machine/Links.lean keeps the bounds. -/

namespace Sys2Proof.Machine

theorem State.sendGrant_bounded {s o a revoke} (h0 : Bounded s) : Bounded (State.sendGrant s o a revoke) := by
  unfold State.sendGrant
  with_reducible repeat' first
    | assumption | apply Bounded.ite_ | apply State.engineEnd_bounded | apply State.sendCtl_bounded
    | apply State.setFld_bounded | apply State.withLinks_bounded | split

theorem State.grantCmd_bounded {s o revoke} (h0 : Bounded s) : Bounded (State.grantCmd s o revoke) := by
  unfold State.grantCmd
  with_reducible repeat' first
    | assumption | (intro _; try beta_reduce) | apply Bounded.ite_ | apply State.ownerCmd_bounded
    | apply State.sendGrant_bounded | apply State.setCmd_bounded | apply State.svcCmd_bounded
    | apply State.svcDone_bounded | split

theorem execFabGrant_bounded {o s} (h1 : Bounded s) : BoundedRes (execFabGrant o s) := by
  unfold execFabGrant
  with_reducible repeat' first
    | assumption | apply BoundedRes.mkNext | apply State.grantCmd_bounded

theorem execFabRevoke_bounded {o s} (h1 : Bounded s) : BoundedRes (execFabRevoke o s) := by
  unfold execFabRevoke
  with_reducible repeat' first
    | assumption | apply BoundedRes.mkNext | apply State.grantCmd_bounded

theorem State.actrReadAt_bounded {s o i} (h0 : Bounded s) : Bounded (State.actrReadAt s o i) := by
  unfold State.actrReadAt
  with_reducible repeat' first
    | assumption | apply Bounded.ite_ | apply State.setFld_bounded | apply State.svcDone_bounded
    | apply State.wr_bounded | split

theorem State.actrCmd_bounded {s i port f} (h0 : Bounded s) (h3 : ∀ x0, Bounded x0 → Bounded (f x0)) : Bounded (State.actrCmd s i port f) := by
  unfold State.actrCmd
  with_reducible repeat' first
    | assumption | (intro _; try beta_reduce) | apply Bounded.ite_ | apply h3 | apply State.regCmd_bounded
    | split

theorem execActrRead_bounded {o c s} (h2 : Bounded s) : BoundedRes (execActrRead o c s) := by
  unfold execActrRead
  with_reducible repeat' first
    | assumption | (intro _; try beta_reduce) | apply BoundedRes.ite_ | apply BoundedRes.mkNext
    | exact BoundedRes.mkFault | apply Bounded.ite_ | apply State.actrCmd_bounded
    | apply State.actrReadAt_bounded | apply State.queueCmd_bounded | apply State.svcDone_bounded
    | refine Bounded.ofSome ?_ (by assumption) | refine Bounded.ofSomeP ?_ (by assumption)
    | refine Bounded.ofPair ?_ (by assumption) | refine Bounded.ofPair2 ?_ (by assumption)
    | refine Bounded.ofPair3 ?_ (by assumption) | split
    | (extract_lets +onlyGivenNames s_; refine (fun (_ : Bounded s_) => ?_) ?_; swap; subst s_)
    | (extract_lets +onlyGivenNames s_; clear_value s_) | extract_lets +onlyGivenNames s_

theorem State.actrSet_bounded {s o i part target} (h0 : Bounded s) : Bounded (State.actrSet s o i part target) := by
  unfold State.actrSet
  with_reducible repeat' first
    | assumption | (intro _; try beta_reduce) | apply Bounded.ite_ | apply State.count_bounded
    | apply State.setActr_bounded | apply State.setFld_bounded | apply State.svcDone_bounded
    | refine Bounded.ofSome ?_ (by assumption) | refine Bounded.ofSomeP ?_ (by assumption)
    | refine Bounded.ofPair ?_ (by assumption) | refine Bounded.ofPair2 ?_ (by assumption)
    | refine Bounded.ofPair3 ?_ (by assumption) | split
    | (extract_lets +onlyGivenNames s_; refine (fun (_ : Bounded s_) => ?_) ?_; swap; subst s_)
    | (extract_lets +onlyGivenNames s_; clear_value s_) | extract_lets +onlyGivenNames s_

theorem execActrConfig_bounded {o c s} (h2 : Bounded s) : BoundedRes (execActrConfig o c s) := by
  unfold execActrConfig
  with_reducible repeat' first
    | assumption | (intro _; try beta_reduce) | apply BoundedRes.ite_ | apply BoundedRes.mkNext
    | exact BoundedRes.mkFault | apply Bounded.ite_ | apply State.actrCmd_bounded
    | apply State.actrSet_bounded | apply State.queueCmd_bounded | apply State.setFld_bounded
    | apply State.svcDone_bounded | refine Bounded.ofSome ?_ (by assumption)
    | refine Bounded.ofSomeP ?_ (by assumption) | refine Bounded.ofPair ?_ (by assumption)
    | refine Bounded.ofPair2 ?_ (by assumption) | refine Bounded.ofPair3 ?_ (by assumption) | split
    | (extract_lets +onlyGivenNames s_; refine (fun (_ : Bounded s_) => ?_) ?_; swap; subst s_)
    | (extract_lets +onlyGivenNames s_; clear_value s_) | extract_lets +onlyGivenNames s_

theorem State.actrClear_bounded {s o i} (h0 : Bounded s) : Bounded (State.actrClear s o i) := by
  unfold State.actrClear
  with_reducible repeat' first
    | assumption | (intro _; try beta_reduce) | apply Bounded.ite_ | apply State.setActr_bounded
    | apply State.setFld_bounded | apply State.svcDone_bounded | simp -zeta only [↓Bounded.mk_iff]
    | refine Bounded.ofSome ?_ (by assumption) | refine Bounded.ofSomeP ?_ (by assumption)
    | refine Bounded.ofPair ?_ (by assumption) | refine Bounded.ofPair2 ?_ (by assumption)
    | refine Bounded.ofPair3 ?_ (by assumption) | split
    | (extract_lets +onlyGivenNames s_; refine (fun (_ : Bounded s_) => ?_) ?_; swap; subst s_)
    | (extract_lets +onlyGivenNames s_; clear_value s_) | extract_lets +onlyGivenNames s_

theorem execActrRelease_bounded {o c s} (h2 : Bounded s) : BoundedRes (execActrRelease o c s) := by
  unfold execActrRelease
  with_reducible repeat' first
    | assumption | (intro _; try beta_reduce) | apply BoundedRes.ite_ | apply BoundedRes.mkNext
    | exact BoundedRes.mkFault | apply Bounded.ite_ | apply State.actrClear_bounded
    | apply State.actrCmd_bounded | apply State.queueCmd_bounded | apply State.setFld_bounded
    | apply State.svcDone_bounded | refine Bounded.ofSome ?_ (by assumption)
    | refine Bounded.ofSomeP ?_ (by assumption) | refine Bounded.ofPair ?_ (by assumption)
    | refine Bounded.ofPair2 ?_ (by assumption) | refine Bounded.ofPair3 ?_ (by assumption) | split
    | (extract_lets +onlyGivenNames s_; refine (fun (_ : Bounded s_) => ?_) ?_; swap; subst s_)
    | (extract_lets +onlyGivenNames s_; clear_value s_) | extract_lets +onlyGivenNames s_

theorem State.breakAt_bounded {s port f seq tag} (h0 : Bounded s) : Bounded (State.breakAt s port f seq tag) := by
  unfold State.breakAt
  with_reducible repeat' first
    | assumption | (intro _; try beta_reduce) | apply Bounded.ite_ | apply State.count_bounded
    | apply State.incFld_bounded | apply State.record_bounded | apply State.sendCtl_bounded
    | apply State.setRx_bounded | apply State.trace_bounded | apply Bounded.id_
    | simp -zeta only [↓Bounded.mk_iff] | split
    | (extract_lets +onlyGivenNames s_; refine (fun (_ : Bounded s_) => ?_) ?_; swap; subst s_)
    | (extract_lets +onlyGivenNames s_; clear_value s_) | extract_lets +onlyGivenNames s_

theorem State.portDown_bounded {s n rehearsal} (h0 : Bounded s) : Bounded (State.portDown s n rehearsal) := by
  unfold State.portDown
  with_reducible repeat' first
    | assumption | apply Bounded.ite_ | apply State.record_bounded | apply State.unitDown_bounded
    | apply State.withLinks_bounded | split

theorem execFabricRequest_bounded {i r s} (h2 : Bounded s) : BoundedRes (execFabricRequest i r s) := by
  unfold execFabricRequest
  with_reducible repeat' first
    | assumption | (intro _; try beta_reduce) | apply BoundedRes.ite_ | apply BoundedRes.mkNext
    | exact BoundedRes.mkFault | apply Bounded.ite_ | apply State.discard_bounded
    | apply State.fabRefuse_bounded | apply State.fabSend_bounded | apply State.frsp_bounded
    | apply State.hold_bounded | apply State.openStep_bounded | apply State.openStep_bounded2
    | apply State.withMem_bounded | simp -zeta only [↓Bounded.mk_iff]
    | refine Bounded.ofSome ?_ (by assumption) | refine Bounded.ofSomeP ?_ (by assumption)
    | refine Bounded.ofPair ?_ (by assumption) | refine Bounded.ofPair2 ?_ (by assumption)
    | refine Bounded.ofPair3 ?_ (by assumption) | split
    | (extract_lets +onlyGivenNames s_; refine (fun (_ : Bounded s_) => ?_) ?_; swap; subst s_)
    | (extract_lets +onlyGivenNames s_; clear_value s_) | extract_lets +onlyGivenNames s_

theorem State.takeOwed_bounded {s f} (h0 : Bounded s) : BoundedPair (State.takeOwed s f) := by
  unfold State.takeOwed
  with_reducible repeat' first
    | assumption | (intro _; try beta_reduce) | apply BoundedPair.ite_ | apply BoundedPair.mk_
    | apply Bounded.ite_ | apply State.setRx_bounded | simp -zeta only [↓Bounded.mk_iff] | split
    | (extract_lets +onlyGivenNames s_; refine (fun (_ : Bounded s_) => ?_) ?_; swap; subst s_)
    | (extract_lets +onlyGivenNames s_; clear_value s_) | extract_lets +onlyGivenNames s_
theorem State.takeOwed_bounded2 {s f} (h0 : Bounded s) : Bounded (State.takeOwed s f).2 := BoundedPair.of_snd (State.takeOwed_bounded h0)

theorem State.rspCredit_bounded {s src lane} (h0 : Bounded s) : BoundedPair (State.rspCredit s src lane) := by
  unfold State.rspCredit
  with_reducible repeat' first
    | assumption | (intro _; try beta_reduce) | apply BoundedPair.ite_ | apply BoundedPair.mk_
    | apply Bounded.ite_ | apply State.takeOwed_bounded | apply State.takeOwed_bounded2
    | refine Bounded.ofSome ?_ (by assumption) | refine Bounded.ofSomeP ?_ (by assumption)
    | refine Bounded.ofPair ?_ (by assumption) | refine Bounded.ofPair2 ?_ (by assumption)
    | refine Bounded.ofPair3 ?_ (by assumption) | split
theorem State.rspCredit_bounded2 {s src lane} (h0 : Bounded s) : Bounded (State.rspCredit s src lane).2 := BoundedPair.of_snd (State.rspCredit_bounded h0)

theorem State.collectRsps_bounded {s lane dest} (h0 : Bounded s) : Bounded (State.collectRsps s lane dest) := by
  unfold State.collectRsps
  with_reducible repeat' first
    | assumption | (intro _; try beta_reduce) | apply Bounded.ite_ | apply State.enterMsg_bounded
    | apply State.rspCredit_bounded | apply State.rspCredit_bounded2 | apply State.withMem_bounded
    | apply foldl_bounded | simp -zeta only [↓Bounded.mk_iff] | refine Bounded.ofSome ?_ (by assumption)
    | refine Bounded.ofSomeP ?_ (by assumption) | refine Bounded.ofPair ?_ (by assumption)
    | refine Bounded.ofPair2 ?_ (by assumption) | refine Bounded.ofPair3 ?_ (by assumption) | split
    | (extract_lets +onlyGivenNames s_; refine (fun (_ : Bounded s_) => ?_) ?_; swap; subst s_)
    | (extract_lets +onlyGivenNames s_; clear_value s_) | extract_lets +onlyGivenNames s_

theorem State.noteSent_bounded {s f seq m} (h0 : Bounded s) : Bounded (State.noteSent s f seq m) := by
  unfold State.noteSent
  with_reducible repeat' first
    | assumption | (intro _; try beta_reduce) | apply Bounded.ite_ | apply State.frsp_bounded
    | apply State.withLinks_bounded | simp -zeta only [↓Bounded.mk_iff]
    | refine Bounded.ofSome ?_ (by assumption) | refine Bounded.ofSomeP ?_ (by assumption)
    | refine Bounded.ofPair ?_ (by assumption) | refine Bounded.ofPair2 ?_ (by assumption)
    | refine Bounded.ofPair3 ?_ (by assumption) | split
    | (extract_lets +onlyGivenNames s_; refine (fun (_ : Bounded s_) => ?_) ?_; swap; subst s_)
    | (extract_lets +onlyGivenNames s_; clear_value s_) | extract_lets +onlyGivenNames s_

theorem State.sealOpen_bounded {s f} (h0 : Bounded s) : Bounded (State.sealOpen s f) := by
  unfold State.sealOpen
  with_reducible repeat' first
    | assumption | (intro _; try beta_reduce) | apply Bounded.ite_ | apply State.chargeSlot_bounded
    | apply State.count_bounded | apply State.emit_bounded | apply State.noteSent_bounded
    | apply State.setPort_bounded | apply State.setTx_bounded | apply State.spend_bounded
    | apply State.useFlow_bounded | apply foldl_bounded | simp -zeta only [↓Bounded.mk_iff]
    | refine Bounded.ofSome ?_ (by assumption) | refine Bounded.ofSomeP ?_ (by assumption)
    | refine Bounded.ofPair ?_ (by assumption) | refine Bounded.ofPair2 ?_ (by assumption)
    | refine Bounded.ofPair3 ?_ (by assumption) | apply Bounded.getD_ | split
    | (extract_lets +onlyGivenNames s_; refine (fun (_ : Bounded s_) => ?_) ?_; swap; subst s_)
    | (extract_lets +onlyGivenNames s_; clear_value s_) | extract_lets +onlyGivenNames s_

theorem execFrameClose_bounded {flow dest s} (h2 : Bounded s) : BoundedRes (execFrameClose flow dest s) := by
  unfold execFrameClose
  with_reducible repeat' first
    | assumption | (intro _; try beta_reduce) | apply BoundedRes.ite_ | apply BoundedRes.mkNext
    | exact BoundedRes.mkFault | apply Bounded.ite_ | apply State.collectRsps_bounded
    | apply State.sealOpen_bounded | apply State.withhold_bounded | refine Bounded.ofSome ?_ (by assumption)
    | refine Bounded.ofSomeP ?_ (by assumption) | refine Bounded.ofPair ?_ (by assumption)
    | refine Bounded.ofPair2 ?_ (by assumption) | refine Bounded.ofPair3 ?_ (by assumption) | split
    | (extract_lets +onlyGivenNames s_; refine (fun (_ : Bounded s_) => ?_) ?_; swap; subst s_)
    | (extract_lets +onlyGivenNames s_; clear_value s_) | extract_lets +onlyGivenNames s_

theorem State.remoteRequest_bounded {s port src lane m} (h0 : Bounded s) : Bounded (State.remoteRequest s port src lane m) := by
  unfold State.remoteRequest
  with_reducible repeat' first
    | assumption | (intro _; try beta_reduce) | apply Bounded.ite_ | apply State.arrive_bounded
    | apply State.count_bounded | apply State.incFld_bounded | apply State.refuse_bounded
    | apply State.trace_bounded | apply State.withLinks_bounded | apply State.withMem_bounded
    | apply Bounded.id_ | simp -zeta only [↓Bounded.mk_iff] | refine Bounded.ofSome ?_ (by assumption)
    | refine Bounded.ofSomeP ?_ (by assumption) | refine Bounded.ofPair ?_ (by assumption)
    | refine Bounded.ofPair2 ?_ (by assumption) | refine Bounded.ofPair3 ?_ (by assumption)
    | apply Bounded.getD_ | split
    | (extract_lets +onlyGivenNames s_; refine (fun (_ : Bounded s_) => ?_) ?_; swap; subst s_)
    | (extract_lets +onlyGivenNames s_; clear_value s_) | extract_lets +onlyGivenNames s_

theorem State.grantAnswer_bounded {s g st} (h0 : Bounded s) : Bounded (State.grantAnswer s g st) := by
  unfold State.grantAnswer
  with_reducible repeat' first
    | assumption | apply State.engineEnd_bounded | apply State.withLinks_bounded

theorem State.addCredit_bounded {s mine n} (h0 : Bounded s) : Bounded (State.addCredit s mine n) := by
  unfold State.addCredit
  with_reducible repeat' first
    | assumption | (intro _; try beta_reduce) | apply Bounded.ite_ | apply State.withLinks_bounded
    | simp -zeta only [↓Bounded.mk_iff] | split
    | (extract_lets +onlyGivenNames s_; refine (fun (_ : Bounded s_) => ?_) ?_; swap; subst s_)
    | (extract_lets +onlyGivenNames s_; clear_value s_) | extract_lets +onlyGivenNames s_

theorem State.response_bounded {s src lane m} (h0 : Bounded s) : Bounded (State.response s src lane m) := by
  unfold State.response
  with_reducible repeat' first
    | assumption | (intro _; try beta_reduce) | apply Bounded.ite_ | apply State.addCredit_bounded
    | apply State.finishOut_bounded | apply State.grantAnswer_bounded | apply State.grant_bounded
    | apply State.incFld_bounded | apply State.withLinks_bounded | simp -zeta only [↓Bounded.mk_iff]
    | refine Bounded.ofSome ?_ (by assumption) | refine Bounded.ofSomeP ?_ (by assumption)
    | refine Bounded.ofPair ?_ (by assumption) | refine Bounded.ofPair2 ?_ (by assumption)
    | refine Bounded.ofPair3 ?_ (by assumption) | split
    | (extract_lets +onlyGivenNames s_; refine (fun (_ : Bounded s_) => ?_) ?_; swap; subst s_)
    | (extract_lets +onlyGivenNames s_; clear_value s_) | extract_lets +onlyGivenNames s_

theorem State.capMessage_bounded {s src m} (h0 : Bounded s) : Bounded (State.capMessage s src m) := by
  unfold State.capMessage
  with_reducible repeat' first
    | assumption | (intro _; try beta_reduce) | apply Bounded.ite_ | apply State.rspCredit_bounded
    | apply State.rspCredit_bounded2 | apply State.sendCtl_bounded | apply State.withLinks_bounded
    | simp -zeta only [↓Bounded.mk_iff] | refine Bounded.ofSome ?_ (by assumption)
    | refine Bounded.ofSomeP ?_ (by assumption) | refine Bounded.ofPair ?_ (by assumption)
    | refine Bounded.ofPair2 ?_ (by assumption) | refine Bounded.ofPair3 ?_ (by assumption) | split
    | (extract_lets +onlyGivenNames s_; refine (fun (_ : Bounded s_) => ?_) ?_; swap; subst s_)
    | (extract_lets +onlyGivenNames s_; clear_value s_) | extract_lets +onlyGivenNames s_

theorem State.message_bounded {s port f m} (h0 : Bounded s) : Bounded (State.message s port f m) := by
  unfold State.message
  with_reducible repeat' first
    | assumption | (intro _; try beta_reduce) | apply Bounded.ite_ | apply State.addCredit_bounded
    | apply State.capMessage_bounded | apply State.incFld_bounded | apply State.remoteRequest_bounded
    | apply State.response_bounded | apply State.withLinks_bounded | simp -zeta only [↓Bounded.mk_iff]
    | refine Bounded.ofSome ?_ (by assumption) | refine Bounded.ofSomeP ?_ (by assumption)
    | refine Bounded.ofPair ?_ (by assumption) | refine Bounded.ofPair2 ?_ (by assumption)
    | refine Bounded.ofPair3 ?_ (by assumption) | split
    | (extract_lets +onlyGivenNames s_; refine (fun (_ : Bounded s_) => ?_) ?_; swap; subst s_)
    | (extract_lets +onlyGivenNames s_; clear_value s_) | extract_lets +onlyGivenNames s_

theorem State.passOn_bounded {s port f payload} (h0 : Bounded s) : Bounded (State.passOn s port f payload) := by
  unfold State.passOn
  with_reducible repeat' first
    | assumption | (intro _; try beta_reduce) | apply Bounded.ite_ | apply State.count_bounded
    | apply State.incFld_bounded | apply State.message_bounded | apply State.withLinks_bounded
    | apply foldl_bounded | simp -zeta only [↓Bounded.mk_iff] | refine Bounded.ofSome ?_ (by assumption)
    | refine Bounded.ofSomeP ?_ (by assumption) | refine Bounded.ofPair ?_ (by assumption)
    | refine Bounded.ofPair2 ?_ (by assumption) | refine Bounded.ofPair3 ?_ (by assumption) | split
    | (extract_lets +onlyGivenNames s_; refine (fun (_ : Bounded s_) => ?_) ?_; swap; subst s_)
    | (extract_lets +onlyGivenNames s_; clear_value s_) | extract_lets +onlyGivenNames s_

theorem State.roomRx_bounded {s} (h0 : Bounded s) : Bounded (State.roomRx s) := by
  unfold State.roomRx
  with_reducible repeat' first
    | assumption | (intro _; try beta_reduce) | apply Bounded.ite_ | apply State.dropRx_bounded
    | apply State.trace_bounded | apply foldl_bounded | refine Bounded.ofSome ?_ (by assumption)
    | refine Bounded.ofSomeP ?_ (by assumption) | refine Bounded.ofPair ?_ (by assumption)
    | refine Bounded.ofPair2 ?_ (by assumption) | refine Bounded.ofPair3 ?_ (by assumption) | split
    | (extract_lets +onlyGivenNames s_; refine (fun (_ : Bounded s_) => ?_) ?_; swap; subst s_)
    | (extract_lets +onlyGivenNames s_; clear_value s_) | extract_lets +onlyGivenNames s_

theorem State.openRx_bounded {s f key} (h0 : Bounded s) : BoundedOpt (State.openRx s f key) := by
  unfold State.openRx
  with_reducible repeat' first
    | assumption | (intro _; try beta_reduce) | apply BoundedOpt.ite_ | apply BoundedOpt.mkSome
    | exact BoundedOpt.mkNone | apply Bounded.ite_ | apply State.count_bounded | apply State.dropRx_bounded
    | apply State.flowSlot_bounded | apply State.pinCell_bounded | apply State.pin_bounded
    | apply State.roomRx_bounded | apply State.trace_bounded | apply State.useFlow_bounded
    | apply State.withLinks_bounded | apply foldl_bounded | simp -zeta only [↓Bounded.mk_iff]
    | refine Bounded.ofSome ?_ (by assumption) | refine Bounded.ofSomeP ?_ (by assumption)
    | refine Bounded.ofPair ?_ (by assumption) | refine Bounded.ofPair2 ?_ (by assumption)
    | refine Bounded.ofPair3 ?_ (by assumption) | split
    | (extract_lets +onlyGivenNames s_; refine (fun (_ : Bounded s_) => ?_) ?_; swap; subst s_)
    | (extract_lets +onlyGivenNames s_; clear_value s_) | extract_lets +onlyGivenNames s_

theorem State.frameIn_bounded {s port fr seq f} (h0 : Bounded s) : Bounded (State.frameIn s port fr seq f) := by
  unfold State.frameIn
  with_reducible repeat' first
    | assumption | (intro _; try beta_reduce) | apply Bounded.ite_ | apply State.breakAt_bounded
    | apply State.incFld_bounded | apply State.passOn_bounded | apply State.setRx_bounded
    | apply State.useFlow_bounded | simp -zeta only [↓Bounded.mk_iff]
    | refine Bounded.ofSome ?_ (by assumption) | refine Bounded.ofSomeP ?_ (by assumption)
    | refine Bounded.ofPair ?_ (by assumption) | refine Bounded.ofPair2 ?_ (by assumption)
    | refine Bounded.ofPair3 ?_ (by assumption) | split
    | (extract_lets +onlyGivenNames s_; refine (fun (_ : Bounded s_) => ?_) ?_; swap; subst s_)
    | (extract_lets +onlyGivenNames s_; clear_value s_) | extract_lets +onlyGivenNames s_

theorem State.breakFirst_bounded {s port f seq tag} (h0 : Bounded s) : Bounded (State.breakFirst s port f seq tag) := by
  unfold State.breakFirst
  with_reducible repeat' first
    | assumption | (intro _; try beta_reduce) | apply Bounded.ite_ | apply State.breakAt_bounded
    | apply State.roomRx_bounded | apply State.withLinks_bounded | simp -zeta only [↓Bounded.mk_iff] | split
    | (extract_lets +onlyGivenNames s_; refine (fun (_ : Bounded s_) => ?_) ?_; swap; subst s_)
    | (extract_lets +onlyGivenNames s_; clear_value s_) | extract_lets +onlyGivenNames s_

theorem State.frameFirst_bounded {s port fr h cands} (h0 : Bounded s) : Bounded (State.frameFirst s port fr h cands) := by
  unfold State.frameFirst
  with_reducible repeat' first
    | assumption | (intro _; try beta_reduce) | apply Bounded.ite_ | apply State.breakFirst_bounded
    | apply State.commitNext_bounded | apply State.incFld_bounded | apply State.openRx_bounded
    | apply State.passOn_bounded | simp -zeta only [↓Bounded.mk_iff]
    | refine Bounded.ofSome ?_ (by assumption) | refine Bounded.ofSomeP ?_ (by assumption)
    | refine Bounded.ofPair ?_ (by assumption) | refine Bounded.ofPair2 ?_ (by assumption)
    | refine Bounded.ofPair3 ?_ (by assumption) | apply Bounded.getD_ | split
    | (extract_lets +onlyGivenNames s_; refine (fun (_ : Bounded s_) => ?_) ?_; swap; subst s_)
    | (extract_lets +onlyGivenNames s_; clear_value s_) | extract_lets +onlyGivenNames s_

theorem State.frameFor_bounded {s port fr h} (h0 : Bounded s) : Bounded (State.frameFor s port fr h) := by
  unfold State.frameFor
  with_reducible repeat' first
    | assumption | (intro _; try beta_reduce) | apply Bounded.ite_ | apply State.frameFirst_bounded
    | apply State.frameIn_bounded | refine Bounded.ofSome ?_ (by assumption)
    | refine Bounded.ofSomeP ?_ (by assumption) | refine Bounded.ofPair ?_ (by assumption)
    | refine Bounded.ofPair2 ?_ (by assumption) | refine Bounded.ofPair3 ?_ (by assumption) | split
    | (extract_lets +onlyGivenNames s_; refine (fun (_ : Bounded s_) => ?_) ?_; swap; subst s_)
    | (extract_lets +onlyGivenNames s_; clear_value s_) | extract_lets +onlyGivenNames s_

theorem execFrameReceive_bounded {port fr bad s} (h3 : Bounded s) : BoundedRes (execFrameReceive port fr bad s) := by
  unfold execFrameReceive
  with_reducible repeat' first
    | assumption | (intro _; try beta_reduce) | apply BoundedRes.ite_ | apply BoundedRes.mkNext
    | exact BoundedRes.mkFault | apply Bounded.ite_ | apply State.frameFor_bounded
    | apply State.incFld_bounded | apply State.retryWaiting_bounded | apply State.spend_bounded | split
    | (extract_lets +onlyGivenNames s_; refine (fun (_ : Bounded s_) => ?_) ?_; swap; subst s_)
    | (extract_lets +onlyGivenNames s_; clear_value s_) | extract_lets +onlyGivenNames s_

theorem State.flagEffect_bounded {s t r old} (h0 : Bounded s) : Bounded (State.flagEffect s t r old) := by
  unfold State.flagEffect
  with_reducible repeat' first
    | assumption | (intro _; try beta_reduce) | apply Bounded.ite_ | apply State.chargeCap_bounded
    | apply State.chargeCap_bounded2 | apply State.countCapFail_bounded | apply State.count_bounded
    | apply State.cycles_bounded | apply State.cycles_bounded2 | apply State.finishAtomic_bounded
    | apply State.grantCredit_bounded | apply State.incFld_bounded | apply State.refuse_bounded
    | apply State.trace_bounded | apply Bounded.id_ | apply foldl_bounded
    | refine Bounded.ofSome ?_ (by assumption) | refine Bounded.ofSomeP ?_ (by assumption)
    | refine Bounded.ofPair ?_ (by assumption) | refine Bounded.ofPair2 ?_ (by assumption)
    | refine Bounded.ofPair3 ?_ (by assumption) | split
    | (extract_lets +onlyGivenNames s_; refine (fun (_ : Bounded s_) => ?_) ?_; swap; subst s_)
    | (extract_lets +onlyGivenNames s_; clear_value s_) | extract_lets +onlyGivenNames s_

theorem execFlagStoreEffect_bounded {w old s} (h2 : Bounded s) : BoundedRes (execFlagStoreEffect w old s) := by
  unfold execFlagStoreEffect
  with_reducible repeat' first
    | assumption | apply BoundedRes.ite_ | apply BoundedRes.mkNext
    | apply State.flagEffect_bounded | apply State.withLinks_bounded
    | split | (extract_lets +onlyGivenNames s_; clear_value s_)

theorem execBreakReceive_bounded {src flow q s} (h3 : Bounded s) : BoundedRes (execBreakReceive src flow q s) := by
  unfold execBreakReceive
  with_reducible repeat' first
    | assumption | (intro _; try beta_reduce) | apply BoundedRes.ite_ | apply BoundedRes.mkNext
    | exact BoundedRes.mkFault | apply Bounded.ite_ | apply State.finishOut_bounded
    | apply State.moveTx_bounded | apply State.retryWaiting_bounded | apply State.setTx_bounded
    | apply State.trace_bounded | apply State.withLinks_bounded | apply foldl_bounded
    | simp -zeta only [↓Bounded.mk_iff] | refine Bounded.ofSome ?_ (by assumption)
    | refine Bounded.ofSomeP ?_ (by assumption) | refine Bounded.ofPair ?_ (by assumption)
    | refine Bounded.ofPair2 ?_ (by assumption) | refine Bounded.ofPair3 ?_ (by assumption)
    | apply Bounded.getD_ | split
    | (extract_lets +onlyGivenNames s_; refine (fun (_ : Bounded s_) => ?_) ?_; swap; subst s_)
    | (extract_lets +onlyGivenNames s_; clear_value s_) | extract_lets +onlyGivenNames s_

theorem execCreditMessage_bounded {flow s} (h1 : Bounded s) : BoundedRes (execCreditMessage flow s) := by
  unfold execCreditMessage
  with_reducible repeat' first
    | assumption | (intro _; try beta_reduce) | apply BoundedRes.ite_ | apply BoundedRes.mkNext
    | exact BoundedRes.mkFault | apply Bounded.ite_ | apply State.sendCtl_bounded
    | apply State.takeOwed_bounded | apply State.takeOwed_bounded2
    | refine Bounded.ofSome ?_ (by assumption) | refine Bounded.ofSomeP ?_ (by assumption)
    | refine Bounded.ofPair ?_ (by assumption) | refine Bounded.ofPair2 ?_ (by assumption)
    | refine Bounded.ofPair3 ?_ (by assumption) | split
    | (extract_lets +onlyGivenNames s_; refine (fun (_ : Bounded s_) => ?_) ?_; swap; subst s_)
    | (extract_lets +onlyGivenNames s_; clear_value s_) | extract_lets +onlyGivenNames s_

theorem execResponseTimeout_bounded {mtag s} (h1 : Bounded s) : BoundedRes (execResponseTimeout mtag s) := by
  unfold execResponseTimeout
  with_reducible repeat' first
    | assumption | (intro _; try beta_reduce) | apply BoundedRes.ite_ | apply BoundedRes.mkNext
    | exact BoundedRes.mkFault | apply Bounded.ite_ | apply State.finishOut_bounded
    | apply State.incFld_bounded | apply State.retryWaiting_bounded
    | refine Bounded.ofSome ?_ (by assumption) | refine Bounded.ofSomeP ?_ (by assumption)
    | refine Bounded.ofPair ?_ (by assumption) | refine Bounded.ofPair2 ?_ (by assumption)
    | refine Bounded.ofPair3 ?_ (by assumption) | split

theorem execFlowIdleRelease_bounded {flow dest s} (h2 : Bounded s) : BoundedRes (execFlowIdleRelease flow dest s) := by
  unfold execFlowIdleRelease
  with_reducible repeat' first
    | assumption | (intro _; try beta_reduce) | apply BoundedRes.ite_ | apply BoundedRes.mkNext
    | exact BoundedRes.mkFault | apply Bounded.ite_ | apply State.dropRx_bounded
    | apply State.dropTx_bounded | apply State.retryWaiting_bounded | apply State.trace_bounded
    | refine Bounded.ofSome ?_ (by assumption) | refine Bounded.ofSomeP ?_ (by assumption)
    | refine Bounded.ofPair ?_ (by assumption) | refine Bounded.ofPair2 ?_ (by assumption)
    | refine Bounded.ofPair3 ?_ (by assumption) | split

theorem State.fabFail_bounded {s o x} (h0 : Bounded s) : Bounded (State.fabFail s o x) := by
  unfold State.fabFail
  with_reducible repeat' first
    | assumption | (intro _; try beta_reduce) | apply Bounded.ite_ | apply State.frsp_bounded
    | apply State.incFld_bounded | split
    | (extract_lets +onlyGivenNames s_; refine (fun (_ : Bounded s_) => ?_) ?_; swap; subst s_)
    | (extract_lets +onlyGivenNames s_; clear_value s_) | extract_lets +onlyGivenNames s_

theorem execCopyLocalRead_bounded {h r s} (h2 : Bounded s) : BoundedRes (execCopyLocalRead h r s) := by
  unfold execCopyLocalRead
  with_reducible repeat' first
    | assumption | (intro _; try beta_reduce) | apply BoundedRes.ite_ | apply BoundedRes.mkNext
    | exact BoundedRes.mkFault | apply Bounded.ite_ | apply State.fabFail_bounded | apply State.frsp_bounded
    | apply State.placeOut_bounded | apply State.readLines_bounded | apply State.withLinks_bounded
    | apply Bounded.id_ | simp -zeta only [↓Bounded.mk_iff] | refine Bounded.ofSome ?_ (by assumption)
    | refine Bounded.ofSomeP ?_ (by assumption) | refine Bounded.ofPair ?_ (by assumption)
    | refine Bounded.ofPair2 ?_ (by assumption) | refine Bounded.ofPair3 ?_ (by assumption) | split
    | (extract_lets +onlyGivenNames s_; refine (fun (_ : Bounded s_) => ?_) ?_; swap; subst s_)
    | (extract_lets +onlyGivenNames s_; clear_value s_) | extract_lets +onlyGivenNames s_

theorem execLinkDown_bounded {att s} (h1 : Bounded s) : BoundedRes (execLinkDown att s) := by
  unfold execLinkDown
  with_reducible repeat' first
    | assumption | apply BoundedRes.ite_ | apply BoundedRes.mkNext | apply State.portDown_bounded
    | apply State.withLinks_bounded | split
    | (extract_lets +onlyGivenNames s_; refine (fun (_ : Bounded s_) => ?_) ?_; swap; subst s_)
    | (extract_lets +onlyGivenNames s_; clear_value s_)

theorem execLinkUp_bounded {att s} (h1 : Bounded s) : BoundedRes (execLinkUp att s) := by
  unfold execLinkUp
  with_reducible repeat' first
    | assumption | apply BoundedRes.ite_ | apply BoundedRes.mkNext | apply State.withLinks_bounded

theorem execGrantUnreachable_bounded {s} (h0 : Bounded s) : BoundedRes (execGrantUnreachable s) := by
  unfold execGrantUnreachable
  with_reducible repeat' first
    | assumption | apply BoundedRes.mkNext | apply State.engineEnd_bounded | apply State.withLinks_bounded | split

end Sys2Proof.Machine
end

