-- ==== Sys2Proof/Laws/BoundedFaults.lean ====
section
/-! SUPPORT. Every operation of Machine/Faults.lean keeps the bounds. -/

namespace Sys2Proof.Machine

theorem State.raiseWarm_bounded {s} (h0 : Bounded s) : Bounded (State.raiseWarm s) := by
  unfold State.raiseWarm
  with_reducible repeat' first
    | assumption | apply Bounded.ite_ | apply State.emit_bounded | simp -zeta only [↓Bounded.mk_iff]

theorem execWarmReq_bounded {port s} (h1 : Bounded s) : BoundedRes (execWarmReq port s) := by
  unfold execWarmReq
  with_reducible repeat' first
    | assumption | (intro _; try beta_reduce) | apply BoundedRes.mkNext | apply State.ownerCmd_bounded
    | apply State.raiseWarm_bounded | apply State.setFld_bounded

theorem execPwrReq_bounded {port s} (h1 : Bounded s) : BoundedRes (execPwrReq port s) := by
  unfold execPwrReq
  with_reducible repeat' first
    | assumption | (intro _; try beta_reduce) | apply Bounded.ite_ | apply BoundedRes.mkNext
    | apply State.ownerCmd_bounded | apply State.record_bounded | apply State.setFld_bounded
    | simp -zeta only [↓Bounded.mk_iff]
    | (extract_lets +onlyGivenNames s_; refine (fun (_ : Bounded s_) => ?_) ?_; swap; subst s_)

theorem execPwrStop_bounded {port s} (h1 : Bounded s) : BoundedRes (execPwrStop port s) := by
  unfold execPwrStop
  with_reducible repeat' first
    | assumption | (intro _; try beta_reduce) | apply BoundedRes.mkNext | apply State.ownerCmd_bounded
    | apply State.setFld_bounded | simp -zeta only [↓Bounded.mk_iff]
    | (extract_lets +onlyGivenNames s_; refine (fun (_ : Bounded s_) => ?_) ?_; swap; subst s_)

theorem State.abortEnd_bounded {s code} (h0 : Bounded s) : Bounded (State.abortEnd s code) := by
  unfold State.abortEnd
  with_reducible repeat' first
    | assumption | apply State.setFld_bounded

theorem State.drainQueue_bounded {s q} (h0 : Bounded s) : Bounded (State.drainQueue s q) := by
  unfold State.drainQueue
  with_reducible repeat' first
    | assumption | (intro _; try beta_reduce) | apply Bounded.ite_ | apply State.dropCmd_bounded
    | apply State.endRecord_bounded | apply State.putRecord_bounded | apply State.putRecord_bounded2
    | apply foldl_bounded | refine Bounded.ofSome ?_ (by assumption)
    | refine Bounded.ofSomeP ?_ (by assumption) | refine Bounded.ofPair ?_ (by assumption)
    | refine Bounded.ofPair2 ?_ (by assumption) | refine Bounded.ofPair3 ?_ (by assumption) | split
    | (extract_lets +onlyGivenNames s_; refine (fun (_ : Bounded s_) => ?_) ?_; swap; subst s_)
    | (extract_lets +onlyGivenNames s_; clear_value s_) | extract_lets +onlyGivenNames s_

theorem State.abortQueueObj_bounded {s q drained} (h0 : Bounded s) : Bounded (State.abortQueueObj s q drained) := by
  unfold State.abortQueueObj
  with_reducible repeat' first
    | assumption | apply Bounded.ite_ | apply State.abortEnd_bounded | apply State.disableQueue_bounded
    | apply State.drainQueue_bounded | apply State.setFld_bounded

theorem State.abortChanObj_bounded {s c drained} (h0 : Bounded s) : Bounded (State.abortChanObj s c drained) := by
  unfold State.abortChanObj
  with_reducible repeat' first
    | assumption | apply Bounded.ite_ | apply State.abortEnd_bounded | apply State.disableChan_bounded
    | apply State.flushChan_bounded | apply State.setFld_bounded

theorem execFltAbort_bounded {port type index drained s} (h4 : Bounded s) : BoundedRes (execFltAbort port type index drained s) := by
  unfold execFltAbort
  with_reducible repeat' first
    | assumption | (intro _; try beta_reduce) | apply BoundedRes.ite_ | apply BoundedRes.mkNext
    | exact BoundedRes.mkFault | apply Bounded.ite_ | apply State.abortChanObj_bounded
    | apply State.abortEnd_bounded | apply State.abortQueueObj_bounded | apply State.disarm_bounded
    | apply State.endSession_bounded | apply State.freeCtx_bounded | apply State.ownerCmd_bounded
    | apply State.setFld_bounded | apply State.setTok_bounded | apply State.tokEnd_bounded
    | simp -zeta only [↓Bounded.mk_iff] | refine Bounded.ofSome ?_ (by assumption)
    | refine Bounded.ofSomeP ?_ (by assumption) | refine Bounded.ofPair ?_ (by assumption)
    | refine Bounded.ofPair2 ?_ (by assumption) | refine Bounded.ofPair3 ?_ (by assumption) | split
    | (extract_lets +onlyGivenNames s_; refine (fun (_ : Bounded s_) => ?_) ?_; swap; subst s_)
    | (extract_lets +onlyGivenNames s_; clear_value s_) | extract_lets +onlyGivenNames s_

theorem State.resetRefused_bounded {s} (h0 : Bounded s) : Bounded (State.resetRefused s) := by
  unfold State.resetRefused
  with_reducible repeat' first
    | assumption | apply State.setFld_bounded

theorem State.resetEnd_bounded {s src inst code} (h0 : Bounded s) : Bounded (State.resetEnd s src inst code) := by
  unfold State.resetEnd
  with_reducible repeat' first
    | assumption | apply State.record_bounded | apply State.setFld_bounded

theorem State.retry_bounded {s t} (h0 : Bounded s) : Bounded (State.retry s t) := by
  unfold State.retry
  with_reducible repeat' first
    | assumption | (intro _; try beta_reduce) | apply Bounded.ite_ | apply State.completeWrite_bounded
    | apply State.queueRsp_bounded | split

theorem State.retryRead_bounded {s r} (h0 : Bounded s) : Bounded (State.retryRead s r) := by
  unfold State.retryRead
  with_reducible repeat' first
    | assumption | apply Bounded.ite_ | apply State.passRead_bounded | apply State.poisonStep_bounded
    | apply State.retry_bounded | apply State.withMem_bounded | simp -zeta only [↓Bounded.mk_iff] | split

theorem State.spoil_bounded {s lines} (h0 : Bounded s) : Bounded (State.spoil s lines) := by
  unfold State.spoil
  with_reducible repeat' first
    | assumption | apply State.withMem_bounded

theorem State.discardLane_bounded {s n} (h0 : Bounded s) : Bounded (State.discardLane s n) := by
  unfold State.discardLane
  with_reducible repeat' first
    | assumption | (intro _; try beta_reduce) | apply Bounded.ite_ | apply State.openPage_bounded
    | apply State.poisonStep_bounded | apply State.retryRead_bounded | apply State.retry_bounded
    | apply State.setLane_bounded | apply State.spoil_bounded | apply State.withMem_bounded
    | apply foldl_bounded | simp -zeta only [↓Bounded.mk_iff] | refine Bounded.ofSome ?_ (by assumption)
    | refine Bounded.ofSomeP ?_ (by assumption) | refine Bounded.ofPair ?_ (by assumption)
    | refine Bounded.ofPair2 ?_ (by assumption) | refine Bounded.ofPair3 ?_ (by assumption) | split
    | (extract_lets +onlyGivenNames s_; refine (fun (_ : Bounded s_) => ?_) ?_; swap; subst s_)
    | (extract_lets +onlyGivenNames s_; clear_value s_) | extract_lets +onlyGivenNames s_

theorem State.resetLane_bounded {s n drained tests} (h0 : Bounded s) : Bounded (State.resetLane s n drained tests) := by
  unfold State.resetLane
  with_reducible repeat' first
    | assumption | apply Bounded.ite_ | apply State.bistFailed_bounded | apply State.discardLane_bounded
    | apply State.laneOut_bounded | apply State.record_bounded | apply State.resetEnd_bounded
    | apply State.resetRefused_bounded | apply State.setLane_bounded | split

theorem State.discardPort_bounded {s n} (h0 : Bounded s) : Bounded (State.discardPort s n) := by
  unfold State.discardPort
  with_reducible repeat' first
    | assumption | (intro _; try beta_reduce) | apply State.breakAt_bounded | apply State.moveTx_bounded
    | apply State.setPort_bounded | apply State.setTx_bounded | apply Bounded.getD_ | apply foldl_bounded

theorem State.resetPort_bounded {s n drained tests} (h0 : Bounded s) : Bounded (State.resetPort s n drained tests) := by
  unfold State.resetPort
  with_reducible repeat' first
    | assumption | apply Bounded.ite_ | apply State.bistFailed_bounded | apply State.discardPort_bounded
    | apply State.portOut_bounded | apply State.record_bounded | apply State.resetEnd_bounded
    | apply State.resetRefused_bounded | apply State.setPort_bounded | split

theorem State.resetEngine_bounded {s unit src drained tests discard clear} (h0 : Bounded s) (h5 : ∀ x0, Bounded x0 → Bounded (discard x0)) (h6 : ∀ x0, Bounded x0 → Bounded (clear x0)) : Bounded (State.resetEngine s unit src drained tests discard clear) := by
  unfold State.resetEngine
  with_reducible repeat' first
    | assumption | apply Bounded.ite_ | apply State.record_bounded | apply State.resetEnd_bounded | apply h5
    | apply h6 | simp -zeta only [↓Bounded.mk_iff]

theorem State.resetCluster_bounded {s k drained tests} (h0 : Bounded s) : Bounded (State.resetCluster s k drained tests) := by
  unfold State.resetCluster
  with_reducible repeat' first
    | assumption | (intro _; try beta_reduce) | apply Bounded.ite_ | apply State.bistFailed_bounded
    | apply State.record_bounded | apply State.redispatch_bounded | apply State.resetEnd_bounded
    | apply State.setCore_bounded | apply State.steerCore_bounded | apply foldl_bounded

theorem State.resetReeve_bounded {s i tests} (h0 : Bounded s) : Bounded (State.resetReeve s i tests) := by
  unfold State.resetReeve
  with_reducible repeat' first
    | assumption | apply Bounded.ite_ | apply State.record_bounded | apply State.resetEnd_bounded
    | apply State.resetRefused_bounded | apply State.setUnit_bounded | apply State.steerUnit_bounded
    | simp -zeta only [↓Bounded.mk_iff] | split

theorem State.discardHost_bounded {s} (h0 : Bounded s) : Bounded (State.discardHost s) := by
  unfold State.discardHost
  with_reducible repeat' first
    | assumption | (intro _; try beta_reduce) | apply Bounded.ite_ | apply State.abortChan_bounded
    | apply State.abortCmd_bounded | apply State.stopChan_bounded | apply State.stopQueue_bounded
    | apply foldl_bounded

theorem State.openAll_bounded {s} (h0 : Bounded s) : Bounded (State.openAll s) := by
  unfold State.openAll
  with_reducible repeat' first
    | assumption | (intro _; try beta_reduce) | apply Bounded.ite_ | apply State.openPage_bounded
    | apply foldl_bounded | split

theorem execFltReset_bounded {port unit index drained tests s} (h5 : Bounded s) : BoundedRes (execFltReset port unit index drained tests s) := by
  unfold execFltReset
  with_reducible repeat' first
    | assumption | (intro _; try beta_reduce) | apply BoundedRes.ite_ | apply BoundedRes.mkNext
    | exact BoundedRes.mkFault | apply Bounded.ite_ | apply State.discardHost_bounded
    | apply State.openAll_bounded | apply State.ownerCmd_bounded | apply State.resetCluster_bounded
    | apply State.resetEngine_bounded | apply State.resetLane_bounded | apply State.resetPku_bounded
    | apply State.resetPort_bounded | apply State.resetReeve_bounded | apply State.resetRefused_bounded
    | apply State.resetScu_bounded | apply State.resetShf_bounded | apply State.setFld_bounded
    | apply Bounded.id_ | simp -zeta only [↓Bounded.mk_iff] | refine Bounded.ofSome ?_ (by assumption)
    | refine Bounded.ofSomeP ?_ (by assumption) | refine Bounded.ofPair ?_ (by assumption)
    | refine Bounded.ofPair2 ?_ (by assumption) | refine Bounded.ofPair3 ?_ (by assumption) | split
    | (extract_lets +onlyGivenNames s_; refine (fun (_ : Bounded s_) => ?_) ?_; swap; subst s_)
    | (extract_lets +onlyGivenNames s_; clear_value s_) | extract_lets +onlyGivenNames s_

theorem State.injectEnd_bounded {s code} (h0 : Bounded s) : Bounded (State.injectEnd s code) := by
  unfold State.injectEnd
  with_reducible repeat' first
    | assumption | apply State.setFld_bounded

theorem State.applyInject_bounded {s kind dbl target line} (h0 : Bounded s) : Bounded (State.applyInject s kind dbl target line) := by
  unfold State.applyInject
  split
  · exact Bounded.mk_two (State.setFld_bounded h0) h0
  · exact State.portDown_bounded (State.incFld_bounded (Bounded.mk_iffF.mpr h0))
  · exact State.setLane_bounded (State.incFld_bounded h0)

theorem execInject_bounded {port kind dbl target s} (h4 : Bounded s) : BoundedRes (execInject port kind dbl target s) := by
  unfold execInject
  with_reducible repeat' first
    | assumption | (intro _; try beta_reduce) | apply Bounded.ite_ | apply BoundedRes.mkNext
    | apply State.applyInject_bounded | apply State.injectEnd_bounded | apply State.ownerCmd_bounded
    | apply State.record_bounded | apply State.setFld_bounded | simp -zeta only [↓Bounded.mk_iffO, ↓Bounded.mk_iffF]
    | split | (extract_lets +onlyGivenNames s_; refine (fun (_ : Bounded s_) => ?_) ?_; swap; subst s_)
    | (extract_lets +onlyGivenNames s_; have _x : Faults := s_; clear _x; subst s_)
    | (extract_lets +onlyGivenNames s_; clear_value s_)

theorem execFreeze_bounded {port s} (h1 : Bounded s) : BoundedRes (execFreeze port s) := by
  unfold execFreeze
  with_reducible repeat' first
    | assumption | (intro _; try beta_reduce) | apply BoundedRes.mkNext | apply State.ownerCmd_bounded
    | simp -zeta only [↓Bounded.mk_iffO, ↓Bounded.mk_iffF]
    | (extract_lets +onlyGivenNames s_; have _x : Faults := s_; clear _x; subst s_)

theorem execUnfreeze_bounded {port s} (h1 : Bounded s) : BoundedRes (execUnfreeze port s) := by
  unfold execUnfreeze
  with_reducible repeat' first
    | assumption | (intro _; try beta_reduce) | apply BoundedRes.mkNext | apply State.ownerCmd_bounded
    | simp -zeta only [↓Bounded.mk_iffO, ↓Bounded.mk_iffF]
    | (extract_lets +onlyGivenNames s_; have _x : Faults := s_; clear _x; subst s_)

theorem execPeerCopy_bounded {port s} (h1 : Bounded s) : BoundedRes (execPeerCopy port s) := by
  unfold execPeerCopy
  with_reducible repeat' first
    | assumption | (intro _; try beta_reduce) | apply Bounded.ite_ | apply BoundedRes.mkNext
    | apply State.maintBytes_bounded2 | apply State.ownerCmd_bounded | apply State.setFld_bounded
    | simp -zeta only [↓Bounded.mk_iff] | split | (extract_lets +onlyGivenNames s_; clear_value s_)

theorem execPowerCycleSend_bounded {s} (h0 : Bounded s) : BoundedRes (execPowerCycleSend s) := by
  unfold execPowerCycleSend
  with_reducible repeat' first
    | assumption | (intro _; try beta_reduce) | apply BoundedRes.ite_ | apply BoundedRes.mkNext
    | exact BoundedRes.mkFault | apply Bounded.ite_ | apply State.emit_bounded
    | apply State.signEcdsa_bounded | apply State.signEcdsa_bounded2
    | refine Bounded.ofSome ?_ (by assumption) | refine Bounded.ofSomeP ?_ (by assumption)
    | refine Bounded.ofPair ?_ (by assumption) | refine Bounded.ofPair2 ?_ (by assumption)
    | refine Bounded.ofPair3 ?_ (by assumption) | split
    | (extract_lets +onlyGivenNames s_; refine (fun (_ : Bounded s_) => ?_) ?_; swap; subst s_)
    | (extract_lets +onlyGivenNames s_; clear_value s_) | extract_lets +onlyGivenNames s_

theorem execGleanerRecord_bounded {s} (h0 : Bounded s) : BoundedRes (execGleanerRecord s) := by
  unfold execGleanerRecord
  with_reducible repeat' first
    | assumption | apply BoundedRes.mkNext | apply State.writeRecord_bounded

theorem execInjectExpiry_bounded {s} (h0 : Bounded s) : BoundedRes (execInjectExpiry s) := by
  unfold execInjectExpiry
  with_reducible repeat' first
    | assumption | apply BoundedRes.ite_ | apply BoundedRes.mkNext | apply State.injectEnd_bounded
    | simp -zeta only [↓Bounded.mk_iffO, ↓Bounded.mk_iffF] | split
    | (extract_lets +onlyGivenNames s_; have _x : Faults := s_; clear _x; subst s_)

theorem State.showMargin_bounded {s n a b} (h0 : Bounded s) : Bounded (State.showMargin s n a b) := by
  unfold State.showMargin
  with_reducible repeat' first
    | assumption | apply State.setFld_bounded

theorem execMarginSample_bounded {n a b valid s} (h4 : Bounded s) : BoundedRes (execMarginSample n a b valid s) := by
  unfold execMarginSample
  with_reducible repeat' first
    | assumption | apply BoundedRes.ite_ | apply BoundedRes.mkNext | apply State.record_bounded
    | apply State.setFld_bounded | apply State.showMargin_bounded
    | simp -zeta only [↓Bounded.mk_iffO, ↓Bounded.mk_iffF] | split
    | (extract_lets +onlyGivenNames s_; have _x : Faults := s_; clear _x; subst s_)

theorem execReeveHeartbeat_bounded {s} (h0 : Bounded s) : BoundedRes (execReeveHeartbeat s) := by
  unfold execReeveHeartbeat
  with_reducible repeat' first
    | assumption | apply BoundedRes.ite_ | apply BoundedRes.mkNext | apply State.wr_bounded

end Sys2Proof.Machine
end

