-- ==== Sys2Proof/Laws/BoundedHarrow.lean ====
section
/-! SUPPORT. Every operation of Machine/Harrow.lean keeps the bounds. -/

namespace Sys2Proof.Machine

theorem State.retireJob_bounded {s n} (h0 : Bounded s) : Bounded (State.retireJob s n) := by
  unfold State.retireJob
  with_reducible repeat' first
    | assumption | (intro _; try beta_reduce) | apply Bounded.ite_ | apply State.putJob_bounded
    | apply State.setRow_bounded | apply State.unpin_bounded | apply foldl_bounded
    | simp -zeta only [↓Bounded.mk_iff] | refine Bounded.ofSome ?_ (by assumption)
    | refine Bounded.ofSomeP ?_ (by assumption) | refine Bounded.ofPair ?_ (by assumption)
    | refine Bounded.ofPair2 ?_ (by assumption) | refine Bounded.ofPair3 ?_ (by assumption) | split
    | (extract_lets +onlyGivenNames s_; refine (fun (_ : Bounded s_) => ?_) ?_; swap; subst s_)
    | (extract_lets +onlyGivenNames s_; clear_value s_) | extract_lets +onlyGivenNames s_

theorem State.movePoison_bounded {s part line} (h0 : Bounded s) : Bounded (State.movePoison s part line) := by
  unfold State.movePoison
  with_reducible repeat' first
    | assumption | apply State.incFld_bounded | apply State.record_bounded | apply State.withMem_bounded

theorem State.hrwCmd_bounded {s i port job f} (h0 : Bounded s) (h4 : ∀ x0, Bounded x0 → Bounded (f x0)) : Bounded (State.hrwCmd s i port job f) := by
  unfold State.hrwCmd
  with_reducible repeat' first
    | assumption | (intro _; try beta_reduce) | apply Bounded.ite_ | apply h4 | apply State.regCmd_bounded
    | apply State.setFld_bounded | split

theorem State.hrwEnd_bounded {s code} (h0 : Bounded s) : Bounded (State.hrwEnd s code) := by
  unfold State.hrwEnd
  with_reducible repeat' first
    | assumption | (intro _; try beta_reduce) | apply Bounded.ite_ | apply State.incFld_bounded
    | apply State.setFld_bounded | split
    | (extract_lets +onlyGivenNames s_; refine (fun (_ : Bounded s_) => ?_) ?_; swap; subst s_)
    | (extract_lets +onlyGivenNames s_; clear_value s_) | extract_lets +onlyGivenNames s_

theorem execHrwStart_bounded {port job s} (h2 : Bounded s) : BoundedRes (execHrwStart port job s) := by
  unfold execHrwStart
  with_reducible repeat' first
    | assumption | (intro _; try beta_reduce) | apply BoundedRes.ite_ | apply BoundedRes.mkNext
    | exact BoundedRes.mkFault | apply Bounded.ite_ | apply State.fillJob_bounded
    | apply State.hrwCmd_bounded | apply State.hrwEnd_bounded | apply State.trace_bounded
    | simp -zeta only [↓Bounded.mk_iff] | refine Bounded.ofSome ?_ (by assumption)
    | refine Bounded.ofSomeP ?_ (by assumption) | refine Bounded.ofPair ?_ (by assumption)
    | refine Bounded.ofPair2 ?_ (by assumption) | refine Bounded.ofPair3 ?_ (by assumption)
    | apply Bounded.getD_ | split
    | (extract_lets +onlyGivenNames s_; refine (fun (_ : Bounded s_) => ?_) ?_; swap; subst s_)
    | (extract_lets +onlyGivenNames s_; clear_value s_) | extract_lets +onlyGivenNames s_

theorem execHrwSuspend_bounded {port job s} (h2 : Bounded s) : BoundedRes (execHrwSuspend port job s) := by
  unfold execHrwSuspend
  with_reducible repeat' first
    | assumption | (intro _; try beta_reduce) | apply BoundedRes.ite_ | apply BoundedRes.mkNext
    | exact BoundedRes.mkFault | apply Bounded.ite_ | apply State.hrwCmd_bounded
    | apply State.hrwEnd_bounded | apply State.putJob_bounded | simp -zeta only [↓Bounded.mk_iff] | split
    | (extract_lets +onlyGivenNames s_; refine (fun (_ : Bounded s_) => ?_) ?_; swap; subst s_)
    | (extract_lets +onlyGivenNames s_; clear_value s_) | extract_lets +onlyGivenNames s_

theorem State.pinJob_bounded {s n} (h0 : Bounded s) : Bounded (State.pinJob s n) := by
  unfold State.pinJob
  with_reducible repeat' first
    | assumption | (intro _; try beta_reduce) | apply Bounded.ite_ | apply State.pin_bounded
    | apply foldl_bounded | split
    | (extract_lets +onlyGivenNames s_; refine (fun (_ : Bounded s_) => ?_) ?_; swap; subst s_)
    | (extract_lets +onlyGivenNames s_; clear_value s_) | extract_lets +onlyGivenNames s_

theorem execHrwResume_bounded {port job s} (h2 : Bounded s) : BoundedRes (execHrwResume port job s) := by
  unfold execHrwResume
  with_reducible repeat' first
    | assumption | (intro _; try beta_reduce) | apply BoundedRes.ite_ | apply BoundedRes.mkNext
    | exact BoundedRes.mkFault | apply Bounded.ite_ | apply State.hrwCmd_bounded
    | apply State.hrwEnd_bounded | apply State.pinJob_bounded | apply State.putJob_bounded
    | apply State.settleJob_bounded | simp -zeta only [↓Bounded.mk_iff] | split
    | (extract_lets +onlyGivenNames s_; refine (fun (_ : Bounded s_) => ?_) ?_; swap; subst s_)
    | (extract_lets +onlyGivenNames s_; clear_value s_) | extract_lets +onlyGivenNames s_

theorem execHrwRetire_bounded {port job s} (h2 : Bounded s) : BoundedRes (execHrwRetire port job s) := by
  unfold execHrwRetire
  with_reducible repeat' first
    | assumption | (intro _; try beta_reduce) | apply BoundedRes.ite_ | apply BoundedRes.mkNext
    | exact BoundedRes.mkFault | apply Bounded.ite_ | apply State.hrwCmd_bounded
    | apply State.hrwEnd_bounded | apply State.retireJob_bounded | split

theorem State.runJob_bounded {s n} (h0 : Bounded s) : Bounded (State.runJob s n) := by
  unfold State.runJob
  with_reducible repeat' first
    | assumption | (intro _; try beta_reduce) | apply Bounded.ite_ | apply State.count_bounded
    | apply State.pinCell_bounded | apply State.pinJob_bounded | apply State.putJob_bounded
    | apply State.setRow_bounded | apply State.settleJob_bounded | apply foldl_bounded
    | simp -zeta only [↓Bounded.mk_iff] | refine Bounded.ofSome ?_ (by assumption)
    | refine Bounded.ofSomeP ?_ (by assumption) | refine Bounded.ofPair ?_ (by assumption)
    | refine Bounded.ofPair2 ?_ (by assumption) | refine Bounded.ofPair3 ?_ (by assumption)
    | apply Bounded.getD_ | split
    | (extract_lets +onlyGivenNames s_; refine (fun (_ : Bounded s_) => ?_) ?_; swap; subst s_)
    | (extract_lets +onlyGivenNames s_; clear_value s_) | extract_lets +onlyGivenNames s_

theorem execJobRun_bounded {s} (h0 : Bounded s) : BoundedRes (execJobRun s) := by
  unfold execJobRun
  with_reducible repeat' first
    | assumption | apply BoundedRes.mkNext | apply State.runJob_bounded | split
    | (extract_lets +onlyGivenNames s_; clear_value s_)

theorem State.closePage_bounded {s n page q row second lines} (h0 : Bounded s) : Bounded (State.closePage s n page q row second lines) := by
  unfold State.closePage
  with_reducible repeat' first
    | assumption | (intro _; try beta_reduce) | apply Bounded.ite_ | apply State.chargeMaint_bounded
    | apply State.setJob_bounded | apply State.setLane_bounded | apply State.trace_bounded
    | apply State.withMem_bounded | simp -zeta only [↓Bounded.mk_iff] | split
    | (extract_lets +onlyGivenNames s_; refine (fun (_ : Bounded s_) => ?_) ?_; swap; subst s_)
    | (extract_lets +onlyGivenNames s_; clear_value s_) | extract_lets +onlyGivenNames s_

theorem State.closeMeta_bounded {s n q} (h0 : Bounded s) : Bounded (State.closeMeta s n q) := by
  unfold State.closeMeta
  with_reducible repeat' first
    | assumption | (intro _; try beta_reduce) | apply Bounded.ite_ | apply State.closePage_bounded
    | apply State.fetchMeta_bounded | apply State.pageDone_bounded | apply State.withhold_bounded
    | apply foldl_bounded | split
    | (extract_lets +onlyGivenNames s_; refine (fun (_ : Bounded s_) => ?_) ?_; swap; subst s_)
    | (extract_lets +onlyGivenNames s_; clear_value s_) | extract_lets +onlyGivenNames s_

theorem State.fetchPage_bounded {s n q abs} (h0 : Bounded s) : Bounded (State.fetchPage s n q abs) := by
  unfold State.fetchPage
  with_reducible repeat' first
    | assumption | (intro _; try beta_reduce) | apply Bounded.ite_ | apply State.fetchMeta_bounded
    | apply State.setJob_bounded | simp -zeta only [↓Bounded.mk_iff] | split
    | (extract_lets +onlyGivenNames s_; refine (fun (_ : Bounded s_) => ?_) ?_; swap; subst s_)
    | (extract_lets +onlyGivenNames s_; clear_value s_) | extract_lets +onlyGivenNames s_

theorem State.turnPage_bounded {s n q row abs c} (h0 : Bounded s) : Bounded (State.turnPage s n q row abs c) := by
  unfold State.turnPage
  with_reducible repeat' first
    | assumption | (intro _; try beta_reduce) | apply Bounded.ite_ | apply State.pageDone_bounded
    | apply State.startMove_bounded | apply Bounded.getD_ | split
    | (extract_lets +onlyGivenNames s_; refine (fun (_ : Bounded s_) => ?_) ?_; swap; subst s_)
    | (extract_lets +onlyGivenNames s_; clear_value s_) | extract_lets +onlyGivenNames s_

theorem State.closeData_bounded {s n q row} (h0 : Bounded s) : Bounded (State.closeData s n q row) := by
  unfold State.closeData
  with_reducible repeat' first
    | assumption | (intro _; try beta_reduce) | apply Bounded.ite_ | apply State.closePage_bounded
    | apply State.count_bounded | apply State.fetchPage_bounded | apply State.pageDone_bounded
    | apply State.turnPage_bounded | apply State.withhold_bounded | refine Bounded.ofSome ?_ (by assumption)
    | refine Bounded.ofSomeP ?_ (by assumption) | refine Bounded.ofPair ?_ (by assumption)
    | refine Bounded.ofPair2 ?_ (by assumption) | refine Bounded.ofPair3 ?_ (by assumption) | split
    | (extract_lets +onlyGivenNames s_; refine (fun (_ : Bounded s_) => ?_) ?_; swap; subst s_)
    | (extract_lets +onlyGivenNames s_; clear_value s_) | extract_lets +onlyGivenNames s_

theorem execHarrowPageClose_bounded {job page s} (h2 : Bounded s) : BoundedRes (execHarrowPageClose job page s) := by
  unfold execHarrowPageClose
  with_reducible repeat' first
    | assumption | (intro _; try beta_reduce) | apply BoundedRes.ite_ | apply BoundedRes.mkNext
    | exact BoundedRes.mkFault | apply Bounded.ite_ | apply State.closeData_bounded
    | apply State.closeMeta_bounded | refine Bounded.ofSome ?_ (by assumption)
    | refine Bounded.ofSomeP ?_ (by assumption) | refine Bounded.ofPair ?_ (by assumption)
    | refine Bounded.ofPair2 ?_ (by assumption) | refine Bounded.ofPair3 ?_ (by assumption) | split
    | (extract_lets +onlyGivenNames s_; refine (fun (_ : Bounded s_) => ?_) ?_; swap; subst s_)
    | (extract_lets +onlyGivenNames s_; clear_value s_) | extract_lets +onlyGivenNames s_

theorem State.moveOut_bounded {s row abs ls} (h0 : Bounded s) : Bounded (State.moveOut s row abs ls) := by
  unfold State.moveOut
  with_reducible repeat' first
    | assumption | (intro _; try beta_reduce) | apply Bounded.ite_ | apply State.maintWrites_bounded
    | apply State.movePoison_bounded | apply State.offerLines_bounded | apply foldl_bounded
    | refine Bounded.ofSome ?_ (by assumption) | refine Bounded.ofSomeP ?_ (by assumption)
    | refine Bounded.ofPair ?_ (by assumption) | refine Bounded.ofPair2 ?_ (by assumption)
    | refine Bounded.ofPair3 ?_ (by assumption) | apply Bounded.getD_ | split
    | (extract_lets +onlyGivenNames s_; refine (fun (_ : Bounded s_) => ?_) ?_; swap; subst s_)
    | (extract_lets +onlyGivenNames s_; clear_value s_) | extract_lets +onlyGivenNames s_

theorem State.movePage_bounded {s n row abs q ls} (h0 : Bounded s) : Bounded (State.movePage s n row abs q ls) := by
  unfold State.movePage
  with_reducible repeat' first
    | assumption | (intro _; try beta_reduce) | apply Bounded.ite_ | apply State.count_bounded
    | apply State.moveOut_bounded | apply State.openPage_bounded | apply State.pageDone_bounded
    | apply State.setJob_bounded | simp -zeta only [↓Bounded.mk_iff] | split
    | (extract_lets +onlyGivenNames s_; refine (fun (_ : Bounded s_) => ?_) ?_; swap; subst s_)
    | (extract_lets +onlyGivenNames s_; clear_value s_) | extract_lets +onlyGivenNames s_

theorem State.retagOut_bounded {s ls} (h0 : Bounded s) : Bounded (State.retagOut s ls) := by
  unfold State.retagOut
  with_reducible repeat' first
    | assumption | (intro _; try beta_reduce) | apply Bounded.ite_ | apply State.chargeMeta_bounded
    | apply State.movePoison_bounded | apply State.offer_bounded | apply foldl_bounded
    | refine Bounded.ofSome ?_ (by assumption) | refine Bounded.ofSomeP ?_ (by assumption)
    | refine Bounded.ofPair ?_ (by assumption) | refine Bounded.ofPair2 ?_ (by assumption)
    | refine Bounded.ofPair3 ?_ (by assumption) | apply Bounded.getD_ | split
    | (extract_lets +onlyGivenNames s_; refine (fun (_ : Bounded s_) => ?_) ?_; swap; subst s_)
    | (extract_lets +onlyGivenNames s_; clear_value s_) | extract_lets +onlyGivenNames s_

theorem State.moveMetaPage_bounded {s n abs q ls} (h0 : Bounded s) : Bounded (State.moveMetaPage s n abs q ls) := by
  unfold State.moveMetaPage
  with_reducible repeat' first
    | assumption | (intro _; try beta_reduce) | apply Bounded.ite_ | apply State.count_bounded
    | apply State.openPage_bounded | apply State.pageDone_bounded | apply State.retagOut_bounded
    | apply State.setJob_bounded | simp -zeta only [↓Bounded.mk_iff] | split
    | (extract_lets +onlyGivenNames s_; refine (fun (_ : Bounded s_) => ?_) ?_; swap; subst s_)
    | (extract_lets +onlyGivenNames s_; clear_value s_) | extract_lets +onlyGivenNames s_

theorem execHarrowPageOpen_bounded {job page lines s} (h3 : Bounded s) : BoundedRes (execHarrowPageOpen job page lines s) := by
  unfold execHarrowPageOpen
  with_reducible repeat' first
    | assumption | apply BoundedRes.mkNext | apply State.moveMetaPage_bounded | apply State.movePage_bounded | split

theorem State.diagnose_bounded {s part line l} (h0 : Bounded s) : Bounded (State.diagnose s part line l) := by
  unfold State.diagnose
  with_reducible repeat' first
    | assumption | (intro _; try beta_reduce) | apply Bounded.ite_ | apply State.offer_bounded
    | apply State.withMem_bounded | simp -zeta only [↓Bounded.mk_iff] | apply Bounded.getD_ | split
    | (extract_lets +onlyGivenNames s_; refine (fun (_ : Bounded s_) => ?_) ?_; swap; subst s_)
    | (extract_lets +onlyGivenNames s_; clear_value s_) | extract_lets +onlyGivenNames s_

theorem execHarrowMoveAbandon_bounded {job page lines s} (h3 : Bounded s) : BoundedRes (execHarrowMoveAbandon job page lines s) := by
  unfold execHarrowMoveAbandon
  with_reducible repeat' first
    | assumption | (intro _; try beta_reduce) | apply BoundedRes.ite_ | apply BoundedRes.mkNext
    | exact BoundedRes.mkFault | apply Bounded.ite_ | apply State.diagnose_bounded
    | apply State.openPage_bounded | apply State.setJob_bounded | apply foldl_bounded
    | simp -zeta only [↓Bounded.mk_iff] | refine Bounded.ofSome ?_ (by assumption)
    | refine Bounded.ofSomeP ?_ (by assumption) | refine Bounded.ofPair ?_ (by assumption)
    | refine Bounded.ofPair2 ?_ (by assumption) | refine Bounded.ofPair3 ?_ (by assumption) | split
    | (extract_lets +onlyGivenNames s_; refine (fun (_ : Bounded s_) => ?_) ?_; swap; subst s_)
    | (extract_lets +onlyGivenNames s_; clear_value s_) | extract_lets +onlyGivenNames s_

theorem execTurnover_bounded {job s} (h1 : Bounded s) : BoundedRes (execTurnover job s) := by
  unfold execTurnover
  with_reducible repeat' first
    | assumption | (intro _; try beta_reduce) | apply BoundedRes.ite_ | apply BoundedRes.mkNext
    | exact BoundedRes.mkFault | apply Bounded.ite_ | apply State.setJob_bounded
    | apply State.settleJob_bounded | apply State.withPair_bounded | simp -zeta only [↓Bounded.mk_iff]
    | refine Bounded.ofSome ?_ (by assumption) | refine Bounded.ofSomeP ?_ (by assumption)
    | refine Bounded.ofPair ?_ (by assumption) | refine Bounded.ofPair2 ?_ (by assumption)
    | refine Bounded.ofPair3 ?_ (by assumption) | split
    | (extract_lets +onlyGivenNames s_; refine (fun (_ : Bounded s_) => ?_) ?_; swap; subst s_)
    | (extract_lets +onlyGivenNames s_; clear_value s_) | extract_lets +onlyGivenNames s_

theorem execHeadlandMark_bounded {job s} (h1 : Bounded s) : BoundedRes (execHeadlandMark job s) := by
  unfold execHeadlandMark
  with_reducible repeat' first
    | assumption | (intro _; try beta_reduce) | apply BoundedRes.ite_ | apply BoundedRes.mkNext
    | exact BoundedRes.mkFault | apply Bounded.ite_ | apply State.mirrorRoots_bounded | split
    | (extract_lets +onlyGivenNames s_; refine (fun (_ : Bounded s_) => ?_) ?_; swap; subst s_)
    | (extract_lets +onlyGivenNames s_; clear_value s_) | extract_lets +onlyGivenNames s_

end Sys2Proof.Machine
end

