-- ==== Sys2Proof/Laws/BoundedFwu.lean ====
section
/-! SUPPORT. Every operation of Machine/Fwu.lean keeps the bounds. -/

namespace Sys2Proof.Machine

theorem State.underCount_bounded {s n f} (h0 : Bounded s) (h2 : ∀ x0, Bounded x0 → Bounded (f x0)) : Bounded (State.underCount s n f) := by
  unfold State.underCount
  with_reducible repeat' first
    | assumption | apply h2 | simp -zeta only [↓Bounded.mk_iff]
    | (extract_lets +onlyGivenNames s_; refine (fun (_ : Bounded s_) => ?_) ?_; swap; subst s_)
    | extract_lets +onlyGivenNames s_

theorem State.nextMeta_bounded {s m} (h0 : Bounded s) : Bounded (State.nextMeta s m) := by
  unfold State.nextMeta
  with_reducible repeat' first
    | assumption | apply State.count_bounded | simp -zeta only [↓Bounded.mk_iff]
    | (extract_lets +onlyGivenNames s_; refine (fun (_ : Bounded s_) => ?_) ?_; swap; subst s_)

theorem State.fwuCmd_bounded {s port f} (h0 : Bounded s) (h2 : ∀ x0, Bounded x0 → Bounded (f x0)) : Bounded (State.fwuCmd s port f) := by
  unfold State.fwuCmd
  with_reducible repeat' first
    | assumption | apply State.ownerCmd_bounded

theorem State.fwuEnd_bounded {s code} (h0 : Bounded s) : Bounded (State.fwuEnd s code) := by
  unfold State.fwuEnd
  with_reducible repeat' first
    | assumption | apply State.setFld_bounded

theorem execFwuStage_bounded {port r stored s} (h3 : Bounded s) : BoundedRes (execFwuStage port r stored s) := by
  unfold execFwuStage
  with_reducible repeat' first
    | assumption | (intro _; try beta_reduce) | apply BoundedRes.mkNext | apply State.fwuCmd_bounded
    | apply State.fwuEnd_bounded | apply State.pkuOwn_bounded | simp -zeta only [↓Bounded.mk_iff] | split
    | (extract_lets +onlyGivenNames s_; have _x : Option State := s_; clear _x; subst s_)
    | extract_lets +onlyGivenNames s_

theorem State.bootSpare_bounded {s core} (h0 : Bounded s) : Bounded (State.bootSpare s core) := by
  unfold State.bootSpare
  with_reducible repeat' first
    | assumption | (intro _; try beta_reduce) | apply Bounded.ite_ | apply State.setUnit_bounded
    | simp -zeta only [↓Bounded.mk_iff] | refine Bounded.ofSome ?_ (by assumption)
    | refine Bounded.ofSomeP ?_ (by assumption) | refine Bounded.ofPair ?_ (by assumption)
    | refine Bounded.ofPair2 ?_ (by assumption) | refine Bounded.ofPair3 ?_ (by assumption) | split
    | (extract_lets +onlyGivenNames s_; refine (fun (_ : Bounded s_) => ?_) ?_; swap; subst s_)
    | (extract_lets +onlyGivenNames s_; clear_value s_) | extract_lets +onlyGivenNames s_

theorem execFwuStart_bounded {port s} (h1 : Bounded s) : BoundedRes (execFwuStart port s) := by
  unfold execFwuStart
  with_reducible repeat' first
    | assumption | (intro _; try beta_reduce) | apply BoundedRes.ite_ | apply BoundedRes.mkNext
    | exact BoundedRes.mkFault | apply Bounded.ite_ | apply State.bootSpare_bounded
    | apply State.fwuCmd_bounded | apply State.fwuEnd_bounded | simp -zeta only [↓Bounded.mk_iff]
    | refine Bounded.ofSome ?_ (by assumption) | refine Bounded.ofSomeP ?_ (by assumption)
    | refine Bounded.ofPair ?_ (by assumption) | refine Bounded.ofPair2 ?_ (by assumption)
    | refine Bounded.ofPair3 ?_ (by assumption) | split
    | (extract_lets +onlyGivenNames s_; refine (fun (_ : Bounded s_) => ?_) ?_; swap; subst s_)
    | (extract_lets +onlyGivenNames s_; clear_value s_) | extract_lets +onlyGivenNames s_

theorem State.freeCore_bounded {s} (h0 : Bounded s) : Bounded (State.freeCore s) := by
  unfold State.freeCore
  with_reducible repeat' first
    | assumption | (intro _; try beta_reduce) | apply Bounded.ite_ | apply State.setUnit_bounded
    | simp -zeta only [↓Bounded.mk_iff] | refine Bounded.ofSome ?_ (by assumption)
    | refine Bounded.ofSomeP ?_ (by assumption) | refine Bounded.ofPair ?_ (by assumption)
    | refine Bounded.ofPair2 ?_ (by assumption) | refine Bounded.ofPair3 ?_ (by assumption) | split
    | (extract_lets +onlyGivenNames s_; refine (fun (_ : Bounded s_) => ?_) ?_; swap; subst s_)
    | (extract_lets +onlyGivenNames s_; clear_value s_) | extract_lets +onlyGivenNames s_

theorem State.dropUpdate_bounded {s} (h0 : Bounded s) : Bounded (State.dropUpdate s) := by
  unfold State.dropUpdate
  with_reducible repeat' first
    | assumption | (intro _; try beta_reduce) | apply Bounded.ite_ | apply State.freeCore_bounded
    | apply State.putSlot_bounded | apply foldl_bounded | simp -zeta only [↓Bounded.mk_iff]
    | simp -zeta only [↓Bounded.mk_iffO, ↓Bounded.mk_iffF] | refine Bounded.ofSome ?_ (by assumption)
    | refine Bounded.ofSomeP ?_ (by assumption) | refine Bounded.ofPair ?_ (by assumption)
    | refine Bounded.ofPair2 ?_ (by assumption) | refine Bounded.ofPair3 ?_ (by assumption) | split
    | (extract_lets +onlyGivenNames s_; refine (fun (_ : Bounded s_) => ?_) ?_; swap; subst s_)
    | (extract_lets +onlyGivenNames s_; clear_value s_) | extract_lets +onlyGivenNames s_

theorem execFwuCancel_bounded {port s} (h1 : Bounded s) : BoundedRes (execFwuCancel port s) := by
  unfold execFwuCancel
  with_reducible repeat' first
    | assumption | (intro _; try beta_reduce) | apply BoundedRes.mkNext | apply State.dropUpdate_bounded
    | apply State.fwuCmd_bounded | apply State.fwuEnd_bounded | split

theorem State.retireMoves_bounded {s} (h0 : Bounded s) : Bounded (State.retireMoves s) := by
  unfold State.retireMoves
  with_reducible repeat' first
    | assumption | (intro _; try beta_reduce) | apply State.retireJob_bounded | apply foldl_bounded
    | simp -zeta only [↓Bounded.mk_iff]
    | (extract_lets +onlyGivenNames s_; refine (fun (_ : Bounded s_) => ?_) ?_; swap; subst s_)
    | extract_lets +onlyGivenNames s_

theorem State.startMoves_bounded {s} (h0 : Bounded s) : BoundedOpt (State.startMoves s) := by
  unfold State.startMoves
  with_reducible repeat' first
    | assumption | apply BoundedOpt.mkSome | exact BoundedOpt.mkNone | apply State.fillJob_bounded
    | simp -zeta only [↓Bounded.mk_iff] | split | extract_lets +onlyGivenNames s_

theorem State.deriveSuccs_bounded {s ks m} (h0 : Bounded s) : Bounded (State.deriveSuccs s ks m) := by
  unfold State.deriveSuccs
  with_reducible repeat' first
    | assumption | (intro _; try beta_reduce) | apply State.deriveSlot_bounded | apply State.putSlot_bounded
    | apply foldl_bounded | split | extract_lets +onlyGivenNames s_

theorem State.moveBack_bounded {s} (h0 : Bounded s) : Bounded (State.moveBack s) := by
  unfold State.moveBack
  with_reducible repeat' first
    | assumption | apply State.deriveSuccs_bounded | apply State.nextMeta_bounded | apply State.retireMoves_bounded
    | apply State.startMoves_bounded | simp -zeta only [↓Bounded.mk_iff] | split
    | (extract_lets +onlyGivenNames s_; have _x : Option State := s_; clear _x; subst s_)
    | extract_lets +onlyGivenNames s_ | refine Bounded.ofSome ?_ (by assumption)

theorem execFwuAbandon_bounded {port s} (h1 : Bounded s) : BoundedRes (execFwuAbandon port s) := by
  unfold execFwuAbandon
  with_reducible repeat' first
    | assumption | (intro _; try beta_reduce) | apply BoundedRes.mkNext | apply State.fwuCmd_bounded
    | apply State.fwuEnd_bounded | apply State.moveBack_bounded | simp -zeta only [↓Bounded.mk_iff] | split

theorem execCert_bounded {port r leafOk stored s} (h4 : Bounded s) : BoundedRes (execCert port r leafOk stored s) := by
  unfold execCert
  with_reducible repeat' first
    | assumption | (intro _; try beta_reduce) | apply BoundedRes.mkNext | apply State.fwuCmd_bounded
    | apply State.fwuEnd_bounded | simp -zeta only [↓Bounded.mk_iff] | split

theorem State.keyedOn_bounded {s m} (h0 : Bounded s) : Bounded (State.keyedOn s m) := by
  unfold State.keyedOn
  with_reducible repeat' first
    | assumption | (intro _; try beta_reduce) | apply State.nextMeta_bounded | apply State.startMoves_bounded
    | apply State.underCount_bounded | simp -zeta only [↓Bounded.mk_iff] | split
    | refine Bounded.ofSome ?_ (by assumption)

theorem execFwuReady_bounded {meas s} (h1 : Bounded s) : BoundedRes (execFwuReady meas s) := by
  unfold execFwuReady
  with_reducible repeat' first
    | assumption | (intro _; try beta_reduce) | apply BoundedRes.mkNext | apply State.count_bounded
    | apply State.deriveSuccs_bounded | apply State.dropUpdate_bounded | apply State.fwuEnd_bounded
    | apply State.keyedOn_bounded | apply State.underCount_bounded | simp -zeta only [↓Bounded.mk_iff] | split
    | (extract_lets +onlyGivenNames s_; have _x : Option State := s_; clear _x; subst s_)
    | (extract_lets +onlyGivenNames s_; clear_value s_)

theorem execFwuBootTimeout_bounded {s} (h0 : Bounded s) : BoundedRes (execFwuBootTimeout s) := by
  unfold execFwuBootTimeout
  with_reducible repeat' first
    | assumption | apply BoundedRes.mkNext | apply State.dropUpdate_bounded | apply State.fwuEnd_bounded
    | simp -zeta only [↓Bounded.mk_iff] | split

theorem State.handover_bounded {s f v2_} (h0 : Bounded s) : Bounded (State.handover s f v2_) := by
  unfold State.handover
  with_reducible repeat' first
    | assumption | apply State.allocKeymap_bounded | apply State.releaseAllocated_bounded
    | apply State.retireMoves_bounded | apply State.startRewrap_bounded | apply State.swapIn_bounded
    | simp -zeta only [↓Bounded.mk_iff] | split
    | (extract_lets +onlyGivenNames s_; have _x : Option State := s_; clear _x; subst s_)

theorem execFwuHandover_bounded {s} (h0 : Bounded s) : BoundedRes (execFwuHandover s) := by
  unfold execFwuHandover
  with_reducible repeat' first
    | assumption | (intro _; try beta_reduce) | apply BoundedRes.ite_ | apply BoundedRes.mkNext
    | exact BoundedRes.mkFault | apply Bounded.ite_ | apply State.dropUpdate_bounded
    | apply State.freeCore_bounded | apply State.handover_bounded | apply State.moveBack_bounded
    | apply State.retireMoves_bounded | simp -zeta only [↓Bounded.mk_iff]
    | refine Bounded.ofSome ?_ (by assumption) | refine Bounded.ofSomeP ?_ (by assumption)
    | refine Bounded.ofPair ?_ (by assumption) | refine Bounded.ofPair2 ?_ (by assumption)
    | refine Bounded.ofPair3 ?_ (by assumption) | split
    | (extract_lets +onlyGivenNames s_; refine (fun (_ : Bounded s_) => ?_) ?_; swap; subst s_)
    | (extract_lets +onlyGivenNames s_; clear_value s_) | extract_lets +onlyGivenNames s_

theorem execFwuStuck_bounded {s} (h0 : Bounded s) : BoundedRes (execFwuStuck s) := by
  unfold execFwuStuck
  with_reducible repeat' first
    | assumption | apply BoundedRes.mkNext | apply State.record_bounded | simp -zeta only [↓Bounded.mk_iff] | split

end Sys2Proof.Machine
end

