-- ==== Sys2Proof/Laws/BoundedOtp.lean ====
section
/-! SUPPORT. Every operation of Machine/Otp.lean keeps the bounds. -/

namespace Sys2Proof.Machine

theorem State.hedgeAll_bounded {s} (h0 : Bounded s) : Bounded (State.hedgeAll s) := by
  unfold State.hedgeAll
  with_reducible repeat' first
    | assumption | (intro _; try beta_reduce) | apply State.addCause_bounded | apply foldl_bounded

theorem State.completeJournal_bounded {s w code} (h0 : Bounded s) : Bounded (State.completeJournal s w code) := by
  unfold State.completeJournal
  with_reducible repeat' first
    | assumption | (intro _; try beta_reduce) | apply Bounded.ite_ | apply State.programRows_bounded
    | apply State.programRows_bounded2 | apply State.setFld_bounded | apply Bounded.getD_ | split
    | (extract_lets +onlyGivenNames s_; refine (fun (_ : Bounded s_) => ?_) ?_; swap; subst s_)
    | (extract_lets +onlyGivenNames s_; clear_value s_) | extract_lets +onlyGivenNames s_

theorem State.wipe_bounded {s} (h0 : Bounded s) : Bounded (State.wipe s) := by
  unfold State.wipe
  with_reducible repeat' first
    | assumption | (intro _; try beta_reduce) | apply State.emit_bounded | apply State.otpPut_bounded
    | apply foldl_bounded | simp -zeta only [↓Bounded.mk_iff]
    | (extract_lets +onlyGivenNames s_; have _x : Option State := s_; clear _x; subst s_)
    | extract_lets +onlyGivenNames s_

theorem State.otpEnd_bounded {s code} (h0 : Bounded s) : Bounded (State.otpEnd s code) := by
  unfold State.otpEnd
  with_reducible repeat' first
    | assumption | apply State.incFld_bounded | apply State.setFld_bounded | split

theorem execOtpRead_bounded {port w s} (h2 : Bounded s) : BoundedRes (execOtpRead port w s) := by
  unfold execOtpRead
  with_reducible repeat' first
    | assumption | apply BoundedRes.ite_ | apply BoundedRes.mkNext | apply State.otpEnd_bounded
    | apply State.regBad_bounded | apply State.regRsp_bounded | apply State.setFld_bounded

theorem State.program_bounded {s w v rowOk spareOk} (h0 : Bounded s) : BoundedPair (State.program s w v rowOk spareOk) := by
  unfold State.program
  with_reducible repeat' first
    | assumption | (intro _; try beta_reduce) | apply BoundedPair.ite_ | apply BoundedPair.mk_
    | apply Bounded.ite_ | apply State.programRow_bounded | apply State.programRow_bounded2
    | refine Bounded.ofSome ?_ (by assumption) | refine Bounded.ofSomeP ?_ (by assumption)
    | refine Bounded.ofPair ?_ (by assumption) | refine Bounded.ofPair2 ?_ (by assumption)
    | refine Bounded.ofPair3 ?_ (by assumption) | split
    | (extract_lets +onlyGivenNames s_; refine (fun (_ : Bounded s_) => ?_) ?_; swap; subst s_)
    | (extract_lets +onlyGivenNames s_; clear_value s_) | extract_lets +onlyGivenNames s_
theorem State.program_bounded2 {s w v rowOk spareOk} (h0 : Bounded s) : Bounded (State.program s w v rowOk spareOk).2 := BoundedPair.of_snd (State.program_bounded h0)

theorem execOtpProgram_bounded {o w rowOk spareOk s} (h4 : Bounded s) : BoundedRes (execOtpProgram o w rowOk spareOk s) := by
  unfold execOtpProgram
  with_reducible repeat' first
    | assumption | (intro _; try beta_reduce) | apply BoundedRes.mkNext | apply State.incFld_bounded
    | apply State.otpEnd_bounded | apply State.ownerCmd_bounded | apply State.program_bounded2
    | apply State.setFld_bounded | apply State.svcCmd_bounded | apply State.svcDone_bounded
    | simp -zeta only [↓Bounded.mk_iff] | split

theorem State.requestEnd_bounded {s code} (h0 : Bounded s) : Bounded (State.requestEnd s code) := by
  unfold State.requestEnd
  with_reducible repeat' first
    | assumption | apply State.incFld_bounded | apply State.newLcNonce_bounded | apply State.setFld_bounded | split

theorem State.programCopies_bounded {s target n} (h0 : Bounded s) : Bounded (State.programCopies s target n) := by
  unfold State.programCopies
  with_reducible repeat' first
    | assumption | (intro _; try beta_reduce) | apply State.otpPut_bounded | apply foldl_bounded

theorem State.endOfLife_bounded {s} (h0 : Bounded s) : Bounded (State.endOfLife s) := by
  unfold State.endOfLife
  with_reducible repeat' first
    | assumption | (intro _; try beta_reduce) | apply Bounded.ite_ | apply State.claimEnd_bounded
    | apply State.hedgeAll_bounded | apply State.incFld_bounded | apply foldl_bounded
    | simp -zeta only [↓Bounded.mk_iff] | simp -zeta only [↓Bounded.mk_iffO, ↓Bounded.mk_iffF] | split
    | (extract_lets +onlyGivenNames s_; refine (fun (_ : Bounded s_) => ?_) ?_; swap; subst s_)
    | (extract_lets +onlyGivenNames s_; clear_value s_) | extract_lets +onlyGivenNames s_

theorem execLcPost_bounded {port programs s} (h2 : Bounded s) : BoundedRes (execLcPost port programs s) := by
  unfold execLcPost
  with_reducible repeat' first
    | assumption | apply BoundedRes.ite_ | apply BoundedRes.mkNext | apply State.endOfLife_bounded
    | apply State.freed_bounded | apply State.pkuOwn_bounded | apply State.programCopies_bounded
    | apply State.regRsp_bounded | apply State.requestEnd_bounded | simp -zeta only [↓Bounded.mk_iff] | split
    | (extract_lets +onlyGivenNames s_; have _x : Option State := s_; clear _x; subst s_)
    | extract_lets +onlyGivenNames s_

theorem execEndOfLifeWipe_bounded {s} (h0 : Bounded s) : BoundedRes (execEndOfLifeWipe s) := by
  unfold execEndOfLifeWipe
  with_reducible repeat' first
    | assumption | apply BoundedRes.mkNext | apply State.detach_bounded | apply State.hedgeAll_bounded
    | apply State.wipe_bounded | apply State.withDom_bounded | apply State.withLinks_bounded
    | apply State.withPair_bounded | split

end Sys2Proof.Machine
end

