-- ==== Sys2Proof/Laws/BoundedBringup.lean ====
section
/-! SUPPORT. Every operation of Machine/Bringup.lean keeps the bounds. -/

namespace Sys2Proof.Machine

theorem State.setPhase_bounded {s n} (h0 : Bounded s) : Bounded (State.setPhase s n) := by
  unfold State.setPhase
  with_reducible repeat' first
    | assumption | apply State.trace_bounded | simp -zeta only [↓Bounded.mk_iff]

theorem State.dropLevels_bounded {s} (h0 : Bounded s) : Bounded (State.dropLevels s) := by
  unfold State.dropLevels
  with_reducible repeat' first
    | assumption | (intro _; try beta_reduce) | apply Bounded.ite_ | apply State.emit_bounded | apply foldl_bounded

theorem State.cold_bounded {s} (_ : Bounded s) : Bounded (State.cold s) := by
  unfold State.cold
  extract_lets u gens
  exact Bounded.mk_iff.mpr reset_bounded

theorem State.warm_bounded {s} (h0 : Bounded s) : Bounded (State.warm s) := by
  unfold State.warm
  extract_lets c f o p was kept d
  exact State.setFld_bounded (Bounded.mk_both h0 h0)

theorem State.reinit_bounded {s} (h0 : Bounded s) : Bounded (State.reinit s) := by
  unfold State.reinit
  with_reducible repeat' first
    | assumption | apply State.setPhase_bounded | apply State.warm_bounded

theorem State.abandonSettle_bounded {s} (h0 : Bounded s) : Bounded (State.abandonSettle s) := by
  unfold State.abandonSettle
  with_reducible repeat' first
    | assumption | apply State.reinit_bounded | simp -zeta only [↓Bounded.mk_iff]

theorem State.connectPair_bounded {s} (h0 : Bounded s) : Bounded (State.connectPair s) := by
  unfold State.connectPair
  with_reducible repeat' first
    | assumption | apply State.applyPair_bounded | apply State.setPort_bounded | split

theorem State.deriveInternal_bounded {s} (h0 : Bounded s) : Bounded (State.deriveInternal s) := by
  unfold State.deriveInternal
  with_reducible repeat' first
    | assumption | apply State.count_bounded | simp -zeta only [↓Bounded.mk_iff]
    | (extract_lets +onlyGivenNames s_; refine (fun (_ : Bounded s_) => ?_) ?_; swap; subst s_)
    | (extract_lets +onlyGivenNames s_; clear_value s_)

theorem State.virginStart_bounded {s} (h0 : Bounded s) : Bounded (State.virginStart s) := by
  unfold State.virginStart
  with_reducible repeat' first
    | assumption | (intro _; try beta_reduce) | apply Bounded.ite_ | apply State.connectPair_bounded
    | apply State.deriveInternal_bounded | apply State.drew_bounded | apply State.mirrorRoots_bounded
    | apply State.reseed_bounded | apply State.setFld_bounded | simp -zeta only [↓Bounded.mk_iff] | split
    | (extract_lets +onlyGivenNames s_; refine (fun (_ : Bounded s_) => ?_) ?_; swap; subst s_)
    | (extract_lets +onlyGivenNames s_; clear_value s_) | extract_lets +onlyGivenNames s_

theorem State.beginMetadata_bounded {s} (h0 : Bounded s) : Bounded (State.beginMetadata s) := by
  unfold State.beginMetadata
  with_reducible repeat' first
    | assumption | apply Bounded.ite_ | apply State.connectPair_bounded | apply State.virginStart_bounded
    | simp -zeta only [↓Bounded.mk_iff]

theorem State.sendDown_bounded {s} (h0 : Bounded s) : Bounded (State.sendDown s) := by
  unfold State.sendDown
  with_reducible repeat' first
    | assumption | (intro _; try beta_reduce) | apply Bounded.ite_ | apply State.sealOpen_bounded
    | apply State.sendDom_bounded | apply State.setTx_bounded | apply foldl_bounded
    | simp -zeta only [↓Bounded.mk_iff] | refine Bounded.ofSome ?_ (by assumption)
    | refine Bounded.ofSomeP ?_ (by assumption) | refine Bounded.ofPair ?_ (by assumption)
    | refine Bounded.ofPair2 ?_ (by assumption) | refine Bounded.ofPair3 ?_ (by assumption) | split
    | (extract_lets +onlyGivenNames s_; refine (fun (_ : Bounded s_) => ?_) ?_; swap; subst s_)
    | (extract_lets +onlyGivenNames s_; clear_value s_) | extract_lets +onlyGivenNames s_

theorem State.beginSettle_bounded {s} (h0 : Bounded s) : Bounded (State.beginSettle s) := by
  unfold State.beginSettle
  with_reducible repeat' first
    | assumption | (intro _; try beta_reduce) | apply Bounded.ite_ | apply State.dropLevels_bounded
    | apply State.sendDown_bounded | apply State.withMem_bounded | simp -zeta only [↓Bounded.mk_iff] | split
    | (extract_lets +onlyGivenNames s_; refine (fun (_ : Bounded s_) => ?_) ?_; swap; subst s_)
    | (extract_lets +onlyGivenNames s_; clear_value s_) | extract_lets +onlyGivenNames s_

theorem State.completeHandover_bounded {s booted} (h0 : Bounded s) : Bounded (State.completeHandover s booted) := by
  unfold State.completeHandover
  with_reducible repeat' first
    | assumption | (intro _; try beta_reduce) | apply Bounded.ite_ | apply State.retireJob_bounded
    | apply State.startRewrap_bounded | apply foldl_bounded | simp -zeta only [↓Bounded.mk_iff]

theorem State.makeDomainKeys_bounded {s} (h0 : Bounded s) : Bounded (State.makeDomainKeys s) := by
  unfold State.makeDomainKeys
  with_reducible repeat' first
    | assumption | (intro _; try beta_reduce) | apply Bounded.ite_ | apply State.drew_bounded
    | apply State.reseed_bounded | apply State.withDom_bounded | simp -zeta only [↓Bounded.mk_iff] | split
    | (extract_lets +onlyGivenNames s_; refine (fun (_ : Bounded s_) => ?_) ?_; swap; subst s_)
    | (extract_lets +onlyGivenNames s_; clear_value s_) | extract_lets +onlyGivenNames s_

theorem State.readyDraws_bounded {s} (h0 : Bounded s) : Bounded (State.readyDraws s) := by
  unfold State.readyDraws
  with_reducible repeat' first
    | assumption | (intro _; try beta_reduce) | apply Bounded.ite_ | apply State.makeDomainKeys_bounded
    | apply State.newLcNonce_bounded | apply State.newNonce_bounded | apply State.setPhase_bounded | split

theorem State.setReady_bounded {s} (h0 : Bounded s) : Bounded (State.setReady s) := by
  unfold State.setReady
  with_reducible repeat' first
    | assumption | (intro _; try beta_reduce) | apply Bounded.ite_ | apply State.bind_bounded
    | apply State.endOfLife_bounded | apply State.hedgeAll_bounded | apply State.readyDraws_bounded
    | apply State.record_bounded | apply State.startJoin_bounded | apply State.warm_bounded
    | simp -zeta only [↓Bounded.mk_iff] | split
    | (extract_lets +onlyGivenNames s_; refine (fun (_ : Bounded s_) => ?_) ?_; swap; subst s_)
    | (extract_lets +onlyGivenNames s_; clear_value s_) | extract_lets +onlyGivenNames s_

theorem State.enterPhase_bounded {s p} (h0 : Bounded s) : Bounded (State.enterPhase s p) := by
  unfold State.enterPhase
  with_reducible repeat' first
    | assumption | apply State.beginMetadata_bounded | apply State.setPhase_bounded | apply State.setReady_bounded
    | simp -zeta only [↓Bounded.mk_iff] | split
    | (extract_lets +onlyGivenNames s_; refine (fun (_ : Bounded s_) => ?_) ?_; swap; subst s_)

theorem State.evictLevel_bounded {s level} (h0 : Bounded s) : Bounded (State.evictLevel s level) := by
  unfold State.evictLevel
  with_reducible repeat' first
    | assumption | (intro _; try beta_reduce) | apply State.evict_bounded | apply foldl_bounded

theorem State.takeScalars_bounded {s b} (h0 : Bounded s) : Bounded (State.takeScalars s b) := by
  unfold State.takeScalars
  with_reducible repeat' first
    | assumption | apply State.setFld_bounded | apply State.withPair_bounded | simp -zeta only [↓Bounded.mk_iff]

theorem State.restoreRow_bounded {s settle items row b} (h0 : Bounded s) : Bounded (State.restoreRow s settle items row b) := by
  unfold State.restoreRow
  with_reducible repeat' first
    | assumption | apply Bounded.ite_ | apply State.drawEpoch_bounded2 | apply State.setRow_bounded

theorem State.loadEntry_bounded {s ledger slot version} (h0 : Bounded s) : Bounded (State.loadEntry s ledger slot version) := by
  unfold State.loadEntry
  with_reducible repeat' first
    | assumption | (intro _; try beta_reduce) | apply Bounded.ite_ | apply State.bind_bounded
    | apply State.incFld_bounded | apply State.putSlot_bounded | apply State.record_bounded
    | simp -zeta only [↓Bounded.mk_iff] | refine Bounded.ofSome ?_ (by assumption)
    | refine Bounded.ofSomeP ?_ (by assumption) | refine Bounded.ofPair ?_ (by assumption)
    | refine Bounded.ofPair2 ?_ (by assumption) | refine Bounded.ofPair3 ?_ (by assumption) | split
    | (extract_lets +onlyGivenNames s_; refine (fun (_ : Bounded s_) => ?_) ?_; swap; subst s_)
    | (extract_lets +onlyGivenNames s_; clear_value s_) | extract_lets +onlyGivenNames s_

theorem State.recoverPage_bounded {s mem row q} (h0 : Bounded s) : Bounded (State.recoverPage s mem row q) := by
  unfold State.recoverPage
  with_reducible repeat' first
    | assumption | (intro _; try beta_reduce) | apply Bounded.ite_ | apply State.moveOut_bounded
    | apply State.movePoison_bounded | refine Bounded.ofSome ?_ (by assumption)
    | refine Bounded.ofSomeP ?_ (by assumption) | refine Bounded.ofPair ?_ (by assumption)
    | refine Bounded.ofPair2 ?_ (by assumption) | refine Bounded.ofPair3 ?_ (by assumption) | split
    | (extract_lets +onlyGivenNames s_; refine (fun (_ : Bounded s_) => ?_) ?_; swap; subst s_)
    | (extract_lets +onlyGivenNames s_; clear_value s_) | extract_lets +onlyGivenNames s_

theorem State.recoverMeta_bounded {s mem q} (h0 : Bounded s) : Bounded (State.recoverMeta s mem q) := by
  unfold State.recoverMeta
  with_reducible repeat' first
    | assumption | (intro _; try beta_reduce) | apply Bounded.ite_ | apply State.retagOut_bounded
    | simp -zeta only [↓Bounded.mk_iff] | refine Bounded.ofSome ?_ (by assumption)
    | refine Bounded.ofSomeP ?_ (by assumption) | refine Bounded.ofPair ?_ (by assumption)
    | refine Bounded.ofPair2 ?_ (by assumption) | refine Bounded.ofPair3 ?_ (by assumption) | split
    | (extract_lets +onlyGivenNames s_; refine (fun (_ : Bounded s_) => ?_) ?_; swap; subst s_)
    | (extract_lets +onlyGivenNames s_; clear_value s_) | extract_lets +onlyGivenNames s_

theorem State.recoverJob_bounded {s n mem} (h0 : Bounded s) : Bounded (State.recoverJob s n mem) := by
  unfold State.recoverJob
  with_reducible repeat' first
    | assumption | (intro _; try beta_reduce) | apply Bounded.ite_ | apply State.count_bounded
    | apply State.recoverMeta_bounded | apply State.recoverPage_bounded | apply State.retry_bounded
    | apply State.setJob_bounded | apply State.settleJob_bounded | apply foldl_bounded
    | simp -zeta only [↓Bounded.mk_iff] | refine Bounded.ofSome ?_ (by assumption)
    | refine Bounded.ofSomeP ?_ (by assumption) | refine Bounded.ofPair ?_ (by assumption)
    | refine Bounded.ofPair2 ?_ (by assumption) | refine Bounded.ofPair3 ?_ (by assumption) | split
    | (extract_lets +onlyGivenNames s_; refine (fun (_ : Bounded s_) => ?_) ?_; swap; subst s_)
    | (extract_lets +onlyGivenNames s_; clear_value s_) | extract_lets +onlyGivenNames s_

theorem State.loadMeta_bounded {s mem} (h0 : Bounded s) : Bounded (State.loadMeta s mem) := by
  unfold State.loadMeta
  with_reducible repeat' first
    | assumption | (intro _; try beta_reduce) | apply Bounded.ite_ | apply State.cacheNode_bounded
    | apply foldl_bounded | refine Bounded.ofSome ?_ (by assumption)
    | refine Bounded.ofSomeP ?_ (by assumption) | refine Bounded.ofPair ?_ (by assumption)
    | refine Bounded.ofPair2 ?_ (by assumption) | refine Bounded.ofPair3 ?_ (by assumption) | split
    | (extract_lets +onlyGivenNames s_; refine (fun (_ : Bounded s_) => ?_) ?_; swap; subst s_)
    | (extract_lets +onlyGivenNames s_; clear_value s_) | extract_lets +onlyGivenNames s_

theorem State.restoreHarrow_bounded {s items mem} (h0 : Bounded s) : Bounded (State.restoreHarrow s items mem) := by
  unfold State.restoreHarrow
  with_reducible repeat' first
    | assumption | (intro _; try beta_reduce) | apply Bounded.ite_ | apply State.loadMeta_bounded
    | apply State.nextMeta_bounded | apply State.recoverJob_bounded | apply State.setJob_bounded
    | apply State.underCount_bounded | apply foldl_bounded | simp -zeta only [↓Bounded.mk_iff]
    | simp -zeta only [↓Bounded.mk_iffO, ↓Bounded.mk_iffF] | apply Bounded.getD_ | split
    | (extract_lets +onlyGivenNames s_; refine (fun (_ : Bounded s_) => ?_) ?_; swap; subst s_)
    | (extract_lets +onlyGivenNames s_; clear_value s_) | extract_lets +onlyGivenNames s_

theorem State.resumeUpdate_bounded {s} (h0 : Bounded s) : Bounded (State.resumeUpdate s) := by
  unfold State.resumeUpdate
  with_reducible repeat' first
    | assumption | (intro _; try beta_reduce) | apply Bounded.ite_ | apply State.bootSpare_bounded
    | apply State.handover_bounded | simp -zeta only [↓Bounded.mk_iff]
    | simp -zeta only [↓Bounded.mk_iffO, ↓Bounded.mk_iffF] | refine Bounded.ofSome ?_ (by assumption)
    | refine Bounded.ofSomeP ?_ (by assumption) | refine Bounded.ofPair ?_ (by assumption)
    | refine Bounded.ofPair2 ?_ (by assumption) | refine Bounded.ofPair3 ?_ (by assumption)
    | apply Bounded.getD_ | split
    | (extract_lets +onlyGivenNames s_; refine (fun (_ : Bounded s_) => ?_) ?_; swap; subst s_)
    | (extract_lets +onlyGivenNames s_; clear_value s_) | extract_lets +onlyGivenNames s_

theorem State.installRoots_bounded {s settle items ledger mem} (h0 : Bounded s) : Bounded (State.installRoots s settle items ledger mem) := by
  unfold State.installRoots
  with_reducible repeat' first
    | assumption | (intro _; try beta_reduce) | apply Bounded.ite_ | apply State.applyAreas_bounded
    | apply State.completeHandover_bounded | apply State.deriveInternal_bounded
    | apply State.loadEntry_bounded | apply State.restoreHarrow_bounded | apply State.restoreRow_bounded
    | apply State.resumeUpdate_bounded | apply State.takeScalars_bounded | apply State.withPair_bounded
    | apply foldl_bounded | simp -zeta only [↓Bounded.mk_iff] | refine Bounded.ofSome ?_ (by assumption)
    | refine Bounded.ofSomeP ?_ (by assumption) | refine Bounded.ofPair ?_ (by assumption)
    | refine Bounded.ofPair2 ?_ (by assumption) | refine Bounded.ofPair3 ?_ (by assumption) | split
    | (extract_lets +onlyGivenNames s_; refine (fun (_ : Bounded s_) => ?_) ?_; swap; subst s_)
    | (extract_lets +onlyGivenNames s_; clear_value s_) | extract_lets +onlyGivenNames s_

theorem State.makeRoot_bounded {s} (h0 : Bounded s) : BoundedPair (State.makeRoot s) := by
  unfold State.makeRoot
  with_reducible repeat' first
    | assumption | (intro _; try beta_reduce) | apply BoundedPair.ite_ | apply BoundedPair.mk_
    | apply Bounded.ite_ | apply State.drew_bounded | apply State.programRows_bounded
    | apply State.programRows_bounded2 | apply State.reseed_bounded | split
    | (extract_lets +onlyGivenNames s_; refine (fun (_ : Bounded s_) => ?_) ?_; swap; subst s_)
    | (extract_lets +onlyGivenNames s_; clear_value s_) | extract_lets +onlyGivenNames s_
theorem State.makeRoot_bounded2 {s} (h0 : Bounded s) : Bounded (State.makeRoot s).2 := BoundedPair.of_snd (State.makeRoot_bounded h0)

theorem State.phaseBoot_bounded {s r} (h0 : Bounded s) : BoundedOpt (State.phaseBoot s r) := by
  unfold State.phaseBoot
  with_reducible repeat' first
    | assumption | apply BoundedOpt.mkSome | exact BoundedOpt.mkNone | simp -zeta only [↓Bounded.mk_iff] | split
    | (extract_lets +onlyGivenNames s_; have _x : _ → _ := s_; clear _x)

theorem State.phaseKeys_bounded {s} (h0 : Bounded s) : BoundedPair (State.phaseKeys s) := by
  unfold State.phaseKeys
  with_reducible repeat' first
    | assumption | (intro _; try beta_reduce) | apply BoundedPair.ite_ | apply BoundedPair.mk_
    | apply Bounded.ite_ | apply State.makeRoot_bounded | apply State.makeRoot_bounded2
    | simp -zeta only [↓Bounded.mk_iff] | refine Bounded.ofSome ?_ (by assumption)
    | refine Bounded.ofSomeP ?_ (by assumption) | refine Bounded.ofPair ?_ (by assumption)
    | refine Bounded.ofPair2 ?_ (by assumption) | refine Bounded.ofPair3 ?_ (by assumption) | split
    | (extract_lets +onlyGivenNames s_; refine (fun (_ : Bounded s_) => ?_) ?_; swap; subst s_)
    | (extract_lets +onlyGivenNames s_; clear_value s_) | extract_lets +onlyGivenNames s_
theorem State.phaseKeys_bounded2 {s} (h0 : Bounded s) : Bounded (State.phaseKeys s).2 := BoundedPair.of_snd (State.phaseKeys_bounded h0)

theorem State.phaseOtp_bounded {s} (h0 : Bounded s) : Bounded (State.phaseOtp s) := by
  unfold State.phaseOtp
  with_reducible repeat' first
    | assumption | (intro _; try beta_reduce) | apply Bounded.ite_ | apply State.completeJournal_bounded
    | apply State.endOfLife_bounded | apply State.wr_bounded | apply foldl_bounded
    | simp -zeta only [↓Bounded.mk_iff] | refine Bounded.ofSome ?_ (by assumption)
    | refine Bounded.ofSomeP ?_ (by assumption) | refine Bounded.ofPair ?_ (by assumption)
    | refine Bounded.ofPair2 ?_ (by assumption) | refine Bounded.ofPair3 ?_ (by assumption)
    | apply Bounded.getD_ | split
    | (extract_lets +onlyGivenNames s_; refine (fun (_ : Bounded s_) => ?_) ?_; swap; subst s_)
    | (extract_lets +onlyGivenNames s_; clear_value s_) | extract_lets +onlyGivenNames s_

theorem State.phaseSwap_bounded {s} (h0 : Bounded s) : Bounded (State.phaseSwap s) := by
  unfold State.phaseSwap
  with_reducible repeat' first
    | assumption | (intro _; try beta_reduce) | apply Bounded.ite_ | apply State.applyLanes_bounded
    | apply State.applyPlots_bounded | apply State.emptyShadow_bounded | apply State.pinCell_bounded
    | apply State.prepareSwap_bounded | apply State.showActive_bounded | apply State.swapIn_bounded
    | apply foldl_bounded | simp -zeta only [↓Bounded.mk_iff] | split

theorem State.phaseWork_bounded {s r} (h0 : Bounded s) : BoundedPair (State.phaseWork s r) := by
  unfold State.phaseWork
  with_reducible repeat' first
    | assumption | (intro _; try beta_reduce) | apply BoundedPair.ite_ | apply BoundedPair.mk_
    | apply Bounded.ite_ | apply State.loadImage_bounded | apply State.phaseBoot_bounded
    | apply State.phaseKeys_bounded | apply State.phaseKeys_bounded2 | apply State.phaseOtp_bounded
    | apply State.phaseSwap_bounded | apply State.reseed_bounded | apply State.warm_bounded
    | apply State.wipe_bounded | simp -zeta only [↓Bounded.mk_iff]
    | refine Bounded.ofSome ?_ (by assumption) | refine Bounded.ofSomeP ?_ (by assumption)
    | refine Bounded.ofPair ?_ (by assumption) | refine Bounded.ofPair2 ?_ (by assumption)
    | refine Bounded.ofPair3 ?_ (by assumption) | split
    | (extract_lets +onlyGivenNames s_; refine (fun (_ : Bounded s_) => ?_) ?_; swap; subst s_)
    | (extract_lets +onlyGivenNames s_; clear_value s_) | extract_lets +onlyGivenNames s_
theorem State.phaseWork_bounded2 {s r} (h0 : Bounded s) : Bounded (State.phaseWork s r).2 := BoundedPair.of_snd (State.phaseWork_bounded h0)

theorem State.settleStep_bounded {s} (h0 : Bounded s) : Bounded (State.settleStep s) := by
  unfold State.settleStep
  with_reducible repeat' first
    | assumption | apply Bounded.ite_ | apply State.evictLevel_bounded | apply State.sendMirror_bounded

theorem State.stopBringup_bounded {s cause} (h0 : Bounded s) : Bounded (State.stopBringup s cause) := by
  unfold State.stopBringup
  with_reducible repeat' first
    | assumption | apply State.record_bounded | simp -zeta only [↓Bounded.mk_iff]

theorem execBringupPhaseDone_bounded {cause r s} (h2 : Bounded s) : BoundedRes (execBringupPhaseDone cause r s) := by
  unfold execBringupPhaseDone
  with_reducible repeat' first
    | assumption | (intro _; try beta_reduce) | apply BoundedRes.ite_ | apply BoundedRes.mkNext
    | exact BoundedRes.mkFault | apply Bounded.ite_ | apply State.enterPhase_bounded
    | apply State.phaseWork_bounded | apply State.phaseWork_bounded2 | apply State.reinit_bounded
    | apply State.settleStep_bounded | apply State.stopBringup_bounded
    | refine Bounded.ofSome ?_ (by assumption) | refine Bounded.ofSomeP ?_ (by assumption)
    | refine Bounded.ofPair ?_ (by assumption) | refine Bounded.ofPair2 ?_ (by assumption)
    | refine Bounded.ofPair3 ?_ (by assumption) | split
    | (extract_lets +onlyGivenNames s_; refine (fun (_ : Bounded s_) => ?_) ?_; swap; subst s_)
    | (extract_lets +onlyGivenNames s_; clear_value s_) | extract_lets +onlyGivenNames s_

theorem execEpoch0EntryExpiry_bounded {src lane s} (h2 : Bounded s) : BoundedRes (execEpoch0EntryExpiry src lane s) := by
  unfold execEpoch0EntryExpiry
  with_reducible repeat' first
    | assumption | apply BoundedRes.mkNext | apply State.withLinks_bounded

theorem execPllLockLoss_bounded {s} (h0 : Bounded s) : BoundedRes (execPllLockLoss s) := by
  unfold execPllLockLoss
  with_reducible repeat' first
    | assumption | apply BoundedRes.ite_ | apply BoundedRes.mkNext | apply State.abandonSettle_bounded
    | apply State.incFld_bounded | apply State.raiseWarm_bounded | simp -zeta only [↓Bounded.mk_iff]

theorem execPllLockReturn_bounded {s} (h0 : Bounded s) : BoundedRes (execPllLockReturn s) := by
  unfold execPllLockReturn
  with_reducible repeat' first
    | assumption | apply BoundedRes.ite_ | apply BoundedRes.mkNext | apply State.record_bounded
    | simp -zeta only [↓Bounded.mk_iff]

theorem execPowerOnReset_bounded {s} (h0 : Bounded s) : BoundedRes (execPowerOnReset s) := by
  unfold execPowerOnReset
  with_reducible repeat' first
    | assumption | apply BoundedRes.ite_ | apply BoundedRes.mkNext | apply State.setPhase_bounded
    | simp -zeta only [↓Bounded.mk_iff]

theorem execPowerOnResetAssert_bounded {s} (h0 : Bounded s) : BoundedRes (execPowerOnResetAssert s) := by
  unfold execPowerOnResetAssert
  with_reducible repeat' first
    | assumption | apply BoundedRes.mkNext | apply State.cold_bounded

theorem execRestore_bounded {kind empty items ledger mem s} (h5 : Bounded s) : BoundedRes (execRestore kind empty items ledger mem s) := by
  unfold execRestore
  with_reducible repeat' first
    | assumption | (intro _; try beta_reduce) | apply BoundedRes.ite_ | apply BoundedRes.mkNext
    | exact BoundedRes.mkFault | apply Bounded.ite_ | apply State.answerWaiting_bounded
    | apply State.forgetEpoch0_bounded | apply State.installRoots_bounded | apply State.virginStart_bounded
    | simp -zeta only [↓Bounded.mk_iff] | refine Bounded.ofSome ?_ (by assumption)
    | refine Bounded.ofSomeP ?_ (by assumption) | refine Bounded.ofPair ?_ (by assumption)
    | refine Bounded.ofPair2 ?_ (by assumption) | refine Bounded.ofPair3 ?_ (by assumption)
    | apply Bounded.getD_ | split
    | (extract_lets +onlyGivenNames s_; refine (fun (_ : Bounded s_) => ?_) ?_; swap; subst s_)
    | (extract_lets +onlyGivenNames s_; clear_value s_) | extract_lets +onlyGivenNames s_

theorem execRestoreWaitTimeout_bounded {s} (h0 : Bounded s) : BoundedRes (execRestoreWaitTimeout s) := by
  unfold execRestoreWaitTimeout
  with_reducible repeat' first
    | assumption | (intro _; try beta_reduce) | apply BoundedRes.ite_ | apply BoundedRes.mkNext
    | exact BoundedRes.mkFault | apply Bounded.ite_ | apply State.virginStart_bounded | split

theorem execSettleTimeout_bounded {s} (h0 : Bounded s) : BoundedRes (execSettleTimeout s) := by
  unfold execSettleTimeout
  with_reducible repeat' first
    | assumption | apply BoundedRes.ite_ | apply BoundedRes.mkNext | apply State.abandonSettle_bounded

theorem execWarmReset_bounded {lost s} (h1 : Bounded s) : BoundedRes (execWarmReset lost s) := by
  unfold execWarmReset
  with_reducible repeat' first
    | assumption | (intro _; try beta_reduce) | apply BoundedRes.ite_ | apply BoundedRes.mkNext
    | exact BoundedRes.mkFault | apply Bounded.ite_ | apply State.beginSettle_bounded
    | apply State.emit_bounded | apply State.reinit_bounded | apply State.setPhase_bounded
    | apply State.settleStep_bounded | simp -zeta only [↓Bounded.mk_iff] | split
    | (extract_lets +onlyGivenNames s_; refine (fun (_ : Bounded s_) => ?_) ?_; swap; subst s_)
    | (extract_lets +onlyGivenNames s_; clear_value s_) | extract_lets +onlyGivenNames s_

end Sys2Proof.Machine
end

