-- ==== Sys2Proof/Laws/BoundedDomain.lean ====
section
/-! SUPPORT. Every operation of Machine/Domain.lean keeps the bounds. -/

namespace Sys2Proof.Machine

theorem State.domCmd_bounded {s port f} (h0 : Bounded s) (h2 : ∀ x0, Bounded x0 → Bounded (f x0)) : Bounded (State.domCmd s port f) := by
  unfold State.domCmd
  with_reducible repeat' first
    | assumption | (intro _; try beta_reduce) | apply Bounded.ite_ | apply State.domEnd_bounded
    | apply State.ownerCmd_bounded | apply State.setFld_bounded | apply h2

theorem execDomJoin_bounded {port s} (h1 : Bounded s) : BoundedRes (execDomJoin port s) := by
  unfold execDomJoin
  with_reducible repeat' first
    | assumption | (intro _; try beta_reduce) | apply Bounded.ite_ | apply BoundedRes.mkNext
    | apply State.domCmd_bounded | apply State.domEnd_bounded | apply State.startJoin_bounded
    | apply State.withDom_bounded

theorem State.abortAdvance_bounded {s} (h0 : Bounded s) : Bounded (State.abortAdvance s) := by
  unfold State.abortAdvance
  with_reducible repeat' first
    | assumption | (intro _; try beta_reduce) | apply Bounded.ite_ | apply State.domEnd_bounded
    | apply State.sendMember_bounded | apply State.withDom_bounded | apply foldl_bounded | split

theorem execDomLeave_bounded {port s} (h1 : Bounded s) : BoundedRes (execDomLeave port s) := by
  unfold execDomLeave
  with_reducible repeat' first
    | assumption | (intro _; try beta_reduce) | apply Bounded.ite_ | apply BoundedRes.mkNext
    | apply State.abortAdvance_bounded | apply State.domCmd_bounded | apply State.domEnd_bounded
    | apply State.sendMember_bounded | apply State.withDom_bounded | split
    | (extract_lets +onlyGivenNames s_; refine (fun (_ : Bounded s_) => ?_) ?_; swap; subst s_)
    | (extract_lets +onlyGivenNames s_; clear_value s_)

theorem State.sendRecords_bounded {s} (h0 : Bounded s) : Bounded (State.sendRecords s) := by
  unfold State.sendRecords
  with_reducible repeat' first
    | assumption | (intro _; try beta_reduce) | apply Bounded.ite_ | apply State.sendMember_bounded
    | apply foldl_bounded | refine Bounded.ofSome ?_ (by assumption)
    | refine Bounded.ofSomeP ?_ (by assumption) | refine Bounded.ofPair ?_ (by assumption)
    | refine Bounded.ofPair2 ?_ (by assumption) | refine Bounded.ofPair3 ?_ (by assumption)
    | apply Bounded.getD_ | split
    | (extract_lets +onlyGivenNames s_; refine (fun (_ : Bounded s_) => ?_) ?_; swap; subst s_)
    | (extract_lets +onlyGivenNames s_; clear_value s_) | extract_lets +onlyGivenNames s_

theorem State.sendCommit_bounded {s} (h0 : Bounded s) : Bounded (State.sendCommit s) := by
  unfold State.sendCommit
  with_reducible repeat' first
    | assumption | (intro _; try beta_reduce) | apply Bounded.ite_ | apply State.commitNext_bounded
    | apply State.sendMember_bounded | apply State.sendRecords_bounded | apply State.withDom_bounded
    | apply foldl_bounded | split

theorem State.sendPrepare_bounded {s a eph u} (h0 : Bounded s) : Bounded (State.sendPrepare s a eph u) := by
  unfold State.sendPrepare
  with_reducible repeat' first
    | assumption | (intro _; try beta_reduce) | apply Bounded.ite_ | apply State.drew_bounded
    | apply State.pkuOwn_bounded | apply State.reseed_bounded | apply State.sendMember_bounded
    | refine Bounded.ofSome ?_ (by assumption) | refine Bounded.ofSomeP ?_ (by assumption)
    | refine Bounded.ofPair ?_ (by assumption) | refine Bounded.ofPair2 ?_ (by assumption)
    | refine Bounded.ofPair3 ?_ (by assumption) | split
    | (extract_lets +onlyGivenNames s_; refine (fun (_ : Bounded s_) => ?_) ?_; swap; subst s_)
    | (extract_lets +onlyGivenNames s_; clear_value s_) | extract_lets +onlyGivenNames s_

theorem State.propose_bounded {s} (h0 : Bounded s) : Bounded (State.propose s) := by
  unfold State.propose
  with_reducible repeat' first
    | assumption | (intro _; try beta_reduce) | apply Bounded.ite_ | apply State.count_bounded
    | apply State.domEnd_bounded | apply State.drew_bounded | apply State.reseed_bounded
    | apply State.sendCommit_bounded | apply State.sendPrepare_bounded | apply State.withDom_bounded
    | apply foldl_bounded | simp -zeta only [↓Bounded.mk_iff] | refine Bounded.ofSome ?_ (by assumption)
    | refine Bounded.ofSomeP ?_ (by assumption) | refine Bounded.ofPair ?_ (by assumption)
    | refine Bounded.ofPair2 ?_ (by assumption) | refine Bounded.ofPair3 ?_ (by assumption) | split
    | (extract_lets +onlyGivenNames s_; refine (fun (_ : Bounded s_) => ?_) ?_; swap; subst s_)
    | (extract_lets +onlyGivenNames s_; clear_value s_) | extract_lets +onlyGivenNames s_

theorem State.wantEpoch_bounded {s} (h0 : Bounded s) : Bounded (State.wantEpoch s) := by
  unfold State.wantEpoch
  with_reducible repeat' first
    | assumption | apply Bounded.ite_ | apply State.propose_bounded | apply State.withDom_bounded

theorem execDomAdvance_bounded {port s} (h1 : Bounded s) : BoundedRes (execDomAdvance port s) := by
  unfold execDomAdvance
  with_reducible repeat' first
    | assumption | (intro _; try beta_reduce) | apply BoundedRes.ite_ | apply BoundedRes.mkNext
    | exact BoundedRes.mkFault | apply Bounded.ite_ | apply State.domCmd_bounded
    | apply State.domEnd_bounded | apply State.wantEpoch_bounded | apply State.withDom_bounded
    | simp -zeta only [↓Bounded.mk_iff] | split
    | (extract_lets +onlyGivenNames s_; refine (fun (_ : Bounded s_) => ?_) ?_; swap; subst s_)
    | (extract_lets +onlyGivenNames s_; clear_value s_) | extract_lets +onlyGivenNames s_

theorem State.proposeWaiting_bounded {s} (h0 : Bounded s) : Bounded (State.proposeWaiting s) := by
  unfold State.proposeWaiting
  with_reducible repeat' first
    | assumption | (intro _; try beta_reduce) | apply Bounded.ite_ | apply State.propose_bounded
    | apply State.withDom_bounded | simp -zeta only [↓Bounded.mk_iff] | split
    | (extract_lets +onlyGivenNames s_; refine (fun (_ : Bounded s_) => ?_) ?_; swap; subst s_)
    | (extract_lets +onlyGivenNames s_; clear_value s_) | extract_lets +onlyGivenNames s_

theorem State.takeBallot_bounded {s b} (h0 : Bounded s) : BoundedPair (State.takeBallot s b) := by
  unfold State.takeBallot
  with_reducible repeat' first
    | assumption | (intro _; try beta_reduce) | apply BoundedPair.ite_ | apply BoundedPair.mk_
    | apply Bounded.ite_ | apply State.abortAdvance_bounded | apply State.incFld_bounded
    | apply State.liftFallow_bounded | apply State.pkuOwn_bounded | apply State.proposeWaiting_bounded
    | apply State.propose_bounded | apply State.withDom_bounded | simp -zeta only [↓Bounded.mk_iff]
    | refine Bounded.ofSome ?_ (by assumption) | refine Bounded.ofSomeP ?_ (by assumption)
    | refine Bounded.ofPair ?_ (by assumption) | refine Bounded.ofPair2 ?_ (by assumption)
    | refine Bounded.ofPair3 ?_ (by assumption) | split
    | (extract_lets +onlyGivenNames s_; refine (fun (_ : Bounded s_) => ?_) ?_; swap; subst s_)
    | (extract_lets +onlyGivenNames s_; clear_value s_) | extract_lets +onlyGivenNames s_
theorem State.takeBallot_bounded2 {s b} (h0 : Bounded s) : Bounded (State.takeBallot s b).2 := BoundedPair.of_snd (State.takeBallot_bounded h0)

theorem execBallotPost_bounded {port len s} (h2 : Bounded s) : BoundedRes (execBallotPost port len s) := by
  unfold execBallotPost
  with_reducible repeat' first
    | assumption | apply BoundedRes.ite_ | apply BoundedRes.mkNext | apply State.regRsp_bounded
    | apply State.setFld_bounded | apply State.takeBallot_bounded2 | split

theorem State.fillBox_bounded {s r b port} (h0 : Bounded s) : Bounded (State.fillBox s r b port) := by
  unfold State.fillBox
  with_reducible repeat' first
    | assumption | (intro _; try beta_reduce) | apply State.wr_bounded | apply foldl_bounded

theorem execHello_bounded {src exch body s} (h3 : Bounded s) : BoundedRes (execHello src exch body s) := by
  unfold execHello
  with_reducible repeat' first
    | assumption | (intro _; try beta_reduce) | apply BoundedRes.ite_ | apply BoundedRes.mkNext
    | exact BoundedRes.mkFault | apply Bounded.ite_ | apply State.drew_bounded | apply State.sendDom_bounded
    | apply State.signBoth_bounded | apply State.signBoth_bounded2 | apply State.withDom_bounded
    | simp -zeta only [↓Bounded.mk_iff] | refine Bounded.ofSome ?_ (by assumption)
    | refine Bounded.ofSomeP ?_ (by assumption) | refine Bounded.ofPair ?_ (by assumption)
    | refine Bounded.ofPair2 ?_ (by assumption) | refine Bounded.ofPair3 ?_ (by assumption) | split
    | (extract_lets +onlyGivenNames s_; refine (fun (_ : Bounded s_) => ?_) ?_; swap; subst s_)
    | (extract_lets +onlyGivenNames s_; clear_value s_) | extract_lets +onlyGivenNames s_

theorem execChallenge_bounded {src exch body s} (h3 : Bounded s) : BoundedRes (execChallenge src exch body s) := by
  unfold execChallenge
  with_reducible repeat' first
    | assumption | (intro _; try beta_reduce) | apply BoundedRes.ite_ | apply BoundedRes.mkNext
    | exact BoundedRes.mkFault | apply Bounded.ite_ | apply State.forgetEpoch0_bounded
    | apply State.pkuOwn_bounded | apply State.sendDom_bounded | apply State.signBoth_bounded
    | apply State.signBoth_bounded2 | apply State.takeBallot_bounded | apply State.takeBallot_bounded2
    | apply State.withDom_bounded | simp -zeta only [↓Bounded.mk_iff]
    | refine Bounded.ofSome ?_ (by assumption) | refine Bounded.ofSomeP ?_ (by assumption)
    | refine Bounded.ofPair ?_ (by assumption) | refine Bounded.ofPair2 ?_ (by assumption)
    | refine Bounded.ofPair3 ?_ (by assumption) | split
    | (extract_lets +onlyGivenNames s_; refine (fun (_ : Bounded s_) => ?_) ?_; swap; subst s_)
    | (extract_lets +onlyGivenNames s_; clear_value s_) | extract_lets +onlyGivenNames s_

theorem execEvidence_bounded {src exch body s} (h3 : Bounded s) : BoundedRes (execEvidence src exch body s) := by
  unfold execEvidence
  with_reducible repeat' first
    | assumption | (intro _; try beta_reduce) | apply BoundedRes.ite_ | apply BoundedRes.mkNext
    | exact BoundedRes.mkFault | apply Bounded.ite_ | apply State.forgetEpoch0_bounded
    | apply State.pkuOwn_bounded | apply State.sendDom_bounded | apply State.wantEpoch_bounded
    | apply State.withDom_bounded | simp -zeta only [↓Bounded.mk_iff]
    | refine Bounded.ofSome ?_ (by assumption) | refine Bounded.ofSomeP ?_ (by assumption)
    | refine Bounded.ofPair ?_ (by assumption) | refine Bounded.ofPair2 ?_ (by assumption)
    | refine Bounded.ofPair3 ?_ (by assumption) | split
    | (extract_lets +onlyGivenNames s_; refine (fun (_ : Bounded s_) => ?_) ?_; swap; subst s_)
    | (extract_lets +onlyGivenNames s_; clear_value s_) | extract_lets +onlyGivenNames s_

theorem State.joinFailed_bounded {s code} (h0 : Bounded s) : Bounded (State.joinFailed s code) := by
  unfold State.joinFailed
  with_reducible repeat' first
    | assumption | apply Bounded.ite_ | apply State.domEnd_bounded | apply State.withDom_bounded

theorem execAdmit_bounded {src exch status _epoch s} (h4 : Bounded s) : BoundedRes (execAdmit src exch status _epoch s) := by
  unfold execAdmit
  with_reducible repeat' first
    | assumption | (intro _; try beta_reduce) | apply BoundedRes.ite_ | apply BoundedRes.mkNext
    | exact BoundedRes.mkFault | apply Bounded.ite_ | apply State.forgetEpoch0_bounded
    | apply State.joinFailed_bounded | apply State.record_bounded | apply State.sendHello_bounded
    | apply State.setFld_bounded | apply State.withDom_bounded | simp -zeta only [↓Bounded.mk_iff]
    | refine Bounded.ofSome ?_ (by assumption) | refine Bounded.ofSomeP ?_ (by assumption)
    | refine Bounded.ofPair ?_ (by assumption) | refine Bounded.ofPair2 ?_ (by assumption)
    | refine Bounded.ofPair3 ?_ (by assumption) | split
    | (extract_lets +onlyGivenNames s_; refine (fun (_ : Bounded s_) => ?_) ?_; swap; subst s_)
    | (extract_lets +onlyGivenNames s_; clear_value s_) | extract_lets +onlyGivenNames s_

theorem execAdmissionTimeout_bounded {s} (h0 : Bounded s) : BoundedRes (execAdmissionTimeout s) := by
  unfold execAdmissionTimeout
  with_reducible repeat' first
    | assumption | apply BoundedRes.ite_ | apply BoundedRes.mkNext | apply State.joinFailed_bounded
    | apply State.sendHello_bounded | apply State.withDom_bounded | split

theorem execPrepare_bounded {src epoch wrap members gens s} (h5 : Bounded s) : BoundedRes (execPrepare src epoch wrap members gens s) := by
  unfold execPrepare
  with_reducible repeat' first
    | assumption | (intro _; try beta_reduce) | apply BoundedRes.ite_ | apply BoundedRes.mkNext
    | exact BoundedRes.mkFault | apply Bounded.ite_ | apply State.pkuOwn_bounded
    | apply State.sendDom_bounded | apply State.withDom_bounded | apply foldl_bounded
    | simp -zeta only [↓Bounded.mk_iff] | refine Bounded.ofSome ?_ (by assumption)
    | refine Bounded.ofSomeP ?_ (by assumption) | refine Bounded.ofPair ?_ (by assumption)
    | refine Bounded.ofPair2 ?_ (by assumption) | refine Bounded.ofPair3 ?_ (by assumption) | split
    | (extract_lets +onlyGivenNames s_; refine (fun (_ : Bounded s_) => ?_) ?_; swap; subst s_)
    | (extract_lets +onlyGivenNames s_; clear_value s_) | extract_lets +onlyGivenNames s_

theorem State.endAdvance_bounded {s} (h0 : Bounded s) : Bounded (State.endAdvance s) := by
  unfold State.endAdvance
  with_reducible repeat' first
    | assumption | (intro _; try beta_reduce) | apply Bounded.ite_ | apply State.domEnd_bounded
    | apply State.proposeWaiting_bounded | apply State.withDom_bounded | simp -zeta only [↓Bounded.mk_iff]
    | split | (extract_lets +onlyGivenNames s_; refine (fun (_ : Bounded s_) => ?_) ?_; swap; subst s_)
    | (extract_lets +onlyGivenNames s_; clear_value s_) | extract_lets +onlyGivenNames s_

theorem State.endIfDone_bounded {s} (h0 : Bounded s) : Bounded (State.endIfDone s) := by
  unfold State.endIfDone
  with_reducible repeat' first
    | assumption | apply Bounded.ite_ | apply State.endAdvance_bounded

theorem execPrepared_bounded {src epoch s} (h2 : Bounded s) : BoundedRes (execPrepared src epoch s) := by
  unfold execPrepared
  with_reducible repeat' first
    | assumption | apply BoundedRes.ite_ | apply BoundedRes.mkNext | apply State.endIfDone_bounded
    | apply State.sendCommit_bounded | apply State.withDom_bounded | split

theorem execPrepareTimeout_bounded {s} (h0 : Bounded s) : BoundedRes (execPrepareTimeout s) := by
  unfold execPrepareTimeout
  with_reducible repeat' first
    | assumption | apply BoundedRes.ite_ | apply BoundedRes.mkNext | apply State.endIfDone_bounded
    | apply State.sendCommit_bounded | split

theorem execCommit_bounded {src epoch s} (h2 : Bounded s) : BoundedRes (execCommit src epoch s) := by
  unfold execCommit
  with_reducible repeat' first
    | assumption | (intro _; try beta_reduce) | apply BoundedRes.ite_ | apply BoundedRes.mkNext
    | exact BoundedRes.mkFault | apply Bounded.ite_ | apply State.commitNext_bounded
    | apply State.detach_bounded | apply State.domEnd_bounded | apply State.retryWaiting_bounded
    | apply State.sendMember_bounded | refine Bounded.ofSome ?_ (by assumption)
    | refine Bounded.ofSomeP ?_ (by assumption) | refine Bounded.ofPair ?_ (by assumption)
    | refine Bounded.ofPair2 ?_ (by assumption) | refine Bounded.ofPair3 ?_ (by assumption) | split

theorem execCommitRepeat_bounded {s} (h0 : Bounded s) : BoundedRes (execCommitRepeat s) := by
  unfold execCommitRepeat
  with_reducible repeat' first
    | assumption | (intro _; try beta_reduce) | apply BoundedRes.mkNext | apply State.sendMember_bounded
    | apply foldl_bounded | split

theorem execCommitted_bounded {src epoch s} (h2 : Bounded s) : BoundedRes (execCommitted src epoch s) := by
  unfold execCommitted
  with_reducible repeat' first
    | assumption | apply BoundedRes.ite_ | apply BoundedRes.mkNext | apply State.endAdvance_bounded
    | apply State.withDom_bounded | split

theorem execAbort_bounded {src epoch s} (h2 : Bounded s) : BoundedRes (execAbort src epoch s) := by
  unfold execAbort
  with_reducible repeat' first
    | assumption | apply BoundedRes.ite_ | apply BoundedRes.mkNext | apply State.withDom_bounded

theorem execEpochGraceEnd_bounded {s} (h0 : Bounded s) : BoundedRes (execEpochGraceEnd s) := by
  unfold execEpochGraceEnd
  with_reducible repeat' first
    | assumption | (intro _; try beta_reduce) | apply BoundedRes.ite_ | apply BoundedRes.mkNext
    | exact BoundedRes.mkFault | apply Bounded.ite_ | apply State.dropRx_bounded
    | apply State.moveTx_bounded | apply State.retryWaiting_bounded | apply State.setTx_bounded
    | apply State.withDom_bounded | apply foldl_bounded | simp -zeta only [↓Bounded.mk_iff]
    | refine Bounded.ofSome ?_ (by assumption) | refine Bounded.ofSomeP ?_ (by assumption)
    | refine Bounded.ofPair ?_ (by assumption) | refine Bounded.ofPair2 ?_ (by assumption)
    | refine Bounded.ofPair3 ?_ (by assumption) | apply Bounded.getD_ | split
    | (extract_lets +onlyGivenNames s_; refine (fun (_ : Bounded s_) => ?_) ?_; swap; subst s_)
    | (extract_lets +onlyGivenNames s_; clear_value s_) | extract_lets +onlyGivenNames s_

theorem execHeartbeatSend_bounded {s} (h0 : Bounded s) : BoundedRes (execHeartbeatSend s) := by
  unfold execHeartbeatSend
  with_reducible repeat' first
    | assumption | apply BoundedRes.ite_ | apply BoundedRes.mkNext | apply State.sendMember_bounded | split

theorem execHeartbeat_bounded {src time s} (h2 : Bounded s) : BoundedRes (execHeartbeat src time s) := by
  unfold execHeartbeat
  with_reducible repeat' first
    | assumption | (intro _; try beta_reduce) | apply BoundedRes.ite_ | apply BoundedRes.mkNext
    | exact BoundedRes.mkFault | apply Bounded.ite_ | apply State.proposeWaiting_bounded
    | apply State.sendMember_bounded | apply State.withDom_bounded | simp -zeta only [↓Bounded.mk_iff]
    | refine Bounded.ofSome ?_ (by assumption) | refine Bounded.ofSomeP ?_ (by assumption)
    | refine Bounded.ofPair ?_ (by assumption) | refine Bounded.ofPair2 ?_ (by assumption)
    | refine Bounded.ofPair3 ?_ (by assumption) | split
    | (extract_lets +onlyGivenNames s_; refine (fun (_ : Bounded s_) => ?_) ?_; swap; subst s_)
    | (extract_lets +onlyGivenNames s_; clear_value s_) | extract_lets +onlyGivenNames s_

theorem execLease_bounded {src echoed seatTime leaseEnd _seatEpoch _ballotHash s} (h6 : Bounded s) : BoundedRes (execLease src echoed seatTime leaseEnd _seatEpoch _ballotHash s) := by
  unfold execLease
  with_reducible repeat' first
    | assumption | (intro _; try beta_reduce) | apply BoundedRes.ite_ | apply BoundedRes.mkNext
    | exact BoundedRes.mkFault | apply Bounded.ite_ | apply State.enterFallow_bounded
    | apply State.withDom_bounded | simp -zeta only [↓Bounded.mk_iff]
    | refine Bounded.ofSome ?_ (by assumption) | refine Bounded.ofSomeP ?_ (by assumption)
    | refine Bounded.ofPair ?_ (by assumption) | refine Bounded.ofPair2 ?_ (by assumption)
    | refine Bounded.ofPair3 ?_ (by assumption) | split
    | (extract_lets +onlyGivenNames s_; refine (fun (_ : Bounded s_) => ?_) ?_; swap; subst s_)
    | (extract_lets +onlyGivenNames s_; clear_value s_) | extract_lets +onlyGivenNames s_

theorem execMemberSilent_bounded {u s} (h1 : Bounded s) : BoundedRes (execMemberSilent u s) := by
  unfold execMemberSilent
  with_reducible repeat' first
    | assumption | (intro _; try beta_reduce) | apply BoundedRes.ite_ | apply BoundedRes.mkNext
    | exact BoundedRes.mkFault | apply Bounded.ite_ | apply State.wantEpoch_bounded
    | apply State.withDom_bounded | simp -zeta only [↓Bounded.mk_iff] | split
    | (extract_lets +onlyGivenNames s_; refine (fun (_ : Bounded s_) => ?_) ?_; swap; subst s_)
    | (extract_lets +onlyGivenNames s_; clear_value s_) | extract_lets +onlyGivenNames s_

theorem execLeaseExpiry_bounded {s} (h0 : Bounded s) : BoundedRes (execLeaseExpiry s) := by
  unfold execLeaseExpiry
  with_reducible repeat' first
    | assumption | apply BoundedRes.ite_ | apply BoundedRes.mkNext | apply State.enterFallow_bounded

theorem execBallotLapse_bounded {s} (h0 : Bounded s) : BoundedRes (execBallotLapse s) := by
  unfold execBallotLapse
  with_reducible repeat' first
    | assumption | apply BoundedRes.ite_ | apply BoundedRes.mkNext | apply State.abortAdvance_bounded
    | apply State.enterFallow_bounded | split

theorem execFallowRetry_bounded {s} (h0 : Bounded s) : BoundedRes (execFallowRetry s) := by
  unfold execFallowRetry
  with_reducible repeat' first
    | assumption | apply BoundedRes.ite_ | apply BoundedRes.mkNext | apply State.sendHello_bounded
    | apply State.withDom_bounded

theorem execLeaveTimeout_bounded {s} (h0 : Bounded s) : BoundedRes (execLeaveTimeout s) := by
  unfold execLeaveTimeout
  with_reducible repeat' first
    | assumption | apply Bounded.ite_ | apply BoundedRes.ite_ | apply BoundedRes.mkNext | apply State.detach_bounded
    | apply State.domEnd_bounded

theorem execBallot_bounded {a0 rec s} (h2 : Bounded s) : BoundedRes (execBallot a0 rec s) := by
  unfold execBallot
  with_reducible repeat' first
    | assumption | apply BoundedRes.mkNext | apply State.takeBallot_bounded2

theorem execDown_bounded {src _gen s} (h2 : Bounded s) : BoundedRes (execDown src _gen s) := by
  unfold execDown
  with_reducible repeat' first
    | assumption | (intro _; try beta_reduce) | apply BoundedRes.ite_ | apply BoundedRes.mkNext
    | exact BoundedRes.mkFault | apply Bounded.ite_ | apply State.losePartner_bounded
    | apply State.unitDown_bounded | split
    | (extract_lets +onlyGivenNames s_; refine (fun (_ : Bounded s_) => ?_) ?_; swap; subst s_)
    | (extract_lets +onlyGivenNames s_; clear_value s_) | extract_lets +onlyGivenNames s_

theorem execRecords_bounded {src recs s} (h2 : Bounded s) : BoundedRes (execRecords src recs s) := by
  unfold execRecords
  with_reducible repeat' first
    | assumption | (intro _; try beta_reduce) | apply BoundedRes.ite_ | apply BoundedRes.mkNext
    | apply State.withDom_bounded | apply foldl_bounded

theorem execLeave_bounded {src s} (h1 : Bounded s) : BoundedRes (execLeave src s) := by
  unfold execLeave
  with_reducible repeat' first
    | assumption | apply BoundedRes.ite_ | apply BoundedRes.mkNext | apply State.wantEpoch_bounded
    | apply State.withDom_bounded

theorem execFlowRekey_bounded {flow dest s} (h2 : Bounded s) : BoundedRes (execFlowRekey flow dest s) := by
  unfold execFlowRekey
  with_reducible repeat' first
    | assumption | (intro _; try beta_reduce) | apply BoundedRes.ite_ | apply BoundedRes.mkNext
    | exact BoundedRes.mkFault | apply Bounded.ite_ | apply State.moveTx_bounded
    | apply State.wantEpoch_bounded | apply State.withDom_bounded | simp -zeta only [↓Bounded.mk_iff]
    | refine Bounded.ofSome ?_ (by assumption) | refine Bounded.ofSomeP ?_ (by assumption)
    | refine Bounded.ofPair ?_ (by assumption) | refine Bounded.ofPair2 ?_ (by assumption)
    | refine Bounded.ofPair3 ?_ (by assumption) | apply Bounded.getD_ | split
    | (extract_lets +onlyGivenNames s_; refine (fun (_ : Bounded s_) => ?_) ?_; swap; subst s_)
    | (extract_lets +onlyGivenNames s_; clear_value s_) | extract_lets +onlyGivenNames s_

end Sys2Proof.Machine
end

