-- ==== Sys2Proof/Laws/BoundedSeal.lean ====
section
/-! SUPPORT. Every operation of Machine/Seal.lean keeps the bounds. -/

namespace Sys2Proof.Machine

theorem State.sealEnd_bounded {s row run digest code} (h0 : Bounded s) : Bounded (State.sealEnd s row run digest code) := by
  unfold State.sealEnd
  with_reducible repeat' first
    | assumption | apply State.rgnEnd_bounded | apply State.setRow_bounded

theorem State.sealTake_bounded {s row run} (h0 : Bounded s) : Bounded (State.sealTake s row run) := by
  unfold State.sealTake
  with_reducible repeat' first
    | assumption | (intro _; try beta_reduce) | apply State.freeCtx_bounded | apply State.sealEnd_bounded
    | apply foldl_bounded

theorem State.fold__bounded {s row} (h0 : Bounded s) : Bounded (State.fold_ s row) := by
  unfold State.fold_
  with_reducible repeat' first
    | assumption | apply Bounded.ite_ | apply State.setRow_bounded | apply State.zeroLines_bounded

theorem State.sealChunk_bounded {s i d r} (h0 : Bounded s) : Bounded (State.sealChunk s i d r) := by
  unfold State.sealChunk
  with_reducible repeat' first
    | assumption | apply State.armSeg_bounded | apply State.hashAsm_bounded | apply State.setSeg_bounded
    | apply State.withhold__bounded | split
    | (extract_lets +onlyGivenNames s_; refine (fun (_ : Bounded s_) => ?_) ?_; swap; subst s_)
    | (extract_lets +onlyGivenNames s_; clear_value s_)

theorem State.sealClose_bounded {s i} (h0 : Bounded s) : Bounded (State.sealClose s i) := by
  unfold State.sealClose
  with_reducible repeat' first
    | assumption | (intro _; try beta_reduce) | apply State.finishCtx_bounded | apply State.setCtx_bounded
    | apply State.withStv_bounded | apply State.withhold__bounded | apply foldl_bounded

-- REC

theorem sealGo_bounded {run chunks l k s} (h4 : Bounded s) : BoundedTriple (sealGo run chunks l k s) := by
  induction l generalizing k s with
  | nil => exact BoundedTriple.mk_ h4
  | cons w t ih =>
  unfold sealGo
  with_reducible repeat' first
    | assumption | apply BoundedTriple.of_snd (ih ?_) | apply BoundedTriple.mk_ | apply State.sealChunk_bounded
    | apply State.withhold__bounded | split | extract_lets +onlyGivenNames s_
theorem sealGo_bounded2 {run chunks l k s} (h4 : Bounded s) : Bounded (sealGo run chunks l k s).2.2 := BoundedTriple.of_snd (sealGo_bounded h4)

theorem State.sealOn_bounded {s row run chunks} (h0 : Bounded s) : Bounded (State.sealOn s row run chunks) := by
  unfold State.sealOn
  with_reducible repeat' first
    | assumption | (intro _; try beta_reduce) | apply Bounded.ite_ | apply State.sealClose_bounded
    | apply State.sealTake_bounded | apply State.setCtx_bounded | apply State.setRow_bounded
    | apply sealGo_bounded | apply sealGo_bounded2 | apply foldl_bounded | simp -zeta only [↓Bounded.mk_iff]
    | refine Bounded.ofSome ?_ (by assumption) | refine Bounded.ofSomeP ?_ (by assumption)
    | refine Bounded.ofPair ?_ (by assumption) | refine Bounded.ofPair2 ?_ (by assumption)
    | refine Bounded.ofPair3 ?_ (by assumption) | split
    | (extract_lets +onlyGivenNames s_; refine (fun (_ : Bounded s_) => ?_) ?_; swap; subst s_)
    | (extract_lets +onlyGivenNames s_; clear_value s_) | extract_lets +onlyGivenNames s_

theorem execSealComplete_bounded {row manifest chunks s} (h3 : Bounded s) : BoundedRes (execSealComplete row manifest chunks s) := by
  unfold execSealComplete
  with_reducible repeat' first
    | assumption | (intro _; try beta_reduce) | apply BoundedRes.ite_ | apply BoundedRes.mkNext
    | exact BoundedRes.mkFault | apply Bounded.ite_ | apply State.fold__bounded
    | apply State.sealEnd_bounded | apply State.sealOn_bounded | apply State.sealTake_bounded
    | simp -zeta only [↓Bounded.mk_iff] | refine Bounded.ofSome ?_ (by assumption)
    | refine Bounded.ofSomeP ?_ (by assumption) | refine Bounded.ofPair ?_ (by assumption)
    | refine Bounded.ofPair2 ?_ (by assumption) | refine Bounded.ofPair3 ?_ (by assumption) | split
    | (extract_lets +onlyGivenNames s_; refine (fun (_ : Bounded s_) => ?_) ?_; swap; subst s_)
    | (extract_lets +onlyGivenNames s_; clear_value s_) | extract_lets +onlyGivenNames s_

theorem execSealGatherTimeout_bounded {row s} (h1 : Bounded s) : BoundedRes (execSealGatherTimeout row s) := by
  unfold execSealGatherTimeout
  with_reducible repeat' first
    | assumption | apply BoundedRes.ite_ | apply BoundedRes.mkNext | apply State.sealTake_bounded | split

end Sys2Proof.Machine
end

