-- ==== Sys2Proof/Laws/BoundedInstance.lean ====
section
/-! SUPPORT. Every operation of Machine/Instance.lean keeps the bounds. -/

namespace Sys2Proof.Machine

theorem execFlip_bounded {port p s} (h2 : Bounded s) : BoundedRes (execFlip port p s) := by
  unfold execFlip
  with_reducible repeat' first
    | assumption | (intro _; try beta_reduce) | apply Bounded.ite_ | apply BoundedRes.mkNext
    | apply State.ownerCmd_bounded | apply State.setPart_bounded

theorem State.instStart_bounded {s port p squash} (h0 : Bounded s) : Bounded (State.instStart s port p squash) := by
  unfold State.instStart
  with_reducible repeat' first
    | assumption | (intro _; try beta_reduce) | apply Bounded.ite_ | apply State.addCause_bounded
    | apply State.ownerCmd_bounded | apply State.partTrace_bounded | apply State.setFld_bounded
    | apply State.setPart_bounded

theorem execResetDrain_bounded {port p s} (h2 : Bounded s) : BoundedRes (execResetDrain port p s) := by
  unfold execResetDrain
  with_reducible repeat' first
    | assumption | apply BoundedRes.mkNext | apply State.instStart_bounded

theorem execResetSquash_bounded {port p s} (h2 : Bounded s) : BoundedRes (execResetSquash port p s) := by
  unfold execResetSquash
  with_reducible repeat' first
    | assumption | apply BoundedRes.mkNext | apply State.instStart_bounded

theorem State.hedgeCmd_bounded {s port p f} (h0 : Bounded s) (h3 : ∀ x0, Bounded x0 → Bounded (f x0)) : Bounded (State.hedgeCmd s port p f) := by
  unfold State.hedgeCmd
  with_reducible repeat' first
    | assumption | (intro _; try beta_reduce) | apply State.ownerCmd_bounded | apply State.setFld_bounded | apply h3

theorem execHedge_bounded {port p s} (h2 : Bounded s) : BoundedRes (execHedge port p s) := by
  unfold execHedge
  with_reducible repeat' first
    | assumption | (intro _; try beta_reduce) | apply Bounded.ite_ | apply BoundedRes.mkNext
    | apply State.addCause_bounded | apply State.hedgeCmd_bounded | apply State.hedgeEnd_bounded
    | apply State.setFld_bounded | apply State.setPart_bounded

theorem execUnhedge_bounded {port p s} (h2 : Bounded s) : BoundedRes (execUnhedge port p s) := by
  unfold execUnhedge
  with_reducible repeat' first
    | assumption | (intro _; try beta_reduce) | apply BoundedRes.mkNext | apply State.hedgeCmd_bounded
    | apply State.hedgeEnd_bounded | apply State.removeCause_bounded

theorem State.winnowStep_bounded {s p n} (h0 : Bounded s) : Bounded (State.winnowStep s p n) := by
  unfold State.winnowStep
  with_reducible repeat' first
    | assumption | apply State.setPart_bounded

theorem State.quench_bounded {s p} (h0 : Bounded s) : Bounded (State.quench s p) := by
  unfold State.quench
  with_reducible repeat' first
    | assumption | apply State.abortPart_bounded | apply State.flushPart_bounded | apply State.poisonPart_bounded
    | apply State.winnowGo_bounded | apply State.winnowStep_bounded

theorem execWinnow_bounded {port p s} (h2 : Bounded s) : BoundedRes (execWinnow port p s) := by
  unfold execWinnow
  with_reducible repeat' first
    | assumption | (intro _; try beta_reduce) | apply Bounded.ite_ | apply BoundedRes.mkNext
    | apply State.addCause_bounded | apply State.hedgeCmd_bounded | apply State.hedgeEnd_bounded
    | apply State.quench_bounded | apply State.setFld_bounded | apply State.setPart_bounded

theorem State.ackTaken_bounded {s p} (h0 : Bounded s) : Bounded (State.ackTaken s p) := by
  unfold State.ackTaken
  with_reducible repeat' first
    | assumption | apply Bounded.ite_ | apply State.abortPart_bounded | apply State.hedgeEnd_bounded
    | apply State.instGo_bounded | apply State.quench_bounded | apply State.setPart_bounded | split
    | (extract_lets +onlyGivenNames s_; refine (fun (_ : Bounded s_) => ?_) ?_; swap; subst s_)
    | (extract_lets +onlyGivenNames s_; clear_value s_)

theorem execDrainAck_bounded {p s} (h1 : Bounded s) : BoundedRes (execDrainAck p s) := by
  unfold execDrainAck
  with_reducible repeat' first
    | assumption | apply Bounded.ite_ | apply BoundedRes.ite_ | apply BoundedRes.mkNext | apply State.ackTaken_bounded
    | apply State.record_bounded | apply State.setPart_bounded

theorem execDrainAckFall_bounded {p s} (h1 : Bounded s) : BoundedRes (execDrainAckFall p s) := by
  unfold execDrainAckFall
  with_reducible repeat' first
    | assumption | apply Bounded.ite_ | apply BoundedRes.ite_ | apply BoundedRes.mkNext | apply State.record_bounded
    | apply State.setPart_bounded

theorem execDrainOverrun_bounded {p s} (h1 : Bounded s) : BoundedRes (execDrainOverrun p s) := by
  unfold execDrainOverrun
  with_reducible repeat' first
    | assumption | apply Bounded.ite_ | apply BoundedRes.ite_ | apply BoundedRes.mkNext | apply State.hedgeEnd_bounded
    | apply State.instEnd_bounded | apply State.record_bounded | apply State.setPart_bounded | split

theorem State.dropRows_bounded {s slots} (h0 : Bounded s) : Bounded (State.dropRows s slots) := by
  unfold State.dropRows
  with_reducible repeat' first
    | assumption | (intro _; try beta_reduce) | apply Bounded.ite_ | simp -zeta only [↓Bounded.mk_iff]
    | split | (extract_lets +onlyGivenNames s_; refine (fun (_ : Bounded s_) => ?_) ?_; swap; subst s_)
    | (extract_lets +onlyGivenNames s_; clear_value s_) | extract_lets +onlyGivenNames s_

theorem State.dropTenantRefs_bounded {s p} (h0 : Bounded s) : Bounded (State.dropTenantRefs s p) := by
  unfold State.dropTenantRefs
  with_reducible repeat' first
    | assumption | (intro _; try beta_reduce) | apply State.putSlot_bounded | apply foldl_bounded
    | simp -zeta only [↓Bounded.mk_iff]

theorem State.flushCounters_bounded {s p level} (h0 : Bounded s) : Bounded (State.flushCounters s p level) := by
  unfold State.flushCounters
  with_reducible repeat' first
    | assumption | (intro _; try beta_reduce) | apply State.evict_bounded | apply foldl_bounded

theorem State.winnowRegion_bounded {s row} (h0 : Bounded s) : Bounded (State.winnowRegion s row) := by
  unfold State.winnowRegion
  with_reducible repeat' first
    | assumption | apply Bounded.ite_ | apply State.closeRegion_bounded | apply State.sealEnd_bounded
    | apply State.setRow_bounded | apply State.settleRegion_bounded | split

theorem State.rstReg_bounded {s i r} (h0 : Bounded s) : Bounded (State.rstReg s i r) := by
  unfold State.rstReg
  with_reducible repeat' first
    | assumption | apply State.wr_bounded

theorem State.clearQueues_bounded {s p} (h0 : Bounded s) : Bounded (State.clearQueues s p) := by
  unfold State.clearQueues
  with_reducible repeat' first
    | assumption | (intro _; try beta_reduce) | apply Bounded.ite_ | apply State.rstReg_bounded
    | apply State.setChan_bounded | apply State.setQueue_bounded | apply State.unbind_bounded | apply foldl_bounded

theorem State.clearPart_bounded {s p} (h0 : Bounded s) : Bounded (State.clearPart s p) := by
  unfold State.clearPart
  with_reducible repeat' first
    | assumption | (intro _; try beta_reduce) | apply Bounded.ite_ | apply State.clearQueues_bounded
    | apply State.dropRows_bounded | apply State.dropTenantRefs_bounded | apply State.endSession_bounded
    | apply State.flushCounters_bounded | apply State.freePart_bounded | apply State.setDrill_bounded
    | apply State.setFld_bounded | apply State.setPart_bounded | apply State.winnowRegion_bounded
    | apply foldl_bounded | simp -zeta only [↓Bounded.mk_iff] | refine Bounded.ofSome ?_ (by assumption)
    | refine Bounded.ofSomeP ?_ (by assumption) | refine Bounded.ofPair ?_ (by assumption)
    | refine Bounded.ofPair2 ?_ (by assumption) | refine Bounded.ofPair3 ?_ (by assumption) | split
    | (extract_lets +onlyGivenNames s_; refine (fun (_ : Bounded s_) => ?_) ?_; swap; subst s_)
    | (extract_lets +onlyGivenNames s_; clear_value s_) | extract_lets +onlyGivenNames s_

theorem execScrubRequest_bounded {p s} (h1 : Bounded s) : BoundedRes (execScrubRequest p s) := by
  unfold execScrubRequest
  with_reducible repeat' first
    | assumption | apply BoundedRes.ite_ | apply BoundedRes.mkNext | apply State.clearPart_bounded
    | apply State.emit_bounded | apply State.setPart_bounded | apply State.winnowGo_bounded
    | apply State.winnowStep_bounded | split | (extract_lets +onlyGivenNames s_; clear_value s_)

theorem State.winnowFail_bounded {s p cause} (h0 : Bounded s) : Bounded (State.winnowFail s p cause) := by
  unfold State.winnowFail
  with_reducible repeat' first
    | assumption | apply State.hedgeEnd_bounded | apply State.record_bounded | apply State.setPart_bounded

theorem execScrubDone_bounded {p status s} (h2 : Bounded s) : BoundedRes (execScrubDone p status s) := by
  unfold execScrubDone
  with_reducible repeat' first
    | assumption | apply BoundedRes.ite_ | apply BoundedRes.mkNext | apply State.incFld_bounded
    | apply State.record_bounded | apply State.setPart_bounded | apply State.winnowFail_bounded
    | apply State.winnowGo_bounded

theorem execScrubOverrun_bounded {p s} (h1 : Bounded s) : BoundedRes (execScrubOverrun p s) := by
  unfold execScrubOverrun
  with_reducible repeat' first
    | assumption | apply BoundedRes.ite_ | apply BoundedRes.mkNext | apply State.record_bounded
    | apply State.winnowFail_bounded | split | (extract_lets +onlyGivenNames s_; clear_value s_)

theorem execRegionFree_bounded {row s} (h1 : Bounded s) : BoundedRes (execRegionFree row s) := by
  unfold execRegionFree
  with_reducible repeat' first
    | assumption | apply BoundedRes.mkNext | apply State.settleRegion_bounded | apply State.winnowGo_bounded

theorem execDirtyLogOr_bounded {p page old s} (h3 : Bounded s) : BoundedRes (execDirtyLogOr p page old s) := by
  unfold execDirtyLogOr
  with_reducible repeat' first
    | assumption | apply BoundedRes.ite_ | apply BoundedRes.mkNext | apply State.maintBytes_bounded2
    | apply State.setPart_bounded | simp -zeta only [↓Bounded.mk_iff]

end Sys2Proof.Machine
end

