-- ==== Sys2Proof/Laws/BoundedObserve.lean ====
section
/-! SUPPORT. Every operation of Machine/Observe.lean keeps the bounds. -/

namespace Sys2Proof.Machine

theorem State.obsEnd_bounded {s port code rsp} (h0 : Bounded s) : Bounded (State.obsEnd s port code rsp) := by
  unfold State.obsEnd
  with_reducible repeat' first
    | assumption | apply State.fillBox_bounded | apply State.regRsp_bounded | apply State.setFld_bounded

theorem execTraceRead_bounded {port first count s} (h3 : Bounded s) : BoundedRes (execTraceRead port first count s) := by
  unfold execTraceRead
  with_reducible repeat' first
    | assumption | apply BoundedRes.ite_ | apply BoundedRes.mkNext | apply State.obsEnd_bounded

theorem execObsChallenge_bounded {port classes s} (h2 : Bounded s) : BoundedRes (execObsChallenge port classes s) := by
  unfold execObsChallenge
  with_reducible repeat' first
    | assumption | apply BoundedRes.ite_ | apply BoundedRes.mkNext | apply State.drew_bounded
    | apply State.obsEnd_bounded | apply State.signBoth_bounded2
    | simp -zeta only [↓Bounded.mk_iffO, ↓Bounded.mk_iffF]
    | (extract_lets +onlyGivenNames s_; have _x : Obs := s_; clear _x; subst s_)

theorem execObsResponse_bounded {port rec s} (h2 : Bounded s) : BoundedRes (execObsResponse port rec s) := by
  unfold execObsResponse
  with_reducible repeat' first
    | assumption | refine Bounded.mk_twoO (by assumption) h2 | apply Bounded.ite_ | apply BoundedRes.ite_
    | apply BoundedRes.mkNext | apply State.incFld_bounded | apply State.obsEnd_bounded | apply State.pkuOwn_bounded
    | simp -zeta only [↓Bounded.mk_iff] | split
    | (extract_lets +onlyGivenNames s_; refine (fun (_ : Bounded s_) => ?_) ?_; swap; subst s_)
    | (extract_lets +onlyGivenNames s_; have _x : Obs := s_; clear _x; subst s_)
    | (extract_lets +onlyGivenNames s_; clear_value s_)

theorem execCounterHalfRead_bounded {port n hi s} (h3 : Bounded s) : BoundedRes (execCounterHalfRead port n hi s) := by
  unfold execCounterHalfRead
  with_reducible repeat' first
    | assumption | apply BoundedRes.ite_ | apply BoundedRes.mkNext | apply State.regBad_bounded
    | apply State.regRsp_bounded | simp -zeta only [↓Bounded.mk_iff]
    | simp -zeta only [↓Bounded.mk_iffO, ↓Bounded.mk_iffF] | split
    | (extract_lets +onlyGivenNames s_; have _x : Obs := s_; clear _x; subst s_)

theorem execTraceRecord_bounded {s} (h0 : Bounded s) : BoundedRes (execTraceRecord s) := by
  unfold execTraceRecord
  extract_lets q
  subst q
  split
  · exact BoundedRes.mkNext h0
  · next r rest e =>
    apply BoundedRes.mkNext
    unfold Bounded at *
    obtain ⟨g, a, b, c, d, _⟩ := h0
    rw [e] at d
    exact ⟨g, a, b, c, by simp only [List.length_cons] at d; dsimp only; omega, Nat.mod_lt _ (by decide), Nat.min_le_right _ _⟩

end Sys2Proof.Machine
end

