-- ==== Sys2Proof/Laws/BoundedPairCmds.lean ====
section
/-! SUPPORT. Every operation of Machine/PairCmds.lean keeps the bounds. -/

namespace Sys2Proof.Machine

theorem execCellRead_bounded {port i s} (h2 : Bounded s) : BoundedRes (execCellRead port i s) := by
  unfold execCellRead
  with_reducible repeat' first
    | assumption | (intro _; try beta_reduce) | apply BoundedRes.mkNext | apply State.ownerCmd_bounded
    | apply State.setFld_bounded | apply State.wr_bounded | split
    | (extract_lets +onlyGivenNames s_; refine (fun (_ : Bounded s_) => ?_) ?_; swap; subst s_)

theorem execCellHandover_bounded {port i s} (h2 : Bounded s) : BoundedRes (execCellHandover port i s) := by
  unfold execCellHandover
  with_reducible repeat' first
    | assumption | (intro _; try beta_reduce) | apply Bounded.ite_ | apply BoundedRes.mkNext
    | apply State.ownerCmd_bounded | apply State.sendPair_bounded | apply State.setCell_bounded
    | apply State.setFld_bounded | split
    | (extract_lets +onlyGivenNames s_; refine (fun (_ : Bounded s_) => ?_) ?_; swap; subst s_)

theorem State.takeClaim_bounded {s b} (h0 : Bounded s) : Bounded (State.takeClaim s b) := by
  unfold State.takeClaim
  with_reducible repeat' first
    | assumption | apply Bounded.ite_ | apply State.incFld_bounded | apply State.resolveCells_bounded
    | apply State.withPair_bounded | split

theorem execDomainTick_bounded {mw s} (h1 : Bounded s) : BoundedRes (execDomainTick mw s) := by
  unfold execDomainTick
  with_reducible repeat' first
    | assumption | (intro _; try beta_reduce) | apply BoundedRes.ite_ | apply BoundedRes.mkNext
    | exact BoundedRes.mkFault | apply Bounded.ite_ | simp -zeta only [↓Bounded.mk_iff] | split
    | (extract_lets +onlyGivenNames s_; refine (fun (_ : Bounded s_) => ?_) ?_; swap; subst s_)
    | (extract_lets +onlyGivenNames s_; clear_value s_) | extract_lets +onlyGivenNames s_

theorem execPairBootstrap_bounded {th peerId sigs meas peerKey peerEpoch peerPrimary s} (h7 : Bounded s) : BoundedRes (execPairBootstrap th peerId sigs meas peerKey peerEpoch peerPrimary s) := by
  unfold execPairBootstrap
  with_reducible repeat' first
    | assumption | (intro _; try beta_reduce) | apply BoundedRes.ite_ | apply BoundedRes.mkNext
    | exact BoundedRes.mkFault | apply Bounded.ite_ | apply State.freed_bounded
    | apply State.resolveCells_bounded | apply State.sendMirror_bounded | apply State.sendPair_bounded
    | apply State.setFld_bounded | apply State.withPair_bounded | simp -zeta only [↓Bounded.mk_iff]
    | refine Bounded.ofSome ?_ (by assumption) | refine Bounded.ofSomeP ?_ (by assumption)
    | refine Bounded.ofPair ?_ (by assumption) | refine Bounded.ofPair2 ?_ (by assumption)
    | refine Bounded.ofPair3 ?_ (by assumption) | split
    | (extract_lets +onlyGivenNames s_; refine (fun (_ : Bounded s_) => ?_) ?_; swap; subst s_)
    | (extract_lets +onlyGivenNames s_; clear_value s_) | extract_lets +onlyGivenNames s_

theorem execPairHeartbeat_bounded {s} (h0 : Bounded s) : BoundedRes (execPairHeartbeat s) := by
  unfold execPairHeartbeat
  with_reducible repeat' first
    | assumption | apply BoundedRes.ite_ | apply BoundedRes.mkNext | apply State.sendPair_bounded

theorem State.ackMirror_bounded {s seq stale} (h0 : Bounded s) : Bounded (State.ackMirror s seq stale) := by
  unfold State.ackMirror
  with_reducible repeat' first
    | assumption | apply State.sendPair_bounded

theorem execMirror_bounded {seq kind form items s} (h4 : Bounded s) : BoundedRes (execMirror seq kind form items s) := by
  unfold execMirror
  with_reducible repeat' first
    | assumption | (intro _; try beta_reduce) | apply BoundedRes.ite_ | apply BoundedRes.mkNext
    | exact BoundedRes.mkFault | apply Bounded.ite_ | apply State.ackMirror_bounded
    | apply State.drawEpoch_bounded | apply State.drawEpoch_bounded2 | apply State.emit_bounded
    | apply State.installCells_bounded | apply State.withPair_bounded | simp -zeta only [↓Bounded.mk_iff]
    | refine Bounded.ofSome ?_ (by assumption) | refine Bounded.ofSomeP ?_ (by assumption)
    | refine Bounded.ofPair ?_ (by assumption) | refine Bounded.ofPair2 ?_ (by assumption)
    | refine Bounded.ofPair3 ?_ (by assumption) | split
    | (extract_lets +onlyGivenNames s_; refine (fun (_ : Bounded s_) => ?_) ?_; swap; subst s_)
    | (extract_lets +onlyGivenNames s_; clear_value s_) | extract_lets +onlyGivenNames s_

theorem execMirrorAck_bounded {seq stale s} (h2 : Bounded s) : BoundedRes (execMirrorAck seq stale s) := by
  unfold execMirrorAck
  with_reducible repeat' first
    | assumption | (intro _; try beta_reduce) | apply BoundedRes.ite_ | apply BoundedRes.mkNext
    | exact BoundedRes.mkFault | apply Bounded.ite_ | apply State.advanceHead_bounded
    | apply State.mirrorWaiting_bounded | apply State.setFld_bounded | apply State.setJob_bounded
    | apply State.setStepEnt_bounded | apply State.withPair_bounded | apply foldl_bounded
    | simp -zeta only [↓Bounded.mk_iff] | simp -zeta only [↓Bounded.mk_iffO, ↓Bounded.mk_iffF]
    | refine Bounded.ofSome ?_ (by assumption) | refine Bounded.ofSomeP ?_ (by assumption)
    | refine Bounded.ofPair ?_ (by assumption) | refine Bounded.ofPair2 ?_ (by assumption)
    | refine Bounded.ofPair3 ?_ (by assumption) | split
    | (extract_lets +onlyGivenNames s_; refine (fun (_ : Bounded s_) => ?_) ?_; swap; subst s_)
    | (extract_lets +onlyGivenNames s_; clear_value s_) | extract_lets +onlyGivenNames s_

theorem execRestoreReq_bounded {imageOk unit s} (h2 : Bounded s) : BoundedRes (execRestoreReq imageOk unit s) := by
  unfold execRestoreReq
  with_reducible repeat' first
    | assumption | (intro _; try beta_reduce) | apply BoundedRes.ite_ | apply BoundedRes.mkNext
    | exact BoundedRes.mkFault | apply Bounded.ite_ | apply State.answerRestore_bounded
    | apply State.withPair_bounded | simp -zeta only [↓Bounded.mk_iff]
    | refine Bounded.ofSome ?_ (by assumption) | refine Bounded.ofSomeP ?_ (by assumption)
    | refine Bounded.ofPair ?_ (by assumption) | refine Bounded.ofPair2 ?_ (by assumption)
    | refine Bounded.ofPair3 ?_ (by assumption) | split
    | (extract_lets +onlyGivenNames s_; refine (fun (_ : Bounded s_) => ?_) ?_; swap; subst s_)
    | (extract_lets +onlyGivenNames s_; clear_value s_) | extract_lets +onlyGivenNames s_

theorem execPartnerLost_bounded {byDown s} (h1 : Bounded s) : BoundedRes (execPartnerLost byDown s) := by
  unfold execPartnerLost
  with_reducible repeat' first
    | assumption | (intro _; try beta_reduce) | apply BoundedRes.ite_ | apply BoundedRes.mkNext
    | exact BoundedRes.mkFault | apply Bounded.ite_ | apply State.losePartner_bounded | split

theorem execClaimSend_bounded {s} (h0 : Bounded s) : BoundedRes (execClaimSend s) := by
  unfold execClaimSend
  with_reducible repeat' first
    | assumption | (intro _; try beta_reduce) | apply BoundedRes.ite_ | apply BoundedRes.mkNext
    | exact BoundedRes.mkFault | apply Bounded.ite_ | apply State.claimRecord_bounded
    | apply State.claimRecord_bounded2 | apply State.emit_bounded | refine Bounded.ofSome ?_ (by assumption)
    | refine Bounded.ofSomeP ?_ (by assumption) | refine Bounded.ofPair ?_ (by assumption)
    | refine Bounded.ofPair2 ?_ (by assumption) | refine Bounded.ofPair3 ?_ (by assumption) | split
    | (extract_lets +onlyGivenNames s_; refine (fun (_ : Bounded s_) => ?_) ?_; swap; subst s_)
    | (extract_lets +onlyGivenNames s_; clear_value s_) | extract_lets +onlyGivenNames s_

theorem execClaimReceive_bounded {rec s} (h1 : Bounded s) : BoundedRes (execClaimReceive rec s) := by
  unfold execClaimReceive
  with_reducible repeat' first
    | assumption | apply BoundedRes.mkNext | apply State.takeClaim_bounded

theorem execHandoverReceive_bounded {cell s} (h1 : Bounded s) : BoundedRes (execHandoverReceive cell s) := by
  unfold execHandoverReceive
  with_reducible repeat' first
    | assumption | apply BoundedRes.ite_ | apply BoundedRes.mkNext | apply State.setCell_bounded

end Sys2Proof.Machine
end

