-- ==== Sys2Proof/Laws/BoundedSpdm.lean ====
section
/-! SUPPORT. Every operation of Machine/Spdm.lean keeps the bounds. -/

namespace Sys2Proof.Machine

theorem State.setSession_bounded {s m v2_} (h0 : Bounded s) : Bounded (State.setSession s m v2_) := by
  unfold State.setSession
  with_reducible repeat' first
    | assumption | simp -zeta only [↓Bounded.mk_iff]

theorem State.spdmReply_bounded {s m no req} (h0 : Bounded s) : BoundedPair (State.spdmReply s m no req) := by
  unfold State.spdmReply
  with_reducible repeat' first
    | assumption | (intro _; try beta_reduce) | apply BoundedPair.ite_ | apply BoundedPair.mk_
    | apply Bounded.ite_ | apply State.drew_bounded | apply State.reseed_bounded | split
    | (extract_lets +onlyGivenNames s_; refine (fun (_ : Bounded s_) => ?_) ?_; swap; subst s_)
    | (extract_lets +onlyGivenNames s_; clear_value s_) | extract_lets +onlyGivenNames s_
theorem State.spdmReply_bounded2 {s m no req} (h0 : Bounded s) : Bounded (State.spdmReply s m no req).2 := BoundedPair.of_snd (State.spdmReply_bounded h0)

theorem State.makeSlots_bounded {s no m i fuel} (h0 : Bounded s) : BoundedOptPair (State.makeSlots s no m i fuel) := by
  induction fuel generalizing s i with
  | zero => exact BoundedOptPair.mkSome h0
  | succ fuel ih =>
  unfold State.makeSlots
  with_reducible repeat' first
    | assumption | (intro _; try beta_reduce) | apply ih | apply BoundedPair.mk_ | exact BoundedOptPair.mkNone
    | apply State.count_bounded | apply State.putSlot_bounded | apply BoundedOptPair.mapP_
    | simp -zeta only [↓Bounded.mk_iff] | split

theorem State.establish_bounded {s m v2_} (h0 : Bounded s) : BoundedOpt (State.establish s m v2_) := by
  unfold State.establish
  with_reducible repeat' first
    | assumption | apply BoundedOpt.ite_ | apply BoundedOpt.mkSome | exact BoundedOpt.mkNone
    | apply State.makeSlots_bounded | apply State.setFld_bounded | apply State.setSession_bounded
    | apply State.wr_bounded | split | extract_lets +onlyGivenNames s_ | refine Bounded.ofSomeP ?_ (by assumption)

theorem State.spdmRequest_bounded {s m inside req} (h0 : Bounded s) : BoundedPair (State.spdmRequest s m inside req) := by
  unfold State.spdmRequest
  with_reducible repeat' first
    | assumption | (intro _; try beta_reduce) | apply BoundedPair.ite_ | apply BoundedPair.mk_
    | apply Bounded.ite_ | apply State.endSession_bounded | apply State.establish_bounded
    | apply State.setSession_bounded | apply State.spdmReply_bounded | apply State.spdmReply_bounded2
    | simp -zeta only [↓Bounded.mk_iff] | refine Bounded.ofSome ?_ (by assumption)
    | refine Bounded.ofSomeP ?_ (by assumption) | refine Bounded.ofPair ?_ (by assumption)
    | refine Bounded.ofPair2 ?_ (by assumption) | refine Bounded.ofPair3 ?_ (by assumption) | split
    | (extract_lets +onlyGivenNames s_; refine (fun (_ : Bounded s_) => ?_) ?_; swap; subst s_)
    | (extract_lets +onlyGivenNames s_; clear_value s_) | extract_lets +onlyGivenNames s_
theorem State.spdmRequest_bounded2 {s m inside req} (h0 : Bounded s) : Bounded (State.spdmRequest s m inside req).2 := BoundedPair.of_snd (State.spdmRequest_bounded h0)

theorem State.spdm_bounded {s m msg} (h0 : Bounded s) : BoundedPair (State.spdm s m msg) := by
  unfold State.spdm
  with_reducible repeat' first
    | assumption | apply BoundedPair.ite_ | apply BoundedPair.mk_ | apply State.endSession_bounded
    | apply State.spdmRequest_bounded2 | simp -zeta only [↓Bounded.mk_iff] | split
theorem State.spdm_bounded2 {s m msg} (h0 : Bounded s) : Bounded (State.spdm s m msg).2 := BoundedPair.of_snd (State.spdm_bounded h0)

theorem State.setMbox_bounded {s m b} (h0 : Bounded s) : Bounded (State.setMbox s m b) := by
  unfold State.setMbox
  with_reducible repeat' first
    | assumption | (intro _; try beta_reduce) | apply State.wr_bounded | apply foldl_bounded

theorem execHostMboxGo_bounded {port m len s} (h3 : Bounded s) : BoundedRes (execHostMboxGo port m len s) := by
  unfold execHostMboxGo
  with_reducible repeat' first
    | assumption | apply BoundedRes.ite_ | apply BoundedRes.mkNext | apply State.regBad_bounded
    | apply State.regRsp_bounded | apply State.setFld_bounded | apply State.setMbox_bounded
    | apply State.spdm_bounded2

end Sys2Proof.Machine
end

