-- ==== Sys2Proof/Laws/BoundedBus.lean ====
section
/-! SUPPORT. Every operation of Machine/Bus.lean keeps the bounds. -/

namespace Sys2Proof.Machine

theorem State.storeFlds_bounded {s port v2_ w} (h0 : Bounded s) : Bounded (State.storeFlds s port v2_ w) := by
  unfold State.storeFlds
  with_reducible repeat' first
    | assumption | apply State.wr_bounded

theorem State.writeQcfg_bounded {s port v2_ w} (h0 : Bounded s) : Bounded (State.writeQcfg s port v2_ w) := by
  unfold State.writeQcfg
  with_reducible repeat' first
    | assumption | apply Bounded.ite_ | apply State.incFld_bounded | apply State.regRsp_bounded
    | apply State.setFld_bounded | apply State.storeFlds_bounded | apply State.unbind_bounded
    | apply execQueueDisable_bounded | apply execQueueEnable_bounded | apply nextOf_bounded

theorem State.writeBcfg_bounded {s port v2_ w} (h0 : Bounded s) : Bounded (State.writeBcfg s port v2_ w) := by
  unfold State.writeBcfg
  with_reducible repeat' first
    | assumption | apply Bounded.ite_ | apply State.disableChan_bounded | apply State.enableChan_bounded
    | apply State.incFld_bounded | apply State.regRsp_bounded | apply State.setFld_bounded
    | apply State.storeFlds_bounded | apply State.unbind_bounded

theorem State.readFree_bounded {s} (h0 : Bounded s) : BoundedPair (State.readFree s) := by
  unfold State.readFree
  with_reducible repeat' first
    | assumption | apply BoundedPair.mk_ | apply State.freed_bounded
theorem State.readFree_bounded2 {s} (h0 : Bounded s) : Bounded (State.readFree s).2 := BoundedPair.of_snd (State.readFree_bounded h0)

theorem State.natFree_bounded {s w} (h0 : Bounded s) : BoundedPair (State.natFree s w) := by
  unfold State.natFree
  with_reducible repeat' first
    | assumption | apply BoundedPair.mk_ | apply State.freed_bounded
theorem State.natFree_bounded2 {s w} (h0 : Bounded s) : Bounded (State.natFree s w).2 := BoundedPair.of_snd (State.natFree_bounded h0)

theorem State.memoryCommand_bounded {s port v2_ w} (h0 : Bounded s) : BoundedOpt (State.memoryCommand s port v2_ w) := by
  unfold State.memoryCommand
  with_reducible repeat' first
    | assumption | apply BoundedOpt.ite_ | apply BoundedOpt.mkSome | exact BoundedOpt.mkNone
    | apply State.natFree_bounded2 | apply State.readFree_bounded2 | apply execActrConfig_bounded
    | apply execActrRead_bounded | apply execActrRelease_bounded | apply execFabGrant_bounded
    | apply execFabRevoke_bounded | apply execHrwResume_bounded | apply execHrwRetire_bounded
    | apply execHrwStart_bounded | apply execHrwSuspend_bounded | apply execKeyAlloc_bounded
    | apply execKeyRead_bounded | apply execKeyRef_bounded | apply execKeySucc_bounded | apply execKeyUnref_bounded
    | apply execLaneBistStart_bounded | apply execLaneReturn_bounded | apply execLaneSwap_bounded
    | apply execPortBistStart_bounded | apply execPortReturn_bounded | apply execPortSwap_bounded
    | apply execRgnAdvance_bounded | apply execRgnCreate_bounded | apply execRgnDestroy_bounded
    | apply execRgnRead_bounded | apply execRgnReset_bounded | apply execRgnSeal_bounded | apply execSetLimit_bounded
    | apply nextOf_bounded | simp -zeta only [↓Bounded.mk_iff] | split

theorem State.digestCommand_bounded {s port v2_ w} (h0 : Bounded s) : BoundedOpt (State.digestCommand s port v2_ w) := by
  unfold State.digestCommand
  with_reducible repeat' first
    | assumption | apply BoundedOpt.ite_ | apply BoundedOpt.mkSome | exact BoundedOpt.mkNone
    | apply State.natFree_bounded2 | apply State.readFree_bounded2 | apply execBallotPost_bounded
    | apply execCellHandover_bounded | apply execCellRead_bounded | apply execDomAdvance_bounded
    | apply execDomJoin_bounded | apply execDomLeave_bounded | apply execFlush_bounded
    | apply execStvBistReturn_bounded | apply execStvBistStart_bounded | apply execStvBistSwap_bounded
    | apply execStvClose_bounded | apply execStvFree_bounded | apply execStvOpen_bounded | apply execStvRead_bounded
    | apply execTokClose_bounded | apply execTokFree_bounded | apply execTokOpen_bounded | apply execTokRead_bounded
    | apply execWatchArm_bounded | apply execWatchDisarm_bounded | apply execWatchRead_bounded | apply nextOf_bounded
    | simp -zeta only [↓Bounded.mk_iff] | split

theorem State.together_bounded {s port fs} (h0 : Bounded s) (h2 : BoundedList fs) : Bounded (State.together s port fs) := by
  unfold State.together
  dsimp only
  refine State.regRsp_bounded ?_
  have : ∀ (fs : List (State → Res)) (p : State × Bool), BoundedList fs → Bounded p.1 → Bounded (fs.foldl (fun (p : State × Bool) f =>
      let u := nextOf p.1 (f p.1)
      let new := u.out.take (u.out.length - p.1.out.length)
      ({ u with out := new.filter (fun o => !(match o with | .regRsp _ _ _ => true | _ => false)) ++ p.1.out }, p.2 || new.any (fun (o : Out) => match o with | .regRsp _ _ e => e | _ => false))) p).1 := by
    intro fs
    induction fs with
    | nil => intro p _ h; exact h
    | cons f fs ih =>
      intro p hl h
      refine ih _ (fun g hg => hl g (List.mem_cons_of_mem _ hg)) ?_
      have := nextOf_bounded h (hl f (List.mem_cons_self ..) p.1 h)
      exact Bounded.mk_iff.mpr this
  exact this fs (s, false) h2 h0

theorem State.hostCommand_bounded {s port v2_ w} (h0 : Bounded s) : BoundedOpt (State.hostCommand s port v2_ w) := by
  unfold State.hostCommand
  extract_lets +onlyGivenNames p
  split
  · exact BoundedOpt.mkSome (nextOf_bounded h0 (execSqDoorbell_bounded h0))
  · exact BoundedOpt.mkSome (nextOf_bounded h0 (execBounceDoorbell_bounded h0))
  · split
    · exact BoundedOpt.mkSome (nextOf_bounded h0 (execHostMboxGo_bounded h0))
    · exact BoundedOpt.mkNone
  · extract_lets +onlyGivenNames a b
    have hl : BoundedList (a ++ b) := by
      intro f hf s hs
      rcases List.mem_append.mp hf with hf | hf
      · simp only [a] at hf
        split at hf
        · simp only [List.mem_singleton] at hf; subst hf; exact execFlip_bounded hs
        · cases hf
      · simp only [b] at hf
        split at hf
        · simp only [List.mem_singleton] at hf; subst hf; exact execResetDrain_bounded hs
        · simp only [List.mem_singleton] at hf; subst hf; exact execResetSquash_bounded hs
        · cases hf
    split
    · exact BoundedOpt.mkNone
    · exact BoundedOpt.mkSome (State.together_bounded h0 hl)
  · exact BoundedOpt.mkNone

theorem State.boolFree_bounded {s} (h0 : Bounded s) : BoundedPair (State.boolFree s) := by
  unfold State.boolFree
  with_reducible repeat' first
    | assumption | apply BoundedPair.mk_ | apply State.freed_bounded
theorem State.boolFree_bounded2 {s} (h0 : Bounded s) : Bounded (State.boolFree s).2 := BoundedPair.of_snd (State.boolFree_bounded h0)

theorem State.ownCommand_bounded {s port v2_ w} (h0 : Bounded s) : BoundedOpt (State.ownCommand s port v2_ w) := by
  unfold State.ownCommand
  with_reducible repeat' first
    | assumption | apply BoundedOpt.ite_ | apply BoundedOpt.mkSome | exact BoundedOpt.mkNone
    | apply State.boolFree_bounded2 | apply State.readFree_bounded2 | apply execCert_bounded
    | apply execCfgDiscard_bounded | apply execCfgLoad_bounded | apply execCfgSwap_bounded
    | apply execFwuAbandon_bounded | apply execFwuCancel_bounded | apply execFwuStage_bounded
    | apply execFwuStart_bounded | apply execHandoverCancel_bounded | apply execHandoverGo_bounded
    | apply execLcPost_bounded | apply execOtpProgram_bounded | apply execOtpRead_bounded
    | apply execOwnClaimPost_bounded | apply nextOf_bounded | simp -zeta only [↓Bounded.mk_iff] | split

theorem State.obsRequest_bounded {s port op len} (h0 : Bounded s) : Bounded (State.obsRequest s port op len) := by
  unfold State.obsRequest
  with_reducible repeat' first
    | assumption | apply Bounded.ite_ | apply State.obsEnd_bounded | apply execObsChallenge_bounded
    | apply execObsResponse_bounded | apply execTraceRead_bounded | apply nextOf_bounded | split

theorem State.faultCommand_bounded {s port v2_ w} (h0 : Bounded s) : BoundedOpt (State.faultCommand s port v2_ w) := by
  unfold State.faultCommand
  extract_lets go
  have hgo : ∀ l : List (Bool × (State → Res)), BoundedList (l.map (·.2)) → BoundedOpt (go l) := by
    intro l hl
    simp only [go]
    split
    · exact BoundedOpt.mkNone
    · next fs e =>
      refine BoundedOpt.mkSome (State.together_bounded h0 fun f hf => hl f ?_)
      obtain ⟨x, hx, rfl⟩ := List.mem_map.mp hf
      exact List.mem_map.mpr ⟨x, (List.mem_filter.mp hx).1, rfl⟩
  clear_value go
  split
  · apply hgo
    simp only [List.map_cons, List.map_nil, BoundedList, List.mem_cons, List.not_mem_nil, or_false, forall_eq_or_imp, forall_eq]
    exact ⟨fun _ h => execWarmReq_bounded h, fun _ h => execPwrReq_bounded h, fun _ h => execPwrStop_bounded h⟩
  all_goals try (apply hgo; simp only [List.map_cons, List.map_nil, BoundedList, List.mem_cons, List.not_mem_nil, or_false, forall_eq_or_imp, forall_eq]; exact ⟨fun _ h => execFreeze_bounded h, fun _ h => execUnfreeze_bounded h, fun _ h => execPeerCopy_bounded h⟩)
  with_reducible repeat' first
    | assumption | apply BoundedOpt.ite_ | apply BoundedOpt.mkSome | exact BoundedOpt.mkNone
    | apply State.boolFree_bounded2 | apply State.natFree_bounded2 | apply State.obsRequest_bounded
    | apply execFltAbort_bounded | apply execFltReset_bounded | apply execHedge_bounded | apply execInject_bounded
    | apply execUnhedge_bounded | apply execUnitBistStart_bounded | apply execUnitReturn_bounded
    | apply execUnitSwap_bounded | apply execWinnow_bounded | apply nextOf_bounded | split

theorem State.commandOf_bounded {s port v2_ w} (h0 : Bounded s) : BoundedOpt (State.commandOf s port v2_ w) := by
  unfold State.commandOf
  with_reducible repeat' first
    | assumption | apply BoundedOpt.mkSome | apply State.digestCommand_bounded | apply State.faultCommand_bounded
    | apply State.hostCommand_bounded | apply State.memoryCommand_bounded | apply State.ownCommand_bounded | split
    | extract_lets +onlyGivenNames s_ | refine Bounded.ofSome ?_ (by assumption)

theorem State.storeWrite_bounded {s port v2_ w} (h0 : Bounded s) : Bounded (State.storeWrite s port v2_ w) := by
  unfold State.storeWrite
  with_reducible repeat' first
    | assumption | apply Bounded.ite_ | apply State.fullBuckets_bounded | apply State.setFld_bounded
    | apply State.setPart_bounded | apply State.storeFlds_bounded | split

theorem State.acceptWrite_bounded {s port v2_ w} (h0 : Bounded s) : Bounded (State.acceptWrite s port v2_ w) := by
  unfold State.acceptWrite
  with_reducible repeat' first
    | assumption | apply Bounded.ite_ | apply State.commandOf_bounded | apply State.regRsp_bounded
    | apply State.setFld_bounded | apply State.storeWrite_bounded | apply State.writeBcfg_bounded
    | apply State.writeQcfg_bounded | split
    | (extract_lets +onlyGivenNames s_; refine (fun (_ : Bounded s_) => ?_) ?_; swap; subst s_)
    | extract_lets +onlyGivenNames s_ | refine Bounded.ofSome ?_ (by assumption)

theorem State.winErr_bounded {s port v2_} (h0 : Bounded s) : Bounded (State.winErr s port v2_) := by
  unfold State.winErr
  with_reducible repeat' first
    | assumption | apply State.regBad_bounded

theorem State.writeReg_bounded {s port a} (h0 : Bounded s) : Bounded (State.writeReg s port a) := by
  unfold State.writeReg
  with_reducible repeat' first
    | assumption | (intro _; try beta_reduce) | apply Bounded.ite_ | apply State.acceptWrite_bounded
    | apply State.incFld_bounded | apply State.regRsp_bounded | apply State.winErr_bounded
    | refine Bounded.ofSome ?_ (by assumption) | refine Bounded.ofSomeP ?_ (by assumption)
    | refine Bounded.ofPair ?_ (by assumption) | refine Bounded.ofPair2 ?_ (by assumption)
    | refine Bounded.ofPair3 ?_ (by assumption) | split
    | (extract_lets +onlyGivenNames s_; refine (fun (_ : Bounded s_) => ?_) ?_; swap; subst s_)
    | (extract_lets +onlyGivenNames s_; clear_value s_) | extract_lets +onlyGivenNames s_

theorem State.clearRc_bounded {s v1_ a} (h0 : Bounded s) : Bounded (State.clearRc s v1_ a) := by
  unfold State.clearRc
  with_reducible repeat' first
    | assumption | (intro _; try beta_reduce) | apply Bounded.ite_ | apply State.setFld_bounded | apply foldl_bounded
    | simp -zeta only [↓Bounded.mk_iffO, ↓Bounded.mk_iffF]
    | (extract_lets +onlyGivenNames s_; refine (fun (_ : Bounded s_) => ?_) ?_; swap; subst s_)
    | (extract_lets +onlyGivenNames s_; have _x : Faults := s_; clear _x; subst s_)

theorem State.readReg_bounded {s port a} (h0 : Bounded s) : Bounded (State.readReg s port a) := by
  unfold State.readReg
  with_reducible repeat' first
    | assumption | apply Bounded.ite_ | apply State.clearRc_bounded | apply State.freed_bounded
    | apply State.incFld_bounded | apply State.regBad_bounded | apply State.regRsp_bounded
    | apply execCounterHalfRead_bounded | split | refine Bounded.ofNext ?_ (by assumption)

theorem State.access_bounded {s port a} (h0 : Bounded s) : Bounded (State.access s port a) := by
  unfold State.access
  with_reducible repeat' first
    | assumption | apply Bounded.ite_ | apply State.readReg_bounded | apply State.writeReg_bounded

theorem execHostRegisterAccess_bounded {att a s} (h2 : Bounded s) : BoundedRes (execHostRegisterAccess att a s) := by
  unfold execHostRegisterAccess
  with_reducible repeat' first
    | assumption | apply BoundedRes.ite_ | apply BoundedRes.mkNext | apply State.access_bounded

theorem execMctpMessage_bounded {m s} (h1 : Bounded s) : BoundedRes (execMctpMessage m s) := by
  unfold execMctpMessage
  with_reducible repeat' first
    | assumption | apply BoundedRes.ite_ | apply BoundedRes.mkNext | apply State.access_bounded
    | apply State.emit_bounded | apply State.spdm_bounded2 | apply State.takeClaim_bounded
    | simp -zeta only [↓Bounded.mk_iff] | split

theorem execPeerRegisterRequest_bounded {port src epoch0 a s} (h4 : Bounded s) : BoundedRes (execPeerRegisterRequest port src epoch0 a s) := by
  unfold execPeerRegisterRequest
  with_reducible repeat' first
    | assumption | apply BoundedRes.ite_ | apply BoundedRes.mkNext | apply State.access_bounded

theorem execRcRegisterRead_bounded {port a s} (h2 : Bounded s) : BoundedRes (execRcRegisterRead port a s) := by
  unfold execRcRegisterRead
  with_reducible repeat' first
    | assumption | apply BoundedRes.ite_ | apply BoundedRes.mkNext | apply State.readReg_bounded

theorem execRegisterWrite_bounded {port a s} (h2 : Bounded s) : BoundedRes (execRegisterWrite port a s) := by
  unfold execRegisterWrite
  with_reducible repeat' first
    | assumption | apply BoundedRes.ite_ | apply BoundedRes.mkNext | apply State.writeReg_bounded

end Sys2Proof.Machine
end

