-- ==== Sys2Proof/Laws/BoundedCommit.lean ====
section
/-! SUPPORT. Every operation of Machine/Commit.lean keeps the bounds. -/

namespace Sys2Proof.Machine

theorem State.setRdom_bounded {s d v2_} (h0 : Bounded s) : Bounded (State.setRdom s d v2_) := by
  unfold State.setRdom
  with_reducible repeat' first
    | assumption | simp -zeta only [↓Bounded.mk_iff]

theorem State.tellSheaves_bounded {s step status} (h0 : Bounded s) : Bounded (State.tellSheaves s step status) := by
  unfold State.tellSheaves
  with_reducible repeat' first
    | assumption | apply State.withShf_bounded

theorem execAccHalt_bounded {p s} (h1 : Bounded s) : BoundedRes (execAccHalt p s) := by
  unfold execAccHalt
  with_reducible repeat' first
    | assumption | apply BoundedRes.mkNext | apply State.setPart_bounded

theorem execAccResume_bounded {p s} (h1 : Bounded s) : BoundedRes (execAccResume p s) := by
  unfold execAccResume
  with_reducible repeat' first
    | assumption | apply BoundedRes.ite_ | apply BoundedRes.mkNext | apply State.cycles_bounded2
    | apply State.emit_bounded | apply State.setPart_bounded | apply State.trace_bounded

theorem execFenceOverrun_bounded {d s} (h1 : Bounded s) : BoundedRes (execFenceOverrun d s) := by
  unfold execFenceOverrun
  with_reducible repeat' first
    | assumption | apply BoundedRes.ite_ | apply BoundedRes.mkNext | apply State.record_bounded

theorem execHaltAck_bounded {p s} (h1 : Bounded s) : BoundedRes (execHaltAck p s) := by
  unfold execHaltAck
  with_reducible repeat' first
    | assumption | (intro _; try beta_reduce) | apply BoundedRes.ite_ | apply BoundedRes.mkNext
    | exact BoundedRes.mkFault | apply Bounded.ite_ | apply State.cycles_bounded
    | apply State.cycles_bounded2 | apply State.emit_bounded | apply State.setPart_bounded
    | apply State.trace_bounded | simp -zeta only [↓Bounded.mk_iff]
    | refine Bounded.ofSome ?_ (by assumption) | refine Bounded.ofSomeP ?_ (by assumption)
    | refine Bounded.ofPair ?_ (by assumption) | refine Bounded.ofPair2 ?_ (by assumption)
    | refine Bounded.ofPair3 ?_ (by assumption) | split
    | (extract_lets +onlyGivenNames s_; refine (fun (_ : Bounded s_) => ?_) ?_; swap; subst s_)
    | (extract_lets +onlyGivenNames s_; clear_value s_) | extract_lets +onlyGivenNames s_

theorem execMirrorTimeout_bounded {step s} (h1 : Bounded s) : BoundedRes (execMirrorTimeout step s) := by
  unfold execMirrorTimeout
  with_reducible repeat' first
    | assumption | (intro _; try beta_reduce) | apply BoundedRes.ite_ | apply BoundedRes.mkNext
    | exact BoundedRes.mkFault | apply Bounded.ite_ | apply State.mirrorWaiting_bounded
    | apply State.setStepEnt_bounded | apply State.withPair_bounded | simp -zeta only [↓Bounded.mk_iff]
    | refine Bounded.ofSome ?_ (by assumption) | refine Bounded.ofSomeP ?_ (by assumption)
    | refine Bounded.ofPair ?_ (by assumption) | refine Bounded.ofPair2 ?_ (by assumption)
    | refine Bounded.ofPair3 ?_ (by assumption) | split
    | (extract_lets +onlyGivenNames s_; refine (fun (_ : Bounded s_) => ?_) ?_; swap; subst s_)
    | (extract_lets +onlyGivenNames s_; clear_value s_) | extract_lets +onlyGivenNames s_

theorem execRdomFence_bounded {d s} (h1 : Bounded s) : BoundedRes (execRdomFence d s) := by
  unfold execRdomFence
  with_reducible repeat' first
    | assumption | apply BoundedRes.mkNext | apply State.setRdom_bounded

theorem execRdomFenced_bounded {d s} (h1 : Bounded s) : BoundedRes (execRdomFenced d s) := by
  unfold execRdomFenced
  with_reducible repeat' first
    | assumption | (intro _; try beta_reduce) | apply BoundedRes.ite_ | apply BoundedRes.mkNext
    | exact BoundedRes.mkFault | apply Bounded.ite_ | apply State.emit_bounded | apply State.setRdom_bounded
    | simp -zeta only [↓Bounded.mk_iff] | split
    | (extract_lets +onlyGivenNames s_; refine (fun (_ : Bounded s_) => ?_) ?_; swap; subst s_)
    | (extract_lets +onlyGivenNames s_; clear_value s_) | extract_lets +onlyGivenNames s_

theorem execRdomUnfence_bounded {d s} (h1 : Bounded s) : BoundedRes (execRdomUnfence d s) := by
  unfold execRdomUnfence
  with_reducible repeat' first
    | assumption | apply BoundedRes.ite_ | apply BoundedRes.mkNext | apply State.emit_bounded
    | apply State.setRdom_bounded

theorem execStepCommit_bounded {step s} (h1 : Bounded s) : BoundedRes (execStepCommit step s) := by
  unfold execStepCommit
  with_reducible repeat' first
    | assumption | apply BoundedRes.ite_ | apply BoundedRes.mkNext | apply State.commitSegs_bounded
    | apply State.setStepEnt_bounded | simp -zeta only [↓Bounded.mk_iff]

theorem execStepDone_bounded {step s} (h1 : Bounded s) : BoundedRes (execStepDone step s) := by
  unfold execStepDone
  with_reducible repeat' first
    | assumption | (intro _; try beta_reduce) | apply BoundedRes.ite_ | apply BoundedRes.mkNext
    | exact BoundedRes.mkFault | apply Bounded.ite_ | apply State.count_bounded | apply State.cycles_bounded
    | apply State.cycles_bounded2 | apply State.emit_bounded | apply State.incFld_bounded
    | apply State.tellSheaves_bounded | apply State.trace_bounded | simp -zeta only [↓Bounded.mk_iff]
    | refine Bounded.ofSome ?_ (by assumption) | refine Bounded.ofSomeP ?_ (by assumption)
    | refine Bounded.ofPair ?_ (by assumption) | refine Bounded.ofPair2 ?_ (by assumption)
    | refine Bounded.ofPair3 ?_ (by assumption) | split
    | (extract_lets +onlyGivenNames s_; refine (fun (_ : Bounded s_) => ?_) ?_; swap; subst s_)
    | (extract_lets +onlyGivenNames s_; clear_value s_) | extract_lets +onlyGivenNames s_

theorem execStileEvent_bounded {step s} (h1 : Bounded s) : BoundedRes (execStileEvent step s) := by
  unfold execStileEvent
  with_reducible repeat' first
    | assumption | apply Bounded.ite_ | apply BoundedRes.ite_ | apply BoundedRes.mkNext | apply State.cycles_bounded2
    | apply State.emit_bounded | apply State.mirrorCommit_bounded | apply State.setStepEnt_bounded
    | apply State.trace_bounded

end Sys2Proof.Machine
end

