-- ==== Sys2Proof/Laws/BoundedSwap.lean ====
section
/-! SUPPORT. Every operation of Machine/Swap.lean keeps the bounds. -/

namespace Sys2Proof.Machine

theorem State.takeWaiting_bounded1 {i f s} (e : waitingMeaning i = some f) (h : Bounded s) : BoundedRes (f s) := by
  unfold waitingMeaning at e
  split at e <;> first
    | (injection e with e; subst e
       with_reducible first
       | apply execRgnRead_bounded h | apply execRgnCreate_bounded h | apply execRgnDestroy_bounded h
       | apply execRgnSeal_bounded h | apply execRgnReset_bounded h | apply execRgnAdvance_bounded h
       | apply execRgnRef_bounded h | apply execRgnUnref_bounded h | apply execKeyAlloc_bounded h
       | apply execKeyRef_bounded h | apply execKeyUnref_bounded h | apply execKeyRead_bounded h
       | apply execKeySucc_bounded h | apply execSetLimit_bounded h | apply execHrwStart_bounded h
       | apply execHrwSuspend_bounded h | apply execHrwResume_bounded h | apply execHrwRetire_bounded h
       | apply execStvOpen_bounded h | apply execStvClose_bounded h | apply execStvRead_bounded h
       | apply execStvFree_bounded h | apply execActrRead_bounded h | apply execActrConfig_bounded h
       | apply execActrRelease_bounded h | apply execCfgDiscard_bounded h)
    | injection e

theorem State.takeWaiting_bounded {s} (h0 : Bounded s) : Bounded (State.takeWaiting s) := by
  unfold State.takeWaiting
  extract_lets is c u v
  have hu : Bounded u := Bounded.mk_iff.mpr h0
  have hv : Bounded v := by
    apply foldl_bounded _ hu
    intro t i ht
    beta_reduce
    split
    · exact nextOf_bounded ht (State.takeWaiting_bounded1 (by assumption) ht)
    · exact ht
  exact Bounded.mk_iff.mpr hv

theorem execSwapEffect_bounded {s} (h0 : Bounded s) : BoundedRes (execSwapEffect s) := by
  unfold execSwapEffect
  with_reducible repeat' first
    | assumption | (intro _; try beta_reduce) | apply BoundedRes.ite_ | apply BoundedRes.mkNext
    | exact BoundedRes.mkFault | apply Bounded.ite_ | apply State.swapIn_bounded
    | apply State.swapRefuse_bounded | apply State.takeWaiting_bounded | apply State.takeWaiting_bounded1
    | refine Bounded.ofSome ?_ (by assumption) | refine Bounded.ofSomeP ?_ (by assumption)
    | refine Bounded.ofPair ?_ (by assumption) | refine Bounded.ofPair2 ?_ (by assumption)
    | refine Bounded.ofPair3 ?_ (by assumption) | split

end Sys2Proof.Machine
end

