-- ==== Sys2Proof/Laws/State.lean ====
section
/-! SUPPORT. What the named updates of the state leave alone: one lemma for each update and each part of the state it
does not write, and what each of them reads back. -/

namespace Sys2Proof.Machine

@[simp] theorem State.wr_life (s : State) (r : Reg) (v i j p : Nat) : (s.wr r v i j p).life = s.life := rfl
@[simp] theorem State.wr_mem (s : State) (r : Reg) (v i j p : Nat) : (s.wr r v i j p).mem = s.mem := rfl
@[simp] theorem State.wr_rgn (s : State) (r : Reg) (v i j p : Nat) : (s.wr r v i j p).rgn = s.rgn := rfl
@[simp] theorem State.wr_stile (s : State) (r : Reg) (v i j p : Nat) : (s.wr r v i j p).stile = s.stile := rfl
@[simp] theorem State.wr_harrow (s : State) (r : Reg) (v i j p : Nat) : (s.wr r v i j p).harrow = s.harrow := rfl
@[simp] theorem State.wr_keys (s : State) (r : Reg) (v i j p : Nat) : (s.wr r v i j p).keys = s.keys := rfl
@[simp] theorem State.wr_parts (s : State) (r : Reg) (v i j p : Nat) : (s.wr r v i j p).parts = s.parts := rfl
@[simp] theorem State.wr_partPlot (s : State) (r : Reg) (v i j p : Nat) : (s.wr r v i j p).partPlot = s.partPlot := rfl
@[simp] theorem State.wr_rdoms (s : State) (r : Reg) (v i j p : Nat) : (s.wr r v i j p).rdoms = s.rdoms := rfl
@[simp] theorem State.wr_faults (s : State) (r : Reg) (v i j p : Nat) : (s.wr r v i j p).faults = s.faults := rfl
@[simp] theorem State.wr_throttle (s : State) (r : Reg) (v i j p : Nat) : (s.wr r v i j p).throttle = s.throttle := rfl
@[simp] theorem State.wr_cfg (s : State) (r : Reg) (v i j p : Nat) : (s.wr r v i j p).cfg = s.cfg := rfl
@[simp] theorem State.wr_links (s : State) (r : Reg) (v i j p : Nat) : (s.wr r v i j p).links = s.links := rfl
@[simp] theorem State.wr_dom (s : State) (r : Reg) (v i j p : Nat) : (s.wr r v i j p).dom = s.dom := rfl
@[simp] theorem State.wr_pair (s : State) (r : Reg) (v i j p : Nat) : (s.wr r v i j p).pair = s.pair := rfl
@[simp] theorem State.wr_svc (s : State) (r : Reg) (v i j p : Nat) : (s.wr r v i j p).svc = s.svc := rfl
@[simp] theorem State.wr_host (s : State) (r : Reg) (v i j p : Nat) : (s.wr r v i j p).host = s.host := rfl
@[simp] theorem State.wr_dig (s : State) (r : Reg) (v i j p : Nat) : (s.wr r v i j p).dig = s.dig := rfl
@[simp] theorem State.wr_own (s : State) (r : Reg) (v i j p : Nat) : (s.wr r v i j p).own = s.own := rfl
@[simp] theorem State.wr_otp (s : State) (r : Reg) (v i j p : Nat) : (s.wr r v i j p).otp = s.otp := rfl
@[simp] theorem State.wr_store (s : State) (r : Reg) (v i j p : Nat) : (s.wr r v i j p).store = s.store := rfl
@[simp] theorem State.wr_fwu (s : State) (r : Reg) (v i j p : Nat) : (s.wr r v i j p).fwu = s.fwu := rfl
@[simp] theorem State.wr_lct (s : State) (r : Reg) (v i j p : Nat) : (s.wr r v i j p).lct = s.lct := rfl
@[simp] theorem State.wr_obs (s : State) (r : Reg) (v i j p : Nat) : (s.wr r v i j p).obs = s.obs := rfl
@[simp] theorem State.wr_units (s : State) (r : Reg) (v i j p : Nat) : (s.wr r v i j p).units = s.units := rfl
@[simp] theorem State.wr_kept (s : State) (r : Reg) (v i j p : Nat) : (s.wr r v i j p).kept = s.kept := rfl
@[simp] theorem State.wr_out (s : State) (r : Reg) (v i j p : Nat) : (s.wr r v i j p).out = s.out := rfl
@[simp] theorem State.wr_frees (s : State) (r : Reg) (v i j p : Nat) : (s.wr r v i j p).frees = s.frees := rfl
@[simp] theorem State.wr_pending (s : State) (r : Reg) (v i j p : Nat) : (s.wr r v i j p).pending = s.pending := rfl
@[simp] theorem State.wr_part (s : State) (r : Reg) (v i j p : Nat) (a : Nat) : (s.wr r v i j p).part a = s.part a := rfl
@[simp] theorem State.wr_row (s : State) (r : Reg) (v i j p : Nat) (a : Nat) : (s.wr r v i j p).row a = s.row a := rfl
@[simp] theorem State.wr_slot (s : State) (r : Reg) (v i j p : Nat) (a : Nat) : (s.wr r v i j p).slot a = s.slot a := rfl
@[simp] theorem State.wr_lane (s : State) (r : Reg) (v i j p : Nat) (a : Nat) : (s.wr r v i j p).lane a = s.lane a := rfl
@[simp] theorem State.wr_stepEnt (s : State) (r : Reg) (v i j p : Nat) (a : Nat) : (s.wr r v i j p).stepEnt a = s.stepEnt a := rfl
@[simp] theorem State.wr_job (s : State) (r : Reg) (v i j p : Nat) (a : Nat) : (s.wr r v i j p).job a = s.job a := rfl
@[simp] theorem State.wr_port (s : State) (r : Reg) (v i j p : Nat) (a : Nat) : (s.wr r v i j p).port a = s.port a := rfl
@[simp] theorem State.wr_actr (s : State) (r : Reg) (v i j p : Nat) (a : Nat) : (s.wr r v i j p).actr a = s.actr a := rfl
@[simp] theorem State.wr_queue (s : State) (r : Reg) (v i j p : Nat) (a : Nat) : (s.wr r v i j p).queue a = s.queue a := rfl
@[simp] theorem State.wr_chan (s : State) (r : Reg) (v i j p : Nat) (a : Nat) : (s.wr r v i j p).chan a = s.chan a := rfl
@[simp] theorem State.wr_core (s : State) (r : Reg) (v i j p : Nat) (a : Nat) : (s.wr r v i j p).core a = s.core a := rfl
@[simp] theorem State.wr_unitOf (s : State) (r : Reg) (v i j p : Nat) (a b : Nat) : (s.wr r v i j p).unitOf a b = s.unitOf a b := rfl
@[simp] theorem State.wr_otpWord (s : State) (r : Reg) (v i j p : Nat) (a : Nat) : (s.wr r v i j p).otpWord a = s.otpWord a := rfl
@[simp] theorem State.wr_regsOpen (s : State) (r : Reg) (v i j p : Nat) : (s.wr r v i j p).regsOpen = s.regsOpen := rfl
@[simp] theorem State.wr_plots (s : State) (r : Reg) (v i j p : Nat) : (s.wr r v i j p).plots = s.plots := rfl
@[simp] theorem State.wr_cmd (s : State) (r : Reg) (v i j p : Nat) (a b : Nat) : (s.wr r v i j p).cmd a b = s.cmd a b := rfl

@[simp] theorem State.setFld_life (s : State) (f : Fld) (v i p : Nat) : (s.setFld f v i p).life = s.life := rfl
@[simp] theorem State.setFld_mem (s : State) (f : Fld) (v i p : Nat) : (s.setFld f v i p).mem = s.mem := rfl
@[simp] theorem State.setFld_rgn (s : State) (f : Fld) (v i p : Nat) : (s.setFld f v i p).rgn = s.rgn := rfl
@[simp] theorem State.setFld_stile (s : State) (f : Fld) (v i p : Nat) : (s.setFld f v i p).stile = s.stile := rfl
@[simp] theorem State.setFld_harrow (s : State) (f : Fld) (v i p : Nat) : (s.setFld f v i p).harrow = s.harrow := rfl
@[simp] theorem State.setFld_keys (s : State) (f : Fld) (v i p : Nat) : (s.setFld f v i p).keys = s.keys := rfl
@[simp] theorem State.setFld_parts (s : State) (f : Fld) (v i p : Nat) : (s.setFld f v i p).parts = s.parts := rfl
@[simp] theorem State.setFld_partPlot (s : State) (f : Fld) (v i p : Nat) : (s.setFld f v i p).partPlot = s.partPlot := rfl
@[simp] theorem State.setFld_rdoms (s : State) (f : Fld) (v i p : Nat) : (s.setFld f v i p).rdoms = s.rdoms := rfl
@[simp] theorem State.setFld_faults (s : State) (f : Fld) (v i p : Nat) : (s.setFld f v i p).faults = s.faults := rfl
@[simp] theorem State.setFld_throttle (s : State) (f : Fld) (v i p : Nat) : (s.setFld f v i p).throttle = s.throttle := rfl
@[simp] theorem State.setFld_cfg (s : State) (f : Fld) (v i p : Nat) : (s.setFld f v i p).cfg = s.cfg := rfl
@[simp] theorem State.setFld_links (s : State) (f : Fld) (v i p : Nat) : (s.setFld f v i p).links = s.links := rfl
@[simp] theorem State.setFld_dom (s : State) (f : Fld) (v i p : Nat) : (s.setFld f v i p).dom = s.dom := rfl
@[simp] theorem State.setFld_pair (s : State) (f : Fld) (v i p : Nat) : (s.setFld f v i p).pair = s.pair := rfl
@[simp] theorem State.setFld_svc (s : State) (f : Fld) (v i p : Nat) : (s.setFld f v i p).svc = s.svc := rfl
@[simp] theorem State.setFld_host (s : State) (f : Fld) (v i p : Nat) : (s.setFld f v i p).host = s.host := rfl
@[simp] theorem State.setFld_dig (s : State) (f : Fld) (v i p : Nat) : (s.setFld f v i p).dig = s.dig := rfl
@[simp] theorem State.setFld_own (s : State) (f : Fld) (v i p : Nat) : (s.setFld f v i p).own = s.own := rfl
@[simp] theorem State.setFld_otp (s : State) (f : Fld) (v i p : Nat) : (s.setFld f v i p).otp = s.otp := rfl
@[simp] theorem State.setFld_store (s : State) (f : Fld) (v i p : Nat) : (s.setFld f v i p).store = s.store := rfl
@[simp] theorem State.setFld_fwu (s : State) (f : Fld) (v i p : Nat) : (s.setFld f v i p).fwu = s.fwu := rfl
@[simp] theorem State.setFld_lct (s : State) (f : Fld) (v i p : Nat) : (s.setFld f v i p).lct = s.lct := rfl
@[simp] theorem State.setFld_obs (s : State) (f : Fld) (v i p : Nat) : (s.setFld f v i p).obs = s.obs := rfl
@[simp] theorem State.setFld_units (s : State) (f : Fld) (v i p : Nat) : (s.setFld f v i p).units = s.units := rfl
@[simp] theorem State.setFld_kept (s : State) (f : Fld) (v i p : Nat) : (s.setFld f v i p).kept = s.kept := rfl
@[simp] theorem State.setFld_out (s : State) (f : Fld) (v i p : Nat) : (s.setFld f v i p).out = s.out := rfl
@[simp] theorem State.setFld_frees (s : State) (f : Fld) (v i p : Nat) : (s.setFld f v i p).frees = s.frees := rfl
@[simp] theorem State.setFld_pending (s : State) (f : Fld) (v i p : Nat) : (s.setFld f v i p).pending = s.pending := rfl
@[simp] theorem State.setFld_part (s : State) (f : Fld) (v i p : Nat) (a : Nat) : (s.setFld f v i p).part a = s.part a := rfl
@[simp] theorem State.setFld_row (s : State) (f : Fld) (v i p : Nat) (a : Nat) : (s.setFld f v i p).row a = s.row a := rfl
@[simp] theorem State.setFld_slot (s : State) (f : Fld) (v i p : Nat) (a : Nat) : (s.setFld f v i p).slot a = s.slot a := rfl
@[simp] theorem State.setFld_lane (s : State) (f : Fld) (v i p : Nat) (a : Nat) : (s.setFld f v i p).lane a = s.lane a := rfl
@[simp] theorem State.setFld_stepEnt (s : State) (f : Fld) (v i p : Nat) (a : Nat) : (s.setFld f v i p).stepEnt a = s.stepEnt a := rfl
@[simp] theorem State.setFld_job (s : State) (f : Fld) (v i p : Nat) (a : Nat) : (s.setFld f v i p).job a = s.job a := rfl
@[simp] theorem State.setFld_port (s : State) (f : Fld) (v i p : Nat) (a : Nat) : (s.setFld f v i p).port a = s.port a := rfl
@[simp] theorem State.setFld_actr (s : State) (f : Fld) (v i p : Nat) (a : Nat) : (s.setFld f v i p).actr a = s.actr a := rfl
@[simp] theorem State.setFld_queue (s : State) (f : Fld) (v i p : Nat) (a : Nat) : (s.setFld f v i p).queue a = s.queue a := rfl
@[simp] theorem State.setFld_chan (s : State) (f : Fld) (v i p : Nat) (a : Nat) : (s.setFld f v i p).chan a = s.chan a := rfl
@[simp] theorem State.setFld_core (s : State) (f : Fld) (v i p : Nat) (a : Nat) : (s.setFld f v i p).core a = s.core a := rfl
@[simp] theorem State.setFld_unitOf (s : State) (f : Fld) (v i p : Nat) (a b : Nat) : (s.setFld f v i p).unitOf a b = s.unitOf a b := rfl
@[simp] theorem State.setFld_otpWord (s : State) (f : Fld) (v i p : Nat) (a : Nat) : (s.setFld f v i p).otpWord a = s.otpWord a := rfl
@[simp] theorem State.setFld_regsOpen (s : State) (f : Fld) (v i p : Nat) : (s.setFld f v i p).regsOpen = s.regsOpen := rfl
@[simp] theorem State.setFld_plots (s : State) (f : Fld) (v i p : Nat) : (s.setFld f v i p).plots = s.plots := rfl
@[simp] theorem State.setFld_cmd (s : State) (f : Fld) (v i p : Nat) (a b : Nat) : (s.setFld f v i p).cmd a b = s.cmd a b := rfl

@[simp] theorem State.addFld_life (s : State) (f : Fld) (v i p : Nat) : (s.addFld f v i p).life = s.life := rfl
@[simp] theorem State.addFld_mem (s : State) (f : Fld) (v i p : Nat) : (s.addFld f v i p).mem = s.mem := rfl
@[simp] theorem State.addFld_rgn (s : State) (f : Fld) (v i p : Nat) : (s.addFld f v i p).rgn = s.rgn := rfl
@[simp] theorem State.addFld_stile (s : State) (f : Fld) (v i p : Nat) : (s.addFld f v i p).stile = s.stile := rfl
@[simp] theorem State.addFld_harrow (s : State) (f : Fld) (v i p : Nat) : (s.addFld f v i p).harrow = s.harrow := rfl
@[simp] theorem State.addFld_keys (s : State) (f : Fld) (v i p : Nat) : (s.addFld f v i p).keys = s.keys := rfl
@[simp] theorem State.addFld_parts (s : State) (f : Fld) (v i p : Nat) : (s.addFld f v i p).parts = s.parts := rfl
@[simp] theorem State.addFld_partPlot (s : State) (f : Fld) (v i p : Nat) : (s.addFld f v i p).partPlot = s.partPlot := rfl
@[simp] theorem State.addFld_rdoms (s : State) (f : Fld) (v i p : Nat) : (s.addFld f v i p).rdoms = s.rdoms := rfl
@[simp] theorem State.addFld_faults (s : State) (f : Fld) (v i p : Nat) : (s.addFld f v i p).faults = s.faults := rfl
@[simp] theorem State.addFld_throttle (s : State) (f : Fld) (v i p : Nat) : (s.addFld f v i p).throttle = s.throttle := rfl
@[simp] theorem State.addFld_cfg (s : State) (f : Fld) (v i p : Nat) : (s.addFld f v i p).cfg = s.cfg := rfl
@[simp] theorem State.addFld_links (s : State) (f : Fld) (v i p : Nat) : (s.addFld f v i p).links = s.links := rfl
@[simp] theorem State.addFld_dom (s : State) (f : Fld) (v i p : Nat) : (s.addFld f v i p).dom = s.dom := rfl
@[simp] theorem State.addFld_pair (s : State) (f : Fld) (v i p : Nat) : (s.addFld f v i p).pair = s.pair := rfl
@[simp] theorem State.addFld_svc (s : State) (f : Fld) (v i p : Nat) : (s.addFld f v i p).svc = s.svc := rfl
@[simp] theorem State.addFld_host (s : State) (f : Fld) (v i p : Nat) : (s.addFld f v i p).host = s.host := rfl
@[simp] theorem State.addFld_dig (s : State) (f : Fld) (v i p : Nat) : (s.addFld f v i p).dig = s.dig := rfl
@[simp] theorem State.addFld_own (s : State) (f : Fld) (v i p : Nat) : (s.addFld f v i p).own = s.own := rfl
@[simp] theorem State.addFld_otp (s : State) (f : Fld) (v i p : Nat) : (s.addFld f v i p).otp = s.otp := rfl
@[simp] theorem State.addFld_store (s : State) (f : Fld) (v i p : Nat) : (s.addFld f v i p).store = s.store := rfl
@[simp] theorem State.addFld_fwu (s : State) (f : Fld) (v i p : Nat) : (s.addFld f v i p).fwu = s.fwu := rfl
@[simp] theorem State.addFld_lct (s : State) (f : Fld) (v i p : Nat) : (s.addFld f v i p).lct = s.lct := rfl
@[simp] theorem State.addFld_obs (s : State) (f : Fld) (v i p : Nat) : (s.addFld f v i p).obs = s.obs := rfl
@[simp] theorem State.addFld_units (s : State) (f : Fld) (v i p : Nat) : (s.addFld f v i p).units = s.units := rfl
@[simp] theorem State.addFld_kept (s : State) (f : Fld) (v i p : Nat) : (s.addFld f v i p).kept = s.kept := rfl
@[simp] theorem State.addFld_out (s : State) (f : Fld) (v i p : Nat) : (s.addFld f v i p).out = s.out := rfl
@[simp] theorem State.addFld_frees (s : State) (f : Fld) (v i p : Nat) : (s.addFld f v i p).frees = s.frees := rfl
@[simp] theorem State.addFld_pending (s : State) (f : Fld) (v i p : Nat) : (s.addFld f v i p).pending = s.pending := rfl
@[simp] theorem State.addFld_part (s : State) (f : Fld) (v i p : Nat) (a : Nat) : (s.addFld f v i p).part a = s.part a := rfl
@[simp] theorem State.addFld_row (s : State) (f : Fld) (v i p : Nat) (a : Nat) : (s.addFld f v i p).row a = s.row a := rfl
@[simp] theorem State.addFld_slot (s : State) (f : Fld) (v i p : Nat) (a : Nat) : (s.addFld f v i p).slot a = s.slot a := rfl
@[simp] theorem State.addFld_lane (s : State) (f : Fld) (v i p : Nat) (a : Nat) : (s.addFld f v i p).lane a = s.lane a := rfl
@[simp] theorem State.addFld_stepEnt (s : State) (f : Fld) (v i p : Nat) (a : Nat) : (s.addFld f v i p).stepEnt a = s.stepEnt a := rfl
@[simp] theorem State.addFld_job (s : State) (f : Fld) (v i p : Nat) (a : Nat) : (s.addFld f v i p).job a = s.job a := rfl
@[simp] theorem State.addFld_port (s : State) (f : Fld) (v i p : Nat) (a : Nat) : (s.addFld f v i p).port a = s.port a := rfl
@[simp] theorem State.addFld_actr (s : State) (f : Fld) (v i p : Nat) (a : Nat) : (s.addFld f v i p).actr a = s.actr a := rfl
@[simp] theorem State.addFld_queue (s : State) (f : Fld) (v i p : Nat) (a : Nat) : (s.addFld f v i p).queue a = s.queue a := rfl
@[simp] theorem State.addFld_chan (s : State) (f : Fld) (v i p : Nat) (a : Nat) : (s.addFld f v i p).chan a = s.chan a := rfl
@[simp] theorem State.addFld_core (s : State) (f : Fld) (v i p : Nat) (a : Nat) : (s.addFld f v i p).core a = s.core a := rfl
@[simp] theorem State.addFld_unitOf (s : State) (f : Fld) (v i p : Nat) (a b : Nat) : (s.addFld f v i p).unitOf a b = s.unitOf a b := rfl
@[simp] theorem State.addFld_otpWord (s : State) (f : Fld) (v i p : Nat) (a : Nat) : (s.addFld f v i p).otpWord a = s.otpWord a := rfl
@[simp] theorem State.addFld_regsOpen (s : State) (f : Fld) (v i p : Nat) : (s.addFld f v i p).regsOpen = s.regsOpen := rfl
@[simp] theorem State.addFld_plots (s : State) (f : Fld) (v i p : Nat) : (s.addFld f v i p).plots = s.plots := rfl
@[simp] theorem State.addFld_cmd (s : State) (f : Fld) (v i p : Nat) (a b : Nat) : (s.addFld f v i p).cmd a b = s.cmd a b := rfl

@[simp] theorem State.incFld_life (s : State) (f : Fld) (i p : Nat) : (s.incFld f i p).life = s.life := rfl
@[simp] theorem State.incFld_mem (s : State) (f : Fld) (i p : Nat) : (s.incFld f i p).mem = s.mem := rfl
@[simp] theorem State.incFld_rgn (s : State) (f : Fld) (i p : Nat) : (s.incFld f i p).rgn = s.rgn := rfl
@[simp] theorem State.incFld_stile (s : State) (f : Fld) (i p : Nat) : (s.incFld f i p).stile = s.stile := rfl
@[simp] theorem State.incFld_harrow (s : State) (f : Fld) (i p : Nat) : (s.incFld f i p).harrow = s.harrow := rfl
@[simp] theorem State.incFld_keys (s : State) (f : Fld) (i p : Nat) : (s.incFld f i p).keys = s.keys := rfl
@[simp] theorem State.incFld_parts (s : State) (f : Fld) (i p : Nat) : (s.incFld f i p).parts = s.parts := rfl
@[simp] theorem State.incFld_partPlot (s : State) (f : Fld) (i p : Nat) : (s.incFld f i p).partPlot = s.partPlot := rfl
@[simp] theorem State.incFld_rdoms (s : State) (f : Fld) (i p : Nat) : (s.incFld f i p).rdoms = s.rdoms := rfl
@[simp] theorem State.incFld_faults (s : State) (f : Fld) (i p : Nat) : (s.incFld f i p).faults = s.faults := rfl
@[simp] theorem State.incFld_throttle (s : State) (f : Fld) (i p : Nat) : (s.incFld f i p).throttle = s.throttle := rfl
@[simp] theorem State.incFld_cfg (s : State) (f : Fld) (i p : Nat) : (s.incFld f i p).cfg = s.cfg := rfl
@[simp] theorem State.incFld_links (s : State) (f : Fld) (i p : Nat) : (s.incFld f i p).links = s.links := rfl
@[simp] theorem State.incFld_dom (s : State) (f : Fld) (i p : Nat) : (s.incFld f i p).dom = s.dom := rfl
@[simp] theorem State.incFld_pair (s : State) (f : Fld) (i p : Nat) : (s.incFld f i p).pair = s.pair := rfl
@[simp] theorem State.incFld_svc (s : State) (f : Fld) (i p : Nat) : (s.incFld f i p).svc = s.svc := rfl
@[simp] theorem State.incFld_host (s : State) (f : Fld) (i p : Nat) : (s.incFld f i p).host = s.host := rfl
@[simp] theorem State.incFld_dig (s : State) (f : Fld) (i p : Nat) : (s.incFld f i p).dig = s.dig := rfl
@[simp] theorem State.incFld_own (s : State) (f : Fld) (i p : Nat) : (s.incFld f i p).own = s.own := rfl
@[simp] theorem State.incFld_otp (s : State) (f : Fld) (i p : Nat) : (s.incFld f i p).otp = s.otp := rfl
@[simp] theorem State.incFld_store (s : State) (f : Fld) (i p : Nat) : (s.incFld f i p).store = s.store := rfl
@[simp] theorem State.incFld_fwu (s : State) (f : Fld) (i p : Nat) : (s.incFld f i p).fwu = s.fwu := rfl
@[simp] theorem State.incFld_lct (s : State) (f : Fld) (i p : Nat) : (s.incFld f i p).lct = s.lct := rfl
@[simp] theorem State.incFld_obs (s : State) (f : Fld) (i p : Nat) : (s.incFld f i p).obs = s.obs := rfl
@[simp] theorem State.incFld_units (s : State) (f : Fld) (i p : Nat) : (s.incFld f i p).units = s.units := rfl
@[simp] theorem State.incFld_kept (s : State) (f : Fld) (i p : Nat) : (s.incFld f i p).kept = s.kept := rfl
@[simp] theorem State.incFld_out (s : State) (f : Fld) (i p : Nat) : (s.incFld f i p).out = s.out := rfl
@[simp] theorem State.incFld_frees (s : State) (f : Fld) (i p : Nat) : (s.incFld f i p).frees = s.frees := rfl
@[simp] theorem State.incFld_pending (s : State) (f : Fld) (i p : Nat) : (s.incFld f i p).pending = s.pending := rfl
@[simp] theorem State.incFld_part (s : State) (f : Fld) (i p : Nat) (a : Nat) : (s.incFld f i p).part a = s.part a := rfl
@[simp] theorem State.incFld_row (s : State) (f : Fld) (i p : Nat) (a : Nat) : (s.incFld f i p).row a = s.row a := rfl
@[simp] theorem State.incFld_slot (s : State) (f : Fld) (i p : Nat) (a : Nat) : (s.incFld f i p).slot a = s.slot a := rfl
@[simp] theorem State.incFld_lane (s : State) (f : Fld) (i p : Nat) (a : Nat) : (s.incFld f i p).lane a = s.lane a := rfl
@[simp] theorem State.incFld_stepEnt (s : State) (f : Fld) (i p : Nat) (a : Nat) : (s.incFld f i p).stepEnt a = s.stepEnt a := rfl
@[simp] theorem State.incFld_job (s : State) (f : Fld) (i p : Nat) (a : Nat) : (s.incFld f i p).job a = s.job a := rfl
@[simp] theorem State.incFld_port (s : State) (f : Fld) (i p : Nat) (a : Nat) : (s.incFld f i p).port a = s.port a := rfl
@[simp] theorem State.incFld_actr (s : State) (f : Fld) (i p : Nat) (a : Nat) : (s.incFld f i p).actr a = s.actr a := rfl
@[simp] theorem State.incFld_queue (s : State) (f : Fld) (i p : Nat) (a : Nat) : (s.incFld f i p).queue a = s.queue a := rfl
@[simp] theorem State.incFld_chan (s : State) (f : Fld) (i p : Nat) (a : Nat) : (s.incFld f i p).chan a = s.chan a := rfl
@[simp] theorem State.incFld_core (s : State) (f : Fld) (i p : Nat) (a : Nat) : (s.incFld f i p).core a = s.core a := rfl
@[simp] theorem State.incFld_unitOf (s : State) (f : Fld) (i p : Nat) (a b : Nat) : (s.incFld f i p).unitOf a b = s.unitOf a b := rfl
@[simp] theorem State.incFld_otpWord (s : State) (f : Fld) (i p : Nat) (a : Nat) : (s.incFld f i p).otpWord a = s.otpWord a := rfl
@[simp] theorem State.incFld_regsOpen (s : State) (f : Fld) (i p : Nat) : (s.incFld f i p).regsOpen = s.regsOpen := rfl
@[simp] theorem State.incFld_plots (s : State) (f : Fld) (i p : Nat) : (s.incFld f i p).plots = s.plots := rfl
@[simp] theorem State.incFld_cmd (s : State) (f : Fld) (i p : Nat) (a b : Nat) : (s.incFld f i p).cmd a b = s.cmd a b := rfl

@[simp] theorem State.emit_regs (s : State) (o : Out) : (s.emit o).regs = s.regs := rfl
@[simp] theorem State.emit_life (s : State) (o : Out) : (s.emit o).life = s.life := rfl
@[simp] theorem State.emit_mem (s : State) (o : Out) : (s.emit o).mem = s.mem := rfl
@[simp] theorem State.emit_rgn (s : State) (o : Out) : (s.emit o).rgn = s.rgn := rfl
@[simp] theorem State.emit_stile (s : State) (o : Out) : (s.emit o).stile = s.stile := rfl
@[simp] theorem State.emit_harrow (s : State) (o : Out) : (s.emit o).harrow = s.harrow := rfl
@[simp] theorem State.emit_keys (s : State) (o : Out) : (s.emit o).keys = s.keys := rfl
@[simp] theorem State.emit_parts (s : State) (o : Out) : (s.emit o).parts = s.parts := rfl
@[simp] theorem State.emit_partPlot (s : State) (o : Out) : (s.emit o).partPlot = s.partPlot := rfl
@[simp] theorem State.emit_rdoms (s : State) (o : Out) : (s.emit o).rdoms = s.rdoms := rfl
@[simp] theorem State.emit_faults (s : State) (o : Out) : (s.emit o).faults = s.faults := rfl
@[simp] theorem State.emit_throttle (s : State) (o : Out) : (s.emit o).throttle = s.throttle := rfl
@[simp] theorem State.emit_cfg (s : State) (o : Out) : (s.emit o).cfg = s.cfg := rfl
@[simp] theorem State.emit_links (s : State) (o : Out) : (s.emit o).links = s.links := rfl
@[simp] theorem State.emit_dom (s : State) (o : Out) : (s.emit o).dom = s.dom := rfl
@[simp] theorem State.emit_pair (s : State) (o : Out) : (s.emit o).pair = s.pair := rfl
@[simp] theorem State.emit_svc (s : State) (o : Out) : (s.emit o).svc = s.svc := rfl
@[simp] theorem State.emit_host (s : State) (o : Out) : (s.emit o).host = s.host := rfl
@[simp] theorem State.emit_dig (s : State) (o : Out) : (s.emit o).dig = s.dig := rfl
@[simp] theorem State.emit_own (s : State) (o : Out) : (s.emit o).own = s.own := rfl
@[simp] theorem State.emit_otp (s : State) (o : Out) : (s.emit o).otp = s.otp := rfl
@[simp] theorem State.emit_store (s : State) (o : Out) : (s.emit o).store = s.store := rfl
@[simp] theorem State.emit_fwu (s : State) (o : Out) : (s.emit o).fwu = s.fwu := rfl
@[simp] theorem State.emit_lct (s : State) (o : Out) : (s.emit o).lct = s.lct := rfl
@[simp] theorem State.emit_obs (s : State) (o : Out) : (s.emit o).obs = s.obs := rfl
@[simp] theorem State.emit_units (s : State) (o : Out) : (s.emit o).units = s.units := rfl
@[simp] theorem State.emit_kept (s : State) (o : Out) : (s.emit o).kept = s.kept := rfl
@[simp] theorem State.emit_frees (s : State) (o : Out) : (s.emit o).frees = s.frees := rfl
@[simp] theorem State.emit_pending (s : State) (o : Out) : (s.emit o).pending = s.pending := rfl
@[simp] theorem State.emit_part (s : State) (o : Out) (a : Nat) : (s.emit o).part a = s.part a := rfl
@[simp] theorem State.emit_row (s : State) (o : Out) (a : Nat) : (s.emit o).row a = s.row a := rfl
@[simp] theorem State.emit_slot (s : State) (o : Out) (a : Nat) : (s.emit o).slot a = s.slot a := rfl
@[simp] theorem State.emit_lane (s : State) (o : Out) (a : Nat) : (s.emit o).lane a = s.lane a := rfl
@[simp] theorem State.emit_stepEnt (s : State) (o : Out) (a : Nat) : (s.emit o).stepEnt a = s.stepEnt a := rfl
@[simp] theorem State.emit_job (s : State) (o : Out) (a : Nat) : (s.emit o).job a = s.job a := rfl
@[simp] theorem State.emit_port (s : State) (o : Out) (a : Nat) : (s.emit o).port a = s.port a := rfl
@[simp] theorem State.emit_actr (s : State) (o : Out) (a : Nat) : (s.emit o).actr a = s.actr a := rfl
@[simp] theorem State.emit_queue (s : State) (o : Out) (a : Nat) : (s.emit o).queue a = s.queue a := rfl
@[simp] theorem State.emit_chan (s : State) (o : Out) (a : Nat) : (s.emit o).chan a = s.chan a := rfl
@[simp] theorem State.emit_core (s : State) (o : Out) (a : Nat) : (s.emit o).core a = s.core a := rfl
@[simp] theorem State.emit_unitOf (s : State) (o : Out) (a b : Nat) : (s.emit o).unitOf a b = s.unitOf a b := rfl
@[simp] theorem State.emit_otpWord (s : State) (o : Out) (a : Nat) : (s.emit o).otpWord a = s.otpWord a := rfl
@[simp] theorem State.emit_fld (s : State) (o : Out) (g : Fld) (a b : Nat) : (s.emit o).fld g a b = s.fld g a b := rfl
@[simp] theorem State.emit_regsOpen (s : State) (o : Out) : (s.emit o).regsOpen = s.regsOpen := rfl
@[simp] theorem State.emit_ownerPort (s : State) (o : Out) : (s.emit o).ownerPort = s.ownerPort := rfl
@[simp] theorem State.emit_plots (s : State) (o : Out) : (s.emit o).plots = s.plots := rfl
@[simp] theorem State.emit_cmd (s : State) (o : Out) (a b : Nat) : (s.emit o).cmd a b = s.cmd a b := rfl

@[simp] theorem State.regRsp_regs (s : State) (p d : Nat) (e : Bool) : (s.regRsp p d e).regs = s.regs := rfl
@[simp] theorem State.regRsp_life (s : State) (p d : Nat) (e : Bool) : (s.regRsp p d e).life = s.life := rfl
@[simp] theorem State.regRsp_mem (s : State) (p d : Nat) (e : Bool) : (s.regRsp p d e).mem = s.mem := rfl
@[simp] theorem State.regRsp_rgn (s : State) (p d : Nat) (e : Bool) : (s.regRsp p d e).rgn = s.rgn := rfl
@[simp] theorem State.regRsp_stile (s : State) (p d : Nat) (e : Bool) : (s.regRsp p d e).stile = s.stile := rfl
@[simp] theorem State.regRsp_harrow (s : State) (p d : Nat) (e : Bool) : (s.regRsp p d e).harrow = s.harrow := rfl
@[simp] theorem State.regRsp_keys (s : State) (p d : Nat) (e : Bool) : (s.regRsp p d e).keys = s.keys := rfl
@[simp] theorem State.regRsp_parts (s : State) (p d : Nat) (e : Bool) : (s.regRsp p d e).parts = s.parts := rfl
@[simp] theorem State.regRsp_partPlot (s : State) (p d : Nat) (e : Bool) : (s.regRsp p d e).partPlot = s.partPlot := rfl
@[simp] theorem State.regRsp_rdoms (s : State) (p d : Nat) (e : Bool) : (s.regRsp p d e).rdoms = s.rdoms := rfl
@[simp] theorem State.regRsp_faults (s : State) (p d : Nat) (e : Bool) : (s.regRsp p d e).faults = s.faults := rfl
@[simp] theorem State.regRsp_throttle (s : State) (p d : Nat) (e : Bool) : (s.regRsp p d e).throttle = s.throttle := rfl
@[simp] theorem State.regRsp_cfg (s : State) (p d : Nat) (e : Bool) : (s.regRsp p d e).cfg = s.cfg := rfl
@[simp] theorem State.regRsp_links (s : State) (p d : Nat) (e : Bool) : (s.regRsp p d e).links = s.links := rfl
@[simp] theorem State.regRsp_dom (s : State) (p d : Nat) (e : Bool) : (s.regRsp p d e).dom = s.dom := rfl
@[simp] theorem State.regRsp_pair (s : State) (p d : Nat) (e : Bool) : (s.regRsp p d e).pair = s.pair := rfl
@[simp] theorem State.regRsp_svc (s : State) (p d : Nat) (e : Bool) : (s.regRsp p d e).svc = s.svc := rfl
@[simp] theorem State.regRsp_host (s : State) (p d : Nat) (e : Bool) : (s.regRsp p d e).host = s.host := rfl
@[simp] theorem State.regRsp_dig (s : State) (p d : Nat) (e : Bool) : (s.regRsp p d e).dig = s.dig := rfl
@[simp] theorem State.regRsp_own (s : State) (p d : Nat) (e : Bool) : (s.regRsp p d e).own = s.own := rfl
@[simp] theorem State.regRsp_otp (s : State) (p d : Nat) (e : Bool) : (s.regRsp p d e).otp = s.otp := rfl
@[simp] theorem State.regRsp_store (s : State) (p d : Nat) (e : Bool) : (s.regRsp p d e).store = s.store := rfl
@[simp] theorem State.regRsp_fwu (s : State) (p d : Nat) (e : Bool) : (s.regRsp p d e).fwu = s.fwu := rfl
@[simp] theorem State.regRsp_lct (s : State) (p d : Nat) (e : Bool) : (s.regRsp p d e).lct = s.lct := rfl
@[simp] theorem State.regRsp_obs (s : State) (p d : Nat) (e : Bool) : (s.regRsp p d e).obs = s.obs := rfl
@[simp] theorem State.regRsp_units (s : State) (p d : Nat) (e : Bool) : (s.regRsp p d e).units = s.units := rfl
@[simp] theorem State.regRsp_kept (s : State) (p d : Nat) (e : Bool) : (s.regRsp p d e).kept = s.kept := rfl
@[simp] theorem State.regRsp_frees (s : State) (p d : Nat) (e : Bool) : (s.regRsp p d e).frees = s.frees := rfl
@[simp] theorem State.regRsp_pending (s : State) (p d : Nat) (e : Bool) : (s.regRsp p d e).pending = s.pending := rfl
@[simp] theorem State.regRsp_part (s : State) (p d : Nat) (e : Bool) (a : Nat) : (s.regRsp p d e).part a = s.part a := rfl
@[simp] theorem State.regRsp_row (s : State) (p d : Nat) (e : Bool) (a : Nat) : (s.regRsp p d e).row a = s.row a := rfl
@[simp] theorem State.regRsp_slot (s : State) (p d : Nat) (e : Bool) (a : Nat) : (s.regRsp p d e).slot a = s.slot a := rfl
@[simp] theorem State.regRsp_lane (s : State) (p d : Nat) (e : Bool) (a : Nat) : (s.regRsp p d e).lane a = s.lane a := rfl
@[simp] theorem State.regRsp_stepEnt (s : State) (p d : Nat) (e : Bool) (a : Nat) : (s.regRsp p d e).stepEnt a = s.stepEnt a := rfl
@[simp] theorem State.regRsp_job (s : State) (p d : Nat) (e : Bool) (a : Nat) : (s.regRsp p d e).job a = s.job a := rfl
@[simp] theorem State.regRsp_port (s : State) (p d : Nat) (e : Bool) (a : Nat) : (s.regRsp p d e).port a = s.port a := rfl
@[simp] theorem State.regRsp_actr (s : State) (p d : Nat) (e : Bool) (a : Nat) : (s.regRsp p d e).actr a = s.actr a := rfl
@[simp] theorem State.regRsp_queue (s : State) (p d : Nat) (e : Bool) (a : Nat) : (s.regRsp p d e).queue a = s.queue a := rfl
@[simp] theorem State.regRsp_chan (s : State) (p d : Nat) (e : Bool) (a : Nat) : (s.regRsp p d e).chan a = s.chan a := rfl
@[simp] theorem State.regRsp_core (s : State) (p d : Nat) (e : Bool) (a : Nat) : (s.regRsp p d e).core a = s.core a := rfl
@[simp] theorem State.regRsp_unitOf (s : State) (p d : Nat) (e : Bool) (a b : Nat) : (s.regRsp p d e).unitOf a b = s.unitOf a b := rfl
@[simp] theorem State.regRsp_otpWord (s : State) (p d : Nat) (e : Bool) (a : Nat) : (s.regRsp p d e).otpWord a = s.otpWord a := rfl
@[simp] theorem State.regRsp_fld (s : State) (p d : Nat) (e : Bool) (g : Fld) (a b : Nat) : (s.regRsp p d e).fld g a b = s.fld g a b := rfl
@[simp] theorem State.regRsp_regsOpen (s : State) (p d : Nat) (e : Bool) : (s.regRsp p d e).regsOpen = s.regsOpen := rfl
@[simp] theorem State.regRsp_ownerPort (s : State) (p d : Nat) (e : Bool) : (s.regRsp p d e).ownerPort = s.ownerPort := rfl
@[simp] theorem State.regRsp_plots (s : State) (p d : Nat) (e : Bool) : (s.regRsp p d e).plots = s.plots := rfl
@[simp] theorem State.regRsp_cmd (s : State) (p d : Nat) (e : Bool) (a b : Nat) : (s.regRsp p d e).cmd a b = s.cmd a b := rfl

@[simp] theorem State.drew_regs (s : State) : s.drew.regs = s.regs := rfl
@[simp] theorem State.drew_life (s : State) : s.drew.life = s.life := rfl
@[simp] theorem State.drew_mem (s : State) : s.drew.mem = s.mem := rfl
@[simp] theorem State.drew_rgn (s : State) : s.drew.rgn = s.rgn := rfl
@[simp] theorem State.drew_stile (s : State) : s.drew.stile = s.stile := rfl
@[simp] theorem State.drew_harrow (s : State) : s.drew.harrow = s.harrow := rfl
@[simp] theorem State.drew_parts (s : State) : s.drew.parts = s.parts := rfl
@[simp] theorem State.drew_partPlot (s : State) : s.drew.partPlot = s.partPlot := rfl
@[simp] theorem State.drew_rdoms (s : State) : s.drew.rdoms = s.rdoms := rfl
@[simp] theorem State.drew_faults (s : State) : s.drew.faults = s.faults := rfl
@[simp] theorem State.drew_throttle (s : State) : s.drew.throttle = s.throttle := rfl
@[simp] theorem State.drew_cfg (s : State) : s.drew.cfg = s.cfg := rfl
@[simp] theorem State.drew_links (s : State) : s.drew.links = s.links := rfl
@[simp] theorem State.drew_dom (s : State) : s.drew.dom = s.dom := rfl
@[simp] theorem State.drew_pair (s : State) : s.drew.pair = s.pair := rfl
@[simp] theorem State.drew_svc (s : State) : s.drew.svc = s.svc := rfl
@[simp] theorem State.drew_host (s : State) : s.drew.host = s.host := rfl
@[simp] theorem State.drew_dig (s : State) : s.drew.dig = s.dig := rfl
@[simp] theorem State.drew_own (s : State) : s.drew.own = s.own := rfl
@[simp] theorem State.drew_otp (s : State) : s.drew.otp = s.otp := rfl
@[simp] theorem State.drew_store (s : State) : s.drew.store = s.store := rfl
@[simp] theorem State.drew_fwu (s : State) : s.drew.fwu = s.fwu := rfl
@[simp] theorem State.drew_lct (s : State) : s.drew.lct = s.lct := rfl
@[simp] theorem State.drew_obs (s : State) : s.drew.obs = s.obs := rfl
@[simp] theorem State.drew_units (s : State) : s.drew.units = s.units := rfl
@[simp] theorem State.drew_kept (s : State) : s.drew.kept = s.kept := rfl
@[simp] theorem State.drew_out (s : State) : s.drew.out = s.out := rfl
@[simp] theorem State.drew_frees (s : State) : s.drew.frees = s.frees := rfl
@[simp] theorem State.drew_pending (s : State) : s.drew.pending = s.pending := rfl
@[simp] theorem State.drew_part (s : State) (a : Nat) : s.drew.part a = s.part a := rfl
@[simp] theorem State.drew_row (s : State) (a : Nat) : s.drew.row a = s.row a := rfl
@[simp] theorem State.drew_lane (s : State) (a : Nat) : s.drew.lane a = s.lane a := rfl
@[simp] theorem State.drew_stepEnt (s : State) (a : Nat) : s.drew.stepEnt a = s.stepEnt a := rfl
@[simp] theorem State.drew_job (s : State) (a : Nat) : s.drew.job a = s.job a := rfl
@[simp] theorem State.drew_port (s : State) (a : Nat) : s.drew.port a = s.port a := rfl
@[simp] theorem State.drew_actr (s : State) (a : Nat) : s.drew.actr a = s.actr a := rfl
@[simp] theorem State.drew_queue (s : State) (a : Nat) : s.drew.queue a = s.queue a := rfl
@[simp] theorem State.drew_chan (s : State) (a : Nat) : s.drew.chan a = s.chan a := rfl
@[simp] theorem State.drew_core (s : State) (a : Nat) : s.drew.core a = s.core a := rfl
@[simp] theorem State.drew_unitOf (s : State) (a b : Nat) : s.drew.unitOf a b = s.unitOf a b := rfl
@[simp] theorem State.drew_otpWord (s : State) (a : Nat) : s.drew.otpWord a = s.otpWord a := rfl
@[simp] theorem State.drew_fld (s : State) (g : Fld) (a b : Nat) : s.drew.fld g a b = s.fld g a b := rfl
@[simp] theorem State.drew_regsOpen (s : State) : s.drew.regsOpen = s.regsOpen := rfl
@[simp] theorem State.drew_ownerPort (s : State) : s.drew.ownerPort = s.ownerPort := rfl
@[simp] theorem State.drew_plots (s : State) : s.drew.plots = s.plots := rfl
@[simp] theorem State.drew_cmd (s : State) (a b : Nat) : s.drew.cmd a b = s.cmd a b := rfl

@[simp] theorem State.freed_regs (s : State) : s.freed.regs = s.regs := rfl
@[simp] theorem State.freed_life (s : State) : s.freed.life = s.life := rfl
@[simp] theorem State.freed_mem (s : State) : s.freed.mem = s.mem := rfl
@[simp] theorem State.freed_rgn (s : State) : s.freed.rgn = s.rgn := rfl
@[simp] theorem State.freed_stile (s : State) : s.freed.stile = s.stile := rfl
@[simp] theorem State.freed_harrow (s : State) : s.freed.harrow = s.harrow := rfl
@[simp] theorem State.freed_keys (s : State) : s.freed.keys = s.keys := rfl
@[simp] theorem State.freed_parts (s : State) : s.freed.parts = s.parts := rfl
@[simp] theorem State.freed_partPlot (s : State) : s.freed.partPlot = s.partPlot := rfl
@[simp] theorem State.freed_rdoms (s : State) : s.freed.rdoms = s.rdoms := rfl
@[simp] theorem State.freed_faults (s : State) : s.freed.faults = s.faults := rfl
@[simp] theorem State.freed_throttle (s : State) : s.freed.throttle = s.throttle := rfl
@[simp] theorem State.freed_cfg (s : State) : s.freed.cfg = s.cfg := rfl
@[simp] theorem State.freed_links (s : State) : s.freed.links = s.links := rfl
@[simp] theorem State.freed_dom (s : State) : s.freed.dom = s.dom := rfl
@[simp] theorem State.freed_pair (s : State) : s.freed.pair = s.pair := rfl
@[simp] theorem State.freed_svc (s : State) : s.freed.svc = s.svc := rfl
@[simp] theorem State.freed_host (s : State) : s.freed.host = s.host := rfl
@[simp] theorem State.freed_dig (s : State) : s.freed.dig = s.dig := rfl
@[simp] theorem State.freed_own (s : State) : s.freed.own = s.own := rfl
@[simp] theorem State.freed_otp (s : State) : s.freed.otp = s.otp := rfl
@[simp] theorem State.freed_store (s : State) : s.freed.store = s.store := rfl
@[simp] theorem State.freed_fwu (s : State) : s.freed.fwu = s.fwu := rfl
@[simp] theorem State.freed_lct (s : State) : s.freed.lct = s.lct := rfl
@[simp] theorem State.freed_obs (s : State) : s.freed.obs = s.obs := rfl
@[simp] theorem State.freed_units (s : State) : s.freed.units = s.units := rfl
@[simp] theorem State.freed_kept (s : State) : s.freed.kept = s.kept := rfl
@[simp] theorem State.freed_out (s : State) : s.freed.out = s.out := rfl
@[simp] theorem State.freed_pending (s : State) : s.freed.pending = s.pending := rfl
@[simp] theorem State.freed_part (s : State) (a : Nat) : s.freed.part a = s.part a := rfl
@[simp] theorem State.freed_row (s : State) (a : Nat) : s.freed.row a = s.row a := rfl
@[simp] theorem State.freed_slot (s : State) (a : Nat) : s.freed.slot a = s.slot a := rfl
@[simp] theorem State.freed_lane (s : State) (a : Nat) : s.freed.lane a = s.lane a := rfl
@[simp] theorem State.freed_stepEnt (s : State) (a : Nat) : s.freed.stepEnt a = s.stepEnt a := rfl
@[simp] theorem State.freed_job (s : State) (a : Nat) : s.freed.job a = s.job a := rfl
@[simp] theorem State.freed_port (s : State) (a : Nat) : s.freed.port a = s.port a := rfl
@[simp] theorem State.freed_actr (s : State) (a : Nat) : s.freed.actr a = s.actr a := rfl
@[simp] theorem State.freed_queue (s : State) (a : Nat) : s.freed.queue a = s.queue a := rfl
@[simp] theorem State.freed_chan (s : State) (a : Nat) : s.freed.chan a = s.chan a := rfl
@[simp] theorem State.freed_core (s : State) (a : Nat) : s.freed.core a = s.core a := rfl
@[simp] theorem State.freed_unitOf (s : State) (a b : Nat) : s.freed.unitOf a b = s.unitOf a b := rfl
@[simp] theorem State.freed_otpWord (s : State) (a : Nat) : s.freed.otpWord a = s.otpWord a := rfl
@[simp] theorem State.freed_fld (s : State) (g : Fld) (a b : Nat) : s.freed.fld g a b = s.fld g a b := rfl
@[simp] theorem State.freed_regsOpen (s : State) : s.freed.regsOpen = s.regsOpen := rfl
@[simp] theorem State.freed_ownerPort (s : State) : s.freed.ownerPort = s.ownerPort := rfl
@[simp] theorem State.freed_plots (s : State) : s.freed.plots = s.plots := rfl
@[simp] theorem State.freed_cmd (s : State) (a b : Nat) : s.freed.cmd a b = s.cmd a b := rfl

@[simp] theorem State.setPart_regs (s : State) (p : Nat) (x : Part) : (s.setPart p x).regs = s.regs := rfl
@[simp] theorem State.setPart_life (s : State) (p : Nat) (x : Part) : (s.setPart p x).life = s.life := rfl
@[simp] theorem State.setPart_mem (s : State) (p : Nat) (x : Part) : (s.setPart p x).mem = s.mem := rfl
@[simp] theorem State.setPart_rgn (s : State) (p : Nat) (x : Part) : (s.setPart p x).rgn = s.rgn := rfl
@[simp] theorem State.setPart_stile (s : State) (p : Nat) (x : Part) : (s.setPart p x).stile = s.stile := rfl
@[simp] theorem State.setPart_harrow (s : State) (p : Nat) (x : Part) : (s.setPart p x).harrow = s.harrow := rfl
@[simp] theorem State.setPart_keys (s : State) (p : Nat) (x : Part) : (s.setPart p x).keys = s.keys := rfl
@[simp] theorem State.setPart_partPlot (s : State) (p : Nat) (x : Part) : (s.setPart p x).partPlot = s.partPlot := rfl
@[simp] theorem State.setPart_rdoms (s : State) (p : Nat) (x : Part) : (s.setPart p x).rdoms = s.rdoms := rfl
@[simp] theorem State.setPart_faults (s : State) (p : Nat) (x : Part) : (s.setPart p x).faults = s.faults := rfl
@[simp] theorem State.setPart_throttle (s : State) (p : Nat) (x : Part) : (s.setPart p x).throttle = s.throttle := rfl
@[simp] theorem State.setPart_cfg (s : State) (p : Nat) (x : Part) : (s.setPart p x).cfg = s.cfg := rfl
@[simp] theorem State.setPart_links (s : State) (p : Nat) (x : Part) : (s.setPart p x).links = s.links := rfl
@[simp] theorem State.setPart_dom (s : State) (p : Nat) (x : Part) : (s.setPart p x).dom = s.dom := rfl
@[simp] theorem State.setPart_pair (s : State) (p : Nat) (x : Part) : (s.setPart p x).pair = s.pair := rfl
@[simp] theorem State.setPart_svc (s : State) (p : Nat) (x : Part) : (s.setPart p x).svc = s.svc := rfl
@[simp] theorem State.setPart_host (s : State) (p : Nat) (x : Part) : (s.setPart p x).host = s.host := rfl
@[simp] theorem State.setPart_dig (s : State) (p : Nat) (x : Part) : (s.setPart p x).dig = s.dig := rfl
@[simp] theorem State.setPart_own (s : State) (p : Nat) (x : Part) : (s.setPart p x).own = s.own := rfl
@[simp] theorem State.setPart_otp (s : State) (p : Nat) (x : Part) : (s.setPart p x).otp = s.otp := rfl
@[simp] theorem State.setPart_store (s : State) (p : Nat) (x : Part) : (s.setPart p x).store = s.store := rfl
@[simp] theorem State.setPart_fwu (s : State) (p : Nat) (x : Part) : (s.setPart p x).fwu = s.fwu := rfl
@[simp] theorem State.setPart_lct (s : State) (p : Nat) (x : Part) : (s.setPart p x).lct = s.lct := rfl
@[simp] theorem State.setPart_obs (s : State) (p : Nat) (x : Part) : (s.setPart p x).obs = s.obs := rfl
@[simp] theorem State.setPart_units (s : State) (p : Nat) (x : Part) : (s.setPart p x).units = s.units := rfl
@[simp] theorem State.setPart_kept (s : State) (p : Nat) (x : Part) : (s.setPart p x).kept = s.kept := rfl
@[simp] theorem State.setPart_out (s : State) (p : Nat) (x : Part) : (s.setPart p x).out = s.out := rfl
@[simp] theorem State.setPart_frees (s : State) (p : Nat) (x : Part) : (s.setPart p x).frees = s.frees := rfl
@[simp] theorem State.setPart_pending (s : State) (p : Nat) (x : Part) : (s.setPart p x).pending = s.pending := rfl
@[simp] theorem State.setPart_row (s : State) (p : Nat) (x : Part) (a : Nat) : (s.setPart p x).row a = s.row a := rfl
@[simp] theorem State.setPart_slot (s : State) (p : Nat) (x : Part) (a : Nat) : (s.setPart p x).slot a = s.slot a := rfl
@[simp] theorem State.setPart_lane (s : State) (p : Nat) (x : Part) (a : Nat) : (s.setPart p x).lane a = s.lane a := rfl
@[simp] theorem State.setPart_stepEnt (s : State) (p : Nat) (x : Part) (a : Nat) : (s.setPart p x).stepEnt a = s.stepEnt a := rfl
@[simp] theorem State.setPart_job (s : State) (p : Nat) (x : Part) (a : Nat) : (s.setPart p x).job a = s.job a := rfl
@[simp] theorem State.setPart_port (s : State) (p : Nat) (x : Part) (a : Nat) : (s.setPart p x).port a = s.port a := rfl
@[simp] theorem State.setPart_actr (s : State) (p : Nat) (x : Part) (a : Nat) : (s.setPart p x).actr a = s.actr a := rfl
@[simp] theorem State.setPart_queue (s : State) (p : Nat) (x : Part) (a : Nat) : (s.setPart p x).queue a = s.queue a := rfl
@[simp] theorem State.setPart_chan (s : State) (p : Nat) (x : Part) (a : Nat) : (s.setPart p x).chan a = s.chan a := rfl
@[simp] theorem State.setPart_core (s : State) (p : Nat) (x : Part) (a : Nat) : (s.setPart p x).core a = s.core a := rfl
@[simp] theorem State.setPart_unitOf (s : State) (p : Nat) (x : Part) (a b : Nat) : (s.setPart p x).unitOf a b = s.unitOf a b := rfl
@[simp] theorem State.setPart_otpWord (s : State) (p : Nat) (x : Part) (a : Nat) : (s.setPart p x).otpWord a = s.otpWord a := rfl
@[simp] theorem State.setPart_fld (s : State) (p : Nat) (x : Part) (g : Fld) (a b : Nat) : (s.setPart p x).fld g a b = s.fld g a b := rfl
@[simp] theorem State.setPart_regsOpen (s : State) (p : Nat) (x : Part) : (s.setPart p x).regsOpen = s.regsOpen := rfl
@[simp] theorem State.setPart_ownerPort (s : State) (p : Nat) (x : Part) : (s.setPart p x).ownerPort = s.ownerPort := rfl
@[simp] theorem State.setPart_plots (s : State) (p : Nat) (x : Part) : (s.setPart p x).plots = s.plots := rfl
@[simp] theorem State.setPart_cmd (s : State) (p : Nat) (x : Part) (a b : Nat) : (s.setPart p x).cmd a b = s.cmd a b := rfl

@[simp] theorem State.setRow_regs (s : State) (i : Nat) (x : Region) : (s.setRow i x).regs = s.regs := rfl
@[simp] theorem State.setRow_life (s : State) (i : Nat) (x : Region) : (s.setRow i x).life = s.life := rfl
@[simp] theorem State.setRow_mem (s : State) (i : Nat) (x : Region) : (s.setRow i x).mem = s.mem := rfl
@[simp] theorem State.setRow_stile (s : State) (i : Nat) (x : Region) : (s.setRow i x).stile = s.stile := rfl
@[simp] theorem State.setRow_harrow (s : State) (i : Nat) (x : Region) : (s.setRow i x).harrow = s.harrow := rfl
@[simp] theorem State.setRow_keys (s : State) (i : Nat) (x : Region) : (s.setRow i x).keys = s.keys := rfl
@[simp] theorem State.setRow_parts (s : State) (i : Nat) (x : Region) : (s.setRow i x).parts = s.parts := rfl
@[simp] theorem State.setRow_partPlot (s : State) (i : Nat) (x : Region) : (s.setRow i x).partPlot = s.partPlot := rfl
@[simp] theorem State.setRow_rdoms (s : State) (i : Nat) (x : Region) : (s.setRow i x).rdoms = s.rdoms := rfl
@[simp] theorem State.setRow_faults (s : State) (i : Nat) (x : Region) : (s.setRow i x).faults = s.faults := rfl
@[simp] theorem State.setRow_throttle (s : State) (i : Nat) (x : Region) : (s.setRow i x).throttle = s.throttle := rfl
@[simp] theorem State.setRow_cfg (s : State) (i : Nat) (x : Region) : (s.setRow i x).cfg = s.cfg := rfl
@[simp] theorem State.setRow_links (s : State) (i : Nat) (x : Region) : (s.setRow i x).links = s.links := rfl
@[simp] theorem State.setRow_dom (s : State) (i : Nat) (x : Region) : (s.setRow i x).dom = s.dom := rfl
@[simp] theorem State.setRow_pair (s : State) (i : Nat) (x : Region) : (s.setRow i x).pair = s.pair := rfl
@[simp] theorem State.setRow_svc (s : State) (i : Nat) (x : Region) : (s.setRow i x).svc = s.svc := rfl
@[simp] theorem State.setRow_host (s : State) (i : Nat) (x : Region) : (s.setRow i x).host = s.host := rfl
@[simp] theorem State.setRow_dig (s : State) (i : Nat) (x : Region) : (s.setRow i x).dig = s.dig := rfl
@[simp] theorem State.setRow_own (s : State) (i : Nat) (x : Region) : (s.setRow i x).own = s.own := rfl
@[simp] theorem State.setRow_otp (s : State) (i : Nat) (x : Region) : (s.setRow i x).otp = s.otp := rfl
@[simp] theorem State.setRow_store (s : State) (i : Nat) (x : Region) : (s.setRow i x).store = s.store := rfl
@[simp] theorem State.setRow_fwu (s : State) (i : Nat) (x : Region) : (s.setRow i x).fwu = s.fwu := rfl
@[simp] theorem State.setRow_lct (s : State) (i : Nat) (x : Region) : (s.setRow i x).lct = s.lct := rfl
@[simp] theorem State.setRow_obs (s : State) (i : Nat) (x : Region) : (s.setRow i x).obs = s.obs := rfl
@[simp] theorem State.setRow_units (s : State) (i : Nat) (x : Region) : (s.setRow i x).units = s.units := rfl
@[simp] theorem State.setRow_kept (s : State) (i : Nat) (x : Region) : (s.setRow i x).kept = s.kept := rfl
@[simp] theorem State.setRow_out (s : State) (i : Nat) (x : Region) : (s.setRow i x).out = s.out := rfl
@[simp] theorem State.setRow_frees (s : State) (i : Nat) (x : Region) : (s.setRow i x).frees = s.frees := rfl
@[simp] theorem State.setRow_pending (s : State) (i : Nat) (x : Region) : (s.setRow i x).pending = s.pending := rfl
@[simp] theorem State.setRow_part (s : State) (i : Nat) (x : Region) (a : Nat) : (s.setRow i x).part a = s.part a := rfl
@[simp] theorem State.setRow_slot (s : State) (i : Nat) (x : Region) (a : Nat) : (s.setRow i x).slot a = s.slot a := rfl
@[simp] theorem State.setRow_lane (s : State) (i : Nat) (x : Region) (a : Nat) : (s.setRow i x).lane a = s.lane a := rfl
@[simp] theorem State.setRow_stepEnt (s : State) (i : Nat) (x : Region) (a : Nat) : (s.setRow i x).stepEnt a = s.stepEnt a := rfl
@[simp] theorem State.setRow_job (s : State) (i : Nat) (x : Region) (a : Nat) : (s.setRow i x).job a = s.job a := rfl
@[simp] theorem State.setRow_port (s : State) (i : Nat) (x : Region) (a : Nat) : (s.setRow i x).port a = s.port a := rfl
@[simp] theorem State.setRow_actr (s : State) (i : Nat) (x : Region) (a : Nat) : (s.setRow i x).actr a = s.actr a := rfl
@[simp] theorem State.setRow_queue (s : State) (i : Nat) (x : Region) (a : Nat) : (s.setRow i x).queue a = s.queue a := rfl
@[simp] theorem State.setRow_chan (s : State) (i : Nat) (x : Region) (a : Nat) : (s.setRow i x).chan a = s.chan a := rfl
@[simp] theorem State.setRow_core (s : State) (i : Nat) (x : Region) (a : Nat) : (s.setRow i x).core a = s.core a := rfl
@[simp] theorem State.setRow_unitOf (s : State) (i : Nat) (x : Region) (a b : Nat) : (s.setRow i x).unitOf a b = s.unitOf a b := rfl
@[simp] theorem State.setRow_otpWord (s : State) (i : Nat) (x : Region) (a : Nat) : (s.setRow i x).otpWord a = s.otpWord a := rfl
@[simp] theorem State.setRow_fld (s : State) (i : Nat) (x : Region) (g : Fld) (a b : Nat) : (s.setRow i x).fld g a b = s.fld g a b := rfl
@[simp] theorem State.setRow_regsOpen (s : State) (i : Nat) (x : Region) : (s.setRow i x).regsOpen = s.regsOpen := rfl
@[simp] theorem State.setRow_ownerPort (s : State) (i : Nat) (x : Region) : (s.setRow i x).ownerPort = s.ownerPort := rfl
@[simp] theorem State.setRow_plots (s : State) (i : Nat) (x : Region) : (s.setRow i x).plots = s.plots := rfl
@[simp] theorem State.setRow_cmd (s : State) (i : Nat) (x : Region) (a b : Nat) : (s.setRow i x).cmd a b = s.cmd a b := rfl

@[simp] theorem State.setSlot_regs (s : State) (k : Nat) (x : Slot) : (s.setSlot k x).regs = s.regs := rfl
@[simp] theorem State.setSlot_life (s : State) (k : Nat) (x : Slot) : (s.setSlot k x).life = s.life := rfl
@[simp] theorem State.setSlot_mem (s : State) (k : Nat) (x : Slot) : (s.setSlot k x).mem = s.mem := rfl
@[simp] theorem State.setSlot_rgn (s : State) (k : Nat) (x : Slot) : (s.setSlot k x).rgn = s.rgn := rfl
@[simp] theorem State.setSlot_stile (s : State) (k : Nat) (x : Slot) : (s.setSlot k x).stile = s.stile := rfl
@[simp] theorem State.setSlot_harrow (s : State) (k : Nat) (x : Slot) : (s.setSlot k x).harrow = s.harrow := rfl
@[simp] theorem State.setSlot_parts (s : State) (k : Nat) (x : Slot) : (s.setSlot k x).parts = s.parts := rfl
@[simp] theorem State.setSlot_partPlot (s : State) (k : Nat) (x : Slot) : (s.setSlot k x).partPlot = s.partPlot := rfl
@[simp] theorem State.setSlot_rdoms (s : State) (k : Nat) (x : Slot) : (s.setSlot k x).rdoms = s.rdoms := rfl
@[simp] theorem State.setSlot_faults (s : State) (k : Nat) (x : Slot) : (s.setSlot k x).faults = s.faults := rfl
@[simp] theorem State.setSlot_throttle (s : State) (k : Nat) (x : Slot) : (s.setSlot k x).throttle = s.throttle := rfl
@[simp] theorem State.setSlot_cfg (s : State) (k : Nat) (x : Slot) : (s.setSlot k x).cfg = s.cfg := rfl
@[simp] theorem State.setSlot_links (s : State) (k : Nat) (x : Slot) : (s.setSlot k x).links = s.links := rfl
@[simp] theorem State.setSlot_dom (s : State) (k : Nat) (x : Slot) : (s.setSlot k x).dom = s.dom := rfl
@[simp] theorem State.setSlot_pair (s : State) (k : Nat) (x : Slot) : (s.setSlot k x).pair = s.pair := rfl
@[simp] theorem State.setSlot_svc (s : State) (k : Nat) (x : Slot) : (s.setSlot k x).svc = s.svc := rfl
@[simp] theorem State.setSlot_host (s : State) (k : Nat) (x : Slot) : (s.setSlot k x).host = s.host := rfl
@[simp] theorem State.setSlot_dig (s : State) (k : Nat) (x : Slot) : (s.setSlot k x).dig = s.dig := rfl
@[simp] theorem State.setSlot_own (s : State) (k : Nat) (x : Slot) : (s.setSlot k x).own = s.own := rfl
@[simp] theorem State.setSlot_otp (s : State) (k : Nat) (x : Slot) : (s.setSlot k x).otp = s.otp := rfl
@[simp] theorem State.setSlot_store (s : State) (k : Nat) (x : Slot) : (s.setSlot k x).store = s.store := rfl
@[simp] theorem State.setSlot_fwu (s : State) (k : Nat) (x : Slot) : (s.setSlot k x).fwu = s.fwu := rfl
@[simp] theorem State.setSlot_lct (s : State) (k : Nat) (x : Slot) : (s.setSlot k x).lct = s.lct := rfl
@[simp] theorem State.setSlot_obs (s : State) (k : Nat) (x : Slot) : (s.setSlot k x).obs = s.obs := rfl
@[simp] theorem State.setSlot_units (s : State) (k : Nat) (x : Slot) : (s.setSlot k x).units = s.units := rfl
@[simp] theorem State.setSlot_kept (s : State) (k : Nat) (x : Slot) : (s.setSlot k x).kept = s.kept := rfl
@[simp] theorem State.setSlot_out (s : State) (k : Nat) (x : Slot) : (s.setSlot k x).out = s.out := rfl
@[simp] theorem State.setSlot_frees (s : State) (k : Nat) (x : Slot) : (s.setSlot k x).frees = s.frees := rfl
@[simp] theorem State.setSlot_pending (s : State) (k : Nat) (x : Slot) : (s.setSlot k x).pending = s.pending := rfl
@[simp] theorem State.setSlot_part (s : State) (k : Nat) (x : Slot) (a : Nat) : (s.setSlot k x).part a = s.part a := rfl
@[simp] theorem State.setSlot_row (s : State) (k : Nat) (x : Slot) (a : Nat) : (s.setSlot k x).row a = s.row a := rfl
@[simp] theorem State.setSlot_lane (s : State) (k : Nat) (x : Slot) (a : Nat) : (s.setSlot k x).lane a = s.lane a := rfl
@[simp] theorem State.setSlot_stepEnt (s : State) (k : Nat) (x : Slot) (a : Nat) : (s.setSlot k x).stepEnt a = s.stepEnt a := rfl
@[simp] theorem State.setSlot_job (s : State) (k : Nat) (x : Slot) (a : Nat) : (s.setSlot k x).job a = s.job a := rfl
@[simp] theorem State.setSlot_port (s : State) (k : Nat) (x : Slot) (a : Nat) : (s.setSlot k x).port a = s.port a := rfl
@[simp] theorem State.setSlot_actr (s : State) (k : Nat) (x : Slot) (a : Nat) : (s.setSlot k x).actr a = s.actr a := rfl
@[simp] theorem State.setSlot_queue (s : State) (k : Nat) (x : Slot) (a : Nat) : (s.setSlot k x).queue a = s.queue a := rfl
@[simp] theorem State.setSlot_chan (s : State) (k : Nat) (x : Slot) (a : Nat) : (s.setSlot k x).chan a = s.chan a := rfl
@[simp] theorem State.setSlot_core (s : State) (k : Nat) (x : Slot) (a : Nat) : (s.setSlot k x).core a = s.core a := rfl
@[simp] theorem State.setSlot_unitOf (s : State) (k : Nat) (x : Slot) (a b : Nat) : (s.setSlot k x).unitOf a b = s.unitOf a b := rfl
@[simp] theorem State.setSlot_otpWord (s : State) (k : Nat) (x : Slot) (a : Nat) : (s.setSlot k x).otpWord a = s.otpWord a := rfl
@[simp] theorem State.setSlot_fld (s : State) (k : Nat) (x : Slot) (g : Fld) (a b : Nat) : (s.setSlot k x).fld g a b = s.fld g a b := rfl
@[simp] theorem State.setSlot_regsOpen (s : State) (k : Nat) (x : Slot) : (s.setSlot k x).regsOpen = s.regsOpen := rfl
@[simp] theorem State.setSlot_ownerPort (s : State) (k : Nat) (x : Slot) : (s.setSlot k x).ownerPort = s.ownerPort := rfl
@[simp] theorem State.setSlot_plots (s : State) (k : Nat) (x : Slot) : (s.setSlot k x).plots = s.plots := rfl
@[simp] theorem State.setSlot_cmd (s : State) (k : Nat) (x : Slot) (a b : Nat) : (s.setSlot k x).cmd a b = s.cmd a b := rfl

@[simp] theorem State.setLane_regs (s : State) (n : Nat) (x : Lane) : (s.setLane n x).regs = s.regs := rfl
@[simp] theorem State.setLane_life (s : State) (n : Nat) (x : Lane) : (s.setLane n x).life = s.life := rfl
@[simp] theorem State.setLane_rgn (s : State) (n : Nat) (x : Lane) : (s.setLane n x).rgn = s.rgn := rfl
@[simp] theorem State.setLane_stile (s : State) (n : Nat) (x : Lane) : (s.setLane n x).stile = s.stile := rfl
@[simp] theorem State.setLane_harrow (s : State) (n : Nat) (x : Lane) : (s.setLane n x).harrow = s.harrow := rfl
@[simp] theorem State.setLane_keys (s : State) (n : Nat) (x : Lane) : (s.setLane n x).keys = s.keys := rfl
@[simp] theorem State.setLane_parts (s : State) (n : Nat) (x : Lane) : (s.setLane n x).parts = s.parts := rfl
@[simp] theorem State.setLane_partPlot (s : State) (n : Nat) (x : Lane) : (s.setLane n x).partPlot = s.partPlot := rfl
@[simp] theorem State.setLane_rdoms (s : State) (n : Nat) (x : Lane) : (s.setLane n x).rdoms = s.rdoms := rfl
@[simp] theorem State.setLane_faults (s : State) (n : Nat) (x : Lane) : (s.setLane n x).faults = s.faults := rfl
@[simp] theorem State.setLane_throttle (s : State) (n : Nat) (x : Lane) : (s.setLane n x).throttle = s.throttle := rfl
@[simp] theorem State.setLane_cfg (s : State) (n : Nat) (x : Lane) : (s.setLane n x).cfg = s.cfg := rfl
@[simp] theorem State.setLane_links (s : State) (n : Nat) (x : Lane) : (s.setLane n x).links = s.links := rfl
@[simp] theorem State.setLane_dom (s : State) (n : Nat) (x : Lane) : (s.setLane n x).dom = s.dom := rfl
@[simp] theorem State.setLane_pair (s : State) (n : Nat) (x : Lane) : (s.setLane n x).pair = s.pair := rfl
@[simp] theorem State.setLane_svc (s : State) (n : Nat) (x : Lane) : (s.setLane n x).svc = s.svc := rfl
@[simp] theorem State.setLane_host (s : State) (n : Nat) (x : Lane) : (s.setLane n x).host = s.host := rfl
@[simp] theorem State.setLane_dig (s : State) (n : Nat) (x : Lane) : (s.setLane n x).dig = s.dig := rfl
@[simp] theorem State.setLane_own (s : State) (n : Nat) (x : Lane) : (s.setLane n x).own = s.own := rfl
@[simp] theorem State.setLane_otp (s : State) (n : Nat) (x : Lane) : (s.setLane n x).otp = s.otp := rfl
@[simp] theorem State.setLane_store (s : State) (n : Nat) (x : Lane) : (s.setLane n x).store = s.store := rfl
@[simp] theorem State.setLane_fwu (s : State) (n : Nat) (x : Lane) : (s.setLane n x).fwu = s.fwu := rfl
@[simp] theorem State.setLane_lct (s : State) (n : Nat) (x : Lane) : (s.setLane n x).lct = s.lct := rfl
@[simp] theorem State.setLane_obs (s : State) (n : Nat) (x : Lane) : (s.setLane n x).obs = s.obs := rfl
@[simp] theorem State.setLane_units (s : State) (n : Nat) (x : Lane) : (s.setLane n x).units = s.units := rfl
@[simp] theorem State.setLane_kept (s : State) (n : Nat) (x : Lane) : (s.setLane n x).kept = s.kept := rfl
@[simp] theorem State.setLane_out (s : State) (n : Nat) (x : Lane) : (s.setLane n x).out = s.out := rfl
@[simp] theorem State.setLane_frees (s : State) (n : Nat) (x : Lane) : (s.setLane n x).frees = s.frees := rfl
@[simp] theorem State.setLane_pending (s : State) (n : Nat) (x : Lane) : (s.setLane n x).pending = s.pending := rfl
@[simp] theorem State.setLane_part (s : State) (n : Nat) (x : Lane) (a : Nat) : (s.setLane n x).part a = s.part a := rfl
@[simp] theorem State.setLane_row (s : State) (n : Nat) (x : Lane) (a : Nat) : (s.setLane n x).row a = s.row a := rfl
@[simp] theorem State.setLane_slot (s : State) (n : Nat) (x : Lane) (a : Nat) : (s.setLane n x).slot a = s.slot a := rfl
@[simp] theorem State.setLane_stepEnt (s : State) (n : Nat) (x : Lane) (a : Nat) : (s.setLane n x).stepEnt a = s.stepEnt a := rfl
@[simp] theorem State.setLane_job (s : State) (n : Nat) (x : Lane) (a : Nat) : (s.setLane n x).job a = s.job a := rfl
@[simp] theorem State.setLane_port (s : State) (n : Nat) (x : Lane) (a : Nat) : (s.setLane n x).port a = s.port a := rfl
@[simp] theorem State.setLane_actr (s : State) (n : Nat) (x : Lane) (a : Nat) : (s.setLane n x).actr a = s.actr a := rfl
@[simp] theorem State.setLane_queue (s : State) (n : Nat) (x : Lane) (a : Nat) : (s.setLane n x).queue a = s.queue a := rfl
@[simp] theorem State.setLane_chan (s : State) (n : Nat) (x : Lane) (a : Nat) : (s.setLane n x).chan a = s.chan a := rfl
@[simp] theorem State.setLane_core (s : State) (n : Nat) (x : Lane) (a : Nat) : (s.setLane n x).core a = s.core a := rfl
@[simp] theorem State.setLane_unitOf (s : State) (n : Nat) (x : Lane) (a b : Nat) : (s.setLane n x).unitOf a b = s.unitOf a b := rfl
@[simp] theorem State.setLane_otpWord (s : State) (n : Nat) (x : Lane) (a : Nat) : (s.setLane n x).otpWord a = s.otpWord a := rfl
@[simp] theorem State.setLane_fld (s : State) (n : Nat) (x : Lane) (g : Fld) (a b : Nat) : (s.setLane n x).fld g a b = s.fld g a b := rfl
@[simp] theorem State.setLane_regsOpen (s : State) (n : Nat) (x : Lane) : (s.setLane n x).regsOpen = s.regsOpen := rfl
@[simp] theorem State.setLane_ownerPort (s : State) (n : Nat) (x : Lane) : (s.setLane n x).ownerPort = s.ownerPort := rfl
@[simp] theorem State.setLane_plots (s : State) (n : Nat) (x : Lane) : (s.setLane n x).plots = s.plots := rfl
@[simp] theorem State.setLane_cmd (s : State) (n : Nat) (x : Lane) (a b : Nat) : (s.setLane n x).cmd a b = s.cmd a b := rfl

@[simp] theorem State.setStepEnt_regs (s : State) (t : Nat) (x : StepEnt) : (s.setStepEnt t x).regs = s.regs := rfl
@[simp] theorem State.setStepEnt_life (s : State) (t : Nat) (x : StepEnt) : (s.setStepEnt t x).life = s.life := rfl
@[simp] theorem State.setStepEnt_mem (s : State) (t : Nat) (x : StepEnt) : (s.setStepEnt t x).mem = s.mem := rfl
@[simp] theorem State.setStepEnt_rgn (s : State) (t : Nat) (x : StepEnt) : (s.setStepEnt t x).rgn = s.rgn := rfl
@[simp] theorem State.setStepEnt_harrow (s : State) (t : Nat) (x : StepEnt) : (s.setStepEnt t x).harrow = s.harrow := rfl
@[simp] theorem State.setStepEnt_keys (s : State) (t : Nat) (x : StepEnt) : (s.setStepEnt t x).keys = s.keys := rfl
@[simp] theorem State.setStepEnt_parts (s : State) (t : Nat) (x : StepEnt) : (s.setStepEnt t x).parts = s.parts := rfl
@[simp] theorem State.setStepEnt_partPlot (s : State) (t : Nat) (x : StepEnt) : (s.setStepEnt t x).partPlot = s.partPlot := rfl
@[simp] theorem State.setStepEnt_rdoms (s : State) (t : Nat) (x : StepEnt) : (s.setStepEnt t x).rdoms = s.rdoms := rfl
@[simp] theorem State.setStepEnt_faults (s : State) (t : Nat) (x : StepEnt) : (s.setStepEnt t x).faults = s.faults := rfl
@[simp] theorem State.setStepEnt_throttle (s : State) (t : Nat) (x : StepEnt) : (s.setStepEnt t x).throttle = s.throttle := rfl
@[simp] theorem State.setStepEnt_cfg (s : State) (t : Nat) (x : StepEnt) : (s.setStepEnt t x).cfg = s.cfg := rfl
@[simp] theorem State.setStepEnt_links (s : State) (t : Nat) (x : StepEnt) : (s.setStepEnt t x).links = s.links := rfl
@[simp] theorem State.setStepEnt_dom (s : State) (t : Nat) (x : StepEnt) : (s.setStepEnt t x).dom = s.dom := rfl
@[simp] theorem State.setStepEnt_pair (s : State) (t : Nat) (x : StepEnt) : (s.setStepEnt t x).pair = s.pair := rfl
@[simp] theorem State.setStepEnt_svc (s : State) (t : Nat) (x : StepEnt) : (s.setStepEnt t x).svc = s.svc := rfl
@[simp] theorem State.setStepEnt_host (s : State) (t : Nat) (x : StepEnt) : (s.setStepEnt t x).host = s.host := rfl
@[simp] theorem State.setStepEnt_dig (s : State) (t : Nat) (x : StepEnt) : (s.setStepEnt t x).dig = s.dig := rfl
@[simp] theorem State.setStepEnt_own (s : State) (t : Nat) (x : StepEnt) : (s.setStepEnt t x).own = s.own := rfl
@[simp] theorem State.setStepEnt_otp (s : State) (t : Nat) (x : StepEnt) : (s.setStepEnt t x).otp = s.otp := rfl
@[simp] theorem State.setStepEnt_store (s : State) (t : Nat) (x : StepEnt) : (s.setStepEnt t x).store = s.store := rfl
@[simp] theorem State.setStepEnt_fwu (s : State) (t : Nat) (x : StepEnt) : (s.setStepEnt t x).fwu = s.fwu := rfl
@[simp] theorem State.setStepEnt_lct (s : State) (t : Nat) (x : StepEnt) : (s.setStepEnt t x).lct = s.lct := rfl
@[simp] theorem State.setStepEnt_obs (s : State) (t : Nat) (x : StepEnt) : (s.setStepEnt t x).obs = s.obs := rfl
@[simp] theorem State.setStepEnt_units (s : State) (t : Nat) (x : StepEnt) : (s.setStepEnt t x).units = s.units := rfl
@[simp] theorem State.setStepEnt_kept (s : State) (t : Nat) (x : StepEnt) : (s.setStepEnt t x).kept = s.kept := rfl
@[simp] theorem State.setStepEnt_out (s : State) (t : Nat) (x : StepEnt) : (s.setStepEnt t x).out = s.out := rfl
@[simp] theorem State.setStepEnt_frees (s : State) (t : Nat) (x : StepEnt) : (s.setStepEnt t x).frees = s.frees := rfl
@[simp] theorem State.setStepEnt_pending (s : State) (t : Nat) (x : StepEnt) : (s.setStepEnt t x).pending = s.pending := rfl
@[simp] theorem State.setStepEnt_part (s : State) (t : Nat) (x : StepEnt) (a : Nat) : (s.setStepEnt t x).part a = s.part a := rfl
@[simp] theorem State.setStepEnt_row (s : State) (t : Nat) (x : StepEnt) (a : Nat) : (s.setStepEnt t x).row a = s.row a := rfl
@[simp] theorem State.setStepEnt_slot (s : State) (t : Nat) (x : StepEnt) (a : Nat) : (s.setStepEnt t x).slot a = s.slot a := rfl
@[simp] theorem State.setStepEnt_lane (s : State) (t : Nat) (x : StepEnt) (a : Nat) : (s.setStepEnt t x).lane a = s.lane a := rfl
@[simp] theorem State.setStepEnt_job (s : State) (t : Nat) (x : StepEnt) (a : Nat) : (s.setStepEnt t x).job a = s.job a := rfl
@[simp] theorem State.setStepEnt_port (s : State) (t : Nat) (x : StepEnt) (a : Nat) : (s.setStepEnt t x).port a = s.port a := rfl
@[simp] theorem State.setStepEnt_actr (s : State) (t : Nat) (x : StepEnt) (a : Nat) : (s.setStepEnt t x).actr a = s.actr a := rfl
@[simp] theorem State.setStepEnt_queue (s : State) (t : Nat) (x : StepEnt) (a : Nat) : (s.setStepEnt t x).queue a = s.queue a := rfl
@[simp] theorem State.setStepEnt_chan (s : State) (t : Nat) (x : StepEnt) (a : Nat) : (s.setStepEnt t x).chan a = s.chan a := rfl
@[simp] theorem State.setStepEnt_core (s : State) (t : Nat) (x : StepEnt) (a : Nat) : (s.setStepEnt t x).core a = s.core a := rfl
@[simp] theorem State.setStepEnt_unitOf (s : State) (t : Nat) (x : StepEnt) (a b : Nat) : (s.setStepEnt t x).unitOf a b = s.unitOf a b := rfl
@[simp] theorem State.setStepEnt_otpWord (s : State) (t : Nat) (x : StepEnt) (a : Nat) : (s.setStepEnt t x).otpWord a = s.otpWord a := rfl
@[simp] theorem State.setStepEnt_fld (s : State) (t : Nat) (x : StepEnt) (g : Fld) (a b : Nat) : (s.setStepEnt t x).fld g a b = s.fld g a b := rfl
@[simp] theorem State.setStepEnt_regsOpen (s : State) (t : Nat) (x : StepEnt) : (s.setStepEnt t x).regsOpen = s.regsOpen := rfl
@[simp] theorem State.setStepEnt_ownerPort (s : State) (t : Nat) (x : StepEnt) : (s.setStepEnt t x).ownerPort = s.ownerPort := rfl
@[simp] theorem State.setStepEnt_plots (s : State) (t : Nat) (x : StepEnt) : (s.setStepEnt t x).plots = s.plots := rfl
@[simp] theorem State.setStepEnt_cmd (s : State) (t : Nat) (x : StepEnt) (a b : Nat) : (s.setStepEnt t x).cmd a b = s.cmd a b := rfl

@[simp] theorem State.setJob_regs (s : State) (j : Nat) (x : Job) : (s.setJob j x).regs = s.regs := rfl
@[simp] theorem State.setJob_life (s : State) (j : Nat) (x : Job) : (s.setJob j x).life = s.life := rfl
@[simp] theorem State.setJob_mem (s : State) (j : Nat) (x : Job) : (s.setJob j x).mem = s.mem := rfl
@[simp] theorem State.setJob_rgn (s : State) (j : Nat) (x : Job) : (s.setJob j x).rgn = s.rgn := rfl
@[simp] theorem State.setJob_stile (s : State) (j : Nat) (x : Job) : (s.setJob j x).stile = s.stile := rfl
@[simp] theorem State.setJob_keys (s : State) (j : Nat) (x : Job) : (s.setJob j x).keys = s.keys := rfl
@[simp] theorem State.setJob_parts (s : State) (j : Nat) (x : Job) : (s.setJob j x).parts = s.parts := rfl
@[simp] theorem State.setJob_partPlot (s : State) (j : Nat) (x : Job) : (s.setJob j x).partPlot = s.partPlot := rfl
@[simp] theorem State.setJob_rdoms (s : State) (j : Nat) (x : Job) : (s.setJob j x).rdoms = s.rdoms := rfl
@[simp] theorem State.setJob_faults (s : State) (j : Nat) (x : Job) : (s.setJob j x).faults = s.faults := rfl
@[simp] theorem State.setJob_throttle (s : State) (j : Nat) (x : Job) : (s.setJob j x).throttle = s.throttle := rfl
@[simp] theorem State.setJob_cfg (s : State) (j : Nat) (x : Job) : (s.setJob j x).cfg = s.cfg := rfl
@[simp] theorem State.setJob_links (s : State) (j : Nat) (x : Job) : (s.setJob j x).links = s.links := rfl
@[simp] theorem State.setJob_dom (s : State) (j : Nat) (x : Job) : (s.setJob j x).dom = s.dom := rfl
@[simp] theorem State.setJob_pair (s : State) (j : Nat) (x : Job) : (s.setJob j x).pair = s.pair := rfl
@[simp] theorem State.setJob_svc (s : State) (j : Nat) (x : Job) : (s.setJob j x).svc = s.svc := rfl
@[simp] theorem State.setJob_host (s : State) (j : Nat) (x : Job) : (s.setJob j x).host = s.host := rfl
@[simp] theorem State.setJob_dig (s : State) (j : Nat) (x : Job) : (s.setJob j x).dig = s.dig := rfl
@[simp] theorem State.setJob_own (s : State) (j : Nat) (x : Job) : (s.setJob j x).own = s.own := rfl
@[simp] theorem State.setJob_otp (s : State) (j : Nat) (x : Job) : (s.setJob j x).otp = s.otp := rfl
@[simp] theorem State.setJob_store (s : State) (j : Nat) (x : Job) : (s.setJob j x).store = s.store := rfl
@[simp] theorem State.setJob_fwu (s : State) (j : Nat) (x : Job) : (s.setJob j x).fwu = s.fwu := rfl
@[simp] theorem State.setJob_lct (s : State) (j : Nat) (x : Job) : (s.setJob j x).lct = s.lct := rfl
@[simp] theorem State.setJob_obs (s : State) (j : Nat) (x : Job) : (s.setJob j x).obs = s.obs := rfl
@[simp] theorem State.setJob_units (s : State) (j : Nat) (x : Job) : (s.setJob j x).units = s.units := rfl
@[simp] theorem State.setJob_kept (s : State) (j : Nat) (x : Job) : (s.setJob j x).kept = s.kept := rfl
@[simp] theorem State.setJob_out (s : State) (j : Nat) (x : Job) : (s.setJob j x).out = s.out := rfl
@[simp] theorem State.setJob_frees (s : State) (j : Nat) (x : Job) : (s.setJob j x).frees = s.frees := rfl
@[simp] theorem State.setJob_pending (s : State) (j : Nat) (x : Job) : (s.setJob j x).pending = s.pending := rfl
@[simp] theorem State.setJob_part (s : State) (j : Nat) (x : Job) (a : Nat) : (s.setJob j x).part a = s.part a := rfl
@[simp] theorem State.setJob_row (s : State) (j : Nat) (x : Job) (a : Nat) : (s.setJob j x).row a = s.row a := rfl
@[simp] theorem State.setJob_slot (s : State) (j : Nat) (x : Job) (a : Nat) : (s.setJob j x).slot a = s.slot a := rfl
@[simp] theorem State.setJob_lane (s : State) (j : Nat) (x : Job) (a : Nat) : (s.setJob j x).lane a = s.lane a := rfl
@[simp] theorem State.setJob_stepEnt (s : State) (j : Nat) (x : Job) (a : Nat) : (s.setJob j x).stepEnt a = s.stepEnt a := rfl
@[simp] theorem State.setJob_port (s : State) (j : Nat) (x : Job) (a : Nat) : (s.setJob j x).port a = s.port a := rfl
@[simp] theorem State.setJob_actr (s : State) (j : Nat) (x : Job) (a : Nat) : (s.setJob j x).actr a = s.actr a := rfl
@[simp] theorem State.setJob_queue (s : State) (j : Nat) (x : Job) (a : Nat) : (s.setJob j x).queue a = s.queue a := rfl
@[simp] theorem State.setJob_chan (s : State) (j : Nat) (x : Job) (a : Nat) : (s.setJob j x).chan a = s.chan a := rfl
@[simp] theorem State.setJob_core (s : State) (j : Nat) (x : Job) (a : Nat) : (s.setJob j x).core a = s.core a := rfl
@[simp] theorem State.setJob_unitOf (s : State) (j : Nat) (x : Job) (a b : Nat) : (s.setJob j x).unitOf a b = s.unitOf a b := rfl
@[simp] theorem State.setJob_otpWord (s : State) (j : Nat) (x : Job) (a : Nat) : (s.setJob j x).otpWord a = s.otpWord a := rfl
@[simp] theorem State.setJob_fld (s : State) (j : Nat) (x : Job) (g : Fld) (a b : Nat) : (s.setJob j x).fld g a b = s.fld g a b := rfl
@[simp] theorem State.setJob_regsOpen (s : State) (j : Nat) (x : Job) : (s.setJob j x).regsOpen = s.regsOpen := rfl
@[simp] theorem State.setJob_ownerPort (s : State) (j : Nat) (x : Job) : (s.setJob j x).ownerPort = s.ownerPort := rfl
@[simp] theorem State.setJob_plots (s : State) (j : Nat) (x : Job) : (s.setJob j x).plots = s.plots := rfl
@[simp] theorem State.setJob_cmd (s : State) (j : Nat) (x : Job) (a b : Nat) : (s.setJob j x).cmd a b = s.cmd a b := rfl

@[simp] theorem State.setPort_regs (s : State) (n : Nat) (x : Port) : (s.setPort n x).regs = s.regs := rfl
@[simp] theorem State.setPort_life (s : State) (n : Nat) (x : Port) : (s.setPort n x).life = s.life := rfl
@[simp] theorem State.setPort_mem (s : State) (n : Nat) (x : Port) : (s.setPort n x).mem = s.mem := rfl
@[simp] theorem State.setPort_rgn (s : State) (n : Nat) (x : Port) : (s.setPort n x).rgn = s.rgn := rfl
@[simp] theorem State.setPort_stile (s : State) (n : Nat) (x : Port) : (s.setPort n x).stile = s.stile := rfl
@[simp] theorem State.setPort_harrow (s : State) (n : Nat) (x : Port) : (s.setPort n x).harrow = s.harrow := rfl
@[simp] theorem State.setPort_keys (s : State) (n : Nat) (x : Port) : (s.setPort n x).keys = s.keys := rfl
@[simp] theorem State.setPort_parts (s : State) (n : Nat) (x : Port) : (s.setPort n x).parts = s.parts := rfl
@[simp] theorem State.setPort_partPlot (s : State) (n : Nat) (x : Port) : (s.setPort n x).partPlot = s.partPlot := rfl
@[simp] theorem State.setPort_rdoms (s : State) (n : Nat) (x : Port) : (s.setPort n x).rdoms = s.rdoms := rfl
@[simp] theorem State.setPort_faults (s : State) (n : Nat) (x : Port) : (s.setPort n x).faults = s.faults := rfl
@[simp] theorem State.setPort_throttle (s : State) (n : Nat) (x : Port) : (s.setPort n x).throttle = s.throttle := rfl
@[simp] theorem State.setPort_cfg (s : State) (n : Nat) (x : Port) : (s.setPort n x).cfg = s.cfg := rfl
@[simp] theorem State.setPort_dom (s : State) (n : Nat) (x : Port) : (s.setPort n x).dom = s.dom := rfl
@[simp] theorem State.setPort_pair (s : State) (n : Nat) (x : Port) : (s.setPort n x).pair = s.pair := rfl
@[simp] theorem State.setPort_svc (s : State) (n : Nat) (x : Port) : (s.setPort n x).svc = s.svc := rfl
@[simp] theorem State.setPort_host (s : State) (n : Nat) (x : Port) : (s.setPort n x).host = s.host := rfl
@[simp] theorem State.setPort_dig (s : State) (n : Nat) (x : Port) : (s.setPort n x).dig = s.dig := rfl
@[simp] theorem State.setPort_own (s : State) (n : Nat) (x : Port) : (s.setPort n x).own = s.own := rfl
@[simp] theorem State.setPort_otp (s : State) (n : Nat) (x : Port) : (s.setPort n x).otp = s.otp := rfl
@[simp] theorem State.setPort_store (s : State) (n : Nat) (x : Port) : (s.setPort n x).store = s.store := rfl
@[simp] theorem State.setPort_fwu (s : State) (n : Nat) (x : Port) : (s.setPort n x).fwu = s.fwu := rfl
@[simp] theorem State.setPort_lct (s : State) (n : Nat) (x : Port) : (s.setPort n x).lct = s.lct := rfl
@[simp] theorem State.setPort_obs (s : State) (n : Nat) (x : Port) : (s.setPort n x).obs = s.obs := rfl
@[simp] theorem State.setPort_units (s : State) (n : Nat) (x : Port) : (s.setPort n x).units = s.units := rfl
@[simp] theorem State.setPort_kept (s : State) (n : Nat) (x : Port) : (s.setPort n x).kept = s.kept := rfl
@[simp] theorem State.setPort_out (s : State) (n : Nat) (x : Port) : (s.setPort n x).out = s.out := rfl
@[simp] theorem State.setPort_frees (s : State) (n : Nat) (x : Port) : (s.setPort n x).frees = s.frees := rfl
@[simp] theorem State.setPort_pending (s : State) (n : Nat) (x : Port) : (s.setPort n x).pending = s.pending := rfl
@[simp] theorem State.setPort_part (s : State) (n : Nat) (x : Port) (a : Nat) : (s.setPort n x).part a = s.part a := rfl
@[simp] theorem State.setPort_row (s : State) (n : Nat) (x : Port) (a : Nat) : (s.setPort n x).row a = s.row a := rfl
@[simp] theorem State.setPort_slot (s : State) (n : Nat) (x : Port) (a : Nat) : (s.setPort n x).slot a = s.slot a := rfl
@[simp] theorem State.setPort_lane (s : State) (n : Nat) (x : Port) (a : Nat) : (s.setPort n x).lane a = s.lane a := rfl
@[simp] theorem State.setPort_stepEnt (s : State) (n : Nat) (x : Port) (a : Nat) : (s.setPort n x).stepEnt a = s.stepEnt a := rfl
@[simp] theorem State.setPort_job (s : State) (n : Nat) (x : Port) (a : Nat) : (s.setPort n x).job a = s.job a := rfl
@[simp] theorem State.setPort_queue (s : State) (n : Nat) (x : Port) (a : Nat) : (s.setPort n x).queue a = s.queue a := rfl
@[simp] theorem State.setPort_chan (s : State) (n : Nat) (x : Port) (a : Nat) : (s.setPort n x).chan a = s.chan a := rfl
@[simp] theorem State.setPort_core (s : State) (n : Nat) (x : Port) (a : Nat) : (s.setPort n x).core a = s.core a := rfl
@[simp] theorem State.setPort_unitOf (s : State) (n : Nat) (x : Port) (a b : Nat) : (s.setPort n x).unitOf a b = s.unitOf a b := rfl
@[simp] theorem State.setPort_otpWord (s : State) (n : Nat) (x : Port) (a : Nat) : (s.setPort n x).otpWord a = s.otpWord a := rfl
@[simp] theorem State.setPort_fld (s : State) (n : Nat) (x : Port) (g : Fld) (a b : Nat) : (s.setPort n x).fld g a b = s.fld g a b := rfl
@[simp] theorem State.setPort_regsOpen (s : State) (n : Nat) (x : Port) : (s.setPort n x).regsOpen = s.regsOpen := rfl
@[simp] theorem State.setPort_ownerPort (s : State) (n : Nat) (x : Port) : (s.setPort n x).ownerPort = s.ownerPort := rfl
@[simp] theorem State.setPort_plots (s : State) (n : Nat) (x : Port) : (s.setPort n x).plots = s.plots := rfl
@[simp] theorem State.setPort_cmd (s : State) (n : Nat) (x : Port) (a b : Nat) : (s.setPort n x).cmd a b = s.cmd a b := rfl

@[simp] theorem State.setActr_regs (s : State) (i : Nat) (x : Actr) : (s.setActr i x).regs = s.regs := rfl
@[simp] theorem State.setActr_life (s : State) (i : Nat) (x : Actr) : (s.setActr i x).life = s.life := rfl
@[simp] theorem State.setActr_mem (s : State) (i : Nat) (x : Actr) : (s.setActr i x).mem = s.mem := rfl
@[simp] theorem State.setActr_rgn (s : State) (i : Nat) (x : Actr) : (s.setActr i x).rgn = s.rgn := rfl
@[simp] theorem State.setActr_stile (s : State) (i : Nat) (x : Actr) : (s.setActr i x).stile = s.stile := rfl
@[simp] theorem State.setActr_harrow (s : State) (i : Nat) (x : Actr) : (s.setActr i x).harrow = s.harrow := rfl
@[simp] theorem State.setActr_keys (s : State) (i : Nat) (x : Actr) : (s.setActr i x).keys = s.keys := rfl
@[simp] theorem State.setActr_parts (s : State) (i : Nat) (x : Actr) : (s.setActr i x).parts = s.parts := rfl
@[simp] theorem State.setActr_partPlot (s : State) (i : Nat) (x : Actr) : (s.setActr i x).partPlot = s.partPlot := rfl
@[simp] theorem State.setActr_rdoms (s : State) (i : Nat) (x : Actr) : (s.setActr i x).rdoms = s.rdoms := rfl
@[simp] theorem State.setActr_faults (s : State) (i : Nat) (x : Actr) : (s.setActr i x).faults = s.faults := rfl
@[simp] theorem State.setActr_throttle (s : State) (i : Nat) (x : Actr) : (s.setActr i x).throttle = s.throttle := rfl
@[simp] theorem State.setActr_cfg (s : State) (i : Nat) (x : Actr) : (s.setActr i x).cfg = s.cfg := rfl
@[simp] theorem State.setActr_dom (s : State) (i : Nat) (x : Actr) : (s.setActr i x).dom = s.dom := rfl
@[simp] theorem State.setActr_pair (s : State) (i : Nat) (x : Actr) : (s.setActr i x).pair = s.pair := rfl
@[simp] theorem State.setActr_svc (s : State) (i : Nat) (x : Actr) : (s.setActr i x).svc = s.svc := rfl
@[simp] theorem State.setActr_host (s : State) (i : Nat) (x : Actr) : (s.setActr i x).host = s.host := rfl
@[simp] theorem State.setActr_dig (s : State) (i : Nat) (x : Actr) : (s.setActr i x).dig = s.dig := rfl
@[simp] theorem State.setActr_own (s : State) (i : Nat) (x : Actr) : (s.setActr i x).own = s.own := rfl
@[simp] theorem State.setActr_otp (s : State) (i : Nat) (x : Actr) : (s.setActr i x).otp = s.otp := rfl
@[simp] theorem State.setActr_store (s : State) (i : Nat) (x : Actr) : (s.setActr i x).store = s.store := rfl
@[simp] theorem State.setActr_fwu (s : State) (i : Nat) (x : Actr) : (s.setActr i x).fwu = s.fwu := rfl
@[simp] theorem State.setActr_lct (s : State) (i : Nat) (x : Actr) : (s.setActr i x).lct = s.lct := rfl
@[simp] theorem State.setActr_obs (s : State) (i : Nat) (x : Actr) : (s.setActr i x).obs = s.obs := rfl
@[simp] theorem State.setActr_units (s : State) (i : Nat) (x : Actr) : (s.setActr i x).units = s.units := rfl
@[simp] theorem State.setActr_kept (s : State) (i : Nat) (x : Actr) : (s.setActr i x).kept = s.kept := rfl
@[simp] theorem State.setActr_out (s : State) (i : Nat) (x : Actr) : (s.setActr i x).out = s.out := rfl
@[simp] theorem State.setActr_frees (s : State) (i : Nat) (x : Actr) : (s.setActr i x).frees = s.frees := rfl
@[simp] theorem State.setActr_pending (s : State) (i : Nat) (x : Actr) : (s.setActr i x).pending = s.pending := rfl
@[simp] theorem State.setActr_part (s : State) (i : Nat) (x : Actr) (a : Nat) : (s.setActr i x).part a = s.part a := rfl
@[simp] theorem State.setActr_row (s : State) (i : Nat) (x : Actr) (a : Nat) : (s.setActr i x).row a = s.row a := rfl
@[simp] theorem State.setActr_slot (s : State) (i : Nat) (x : Actr) (a : Nat) : (s.setActr i x).slot a = s.slot a := rfl
@[simp] theorem State.setActr_lane (s : State) (i : Nat) (x : Actr) (a : Nat) : (s.setActr i x).lane a = s.lane a := rfl
@[simp] theorem State.setActr_stepEnt (s : State) (i : Nat) (x : Actr) (a : Nat) : (s.setActr i x).stepEnt a = s.stepEnt a := rfl
@[simp] theorem State.setActr_job (s : State) (i : Nat) (x : Actr) (a : Nat) : (s.setActr i x).job a = s.job a := rfl
@[simp] theorem State.setActr_queue (s : State) (i : Nat) (x : Actr) (a : Nat) : (s.setActr i x).queue a = s.queue a := rfl
@[simp] theorem State.setActr_chan (s : State) (i : Nat) (x : Actr) (a : Nat) : (s.setActr i x).chan a = s.chan a := rfl
@[simp] theorem State.setActr_core (s : State) (i : Nat) (x : Actr) (a : Nat) : (s.setActr i x).core a = s.core a := rfl
@[simp] theorem State.setActr_unitOf (s : State) (i : Nat) (x : Actr) (a b : Nat) : (s.setActr i x).unitOf a b = s.unitOf a b := rfl
@[simp] theorem State.setActr_otpWord (s : State) (i : Nat) (x : Actr) (a : Nat) : (s.setActr i x).otpWord a = s.otpWord a := rfl
@[simp] theorem State.setActr_fld (s : State) (i : Nat) (x : Actr) (g : Fld) (a b : Nat) : (s.setActr i x).fld g a b = s.fld g a b := rfl
@[simp] theorem State.setActr_regsOpen (s : State) (i : Nat) (x : Actr) : (s.setActr i x).regsOpen = s.regsOpen := rfl
@[simp] theorem State.setActr_ownerPort (s : State) (i : Nat) (x : Actr) : (s.setActr i x).ownerPort = s.ownerPort := rfl
@[simp] theorem State.setActr_plots (s : State) (i : Nat) (x : Actr) : (s.setActr i x).plots = s.plots := rfl
@[simp] theorem State.setActr_cmd (s : State) (i : Nat) (x : Actr) (a b : Nat) : (s.setActr i x).cmd a b = s.cmd a b := rfl

@[simp] theorem State.setQueue_regs (s : State) (q : Nat) (x : SvcQ) : (s.setQueue q x).regs = s.regs := rfl
@[simp] theorem State.setQueue_life (s : State) (q : Nat) (x : SvcQ) : (s.setQueue q x).life = s.life := rfl
@[simp] theorem State.setQueue_mem (s : State) (q : Nat) (x : SvcQ) : (s.setQueue q x).mem = s.mem := rfl
@[simp] theorem State.setQueue_rgn (s : State) (q : Nat) (x : SvcQ) : (s.setQueue q x).rgn = s.rgn := rfl
@[simp] theorem State.setQueue_stile (s : State) (q : Nat) (x : SvcQ) : (s.setQueue q x).stile = s.stile := rfl
@[simp] theorem State.setQueue_harrow (s : State) (q : Nat) (x : SvcQ) : (s.setQueue q x).harrow = s.harrow := rfl
@[simp] theorem State.setQueue_keys (s : State) (q : Nat) (x : SvcQ) : (s.setQueue q x).keys = s.keys := rfl
@[simp] theorem State.setQueue_parts (s : State) (q : Nat) (x : SvcQ) : (s.setQueue q x).parts = s.parts := rfl
@[simp] theorem State.setQueue_partPlot (s : State) (q : Nat) (x : SvcQ) : (s.setQueue q x).partPlot = s.partPlot := rfl
@[simp] theorem State.setQueue_rdoms (s : State) (q : Nat) (x : SvcQ) : (s.setQueue q x).rdoms = s.rdoms := rfl
@[simp] theorem State.setQueue_faults (s : State) (q : Nat) (x : SvcQ) : (s.setQueue q x).faults = s.faults := rfl
@[simp] theorem State.setQueue_throttle (s : State) (q : Nat) (x : SvcQ) : (s.setQueue q x).throttle = s.throttle := rfl
@[simp] theorem State.setQueue_cfg (s : State) (q : Nat) (x : SvcQ) : (s.setQueue q x).cfg = s.cfg := rfl
@[simp] theorem State.setQueue_links (s : State) (q : Nat) (x : SvcQ) : (s.setQueue q x).links = s.links := rfl
@[simp] theorem State.setQueue_dom (s : State) (q : Nat) (x : SvcQ) : (s.setQueue q x).dom = s.dom := rfl
@[simp] theorem State.setQueue_pair (s : State) (q : Nat) (x : SvcQ) : (s.setQueue q x).pair = s.pair := rfl
@[simp] theorem State.setQueue_host (s : State) (q : Nat) (x : SvcQ) : (s.setQueue q x).host = s.host := rfl
@[simp] theorem State.setQueue_dig (s : State) (q : Nat) (x : SvcQ) : (s.setQueue q x).dig = s.dig := rfl
@[simp] theorem State.setQueue_own (s : State) (q : Nat) (x : SvcQ) : (s.setQueue q x).own = s.own := rfl
@[simp] theorem State.setQueue_otp (s : State) (q : Nat) (x : SvcQ) : (s.setQueue q x).otp = s.otp := rfl
@[simp] theorem State.setQueue_store (s : State) (q : Nat) (x : SvcQ) : (s.setQueue q x).store = s.store := rfl
@[simp] theorem State.setQueue_fwu (s : State) (q : Nat) (x : SvcQ) : (s.setQueue q x).fwu = s.fwu := rfl
@[simp] theorem State.setQueue_lct (s : State) (q : Nat) (x : SvcQ) : (s.setQueue q x).lct = s.lct := rfl
@[simp] theorem State.setQueue_obs (s : State) (q : Nat) (x : SvcQ) : (s.setQueue q x).obs = s.obs := rfl
@[simp] theorem State.setQueue_units (s : State) (q : Nat) (x : SvcQ) : (s.setQueue q x).units = s.units := rfl
@[simp] theorem State.setQueue_kept (s : State) (q : Nat) (x : SvcQ) : (s.setQueue q x).kept = s.kept := rfl
@[simp] theorem State.setQueue_out (s : State) (q : Nat) (x : SvcQ) : (s.setQueue q x).out = s.out := rfl
@[simp] theorem State.setQueue_frees (s : State) (q : Nat) (x : SvcQ) : (s.setQueue q x).frees = s.frees := rfl
@[simp] theorem State.setQueue_pending (s : State) (q : Nat) (x : SvcQ) : (s.setQueue q x).pending = s.pending := rfl
@[simp] theorem State.setQueue_part (s : State) (q : Nat) (x : SvcQ) (a : Nat) : (s.setQueue q x).part a = s.part a := rfl
@[simp] theorem State.setQueue_row (s : State) (q : Nat) (x : SvcQ) (a : Nat) : (s.setQueue q x).row a = s.row a := rfl
@[simp] theorem State.setQueue_slot (s : State) (q : Nat) (x : SvcQ) (a : Nat) : (s.setQueue q x).slot a = s.slot a := rfl
@[simp] theorem State.setQueue_lane (s : State) (q : Nat) (x : SvcQ) (a : Nat) : (s.setQueue q x).lane a = s.lane a := rfl
@[simp] theorem State.setQueue_stepEnt (s : State) (q : Nat) (x : SvcQ) (a : Nat) : (s.setQueue q x).stepEnt a = s.stepEnt a := rfl
@[simp] theorem State.setQueue_job (s : State) (q : Nat) (x : SvcQ) (a : Nat) : (s.setQueue q x).job a = s.job a := rfl
@[simp] theorem State.setQueue_port (s : State) (q : Nat) (x : SvcQ) (a : Nat) : (s.setQueue q x).port a = s.port a := rfl
@[simp] theorem State.setQueue_actr (s : State) (q : Nat) (x : SvcQ) (a : Nat) : (s.setQueue q x).actr a = s.actr a := rfl
@[simp] theorem State.setQueue_chan (s : State) (q : Nat) (x : SvcQ) (a : Nat) : (s.setQueue q x).chan a = s.chan a := rfl
@[simp] theorem State.setQueue_core (s : State) (q : Nat) (x : SvcQ) (a : Nat) : (s.setQueue q x).core a = s.core a := rfl
@[simp] theorem State.setQueue_unitOf (s : State) (q : Nat) (x : SvcQ) (a b : Nat) : (s.setQueue q x).unitOf a b = s.unitOf a b := rfl
@[simp] theorem State.setQueue_otpWord (s : State) (q : Nat) (x : SvcQ) (a : Nat) : (s.setQueue q x).otpWord a = s.otpWord a := rfl
@[simp] theorem State.setQueue_fld (s : State) (q : Nat) (x : SvcQ) (g : Fld) (a b : Nat) : (s.setQueue q x).fld g a b = s.fld g a b := rfl
@[simp] theorem State.setQueue_regsOpen (s : State) (q : Nat) (x : SvcQ) : (s.setQueue q x).regsOpen = s.regsOpen := rfl
@[simp] theorem State.setQueue_ownerPort (s : State) (q : Nat) (x : SvcQ) : (s.setQueue q x).ownerPort = s.ownerPort := rfl
@[simp] theorem State.setQueue_plots (s : State) (q : Nat) (x : SvcQ) : (s.setQueue q x).plots = s.plots := rfl

@[simp] theorem State.setCmd_regs (s : State) (q : Nat) (x : Cmd) : (s.setCmd q x).regs = s.regs := rfl
@[simp] theorem State.setCmd_life (s : State) (q : Nat) (x : Cmd) : (s.setCmd q x).life = s.life := rfl
@[simp] theorem State.setCmd_mem (s : State) (q : Nat) (x : Cmd) : (s.setCmd q x).mem = s.mem := rfl
@[simp] theorem State.setCmd_rgn (s : State) (q : Nat) (x : Cmd) : (s.setCmd q x).rgn = s.rgn := rfl
@[simp] theorem State.setCmd_stile (s : State) (q : Nat) (x : Cmd) : (s.setCmd q x).stile = s.stile := rfl
@[simp] theorem State.setCmd_harrow (s : State) (q : Nat) (x : Cmd) : (s.setCmd q x).harrow = s.harrow := rfl
@[simp] theorem State.setCmd_keys (s : State) (q : Nat) (x : Cmd) : (s.setCmd q x).keys = s.keys := rfl
@[simp] theorem State.setCmd_parts (s : State) (q : Nat) (x : Cmd) : (s.setCmd q x).parts = s.parts := rfl
@[simp] theorem State.setCmd_partPlot (s : State) (q : Nat) (x : Cmd) : (s.setCmd q x).partPlot = s.partPlot := rfl
@[simp] theorem State.setCmd_rdoms (s : State) (q : Nat) (x : Cmd) : (s.setCmd q x).rdoms = s.rdoms := rfl
@[simp] theorem State.setCmd_faults (s : State) (q : Nat) (x : Cmd) : (s.setCmd q x).faults = s.faults := rfl
@[simp] theorem State.setCmd_throttle (s : State) (q : Nat) (x : Cmd) : (s.setCmd q x).throttle = s.throttle := rfl
@[simp] theorem State.setCmd_cfg (s : State) (q : Nat) (x : Cmd) : (s.setCmd q x).cfg = s.cfg := rfl
@[simp] theorem State.setCmd_links (s : State) (q : Nat) (x : Cmd) : (s.setCmd q x).links = s.links := rfl
@[simp] theorem State.setCmd_dom (s : State) (q : Nat) (x : Cmd) : (s.setCmd q x).dom = s.dom := rfl
@[simp] theorem State.setCmd_pair (s : State) (q : Nat) (x : Cmd) : (s.setCmd q x).pair = s.pair := rfl
@[simp] theorem State.setCmd_host (s : State) (q : Nat) (x : Cmd) : (s.setCmd q x).host = s.host := rfl
@[simp] theorem State.setCmd_dig (s : State) (q : Nat) (x : Cmd) : (s.setCmd q x).dig = s.dig := rfl
@[simp] theorem State.setCmd_own (s : State) (q : Nat) (x : Cmd) : (s.setCmd q x).own = s.own := rfl
@[simp] theorem State.setCmd_otp (s : State) (q : Nat) (x : Cmd) : (s.setCmd q x).otp = s.otp := rfl
@[simp] theorem State.setCmd_store (s : State) (q : Nat) (x : Cmd) : (s.setCmd q x).store = s.store := rfl
@[simp] theorem State.setCmd_fwu (s : State) (q : Nat) (x : Cmd) : (s.setCmd q x).fwu = s.fwu := rfl
@[simp] theorem State.setCmd_lct (s : State) (q : Nat) (x : Cmd) : (s.setCmd q x).lct = s.lct := rfl
@[simp] theorem State.setCmd_obs (s : State) (q : Nat) (x : Cmd) : (s.setCmd q x).obs = s.obs := rfl
@[simp] theorem State.setCmd_units (s : State) (q : Nat) (x : Cmd) : (s.setCmd q x).units = s.units := rfl
@[simp] theorem State.setCmd_kept (s : State) (q : Nat) (x : Cmd) : (s.setCmd q x).kept = s.kept := rfl
@[simp] theorem State.setCmd_out (s : State) (q : Nat) (x : Cmd) : (s.setCmd q x).out = s.out := rfl
@[simp] theorem State.setCmd_frees (s : State) (q : Nat) (x : Cmd) : (s.setCmd q x).frees = s.frees := rfl
@[simp] theorem State.setCmd_pending (s : State) (q : Nat) (x : Cmd) : (s.setCmd q x).pending = s.pending := rfl
@[simp] theorem State.setCmd_part (s : State) (q : Nat) (x : Cmd) (a : Nat) : (s.setCmd q x).part a = s.part a := rfl
@[simp] theorem State.setCmd_row (s : State) (q : Nat) (x : Cmd) (a : Nat) : (s.setCmd q x).row a = s.row a := rfl
@[simp] theorem State.setCmd_slot (s : State) (q : Nat) (x : Cmd) (a : Nat) : (s.setCmd q x).slot a = s.slot a := rfl
@[simp] theorem State.setCmd_lane (s : State) (q : Nat) (x : Cmd) (a : Nat) : (s.setCmd q x).lane a = s.lane a := rfl
@[simp] theorem State.setCmd_stepEnt (s : State) (q : Nat) (x : Cmd) (a : Nat) : (s.setCmd q x).stepEnt a = s.stepEnt a := rfl
@[simp] theorem State.setCmd_job (s : State) (q : Nat) (x : Cmd) (a : Nat) : (s.setCmd q x).job a = s.job a := rfl
@[simp] theorem State.setCmd_port (s : State) (q : Nat) (x : Cmd) (a : Nat) : (s.setCmd q x).port a = s.port a := rfl
@[simp] theorem State.setCmd_actr (s : State) (q : Nat) (x : Cmd) (a : Nat) : (s.setCmd q x).actr a = s.actr a := rfl
@[simp] theorem State.setCmd_chan (s : State) (q : Nat) (x : Cmd) (a : Nat) : (s.setCmd q x).chan a = s.chan a := rfl
@[simp] theorem State.setCmd_core (s : State) (q : Nat) (x : Cmd) (a : Nat) : (s.setCmd q x).core a = s.core a := rfl
@[simp] theorem State.setCmd_unitOf (s : State) (q : Nat) (x : Cmd) (a b : Nat) : (s.setCmd q x).unitOf a b = s.unitOf a b := rfl
@[simp] theorem State.setCmd_otpWord (s : State) (q : Nat) (x : Cmd) (a : Nat) : (s.setCmd q x).otpWord a = s.otpWord a := rfl
@[simp] theorem State.setCmd_fld (s : State) (q : Nat) (x : Cmd) (g : Fld) (a b : Nat) : (s.setCmd q x).fld g a b = s.fld g a b := rfl
@[simp] theorem State.setCmd_regsOpen (s : State) (q : Nat) (x : Cmd) : (s.setCmd q x).regsOpen = s.regsOpen := rfl
@[simp] theorem State.setCmd_ownerPort (s : State) (q : Nat) (x : Cmd) : (s.setCmd q x).ownerPort = s.ownerPort := rfl
@[simp] theorem State.setCmd_plots (s : State) (q : Nat) (x : Cmd) : (s.setCmd q x).plots = s.plots := rfl

@[simp] theorem State.setChan_regs (s : State) (c : Nat) (x : Chan) : (s.setChan c x).regs = s.regs := rfl
@[simp] theorem State.setChan_life (s : State) (c : Nat) (x : Chan) : (s.setChan c x).life = s.life := rfl
@[simp] theorem State.setChan_mem (s : State) (c : Nat) (x : Chan) : (s.setChan c x).mem = s.mem := rfl
@[simp] theorem State.setChan_rgn (s : State) (c : Nat) (x : Chan) : (s.setChan c x).rgn = s.rgn := rfl
@[simp] theorem State.setChan_stile (s : State) (c : Nat) (x : Chan) : (s.setChan c x).stile = s.stile := rfl
@[simp] theorem State.setChan_harrow (s : State) (c : Nat) (x : Chan) : (s.setChan c x).harrow = s.harrow := rfl
@[simp] theorem State.setChan_keys (s : State) (c : Nat) (x : Chan) : (s.setChan c x).keys = s.keys := rfl
@[simp] theorem State.setChan_parts (s : State) (c : Nat) (x : Chan) : (s.setChan c x).parts = s.parts := rfl
@[simp] theorem State.setChan_partPlot (s : State) (c : Nat) (x : Chan) : (s.setChan c x).partPlot = s.partPlot := rfl
@[simp] theorem State.setChan_rdoms (s : State) (c : Nat) (x : Chan) : (s.setChan c x).rdoms = s.rdoms := rfl
@[simp] theorem State.setChan_faults (s : State) (c : Nat) (x : Chan) : (s.setChan c x).faults = s.faults := rfl
@[simp] theorem State.setChan_throttle (s : State) (c : Nat) (x : Chan) : (s.setChan c x).throttle = s.throttle := rfl
@[simp] theorem State.setChan_cfg (s : State) (c : Nat) (x : Chan) : (s.setChan c x).cfg = s.cfg := rfl
@[simp] theorem State.setChan_links (s : State) (c : Nat) (x : Chan) : (s.setChan c x).links = s.links := rfl
@[simp] theorem State.setChan_dom (s : State) (c : Nat) (x : Chan) : (s.setChan c x).dom = s.dom := rfl
@[simp] theorem State.setChan_pair (s : State) (c : Nat) (x : Chan) : (s.setChan c x).pair = s.pair := rfl
@[simp] theorem State.setChan_svc (s : State) (c : Nat) (x : Chan) : (s.setChan c x).svc = s.svc := rfl
@[simp] theorem State.setChan_dig (s : State) (c : Nat) (x : Chan) : (s.setChan c x).dig = s.dig := rfl
@[simp] theorem State.setChan_own (s : State) (c : Nat) (x : Chan) : (s.setChan c x).own = s.own := rfl
@[simp] theorem State.setChan_otp (s : State) (c : Nat) (x : Chan) : (s.setChan c x).otp = s.otp := rfl
@[simp] theorem State.setChan_store (s : State) (c : Nat) (x : Chan) : (s.setChan c x).store = s.store := rfl
@[simp] theorem State.setChan_fwu (s : State) (c : Nat) (x : Chan) : (s.setChan c x).fwu = s.fwu := rfl
@[simp] theorem State.setChan_lct (s : State) (c : Nat) (x : Chan) : (s.setChan c x).lct = s.lct := rfl
@[simp] theorem State.setChan_obs (s : State) (c : Nat) (x : Chan) : (s.setChan c x).obs = s.obs := rfl
@[simp] theorem State.setChan_units (s : State) (c : Nat) (x : Chan) : (s.setChan c x).units = s.units := rfl
@[simp] theorem State.setChan_kept (s : State) (c : Nat) (x : Chan) : (s.setChan c x).kept = s.kept := rfl
@[simp] theorem State.setChan_out (s : State) (c : Nat) (x : Chan) : (s.setChan c x).out = s.out := rfl
@[simp] theorem State.setChan_frees (s : State) (c : Nat) (x : Chan) : (s.setChan c x).frees = s.frees := rfl
@[simp] theorem State.setChan_pending (s : State) (c : Nat) (x : Chan) : (s.setChan c x).pending = s.pending := rfl
@[simp] theorem State.setChan_part (s : State) (c : Nat) (x : Chan) (a : Nat) : (s.setChan c x).part a = s.part a := rfl
@[simp] theorem State.setChan_row (s : State) (c : Nat) (x : Chan) (a : Nat) : (s.setChan c x).row a = s.row a := rfl
@[simp] theorem State.setChan_slot (s : State) (c : Nat) (x : Chan) (a : Nat) : (s.setChan c x).slot a = s.slot a := rfl
@[simp] theorem State.setChan_lane (s : State) (c : Nat) (x : Chan) (a : Nat) : (s.setChan c x).lane a = s.lane a := rfl
@[simp] theorem State.setChan_stepEnt (s : State) (c : Nat) (x : Chan) (a : Nat) : (s.setChan c x).stepEnt a = s.stepEnt a := rfl
@[simp] theorem State.setChan_job (s : State) (c : Nat) (x : Chan) (a : Nat) : (s.setChan c x).job a = s.job a := rfl
@[simp] theorem State.setChan_port (s : State) (c : Nat) (x : Chan) (a : Nat) : (s.setChan c x).port a = s.port a := rfl
@[simp] theorem State.setChan_actr (s : State) (c : Nat) (x : Chan) (a : Nat) : (s.setChan c x).actr a = s.actr a := rfl
@[simp] theorem State.setChan_queue (s : State) (c : Nat) (x : Chan) (a : Nat) : (s.setChan c x).queue a = s.queue a := rfl
@[simp] theorem State.setChan_core (s : State) (c : Nat) (x : Chan) (a : Nat) : (s.setChan c x).core a = s.core a := rfl
@[simp] theorem State.setChan_unitOf (s : State) (c : Nat) (x : Chan) (a b : Nat) : (s.setChan c x).unitOf a b = s.unitOf a b := rfl
@[simp] theorem State.setChan_otpWord (s : State) (c : Nat) (x : Chan) (a : Nat) : (s.setChan c x).otpWord a = s.otpWord a := rfl
@[simp] theorem State.setChan_fld (s : State) (c : Nat) (x : Chan) (g : Fld) (a b : Nat) : (s.setChan c x).fld g a b = s.fld g a b := rfl
@[simp] theorem State.setChan_regsOpen (s : State) (c : Nat) (x : Chan) : (s.setChan c x).regsOpen = s.regsOpen := rfl
@[simp] theorem State.setChan_ownerPort (s : State) (c : Nat) (x : Chan) : (s.setChan c x).ownerPort = s.ownerPort := rfl
@[simp] theorem State.setChan_plots (s : State) (c : Nat) (x : Chan) : (s.setChan c x).plots = s.plots := rfl
@[simp] theorem State.setChan_cmd (s : State) (c : Nat) (x : Chan) (a b : Nat) : (s.setChan c x).cmd a b = s.cmd a b := rfl

@[simp] theorem State.otpPut_regs (s : State) (w v : Nat) : (s.otpPut w v).regs = s.regs := rfl
@[simp] theorem State.otpPut_life (s : State) (w v : Nat) : (s.otpPut w v).life = s.life := rfl
@[simp] theorem State.otpPut_mem (s : State) (w v : Nat) : (s.otpPut w v).mem = s.mem := rfl
@[simp] theorem State.otpPut_rgn (s : State) (w v : Nat) : (s.otpPut w v).rgn = s.rgn := rfl
@[simp] theorem State.otpPut_stile (s : State) (w v : Nat) : (s.otpPut w v).stile = s.stile := rfl
@[simp] theorem State.otpPut_harrow (s : State) (w v : Nat) : (s.otpPut w v).harrow = s.harrow := rfl
@[simp] theorem State.otpPut_keys (s : State) (w v : Nat) : (s.otpPut w v).keys = s.keys := rfl
@[simp] theorem State.otpPut_parts (s : State) (w v : Nat) : (s.otpPut w v).parts = s.parts := rfl
@[simp] theorem State.otpPut_partPlot (s : State) (w v : Nat) : (s.otpPut w v).partPlot = s.partPlot := rfl
@[simp] theorem State.otpPut_rdoms (s : State) (w v : Nat) : (s.otpPut w v).rdoms = s.rdoms := rfl
@[simp] theorem State.otpPut_faults (s : State) (w v : Nat) : (s.otpPut w v).faults = s.faults := rfl
@[simp] theorem State.otpPut_throttle (s : State) (w v : Nat) : (s.otpPut w v).throttle = s.throttle := rfl
@[simp] theorem State.otpPut_cfg (s : State) (w v : Nat) : (s.otpPut w v).cfg = s.cfg := rfl
@[simp] theorem State.otpPut_links (s : State) (w v : Nat) : (s.otpPut w v).links = s.links := rfl
@[simp] theorem State.otpPut_dom (s : State) (w v : Nat) : (s.otpPut w v).dom = s.dom := rfl
@[simp] theorem State.otpPut_pair (s : State) (w v : Nat) : (s.otpPut w v).pair = s.pair := rfl
@[simp] theorem State.otpPut_svc (s : State) (w v : Nat) : (s.otpPut w v).svc = s.svc := rfl
@[simp] theorem State.otpPut_host (s : State) (w v : Nat) : (s.otpPut w v).host = s.host := rfl
@[simp] theorem State.otpPut_dig (s : State) (w v : Nat) : (s.otpPut w v).dig = s.dig := rfl
@[simp] theorem State.otpPut_own (s : State) (w v : Nat) : (s.otpPut w v).own = s.own := rfl
@[simp] theorem State.otpPut_store (s : State) (w v : Nat) : (s.otpPut w v).store = s.store := rfl
@[simp] theorem State.otpPut_fwu (s : State) (w v : Nat) : (s.otpPut w v).fwu = s.fwu := rfl
@[simp] theorem State.otpPut_lct (s : State) (w v : Nat) : (s.otpPut w v).lct = s.lct := rfl
@[simp] theorem State.otpPut_obs (s : State) (w v : Nat) : (s.otpPut w v).obs = s.obs := rfl
@[simp] theorem State.otpPut_units (s : State) (w v : Nat) : (s.otpPut w v).units = s.units := rfl
@[simp] theorem State.otpPut_kept (s : State) (w v : Nat) : (s.otpPut w v).kept = s.kept := rfl
@[simp] theorem State.otpPut_out (s : State) (w v : Nat) : (s.otpPut w v).out = s.out := rfl
@[simp] theorem State.otpPut_frees (s : State) (w v : Nat) : (s.otpPut w v).frees = s.frees := rfl
@[simp] theorem State.otpPut_pending (s : State) (w v : Nat) : (s.otpPut w v).pending = s.pending := rfl
@[simp] theorem State.otpPut_part (s : State) (w v : Nat) (a : Nat) : (s.otpPut w v).part a = s.part a := rfl
@[simp] theorem State.otpPut_row (s : State) (w v : Nat) (a : Nat) : (s.otpPut w v).row a = s.row a := rfl
@[simp] theorem State.otpPut_slot (s : State) (w v : Nat) (a : Nat) : (s.otpPut w v).slot a = s.slot a := rfl
@[simp] theorem State.otpPut_lane (s : State) (w v : Nat) (a : Nat) : (s.otpPut w v).lane a = s.lane a := rfl
@[simp] theorem State.otpPut_stepEnt (s : State) (w v : Nat) (a : Nat) : (s.otpPut w v).stepEnt a = s.stepEnt a := rfl
@[simp] theorem State.otpPut_job (s : State) (w v : Nat) (a : Nat) : (s.otpPut w v).job a = s.job a := rfl
@[simp] theorem State.otpPut_port (s : State) (w v : Nat) (a : Nat) : (s.otpPut w v).port a = s.port a := rfl
@[simp] theorem State.otpPut_actr (s : State) (w v : Nat) (a : Nat) : (s.otpPut w v).actr a = s.actr a := rfl
@[simp] theorem State.otpPut_queue (s : State) (w v : Nat) (a : Nat) : (s.otpPut w v).queue a = s.queue a := rfl
@[simp] theorem State.otpPut_chan (s : State) (w v : Nat) (a : Nat) : (s.otpPut w v).chan a = s.chan a := rfl
@[simp] theorem State.otpPut_core (s : State) (w v : Nat) (a : Nat) : (s.otpPut w v).core a = s.core a := rfl
@[simp] theorem State.otpPut_unitOf (s : State) (w v : Nat) (a b : Nat) : (s.otpPut w v).unitOf a b = s.unitOf a b := rfl
@[simp] theorem State.otpPut_fld (s : State) (w v : Nat) (g : Fld) (a b : Nat) : (s.otpPut w v).fld g a b = s.fld g a b := rfl
@[simp] theorem State.otpPut_regsOpen (s : State) (w v : Nat) : (s.otpPut w v).regsOpen = s.regsOpen := rfl
@[simp] theorem State.otpPut_ownerPort (s : State) (w v : Nat) : (s.otpPut w v).ownerPort = s.ownerPort := rfl
@[simp] theorem State.otpPut_plots (s : State) (w v : Nat) : (s.otpPut w v).plots = s.plots := rfl
@[simp] theorem State.otpPut_cmd (s : State) (w v : Nat) (a b : Nat) : (s.otpPut w v).cmd a b = s.cmd a b := rfl

@[simp] theorem State.withDom_regs (s : State) (x : Domain) : (s.withDom x).regs = s.regs := rfl
@[simp] theorem State.withDom_life (s : State) (x : Domain) : (s.withDom x).life = s.life := rfl
@[simp] theorem State.withDom_mem (s : State) (x : Domain) : (s.withDom x).mem = s.mem := rfl
@[simp] theorem State.withDom_rgn (s : State) (x : Domain) : (s.withDom x).rgn = s.rgn := rfl
@[simp] theorem State.withDom_stile (s : State) (x : Domain) : (s.withDom x).stile = s.stile := rfl
@[simp] theorem State.withDom_harrow (s : State) (x : Domain) : (s.withDom x).harrow = s.harrow := rfl
@[simp] theorem State.withDom_keys (s : State) (x : Domain) : (s.withDom x).keys = s.keys := rfl
@[simp] theorem State.withDom_parts (s : State) (x : Domain) : (s.withDom x).parts = s.parts := rfl
@[simp] theorem State.withDom_partPlot (s : State) (x : Domain) : (s.withDom x).partPlot = s.partPlot := rfl
@[simp] theorem State.withDom_rdoms (s : State) (x : Domain) : (s.withDom x).rdoms = s.rdoms := rfl
@[simp] theorem State.withDom_faults (s : State) (x : Domain) : (s.withDom x).faults = s.faults := rfl
@[simp] theorem State.withDom_throttle (s : State) (x : Domain) : (s.withDom x).throttle = s.throttle := rfl
@[simp] theorem State.withDom_cfg (s : State) (x : Domain) : (s.withDom x).cfg = s.cfg := rfl
@[simp] theorem State.withDom_links (s : State) (x : Domain) : (s.withDom x).links = s.links := rfl
@[simp] theorem State.withDom_pair (s : State) (x : Domain) : (s.withDom x).pair = s.pair := rfl
@[simp] theorem State.withDom_svc (s : State) (x : Domain) : (s.withDom x).svc = s.svc := rfl
@[simp] theorem State.withDom_host (s : State) (x : Domain) : (s.withDom x).host = s.host := rfl
@[simp] theorem State.withDom_dig (s : State) (x : Domain) : (s.withDom x).dig = s.dig := rfl
@[simp] theorem State.withDom_own (s : State) (x : Domain) : (s.withDom x).own = s.own := rfl
@[simp] theorem State.withDom_otp (s : State) (x : Domain) : (s.withDom x).otp = s.otp := rfl
@[simp] theorem State.withDom_store (s : State) (x : Domain) : (s.withDom x).store = s.store := rfl
@[simp] theorem State.withDom_fwu (s : State) (x : Domain) : (s.withDom x).fwu = s.fwu := rfl
@[simp] theorem State.withDom_lct (s : State) (x : Domain) : (s.withDom x).lct = s.lct := rfl
@[simp] theorem State.withDom_obs (s : State) (x : Domain) : (s.withDom x).obs = s.obs := rfl
@[simp] theorem State.withDom_units (s : State) (x : Domain) : (s.withDom x).units = s.units := rfl
@[simp] theorem State.withDom_kept (s : State) (x : Domain) : (s.withDom x).kept = s.kept := rfl
@[simp] theorem State.withDom_out (s : State) (x : Domain) : (s.withDom x).out = s.out := rfl
@[simp] theorem State.withDom_frees (s : State) (x : Domain) : (s.withDom x).frees = s.frees := rfl
@[simp] theorem State.withDom_pending (s : State) (x : Domain) : (s.withDom x).pending = s.pending := rfl
@[simp] theorem State.withDom_part (s : State) (x : Domain) (a : Nat) : (s.withDom x).part a = s.part a := rfl
@[simp] theorem State.withDom_row (s : State) (x : Domain) (a : Nat) : (s.withDom x).row a = s.row a := rfl
@[simp] theorem State.withDom_slot (s : State) (x : Domain) (a : Nat) : (s.withDom x).slot a = s.slot a := rfl
@[simp] theorem State.withDom_lane (s : State) (x : Domain) (a : Nat) : (s.withDom x).lane a = s.lane a := rfl
@[simp] theorem State.withDom_stepEnt (s : State) (x : Domain) (a : Nat) : (s.withDom x).stepEnt a = s.stepEnt a := rfl
@[simp] theorem State.withDom_job (s : State) (x : Domain) (a : Nat) : (s.withDom x).job a = s.job a := rfl
@[simp] theorem State.withDom_port (s : State) (x : Domain) (a : Nat) : (s.withDom x).port a = s.port a := rfl
@[simp] theorem State.withDom_actr (s : State) (x : Domain) (a : Nat) : (s.withDom x).actr a = s.actr a := rfl
@[simp] theorem State.withDom_queue (s : State) (x : Domain) (a : Nat) : (s.withDom x).queue a = s.queue a := rfl
@[simp] theorem State.withDom_chan (s : State) (x : Domain) (a : Nat) : (s.withDom x).chan a = s.chan a := rfl
@[simp] theorem State.withDom_core (s : State) (x : Domain) (a : Nat) : (s.withDom x).core a = s.core a := rfl
@[simp] theorem State.withDom_unitOf (s : State) (x : Domain) (a b : Nat) : (s.withDom x).unitOf a b = s.unitOf a b := rfl
@[simp] theorem State.withDom_otpWord (s : State) (x : Domain) (a : Nat) : (s.withDom x).otpWord a = s.otpWord a := rfl
@[simp] theorem State.withDom_fld (s : State) (x : Domain) (g : Fld) (a b : Nat) : (s.withDom x).fld g a b = s.fld g a b := rfl
@[simp] theorem State.withDom_regsOpen (s : State) (x : Domain) : (s.withDom x).regsOpen = s.regsOpen := rfl
@[simp] theorem State.withDom_ownerPort (s : State) (x : Domain) : (s.withDom x).ownerPort = s.ownerPort := rfl
@[simp] theorem State.withDom_plots (s : State) (x : Domain) : (s.withDom x).plots = s.plots := rfl
@[simp] theorem State.withDom_cmd (s : State) (x : Domain) (a b : Nat) : (s.withDom x).cmd a b = s.cmd a b := rfl

@[simp] theorem State.withPair_regs (s : State) (x : Pair) : (s.withPair x).regs = s.regs := rfl
@[simp] theorem State.withPair_life (s : State) (x : Pair) : (s.withPair x).life = s.life := rfl
@[simp] theorem State.withPair_mem (s : State) (x : Pair) : (s.withPair x).mem = s.mem := rfl
@[simp] theorem State.withPair_rgn (s : State) (x : Pair) : (s.withPair x).rgn = s.rgn := rfl
@[simp] theorem State.withPair_stile (s : State) (x : Pair) : (s.withPair x).stile = s.stile := rfl
@[simp] theorem State.withPair_harrow (s : State) (x : Pair) : (s.withPair x).harrow = s.harrow := rfl
@[simp] theorem State.withPair_keys (s : State) (x : Pair) : (s.withPair x).keys = s.keys := rfl
@[simp] theorem State.withPair_parts (s : State) (x : Pair) : (s.withPair x).parts = s.parts := rfl
@[simp] theorem State.withPair_partPlot (s : State) (x : Pair) : (s.withPair x).partPlot = s.partPlot := rfl
@[simp] theorem State.withPair_rdoms (s : State) (x : Pair) : (s.withPair x).rdoms = s.rdoms := rfl
@[simp] theorem State.withPair_faults (s : State) (x : Pair) : (s.withPair x).faults = s.faults := rfl
@[simp] theorem State.withPair_throttle (s : State) (x : Pair) : (s.withPair x).throttle = s.throttle := rfl
@[simp] theorem State.withPair_cfg (s : State) (x : Pair) : (s.withPair x).cfg = s.cfg := rfl
@[simp] theorem State.withPair_links (s : State) (x : Pair) : (s.withPair x).links = s.links := rfl
@[simp] theorem State.withPair_dom (s : State) (x : Pair) : (s.withPair x).dom = s.dom := rfl
@[simp] theorem State.withPair_svc (s : State) (x : Pair) : (s.withPair x).svc = s.svc := rfl
@[simp] theorem State.withPair_host (s : State) (x : Pair) : (s.withPair x).host = s.host := rfl
@[simp] theorem State.withPair_dig (s : State) (x : Pair) : (s.withPair x).dig = s.dig := rfl
@[simp] theorem State.withPair_own (s : State) (x : Pair) : (s.withPair x).own = s.own := rfl
@[simp] theorem State.withPair_otp (s : State) (x : Pair) : (s.withPair x).otp = s.otp := rfl
@[simp] theorem State.withPair_store (s : State) (x : Pair) : (s.withPair x).store = s.store := rfl
@[simp] theorem State.withPair_fwu (s : State) (x : Pair) : (s.withPair x).fwu = s.fwu := rfl
@[simp] theorem State.withPair_lct (s : State) (x : Pair) : (s.withPair x).lct = s.lct := rfl
@[simp] theorem State.withPair_obs (s : State) (x : Pair) : (s.withPair x).obs = s.obs := rfl
@[simp] theorem State.withPair_units (s : State) (x : Pair) : (s.withPair x).units = s.units := rfl
@[simp] theorem State.withPair_kept (s : State) (x : Pair) : (s.withPair x).kept = s.kept := rfl
@[simp] theorem State.withPair_out (s : State) (x : Pair) : (s.withPair x).out = s.out := rfl
@[simp] theorem State.withPair_frees (s : State) (x : Pair) : (s.withPair x).frees = s.frees := rfl
@[simp] theorem State.withPair_pending (s : State) (x : Pair) : (s.withPair x).pending = s.pending := rfl
@[simp] theorem State.withPair_part (s : State) (x : Pair) (a : Nat) : (s.withPair x).part a = s.part a := rfl
@[simp] theorem State.withPair_row (s : State) (x : Pair) (a : Nat) : (s.withPair x).row a = s.row a := rfl
@[simp] theorem State.withPair_slot (s : State) (x : Pair) (a : Nat) : (s.withPair x).slot a = s.slot a := rfl
@[simp] theorem State.withPair_lane (s : State) (x : Pair) (a : Nat) : (s.withPair x).lane a = s.lane a := rfl
@[simp] theorem State.withPair_stepEnt (s : State) (x : Pair) (a : Nat) : (s.withPair x).stepEnt a = s.stepEnt a := rfl
@[simp] theorem State.withPair_job (s : State) (x : Pair) (a : Nat) : (s.withPair x).job a = s.job a := rfl
@[simp] theorem State.withPair_port (s : State) (x : Pair) (a : Nat) : (s.withPair x).port a = s.port a := rfl
@[simp] theorem State.withPair_actr (s : State) (x : Pair) (a : Nat) : (s.withPair x).actr a = s.actr a := rfl
@[simp] theorem State.withPair_queue (s : State) (x : Pair) (a : Nat) : (s.withPair x).queue a = s.queue a := rfl
@[simp] theorem State.withPair_chan (s : State) (x : Pair) (a : Nat) : (s.withPair x).chan a = s.chan a := rfl
@[simp] theorem State.withPair_core (s : State) (x : Pair) (a : Nat) : (s.withPair x).core a = s.core a := rfl
@[simp] theorem State.withPair_unitOf (s : State) (x : Pair) (a b : Nat) : (s.withPair x).unitOf a b = s.unitOf a b := rfl
@[simp] theorem State.withPair_otpWord (s : State) (x : Pair) (a : Nat) : (s.withPair x).otpWord a = s.otpWord a := rfl
@[simp] theorem State.withPair_fld (s : State) (x : Pair) (g : Fld) (a b : Nat) : (s.withPair x).fld g a b = s.fld g a b := rfl
@[simp] theorem State.withPair_regsOpen (s : State) (x : Pair) : (s.withPair x).regsOpen = s.regsOpen := rfl
@[simp] theorem State.withPair_ownerPort (s : State) (x : Pair) : (s.withPair x).ownerPort = s.ownerPort := rfl
@[simp] theorem State.withPair_plots (s : State) (x : Pair) : (s.withPair x).plots = s.plots := rfl
@[simp] theorem State.withPair_cmd (s : State) (x : Pair) (a b : Nat) : (s.withPair x).cmd a b = s.cmd a b := rfl

@[simp] theorem State.withLinks_regs (s : State) (x : Links) : (s.withLinks x).regs = s.regs := rfl
@[simp] theorem State.withLinks_life (s : State) (x : Links) : (s.withLinks x).life = s.life := rfl
@[simp] theorem State.withLinks_mem (s : State) (x : Links) : (s.withLinks x).mem = s.mem := rfl
@[simp] theorem State.withLinks_rgn (s : State) (x : Links) : (s.withLinks x).rgn = s.rgn := rfl
@[simp] theorem State.withLinks_stile (s : State) (x : Links) : (s.withLinks x).stile = s.stile := rfl
@[simp] theorem State.withLinks_harrow (s : State) (x : Links) : (s.withLinks x).harrow = s.harrow := rfl
@[simp] theorem State.withLinks_keys (s : State) (x : Links) : (s.withLinks x).keys = s.keys := rfl
@[simp] theorem State.withLinks_parts (s : State) (x : Links) : (s.withLinks x).parts = s.parts := rfl
@[simp] theorem State.withLinks_partPlot (s : State) (x : Links) : (s.withLinks x).partPlot = s.partPlot := rfl
@[simp] theorem State.withLinks_rdoms (s : State) (x : Links) : (s.withLinks x).rdoms = s.rdoms := rfl
@[simp] theorem State.withLinks_faults (s : State) (x : Links) : (s.withLinks x).faults = s.faults := rfl
@[simp] theorem State.withLinks_throttle (s : State) (x : Links) : (s.withLinks x).throttle = s.throttle := rfl
@[simp] theorem State.withLinks_cfg (s : State) (x : Links) : (s.withLinks x).cfg = s.cfg := rfl
@[simp] theorem State.withLinks_dom (s : State) (x : Links) : (s.withLinks x).dom = s.dom := rfl
@[simp] theorem State.withLinks_pair (s : State) (x : Links) : (s.withLinks x).pair = s.pair := rfl
@[simp] theorem State.withLinks_svc (s : State) (x : Links) : (s.withLinks x).svc = s.svc := rfl
@[simp] theorem State.withLinks_host (s : State) (x : Links) : (s.withLinks x).host = s.host := rfl
@[simp] theorem State.withLinks_dig (s : State) (x : Links) : (s.withLinks x).dig = s.dig := rfl
@[simp] theorem State.withLinks_own (s : State) (x : Links) : (s.withLinks x).own = s.own := rfl
@[simp] theorem State.withLinks_otp (s : State) (x : Links) : (s.withLinks x).otp = s.otp := rfl
@[simp] theorem State.withLinks_store (s : State) (x : Links) : (s.withLinks x).store = s.store := rfl
@[simp] theorem State.withLinks_fwu (s : State) (x : Links) : (s.withLinks x).fwu = s.fwu := rfl
@[simp] theorem State.withLinks_lct (s : State) (x : Links) : (s.withLinks x).lct = s.lct := rfl
@[simp] theorem State.withLinks_obs (s : State) (x : Links) : (s.withLinks x).obs = s.obs := rfl
@[simp] theorem State.withLinks_units (s : State) (x : Links) : (s.withLinks x).units = s.units := rfl
@[simp] theorem State.withLinks_kept (s : State) (x : Links) : (s.withLinks x).kept = s.kept := rfl
@[simp] theorem State.withLinks_out (s : State) (x : Links) : (s.withLinks x).out = s.out := rfl
@[simp] theorem State.withLinks_frees (s : State) (x : Links) : (s.withLinks x).frees = s.frees := rfl
@[simp] theorem State.withLinks_pending (s : State) (x : Links) : (s.withLinks x).pending = s.pending := rfl
@[simp] theorem State.withLinks_part (s : State) (x : Links) (a : Nat) : (s.withLinks x).part a = s.part a := rfl
@[simp] theorem State.withLinks_row (s : State) (x : Links) (a : Nat) : (s.withLinks x).row a = s.row a := rfl
@[simp] theorem State.withLinks_slot (s : State) (x : Links) (a : Nat) : (s.withLinks x).slot a = s.slot a := rfl
@[simp] theorem State.withLinks_lane (s : State) (x : Links) (a : Nat) : (s.withLinks x).lane a = s.lane a := rfl
@[simp] theorem State.withLinks_stepEnt (s : State) (x : Links) (a : Nat) : (s.withLinks x).stepEnt a = s.stepEnt a := rfl
@[simp] theorem State.withLinks_job (s : State) (x : Links) (a : Nat) : (s.withLinks x).job a = s.job a := rfl
@[simp] theorem State.withLinks_queue (s : State) (x : Links) (a : Nat) : (s.withLinks x).queue a = s.queue a := rfl
@[simp] theorem State.withLinks_chan (s : State) (x : Links) (a : Nat) : (s.withLinks x).chan a = s.chan a := rfl
@[simp] theorem State.withLinks_core (s : State) (x : Links) (a : Nat) : (s.withLinks x).core a = s.core a := rfl
@[simp] theorem State.withLinks_unitOf (s : State) (x : Links) (a b : Nat) : (s.withLinks x).unitOf a b = s.unitOf a b := rfl
@[simp] theorem State.withLinks_otpWord (s : State) (x : Links) (a : Nat) : (s.withLinks x).otpWord a = s.otpWord a := rfl
@[simp] theorem State.withLinks_fld (s : State) (x : Links) (g : Fld) (a b : Nat) : (s.withLinks x).fld g a b = s.fld g a b := rfl
@[simp] theorem State.withLinks_regsOpen (s : State) (x : Links) : (s.withLinks x).regsOpen = s.regsOpen := rfl
@[simp] theorem State.withLinks_ownerPort (s : State) (x : Links) : (s.withLinks x).ownerPort = s.ownerPort := rfl
@[simp] theorem State.withLinks_plots (s : State) (x : Links) : (s.withLinks x).plots = s.plots := rfl
@[simp] theorem State.withLinks_cmd (s : State) (x : Links) (a b : Nat) : (s.withLinks x).cmd a b = s.cmd a b := rfl

@[simp] theorem State.withMem_regs (s : State) (x : MemPath) : (s.withMem x).regs = s.regs := rfl
@[simp] theorem State.withMem_life (s : State) (x : MemPath) : (s.withMem x).life = s.life := rfl
@[simp] theorem State.withMem_rgn (s : State) (x : MemPath) : (s.withMem x).rgn = s.rgn := rfl
@[simp] theorem State.withMem_stile (s : State) (x : MemPath) : (s.withMem x).stile = s.stile := rfl
@[simp] theorem State.withMem_harrow (s : State) (x : MemPath) : (s.withMem x).harrow = s.harrow := rfl
@[simp] theorem State.withMem_keys (s : State) (x : MemPath) : (s.withMem x).keys = s.keys := rfl
@[simp] theorem State.withMem_parts (s : State) (x : MemPath) : (s.withMem x).parts = s.parts := rfl
@[simp] theorem State.withMem_partPlot (s : State) (x : MemPath) : (s.withMem x).partPlot = s.partPlot := rfl
@[simp] theorem State.withMem_rdoms (s : State) (x : MemPath) : (s.withMem x).rdoms = s.rdoms := rfl
@[simp] theorem State.withMem_faults (s : State) (x : MemPath) : (s.withMem x).faults = s.faults := rfl
@[simp] theorem State.withMem_throttle (s : State) (x : MemPath) : (s.withMem x).throttle = s.throttle := rfl
@[simp] theorem State.withMem_cfg (s : State) (x : MemPath) : (s.withMem x).cfg = s.cfg := rfl
@[simp] theorem State.withMem_links (s : State) (x : MemPath) : (s.withMem x).links = s.links := rfl
@[simp] theorem State.withMem_dom (s : State) (x : MemPath) : (s.withMem x).dom = s.dom := rfl
@[simp] theorem State.withMem_pair (s : State) (x : MemPath) : (s.withMem x).pair = s.pair := rfl
@[simp] theorem State.withMem_svc (s : State) (x : MemPath) : (s.withMem x).svc = s.svc := rfl
@[simp] theorem State.withMem_host (s : State) (x : MemPath) : (s.withMem x).host = s.host := rfl
@[simp] theorem State.withMem_dig (s : State) (x : MemPath) : (s.withMem x).dig = s.dig := rfl
@[simp] theorem State.withMem_own (s : State) (x : MemPath) : (s.withMem x).own = s.own := rfl
@[simp] theorem State.withMem_otp (s : State) (x : MemPath) : (s.withMem x).otp = s.otp := rfl
@[simp] theorem State.withMem_store (s : State) (x : MemPath) : (s.withMem x).store = s.store := rfl
@[simp] theorem State.withMem_fwu (s : State) (x : MemPath) : (s.withMem x).fwu = s.fwu := rfl
@[simp] theorem State.withMem_lct (s : State) (x : MemPath) : (s.withMem x).lct = s.lct := rfl
@[simp] theorem State.withMem_obs (s : State) (x : MemPath) : (s.withMem x).obs = s.obs := rfl
@[simp] theorem State.withMem_units (s : State) (x : MemPath) : (s.withMem x).units = s.units := rfl
@[simp] theorem State.withMem_kept (s : State) (x : MemPath) : (s.withMem x).kept = s.kept := rfl
@[simp] theorem State.withMem_out (s : State) (x : MemPath) : (s.withMem x).out = s.out := rfl
@[simp] theorem State.withMem_frees (s : State) (x : MemPath) : (s.withMem x).frees = s.frees := rfl
@[simp] theorem State.withMem_pending (s : State) (x : MemPath) : (s.withMem x).pending = s.pending := rfl
@[simp] theorem State.withMem_part (s : State) (x : MemPath) (a : Nat) : (s.withMem x).part a = s.part a := rfl
@[simp] theorem State.withMem_row (s : State) (x : MemPath) (a : Nat) : (s.withMem x).row a = s.row a := rfl
@[simp] theorem State.withMem_slot (s : State) (x : MemPath) (a : Nat) : (s.withMem x).slot a = s.slot a := rfl
@[simp] theorem State.withMem_stepEnt (s : State) (x : MemPath) (a : Nat) : (s.withMem x).stepEnt a = s.stepEnt a := rfl
@[simp] theorem State.withMem_job (s : State) (x : MemPath) (a : Nat) : (s.withMem x).job a = s.job a := rfl
@[simp] theorem State.withMem_port (s : State) (x : MemPath) (a : Nat) : (s.withMem x).port a = s.port a := rfl
@[simp] theorem State.withMem_actr (s : State) (x : MemPath) (a : Nat) : (s.withMem x).actr a = s.actr a := rfl
@[simp] theorem State.withMem_queue (s : State) (x : MemPath) (a : Nat) : (s.withMem x).queue a = s.queue a := rfl
@[simp] theorem State.withMem_chan (s : State) (x : MemPath) (a : Nat) : (s.withMem x).chan a = s.chan a := rfl
@[simp] theorem State.withMem_core (s : State) (x : MemPath) (a : Nat) : (s.withMem x).core a = s.core a := rfl
@[simp] theorem State.withMem_unitOf (s : State) (x : MemPath) (a b : Nat) : (s.withMem x).unitOf a b = s.unitOf a b := rfl
@[simp] theorem State.withMem_otpWord (s : State) (x : MemPath) (a : Nat) : (s.withMem x).otpWord a = s.otpWord a := rfl
@[simp] theorem State.withMem_fld (s : State) (x : MemPath) (g : Fld) (a b : Nat) : (s.withMem x).fld g a b = s.fld g a b := rfl
@[simp] theorem State.withMem_regsOpen (s : State) (x : MemPath) : (s.withMem x).regsOpen = s.regsOpen := rfl
@[simp] theorem State.withMem_ownerPort (s : State) (x : MemPath) : (s.withMem x).ownerPort = s.ownerPort := rfl
@[simp] theorem State.withMem_plots (s : State) (x : MemPath) : (s.withMem x).plots = s.plots := rfl
@[simp] theorem State.withMem_cmd (s : State) (x : MemPath) (a b : Nat) : (s.withMem x).cmd a b = s.cmd a b := rfl

@[simp] theorem State.withStv_regs (s : State) (x : Stv) : (s.withStv x).regs = s.regs := rfl
@[simp] theorem State.withStv_life (s : State) (x : Stv) : (s.withStv x).life = s.life := rfl
@[simp] theorem State.withStv_mem (s : State) (x : Stv) : (s.withStv x).mem = s.mem := rfl
@[simp] theorem State.withStv_rgn (s : State) (x : Stv) : (s.withStv x).rgn = s.rgn := rfl
@[simp] theorem State.withStv_stile (s : State) (x : Stv) : (s.withStv x).stile = s.stile := rfl
@[simp] theorem State.withStv_harrow (s : State) (x : Stv) : (s.withStv x).harrow = s.harrow := rfl
@[simp] theorem State.withStv_keys (s : State) (x : Stv) : (s.withStv x).keys = s.keys := rfl
@[simp] theorem State.withStv_parts (s : State) (x : Stv) : (s.withStv x).parts = s.parts := rfl
@[simp] theorem State.withStv_partPlot (s : State) (x : Stv) : (s.withStv x).partPlot = s.partPlot := rfl
@[simp] theorem State.withStv_rdoms (s : State) (x : Stv) : (s.withStv x).rdoms = s.rdoms := rfl
@[simp] theorem State.withStv_faults (s : State) (x : Stv) : (s.withStv x).faults = s.faults := rfl
@[simp] theorem State.withStv_throttle (s : State) (x : Stv) : (s.withStv x).throttle = s.throttle := rfl
@[simp] theorem State.withStv_cfg (s : State) (x : Stv) : (s.withStv x).cfg = s.cfg := rfl
@[simp] theorem State.withStv_links (s : State) (x : Stv) : (s.withStv x).links = s.links := rfl
@[simp] theorem State.withStv_dom (s : State) (x : Stv) : (s.withStv x).dom = s.dom := rfl
@[simp] theorem State.withStv_pair (s : State) (x : Stv) : (s.withStv x).pair = s.pair := rfl
@[simp] theorem State.withStv_svc (s : State) (x : Stv) : (s.withStv x).svc = s.svc := rfl
@[simp] theorem State.withStv_host (s : State) (x : Stv) : (s.withStv x).host = s.host := rfl
@[simp] theorem State.withStv_own (s : State) (x : Stv) : (s.withStv x).own = s.own := rfl
@[simp] theorem State.withStv_otp (s : State) (x : Stv) : (s.withStv x).otp = s.otp := rfl
@[simp] theorem State.withStv_store (s : State) (x : Stv) : (s.withStv x).store = s.store := rfl
@[simp] theorem State.withStv_fwu (s : State) (x : Stv) : (s.withStv x).fwu = s.fwu := rfl
@[simp] theorem State.withStv_lct (s : State) (x : Stv) : (s.withStv x).lct = s.lct := rfl
@[simp] theorem State.withStv_obs (s : State) (x : Stv) : (s.withStv x).obs = s.obs := rfl
@[simp] theorem State.withStv_units (s : State) (x : Stv) : (s.withStv x).units = s.units := rfl
@[simp] theorem State.withStv_kept (s : State) (x : Stv) : (s.withStv x).kept = s.kept := rfl
@[simp] theorem State.withStv_out (s : State) (x : Stv) : (s.withStv x).out = s.out := rfl
@[simp] theorem State.withStv_frees (s : State) (x : Stv) : (s.withStv x).frees = s.frees := rfl
@[simp] theorem State.withStv_pending (s : State) (x : Stv) : (s.withStv x).pending = s.pending := rfl
@[simp] theorem State.withStv_part (s : State) (x : Stv) (a : Nat) : (s.withStv x).part a = s.part a := rfl
@[simp] theorem State.withStv_row (s : State) (x : Stv) (a : Nat) : (s.withStv x).row a = s.row a := rfl
@[simp] theorem State.withStv_slot (s : State) (x : Stv) (a : Nat) : (s.withStv x).slot a = s.slot a := rfl
@[simp] theorem State.withStv_lane (s : State) (x : Stv) (a : Nat) : (s.withStv x).lane a = s.lane a := rfl
@[simp] theorem State.withStv_stepEnt (s : State) (x : Stv) (a : Nat) : (s.withStv x).stepEnt a = s.stepEnt a := rfl
@[simp] theorem State.withStv_job (s : State) (x : Stv) (a : Nat) : (s.withStv x).job a = s.job a := rfl
@[simp] theorem State.withStv_port (s : State) (x : Stv) (a : Nat) : (s.withStv x).port a = s.port a := rfl
@[simp] theorem State.withStv_actr (s : State) (x : Stv) (a : Nat) : (s.withStv x).actr a = s.actr a := rfl
@[simp] theorem State.withStv_queue (s : State) (x : Stv) (a : Nat) : (s.withStv x).queue a = s.queue a := rfl
@[simp] theorem State.withStv_chan (s : State) (x : Stv) (a : Nat) : (s.withStv x).chan a = s.chan a := rfl
@[simp] theorem State.withStv_unitOf (s : State) (x : Stv) (a b : Nat) : (s.withStv x).unitOf a b = s.unitOf a b := rfl
@[simp] theorem State.withStv_otpWord (s : State) (x : Stv) (a : Nat) : (s.withStv x).otpWord a = s.otpWord a := rfl
@[simp] theorem State.withStv_fld (s : State) (x : Stv) (g : Fld) (a b : Nat) : (s.withStv x).fld g a b = s.fld g a b := rfl
@[simp] theorem State.withStv_regsOpen (s : State) (x : Stv) : (s.withStv x).regsOpen = s.regsOpen := rfl
@[simp] theorem State.withStv_ownerPort (s : State) (x : Stv) : (s.withStv x).ownerPort = s.ownerPort := rfl
@[simp] theorem State.withStv_plots (s : State) (x : Stv) : (s.withStv x).plots = s.plots := rfl
@[simp] theorem State.withStv_cmd (s : State) (x : Stv) (a b : Nat) : (s.withStv x).cmd a b = s.cmd a b := rfl

@[simp] theorem State.setCore_regs (s : State) (c : Nat) (x : UnitSt) : (s.setCore c x).regs = s.regs := rfl
@[simp] theorem State.setCore_life (s : State) (c : Nat) (x : UnitSt) : (s.setCore c x).life = s.life := rfl
@[simp] theorem State.setCore_mem (s : State) (c : Nat) (x : UnitSt) : (s.setCore c x).mem = s.mem := rfl
@[simp] theorem State.setCore_rgn (s : State) (c : Nat) (x : UnitSt) : (s.setCore c x).rgn = s.rgn := rfl
@[simp] theorem State.setCore_stile (s : State) (c : Nat) (x : UnitSt) : (s.setCore c x).stile = s.stile := rfl
@[simp] theorem State.setCore_harrow (s : State) (c : Nat) (x : UnitSt) : (s.setCore c x).harrow = s.harrow := rfl
@[simp] theorem State.setCore_keys (s : State) (c : Nat) (x : UnitSt) : (s.setCore c x).keys = s.keys := rfl
@[simp] theorem State.setCore_parts (s : State) (c : Nat) (x : UnitSt) : (s.setCore c x).parts = s.parts := rfl
@[simp] theorem State.setCore_partPlot (s : State) (c : Nat) (x : UnitSt) : (s.setCore c x).partPlot = s.partPlot := rfl
@[simp] theorem State.setCore_rdoms (s : State) (c : Nat) (x : UnitSt) : (s.setCore c x).rdoms = s.rdoms := rfl
@[simp] theorem State.setCore_faults (s : State) (c : Nat) (x : UnitSt) : (s.setCore c x).faults = s.faults := rfl
@[simp] theorem State.setCore_throttle (s : State) (c : Nat) (x : UnitSt) : (s.setCore c x).throttle = s.throttle := rfl
@[simp] theorem State.setCore_cfg (s : State) (c : Nat) (x : UnitSt) : (s.setCore c x).cfg = s.cfg := rfl
@[simp] theorem State.setCore_links (s : State) (c : Nat) (x : UnitSt) : (s.setCore c x).links = s.links := rfl
@[simp] theorem State.setCore_dom (s : State) (c : Nat) (x : UnitSt) : (s.setCore c x).dom = s.dom := rfl
@[simp] theorem State.setCore_pair (s : State) (c : Nat) (x : UnitSt) : (s.setCore c x).pair = s.pair := rfl
@[simp] theorem State.setCore_svc (s : State) (c : Nat) (x : UnitSt) : (s.setCore c x).svc = s.svc := rfl
@[simp] theorem State.setCore_host (s : State) (c : Nat) (x : UnitSt) : (s.setCore c x).host = s.host := rfl
@[simp] theorem State.setCore_own (s : State) (c : Nat) (x : UnitSt) : (s.setCore c x).own = s.own := rfl
@[simp] theorem State.setCore_otp (s : State) (c : Nat) (x : UnitSt) : (s.setCore c x).otp = s.otp := rfl
@[simp] theorem State.setCore_store (s : State) (c : Nat) (x : UnitSt) : (s.setCore c x).store = s.store := rfl
@[simp] theorem State.setCore_fwu (s : State) (c : Nat) (x : UnitSt) : (s.setCore c x).fwu = s.fwu := rfl
@[simp] theorem State.setCore_lct (s : State) (c : Nat) (x : UnitSt) : (s.setCore c x).lct = s.lct := rfl
@[simp] theorem State.setCore_obs (s : State) (c : Nat) (x : UnitSt) : (s.setCore c x).obs = s.obs := rfl
@[simp] theorem State.setCore_units (s : State) (c : Nat) (x : UnitSt) : (s.setCore c x).units = s.units := rfl
@[simp] theorem State.setCore_kept (s : State) (c : Nat) (x : UnitSt) : (s.setCore c x).kept = s.kept := rfl
@[simp] theorem State.setCore_out (s : State) (c : Nat) (x : UnitSt) : (s.setCore c x).out = s.out := rfl
@[simp] theorem State.setCore_frees (s : State) (c : Nat) (x : UnitSt) : (s.setCore c x).frees = s.frees := rfl
@[simp] theorem State.setCore_pending (s : State) (c : Nat) (x : UnitSt) : (s.setCore c x).pending = s.pending := rfl
@[simp] theorem State.setCore_part (s : State) (c : Nat) (x : UnitSt) (a : Nat) : (s.setCore c x).part a = s.part a := rfl
@[simp] theorem State.setCore_row (s : State) (c : Nat) (x : UnitSt) (a : Nat) : (s.setCore c x).row a = s.row a := rfl
@[simp] theorem State.setCore_slot (s : State) (c : Nat) (x : UnitSt) (a : Nat) : (s.setCore c x).slot a = s.slot a := rfl
@[simp] theorem State.setCore_lane (s : State) (c : Nat) (x : UnitSt) (a : Nat) : (s.setCore c x).lane a = s.lane a := rfl
@[simp] theorem State.setCore_stepEnt (s : State) (c : Nat) (x : UnitSt) (a : Nat) : (s.setCore c x).stepEnt a = s.stepEnt a := rfl
@[simp] theorem State.setCore_job (s : State) (c : Nat) (x : UnitSt) (a : Nat) : (s.setCore c x).job a = s.job a := rfl
@[simp] theorem State.setCore_port (s : State) (c : Nat) (x : UnitSt) (a : Nat) : (s.setCore c x).port a = s.port a := rfl
@[simp] theorem State.setCore_actr (s : State) (c : Nat) (x : UnitSt) (a : Nat) : (s.setCore c x).actr a = s.actr a := rfl
@[simp] theorem State.setCore_queue (s : State) (c : Nat) (x : UnitSt) (a : Nat) : (s.setCore c x).queue a = s.queue a := rfl
@[simp] theorem State.setCore_chan (s : State) (c : Nat) (x : UnitSt) (a : Nat) : (s.setCore c x).chan a = s.chan a := rfl
@[simp] theorem State.setCore_unitOf (s : State) (c : Nat) (x : UnitSt) (a b : Nat) : (s.setCore c x).unitOf a b = s.unitOf a b := rfl
@[simp] theorem State.setCore_otpWord (s : State) (c : Nat) (x : UnitSt) (a : Nat) : (s.setCore c x).otpWord a = s.otpWord a := rfl
@[simp] theorem State.setCore_fld (s : State) (c : Nat) (x : UnitSt) (g : Fld) (a b : Nat) : (s.setCore c x).fld g a b = s.fld g a b := rfl
@[simp] theorem State.setCore_regsOpen (s : State) (c : Nat) (x : UnitSt) : (s.setCore c x).regsOpen = s.regsOpen := rfl
@[simp] theorem State.setCore_ownerPort (s : State) (c : Nat) (x : UnitSt) : (s.setCore c x).ownerPort = s.ownerPort := rfl
@[simp] theorem State.setCore_plots (s : State) (c : Nat) (x : UnitSt) : (s.setCore c x).plots = s.plots := rfl
@[simp] theorem State.setCore_cmd (s : State) (c : Nat) (x : UnitSt) (a b : Nat) : (s.setCore c x).cmd a b = s.cmd a b := rfl

@[simp] theorem State.count_regs (s : State) (n k : Nat) : (s.count n k).regs = s.regs := rfl
@[simp] theorem State.count_life (s : State) (n k : Nat) : (s.count n k).life = s.life := rfl
@[simp] theorem State.count_mem (s : State) (n k : Nat) : (s.count n k).mem = s.mem := rfl
@[simp] theorem State.count_rgn (s : State) (n k : Nat) : (s.count n k).rgn = s.rgn := rfl
@[simp] theorem State.count_stile (s : State) (n k : Nat) : (s.count n k).stile = s.stile := rfl
@[simp] theorem State.count_harrow (s : State) (n k : Nat) : (s.count n k).harrow = s.harrow := rfl
@[simp] theorem State.count_keys (s : State) (n k : Nat) : (s.count n k).keys = s.keys := rfl
@[simp] theorem State.count_parts (s : State) (n k : Nat) : (s.count n k).parts = s.parts := rfl
@[simp] theorem State.count_partPlot (s : State) (n k : Nat) : (s.count n k).partPlot = s.partPlot := rfl
@[simp] theorem State.count_rdoms (s : State) (n k : Nat) : (s.count n k).rdoms = s.rdoms := rfl
@[simp] theorem State.count_faults (s : State) (n k : Nat) : (s.count n k).faults = s.faults := rfl
@[simp] theorem State.count_throttle (s : State) (n k : Nat) : (s.count n k).throttle = s.throttle := rfl
@[simp] theorem State.count_cfg (s : State) (n k : Nat) : (s.count n k).cfg = s.cfg := rfl
@[simp] theorem State.count_links (s : State) (n k : Nat) : (s.count n k).links = s.links := rfl
@[simp] theorem State.count_dom (s : State) (n k : Nat) : (s.count n k).dom = s.dom := rfl
@[simp] theorem State.count_pair (s : State) (n k : Nat) : (s.count n k).pair = s.pair := rfl
@[simp] theorem State.count_svc (s : State) (n k : Nat) : (s.count n k).svc = s.svc := rfl
@[simp] theorem State.count_host (s : State) (n k : Nat) : (s.count n k).host = s.host := rfl
@[simp] theorem State.count_dig (s : State) (n k : Nat) : (s.count n k).dig = s.dig := rfl
@[simp] theorem State.count_own (s : State) (n k : Nat) : (s.count n k).own = s.own := rfl
@[simp] theorem State.count_otp (s : State) (n k : Nat) : (s.count n k).otp = s.otp := rfl
@[simp] theorem State.count_store (s : State) (n k : Nat) : (s.count n k).store = s.store := rfl
@[simp] theorem State.count_fwu (s : State) (n k : Nat) : (s.count n k).fwu = s.fwu := rfl
@[simp] theorem State.count_lct (s : State) (n k : Nat) : (s.count n k).lct = s.lct := rfl
@[simp] theorem State.count_units (s : State) (n k : Nat) : (s.count n k).units = s.units := rfl
@[simp] theorem State.count_kept (s : State) (n k : Nat) : (s.count n k).kept = s.kept := rfl
@[simp] theorem State.count_out (s : State) (n k : Nat) : (s.count n k).out = s.out := rfl
@[simp] theorem State.count_frees (s : State) (n k : Nat) : (s.count n k).frees = s.frees := rfl
@[simp] theorem State.count_pending (s : State) (n k : Nat) : (s.count n k).pending = s.pending := rfl
@[simp] theorem State.count_part (s : State) (n k : Nat) (a : Nat) : (s.count n k).part a = s.part a := rfl
@[simp] theorem State.count_row (s : State) (n k : Nat) (a : Nat) : (s.count n k).row a = s.row a := rfl
@[simp] theorem State.count_slot (s : State) (n k : Nat) (a : Nat) : (s.count n k).slot a = s.slot a := rfl
@[simp] theorem State.count_lane (s : State) (n k : Nat) (a : Nat) : (s.count n k).lane a = s.lane a := rfl
@[simp] theorem State.count_stepEnt (s : State) (n k : Nat) (a : Nat) : (s.count n k).stepEnt a = s.stepEnt a := rfl
@[simp] theorem State.count_job (s : State) (n k : Nat) (a : Nat) : (s.count n k).job a = s.job a := rfl
@[simp] theorem State.count_port (s : State) (n k : Nat) (a : Nat) : (s.count n k).port a = s.port a := rfl
@[simp] theorem State.count_actr (s : State) (n k : Nat) (a : Nat) : (s.count n k).actr a = s.actr a := rfl
@[simp] theorem State.count_queue (s : State) (n k : Nat) (a : Nat) : (s.count n k).queue a = s.queue a := rfl
@[simp] theorem State.count_chan (s : State) (n k : Nat) (a : Nat) : (s.count n k).chan a = s.chan a := rfl
@[simp] theorem State.count_core (s : State) (n k : Nat) (a : Nat) : (s.count n k).core a = s.core a := rfl
@[simp] theorem State.count_unitOf (s : State) (n k : Nat) (a b : Nat) : (s.count n k).unitOf a b = s.unitOf a b := rfl
@[simp] theorem State.count_otpWord (s : State) (n k : Nat) (a : Nat) : (s.count n k).otpWord a = s.otpWord a := rfl
@[simp] theorem State.count_fld (s : State) (n k : Nat) (g : Fld) (a b : Nat) : (s.count n k).fld g a b = s.fld g a b := rfl
@[simp] theorem State.count_regsOpen (s : State) (n k : Nat) : (s.count n k).regsOpen = s.regsOpen := rfl
@[simp] theorem State.count_ownerPort (s : State) (n k : Nat) : (s.count n k).ownerPort = s.ownerPort := rfl
@[simp] theorem State.count_plots (s : State) (n k : Nat) : (s.count n k).plots = s.plots := rfl
@[simp] theorem State.count_cmd (s : State) (n k : Nat) (a b : Nat) : (s.count n k).cmd a b = s.cmd a b := rfl

end Sys2Proof.Machine
end

