-- ==== Sys2Proof/Laws/Commands.lean ====
section
/-! SUPPORT. What the shared operations of a command do: an owner's register write, a queue's command at its start. -/

namespace Sys2Proof.Machine

/-- The numbers of a run of the model. -/
theorem mem_upto {x a b : Nat} : x ∈ upto a b ↔ a ≤ x ∧ x < a + b := by
  simp only [upto, List.mem_map, List.mem_range]
  exact ⟨fun ⟨c, h⟩ => by omega, fun h => ⟨x - a, by omega⟩⟩

/-- A write by the owner that finds its engine free has its effect and is answered without error. -/
theorem State.ownerCmd_owner {s : State} {port : Nat} {err : Fld} {f : State → State} {ei : Nat} (h : s.owner port) :
    s.ownerCmd port false err f ei = (f s).regRsp port 0 false := by
  obtain ⟨h, rfl⟩ := h
  simp [State.ownerCmd, h]

/-- A write by the owner that finds its engine busy is counted in the window and answered with an error. -/
theorem State.ownerCmd_busy {s : State} {port : Nat} {err : Fld} {f : State → State} {ei : Nat} (h : s.owner port) :
    s.ownerCmd port true err f ei = (s.incFld err ei).regRsp port 0 true := by
  obtain ⟨h, rfl⟩ := h
  simp [State.ownerCmd, h]

/-- A write by another controller changes nothing but the count of such writes, and is answered with an error (R14). -/
theorem State.ownerCmd_other {s : State} {port : Nat} {busy : Bool} {err : Fld} {f : State → State} {ei : Nat}
    (h : s.regsOpen = true) (hp : port ≠ s.ownerPort) :
    s.ownerCmd port busy err f ei = (s.incFld F.gstat_NONOWNER).regRsp port 0 true := by
  simp [State.ownerCmd, h, hp]

/-- Before the registers open a write does nothing (R450). -/
theorem State.ownerCmd_closed {s : State} {port : Nat} {busy : Bool} {err : Fld} {f : State → State} {ei : Nat}
    (h : s.regsOpen = false) : s.ownerCmd port busy err f ei = s := by
  simp [State.ownerCmd, h]

/-- A command of a queue that may start runs. -/
theorem State.svcCmd_startable {s : State} {q k op : Nat} {c : Cmd} {f : Cmd → State → State} (h : s.startable q k op c) :
    s.svcCmd q k op f = f c (s.started q c) := by
  obtain ⟨h, ho, hs⟩ := h
  simp [State.svcCmd, State.started, h, ho, hs]

/-- A place without a command that may start is left as it is. -/
theorem State.svcCmd_none {s : State} {q k op : Nat} {f : Cmd → State → State} (h : s.cmd q k = none) :
    s.svcCmd q k op f = s := by
  simp [State.svcCmd, h]

/-- A command whose operands lie in device memory, in places it may access, charges no HOST slot and asks for no
translation: it has its effect. -/
theorem State.charged_device {s : State} {q : Nat} {c : Cmd} {a b : Nat} {f : State → State}
    (hs : a ≠ 0 → bit c.desc.src 63 = false ∧ s.operandOk q c c.desc.src a 0 = true)
    (hd : b ≠ 0 → bit c.desc.dst 63 = false ∧ s.operandOk q c c.desc.dst b 1 = true)
    (hu : c.desc.hostUnits a b = 0) : s.charged q c a b f = f s := by
  unfold State.charged
  by_cases ha : a = 0 <;> by_cases hb : b = 0 <;> simp_all [State.hostCharge]

/-- Lines that an engine reads only count (R438). -/
theorem State.readLines_obs (s : State) (part addr len : Nat) : ∃ o, s.readLines part addr len = { s with obs := o } := by
  unfold State.readLines
  have h : ∀ (l : List Nat) (s : State), ∃ o, l.foldl (fun s l => s.count (4 * s.groupOf (l * 64)) 1) s = { s with obs := o } := by
    intro l
    induction l with
    | nil => intro s; exact ⟨s.obs, rfl⟩
    | cons x xs ih => intro s; exact ih (s.count (4 * s.groupOf (x * 64)) 1)
  exact h _ (s.count (320 + 2 * part) (ceilDiv len 64))

/-- Counting lines changes no place that a command may read. -/
theorem State.readLines_srcOk (s : State) (part addr len q : Nat) (c : Cmd) (n : Nat) (r : ReadOut) :
    (s.readLines part addr len).srcOk q c n r = s.srcOk q c n r := by
  obtain ⟨o, h⟩ := s.readLines_obs part addr len
  rw [h]; rfl

/-- A tenant operation of the PKU with a token, its operands in device memory and its source read, takes the token, counts
the lines it read, and runs on the bytes that came (R321, R344, R438). -/
theorem State.tenantOp_runs {s : State} {q : Nat} {c : Cmd} {a b : Nat} {src : ReadOut} {f : Bytes → State → State}
    (ht : s.svcAdmits (s.qPart q) = true) (he : s.engineOut 6 = false) (ha : a ≠ 0)
    (hs : bit c.desc.src 63 = false) (hr : s.srcOk q c a src = true)
    (hd : b ≠ 0 → bit c.desc.dst 63 = false ∧ s.operandOk q c c.desc.dst b 1 = true)
    (hu : c.desc.hostUnits a b = 0) :
    s.tenantOp q c a b src f = f src.bytes (s.pkuStarted q c a) := by
  have ho : s.operandOk q c c.desc.src a 0 = true ∧ src.ok = true ∧ src.bytes.length = a := by
    simp [State.srcOk] at hr; exact ⟨hr.1.1, hr.1.2, hr.2⟩
  unfold State.tenantOp
  simp only [ht, he]
  rw [State.charged_device (fun _ => ⟨hs, ho.1⟩) hd hu]
  simp [State.takeSrc, State.pkuStarted, ha, hs, ho, State.readLines_srcOk, hr]

end Sys2Proof.Machine
end

