-- ==== Sys2Proof/WellFormed.lean ====
section
/-! DEFINITION. Well-formed commands: those whose operands lie within what the manual gives the block (44 lanes, 40
groups and ports, 16 fabric interfaces, 36 attachments, 68 cores, 256 queues, 6 attach ports). A command whose operand
lies outside changes nothing. -/

namespace Sys2Proof

/-- An attach port (R68). -/
def portOk (p : Nat) : Bool := decide (p < 6)

/-- An origin names an attach port, or one of 256 queues and a place among its 16 in flight (R305). -/
def Origin.wf : Origin → Bool
  | .reg p => portOk p
  | .svc q k => decide (q < 256 ∧ k < 16)

/-- A register access lies in the block window (R12, R16). -/
def RegAccess.wf (a : RegAccess) : Bool := decide (a.off < 2 ^ 24)

/-- A memory request carries one line of data for each line of a write, and none for a read (R52). -/
def MemReq.wf (r : MemReq) : Bool :=
  if r.write then decide (r.data.length = r.len.toNat + 1) else r.data.isEmpty

/-- A fabric request carries its lines of data when it is a STORE (R263). -/
def FabReq.wf (r : FabReq) : Bool :=
  if r.op = 1 then decide (r.data.length = r.len.toNat + 1) else r.data.isEmpty

/-- Well-formed commands. -/
def Instr.wf : Instr → Bool
  | .memoryRequest g r => decide (g < 40) && r.wf
  | .spanPartTimeout g _ | .dmcReadData g _ _ | .metadataLineArrival g _ _ _ _ | .tagVerdict g _ | .readRelease g
  | .rereadVerdict g _ | .dmcAccessAccept g => decide (g < 40)
  | .laneGrant n _ | .creditRequest n _ | .pageUnlock n _ => decide (n < 44)
  | .counterEvict level _ => decide (1 ≤ level ∧ level ≤ 3)
  | .nodeRetag r => decide (r < 8)
  | .fabricRequest i r => decide (i < 16) && r.wf
  | .frameReceive port _ _ => decide (port < 40)
  | .linkDown att | .linkUp att => decide (att < 36)
  | .chunkDispatch core | .chunkHashed core => decide (core < 68)
  | .stvOpen o _ _ | .stvClose o _ | .stvRead o _ | .stvFree o _ | .watchArm o _ | .watchRead o _ | .watchDisarm o _
  | .tokOpen o _ | .tokClose o _ | .tokRead o _ | .tokFree o _ | .rgnCreate o _ _ | .rgnDestroy o _ _
  | .rgnSeal o _ _ | .rgnReset o _ _ | .rgnAdvance o _ _ | .keyAlloc o _ | .keyRef o _ | .keyUnref o _ | .fabGrant o
  | .fabRevoke o | .actrRead o _ | .actrConfig o _ | .actrRelease o _ | .otpProgram o _ _ _ => o.wf
  | .laneBistStart port n _ | .laneSwap port n _ _ | .laneReturn port n => portOk port && decide (n < 44)
  | .portBistStart port n _ | .portSwap port n _ _ | .portReturn port n => portOk port && decide (n < 40)
  | .sheaf q k _ | .sheafAppend q k | .rgnRef q k | .rgnUnref q k | .completionWrite q k | .queueTimeout q k _ | .nop q k
  | .aesEnc q k _ | .aesDec q k _ | .xtsEnc q k _ | .xtsDec q k _ | .gangStripeDone q k _ _ | .keyWrap q k
  | .keyImport q k _ | .keyOrigin q k _ | .pkHash q k _ | .pkMldsaVerify q k _ | .pkEcdsaVerify q k _
  | .drillStore q k _ | .drillRun q k _ _ | .drillDrop q k => decide (q < 256 ∧ k < 16)
  | .descriptorFetch q _ => decide (q < 256)
  | .sqDoorbell port q _ | .queueDisable port q | .queueEnable port q => portOk port && decide (q < 256)
  | .hostMboxGo port m _ => portOk port && decide (m < 65)
  | .atsCompletion att _ _ _ _ | .atsInvalidate att _ _ => decide (att < 2)
  | .bounceDoorbell port c _ => portOk port && decide (c < 128)
  | .bounceTransfer c _ _ | .transferComplete c => decide (c < 128)
  | .marginSample n _ _ _ => decide (n < 68)
  | .peerRegisterRequest port _ _ a => decide (port = 4 ∨ port = 5) && a.wf
  | .hostRegisterAccess att a => decide (att < 2) && a.wf
  | .rcRegisterRead port a | .registerWrite port a => portOk port && a.wf
  | .stvBistStart port _ _ | .stvBistSwap port _ _ _ | .stvBistReturn port _ | .flush port | .rgnRead port _
  | .hrwStart port _ | .hrwSuspend port _ | .hrwResume port _ | .hrwRetire port _ | .keyRead port _ | .keySucc port _
  | .setLimit port _ | .domJoin port | .domLeave port | .domAdvance port | .ballotPost port _ | .cellRead port _
  | .cellHandover port _ | .resetDrain port _ | .resetSquash port _ | .flip port _ | .ownClaimPost port
  | .handoverGo port _ | .handoverCancel port | .cfgLoad port _ | .cfgDiscard port | .cfgSwap port _ | .lcPost port _
  | .otpRead port _ | .fwuStage port _ _ | .fwuStart port | .fwuCancel port | .fwuAbandon port | .cert port _ _ _
  | .fltAbort port _ _ _ | .fltReset port _ _ _ _ | .hedge port _ | .unhedge port _ | .winnow port _ | .warmReq port
  | .pwrReq port | .pwrStop port | .freeze port | .unfreeze port | .peerCopy port | .unitBistStart port _ _ _
  | .unitSwap port _ _ _ _ | .unitReturn port _ _ | .inject port _ _ _ | .traceRead port _ _ | .obsChallenge port _
  | .obsResponse port _ | .counterHalfRead port _ _ => portOk port
  | .throttleWindow | .stileRelease _ | .creditDecision | .nosuccRetry | .autoStartRetry | .frameClose _ _
  | .flagStoreEffect _ _ | .breakReceive _ _ _ | .creditMessage _ | .responseTimeout _ | .flowIdleRelease _ _
  | .flowRekey _ _ | .copyLocalRead _ _ | .stepCommit _ | .stileEvent _ | .stepDone _ | .mirrorTimeout _ | .accHalt _
  | .accResume _ | .haltAck _ | .drainAck _ | .drainAckFall _ | .drainOverrun _ | .scrubRequest _ | .scrubDone _ _
  | .scrubOverrun _ | .rdomFence _ | .rdomFenced _ | .rdomUnfence _ | .fenceOverrun _ | .chunkDescriptor _
  | .scanRead _ _ | .straddleFetch _ | .straddleFetchDone _ _ | .straddleFetchTimeout _ | .contextFinish _
  | .partialRecord _ | .finalRecord _ | .gatherTimeout _ | .tokenRecordChained _ _ | .stookClose | .maxwaitExpiry
  | .stookSigned | .regionFree _ | .sealComplete _ _ _ | .sealGatherTimeout _ | .advanceComplete _ | .jobRun
  | .harrowPageClose _ _ | .harrowPageOpen _ _ _ | .harrowMoveAbandon _ _ _ | .turnover _ | .headlandMark _
  | .slotTeardown _ | .ledgerRewrap | .keyRowCheckFail _ _ | .esHealthFail _ | .drbgReseed | .switchover _ _
  | .grantUnreachable | .hello _ _ _ | .challenge _ _ _ | .evidence _ _ _ | .admitCmd _ _ _ _ | .admissionTimeout
  | .prepare _ _ _ _ _ | .prepared _ _ | .prepareTimeout | .commit _ _ | .commitRepeat | .committed _ _ | .abort _ _
  | .epochGraceEnd | .heartbeatSend | .heartbeat _ _ | .lease _ _ _ _ _ _ | .memberSilent _ | .leaseExpiry
  | .ballotLapse | .fallowRetry | .leaveTimeout | .ballot _ _ | .down _ _ | .records _ _ | .leave _ | .domainTick _
  | .pairBootstrap _ _ _ _ _ _ _ | .pairHeartbeat | .mirror _ _ _ _ | .mirrorAck _ _ | .restoreReq _ _
  | .restore _ _ _ _ _ | .partnerLost _ | .claimSend | .claimReceive _ | .handoverReceive _ | .scuBurst | .mctpMessage _
  | .hostDmaReadDone _ _ _ | .keywarn _ | .dirtyLogOr _ _ _ | .cohortDecision | .handoverLapse | .swapEffect
  | .cfgPersist _ | .endOfLifeWipe | .fwuReady _ | .fwuBootTimeout | .fwuHandover | .fwuStuck | .powerOnReset
  | .bringupPhaseDone _ _ | .warmReset _ | .settleTimeout | .restoreWaitTimeout | .pllLockLoss | .powerCycleSend
  | .gleanerRecord | .injectExpiry | .reeveHeartbeat | .traceRecord | .powerOnResetAssert | .pllLockReturn
  | .epoch0EntryExpiry _ _ | .startUpTestPass | .unitOutOfService _ _ => true

end Sys2Proof
end

