-- ==== Sys2Proof/Tests/Slice0.lean ====
section
/-! SUPPORT. The tests: ill-formed commands are refused; every obligation's hypotheses can be met, each clause by a small
state and operands at the edge of their range; and single commands end as the manual's own numbers say. -/

namespace Sys2Proof.Tests

open Sys2Proof.Machine

set_option Elab.async false

/-! ### Small states -/

/-- A block in service in PRODUCTION, owned on attach port 0. -/
def up : State :=
  { State.reset with life := { powered := true, phase := 15, ready := true, lc := .production, pllLock := true,
                               blkFence := false } }

/-- A TILLED region of partition 0 over the first two granules, under MEMORY slot 2, with every permission. -/
def field : Region := { kind := .tilled, state := .opened, kidx := 2, count := 2, perm := 15, epoch := 7 }

/-- A block in service with that region in row 5. -/
def land : State :=
  { up with rgn := { up.rgn with rows := [(5, field)] }, keys := { up.keys with slots := [(2, { kind := .memory })] } }

/-- A one-line read of the first line by partition 0, in class 1. -/
def rd1 : MemReq :=
  { addr := 0, len := 0, write := false, kidx := 2, part := 0, gen := 0, step := 1, cls := 1, tid := 0, span := 0, rdom := 0,
    data := [] }

/-- A one-line FABRIC store to unit 5. -/
def fab1 : FabReq :=
  { op := 1, aop := 0, dest := 5, addr := 0, len := 0, kidx := 3, actr := 0, part := 0, gen := 0, step := 1, cls := 1,
    rdom := 0, tid := 0, data := [0], op1 := 0, op2 := 0, rest := true }

/-- A command of a service queue in place `k`, fetched and ready to start. -/
def cmdAt (k : Nat) (d : Desc) : Cmd := { k := k, idx := 0, ord := 0, desc := d, owner := true }

/-- A state with one command in flight in a running queue. -/
def withCmd (s : State) (q : Nat) (c : Cmd) : State := s.setQueue q { state := .running, cmds := [c] }

/-- A register access of 64 bits. -/
def acc (off : Nat) (write : Bool) (data : Word) : RegAccess := { off := off, write := write, wide := true, hi := false, data := data }

/-- A read of memory that answered with bytes. -/
def got (n : Nat) : ReadOut := { ok := true, bytes := List.replicate n 0 }

/-! ### Ill-formed commands are refused, well-formed ones at the edge are not -/

theorem test_wf_group : (Instr.memoryRequest 40 rd1).wf = false ∧ (Instr.memoryRequest 39 rd1).wf = true := by decide
theorem test_wf_group_beat : (Instr.readRelease 40).wf = false ∧ (Instr.readRelease 39).wf = true := by decide
theorem test_wf_read_carries_no_data : (Instr.memoryRequest 0 { rd1 with data := [0] }).wf = false := by decide
theorem test_wf_write_carries_its_lines : (Instr.memoryRequest 0 { rd1 with write := true, len := 1, data := [0] }).wf = false ∧
    (Instr.memoryRequest 0 { rd1 with write := true, len := 1, data := [0, 0] }).wf = true := by decide
theorem test_wf_lane : (Instr.laneGrant 44 1).wf = false ∧ (Instr.laneGrant 43 1).wf = true := by decide
theorem test_wf_level : (Instr.counterEvict 4 0).wf = false ∧ (Instr.counterEvict 0 0).wf = false ∧
    (Instr.counterEvict 3 0).wf = true := by decide
theorem test_wf_retag : (Instr.nodeRetag 8).wf = false ∧ (Instr.nodeRetag 7).wf = true := by decide
theorem test_wf_interface : (Instr.fabricRequest 16 fab1).wf = false ∧ (Instr.fabricRequest 15 fab1).wf = true := by decide
theorem test_wf_store_carries_its_lines : (Instr.fabricRequest 0 { fab1 with len := 1 }).wf = false := by decide
theorem test_wf_load_carries_no_data : (Instr.fabricRequest 0 { fab1 with op := 0 }).wf = false := by decide
theorem test_wf_link_port : (Instr.frameReceive 40 ⟨0, [], 0⟩ false).wf = false ∧ (Instr.portBistStart 0 40 0).wf = false := by decide
theorem test_wf_attachment : (Instr.linkUp 36).wf = false ∧ (Instr.linkDown 35).wf = true := by decide
theorem test_wf_core : (Instr.chunkDispatch 68).wf = false ∧ (Instr.chunkHashed 67).wf = true := by decide
theorem test_wf_origin_port : (Instr.tokRead (.reg 6) 0).wf = false ∧ (Instr.tokRead (.reg 5) 0).wf = true := by decide
theorem test_wf_origin_queue : (Instr.tokRead (.svc 256 0) 0).wf = false ∧ (Instr.tokRead (.svc 255 15) 0).wf = true := by decide
theorem test_wf_origin_place : (Instr.tokRead (.svc 0 16) 0).wf = false := by decide
theorem test_wf_queue_place : (Instr.nop 256 0).wf = false ∧ (Instr.nop 0 16).wf = false ∧ (Instr.nop 255 15).wf = true := by decide
theorem test_wf_queue : (Instr.descriptorFetch 256 ⟨true, []⟩).wf = false ∧ (Instr.queueEnable 0 256).wf = false := by decide
theorem test_wf_mailbox : (Instr.hostMboxGo 1 65 0).wf = false ∧ (Instr.hostMboxGo 1 64 0).wf = true := by decide
theorem test_wf_host_attachment : (Instr.atsInvalidate 2 0 0).wf = false ∧ (Instr.hostRegisterAccess 2 (acc 0 false 0)).wf = false := by
  decide
theorem test_wf_channel : (Instr.bounceDoorbell 1 128 0).wf = false ∧ (Instr.transferComplete 127).wf = true := by decide
theorem test_wf_margin_sensor : (Instr.marginSample 68 0 0 true).wf = false ∧ (Instr.marginSample 67 0 0 true).wf = true := by decide
theorem test_wf_peer_port : (Instr.peerRegisterRequest 3 0 false (acc 0 false 0)).wf = false ∧
    (Instr.peerRegisterRequest 5 0 false (acc 0 false 0)).wf = true := by decide
theorem test_wf_register_offset : (Instr.rcRegisterRead 0 (acc (2 ^ 24) false 0)).wf = false ∧
    (Instr.rcRegisterRead 5 (acc (2 ^ 24 - 1) false 0)).wf = true := by decide
theorem test_wf_attach_port : (Instr.freeze 6).wf = false ∧ (Instr.freeze 5).wf = true := by decide

/-! ### The hypotheses of the obligations are met -/

theorem witness_StepRunsFront : ({ up with pending := [.throttleWindow, .cohortDecision] } : State).pending =
    .throttleWindow :: [.cohortDecision] ∧ up.pending = [] := by decide

theorem witness_BoundedKept : Bounded up ∧ ∃ t, step { up with pending := [.accHalt 63] } = .next t :=
  ⟨⟨trivial, by unfold RecordersBounded; decide⟩, _, rfl⟩

theorem witness_RegisterFile : F.keySel_SLOT.lo + F.keySel_SLOT.width ≤ 64 ∧ F.keySel_ARG.reg = F.keySel_SLOT.reg ∧
    (F.keySel_ARG.lo + F.keySel_ARG.width ≤ F.keySel_SLOT.lo ∨ F.keySel_SLOT.lo + F.keySel_SLOT.width ≤ F.keySel_ARG.lo) ∧
    F.keySel_ARG.lo + F.keySel_ARG.width ≤ 64 ∧ Reg.key .keyCmd 0 0 0 ≠ F.keySel_SLOT.reg.key 0 0 0 := by decide

theorem witness_UnmappedAccesses : up.regsOpen = true ∧ 0x7FFFF8 % 8 = 0 ∧ regAt? 0x7FFFF8 = none := by decide +kernel

/-- LZ_PWR_RAMP, which has no ANY field, and LZ_READY, which has no writable field. -/
def rampAt : RegAt := ⟨.pwrRamp, 0, 0⟩
def ramp (v : Word) : RegAccess := acc (Reg.pwrRamp.off 0 0) true v
def readyAt : RegAt := ⟨.ready, 0, 0⟩

theorem witness_NonOwnerWrites : up.regsOpen = true ∧ (ramp 20).write = true ∧ (ramp 20).off % 8 = 0 ∧
    regAt? (ramp 20).off = some rampAt ∧ (∀ f ∈ rampAt.reg.fields, f.acc ≠ .any) ∧ 5 ≠ up.ownerPort := by decide +kernel

theorem witness_ReservedWrites : up.regsOpen = true ∧ (ramp 19).off % 8 = 0 ∧ regAt? (ramp 19).off = some rampAt ∧
    0 = up.ownerPort ∧ (∃ f ∈ rampAt.reg.fields, f.acc.writable = true ∧ acts (ramp 19) f = true) ∧
    up.reserved rampAt (up.writeWord 0 rampAt (ramp 19)) = true := by decide +kernel

theorem witness_RegisterAccesses :
    (State.reset.regsOpen = false) ∧
    (up.regsOpen = true ∧ (acc 0x11 false 0).off % 8 ≠ 0) ∧
    ((acc 0x10 false 0).wide = true ∧ regAt? 0x10 = some readyAt ∧ readyAt.reg ≠ .obsCnt ∧ readyAt.reg ≠ .clkStat ∧
      5 ≠ up.ownerPort) ∧
    ((∀ f ∈ readyAt.reg.fields, f.acc.writable = false) ∧ 0 = up.ownerPort) ∧
    (regAt? (ramp 20).off = some rampAt ∧ (∃ f ∈ rampAt.reg.fields, f.acc.writable = true ∧ acts (ramp 20) f = true) ∧
      up.reserved rampAt (up.writeWord 0 rampAt (ramp 20)) = false ∧ up.barred 0 rampAt (up.writeWord 0 rampAt (ramp 20)) = false) := by
  decide +kernel

/-- A block in a domain with a partner and a seat. -/
def ek1 : EpochKey := { epoch := 1, key := 0, members := [0, 7], gens := [] }
def ballot7 : Ballot := { unit := 7, epoch := 1, notBefore := 0, notAfter := 10 ^ 10, hash := 0, bytes := [] }
def plot0 : PairPlot := { partner := 9, attA := 30, attB := 31, cells := [(4, true)] }
def paired : State :=
  { up with cfg := { up.cfg with active := some { pair := some plot0, domain := some { unit := 3, cands := [3] } } },
            dom := { up.dom with cur := some ek1, ballot := some ballot7 } }

theorem witness_RegisterAccesses_peers : paired.dom.cur = some ek1 ∧ paired.pairPlot = some plot0 ∧
    plot0.partner = (9 : BitVec 16).toNat ∧ paired.dom.ballot = some ballot7 ∧ ballot7.unit = (7 : BitVec 16).toNat ∧
    (7 : BitVec 16).toNat ≠ paired.unit := by decide +kernel

def claim5 : Claim := ⟨5, 0, []⟩
/-- The block with its DRBG seeded. -/
def seeded (s : State) : State := { s with keys := { s.keys with drbgReady := true } }

theorem witness_Ownership :
    (up.regsOpen = true ∧ up.fld F.ownClaim_BUSY 0 5 ≠ 1) ∧
    ((seeded up).drbgOk = true ∧ ({ up with own := { up.own with claims := [claim5] } } : State).own.claims = [claim5] ∧
      up.claimCheck claim5 = some 4) ∧
    (up.owner 0 ∧ (5 : BitVec 3).toNat ≠ up.ownerPort ∧ (1 : BitVec 3).toNat < 6) ∧
    ((up.setFld F.ownStatus_OWNER 5).owner 5 ∧ (up.setFld F.ownStatus_OWNER 5).ownerPort ≠ 0) ∧
    ((up.setFld F.ownStatus_HANDOVER 1).owner 0 ∧ (up.setFld F.ownStatus_HANDOVER 1).fld F.ownStatus_HANDOVER = 1 ∧
      (up.setFld F.ownStatus_HANDOVER 1).own.lapseAt ≤ up.life.time) := by decide +kernel

theorem witness_TraceAndCounters :
    (({ up with obs := { up.obs with staging := [{}] } } : State).obs.staging = [{}] ∧ up.obs.lost = false) ∧
    ((255 : BitVec 16).toNat ≤ 255 ∧ (0 : BitVec 16).toNat = 0 ∧ 255 < (256 : BitVec 16).toNat) ∧
    (bit (up.classes 0) (cntClass (511 : BitVec 9).toNat) = true ∧ bit (up.classes 4) (cntClass (0 : BitVec 9).toNat) = false) ∧
    tget none ({ up with obs := { up.obs with latch := [(5, some (0, 1))] } } : State).obs.latch 5 = some (0, 1) := by
  decide +kernel

/-- A block in service whose plots let every port reopen. -/
def open_ : State := { up with cfg := { up.cfg with active := some { observe := some (List.replicate 6 0x8001) } } }

theorem witness_Reopening : open_.regsOpen = true ∧ (255 : BitVec 16).toNat < 256 ∧ open_.allowReopen 5 = true ∧
    open_.life.lc = .production ∧ (seeded open_).predOk = true ∧ open_.grantCheck 5 [] = some 2 ∧ (2 : Nat) ≠ 7 := by decide +kernel

theorem witness_OtpAndLifeCycle :
    (up.regsOpen = true ∧ (991 : BitVec 10).toNat < 992 ∧ (7 : BitVec 10).toNat < 8 ∧ 23 < (24 : BitVec 10).toNat) ∧
    (8 ≤ (8 : BitVec 10).toNat ∧ (23 : BitVec 10).toNat ≤ 23) ∧
    (up.owner 0 ∧ otpRefusal up.life.lc 991 = none ∧ up.otp.repairs.contains 991 = false ∧
      (up.setFld F.otpData_VALUE 3).fld F.otpData_VALUE ≠ up.otpWord 991 ∧
      (up.setFld F.otpData_VALUE 3).fld F.otpData_VALUE ||| up.otpWord 991 = (up.setFld F.otpData_VALUE 3).fld F.otpData_VALUE) ∧
    ((up.otpPut 991 1).owner 0 ∧ (up.otpPut 991 1).fld F.otpData_VALUE ||| (up.otpPut 991 1).otpWord 991 ≠
      (up.otpPut 991 1).fld F.otpData_VALUE) ∧
    (otpRefusal up.life.lc 0 = some 3 ∧ otpRefusal up.life.lc 863 = some 2) ∧
    (up.requestForm [] = false) ∧
    ({ up with lct := { up.lct with wiping := true } } : State).lct.wiping = true := by decide +kernel

/-- The block with a reset cause to end: settling, or with its lock lost. -/
def dark : State := State.reset
def settlingS : State := { up with life := { up.life with settling := true } }
def pairUp : State := { paired with pair := { paired.pair with state := .up, cells := [(4, some true)] } }

theorem witness_Resets : dark.life.powered = false ∧
    (up.life.powered = true ∧ up.life.settling = false ∧ up.life.warmReq = false ∧ up.life.lockLost = false) ∧
    (pairUp.life.ready = true ∧ pairUp.pair.state = .up ∧ pairUp.life.settling = false) ∧
    (({ dark with life := { dark.life with powered := true } } : State).life.ready = false) ∧
    settlingS.life.settling = true ∧ up.life.pllLock = true ∧
    (({ up with life := { up.life with pllLock := false, lockLost := true } } : State).life.lockLost = true) := by decide

def inPhase (n : Nat) : State := { State.reset with life := { powered := true, phase := n, blkFence := true } }
def waiting8 : State :=
  { seeded (inPhase 8) with life := { (inPhase 8).life with restoreWait := true }, pair := { state := .up },
                            cfg := { image := some { version := 0 }, active := some { pair := some plot0 } } }

theorem witness_BringupPhases :
    ((inPhase 1).life.powered = true ∧ (inPhase 1).life.fail = 0 ∧ (inPhase 14).life.phase ≠ 15 ∧
      ((inPhase 14).phaseWork (got 0)).1 = true ∧ (seeded (inPhase 9)).predOk = true ∧ (inPhase 2).keys.esFail = false) ∧
    ((inPhase 5).phaseWork ⟨false, []⟩).1 = false ∧
    ((stopCauses 2).contains (1 : BitVec 4).toNat = true ∧ (stopCauses 3).contains (3 : BitVec 4).toNat = true) ∧
    (waiting8.life.restoreWait = true ∧ waiting8.pair.state = .up ∧ waiting8.predOk = true ∧
      waiting8.pairPlot = some plot0 ∧ (inPhase 8).life.restoreWait = false) ∧
    (waiting8.cfg.image.map (·.version) = some 0 ∧ le (itemData [] 1 0) 96 8 = 0 ∧
      le (itemData [(1, 0, List.replicate 104 1)] 1 0) 96 8 ≠ 0) := by decide +kernel

/-- A firmware that is staged, and states of an update. -/
def fw1 : Firmware := { version := 2, security := 0, meas := 0 }
def fwuIn (st : FwuSt) : State := { land with fwu := { land.fwu with st := st, staged := some fw1 } }
/-- The argument registers name 64 bytes of the region. -/
def argd : State := (land.setFld F.fwuArg_LEN 64).setFld F.fwuArg_ADDR 128

theorem witness_FirmwareUpdates :
    (argd.owner 0 ∧ argd.fwu.st = .idle ∧ argd.life.lc ≠ .endOfLife ∧ argd.argRead (got 64) 65536 = true ∧
      argd.firmwareFault (got 64).bytes = some 2 ∧ argd.life.lc = .production ∧ argd.store.chain = none ∧
      ({ argd with store := { argd.store with chain := some [1] } } : State).store.chain = some [1]) ∧
    ((fwuIn .staged).owner 0 ∧ (fwuIn .staged).fwu.st = .staged ∧ (fwuIn .staged).lct.pending = 0 ∧
      ((fwuIn .staged).unitOf 4 0).role ≠ .spare ∧ ((fwuIn .staged).unitOf 4 2).role = .spare ∧
      ∀ i < 3, (((fwuIn .staged).setUnit 4 2 { role := .bypassed }).unitOf 4 i).role ≠ .spare) ∧
    (argd.fwu.st ≠ .staged ∧ (fwuIn .stuck).fwu.st = .stuck ∧ (fwuIn .keyed).fwu.st = .keyed) ∧
    ((fwuIn .booting).fwu.staged = some fw1 ∧ (fwuIn .booting).fwu.derived = false ∧ (1 : Digest) ≠ fw1.meas ∧
      (fwuIn .booting).slotsFor ((fwuIn .booting).namedKeys.filter fun k => decide (((fwuIn .booting).slot k).succ = 0)) = true) ∧
    ((fwuIn .booting).fwu.boots < 3 ∧
      3 ≤ ({ fwuIn .booting with fwu := { (fwuIn .booting).fwu with boots := 3 } } : State).fwu.boots) ∧
    ((fwuIn .moving).fwu.abandoning = false ∧ (fwuIn .moving).movesSettled = true ∧
      (({ fwuIn .moving with fwu := { (fwuIn .moving).fwu with abandoning := true, back := true } } : State).fwu.back = true)) ∧
    (fwuIn .handover).fwu.st = .handover := by decide +kernel

/-- The shadow holds an image that the swap takes. -/
def imgOk : Pesum := { version := 5, lanes := List.range 40, reeveVersion := 2,
                       parts := [{ present := true, carveCount := 4 }],
                       ports := (List.range 40).map fun n => if n < 36 then { role := 0, att := some n } else {} }
def shadowed (s : State) : State := { s with cfg := { s.cfg with shadow := .valid, image := some imgOk } }
def swapping (s : State) : State := { s with cfg := { s.cfg with swapping := true } }

theorem witness_FirmwareUpdates_handover : (shadowed (fwuIn .moving)).handoverImage fw1 = some imgOk ∧
    (shadowed (fwuIn .moving)).swapRefusal imgOk = none ∧ (shadowed (fwuIn .moving)).cfg.swapping = false := by decide +kernel

theorem witness_Configuration :
    (land.owner 0 ∧ land.cfg.swapping = false ∧ land.life.lc ≠ .blank ∧ land.life.lc ≠ .endOfLife ∧
      land.fld F.cfgShadowBase_LOC = 0 ∧ ({ up with life := { up.life with lc := .endOfLife } } : State).owner 0) ∧
    (land.cfg.resuming = false ∧ (swapping land).owner 0 ∧ (swapping land).cfg.waiting.contains (.cfgDiscard 0) = false) ∧
    (((land.setFld F.cfgShadowBase_LOC 1).owner 0) ∧ (land.setFld F.cfgShadowBase_LOC 1).fld F.cfgShadowBase_LOC ≠ 0 ∧
      (land.setFld F.cfgShadowBase_LOC 1).operandRow 0 true 0 64 0 = some 5) ∧
    (land.emptyShadow.imageFault []).isSome = true ∧
    ((shadowed land).owner 0 ∧ (shadowed land).cfg.shadow = .valid ∧ (shadowed land).cfg.image = some imgOk ∧
      (shadowed land).swapRefusal imgOk = none ∧ imgOk.keymap = [] ∧ (shadowed land).kidxConflict imgOk = false ∧
      (shadowed land).swapRefusal { imgOk with version := 0 } = some 3) ∧
    ((swapping (shadowed land)).cfg.swapping = true ∧ (swapping (shadowed land)).swapRefusal imgOk = none ∧
      (swapping (shadowed land)).kidxConflict { imgOk with regions := [(6, field), (7, { field with kidx := 9 })] } = true) ∧
    (({ land with cfg := { land.cfg with persisting := true } } : State).cfg.persisting = true) := by decide +kernel

theorem witness_AbortReset : up.owner 0 ∧ up.fld F.fltAbort_BUSY ≠ 1 ∧ 256 ≤ (256 : BitVec 13).toNat ∧
    (255 : BitVec 13).toNat < 256 ∧ (64 : BitVec 13).toNat < 65 ∧ up.fld F.fltReset_BUSY ≠ 1 := by decide +kernel

theorem witness_ChipRequests : up.owner 0 ∧ up.life.warmReq = false ∧ up.units.pwrReq = false ∧
    ({ up with units := { up.units with pwrReq := true } } : State).units.pwrReq = true ∧ up.life.powered = true := by decide +kernel

def staged1 : Staged := { src := .lane, inst := 3, ev := .poison, sev := .notice, part := some 1, arg0 := 0, arg1 := 0 }
def gln (frozen : Bool) : State := { up with faults := { up.faults with staging := [staged1], frozen := frozen } }
/-- A block that holds the partner's image and names the region for its copy. -/
def copyS : State :=
  { (land.setFld F.glnArg_ADDR 64) with pair := { land.pair with image := { held := true } } }

theorem witness_Gleaner : (gln false).faults.staging = [staged1] ∧ (gln false).faults.frozen = false ∧ staged1.sev = .notice ∧
    (gln false).faults.lost = false ∧ staged1.rehearsal = false ∧ (gln true).faults.frozen = true ∧ up.owner 0 ∧
    (copyS.owner 0 ∧ copyS.fld F.glnCtl_BUSY ≠ 1 ∧ copyS.operandRow 0 true (copyS.fld F.glnArg_ADDR) (64 + 4096 * 32) 1 = some 5 ∧
      (copyS.row 5).kind = .tilled ∧ copyS.pair.image.held = true) := by decide +kernel

/-- A REHEARSAL plot that permits TAG injections at the region of row 5. -/
def reh : RehPlot := { tag := true, canary := 5, rate := 1 }
def reheS : State := { land with cfg := { land.cfg with active := some { rehearsal := some reh } } }
def armed : State :=
  { (land.setFld F.fltInject_BUSY 1).setFld F.fltInject_KIND 1 with faults := { land.faults with tagInject := some ⟨0, false, none⟩ } }

theorem witness_Rehearsal : reheS.owner 0 ∧ reheS.fld F.fltInject_BUSY ≠ 1 ∧ reheS.cfg.active = some { rehearsal := some reh } ∧
    reh.permits 1 255 (reheS.fld F.fltInjarg_LINE) (reheS.row reh.canary) = true ∧ reheS.injectRate reh = false ∧
    armed.fld F.fltInject_BUSY ≠ 0 ∧ armed.fld F.fltInject_KIND = 1 ∧
    armed.faults.tagInject = some ⟨0, false, none⟩ := by decide +kernel

theorem witness_Telemetry : up.life.powered = true ∧ 5 ≤ up.life.phase ∧ up.life.phase ≠ 10 ∧
    up.marginLow 0 255 0 = false ∧ up.marginLow 31 255 0 = false ∧
    (up.setPort 35 { role := .bypassed }).served (67 - 32) = false := by decide +kernel

/-- A transferred read that waits at lane 0, and an access that serves a granted one. -/
def txn0 : Txn := { id := 0, lane := 0, grp := 0, req := rd1 }
def wr1 : MemReq := { rd1 with write := true, data := [0] }
def waitingS : State := { land with mem := { land.mem with ingress := [txn0], tids := [0], nextId := 1 } }
def radioS : State := { land with mem := { land.mem with ingress := [{ txn0 with req := { rd1 with cls := 0 } }] } }

theorem witness_MemoryRequests :
    (land.mreqReady 39 1 = true ∧ land.mem.tids.contains 0 = false ∧ rd1.span = 0 ∧ land.refusedAtTransfer 0 rd1 = none ∧
      land.refusedAtTransfer 39 rd1 = some (1, .regionFault)) ∧
    (waitingS.mreqReady 0 1 = true ∧ waitingS.mem.tids.contains (0 * 1024 + rd1.tid.toNat) = true) ∧
    (State.reset.mreqReady 0 1 = false) ∧
    (({ land with mem := { land.mem with spans := [txn0] } } : State).mem.spans.find? (fun u => u.grp == 0 && u.req.tid == 0)) =
      some txn0 ∧
    (waitingS.refill 0 40).fits (grantEnergy (grantCycles (reqLines rd1))) = true ∧
    ({ land with throttle := { land.throttle with estimate := 2 ^ 30 } } : State).fits 1470 = false := by decide +kernel

theorem witness_MemoryRequests_grants : (∃ t l, (waitingS.refill 0 40).choose 0 = .work t l) ∧
    ∃ t, (radioS.refill 0 0).choose 0 = .radio t := ⟨⟨_, _, rfl⟩, _, rfl⟩

def access0 : Access := { tag := 4095, grp := 39, lane := 0, purpose := .read 0, line := 0, n := 1 }
def lineK : LineRd := { line := 0, ctr := some ⟨3, 0, 1⟩, slot := 2, st := .got 0 0 true }
def rd0 (l : LineRd) : Rd := { txn := txn0, row := 5, lines := [l], early := false }
/-- One access in progress, and the read it serves. -/
def reading (a : Access) (l : LineRd) : State :=
  { land with mem := { land.mem with accesses := [a], reads := [rd0 l] } }
def rsp0 : Rsp := { grp := 39, lane := 0, radio := false, id := 0, ord := 0, row := 5, tid := 1023, status := .ok, data := [0], prov := false, rdom := 0 }
def held0 (deps : List Nat) : Held := { id := 3, step := 1, part := 0, deps := deps, what := .mem { txn0 with req := wr1 } 5, epoch := 7 }
def holding (deps : List Nat) : State := { land with mem := { land.mem with held := [held0 deps] } }

theorem witness_ReadsAndVerdicts :
    ((reading { access0 with purpose := .write } lineK).mem.accesses.find? (fun a => a.grp == 39 && !a.accepted) =
      some { access0 with purpose := .write }) ∧
    ((reading access0 lineK).accessOf 39 4095 = none) ∧
    ((reading { access0 with accepted := true } lineK).accessOf 39 4095 = some { access0 with accepted := true } ∧
      access0.got < access0.n ∧ access0.n ≤ access0.got + 1) ∧
    ((reading { access0 with accepted := true, got := 2 } lineK).accessOf 39 4095 =
        some { access0 with accepted := true, got := 2 } ∧
      (reading access0 lineK).mem.reads.find? (fun r => r.txn.id == 0) = some (rd0 lineK) ∧
      (∀ l ∈ (rd0 lineK).lines, l.ctr.isSome = true) ∧ (rd0 lineK).early = false) ∧
    (land.secondVerdict { lineK with st := .regot 0 0 true }).isSome = true ∧
    (({ land with mem := { land.mem with rsps := [rsp0] } } : State).mem.rsps.filter (·.grp == 39) = [rsp0] ∧
      rsp0.prov = false) ∧
    ((holding []).mem.held.find? (·.id == 3) = some (held0 []) ∧ ((holding []).row 5).epoch = (held0 []).epoch) ∧
    (reading { access0 with accepted := true, purpose := .mdata 1 0 } lineK).accessOf 39 4095 =
      some { access0 with accepted := true, purpose := .mdata 1 0 } := by decide +kernel

def move0 : Move := { lane := 43, page := 0, row := 5, old := {}, lines := [], fresh := [], radio := false }
def leaf0 : Cached := { line := {}, dirty := false }
def cachedS : State := { land with rgn := { land.rgn with cache := [(metaKeyOf 3 9, some leaf0)] } }
def retag0 (n : Nat) : Retag := { level := 4, idx := 0, old := {}, cursor := n }

theorem witness_CreditsAndCounters :
    ((land.slot (2 : BitVec 16).toNat).kind = .memory ∧ land.credit 43 2 < 1024) ∧
    (({ land with keys := { land.keys with creditReqs := [⟨43, 2⟩] } } : State).keys.creditReqs = ⟨43, 2⟩ :: [] ∧
      land.mem.waitCredit = [] ∧
      (({ land with keys := { land.keys with creditReqs := [] } } : State).grantCredit 43 2).mem.waitCredit = []) ∧
    ({ land with keys := { land.keys with noSucc := [2] } } : State).keys.noSucc = [2] ∧
    ({ land with keys := { land.keys with autoWait := [2] } } : State).keys.autoWait = [2] ∧
    (({ land with mem := { land.mem with moves := [move0] } } : State).mem.moves.find?
      (fun m => m.lane == 43 && m.page == 0) = some move0 ∧ move0.lines = [] ∧ move0.fresh = []) ∧
    (cachedS.cachedNode 3 9 = some leaf0 ∧ cachedS.retagOf 3 9 = none ∧ leaf0.dirty = false) ∧
    (({ land with harrow := { land.harrow with retags := [retag0 62] } } : State).harrow.retags[0]? = some (retag0 62) ∧
      (retag0 62).old.minor (retag0 62).cursor = 0 ∧ (retag0 62).cursor < 63) := by decide +kernel

/-- A step that commits, with its entry. -/
def stepS (e : StepEnt) : State := { land with stile := { steps := [(4095, e)], commits := [4095] } }
def com : StepEnt := { st := .committing }

theorem witness_CommitsAndFences :
    (land.life.blkFence = false ∧ land.life.lc ≠ .endOfLife ∧ land.stile.commits.length < 16 ∧
      (land.stepEnt (4095 : BitVec 12).toNat).st ≠ .committing) ∧
    ((stepS com).nextEvent = some (4095 : BitVec 12).toNat ∧ (stepS com).readsOpen 4095 = false ∧
      (stepS com).mem.held.any (·.step == 4095) = false ∧ ((stepS com).part com.part).haltAck = false ∧
      com.heldEver = false ∧ com.poisoned = false ∧ (stepS { com with poisoned := true }).nextEvent = some 4095) ∧
    ((stepS { com with evented := true, poisoned := true, mirrored := some 0 }).stile.commits.head? = some 4095 ∧
      ((stepS { com with evented := true, poisoned := true, mirrored := some 0 }).stepEnt 4095).mirrored = some 0) ∧
    (((stepS { com with evented := true, mirrorSeq := some 0 }).stepEnt 4095).mirrorSeq.isSome = true) ∧
    ((land.setPart 63 { halt := true }).part 63).halt = true ∧ (land.setPart 63 { halt := true }).partBusy 63 = false ∧
    ((land.setPart 63 { halt := true, haltAck := true }).part 63).haltAck = true ∧
    ((land.setRdom 7 { fence := true }).rdom 7).fence = true ∧ (land.setRdom 7 { fence := true }).rdomBusy 7 = false ∧
    ((land.setRdom 7 { fence := true }).rdom 7).fenced = false ∧
    ((land.setRdom 7 { fence := true, fenced := true }).rdom 7).fenced = true := by decide +kernel

/-- A lane, a port or a core that was swapped out and passed its last test. -/
def outLane : State := up.setLane 43 { role := .bypassed, bistOk := true }
def swapLane : State := up.setLane 0 { up.lane 0 with swapTo := some 40 }

theorem witness_LaneTests :
    (up.owner 0 ∧ up.fld F.laneBist_RESULT 43 ≠ 1 ∧ (up.lane 43).role = .spare ∧ (0 < 5 ∧ 5 ≤ 5)) ∧
    (outLane.owner 0 ∧ (outLane.lane 43).role = .bypassed ∧ (outLane.lane 43).bistOk = true) ∧
    ((up.lane 39).role = .active ∧ (up.lane 39).swapTo = none ∧ (up.lane (43 : BitVec 6).toNat).role = .spare ∧
      up.whyLane 39 ≠ 2) ∧
    ((swapLane.lane 0).role = .active ∧ (swapLane.lane 0).swapTo = some 40) := by decide +kernel

def outPort : State := up.setPort 39 { role := .bypassed, bistOk := true }

theorem witness_PortTest :
    (up.owner 0 ∧ up.fld F.portBist_RESULT 39 ≠ 1 ∧ (up.port 39).role = .spare) ∧
    ((up.port 35).serves = true ∧ (up.port 35).swapTo = none ∧ (up.port (39 : BitVec 6).toNat).role = .spare) ∧
    (outPort.owner 0 ∧ (outPort.port 39).role = .bypassed ∧ (outPort.port 39).bistOk = true) := by decide +kernel

def outCore : State := up.setCore 67 { role := .bypassed, bistOk := true }
def outUnit : State := up.setUnit 2 4351 { role := .bypassed, bistOk := true }
def noSpares : State := (upto 40 4).foldl (fun s n => s.setLane n { role := .bypassed }) up

theorem witness_CoreAndUnitTests :
    (up.owner 0 ∧ (67 : BitVec 7).toNat < 68 ∧ up.fld F.stvBist_RESULT ≠ 1 ∧ (up.core 67).role = .spare ∧
      (up.core 63).role = .active ∧ (outCore.core 67).role = .bypassed ∧ (outCore.core 67).bistOk = true ∧ outCore.owner 0) ∧
    (unitIndexOk 2 4351 = true ∧ up.fld F.fltUnit_RESULT ≠ 1 ∧ (up.unitOf 2 4351).role = .spare ∧
      unitIndexOk 4 2 = true ∧ (up.unitOf 4 0).role = .active ∧ (up.unitOf 4 2).role = .spare ∧ up.fwu.st = .idle) ∧
    (outUnit.owner 0 ∧ (outUnit.unitOf 2 4351).role = .bypassed ∧ (outUnit.unitOf 2 4351).bistOk = true) ∧
    ((up.unitOf 2 4095).role = .active ∧ (up.unitOf 2 4096).role = .spare) ∧
    ((noSpares.lane 39).role = .active ∧ noSpares.spareLane = none) := by decide +kernel

/-- The key registers ask for a MEMORY key in any slot; a live slot with references. -/
def keyS : State := ({ up with keys := { up.keys with rootOk := true } } : State).wr .keySel (2 ^ 16)
def slot1 (k : Slot) : State := { up with keys := { up.keys with rootOk := true, slots := [(1, k)] } }
def mem1 : Slot := { kind := .memory, dref := 1 }
/-- Slot 1 is named by a region, so that it is live with no driver reference. -/
def used1 : State := { slot1 { kind := .memory } with rgn := { rows := [(5, { field with kidx := 1 })] } }

theorem witness_KeySlots :
    (keyS.owner 0 ∧ keyS.cfg.swapping = false ∧ keyS.fld F.keyCmd_BUSY = 0 ∧
      (keyS.setFld F.keySel_SLOT 0).keyLc true = false ∧
      (allocArg ((keyS.setFld F.keySel_SLOT 0).rd .keySel) 0).kindOk = true ∧
      (allocArg ((keyS.setFld F.keySel_SLOT 0).rd .keySel) 0).kind = .memory ∧
      (keyS.setFld F.keySel_SLOT 0).freeSlot .memory = some 1 ∧
      (allocArg ((keyS.setFld F.keySel_SLOT 0xFBFF).rd .keySel) 0).kindOk = true ∧
      ((keyS.setFld F.keySel_SLOT 0xFBFF).slot 0xFBFF).kind = .empty) ∧
    ((slot1 mem1).owner 0 ∧ ((slot1 mem1).setFld F.keySel_SLOT 1).keyLc false = false ∧
      ((slot1 mem1).setFld F.keySel_SLOT 1).slotLive 1 = true ∧ mem1.dref < 2 ^ 24 - 1 ∧ 0 < mem1.dref) ∧
    (used1.owner 0 ∧ (used1.setFld F.keySel_SLOT 1).slotLive 1 = true ∧ (used1.slot 1).dref = 0) ∧
    ({ up with life := { up.life with lc := .blank } } : State).owner 0 := by decide +kernel

theorem witness_KeyAttributes :
    ((slot1 mem1).cfg.swapping = false ∧ ((slot1 mem1).setFld F.keySel_SLOT 1).keyLc false = false ∧ mem1.kind ≠ .empty) ∧
    (((slot1 mem1).setFld F.keySel_ARG 0x3FF).setFld F.keySel_SLOT 1).fld F.keySel_ARG = 0x3FF ∧
    (((slot1 mem1).setFld F.keySel_ARG 0x3FF).setFld F.keySel_SLOT 1).keyLc true = false ∧
    ((((slot1 mem1).setFld F.keySel_ARG 0x3FF).setFld F.keySel_SLOT 1).slot 0x3FF).kind = .empty ∧ mem1.succ = 0 ∧
    (KeyKind.memory.range.1 ≤ 0x3FF ∧ 0x3FF ≤ KeyKind.memory.range.2) ∧
    (((slot1 { mem1 with kind := .service, exp := 20 }).setFld F.keySel_EXP 40).setFld F.keySel_SLOT 1).fld F.keySel_EXP = 40 ∧
    (((slot1 { mem1 with kind := .service, exp := 20 }).setFld F.keySel_EXP 10).setFld F.keySel_SLOT 1).slotLive 1 = true := by
  decide +kernel

theorem witness_KeyUpkeep :
    (((slot1 { kind := .memory }).slot 1).kind ≠ .empty ∧ (slot1 { kind := .memory }).refCount 1 = 0) ∧
    ({ up with keys := { up.keys with rewrap := true } } : State).keys.rewrap = true ∧
    (up.keys.rewrap = false ∧
      ({ up with keys := { up.keys with versions := [(1, 0xFFFFFFFF)] } } : State).keys.versions.any
        (fun e => e.2 == 0xFFFFFFFF) = true) ∧
    ({ up with keys := { up.keys with esFail := true } } : State).keys.esFail = true ∧ up.keys.esFail = false := by decide +kernel

/-- A KEY job over row 5 to an EMPTY-free slot 4 of the same kind; jobs in each state. -/
def jobS : State :=
  ((({ land with keys := { land.keys with slots := [(2, { kind := .memory, dref := 1, usage := 1 }), (4, { kind := .memory, dref := 1 })] } }
    : State).setFld F.hrwCtl_TARGET 2).setFld F.hrwCtl_NEW 4)
def jobIn (st : JobSt) (sc : Scope) : State :=
  { land with harrow := { land.harrow with jobs := [(15, { st := st, scope := sc, todo := [5] })] } }

theorem witness_HarrowJobs :
    (jobS.owner 0 ∧ jobS.cfg.swapping = false ∧ jobS.fld F.hrwCtl_BUSY = 0 ∧
      (jobS.setFld F.hrwCtl_JOB 15).fld F.hrwCtl_SCOPE = 0 ∧ (jobS.setFld F.hrwCtl_JOB 15).startCheck 15 .key 2 4 = 0 ∧
      (jobS.setFld F.hrwCtl_JOB 15).fld F.hrwCtl_TARGET = 2 ∧ (jobS.setFld F.hrwCtl_JOB 15).fld F.hrwCtl_NEW = 4) ∧
    (((jobIn .running .key).setFld F.hrwCtl_JOB 15).job 15).st = .running ∧ (jobIn .running .key).owner 0 ∧
    ((jobIn .suspended .key).job 15).st = .suspended ∧ ((jobIn .settled .key).job 15).st = .settled ∧
    (jobIn .queued .key).harrow.jobs = [(15, { st := .queued, scope := .key, todo := [5] })] := by decide +kernel

/-- A METADATA job over four pages, and a page that a job has closed. -/
def metaJob : State := { jobIn .running .metadata with rgn := { land.rgn with metaCount := 1 } }
def closedS (b : Bool) : State :=
  { jobIn .running .key with mem := { land.mem with closed := [⟨15, 0, b⟩] } }
/-- A closed page whose lines all carry the error mark. -/
def badBeats : List (Nat × DmcBeat) := [(0, ⟨0, 0, 0, 0, true⟩)]
def writtenS : State :=
  { closedS false with rgn := { land.rgn with cache := [(metaKeyOf 1 0, some { line := { major := 7, minors := 1 :: List.replicate 63 0 }, dirty := true })] } }
def turnS : State :=
  { land with harrow := { land.harrow with jobs := [(15, { st := .running, radio := true, todo := [5] })] } }
def markS : State :=
  { jobIn .running .key with pair := { state := .up },
                             harrow := { jobs := [(15, { st := .running, todo := [5], head := 4096 })] } }

theorem witness_HarrowPages :
    ((metaJob.job 15).st = .running ∧ (metaJob.job 15).scope = .metadata ∧ (metaJob.job 15).head ≤ 255 ∧
      255 < (metaJob.job 15).head + 256 ∧ (metaJob.job 15).done.contains 255 = false ∧ metaJob.engineOut 7 = false ∧
      255 < metaJob.metaPages ∧ metaJob.pageClosed (metaJob.rgn.metaBase * pagesPerGranule + 255) = false ∧
      metaJob.closedOn 255 < 4 ∧ metaJob.mem.accesses.any (fun a => a.line / 64 == 255) = false) ∧
    ((turnS.job 15).radio = true ∧ (turnS.job 15).turned = false ∧ (turnS.job 15).turnAt ≤ turnS.life.time ∧
      turnS.pair.radioSlot = 0) ∧
    (markS.pair.state = .up ∧ (markS.job 15).st = .running ∧ (markS.job 15).mark + 4096 ≤ (markS.job 15).head) := by
  decide +kernel

theorem witness_HarrowPages_moves :
    (∃ x abs row ls, (closedS false).closedPage 15 0 [] = some (x, abs, some row, ls) ∧
      ls.any (fun l => l.2.isNone) = false) ∧
    (∃ x abs row ls, writtenS.closedPage 15 0 badBeats = some (x, abs, row, ls) ∧ x.second = false ∧
      ls.any (fun l => l.2.isNone) = true) := ⟨⟨_, _, _, _, rfl, by decide +kernel⟩, _, _, _, _, rfl, by decide +kernel, by decide +kernel⟩

/-- The staged descriptor: a FURROW region of one granule at granule 5 under slot 2, which a FREE row 16383 takes. -/
def staged5 : State :=
  { (land.wr .rgnDesc0 (2 + 2 * 2 ^ 16)).wr .rgnDesc1 (5 + 2 ^ 18 + 2 ^ 36) with
      partPlot := [(0, { present := true, carveCount := 6 })] }
def rowOf5 (r : Region) : State := { land with rgn := { land.rgn with rows := [(5, r)] } }
def sown : Region := { field with kind := .sown, wslot := some 0 }
def sel (s : State) (row : Nat) : State := (s.setFld F.rgnSel_INDEX row).setFld F.rgnSel_BUSY 1

theorem witness_RegionCommands :
    (staged5.owner 0 ∧ staged5.cfg.swapping = false ∧ staged5.fld F.rgnSel_BUSY = 0 ∧
      (sel staged5 16383).createCheck 16383 staged5.staged = none ∧ (sel staged5 5).createCheck 5 staged5.staged = some 1) ∧
    ((sel land 5).rowCheck 5 = none ∧ ((sel land 5).row 5).state ≠ .sealing) ∧
    ((rowOf5 { sown with kind := .furrow }).owner 0 ∧ (sel (rowOf5 { sown with kind := .furrow }) 5).rowCheck 5 = none ∧
      ((rowOf5 { sown with kind := .furrow }).row 5).state = .opened) ∧
    (((sel land 0).row 0).state = .free ∧ (sel land 0).life.lc ≠ .blank) := by decide +kernel

def advS (n : Nat) : State := (rowOf5 sown).setFld F.rgnDesc6_ARG_LINE n
/-- An ADVANCE of the whole range of the window, in progress. -/
def run5 : AdvRun := { target := 1024, zeros := [], origin := .reg 0 }
def refS (op drv : Nat) : State :=
  withCmd (rowOf5 { field with drvRefs := drv }) 255 (cmdAt 15 { op := op, arg16 := 5 })

theorem witness_SealAndAdvance :
    ((rowOf5 sown).owner 0 ∧ (sel (rowOf5 sown) 5).rowCheck 5 = none ∧ ((rowOf5 sown).row 5).state = .opened) ∧
    ((advS 1024).owner 0 ∧ (advS 1024).staged.argLine = 1024 ∧ sown.adv = [] ∧
      sown.hwm < 1024 ∧ 1024 ≤ sown.hwm + 1024 ∧ 1024 ≤ sown.count * linesPerGranule) ∧
    (({ sown with adv := [run5] } : Region).adv = run5 :: [] ∧ ({ sown with adv := [run5] } : Region).rsv.any (· < run5.target) = false ∧
      (rowOf5 { sown with adv := [run5] }).closedIn 5 = false) ∧
    ((refS 0x25 0).startable 255 15 0x25 (cmdAt 15 { op := 0x25, arg16 := 5 }) ∧
      ((refS 0x25 0).started 255 (cmdAt 15 { op := 0x25, arg16 := 5 })).rowCheck 5 = none) ∧
    ((refS 0x26 1).startable 255 15 0x26 (cmdAt 15 { op := 0x26, arg16 := 5 }) ∧ 0 < ((refS 0x26 1).row 5).drvRefs) := by
  decide +kernel

def runS (b : Bool) : SealRun := { addr := 0, origin := .reg 0, waiting := b, tensors := [(0, some 253)] }
def sealing (b : Bool) (c : CtxSt) : State :=
  { rowOf5 { sown with state := .sealing, sealRun := some (runS b) } with dig := { land.dig with stv := { land.dig.stv with ctxs := [(253, { st := c })] } } }

theorem witness_Seals :
    (((sealing false .free).row 5).sealRun = some (runS false) ∧ (sealing false .free).writesOut 5 = false ∧
      ((sealing false .free).fold_ 5).manifest 5 0 ⟨false, []⟩ = none) ∧
    (((sealing true .final).row 5).sealRun = some (runS true) ∧
      ((runS true).ctxs.all fun i => ((sealing true .final).ctx i).ended) = true) ∧
    ((runS true).ctxs.any fun i => decide (((sealing true .gathering).ctx i).st = .gathering)) = true := by decide +kernel

/-! Services and digests. A clause whose premise asks an algorithm that the manual names and does not define (a signature
that verifies, a tag that opens) for an answer has no closed witness: its constant has no body. -/

def watchS (w : Watch) : State := { up with dig := { up.dig with watches := [(63, w)] } }
/-- Context 253 is OPEN with nothing covered, and the watch registers name it with statistic 0. -/
def armS : State :=
  ({ up with dig := { up.dig with stv := { up.dig.stv with ctxs := [(253, { st := .opened, fmt := 1 })] } } } : State).wr .watchCfg 253

theorem witness_Watches :
    (armS.owner 0 ∧ armS.fld F.watchCtl_BUSY = 0 ∧ watchCfgBad ((armS.setFld F.watchCtl_WATCH 63).rd .watchCfg) = false ∧
      ((armS.setFld F.watchCtl_WATCH 63).watch 63).st = .free ∧
      ((armS.setFld F.watchCtl_WATCH 63).ctx ({ cfg := armS.rd .watchCfg } : Watch).ctx).st = .opened ∧
      ((armS.setFld F.watchCtl_WATCH 63).ctx 253).cover = [] ∧
      watchKindBad ({ cfg := armS.rd .watchCfg } : Watch).stat ({ cfg := armS.rd .watchCfg } : Watch).tkind 1 = false) ∧
    ((watchS { st := .armed }).owner 0 ∧ (((watchS { st := .armed }).setFld F.watchCtl_WATCH 63).watch 63).st ≠ .free) ∧
    ((up.setFld F.watchCtl_WATCH 0).watch 0).st = .free := by decide +kernel

def tokS (t : Tok) : State := { rowOf5 { sown with kind := .furrow, hwm := 1 } with dig := { land.dig with toks := [(8191, t)] } }
def tokOpenS : State := (tokS {}).wr .tokArg 5

theorem witness_TokenSessions :
    (tokOpenS.owner 0 ∧ tokOpenS.fld F.tokCtl_BUSY = 0 ∧ bits ((tokOpenS.setFld F.tokCtl_SESSION 8191).rd .tokArg) 0 14 = 5 ∧
      bits ((tokOpenS.setFld F.tokCtl_SESSION 8191).rd .tokArg) 48 16 = 0 ∧
      ((tokOpenS.setFld F.tokCtl_SESSION 8191).tok 8191).st = .free ∧ (tokOpenS.row 5).kind = .furrow ∧
      (tokOpenS.row 5).state = .opened ∧
      tokOpenS.dig.toks.any (fun e => decide (e.2.st = .opened ∧ e.2.row = 5)) = false) ∧
    ((tokS { st := .opened, row := 5 }).owner 0 ∧ ((tokS { st := .opened, row := 5 }).tok 8191).closing = none) ∧
    (((tokS { st := .closed, row := 5 }).tok 8191).st = .closed) ∧
    (((tokS { st := .opened, row := 5 }).tok 8191).next <
        ((tokS { st := .opened, row := 5 }).tok 8191).closing.getD ((tokS { st := .opened, row := 5 }).row 5).hwm ∧
      (got 64).ok = true ∧ (got 64).bytes.length = 64) := by decide +kernel

def ctxS (c : Ctx) : State := { land with dig := { land.dig with stv := { land.dig.stv with ctxs := [(253, c)] } } }
def segS (g : Seg) : State := { land with dig := { land.dig with stv := { land.dig.stv with segs := [g] } } }
def seg0 : Seg := { no := 7, path := .scan, ctx := 253, step := 0, chunk := 0, off := 0, len := 64, clen := 64, addr := 0, rdest := 5,
                    raddr := 0, rlen := 64, rkidx := 0 }
def asmS (st : AsmSt) : State := { land with dig := { land.dig with stv := { land.dig.stv with asms := [⟨253, 0, 64, st⟩] } } }
/-- A partial record with no interval, and a final one, of the tensor of identifier 0. -/
def partialRec0 : Bytes := ascii "STVP" ++ [1] ++ zeros (4160 - 5)
def finalRec0 : Bytes := ascii "STVF" ++ [1] ++ zeros (128 - 5)

theorem witness_StavubContexts :
    (land.owner 0 ∧ (253 : BitVec 8).toNat < 254 ∧ land.fld F.stvCtl_BUSY = 0 ∧ (land.setFld F.stvCtl_CTX 253).noEngines = false ∧
      ((land.setFld F.stvCtl_CTX 253).ctx 253).st = .free) ∧
    ((ctxS { st := .opened }).owner 0 ∧ (((ctxS { st := .opened }).setFld F.stvCtl_CTX 253).ctx 253).st = .opened) ∧
    (((ctxS { st := .closing }).ctx 253).st = .closing ∧ (ctxS { st := .closing }).ctxBusy 253 = false ∧
      coversAll [] 0 = true) ∧
    (finalOk finalRec0 = true ∧ le finalRec0 5 1 = 0 ∧ recMatches finalRec0 { st := .gathering } = true ∧
      (upto 0 254).filter (fun i => decide (((ctxS { st := .gathering }).ctx i).st = .gathering) &&
        !((ctxS { st := .gathering }).ctx i).gatherer && recMatches finalRec0 ((ctxS { st := .gathering }).ctx i)) = [253]) ∧
    ((ctxS { st := .gathering, gatherer := true }).ctx 253).gatherer = true := by decide +kernel

theorem witness_StavubContexts_segments :
    (land.chdReady = true ∧ ((ctxS { st := .opened }).ctx (Chd.ofNat 0).ctx).st = .free) ∧
    ((segS seg0).dig.stv.segs.find? (fun g => decide (g.path = .scan) && !g.filled) = some seg0 ∧
      ((segS seg0).regionAt seg0.addr).isSome = true ∧ (got 64).bytes.length = seg0.len) ∧
    ((segS { seg0 with fetch := .due }).segNo 7 = some { seg0 with fetch := .due }) ∧
    ((segS { seg0 with fetch := .out }).segNo 7 = some { seg0 with fetch := .out } ∧ (got 64).bytes.length = seg0.rlen) ∧
    ((asmS .ready).dig.stv.asms.find? (fun a => decide (a.st = .ready)) = some ⟨253, 0, 64, .ready⟩ ∧
      (land.core 63).role = .active ∧ (asmS .ready).dig.stv.asms.any (fun a => decide (a.st = .onCore 63)) = false) ∧
    (asmS (.onCore 67)).dig.stv.asms.find? (fun a => decide (a.st = .onCore 67)) = some ⟨253, 0, 64, .onCore 67⟩ := by
  decide +kernel

/-- Context 0 is OPEN, which a descriptor of zeros names. -/
def ctx0 : State := { land with dig := { land.dig with stv := { land.dig.stv with ctxs := [(0, { st := .opened })] } } }
/-- A descriptor of an OPEN tensor of one chunk, as the region holds it. -/
theorem witness_StavubContexts_chd : ctx0.chdReady = true ∧ (ctx0.ctx (Chd.ofNat 0).ctx).st = .opened := by decide +kernel

/-- A running queue of attach port 2 with rings of 16 entries. -/
def qS (x : SvcQ) : State :=
  (({ land with svc := { land.svc with queues := [(255, x)] } } : State).setFld F.svcQcfg_SIZE 4 255).setFld F.svcQcfg_ATT 2 255
def chanS (x : Chan) : State := { land with host := { land.host with chans := [(127, x)] } }

theorem witness_Doorbells :
    ((qS { state := .running }).regsOpen = true ∧ 2 = (qS { state := .running }).fld F.svcQcfg_ATT 255 ∧
      ((qS { state := .running }).queue 255).state = .running ∧ bit (0x100F : Word).toNat 12 = true ∧
      bits (0x100F : Word).toNat 0 12 < (qS { state := .running }).qSize 255 ∧ bit (0x100F : Word).toNat 28 = false) ∧
    (bit (0x100F0000 : Word).toNat 12 = false ∧ bit (0x100F0000 : Word).toNat 28 = true ∧
      bits (0x100F0000 : Word).toNat 16 12 < (qS { state := .running }).qSize 255) ∧
    (3 ≠ (qS { state := .running }).fld F.svcQcfg_ATT 255) ∧
    (1 = (chanS { state := .running }).cAtt 127 + 1 ∧ ((chanS { state := .running }).chan 127).state = .running ∧
      bits (0x1000 : Word).toNat 0 12 < 2 ^ (chanS { state := .running }).fld F.hostBcfg_SIZE 127) ∧
    2 ≠ (chanS { state := .running }).cAtt 127 + 1 := by decide +kernel

def nop0 : Desc := { op := 0 }
def doneCmd : Cmd := { cmdAt 15 nop0 with st := .done }

theorem witness_ServiceQueues :
    ((qS {}).owner 0 ∧ ((qS {}).queue 255).state = .disabled ∧ (qS {}).queueRefused 255 = false ∧
      (qS {}).radioBars ((qS {}).qPart 255) ((qS {}).fld F.svcQcfg_ATT 255) = false) ∧
    (((qS {}).setFld F.svcQcfg_HKIDX 2 255).queueRefused 255 = true ∧ (qS {}).fld F.svcQcfg_ENABLE 255 = 0) ∧
    (((qS { state := .running }).queue 255).state = .running ∧ ((qS { state := .running }).queue 255).cmds = []) ∧
    (((qS { state := .running, sqTail := 1 }).queue 255).sqHead ≠ ((qS { state := .running, sqTail := 1 }).queue 255).sqTail ∧
      (qS { state := .running, sqTail := 1 }).cqFull 255 = false ∧
      ((qS { state := .running, sqTail := 1 }).part 0).instReset = none ∧
      (qS { state := .running, sqTail := 1 }).fld F.svcQbase_LOC 255 = 0 ∧
      (qS { state := .running, sqTail := 1 }).deviceRing 0 0 (64 * 16) = true) ∧
    ((qS { state := .running, cmds := [doneCmd] }).cmd 255 15 = some doneCmd ∧
      ((qS { state := .running, cmds := [doneCmd] }).cqEntry 255).1 = false) ∧
    ((withCmd land 255 { doneCmd with st := .running }).cmd 255 15 = some { doneCmd with st := .running } ∧
      ((withCmd land 255 { doneCmd with st := .running, desc := { op := 1 } }).part 0).haltAck = false) ∧
    (withCmd land 255 (cmdAt 15 nop0)).startable 255 15 0 (cmdAt 15 nop0) := by decide +kernel

/-- The block holds a CLEAR region over its first granules, so that an engine writes without a key. -/
def clearRing : State :=
  { qS { state := .running, cmds := [doneCmd] } with rgn := { land.rgn with rows := [(5, { field with kind := .clear })] } }
theorem witness_ServiceQueues_record : ∃ u, clearRing.putRecord 255 doneCmd = (true, u) := ⟨_, rfl⟩

def sheafReq : Bytes := ascii "LZSHREQ1" ++ zeros 120
def sheafCmd : Cmd := cmdAt 15 { op := 0x40 }
def sheafS : State := { withCmd land 255 sheafCmd with cfg := { land.cfg with active := some { profiles := [0] } } }
def job0 : SheafJob := { q := 255, k := 15, tag := 0, part := 0, waitStep := false, step := 0, profile := 0, graph := zeros 48,
                         patch := zeros 48, outAddr := 0, entries := [], drill := 0 }
def shfS (x : Shf) : State := { land with dig := { land.dig with shf := x }, keys := { land.keys with drbgReady := true } }
def leaf1 : Leaf := { hash := 0, job := none }

theorem witness_Sheaves :
    (sheafS.startable 255 15 0x40 sheafCmd ∧ bit sheafCmd.desc.src 63 = false ∧
      (sheafS.started 255 sheafCmd).operandRow 0 true (sheafCmd.desc.src % 2 ^ 63) sheafReq.length 0 = some 5 ∧
      SheafJob.parse sheafReq 255 15 0 0 = some job0 ∧ ((sheafS.started 255 sheafCmd).row 5).part = job0.part ∧
      (sheafS.started 255 sheafCmd).mayAct 255 sheafCmd 0 = true ∧ (sheafS.started 255 sheafCmd).sheafCause job0 = none) ∧
    ((shfS { jobs := [job0] }).sheafTurn 255 15 = some job0 ∧ (shfS { jobs := [job0] }).engineOut 8 = false ∧
      ((shfS { jobs := [job0] }).sheafCloses job0).sheafReady job0 = true ∧
      ((shfS { jobs := [job0] }).sheafCloses job0).drbgOk = true) ∧
    land.owner 0 ∧ ((shfS { leaves := [leaf1] }).dig.shf.leaves ≠ [] ∧ (shfS { leaves := [leaf1] }).maySign = true) ∧
    (shfS { signing := some ⟨[], 0, 0⟩ }).dig.shf.signing = some ⟨[], 0, 0⟩ := by decide +kernel

theorem witness_Sheaves_full : (shfS { leaves := List.replicate 4096 leaf1 }).dig.shf.leaves.length = 4096 :=
  List.length_replicate

def ats0 : AtsReq := { att := 1, pasid := 0, va := 3, who := [] }
def atsS : State := { land with host := { land.host with atsOut := [ats0] } }
def xf : Xfer := { idx := 0, no := 0 }
def hread0 : HostRead := { tag := 1023, att := 1, chan := false, obj := 255, k := 15, no := 0, part := 0, n := 64 }
def dmaS : State :=
  { withCmd land 255 { cmdAt 15 { op := 1 } with st := .running } with host := { land.host with reads := [hread0] } }
def hostSlot : State :=
  { up with keys := { up.keys with slots := [(9, { kind := .host, usage := 3 * 2 ^ 38 })] },
            host := { up.host with slotBox := [(9, 65)] } }

theorem witness_HostInterface :
    (atsS.host.atsOut.find? (fun r => r.att == 1 && r.va == (3 : BitVec 52).toNat) = some ats0 ∧ (3 : BitVec 2) ≠ 0) ∧
    (land.host.reads.filter (·.att == 1) = []) ∧
    (((chanS { state := .running, waiting := some xf }).chan 127).state = .running ∧
      ((chanS { state := .running, waiting := some xf }).part 0).winnow = none ∧
      (chanS { state := .running, waiting := some xf }).engineOut 9 = false ∧
      ((chanS { state := .running, waiting := some xf }).chan 127).waiting = some xf) ∧
    (((chanS { state := .running, xfers := [{ xf with done := true }] }).chan 127).xfers = { xf with done := true } :: []) ∧
    (dmaS.host.reads.find? (fun r => r.tag == (1023 : BitVec 10).toNat) = some hread0 ∧ hread0.chan = false ∧
      (dmaS.readGone 1023).cmd 255 15 = some { cmdAt 15 { op := 1 } with st := .running }) ∧
    (up.regsOpen = true ∧ 1 ≤ (1 : BitVec 11).toNat ∧ (1024 : BitVec 11).toNat ≤ 1024) ∧
    ((hostSlot.slot 9).kind = .host ∧ 3 * 2 ^ 40 ≤ 4 * (hostSlot.slot 9).usage ∧ hostSlot.host.warned.contains 9 = false ∧
      tget 0 hostSlot.host.slotBox 9 = 65) := by decide +kernel

/-- A queue of partition 0 with one cipher command: 64 bytes from line 0 to line 1 under SERVICE slots. -/
def cdesc (op : Nat) : Desc := { op := op, kidx := 8, arg16 := 9, len := 64, src := 0, dst := 64, arg1 := 0 }
def svcKey : Slot := { kind := .service, exp := 10, dref := 1, origin := .imported }
def cipherS (usage : Nat) (c : Cmd) : State :=
  { withCmd land 255 c with keys := { land.keys with slots := [(2, { kind := .memory }), (8, { svcKey with usage := usage }), (9, svcKey)] } }

theorem witness_CipherStarts :
    ((cipherS 0 (cmdAt 15 (cdesc 1))).startable 255 15 1 (cmdAt 15 (cdesc 1)) ∧
      ((cipherS 0 (cmdAt 15 (cdesc 1))).started 255 (cmdAt 15 (cdesc 1))).noEngines = false ∧
      (cdesc 1).cipherOk (((cipherS 0 (cmdAt 15 (cdesc 1))).started 255 (cmdAt 15 (cdesc 1))).gangs (cmdAt 15 (cdesc 1))) = true ∧
      (∀ x ∈ (cdesc 1).charges, ((cipherS 0 (cmdAt 15 (cdesc 1))).slot x.1).kind = .service) ∧
      ((cipherS 0 (cmdAt 15 (cdesc 1))).started 255 (cmdAt 15 (cdesc 1))).overLimit (cdesc 1).charges = false ∧
      ((cipherS 0 (cmdAt 15 (cdesc 1))).started 255 (cmdAt 15 (cdesc 1))).operandOk 255 (cmdAt 15 (cdesc 1)) 0 64 0 = true ∧
      ((cipherS 0 (cmdAt 15 (cdesc 1))).started 255 (cmdAt 15 (cdesc 1))).operandOk 255 (cmdAt 15 (cdesc 1)) 64 64 1 = true ∧
      ((cdesc 1).charges.foldl (fun s x => s.chargeSlot x.1 x.2)
        ((cipherS 0 (cmdAt 15 (cdesc 1))).started 255 (cmdAt 15 (cdesc 1)))).srcOk 255 (cmdAt 15 (cdesc 1)) 64 (got 64) = true) ∧
    ((∀ op ∈ [1, 2, 3, 4], (cipherS 0 (cmdAt 15 { cdesc op with len := 4096 })).startable 255 15 op (cmdAt 15 { cdesc op with len := 4096 }) ∧
      ({ cdesc op with len := 4096 } : Desc).cipherOk false = true ∧ (cdesc op).kidx ≠ (cdesc op).arg16) ∧
      ((cipherS 1024 (cmdAt 15 (cdesc 4))).overLimit ({ cdesc 4 with len := 4096 } : Desc).charges = true)) ∧
    ((withCmd land 255 (cmdAt 15 (cdesc 1))).slot 8).kind ≠ .service := by decide +kernel

def burstC : Cmd := { cmdAt 15 (cdesc 1) with st := .running, input := List.replicate 64 0 }
def burstS : State := { cipherS 0 burstC with keys := { land.keys with drbgReady := true } }
def gangC : Cmd := { cmdAt 15 { cdesc 1 with len := 131072 } with st := .running, gang := true }

theorem witness_BurstsAndStripes : burstS.drbgOk = true ∧ burstS.engineOut 3 = false ∧ burstS.scuPick.isSome = true ∧
    burstS.scuJob 255 = some burstC ∧
    ((withCmd land 255 gangC).cmd 255 15 = some gangC ∧ 1 < gangC.desc.stripes ∧ gangC.stripes.contains 1 = false ∧
      (nsInsert gangC.stripes 1).length < gangC.desc.stripes ∧ bit gangC.desc.dst 63 = false) := by decide +kernel

/-- KEY_WRAP of slot 9 under slot 8, KEY_IMPORT, and KEY_ORIGIN of slot 9. -/
def wrapD (op n : Nat) : Desc := { op := op, kidx := 8, arg16 := 9, src := 0, dst := 4096, len := n }

theorem witness_WrappedKeys :
    ((cipherS 0 (cmdAt 15 (wrapD 5 0))).startable 255 15 5 (cmdAt 15 (wrapD 5 0)) ∧
      (match ((cipherS 0 (cmdAt 15 (wrapD 5 0))).started 255 (cmdAt 15 (wrapD 5 0))).wrapKey 255 (cmdAt 15 (wrapD 5 0)) with
        | .inr _ => true | .inl _ => false) = true ∧
      ((cipherS 0 (cmdAt 15 (wrapD 5 0))).slot 9).origin = .imported ∧ (wrapD 5 0).hostUnits 0 48 = 0 ∧
      ((cipherS 0 (cmdAt 15 (wrapD 5 0))).started 255 (cmdAt 15 (wrapD 5 0))).operandOk 255 (cmdAt 15 (wrapD 5 0)) 4096 48 1 = true) ∧
    ((cipherS 0 (cmdAt 15 (wrapD 6 0))).startable 255 15 6 (cmdAt 15 (wrapD 6 0)) ∧ (wrapD 6 0).hostUnits 48 0 = 0 ∧
      ((cipherS 0 (cmdAt 15 (wrapD 6 0))).started 255 (cmdAt 15 (wrapD 6 0))).srcOk 255 (cmdAt 15 (wrapD 6 0)) 48 (got 48) = true ∧
      (cipherS 0 (cmdAt 15 (wrapD 6 0))).freeSlot .service = some 1 ∧ (cmdAt 15 (wrapD 6 0)).owner = true) ∧
    ((cipherS 0 (cmdAt 15 (wrapD 0x13 0))).startable 255 15 0x13 (cmdAt 15 (wrapD 0x13 0)) ∧
      (wrapD 0x13 0).hostUnits 32 4899 = 0 ∧
      ((cipherS 0 (cmdAt 15 (wrapD 0x13 0))).started 255 (cmdAt 15 (wrapD 0x13 0))).operandOk 255 (cmdAt 15 (wrapD 0x13 0)) 4096 4899 1 = true ∧
      ((cipherS 0 (cmdAt 15 (wrapD 0x13 0))).started 255 (cmdAt 15 (wrapD 0x13 0))).srcOk 255 (cmdAt 15 (wrapD 0x13 0)) 32 (got 32) = true) := by
  decide +kernel

def pkD (op alg n : Nat) : Desc := { op := op, arg16 := alg, src := 0, dst := 2 ^ 20, len := n }
def pkS (c : Cmd) : State := withCmd land 255 c

theorem witness_PublicKeyUnit :
    (((pkS (cmdAt 15 (pkD 0x50 5 64))).started 255 (cmdAt 15 (pkD 0x50 5 64))).svcAdmits 0 = true ∧
      (pkS (cmdAt 15 (pkD 0x50 5 64))).engineOut 6 = false ∧
      ((pkS (cmdAt 15 (pkD 0x50 5 64))).started 255 (cmdAt 15 (pkD 0x50 5 64))).srcOk 255 (cmdAt 15 (pkD 0x50 5 64)) 64 (got 64) = true ∧
      (pkS (cmdAt 15 (pkD 0x50 5 64))).startable 255 15 0x50 (cmdAt 15 (pkD 0x50 5 64)) ∧ (pkDigest 5 []).isSome = true ∧
      ((pkS (cmdAt 15 (pkD 0x50 5 64))).started 255 (cmdAt 15 (pkD 0x50 5 64))).operandOk 255 (cmdAt 15 (pkD 0x50 5 64)) (2 ^ 20) (pkLen 5) 1 = true) ∧
    ((pkS (cmdAt 15 (pkD 0x51 0 7475))).startable 255 15 0x51 (cmdAt 15 (pkD 0x51 0 7475))) ∧
    ((pkS (cmdAt 15 (pkD 0x52 0 241))).startable 255 15 0x52 (cmdAt 15 (pkD 0x52 0 241)) ∧
      ((pkS (cmdAt 15 (pkD 0x52 0 241))).started 255 (cmdAt 15 (pkD 0x52 0 241))).srcOk 255 (cmdAt 15 (pkD 0x52 0 241)) 241 (got 241) = true) := by
  decide +kernel

/-- A drill of one NOP step and one parameter that no step uses. -/
def drillImg : Bytes := ascii "LZDRILL1" ++ [1, 0, 1, 1, 0] ++ zeros 179
def drill0 : Drill := { owner := true, part := 0, s := 1, p := 1, q := 0, version := 1, digest := 0, image := drillImg }
def drillD (op n : Nat) : Cmd := cmdAt 15 { op := op, arg16 := 1023, len := n }
def drillS (c : Cmd) : State :=
  { withCmd land 255 c with svc := { (withCmd land 255 c).svc with drills := [(1023, some drill0)] } }

theorem witness_Drills :
    ((withCmd land 255 (drillD 0x60 192)).startable 255 15 0x60 (drillD 0x60 192) ∧
      ((withCmd land 255 (drillD 0x60 192)).started 255 (drillD 0x60 192)).srcOk 255 (drillD 0x60 192) 192 ⟨true, drillImg⟩ = true ∧
      drillOk drillImg = true ∧ land.drill 1023 = none ∧ (withCmd land 255 (drillD 0x60 192)).drillRuns 1023 = false) ∧
    ((drillS (drillD 0x61 8)).startable 255 15 0x61 (drillD 0x61 8) ∧
      ((drillS (drillD 0x61 8)).started 255 (drillD 0x61 8)).drill 1023 = some drill0 ∧ drill0.part = (drillS (drillD 0x61 8)).qPart 255 ∧
      ((drillS (drillD 0x61 8)).started 255 (drillD 0x61 8)).srcOk 255 (drillD 0x61 8) 8 (got 8) = true ∧
      drill0.steps (zeros 8) = zeros 64 :: [] ∧
      (((drillS (drillD 0x61 8)).started 255 (drillD 0x61 8)).count 473 1).admitDesc 255 true (Desc.parse (zeros 64)) = none) ∧
    ((drillS (drillD 0x62 0)).startable 255 15 0x62 (drillD 0x62 0) ∧ (drillS (drillD 0x62 0)).drillRuns 1023 = false) := by
  decide +kernel

def part63 (x : Part) : State := up.setPart 63 x
def winRun (n : Nat) : WinnowRun := { step := n, scope := 0, bound := 1000 }

theorem witness_DrainAndScrub :
    ((part63 { drainReq := true }).part 63).drainReq = true ∧ ((part63 { drainReq := true }).part 63).acked = false ∧
    ((part63 {}).part 63).drainAck = false ∧ ((part63 { drainAck := true }).part 63).drainAck = true ∧
    ((part63 { lowering := true }).part 63).lowering = true ∧
    (((part63 { winnow := some (winRun 3), drainAck := true }).part 63).winnow = some (winRun 3) ∧
      ((part63 { winnow := some (winRun 3), drainAck := true }).part 63).scrub = false) ∧
    ((part63 { scrub := true, winnow := some (winRun 6) }).part 63).scrub = true := by decide +kernel

theorem witness_HedgesAndResets :
    (up.owner 0 ∧ up.fld F.fltHedge_BUSY = 0 ∧ up.life.settling = false ∧ (up.part 63).causes = [] ∧ up.hedged 63 = false ∧ (up.plotOf 63).radio = false ∧
      (up.part 63).winnow = none ∧ (up.part 63).instReset = none ∧ up.fld F.partCtl_BUSY 63 = 0) ∧
    (({ up with partPlot := [(63, { radio := true })] } : State).plotOf 63).radio = true ∧
    ((part63 { causes := [.owner] }).owner 0 ∧ ((part63 { causes := [.owner] }).part 63).causes ≠ []) := by decide +kernel

/-- The region of row 5 holds partition 0's bitmaps, and a page of it was written. -/
def dirtyS : State := (land.setPart 0 { dirty := [0] })

theorem witness_DirtyLogging :
    (dirtyS.owner 0 ∧ (dirtyS.part 0).oldDirty = [] ∧ (dirtyS.part 0).oldDirty.contains 0 = false ∧
      (dirtyS.part 0).dirty.contains 0 = true ∧ (got 64).bytes.length = 64) ∧
    (((rowOf5 { field with state := .closing }).row 5).state = .closing ∧ (rowOf5 { field with state := .closing }).regionRefs 5 = 0 ∧
      ((rowOf5 { field with state := .closing }).row 5).closer = none) := by decide +kernel

/-! Links, domain and pair. -/

/-- Unit 3, a member of a domain with units 0, 5 and 7, whose port 0 reaches them and which holds a capability at unit 5. -/
def dom3 : Pesum := { domain := some { unit := 3, cands := [3] }, pair := some plot0 }
def linked : State :=
  { land with cfg := { land.cfg with active := some dom3 },
              dom := { land.dom with state := .member, cur := some { ek1 with members := [0, 3, 5, 7] }, ballot := some ballot7,
                                     leaseEnd := 5 },
              links := { land.links with ports := [(0, { att := some 0, role := .fabric, ranges := [(0, 9)] })], up := [0],
                                         caps := [{ part := 0, unit := 5, capidx := 3, rights := 3, token := 0 }] } }
def poisonedStep : State := linked.setStepEnt 1 { st := .opened, poisoned := true, discard := true }
def pendStep : State := linked.setStepEnt 1 { st := .opened, pend := [0] }
def copyO : FabOut := { mtag := 2, intf := 0, req := { fab1 with op := 4, op1 := 2 * 2 ^ 40, data := [] } }
def outS (o : FabOut) : State := { linked with links := { linked.links with outs := [o] } }
def rx5 : RxFlow := { src := 5, lane := 1, fgen := 1, port := 0, owed := 4096 }
def rxS (f : RxFlow) : State := { linked with links := { linked.links with rx := [f] } }

theorem witness_FabricRequests :
    (linked.freqReady 15 fab1.cls.toNat = true ∧ linked.mem.tids.contains ((64 + 15) * 1024 + fab1.tid.toNat) = false ∧
      linked.fabCheck fab1 false = none ∧ linked.fabCheck { fab1 with kidx := 4 } false = some (7, .keyMismatch)) ∧
    ((poisonedStep.fabCheck fab1 false = none ∧ ((poisonedStep.openStep 1 0).2.stepEnt 1).discard = true) ∧
      (pendStep.fabCheck fab1 false = none ∧ ((pendStep.openStep 1 0).2.stepEnt 1).discard = false ∧
        ((pendStep.openStep 1 0).2.stepEnt 1).pend ≠ [])) ∧
    (({ linked with mem := { linked.mem with tids := [79 * 1024] } } : State).mem.tids.contains ((64 + 15) * 1024 + fab1.tid.toNat) = true) ∧
    ((outS copyO).links.outs.find? (fun o => o.mtag == 2 && o.req.op == 4 && !o.entered) = some copyO ∧
      copyO.req.op1.toNat % 2 ^ 40 / 64 % 64 + copyO.req.len.toNat ≤ 63 ∧
      (outS copyO).admitCheck { id := 0, lane := 63, grp := (outS copyO).groupOf 0, req := { rd1 with kidx := 2 } } = none ∧
      (got 64).bytes.length = 64 * (copyO.req.len.toNat + 1)) ∧
    (bits (0x50005 : BitVec 32).toNat 16 2 ≠ 0 ∧ (rxS rx5).links.rx.find? (fun f =>
      f.src == bits (0x50005 : BitVec 32).toNat 0 16 && f.lane == bits (0x50005 : BitVec 32).toNat 16 2 &&
      f.fgen == bits (0x50005 : BitVec 32).toNat 18 14) = some rx5 ∧ 4096 ≤ rx5.owed) ∧
    (outS { copyO with entered := true, sealed := true }).links.outs.find? (fun o => o.mtag == 2 && o.entered && o.sealed) =
      some { copyO with entered := true, sealed := true } := by decide +kernel

/-- Class 0 goes to the partner over a PAIR port, from a radio partition. -/
def radioFab : FabReq := { fab1 with cls := 0, dest := 9 }
def radioLink : State :=
  { linked with partPlot := [(0, { radio := true })],
                links := { linked.links with ports := [(0, { att := some 0, role := .pair })],
                                             caps := [{ part := 0, unit := 9, capidx := 3, rights := 3, token := 0 }] } }
theorem witness_FabricRequests_radio : radioLink.freqReady 0 0 = true ∧ radioLink.fabCheck radioFab false = none := by decide +kernel

/-- A DATA flow to unit 5 with one message, under FLOW slot 2^14. -/
def msg0 : Msg := { mtype := 1, data := [1] }
def tx5 (w : List Msg) : TxFlow := { dest := 5, lane := 1, fgen := 1, slot := 100, port := 0, waiting := w }
def txS (f : TxFlow) (usage : Nat) : State :=
  { linked with links := { linked.links with tx := [f] },
                keys := { land.keys with slots := [(2, { kind := .memory }), (100, { kind := .flow, usage := usage })] } }
def flow5 : BitVec 32 := BitVec.ofNat 32 (flowId 3 1 1)

theorem witness_Frames :
    (bits flow5.toNat 16 2 = 1 ∧ flow5.toNat % 65536 = ((txS (tx5 [msg0]) 0).collectRsps 1 5).unit ∧
      ((txS (tx5 [msg0]) 0).collectRsps 1 5).links.tx.find? (fun f => f.lane == 1 && f.dest == (5 : BitVec 16).toNat &&
        f.fgen == bits flow5.toNat 18 14 && !f.down) = some (tx5 [msg0]) ∧ ((txS (tx5 [msg0]) 0).collectRsps 1 5).portUp 0 = true ∧
      packMsgs 1 (min 4096 (tx5 [msg0]).credit) [msg0] = ([msg0], []) ∧
      ((txS (tx5 [msg0]) 0).slot 100).usage + 1 ≤ ((txS (tx5 [msg0]) 0).slot 100).limit) ∧
    (linked.portUp 0 = true ∧ linked.portUp 1 = false) := by decide +kernel

/-- The header of a frame of the CONTROL flow of unit 5 to this block: 16 bytes of body, sequence 1 or 2. -/
def hdr (seq : Nat) : Frame := ⟨BitVec.ofNat 128 (ofLE (frameHeader (flowId 5 2 1) seq 3 16 0)), List.replicate 16 0, 0⟩
def rxc (n : Nat) : RxFlow := { src := 5, lane := 2, fgen := 1, port := 0, next := n }

theorem witness_Frames_receive :
    bits (le (bvBytes (hdr 1).header) 14 2) 14 2 = 1 ∧ bits (le (bvBytes (hdr 1).header) 14 2) 0 13 = 16 ∧
    (hdr 1).body.length = 16 ∧ le (bvBytes (hdr 1).header) 12 2 = (rxS (rxc 1)).unit ∧ le (bvBytes (hdr 1).header) 4 8 = 1 ∧
    bits (le (bvBytes (hdr 1).header) 0 4) 16 2 = 2 ∧ bits (le (bvBytes (hdr 1).header) 0 4) 18 14 = 1 ∧
    (rxS (rxc 1)).links.rx.find? (fun f => f.src == 5 && f.lane == 2 && f.fgen == 1 &&
      (f.epoch0 || (2 : Nat) == 0 || f.epoch % 2 == bits (le (bvBytes (hdr 1).header) 14 2) 13 1)) = some (rxc 1) ∧
    (rxc 1).broken = false ∧ (rxc 1).next < le (bvBytes (hdr 2).header) 4 8 ∧ le (bvBytes (hdr 1).header) 4 8 < (rxc 2).next := by
  decide +kernel

/-- A flag store of a peer at line 0 of a region that lends slot 2, on a flow of that peer. -/
def flagT (kidx : BitVec 16) : Txn :=
  { txn0 with req := { wr1 with kidx := kidx },
              remote := some { src := 5, mtag := 0, lane := 1, port := 0, no := 9, op := 3, aop := 0, arrive := false, op1 := 1,
                               op2 := 0, off := 0, actr := 0, rights := 3, check := 0 } }
def flagS (kidx : BitVec 16) : State :=
  { rxS rx5 with links := { (rxS rx5).links with flags := [flagT kidx] }, rgn := { land.rgn with rows := [(5, { field with perm := 0 })] } }
def capSlot : State := { linked with keys := { land.keys with slots := [(2, { kind := .capability })] } }
def grantS (w : Nat) : State := capSlot.wr .fabGrant w
def run1 : GrantRun := ⟨0, 5, .reg 0, false⟩

theorem witness_FlowsAndGrants :
    ((txS (tx5 []) 0).links.tx.find? (fun f => f.dest == (5 : BitVec 16).toNat && flowId (txS (tx5 []) 0).unit f.lane f.fgen == flow5.toNat) =
        some (tx5 []) ∧ (txS (tx5 []) 0).links.outs = [] ∧ (tx5 []).sent = [] ∧ (tx5 []).waiting = []) ∧
    ((txS (tx5 []) 0).txIdle (tx5 []) = true) ∧
    (3 * 2 ^ 38 ≤ ((txS (tx5 []) (3 * 2 ^ 38)).slot 100).usage ∧ (tx5 []).lane = 1 ∧ (tx5 []).epoch0 = false) ∧
    ((flagS 2).links.flags.find? (fun t => t.remote.any (·.no == 9)) = some (flagT 2) ∧ (flagS 2).links.reqs = [] ∧
      (flagS 2).pageLocked (reqPage (flagT 2).req) false = false ∧ (flagS 2).pageClosed (reqPage (flagT 2).req) = false ∧
      ((flagS 2).withLinks { (flagS 2).links with flags := [] }).admitCheck (flagT 2) = some (6, .regionFault)) ∧
    (linked.links.up.contains 0 = true ∧ (upto 0 40).find? (fun n => decide ((linked.port n).att = some 0)) = some 0 ∧ 35 < 36) ∧
    ((grantS (2 + 5 * 2 ^ 16 + 2 ^ 38)).owner 0 ∧ (grantS (2 + 5 * 2 ^ 16 + 2 ^ 38)).links.grant = none ∧
      ((grantS (2 + 5 * 2 ^ 16 + 2 ^ 38)).slot (grantArg ((grantS (2 + 5 * 2 ^ 16 + 2 ^ 38)).rd .fabGrant)).capidx).kind = .capability ∧
      (grantArg ((grantS (2 + 5 * 2 ^ 16 + 2 ^ 38)).rd .fabGrant)).rights ≠ 0 ∧
      ((grantS 5).slot (grantArg ((grantS 5).rd .fabGrant)).capidx).kind ≠ .capability) ∧
    ({ linked with links := { linked.links with grant := some run1 } } : State).links.grant = some run1 ∧
    (land.owner 0 ∧ land.cfg.swapping = false ∧ (land.actr 4095).valid = false ∧
      ((land.setActr 4095 { valid := true }).actr 4095).valid = true) := by decide +kernel

def detachedS : State := { linked with dom := { linked.dom with state := .detached } }
def exch0 : Exch := { peer := 5, exch := 7, bodies := [] }
def joiningS : State := { linked with dom := { linked.dom with state := .joining, exch := some exch0, joinedAt := 0 } }
def seatS : State := { linked with dom := { linked.dom with state := .seat, exchs := [exch0] } }

theorem witness_Admission :
    (detachedS.owner 0 ∧ detachedS.fld F.domCtl_BUSY = 0 ∧ detachedS.life.lc ≠ .blank ∧ detachedS.life.lc ≠ .endOfLife ∧
      detachedS.dom.state = .detached ∧ linked.dom.state ≠ .detached ∧ linked.owner 0) ∧
    (land.dom.ballot = none ∧ linked.dom.ballot = some ballot7) ∧
    (seatS.dom.exchs.find? (fun x => x.peer == (5 : BitVec 16).toNat && x.exch == (7 : BitVec 32).toNat) = some exch0 ∧
      seatS.admission { exch0 with bodies := List.replicate 40 1 } [] = 1) ∧
    (joiningS.dom.exch = some exch0 ∧ exch0.peer = (5 : BitVec 16).toNat ∧ exch0.exch = (7 : BitVec 32).toNat ∧
      joiningS.dom.state = .joining ∧ (0 < (4 : BitVec 8).toNat ∧ (4 : BitVec 8).toNat < 5)) ∧
    (joiningS.life.time < joiningS.dom.joinedAt + 1000000000 ∧ joiningS.dom.admitOk = false ∧
      ({ joiningS with life := { joiningS.life with time := 1000000000 } } : State).dom.joinedAt + 1000000000 ≤ 1000000000) ∧
    ({ linked with dom := { linked.dom with state := .fallowHold } } : State).dom.state = .fallowHold := by decide +kernel

def adv7 (w : Option NatSet) : Advance := { epoch := 2, key := 0, members := [3, 5], gens := [], waiting := w }
def advSeat (w : Option NatSet) : State := { seatS with dom := { seatS.dom with advance := some (adv7 w) } }
def leavingS (b : Bool) : State := { linked with dom := { linked.dom with state := .leaving, leaveBusy := b } }

theorem witness_EpochAdvances :
    (seatS.owner 0 ∧ seatS.fld F.domCtl_BUSY = 0 ∧ seatS.dom.state = .seat ∧ seatS.dom.lastCount + 1 < 2 ^ 32) ∧
    (linked.dom.state = .member ∧ (linked.setFld F.domCtl_BUSY 1).abortAdvance.seatUnit = some 7 ∧
      7 ≠ (linked.setFld F.domCtl_BUSY 1).abortAdvance.unit) ∧
    ((5 : BitVec 16).toNat ≠ seatS.unit ∧ seatS.isMember 5 = true) ∧
    (linked.seatUnit = some (7 : BitVec 16).toNat ∧ linked.epochNo < (2 : Word).toNat ∧
      ([3, 5].foldl (fun (t : NatSet) (u : BitVec 16) => nsInsert t u.toNat) []).contains linked.unit = true) ∧
    ((advSeat none).dom.advance = some (adv7 none) ∧ (adv7 none).epoch = (2 : Word).toNat ∧
      (adv7 none).members.contains (5 : BitVec 16).toNat = true ∧
      (∀ n ∈ (adv7 none).members, n = (advSeat none).unit ∨ (nsInsert [] 5).contains n = true)) ∧
    ((advSeat (some [5])).dom.advance = some (adv7 (some [5])) ∧ [5].filter (· != (5 : BitVec 16).toNat) = [] ∧
      [5, 7].filter (· != (5 : BitVec 16).toNat) ≠ []) ∧
    (({ linked with dom := { linked.dom with next := some ek1, old := some ek1 } } : State).dom.next = some ek1 ∧
      ek1.epoch = (1 : Word).toNat ∧ linked.links.tx = [] ∧ linked.links.rx = []) ∧
    ((leavingS true).dom.leaveBusy = true ∧ (leavingS false).dom.leaveBusy = false) := by decide +kernel

/-- This block holds its own seat ballot and has sent it to unit 5. -/
def mySeat : State :=
  { seatS with dom := { seatS.dom with ballot := some { ballot7 with unit := 3 }, ballotSent := [5] } }

theorem witness_BallotsAndLeases :
    (up.regsOpen = true ∧ (7490 : BitVec 14).toNat ≠ 7491 ∧ (7491 : BitVec 14).toNat = 7491) ∧
    ((linked.takeBallot []).1 = 4) ∧
    (linked.seatUnit = some 7 ∧ linked.dom.state = .member) ∧
    (mySeat.isMember (5 : BitVec 16).toNat = true ∧ mySeat.dom.ballot = some { ballot7 with unit := 3 } ∧
      ballot7.notBefore ≤ mySeat.life.time ∧ mySeat.life.time + 100000000 ≤ ballot7.notAfter ∧
      mySeat.dom.ballotSent.contains 5 = true ∧ (3 : Nat) = mySeat.unit) ∧
    ((0 : Word).toNat ≤ linked.life.time ∧ (2000000 : Word).toNat + (linked.life.time - 0) / 2 = linked.life.time + 2000000 ∧
      (1000000 : Word).toNat + (linked.life.time - 0) / 2 = linked.life.time + 1000000) ∧
    (linked.life.time ≤ linked.dom.leaseEnd ∧
      ({ linked with life := { linked.life with time := 6 } } : State).dom.leaseEnd < 6) ∧
    (({ mySeat with life := { mySeat.life with time := 10 ^ 10 } } : State).dom.ballot.map (·.notAfter) = some (10 ^ 10)) ∧
    (linked.domPlot.gentag = false ∧ linked.isMember (5 : BitVec 16).toNat = true ∧ linked.isMember 9 = false) ∧
    linked.domPlot.cands.contains linked.unit = true := by decide +kernel

def bootS : State := { pairUp with pair := { pairUp.pair with state := .bootstrap } }
def staleS : State := { pairUp with pair := { pairUp.pair with image := { stale := true } } }

theorem witness_PairAndCells :
    (bootS.pairPlot = some plot0 ∧ bootS.pair.state = .bootstrap ∧ bootS.life.ready = true) ∧
    (pairUp.pair.state = .up ∧ staleS.pair.image.stale = true ∧ pairUp.pair.image.copyB = false) ∧
    (pairUp.pair.unacked.find? (·.seq == 0) = none ∧ pairUp.life.settling = false ∧
      (0 : Digest) = BitVec.ofNat 384 (le (itemData pairUp.pair.image.items 1 0) 112 48)) ∧
    (pairUp.stile.steps = [] ∧ ({ pairUp with pair := { pairUp.pair with claiming := true } } : State).pair.claiming = true) ∧
    ((tget none pairUp.pair.cells 4).isSome = true ∧ pairUp.owner 0 ∧ pairUp.fld F.pairCtl_BUSY = 0 ∧
      (pairUp.setFld F.pairCtl_CELL 0).cellAt 0 = some 4 ∧ (pairUp.setFld F.pairCtl_CELL 255).cellAt 255 = none) := by
  decide +kernel

/-! #### Clauses that need a state of their own -/

/-- The throttle has passed on all that a window allows. -/
def hot (s : State) : State := { s with throttle := { s.throttle with estimate := 2 ^ 30 } }
def maint1 : Maint := { lines := 64, prio := false }
def maintS : State := land.setLane 43 { land.lane 43 with maint := [maint1] }

theorem witness_MemoryRequests_maint : (∃ l, (maintS.refill 43 0).choose 43 = .maint maint1 l) ∧
    (maintS.refill 43 0).fits (grantEnergy (grantCycles maint1.lines)) = true ∧
    ((hot maintS).refill 43 0).fits (grantEnergy (grantCycles maint1.lines)) = false ∧
    (∃ t l, ((hot waitingS).refill 0 40).choose 0 = .work t l) ∧
    ((hot waitingS).refill 0 40).fits (grantEnergy (grantCycles (reqLines rd1))) = false :=
  ⟨⟨_, rfl⟩, by decide +kernel, by decide +kernel, ⟨_, _, rfl⟩, by decide +kernel⟩

theorem witness_ReadsAndVerdicts_held :
    ((reading { access0 with purpose := .write, data := [(0, 0)] } lineK).mem.accesses.find? (fun a => a.grp == 39 && !a.accepted) =
      some { access0 with purpose := .write, data := [(0, 0)] } ∧ access0.maint = false) ∧
    ((holding []).mem.held.any (fun x => x.id < 3 && sameLane x (held0 [])) = false ∧ (held0 []).what = .mem { txn0 with req := wr1 } 5) ∧
    (let u := ((rowOf5 { field with epoch := 6 }).withMem (holding []).mem).heldTime (held0 [])
     ((u.row 5).epoch ≠ (held0 []).epoch)) := by decide +kernel

theorem witness_CreditsAndCounters_pins : land.wbufRoom 43 0 = true ∧ cachedS.pinnedMeta 3 9 = false ∧
    ((rowOf5 { field with radio := true, perm := 3 }).pinnedMeta 1 0 = true) ∧
    ({ land with keys := { land.keys with autoWait := [2], metaWait := true } } : State).keys.metaWait = true := by decide +kernel

theorem witness_CommitsAndFences_outs : (stepS com).writesPending com.upto = false ∧ land.outsReset = false ∧ up.outsReset = false ∧
    up.stile.commits.any (fun t => (up.stepEnt t).part == 63) = false := by decide +kernel

def swapCoreS : State := up.setCore 63 { up.core 63 with swapTo := some 67 }
def swapPort : State := up.setPort 35 { up.port 35 with swapTo := some 39 }

theorem witness_Units_promised :
    (∀ m < 44, (up.lane m).swapTo ≠ some 43) ∧ (up.spareLane = some 40 ∧ (up.lane 39).role = .active ∧ (up.lane 39).swapTo = none) ∧
    (∀ m < 40, (up.port m).swapTo ≠ some 39) ∧ ((swapPort.port 35).serves = true ∧ (swapPort.port 35).swapTo = some 39) ∧
    ((swapCoreS.core 63).role = .active ∧ (swapCoreS.core 63).swapTo = some 67) := by decide +kernel

theorem witness_KeyUpkeep_entropy : healthFault (List.replicate 41 true) = some 0 ∧ healthFault (List.replicate 40 true) = none ∧
    up.lct.nonceWait = false ∧ (keyS.cfg.resuming = false ∧ (slot1 mem1).cfg.resuming = false) ∧ up.canDerive = false := by decide +kernel

/-- A FURROW region with one line written, over the job of all its pages; only page 0 holds a line to move. -/
def moveS : State :=
  { rowOf5 { field with kind := .furrow, wslot := some 0, hwm := 1 } with harrow := (jobIn .running .key).harrow }

/-- Nothing of `metaJob`'s tree was ever written, so that no page of the metadata waits for a parent. -/
theorem metaJob_node (fuel level idx : Nat) (h : 4 < fuel + level) (hf : 0 < fuel) : metaJob.node fuel level idx = some {} := by
  have minor : ∀ i < 64, ({} : CtrLine).minor i = 0 := by decide
  induction fuel generalizing level idx with
  | zero => omega
  | succ n ih =>
    unfold State.node
    split
    · rfl
    · have : metaJob.cachedNode level idx = none := rfl
      simp only [this]
      split
      · rfl
      · rw [ih (level + 1) (idx / 64) (by omega) (by omega)]
        simp only [minor _ (Nat.mod_lt _ (by decide)), if_true]

theorem witness_HarrowPages_parents (page : Nat) : metaJob.metaParents page = [] := by
  have h : ∀ level idx, (metaJob.parentEntry level idx).isNone = false := by
    intro level idx
    unfold State.parentEntry
    rw [metaJob_node _ _ _ (by omega) (by decide)]
    rfl
  unfold State.metaParents
  rw [List.filterMap_eq_nil_iff]
  intro x _
  simp only [h, Bool.false_eq_true, if_false]

theorem witness_HarrowPages_close :
    ((moveS.job 15).st = .running ∧ (moveS.job 15).scope ≠ .metadata ∧ (moveS.job 15).todo = 5 :: [] ∧ (moveS.job 15).head = 0 ∧
      (moveS.row 5).kind ≠ .tilled ∧ (moveS.row 5).radio = false ∧ moveS.engineOut 7 = false ∧ moveS.pageClosed 0 = false ∧
      moveS.pageLocked 0 false = false ∧ moveS.closedOn 0 < 4) ∧
    ((moveS.moveLines 5 0 {}).length = 1 ∧ (moveS.moveLines 5 1 {}).length = 0 ∧ moveS.mayClose (moveS.homeLane 0) = true ∧
      moveS.fits (grantEnergy (grantCycles 1)) = true ∧ (hot moveS).fits (grantEnergy (grantCycles 1)) = false) := by
  decide +kernel

theorem witness_SealAndAdvance_next : (rowOf5 sown).cfg.resuming = false ∧
    (advS 1024).staged.argLine ≤ sown.count * linesPerGranule ∧
    ({ sown with adv := [run5, run5] } : Region).adv = run5 :: [run5] := by decide +kernel

theorem witness_Seals_start : (runS false).started = false ∧ (runS false).waiting = false := by decide

theorem witness_TokenSessions_record :
    (let t : Tok := { st := .opened, row := 5 }
     let x := (t.chained (zeros 32)).chained (zeros 32)
     (tokS t).fits (keccakEnergy (x.count - t.count)) = true ∧ 0 < keccakEnergy 2 ∧ (hot (tokS t)).fits (keccakEnergy 2) = false) ∧
    (((tokS { st := .closed, row := 5 }).tok 8191).closing = none) := by decide +kernel

theorem witness_StavubContexts_work : (land.cfg.resuming = false) ∧
    (∀ p, seg0.addr / 4096 ≤ p → p ≤ (seg0.addr + seg0.len - 1) / 4096 → (segS seg0).pageClosed p = false) ∧
    (({ seg0 with raddr := 4095 } : Seg).crosses = true ∧ seg0.crosses = false) ∧
    ((asmS .ready).fits (keccakEnergy 61) = true ∧ (hot (asmS .ready)).fits (keccakEnergy 61) = false) :=
  ⟨rfl, fun _ _ _ => rfl, by decide, by decide +kernel⟩

theorem witness_ServiceQueues_timeout : ((withCmd land 255 { doneCmd with st := .running }).part 0).haltAck = false ∧
    (withCmd land 255 { cmdAt 15 { op := 1 } with st := .running }).originWaits 255 { cmdAt 15 { op := 1 } with st := .running } = false := by
  decide +kernel

theorem witness_Sheaves_stook : (shfS { leaves := [leaf1] }).dig.shf.closeDue = none ∧
    (shfS { leaves := [leaf1], signing := some ⟨[], 0, 0⟩ }).dig.shf.signing ≠ none ∧
    ((shfS { signing := some ⟨[leaf1], 0, 0⟩ }).life.lc ≠ .test → (shfS { signing := some ⟨[leaf1], 0, 0⟩ }).predOk = true) ∧
    (∀ l ∈ [leaf1], l.job = none) ∧ (job0.waitStep = true → job0.stepStatus ≠ none) := by decide +kernel

theorem witness_FabricRequests_fenced :
    (outS { copyO with entered := true, sealed := true }).dom.fenced.contains 5 = false ∧
    (({ linked with dom := { linked.dom with fenced := [5] } } : State).dom.fenced.contains 5 = true ∧ copyO.lane = 1) := by
  decide +kernel

theorem witness_Frames_budget : (linked.radioFirst 0 = false ∧ linked.life.settling = false) ∧
    (linked.fits (tx5 [msg0]).energy = true ∧ (hot linked).fits (tx5 [msg0]).energy = false ∧ (tx5 [msg0]).epoch0 = false) ∧
    ((rxS (rxc 1)).links.rx.filter (fun f => f.src == 5 && f.lane == 2 && f.fgen == 1) = [rxc 1] ∧ (rxc 1).epoch0 = false ∧
      (rxc 1).epoch % 2 = bits (le (bvBytes (hdr 1).header) 14 2) 13 1 ∧ (rxc 1).down = false) := by decide +kernel

theorem witness_FlowsAndGrants_last :
    (({ tx5 [] with fgen := 16383 } : TxFlow).fgen = 16383 ∧ seatS.dom.asked = false ∧ seatS.dom.state = .seat ∧
      3 * 2 ^ 38 ≤ ((txS { tx5 [] with fgen := 16383 } (3 * 2 ^ 38)).slot 100).usage) ∧
    (land.cfg.resuming = false ∧ land.fld F.fabActrSel_BUSY = 0) := by decide +kernel

theorem witness_Admission_draws : (seeded linked).predOk = true ∧ (seeded linked).dom.ballot = some ballot7 := by decide +kernel

theorem witness_EpochAdvances_silent : seatS.dom.heard = [] ∧
    (∀ h ∈ ({ seatS with dom := { seatS.dom with heard := [(5, 0)] }, life := { seatS.life with time := 2500000000 } } : State).dom.heard,
      h.1 = 5 → h.2 + 2500000000 ≤ 2500000000) := by decide +kernel

theorem witness_BallotsAndLeases_partner : mySeat.dom.again = false ∧
    (pairUp.pairPlot = some plot0 ∧ plot0.partner = (9 : BitVec 16).toNat ∧ (pairUp.unitDown 9).pair.state = .up ∧
      (pairUp.unitDown 9).pairPlot = some plot0) ∧
    (∀ p, linked.pairPlot = some p → p.partner ≠ (5 : BitVec 16).toNat) ∧
    (linked.life.time ≤ linked.dom.leaseEnd ∧ linked.domPlot.gentag = false) :=
  ⟨by decide +kernel, by decide +kernel, fun p h => by cases h; decide, by decide +kernel⟩

/-- A pair with a stale image, one with an image held, and one that settles. -/
def heldP : State := { pairUp with pair := { pairUp.pair with image := { held := true } } }

theorem witness_PairAndCells_image :
    (staleS.sealedClosed 5 = false ∧ heldP.pair.image.held = true ∧ pairUp.pair.image.copyB = false ∧
      heldP.pair.evidence = BitVec.ofNat 384 (le (itemData heldP.pair.image.items 1 0) 112 48)) ∧
    ((({ pairUp with life := { pairUp.life with settling := true } } : State).life.settling = true) ∧
      waiting8.life.restoreWait = true ∧ waiting8.pairPlot = some plot0) ∧
    (heldP.life.settling = false ∧ heldP.life.restoreWait = false) ∧
    ((seeded pairUp).predOk = true ∧ pairUp.harrow.jobs = [] ∧ linked.dom.state = .member ∧ up.dom.state ≠ .member) ∧
    (dark.life.ready = false ∧ dark.dom.state ≠ .member) := by decide +kernel

/-! ### Single commands, with what the manual says of them -/

/-- The state after one command; the state itself when the command stops. -/
def after (c : Instr) (s : State) : State := match exec c s with | .next t => t | _ => s

/-- R57, R53: a misaligned read is answered REGION_FAULT at its transfer. -/
theorem test_memoryRequest_misaligned :
    (after (.memoryRequest 0 { rd1 with addr := 32 }) land).mem.rsps.map (fun r => (r.tid, r.status)) = [(0, .regionFault)] := by
  decide +kernel

/-- R57: the generation is checked before the fence of the reset domain. -/
theorem test_memoryRequest_gen_before_fence : (land.setRdom 0 { fence := true }).refusedAtTransfer 0 { rd1 with gen := 1 } =
    some (2, .genStale) ∧ (land.setRdom 0 { fence := true }).refusedAtTransfer 0 rd1 = some (3, .fenced) := by decide +kernel

/-- R51: an identifier still outstanding must not be used again. -/
theorem test_memoryRequest_tid : exec (.memoryRequest 0 rd1) waitingS = .fault .tidReused := rfl

/-- R98, Table 8a: an offset of a FURROW region that was never written reads as zeros, and completes OK. -/
theorem test_laneGrant_virgin :
    (after (.laneGrant 0 40) { waitingS with rgn := { rows := [(5, { field with kind := .furrow, wslot := some 0 })] } }).mem.rsps.map
      (fun r => (r.status, r.data)) = [(.ok, [0])] := by decide +kernel

/-- R57 item 7: a key index that is not the region's is KEY_MISMATCH. -/
theorem test_laneGrant_keyMismatch :
    (after (.laneGrant 0 40) { waitingS with mem := { waitingS.mem with ingress := [{ txn0 with req := { rd1 with kidx := 3 } }] } }).mem.rsps.map
      (·.status) = [.keyMismatch] := by decide +kernel

/-- R53: the response is presented, and its identifier is free again. -/
theorem test_readRelease : (after (.readRelease 39) { land with mem := { land.mem with rsps := [rsp0], tids := [39 * 1024 + 1023] } }).out =
    [.mrsp 39 1023 .ok [⟨0, 0, 0, true⟩] false] ∧
    (after (.readRelease 39) { land with mem := { land.mem with rsps := [rsp0], tids := [39 * 1024 + 1023] } }).mem.tids = [] := by
  decide +kernel

/-- R187: a lane below 1,024 line-writes asks for a credit once. -/
theorem test_creditRequest : (after (.creditRequest 43 2) (after (.creditRequest 43 2) land)).keys.creditReqs = [⟨43, 2⟩] := by
  decide +kernel

/-- R76: the fence of a domain with nothing outstanding is acknowledged, and falls with its request. -/
theorem test_rdom : (after (.rdomFenced 7) (after (.rdomFence 7) up)).out = [.rdomFenced 7 true] ∧
    ((after (.rdomUnfence 7) (after (.rdomFenced 7) (after (.rdomFence 7) up))).rdom 7) = {} := by decide +kernel

/-- R73: a halted partition with nothing outstanding is acknowledged; one with a request in flight is not. -/
theorem test_haltAck : (after (.haltAck 63) (after (.accHalt 63) up)).out.head? = some (.haltAck 63 true) ∧
    (after (.haltAck 0) (after (.accHalt 0) waitingS)).out = [] := by decide +kernel

/-- R57 item 5: a request of a halted partition is answered RETRY. -/
theorem test_accHalt : (after (.accHalt 0) land).refusedAtTransfer 0 rd1 = some (5, .retry) := by decide +kernel

/-- R77: while the block fence is up no request transfers. -/
theorem test_blkFence : exec (.memoryRequest 0 rd1) State.reset = .next State.reset := rfl

/-- R353, R450: before READY the owner is attach port 0. -/
theorem test_ownerPort : (inPhase 4).ownerPort = 0 := by decide +kernel

/-- R16: a read of an unmapped offset returns zero with an error. -/
theorem test_rcRegisterRead_unmapped : (after (.rcRegisterRead 0 (acc 0x28 false 0)) up).out = [.regRsp 0 0 true] := by decide +kernel

/-- R390, Table 4 of the register map: LZ_READY in service shows READY in bit 0 and phase 15 in bits 4 to 1. -/
theorem test_rcRegisterRead_ready : (after (.rcRegisterRead 2 (acc 0x10 false 0)) up).out = [.regRsp 2 0x1F false] := by decide +kernel

/-- R14: a write of another controller than the owner is refused, counted, and changes nothing. -/
theorem test_registerWrite_nonowner : (after (.registerWrite 3 (ramp 50)) up).out = [.regRsp 3 0 true] ∧
    (after (.registerWrite 3 (ramp 50)) up).fld F.pwrRamp_RAMP = 20 ∧
    (after (.registerWrite 3 (ramp 50)) up).fld F.gstat_NONOWNER = 1 := by decide +kernel

/-- R457: the owner sets RAMP. -/
theorem test_registerWrite_ramp : (after (.registerWrite 0 (ramp 50)) up).fld F.pwrRamp_RAMP = 50 ∧
    (after (.registerWrite 0 (ramp 50)) up).out = [.regRsp 0 0 false] := by decide +kernel

/-- R11, R457: RAMP below 20 is reserved, and the write is discarded. -/
theorem test_registerWrite_reserved : (after (.registerWrite 0 (ramp 19)) up).fld F.pwrRamp_RAMP = 20 ∧
    (after (.registerWrite 0 (ramp 19)) up).out = [.regRsp 0 0 true] := by decide +kernel

/-- R360: HANDOVER to port 0 completes at once under the next epoch. -/
theorem test_handoverGo_zero : ((after (.handoverGo 5 0) (up.setFld F.ownStatus_OWNER 5)).fld F.ownStatus_OWNER) = 0 ∧
    ((after (.handoverGo 5 0) (up.setFld F.ownStatus_OWNER 5)).fld F.ownEpoch_EPOCH) = 1 := by decide +kernel

/-- R190, R469: ALLOC takes the lowest EMPTY slot with one driver reference, and the next ALLOC the one above. -/
theorem test_keyAlloc : ((after (.keyAlloc (.reg 0) 0) keyS).slot 1).kind = .memory ∧
    ((after (.keyAlloc (.reg 0) 0) keyS).slot 1).dref = 1 ∧
    ((after (.keyAlloc (.reg 0) 0) (after (.keyAlloc (.reg 0) 0) keyS)).slot 2).kind = .memory := by decide +kernel

/-- R190: a dropped reference leaves none, and another drop is refused with REF_RANGE (5). -/
theorem test_keyUnref : ((after (.keyUnref (.reg 0) 1) used1).fld F.keyCmd_RESULT) = 5 ∧
    ((after (.keyUnref (.reg 0) 1) (slot1 { mem1 with dref := 2 })).slot 1).dref = 1 := by decide +kernel

/-- R191: a slot without references is torn down to EMPTY, and a referenced one stays. -/
theorem test_slotTeardown : ((after (.slotTeardown 1) (slot1 { kind := .memory })).slot 1).kind = .empty ∧
    ((after (.slotTeardown 1) (slot1 mem1)).slot 1).kind = .memory := by decide +kernel

/-- R113: CREATE makes a FURROW region OPEN with a fresh EPOCH and a window slot. -/
theorem test_rgnCreate : ((after (.rgnCreate (.reg 0) 16383 (got 0)) staged5).row 16383).state = .opened ∧
    ((after (.rgnCreate (.reg 0) 16383 (got 0)) staged5).row 16383).base = 5 ∧
    ((after (.rgnCreate (.reg 0) 16383 (got 0)) staged5).row 16383).wslot = some 0 ∧
    ((after (.rgnCreate (.reg 0) 16383 (got 0)) staged5).row 16383).epoch = 1 := by decide +kernel

/-- R466: CREATE of a row that is not FREE is refused with REFUSED_STATE (1). -/
theorem test_rgnCreate_busy_row : ((after (.rgnCreate (.reg 0) 5 (got 0)) staged5).fld F.rgnSel_RESULT) = 1 := by decide +kernel

/-- R113, R114: DESTROY starts the closing, and the row becomes FREE when it has no references. -/
theorem test_rgnDestroy : ((after (.rgnDestroy (.reg 0) 5 (got 0)) land).row 5).state = .closing ∧
    ((after (.regionFree 5) (after (.rgnDestroy (.reg 0) 5 (got 0)) land)).row 5).state = .free := by decide +kernel

/-- R103: ADVANCE over a range with no held write ends with HWM at the argument. -/
theorem test_advance : ((after (.advanceComplete 5) (rowOf5 { sown with adv := [{ run5 with target := 3 }], win := [1, 3] })).row 5).hwm = 4 := by
  decide +kernel

/-- R149: START of a record that is not FREE is refused with REFUSED_STATE (1). -/
theorem test_hrwStart : ((after (.hrwStart 0 15) (jobIn .running .key)).fld F.hrwCtl_RESULT) = 1 ∧
    ((after (.hrwStart 0 15) jobS).job 15).st ≠ .free := by decide +kernel

/-- R141: a spare lane that fails its test at stage 3 shows FAIL and the stage. -/
theorem test_laneBist : ((after (.laneBistStart 0 43 3) up).fld F.laneBist_RESULT 43) = 3 ∧
    ((after (.laneBistStart 0 43 3) up).fld F.laneBist_FAIL_STAGE 43) = 3 := by decide +kernel

/-- R42, R141: the switch-over gives the spare the lane's group. -/
theorem test_switchover : ((after (.switchover ⟨1, 0⟩ 0) swapLane).lane 40).group = some 0 ∧
    ((after (.switchover ⟨1, 0⟩ 0) swapLane).lane 40).role = .active := by decide +kernel

/-- R346: FLIP of a partition switches its bitmap. -/
theorem test_flip : ((after (.flip 0 63) up).part 63).activeMap = true ∧
    ((after (.flip 0 63) (after (.flip 0 63) up)).part 63).activeMap = false := by decide +kernel

/-- R413: HEDGE raises the drain request and stays busy; the acknowledgement ends it. -/
theorem test_hedge : (after (.hedge 0 63) up).out.contains (.drainReq 63 true) = true ∧
    (after (.hedge 0 63) up).fld F.fltHedge_BUSY = 1 ∧ (after (.drainAck 63) (after (.hedge 0 63) up)).fld F.fltHedge_BUSY = 0 := by
  decide +kernel

/-- R304: a doorbell on a port that the queue is not bound to is counted and answered with an error. -/
theorem test_sqDoorbell : ((after (.sqDoorbell 3 255 0x1001) (qS { state := .running })).fld F.svcQerr_DB_REFUSED 255) = 1 ∧
    ((after (.sqDoorbell 2 255 0x1001) (qS { state := .running })).queue 255).sqTail = 1 := by decide +kernel

/-- R307: ENABLE starts a queue with its parity at 1, and DISABLE with nothing in flight ends it. -/
theorem test_queueEnable : ((after (.queueEnable 0 255) (qS {})).queue 255).state = .running ∧
    ((after (.queueDisable 0 255) (after (.queueEnable 0 255) (qS {}))).queue 255).state = .disabled := by decide +kernel

/-- R312: NOP completes SUCCESS. -/
theorem test_nop : ((after (.nop 255 15) (withCmd land 255 (cmdAt 15 nop0))).cmd 255 15).map (fun c => (c.st, c.status)) =
    some (.done, 0) := by decide +kernel

/-- R318: a cipher command charges one unit for each block of its key. -/
theorem test_aesEnc : ((after (.aesEnc 255 15 (got 64)) (cipherS 0 (cmdAt 15 (cdesc 1)))).slot 8).usage = 4 ∧
    ((after (.aesEnc 255 15 (got 64)) (cipherS 1021 (cmdAt 15 (cdesc 1)))).cmd 255 15).map (·.status) = some 7 := by decide +kernel

/-- R314, Table 9: a cipher command under a key of another kind fails with DETAIL KIND. -/
theorem test_xtsDec : ((after (.xtsDec 255 15 (got 4096)) (withCmd land 255 (cmdAt 15 { cdesc 4 with len := 4096 }))).cmd 255 15).map
    (fun c => (c.status, c.detail)) = some (1, 1) := by decide +kernel

/-- R233: ARM of a watch that is not FREE is refused, and DISARM frees it. -/
theorem test_watch : ((after (.watchDisarm (.reg 0) 63) (watchS { st := .armed })).watch 63).st = .free ∧
    ((after (.watchArm (.reg 0) 63) armS).watch 63).st = .armed := by decide +kernel

/-- R236, R237: a session opens on a FURROW region, and its identifier begins its chain. -/
theorem test_tokOpen : ((after (.tokOpen (.reg 0) 8191) tokOpenS).tok 8191).st = .opened ∧
    ((after (.tokOpen (.reg 0) 8191) tokOpenS).tok 8191).row = 5 := by decide +kernel

/-- R209: a CLOSING context with its tensor covered is FINAL; one with a part missing is INCOMPLETE. -/
theorem test_contextFinish : ((after (.contextFinish 253) (ctxS { st := .closing })).ctx 253).st = .final ∧
    ((after (.contextFinish 253) (ctxS { st := .closing, n := 1 })).ctx 253).st = .incomplete := by decide +kernel

/-- R220: a contributor takes the final record of its tensor. -/
theorem test_finalRecord : ((after (.finalRecord finalRec0) (ctxS { st := .gathering })).ctx 253).st = .final := by decide +kernel

/-- R64: a link that rises is up, and one that falls is not. -/
theorem test_link : (after (.linkUp 35) up).links.up = [35] ∧ (after (.linkDown 35) (after (.linkUp 35) up)).links.up = [] := by
  decide +kernel

/-- R62: a frame whose link mark is bad is dropped and counted at its port. -/
theorem test_frameReceive_bad : (after (.frameReceive 0 (hdr 1) true) linked).fld F.portErr_LINK_BAD 0 = 1 := by decide +kernel

/-- R258: a frame of a known flow with a sequence already seen is dropped and counted. -/
theorem test_frameReceive_dup : (after (.frameReceive 0 (hdr 1) false) (rxS (rxc 2))).fld F.portErr_DUP_DROP 0 = 1 := by decide +kernel

/-- R269: an arrival counter that is configured is VALID and armed. -/
theorem test_actrConfig : ((after (.actrConfig (.reg 0) 4095) land).actr 4095).valid = true ∧
    ((after (.actrRead (.reg 0) 4095) land).fld F.fabActrSel_RESULT) = 1 := by decide +kernel

/-- R265, R60: a fabric request without a capability is KEY_MISMATCH at its source, with one beat of zeros. -/
theorem test_fabricRequest : (after (.fabricRequest 15 { fab1 with kidx := 4 }) linked).out = [.frsp 15 0 .keyMismatch [⟨0, 0, 0, true⟩] false] := by
  decide +kernel

/-- R286: a member whose lease has ended is in fallow-hold. -/
theorem test_leaseExpiry : (after .leaseExpiry { linked with life := { linked.life with time := 6 } }).dom.state = .fallowHold ∧
    (after .leaseExpiry linked).dom.state = .member := by decide +kernel

/-- R282: a ballot of the wrong length is refused with FORMAT (4). -/
theorem test_ballotPost : (after (.ballotPost 0 7490) linked).fld F.domMboxCtl_RESULT = 4 := by decide +kernel

/-- R39, R286: domain time advances by 1,000 ns at a tick, and by one more at a member that is behind its seat. -/
theorem test_domainTick : (after (.domainTick 7) up).life.time = 1000 ∧ (after (.domainTick 7) up).life.telem = 7 ∧
    (after (.domainTick 7) { linked with life := { linked.life with slew := 5 } }).life.time = 1001 := by decide +kernel

/-- R298: a partner that is lost leaves the pair LOST under the next pair epoch. -/
theorem test_partnerLost : (after (.partnerLost false) pairUp).pair.state = .lost ∧
    (after (.partnerLost false) pairUp).fld F.pairEpoch_EPOCH = pairUp.fld F.pairEpoch_EPOCH + 1 := by decide +kernel

/-- R302: a cell that is handed over is PRIMARY here no more. -/
theorem test_cellHandover : tget none (after (.cellHandover 0 0) pairUp).pair.cells 4 = some false := by decide +kernel

/-- R385: words 8 to 23 are hidden: they read zero with an error. -/
theorem test_otpRead : (after (.otpRead 5 8) up).out = [.regRsp 5 0 true] ∧
    (after (.otpRead 5 7) (up.otpPut 7 9)).fld F.otpData_VALUE = 9 := by decide +kernel

/-- R386: bits of an OTP word are set once, and a value that would clear one is NOT_SUBSET (1). -/
theorem test_otpProgram : (after (.otpProgram (.reg 0) 991 true true) (up.setFld F.otpData_VALUE 3)).otpWord 991 = 3 ∧
    (after (.otpProgram (.reg 0) 991 true true) (up.otpPut 991 1)).fld F.otpCtl_RESULT = 1 := by decide +kernel

/-- R390: the release of lz_por_n begins phase OTP. -/
theorem test_powerOnReset : (after .powerOnReset dark).life.phase = 1 ∧ (after .powerOnReset dark).life.powered = true := by
  decide +kernel

/-- R390: a phase that stops shows its cause and leaves the block not ready. -/
theorem test_bringupPhaseDone : (after (.bringupPhaseDone 1 (got 0)) (inPhase 2)).life.fail = 1 ∧
    (after (.bringupPhaseDone 1 (got 0)) (inPhase 2)).life.ready = false := by decide +kernel

/-- R461: a loss of lock raises the fence and is counted. -/
theorem test_pllLockLoss : (after .pllLockLoss up).life.blkFence = true ∧ (after .pllLockLoss up).fld F.clkStat_LOCK_LOSS = 1 := by
  decide +kernel

/-- R417: a warm-reset request raises lz_warm_req once. -/
theorem test_warmReq : (after (.warmReq 0) up).life.warmReq = true ∧ (after (.warmReq 0) up).out.contains (.warmReq true) = true := by
  decide +kernel

/-- R421: the first record takes position 0 and sequence 0, and the head moves on. -/
theorem test_gleanerRecord : (after .gleanerRecord (gln false)).faults.head = 1 ∧
    (tget {} (after .gleanerRecord (gln false)).faults.ring 0).seq = 0 ∧ (after .gleanerRecord (gln true)).faults.head = 0 := by
  decide +kernel

/-- R407: the heartbeat counts. -/
theorem test_reeveHeartbeat : (after .reeveHeartbeat up).rd .heartbeat = 1 := by decide +kernel

/-- R439: a read of the trace that asks for nothing is refused with RESULT 2. -/
theorem test_traceRead : (after (.traceRead 0 0 0) up).fld F.obsMboxCtl_RESULT 0 0 = 2 := by decide +kernel

/-- A block with no command waiting idles, and one with commands takes the first. -/
theorem test_step : step up = .next up ∧
    step { up with pending := [.accHalt 63, .accHalt 62] } = exec (.accHalt 63) { up with pending := [.accHalt 62] } :=
  ⟨rfl, rfl⟩

end Sys2Proof.Tests
end

section
/-! What a register access ends in before it reaches the register: an offset that no register has, a controller that may not
write, an encoding that is reserved. -/

namespace Sys2Proof.Machine

/-! ### The register map -/

/-- Every array of registers has a positive stride and ends below 0x80_0000 (Table 4). -/
theorem Reg.place_bounds (r : Reg) :
    0 < r.place.stride ∧ r.place.base + r.place.count * r.place.stride ≤ 0x800000 := by
  cases r <;> decide

/-- An offset from the end of a register's array on names no instance of it. -/
theorem Reg.at?_eq_none_of_end_le {r : Reg} {off : Nat} (hs : 0 < r.place.stride)
    (h : r.place.base + r.place.count * r.place.stride ≤ off) : r.at? off = none := by
  have hi : r.place.count ≤ (off - r.place.base) / r.place.stride := (Nat.le_div_iff_mul_le hs).2 (by omega)
  simp [Reg.at?, hi.not_gt]

/-- Nothing is mapped from 0x80_0000 on (R16). -/
theorem regAt?_eq_none_of_le {off : Nat} (h : 0x800000 ≤ off) : regAt? off = none := by
  refine List.findSome?_eq_none_iff.2 fun r _ => ?_
  obtain ⟨hs, he⟩ := r.place_bounds
  rw [Reg.at?_eq_none_of_end_le hs (he.trans h), Option.map_none]

/-! ### The rows of an access -/

theorem exec_rcRegisterRead {s : State} {port : Nat} {a : RegAccess} (hp : port < 6) (hw : a.write = false) :
    exec (.rcRegisterRead port a) s = .next (s.readReg port a) := by
  change execRcRegisterRead port a s = _
  simp [execRcRegisterRead, hw, hp]

theorem exec_registerWrite {s : State} {port : Nat} {a : RegAccess} (hp : port < 6) (hw : a.write = true) :
    exec (.registerWrite port a) s = .next (s.writeReg port a) := by
  change execRegisterWrite port a s = _
  simp [execRegisterWrite, hw, hp]

/-! ### Reads and writes of an open register file, at an aligned offset -/

section
variable {s : State} {port : Nat} {a : RegAccess} {x : RegAt}

theorem State.readReg_unmapped (ho : s.regsOpen = true) (ha : a.off % 8 = 0) (hx : regAt? a.off = none) :
    s.readReg port a = (s.incFld F.gstat_UNMAPPED).regRsp port 0 true := by
  simp [State.readReg, ho, ha, hx]

theorem State.writeReg_unmapped (ho : s.regsOpen = true) (ha : a.off % 8 = 0) (hx : regAt? a.off = none) :
    s.writeReg port a = (s.incFld F.gstat_UNMAPPED).regRsp port 0 true := by
  simp [State.writeReg, ho, ha, hx]

/-- The checks of a write to a mapped register, in their order: the controller (R14), a field to write (R468), reserved
encodings (R11), and the register's own rules. -/
theorem State.writeReg_mapped (ho : s.regsOpen = true) (ha : a.off % 8 = 0) (hx : regAt? a.off = some x) :
    s.writeReg port a =
      if (∀ f ∈ x.reg.fields, f.acc ≠ .any) ∧ port ≠ s.ownerPort then (s.incFld F.gstat_NONOWNER).regRsp port 0 true
      else if ¬ ∃ f ∈ x.reg.fields, f.acc.writable = true ∧ acts a f = true then s.winErr port x
      else if s.reserved x (s.writeWord port x a) = true then s.winErr port x
      else if s.barred port x (s.writeWord port x a) = true then s.winErr port x
      else s.acceptWrite port x (s.writeWord port x a) := by
  simp [State.writeReg, ho, ha, hx]

theorem State.writeReg_nonOwner (ho : s.regsOpen = true) (ha : a.off % 8 = 0) (hx : regAt? a.off = some x)
    (hany : ∀ f ∈ x.reg.fields, f.acc ≠ .any) (hp : port ≠ s.ownerPort) :
    s.writeReg port a = (s.incFld F.gstat_NONOWNER).regRsp port 0 true := by
  rw [State.writeReg_mapped ho ha hx, if_pos ⟨hany, hp⟩]

theorem State.writeReg_reserved (ho : s.regsOpen = true) (ha : a.off % 8 = 0) (hx : regAt? a.off = some x)
    (hmay : port = s.ownerPort ∨ ∃ f ∈ x.reg.fields, f.acc = .any)
    (hset : ∃ f ∈ x.reg.fields, f.acc.writable = true ∧ acts a f = true)
    (hres : s.reserved x (s.writeWord port x a) = true) : s.writeReg port a = s.winErr port x := by
  have hctl : ¬ ((∀ f ∈ x.reg.fields, f.acc ≠ .any) ∧ port ≠ s.ownerPort) := by
    rintro ⟨hany, hne⟩
    obtain hp | ⟨f, hf, hacc⟩ := hmay
    · exact hne hp
    · exact hany f hf hacc
  rw [State.writeReg_mapped ho ha hx, if_neg hctl, if_neg (not_not_intro hset), if_pos hres]

end

/-! ### The statements -/

/-- Settles O7: the map ends below 0x80_0000, and a read and a write make the same check of the offset. -/
theorem unmappedAccesses : Obligations.UnmappedAccesses := by
  refine ⟨fun _ => regAt?_eq_none_of_le, fun s port a ho hp ha hx => ⟨fun hw => ?_, fun hw => ?_⟩⟩
  · rw [exec_rcRegisterRead hp hw, State.readReg_unmapped ho ha hx]
  · rw [exec_registerWrite hp hw, State.writeReg_unmapped ho ha hx]

/-- Settles O8: the controller is the first check of a write to a mapped register. -/
theorem nonOwnerWrites : Obligations.NonOwnerWrites := by
  intro s port a x ho hp hw ha hx hany hne
  rw [exec_registerWrite hp hw, State.writeReg_nonOwner ho ha hx hany hne]

/-- Settles O9: a write that passes the check of its controller and acts on a writable field meets the check of reserved
encodings before anything is stored. -/
theorem reservedWrites : Obligations.ReservedWrites := by
  intro s port a x ho hp hw ha hx hmay hset hres
  rw [exec_registerWrite hp hw, State.writeReg_reserved ho ha hx hmay hset hres]
  rfl

end Sys2Proof.Machine
end

section
/-! The owner's write of a free engine; and what a record and a trace record write: the registers that count what is dropped,
and the recorder. -/

namespace Sys2Proof.Machine

/-- A write by the owner that finds its engine free, as its check of BUSY shows. -/
theorem State.ownerCmd_free {s : State} {port : Nat} {busy : Bool} {err : Fld} {f : State → State} {ei : Nat}
    (h : s.owner port) (hb : busy = false) : s.ownerCmd port busy err f ei = (f s).regRsp port 0 false := by
  rw [hb, State.ownerCmd_owner h]

theorem State.incFld_eq (s : State) (f : Fld) (i p : Nat) : ∃ r, s.incFld f i p = { s with regs := r } := ⟨_, rfl⟩

theorem State.stage_eq (s : State) (x : Staged) : ∃ r f, s.stage x = { s with regs := r, faults := f } := by
  unfold State.stage
  split
  · exact ⟨s.regs, _, rfl⟩
  · obtain ⟨r, h⟩ := s.incFld_eq F.glnStat_DROPPED 0 0
    rw [h]
    exact ⟨r, _, rfl⟩

/-- A record is staged, and some events are counted. -/
theorem State.record_cases (s : State) (ev : Event) (src : Src) (i : Nat) (p : Option Nat) (a b : Nat) (reh : Bool) :
    s.record ev src i p a b reh = s.stage ⟨src, i, ev, ev.sev, p, a, b, reh⟩ ∨
    ∃ f, s.record ev src i p a b reh = (s.stage ⟨src, i, ev, ev.sev, p, a, b, reh⟩).incFld f := by
  unfold State.record
  split
  iterate 6 exact .inr ⟨_, rfl⟩
  exact .inl rfl

theorem State.record_eq (s : State) (ev : Event) (src : Src) (i : Nat) (p : Option Nat) (a b : Nat) (reh : Bool) :
    ∃ r f, s.record ev src i p a b reh = { s with regs := r, faults := f } := by
  obtain ⟨r, f, h⟩ := s.stage_eq ⟨src, i, ev, ev.sev, p, a, b, reh⟩
  obtain he | ⟨g, he⟩ := s.record_cases ev src i p a b reh
  · exact ⟨r, f, he.trans h⟩
  · rw [he, h]
    obtain ⟨r', h'⟩ := State.incFld_eq { s with regs := r, faults := f } g 0 0
    exact ⟨r', f, h'⟩

theorem State.trace_eq (s : State) (c e src : Nat) (p : Option Nat) (x y z : Nat) (reh : Bool) :
    ∃ r o, s.trace c e src p x y z reh = { s with regs := r, obs := o } := by
  unfold State.trace
  split
  · exact ⟨s.regs, s.obs, rfl⟩
  · split
    · exact ⟨s.regs, _, rfl⟩
    · obtain ⟨r, h⟩ := s.incFld_eq F.obsErr_DROPPED 0 0
      rw [h]
      exact ⟨r, _, rfl⟩

/-- A record leaves every part of the state alone but the registers and GLEANER's. -/
theorem State.record_frame {β : Type} (π : State → β) (h : ∀ s r f, π { s with regs := r, faults := f } = π s) (s : State)
    (ev : Event) (src : Src) (i : Nat) (p : Option Nat) (a b : Nat) (reh : Bool) :
    π (s.record ev src i p a b reh) = π s := by
  obtain ⟨r, f, he⟩ := s.record_eq ev src i p a b reh
  rw [he, h]

/-- A trace record leaves every part of the state alone but the registers and the trace's. -/
theorem State.trace_frame {β : Type} (π : State → β) (h : ∀ s r o, π { s with regs := r, obs := o } = π s) (s : State)
    (c e src : Nat) (p : Option Nat) (x y z : Nat) (reh : Bool) : π (s.trace c e src p x y z reh) = π s := by
  obtain ⟨r, o, he⟩ := s.trace_eq c e src p x y z reh
  rw [he, h]

section
variable (s : State) (ev : Event) (src : Src) (i : Nat) (p : Option Nat) (a b : Nat) (reh : Bool)

@[simp] theorem State.record_life : (s.record ev src i p a b reh).life = s.life :=
  State.record_frame State.life (fun _ _ _ => rfl) s ev src i p a b reh

@[simp] theorem State.record_cfg : (s.record ev src i p a b reh).cfg = s.cfg :=
  State.record_frame State.cfg (fun _ _ _ => rfl) s ev src i p a b reh

end

end Sys2Proof.Machine
end

section
/-! The register file: a field of a number that is set reads back and leaves the others alone, and so for the registers; and
what holds of every step by the shape of `step` and of the reset state. -/

namespace Sys2Proof.Machine

/-! ### Fields of a number -/

/-- A number is what lies above a field, the field, and what lies below it. -/
theorem eq_above_bits_below (x lo w : Nat) :
    x = x / 2 ^ (lo + w) * 2 ^ (lo + w) + bits x lo w * 2 ^ lo + x % 2 ^ lo := by
  have h1 := Nat.div_add_mod' x (2 ^ lo)
  have h2 := Nat.div_add_mod' (x / 2 ^ lo) (2 ^ w)
  rw [Nat.div_div_eq_div_mul, ← pow_add] at h2
  calc x = (x / 2 ^ (lo + w) * 2 ^ w + bits x lo w) * 2 ^ lo + x % 2 ^ lo := by rw [bits, h2, h1]
    _ = _ := by ring

/-- Setting a field keeps what lies above and below it. -/
theorem setBits_eq (x lo w v : Nat) :
    setBits x lo w v = x / 2 ^ (lo + w) * 2 ^ (lo + w) + v % 2 ^ w * 2 ^ lo + x % 2 ^ lo := by
  have h := eq_above_bits_below x lo w
  rw [setBits]
  omega

/-- A new value and what lies below it stay below the end of the field. -/
theorem field_lt (x lo w v : Nat) : v % 2 ^ w * 2 ^ lo + x % 2 ^ lo < 2 ^ (lo + w) := by
  have hv : v % 2 ^ w + 1 ≤ 2 ^ w := Nat.mod_lt _ (by positivity)
  have hx : x % 2 ^ lo < 2 ^ lo := Nat.mod_lt _ (by positivity)
  calc v % 2 ^ w * 2 ^ lo + x % 2 ^ lo < (v % 2 ^ w + 1) * 2 ^ lo := by rw [add_mul]; omega
    _ ≤ 2 ^ w * 2 ^ lo := Nat.mul_le_mul_right _ hv
    _ = 2 ^ (lo + w) := by rw [pow_add, mul_comm]

theorem setBits_div (x lo w v : Nat) : setBits x lo w v / 2 ^ (lo + w) = x / 2 ^ (lo + w) := by
  rw [setBits_eq, add_assoc, mul_comm, Nat.mul_add_div (by positivity), Nat.div_eq_of_lt (field_lt x lo w v), add_zero]

theorem setBits_mod (x lo w v : Nat) : setBits x lo w v % 2 ^ lo = x % 2 ^ lo := by
  rw [setBits_eq, pow_add, show x / (2 ^ lo * 2 ^ w) * (2 ^ lo * 2 ^ w) + v % 2 ^ w * 2 ^ lo + x % 2 ^ lo =
    x % 2 ^ lo + 2 ^ lo * (x / (2 ^ lo * 2 ^ w) * 2 ^ w + v % 2 ^ w) by ring, Nat.add_mul_mod_self_left, Nat.mod_mod]

theorem setBits_lt {x lo w n : Nat} (v : Nat) (hx : x < 2 ^ n) (h : lo + w ≤ n) : setBits x lo w v < 2 ^ n := by
  obtain ⟨k, rfl⟩ := Nat.exists_eq_add_of_le h
  rw [pow_add, mul_comm, ← Nat.div_lt_iff_lt_mul (by positivity)] at hx ⊢
  rwa [setBits_div]

/-- A field reads back the value set, as far as it is wide. -/
theorem bits_setBits_self (x lo w v : Nat) : bits (setBits x lo w v) lo w = v % 2 ^ w := by
  rw [bits, setBits_eq, pow_add, show x / (2 ^ lo * 2 ^ w) * (2 ^ lo * 2 ^ w) + v % 2 ^ w * 2 ^ lo + x % 2 ^ lo =
    2 ^ lo * (v % 2 ^ w + 2 ^ w * (x / (2 ^ lo * 2 ^ w))) + x % 2 ^ lo by ring, Nat.mul_add_div (by positivity),
    Nat.div_eq_of_lt (Nat.mod_lt _ (by positivity)), add_zero, Nat.add_mul_mod_self_left, Nat.mod_mod]

theorem bits_eq_mod_div (x lo w : Nat) : bits x lo w = x % 2 ^ (lo + w) / 2 ^ lo := by
  rw [bits, pow_add, Nat.mod_mul_right_div_self]

/-- A field that does not meet the one that is set keeps its value. -/
theorem bits_setBits_disjoint {x lo w v lo' w' : Nat} (h : lo' + w' ≤ lo ∨ lo + w ≤ lo') :
    bits (setBits x lo w v) lo' w' = bits x lo' w' := by
  obtain h | h := h
  · have hd : (2 : Nat) ^ (lo' + w') ∣ 2 ^ lo := pow_dvd_pow 2 h
    rw [bits_eq_mod_div, bits_eq_mod_div, ← Nat.mod_mod_of_dvd _ hd, setBits_mod, Nat.mod_mod_of_dvd _ hd]
  · obtain ⟨k, rfl⟩ := Nat.exists_eq_add_of_le h
    rw [bits, bits, pow_add 2 (lo + w) k, ← Nat.div_div_eq_div_mul, setBits_div, Nat.div_div_eq_div_mul]

/-! ### The register file -/

/-- A register reads back the 64-bit value written to it. -/
theorem State.rd_wr_self {s : State} (hs : rising 0 s.regs) (r : Reg) {v : Nat} (hv : v < 2 ^ 64) (i j port : Nat) :
    (s.wr r v i j port).rd r i j port = v := by
  simp only [State.rd, State.wr, tget_tset_self _ _ hs, BitVec.toNat_ofNat, Nat.mod_eq_of_lt hv]

/-- A write leaves every other register, and every other copy of a banked one, as it was. -/
theorem State.rd_wr_ne (s : State) {r r' : Reg} {v i j port i' j' port' : Nat}
    (h : r'.key i' j' port' ≠ r.key i j port) : (s.wr r v i j port).rd r' i' j' port' = s.rd r' i' j' port' := by
  simp only [State.rd, State.wr, tget_tset_ne _ _ h]

theorem State.rd_lt (s : State) (r : Reg) (i j port : Nat) : s.rd r i j port < 2 ^ 64 := BitVec.isLt _

/-- What a register reads after one of its fields is set. -/
theorem State.rd_setFld_self {s : State} (hs : rising 0 s.regs) {f : Fld} (hf : f.lo + f.width ≤ 64) (v i port : Nat) :
    (s.setFld f v i port).rd f.reg i 0 port = setBits (s.rd f.reg i 0 port) f.lo f.width v :=
  State.rd_wr_self hs _ (setBits_lt v (s.rd_lt ..) hf) ..

/-- Settles O5: the register takes the number with the field replaced, and every other entry of the file stays. -/
theorem registerFile : Obligations.RegisterFile := by
  intro s f v i port ⟨hs, _⟩ hf
  refine ⟨?_, fun g hg hd _ => ?_, fun r i' j port' hk => s.rd_wr_ne hk⟩
  · rw [State.fld, State.rd_setFld_self hs hf, bits_setBits_self]
  · rw [State.fld, State.fld, hg, State.rd_setFld_self hs hf, bits_setBits_disjoint hd]

/-! ### Steps -/

/-- Settles O1. -/
theorem stepRunsFront : Obligations.StepRunsFront := by
  refine ⟨fun c s t rest hp ht => ?_, fun s hp => ?_⟩
  · rw [step, hp, ht]
  · rw [step, hp]

/-- Settles O2: no register is written at reset, so each reads its reset value. -/
theorem resetValues : Obligations.ResetValues :=
  ⟨fun _ _ _ _ => rfl, rfl, rfl, rfl, rfl, rfl, rfl, rfl, rfl, rfl, rfl, rfl, rfl, rfl, rfl, rfl, rfl⟩

/-- Settles O3. -/
theorem boundedAtReset : Obligations.BoundedAtReset := reset_bounded

end Sys2Proof.Machine
end

section
/-! What every step keeps, and that every command runs: one case for each row of the table of operations and events. -/

namespace Sys2Proof.Machine

/-! ### The bounds -/

/-- Every command keeps the register file in order and the recorders inside their storage: the lemma of its meaning
(Laws/Bounded*). -/
theorem exec_bounded {i : Instr} {s : State} (h : Bounded s) : BoundedRes (exec i s) := by
  cases i with
  | memoryRequest => exact execMemoryRequest_bounded h
  | spanPartTimeout => exact execSpanPartTimeout_bounded h
  | laneGrant => exact execLaneGrant_bounded h
  | throttleWindow => exact execThrottleWindow_bounded h
  | dmcReadData => exact execDmcReadData_bounded h
  | metadataLineArrival => exact execMetadataLineArrival_bounded h
  | tagVerdict => exact execTagVerdict_bounded h
  | readRelease => exact execReadRelease_bounded h
  | rereadVerdict => exact execRereadVerdict_bounded h
  | stileRelease => exact execStileRelease_bounded h
  | dmcAccessAccept => exact execDmcAccessAccept_bounded h
  | creditRequest => exact execCreditRequest_bounded h
  | creditDecision => exact execCreditDecision_bounded h
  | nosuccRetry => exact execNosuccRetry_bounded h
  | autoStartRetry => exact execAutoStartRetry_bounded h
  | pageUnlock => exact execPageUnlock_bounded h
  | counterEvict => exact execCounterEvict_bounded h
  | nodeRetag => exact execNodeRetag_bounded h
  | fabricRequest => exact execFabricRequest_bounded h
  | frameClose => exact execFrameClose_bounded h
  | frameReceive => exact execFrameReceive_bounded h
  | flagStoreEffect => exact execFlagStoreEffect_bounded h
  | breakReceive => exact execBreakReceive_bounded h
  | creditMessage => exact execCreditMessage_bounded h
  | responseTimeout => exact execResponseTimeout_bounded h
  | flowIdleRelease => exact execFlowIdleRelease_bounded h
  | flowRekey => exact execFlowRekey_bounded h
  | copyLocalRead => exact execCopyLocalRead_bounded h
  | linkDown => exact execLinkDown_bounded h
  | linkUp => exact execLinkUp_bounded h
  | stepCommit => exact execStepCommit_bounded h
  | stileEvent => exact execStileEvent_bounded h
  | stepDone => exact execStepDone_bounded h
  | mirrorTimeout => exact execMirrorTimeout_bounded h
  | accHalt => exact execAccHalt_bounded h
  | accResume => exact execAccResume_bounded h
  | haltAck => exact execHaltAck_bounded h
  | drainAck => exact execDrainAck_bounded h
  | drainAckFall => exact execDrainAckFall_bounded h
  | drainOverrun => exact execDrainOverrun_bounded h
  | scrubRequest => exact execScrubRequest_bounded h
  | scrubDone => exact execScrubDone_bounded h
  | scrubOverrun => exact execScrubOverrun_bounded h
  | rdomFence => exact execRdomFence_bounded h
  | rdomFenced => exact execRdomFenced_bounded h
  | rdomUnfence => exact execRdomUnfence_bounded h
  | fenceOverrun => exact execFenceOverrun_bounded h
  | chunkDescriptor => exact execChunkDescriptor_bounded h
  | scanRead => exact execScanRead_bounded h
  | straddleFetch => exact execStraddleFetch_bounded h
  | straddleFetchDone => exact execStraddleFetchDone_bounded h
  | straddleFetchTimeout => exact execStraddleFetchTimeout_bounded h
  | chunkDispatch => exact execChunkDispatch_bounded h
  | chunkHashed => exact execChunkHashed_bounded h
  | stvOpen => exact execStvOpen_bounded h
  | stvClose => exact execStvClose_bounded h
  | contextFinish => exact execContextFinish_bounded h
  | stvRead => exact execStvRead_bounded h
  | stvFree => exact execStvFree_bounded h
  | partialRecord => exact execPartialRecord_bounded h
  | finalRecord => exact execFinalRecord_bounded h
  | gatherTimeout => exact execGatherTimeout_bounded h
  | stvBistStart => exact execStvBistStart_bounded h
  | stvBistSwap => exact execStvBistSwap_bounded h
  | stvBistReturn => exact execStvBistReturn_bounded h
  | watchArm => exact execWatchArm_bounded h
  | watchRead => exact execWatchRead_bounded h
  | watchDisarm => exact execWatchDisarm_bounded h
  | tokOpen => exact execTokOpen_bounded h
  | tokClose => exact execTokClose_bounded h
  | tokRead => exact execTokRead_bounded h
  | tokFree => exact execTokFree_bounded h
  | tokenRecordChained => exact execTokenRecordChained_bounded h
  | sheaf => exact execSheaf_bounded h
  | sheafAppend => exact execSheafAppend_bounded h
  | stookClose => exact execStookClose_bounded h
  | flush => exact execFlush_bounded h
  | maxwaitExpiry => exact execMaxwaitExpiry_bounded h
  | stookSigned => exact execStookSigned_bounded h
  | rgnRead => exact execRgnRead_bounded h
  | rgnCreate => exact execRgnCreate_bounded h
  | rgnDestroy => exact execRgnDestroy_bounded h
  | regionFree => exact execRegionFree_bounded h
  | rgnSeal => exact execRgnSeal_bounded h
  | sealComplete => exact execSealComplete_bounded h
  | sealGatherTimeout => exact execSealGatherTimeout_bounded h
  | rgnReset => exact execRgnReset_bounded h
  | rgnAdvance => exact execRgnAdvance_bounded h
  | advanceComplete => exact execAdvanceComplete_bounded h
  | rgnRef => exact execRgnRef_bounded h
  | rgnUnref => exact execRgnUnref_bounded h
  | hrwStart => exact execHrwStart_bounded h
  | hrwSuspend => exact execHrwSuspend_bounded h
  | hrwResume => exact execHrwResume_bounded h
  | hrwRetire => exact execHrwRetire_bounded h
  | jobRun => exact execJobRun_bounded h
  | harrowPageClose => exact execHarrowPageClose_bounded h
  | harrowPageOpen => exact execHarrowPageOpen_bounded h
  | harrowMoveAbandon => exact execHarrowMoveAbandon_bounded h
  | turnover => exact execTurnover_bounded h
  | headlandMark => exact execHeadlandMark_bounded h
  | keyRead => exact execKeyRead_bounded h
  | keyAlloc => exact execKeyAlloc_bounded h
  | keyRef => exact execKeyRef_bounded h
  | keyUnref => exact execKeyUnref_bounded h
  | keySucc => exact execKeySucc_bounded h
  | setLimit => exact execSetLimit_bounded h
  | slotTeardown => exact execSlotTeardown_bounded h
  | ledgerRewrap => exact execLedgerRewrap_bounded h
  | keyRowCheckFail => exact execKeyRowCheckFail_bounded h
  | esHealthFail => exact execEsHealthFail_bounded h
  | drbgReseed => exact execDrbgReseed_bounded h
  | laneBistStart => exact execLaneBistStart_bounded h
  | laneSwap => exact execLaneSwap_bounded h
  | laneReturn => exact execLaneReturn_bounded h
  | switchover => exact execSwitchover_bounded h
  | portBistStart => exact execPortBistStart_bounded h
  | portSwap => exact execPortSwap_bounded h
  | portReturn => exact execPortReturn_bounded h
  | fabGrant => exact execFabGrant_bounded h
  | fabRevoke => exact execFabRevoke_bounded h
  | grantUnreachable => exact execGrantUnreachable_bounded h
  | actrRead => exact execActrRead_bounded h
  | actrConfig => exact execActrConfig_bounded h
  | actrRelease => exact execActrRelease_bounded h
  | domJoin => exact execDomJoin_bounded h
  | domLeave => exact execDomLeave_bounded h
  | domAdvance => exact execDomAdvance_bounded h
  | ballotPost => exact execBallotPost_bounded h
  | hello => exact execHello_bounded h
  | challenge => exact execChallenge_bounded h
  | evidence => exact execEvidence_bounded h
  | admitCmd src exch status epoch => exact execAdmit_bounded (_epoch := epoch) h
  | admissionTimeout => exact execAdmissionTimeout_bounded h
  | prepare => exact execPrepare_bounded h
  | prepared => exact execPrepared_bounded h
  | prepareTimeout => exact execPrepareTimeout_bounded h
  | commit => exact execCommit_bounded h
  | commitRepeat => exact execCommitRepeat_bounded h
  | committed => exact execCommitted_bounded h
  | abort => exact execAbort_bounded h
  | epochGraceEnd => exact execEpochGraceEnd_bounded h
  | heartbeatSend => exact execHeartbeatSend_bounded h
  | heartbeat => exact execHeartbeat_bounded h
  | lease src echoed seatTime leaseEnd seatEpoch ballotHash =>
    exact execLease_bounded (_seatEpoch := seatEpoch) (_ballotHash := ballotHash) h
  | memberSilent => exact execMemberSilent_bounded h
  | leaseExpiry => exact execLeaseExpiry_bounded h
  | ballotLapse => exact execBallotLapse_bounded h
  | fallowRetry => exact execFallowRetry_bounded h
  | leaveTimeout => exact execLeaveTimeout_bounded h
  | ballot src rec => exact execBallot_bounded (a0 := src) h
  | down src gen => exact execDown_bounded (_gen := gen) h
  | records => exact execRecords_bounded h
  | leave => exact execLeave_bounded h
  | domainTick => exact execDomainTick_bounded h
  | pairBootstrap => exact execPairBootstrap_bounded h
  | pairHeartbeat => exact execPairHeartbeat_bounded h
  | mirror => exact execMirror_bounded h
  | mirrorAck => exact execMirrorAck_bounded h
  | restoreReq => exact execRestoreReq_bounded h
  | restore => exact execRestore_bounded h
  | partnerLost => exact execPartnerLost_bounded h
  | claimSend => exact execClaimSend_bounded h
  | claimReceive => exact execClaimReceive_bounded h
  | handoverReceive => exact execHandoverReceive_bounded h
  | cellRead => exact execCellRead_bounded h
  | cellHandover => exact execCellHandover_bounded h
  | peerRegisterRequest => exact execPeerRegisterRequest_bounded h
  | sqDoorbell => exact execSqDoorbell_bounded h
  | descriptorFetch => exact execDescriptorFetch_bounded h
  | completionWrite => exact execCompletionWrite_bounded h
  | queueTimeout => exact execQueueTimeout_bounded h
  | queueDisable => exact execQueueDisable_bounded h
  | queueEnable => exact execQueueEnable_bounded h
  | nop => exact execNop_bounded h
  | aesEnc => exact execAesEnc_bounded h
  | aesDec => exact execAesDec_bounded h
  | xtsEnc => exact execXtsEnc_bounded h
  | xtsDec => exact execXtsDec_bounded h
  | scuBurst => exact execScuBurst_bounded h
  | gangStripeDone => exact execGangStripeDone_bounded h
  | keyWrap => exact execKeyWrap_bounded h
  | keyImport => exact execKeyImport_bounded h
  | keyOrigin => exact execKeyOrigin_bounded h
  | pkHash => exact execPkHash_bounded h
  | pkMldsaVerify => exact execPkMldsaVerify_bounded h
  | pkEcdsaVerify => exact execPkEcdsaVerify_bounded h
  | drillStore => exact execDrillStore_bounded h
  | drillRun => exact execDrillRun_bounded h
  | drillDrop => exact execDrillDrop_bounded h
  | hostMboxGo => exact execHostMboxGo_bounded h
  | mctpMessage => exact execMctpMessage_bounded h
  | atsCompletion => exact execAtsCompletion_bounded h
  | atsInvalidate => exact execAtsInvalidate_bounded h
  | hostDmaReadDone => exact execHostDmaReadDone_bounded h
  | bounceDoorbell => exact execBounceDoorbell_bounded h
  | bounceTransfer => exact execBounceTransfer_bounded h
  | transferComplete => exact execTransferComplete_bounded h
  | keywarn => exact execKeywarn_bounded h
  | resetDrain => exact execResetDrain_bounded h
  | resetSquash => exact execResetSquash_bounded h
  | flip => exact execFlip_bounded h
  | dirtyLogOr => exact execDirtyLogOr_bounded h
  | ownClaimPost => exact execOwnClaimPost_bounded h
  | cohortDecision => exact execCohortDecision_bounded h
  | handoverGo => exact execHandoverGo_bounded h
  | handoverCancel => exact execHandoverCancel_bounded h
  | handoverLapse => exact execHandoverLapse_bounded h
  | cfgLoad => exact execCfgLoad_bounded h
  | cfgDiscard => exact execCfgDiscard_bounded h
  | cfgSwap => exact execCfgSwap_bounded h
  | swapEffect => exact execSwapEffect_bounded h
  | cfgPersist => exact execCfgPersist_bounded h
  | lcPost port programs =>
    have hb : BoundedRes (execLcPost port programs s) := execLcPost_bounded h
    exact hb
  | endOfLifeWipe => exact execEndOfLifeWipe_bounded h
  | otpRead => exact execOtpRead_bounded h
  | otpProgram => exact execOtpProgram_bounded h
  | fwuStage => exact execFwuStage_bounded h
  | fwuStart => exact execFwuStart_bounded h
  | fwuReady => exact execFwuReady_bounded h
  | fwuBootTimeout => exact execFwuBootTimeout_bounded h
  | fwuHandover => exact execFwuHandover_bounded h
  | fwuCancel => exact execFwuCancel_bounded h
  | fwuAbandon => exact execFwuAbandon_bounded h
  | fwuStuck => exact execFwuStuck_bounded h
  | cert => exact execCert_bounded h
  | powerOnReset => exact execPowerOnReset_bounded h
  | bringupPhaseDone => exact execBringupPhaseDone_bounded h
  | warmReset => exact execWarmReset_bounded h
  | settleTimeout => exact execSettleTimeout_bounded h
  | restoreWaitTimeout => exact execRestoreWaitTimeout_bounded h
  | pllLockLoss => exact execPllLockLoss_bounded h
  | fltAbort => exact execFltAbort_bounded h
  | fltReset => exact execFltReset_bounded h
  | hedge => exact execHedge_bounded h
  | unhedge => exact execUnhedge_bounded h
  | winnow => exact execWinnow_bounded h
  | warmReq => exact execWarmReq_bounded h
  | pwrReq => exact execPwrReq_bounded h
  | pwrStop => exact execPwrStop_bounded h
  | powerCycleSend => exact execPowerCycleSend_bounded h
  | gleanerRecord => exact execGleanerRecord_bounded h
  | freeze => exact execFreeze_bounded h
  | unfreeze => exact execUnfreeze_bounded h
  | peerCopy => exact execPeerCopy_bounded h
  | unitBistStart => exact execUnitBistStart_bounded h
  | unitSwap => exact execUnitSwap_bounded h
  | unitReturn => exact execUnitReturn_bounded h
  | inject => exact execInject_bounded h
  | injectExpiry => exact execInjectExpiry_bounded h
  | marginSample => exact execMarginSample_bounded h
  | reeveHeartbeat => exact execReeveHeartbeat_bounded h
  | traceRecord => exact execTraceRecord_bounded h
  | traceRead => exact execTraceRead_bounded h
  | obsChallenge => exact execObsChallenge_bounded h
  | obsResponse => exact execObsResponse_bounded h
  | counterHalfRead => exact execCounterHalfRead_bounded h
  | rcRegisterRead => exact execRcRegisterRead_bounded h
  | registerWrite => exact execRegisterWrite_bounded h
  | hostRegisterAccess => exact execHostRegisterAccess_bounded h
  | powerOnResetAssert => exact execPowerOnResetAssert_bounded h
  | pllLockReturn => exact execPllLockReturn_bounded h
  | epoch0EntryExpiry => exact execEpoch0EntryExpiry_bounded h
  | startUpTestPass => exact execStartUpTestPass_bounded h
  | unitOutOfService => exact execUnitOutOfService_bounded h

/-- Settles O4: the queue is not among what is bounded, so a step keeps the bounds as the command at its front does. -/
theorem boundedKept : Obligations.BoundedKept := by
  intro s t h hst
  unfold step at hst
  split at hst
  · exact Bounded.ofNext (.mkNext h) hst
  · exact Bounded.ofNext (exec_bounded (Bounded.mk_ h)) hst

/-! ### Progress -/

/-- A result that is a next state. -/
def Runs (r : Res) : Prop := ∃ t, r = .next t

theorem Runs.next (t : State) : Runs (.next t) := ⟨t, rfl⟩

theorem Runs.ite {c : Prop} [Decidable c] {a b : Res} (ha : Runs a) (hb : Runs b) : Runs (if c then a else b) := by
  split <;> assumption

/-- A command that is no request runs: each branch of its meaning ends in a next state. -/
theorem exec_runs {i : Instr} {s : State} (hm : ∀ g r, i ≠ .memoryRequest g r) (hf : ∀ g r, i ≠ .fabricRequest g r) :
    Runs (exec i s) := by
  cases i with
  | memoryRequest g r => exact absurd rfl (hm g r)
  | fabricRequest g r => exact absurd rfl (hf g r)
  | _ =>
    dsimp -zeta only [exec,
      execSpanPartTimeout, execLaneGrant, execThrottleWindow, execDmcReadData, execMetadataLineArrival,
      execTagVerdict, execReadRelease, execRereadVerdict, execStileRelease, execDmcAccessAccept, execCreditRequest,
      execCreditDecision, execNosuccRetry, execAutoStartRetry, execPageUnlock, execCounterEvict, execNodeRetag,
      execFrameClose, execFrameReceive, execFlagStoreEffect, execBreakReceive, execCreditMessage, execResponseTimeout,
      execFlowIdleRelease, execFlowRekey, execCopyLocalRead, execLinkDown, execLinkUp, execStepCommit, execStileEvent,
      execStepDone, execMirrorTimeout, execAccHalt, execAccResume, execHaltAck, execDrainAck, execDrainAckFall,
      execDrainOverrun, execScrubRequest, execScrubDone, execScrubOverrun, execRdomFence, execRdomFenced,
      execRdomUnfence, execFenceOverrun, execChunkDescriptor, execScanRead, execStraddleFetch, execStraddleFetchDone,
      execStraddleFetchTimeout, execChunkDispatch, execChunkHashed, execStvOpen, execStvClose, execContextFinish,
      execStvRead, execStvFree, execPartialRecord, execFinalRecord, execGatherTimeout, execStvBistStart,
      execStvBistSwap, execStvBistReturn, execWatchArm, execWatchRead, execWatchDisarm, execTokOpen, execTokClose,
      execTokRead, execTokFree, execTokenRecordChained, execSheaf, execSheafAppend, execStookClose, execFlush,
      execMaxwaitExpiry, execStookSigned, execRgnRead, execRgnCreate, execRgnDestroy, execRegionFree, execRgnSeal,
      execSealComplete, execSealGatherTimeout, execRgnReset, execRgnAdvance, execAdvanceComplete, execRgnRef,
      execRgnUnref, execHrwStart, execHrwSuspend, execHrwResume, execHrwRetire, execJobRun, execHarrowPageClose,
      execHarrowPageOpen, execHarrowMoveAbandon, execTurnover, execHeadlandMark, execKeyRead, execKeyAlloc,
      execKeyRef, execKeyUnref, execKeySucc, execSetLimit, execSlotTeardown, execLedgerRewrap, execKeyRowCheckFail,
      execEsHealthFail, execDrbgReseed, execLaneBistStart, execLaneSwap, execLaneReturn, execSwitchover,
      execPortBistStart, execPortSwap, execPortReturn, execFabGrant, execFabRevoke, execGrantUnreachable,
      execActrRead, execActrConfig, execActrRelease, execDomJoin, execDomLeave, execDomAdvance, execBallotPost,
      execHello, execChallenge, execEvidence, execAdmit, execAdmissionTimeout, execPrepare, execPrepared,
      execPrepareTimeout, execCommit, execCommitRepeat, execCommitted, execAbort, execEpochGraceEnd,
      execHeartbeatSend, execHeartbeat, execLease, execMemberSilent, execLeaseExpiry, execBallotLapse,
      execFallowRetry, execLeaveTimeout, execBallot, execDown, execRecords, execLeave, execDomainTick,
      execPairBootstrap, execPairHeartbeat, execMirror, execMirrorAck, execRestoreReq, execRestore, execPartnerLost,
      execClaimSend, execClaimReceive, execHandoverReceive, execCellRead, execCellHandover, execPeerRegisterRequest,
      execSqDoorbell, execDescriptorFetch, execCompletionWrite, execQueueTimeout, execQueueDisable, execQueueEnable,
      execNop, execAesEnc, execAesDec, execXtsEnc, execXtsDec, execScuBurst, execGangStripeDone, execKeyWrap,
      execKeyImport, execKeyOrigin, execPkHash, execPkMldsaVerify, execPkEcdsaVerify, execDrillStore, execDrillRun,
      execDrillDrop, execHostMboxGo, execMctpMessage, execAtsCompletion, execAtsInvalidate, execHostDmaReadDone,
      execBounceDoorbell, execBounceTransfer, execTransferComplete, execKeywarn, execResetDrain, execResetSquash,
      execFlip, execDirtyLogOr, execOwnClaimPost, execCohortDecision, execHandoverGo, execHandoverCancel,
      execHandoverLapse, execCfgLoad, execCfgDiscard, execCfgSwap, execSwapEffect, execCfgPersist, execLcPost,
      execEndOfLifeWipe, execOtpRead, execOtpProgram, execFwuStage, execFwuStart, execFwuReady, execFwuBootTimeout,
      execFwuHandover, execFwuCancel, execFwuAbandon, execFwuStuck, execCert, execPowerOnReset, execBringupPhaseDone,
      execWarmReset, execSettleTimeout, execRestoreWaitTimeout, execPllLockLoss, execFltAbort, execFltReset,
      execHedge, execUnhedge, execWinnow, execWarmReq, execPwrReq, execPwrStop, execPowerCycleSend, execGleanerRecord,
      execFreeze, execUnfreeze, execPeerCopy, execUnitBistStart, execUnitSwap, execUnitReturn, execInject,
      execInjectExpiry, execMarginSample, execReeveHeartbeat, execTraceRecord, execTraceRead, execObsChallenge,
      execObsResponse, execCounterHalfRead, execRcRegisterRead, execRegisterWrite, execHostRegisterAccess,
      execPowerOnResetAssert, execPllLockReturn, execEpoch0EntryExpiry, execStartUpTestPass, execUnitOutOfService]
    with_reducible repeat' first
      | exact Runs.next _ | apply Runs.ite | (extract_lets; clear_value *) | split

/-- A memory request runs, or stops the model because its identifier is in use (R51). -/
theorem execMemoryRequest_runs (g : Nat) (r : MemReq) (s : State) :
    Runs (execMemoryRequest g r s) ∨ execMemoryRequest g r s = .fault .tidReused := by
  unfold execMemoryRequest
  split
  · exact .inl (.next _)
  · split
    · exact .inr rfl
    · refine .inl ?_
      extract_lets t u
      clear_value t u
      split <;> split
      · exact .next _
      · dsimp only
        split <;> exact .next _
      · exact .next _
      · exact .next _

/-- So does a request of a fabric interface. -/
theorem execFabricRequest_runs (i : Nat) (r : FabReq) (s : State) :
    Runs (execFabricRequest i r s) ∨ execFabricRequest i r s = .fault .tidReused := by
  unfold execFabricRequest
  split
  · exact .inl (.next _)
  · split
    · exact .inr rfl
    · refine .inl ?_
      extract_lets u
      clear_value u
      split
      · exact .next _
      · exact .ite (.next _) (.ite (.next _) (.next _))

/-- Settles O6. -/
theorem everyCommandRuns : Obligations.EveryCommandRuns := by
  intro i s
  by_cases hm : ∃ g r, i = .memoryRequest g r
  · obtain ⟨g, r, rfl⟩ := hm
    exact (execMemoryRequest_runs g r s).imp id fun h => ⟨h, .inl ⟨g, r, rfl⟩⟩
  by_cases hf : ∃ g r, i = .fabricRequest g r
  · obtain ⟨g, r, rfl⟩ := hf
    exact (execFabricRequest_runs g r s).imp id fun h => ⟨h, .inr ⟨g, r, rfl⟩⟩
  · push Not at hm hf
    exact .inl (exec_runs hm hf)

end Sys2Proof.Machine
end

section
/-! Register accesses: where each path of them comes to, and the accesses an open register file answers at once. -/

namespace Sys2Proof.Machine

/-! ### Accesses to a closed register file, and to an unaligned offset -/

theorem State.readReg_closed {s : State} (h : s.regsOpen = false) (port : Nat) (a : RegAccess) : s.readReg port a = s := by
  simp [State.readReg, h]

theorem State.writeReg_closed {s : State} (h : s.regsOpen = false) (port : Nat) (a : RegAccess) : s.writeReg port a = s := by
  simp [State.writeReg, h]

theorem State.access_closed {s : State} (h : s.regsOpen = false) (port : Nat) (a : RegAccess) : s.access port a = s := by
  rw [State.access, State.readReg_closed h, State.writeReg_closed h, ite_self]

theorem State.readReg_unaligned {s : State} {port : Nat} {a : RegAccess} (ho : s.regsOpen = true) (ha : a.off % 8 ≠ 0) :
    s.readReg port a = (s.incFld F.gstat_BAD_ACCESS).regRsp port 0 true := by
  simp [State.readReg, ho, ha]

theorem State.writeReg_unaligned {s : State} {port : Nat} {a : RegAccess} (ho : s.regsOpen = true) (ha : a.off % 8 ≠ 0) :
    s.writeReg port a = (s.incFld F.gstat_BAD_ACCESS).regRsp port 0 true := by
  simp [State.writeReg, ho, ha]

/-! ### Accesses to a register -/

section
variable {s : State} {port : Nat} {a : RegAccess} {x : RegAt}

/-- A 64-bit read by a controller that is not the owner clears nothing, and a register that neither counts nor shows the
clock takes no free value. -/
theorem State.readReg_plain (ho : s.regsOpen = true) (ha : a.off % 8 = 0) (hx : regAt? a.off = some x)
    (hw : a.wide = true) (hc : x.reg ≠ .obsCnt) (hk : x.reg ≠ .clkStat) (hp : port ≠ s.ownerPort) :
    s.readReg port a = s.regRsp port (s.view port x) false := by
  simp [State.readReg, ho, ha, hx, hw, hc, hk, hp]

/-- A write by the owner to a register without a field that it may write. -/
theorem State.writeReg_readOnly (ho : s.regsOpen = true) (ha : a.off % 8 = 0) (hx : regAt? a.off = some x)
    (hp : port = s.ownerPort) (hf : ∀ f ∈ x.reg.fields, f.acc.writable = false) : s.writeReg port a = s.winErr port x := by
  have hset : ¬ ∃ f ∈ x.reg.fields, f.acc.writable = true ∧ acts a f = true := by
    rintro ⟨f, hmem, hwr, -⟩
    rw [hf f hmem] at hwr
    contradiction
  rw [State.writeReg_mapped ho ha hx, if_neg (fun h => h.2 hp), if_pos hset]

/-- A write by the owner that passes every check. -/
theorem State.writeReg_accepted (ho : s.regsOpen = true) (ha : a.off % 8 = 0) (hx : regAt? a.off = some x)
    (hp : port = s.ownerPort) (hset : ∃ f ∈ x.reg.fields, f.acc.writable = true ∧ acts a f = true)
    (hr : s.reserved x (s.writeWord port x a) = false) (hb : s.barred port x (s.writeWord port x a) = false) :
    s.writeReg port a = s.acceptWrite port x (s.writeWord port x a) := by
  rw [State.writeReg_mapped ho ha hx, if_neg (fun h => h.2 hp), if_neg (not_not_intro hset), hr, hb]
  rfl

end

/-! ### The paths of an access -/

theorem exec_rcRegisterRead_closed {s : State} (h : s.regsOpen = false) (port : Nat) (a : RegAccess) :
    exec (.rcRegisterRead port a) s = .next s := by
  change execRcRegisterRead port a s = _
  simp [execRcRegisterRead, State.readReg_closed h]

theorem exec_registerWrite_closed {s : State} (h : s.regsOpen = false) (port : Nat) (a : RegAccess) :
    exec (.registerWrite port a) s = .next s := by
  change execRegisterWrite port a s = _
  simp [execRegisterWrite, State.writeReg_closed h]

theorem exec_hostRegisterAccess (s : State) (att : Nat) (a : RegAccess) :
    exec (.hostRegisterAccess att a) s = .next (if 2 ≤ att then s else s.access (att + 1) a) := by
  change execHostRegisterAccess att a s = _
  unfold execHostRegisterAccess
  split <;> rfl

theorem exec_mctpMessage_reg (s : State) (a : RegAccess) : exec (.mctpMessage (.reg a)) s = .next (s.access 3 a) := rfl

/-- A request of a peer reaches the registers or changes nothing. -/
theorem exec_peerRegisterRequest_cases (s : State) (port : Nat) (src : BitVec 16) (e0 : Bool) (a : RegAccess) :
    exec (.peerRegisterRequest port src e0 a) s = .next s ∨ ∃ p, exec (.peerRegisterRequest port src e0 a) s = .next (s.access p a) := by
  change execPeerRegisterRequest port src e0 a s = _ ∨ ∃ p, execPeerRegisterRequest port src e0 a s = _
  unfold execPeerRegisterRequest
  extract_lets partner seat
  clear_value partner seat
  split_ifs
  · exact .inl rfl
  · exact .inr ⟨4, rfl⟩
  · exact .inr ⟨5, rfl⟩
  · exact .inl rfl

theorem exec_peerRegisterRequest_closed {s : State} (h : s.regsOpen = false) (port : Nat) (src : BitVec 16) (e0 : Bool)
    (a : RegAccess) : exec (.peerRegisterRequest port src e0 a) s = .next s := by
  obtain he | ⟨p, he⟩ := exec_peerRegisterRequest_cases s port src e0 a
  · exact he
  · rw [he, State.access_closed h]

/-- A request under epoch 0 is dropped (R69). -/
theorem exec_peerRegisterRequest_epoch0 (s : State) (port : Nat) (src : BitVec 16) (a : RegAccess) :
    exec (.peerRegisterRequest port src true a) s = .next s := by
  change execPeerRegisterRequest port src true a s = _
  simp [execPeerRegisterRequest]

/-- Settles O10. -/
theorem registerAccesses : Obligations.RegisterAccesses := by
  refine ⟨fun s port att src e0 a hc => ?_, fun s port a ho hp ha => ⟨fun hw => ?_, fun hw => ?_⟩,
    fun s port a x ho hp hw hwide ha hx hc hk hne => ?_, fun s port a x w ho hp hown hw ha hx hword => ⟨fun hf => ?_, ?_⟩,
    fun s a att hatt => ?_, fun s a => exec_mctpMessage_reg s a,
    fun s src a port => exec_peerRegisterRequest_epoch0 s port src a, fun s src a e he => ⟨fun p hp hsrc => ?_, ?_⟩⟩
  · exact ⟨exec_rcRegisterRead_closed hc .., exec_registerWrite_closed hc .., by
      rw [exec_hostRegisterAccess, State.access_closed hc, ite_self], exec_peerRegisterRequest_closed hc .., by
      rw [exec_mctpMessage_reg, State.access_closed hc]⟩
  · rw [exec_rcRegisterRead hp hw, State.readReg_unaligned ho ha]
  · rw [exec_registerWrite hp hw, State.writeReg_unaligned ho ha]
  · rw [exec_rcRegisterRead hp hw, State.readReg_plain ho ha hx hwide hc hk hne]
  · rw [exec_registerWrite hp hw, State.writeReg_readOnly ho ha hx hown hf]
    rfl
  · intro hset hr hb
    subst hword
    rw [exec_registerWrite hp hw, State.writeReg_accepted ho ha hx hown hset hr hb]
  · rw [exec_hostRegisterAccess, if_neg (by omega)]
  · change execPeerRegisterRequest 4 src false a s = _
    simp [execPeerRegisterRequest, he, hp, hsrc]
  · intro b hb hunit hne
    change execPeerRegisterRequest 5 src false a s = _
    simp [execPeerRegisterRequest, he, hb, hunit, hne]

end Sys2Proof.Machine
end

section
/-! Claims, cohorts and handovers of ownership. -/

namespace Sys2Proof.Machine

/-- A single claim is its own winner. -/
theorem cohortWinner_singleton (c : Claim) : cohortWinner [c] = some c := rfl

/-- The signature of a claim is examined only when every check before it passes, and the last check is the signature's. -/
theorem claimVerified_of_code {code : Nat} (h : code ≠ 7) (b : Bytes) (auth : Option Digest) :
    claimVerified (some code) b auth = false := by
  unfold claimVerified
  split
  · next he => cases he
  · next he => exact absurd (Option.some.inj he) h
  · rfl

section
variable {s : State} {c : Claim} (hc : s.own.claims = [c]) (hr : s.life.ready = true)
include hc hr

/-- A cohort of one claim that passes every check makes its port the owner. -/
theorem exec_cohortDecision_won (hd : s.drbgOk = true) (hk : s.claimCheck c = none) :
    exec .cohortDecision s = .next (((({ s.pkuOwn 2 with own := { s.own with claims := [] } }).moveOwner c.port
      (le c.bytes 32 8) (bit (le c.bytes 10 1) 0)).newNonce).claimEnd c.port 1) := by
  change execCohortDecision s = _
  simp [execCohortDecision, hc, hr, hd, hk, claimVerified, cohortWinner_singleton]

/-- A cohort of one claim that fails a check before the signature answers the code of that check. -/
theorem exec_cohortDecision_failed {code : Nat} (hk : s.claimCheck c = some code) (h7 : code ≠ 7) :
    exec .cohortDecision s = .next (({ s.pkuOwn 0 with own := { s.own with claims := [] } }.incFld
      F.ownErr_INVALID).claimEnd c.port code) := by
  change execCohortDecision s = _
  simp [execCohortDecision, hc, hr, hk, claimVerified_of_code h7, cohortWinner]

end

/-- Settles O11. -/
theorem ownership : Obligations.Ownership := by
  refine ⟨⟨fun s port ho hp hb u hu => ?_, fun s c hc hr hd hk => exec_cohortDecision_won hc hr hd hk,
    fun s c code hc hr hk h7 => exec_cohortDecision_failed hc hr hk h7⟩,
    fun s port n ho h0 h6 hne => ?_, fun s port ho hne => ?_, fun s port ho hh => ?_, fun s hh hl => ?_⟩
  · change execOwnClaimPost port s = _
    simp [execOwnClaimPost, ho, hp.not_ge, hb, hu]
  · change execHandoverGo port n s = _
    simp only [execHandoverGo, hne, Nat.not_le.2 h6, h0.ne', or_false, decide_false, State.ownerCmd_owner ho, if_false]
    rfl
  · change execHandoverGo port 0 s = _
    simp [execHandoverGo, hne.symm, State.ownerCmd_owner ho]
  · change execHandoverCancel port s = _
    simp only [execHandoverCancel, State.ownerCmd_owner ho, hh, if_true]
  · change execHandoverLapse s = _
    simp only [execHandoverLapse, hh, hl, and_self, if_true]

end Sys2Proof.Machine
end

section
/-! The trace ring, the counters and the reopening of observation classes. -/

namespace Sys2Proof.Machine

/-- Settles O12. -/
theorem traceAndCounters : Obligations.TraceAndCounters := by
  refine ⟨⟨fun s r rest hst hl x hx => ?_, fun s port first n ho hp h0 hn x y hx hy => ?_,
    fun s port first n ho hp hn => ?_⟩, fun s port n ho hp hc => ?_, fun s port n v ho hp hc hl => ?_,
    fun s port n hi ho hp hc => ?_⟩
  · change execTraceRecord s = _
    simp [execTraceRecord, hst, hl, hx]
  · have hn' : ¬ (n.toNat = 0 ∨ 255 < n.toNat) := by omega
    change execTraceRead port first n s = _
    subst hx hy
    simp [execTraceRead, ho, hp.not_ge, hn', -not_or]
  · change execTraceRead port first n s = _
    simp only [execTraceRead, ho, hp.not_ge, hn, Bool.not_true, Bool.false_eq_true, or_self, if_false, if_true]
  · change execCounterHalfRead port n false s = _
    simp [execCounterHalfRead, ho, hp.not_ge, hc]
  · change execCounterHalfRead port n true s = _
    simp [execCounterHalfRead, ho, hp.not_ge, hc, hl]
  · change execCounterHalfRead port n hi s = _
    simp [execCounterHalfRead, ho, hp.not_ge, hc, State.regBad]

/-- A grant record ends the nonce of its port; one that passes every check adds its classes. -/
theorem exec_obsResponse_granted {s : State} {port : Nat} {b : Bytes} (ho : s.regsOpen = true) (hp : port < 6)
    (hg : s.grantCheck port b = none) {u v : State}
    (hu : u = { s with obs := { s.obs with nonce := tset none s.obs.nonce port none } }) (hv : v = u.pkuOwn 2) :
    exec (.obsResponse port b) s = .next (({ v with obs := { u.obs with
      reopened := tset 0 s.obs.reopened port (tget 0 s.obs.reopened port ||| le b 10 2) } }).obsEnd port 1 []) := by
  change execObsResponse port b s = _
  simp [execObsResponse, ho, hp.not_ge, hg, hu, hv]

/-- Settles O13. -/
theorem reopening : Obligations.Reopening := by
  refine ⟨fun s port cl ho hp hcl ha hlc hd u x hu hx => ?_,
    fun s port b ho hp hg u hu v hv => exec_obsResponse_granted ho hp hg hu hv, fun s port b c ho hp hg h7 u hu => ?_⟩
  · change execObsChallenge port cl s = _
    subst hu hx
    simp [execObsChallenge, ho, hp.not_ge, hcl.not_ge, ha, hlc, hd]
  · change execObsResponse port b s = _
    simp [execObsResponse, ho, hp.not_ge, hg, h7, hu]

end Sys2Proof.Machine
end

section
/-! OTP words, life-cycle requests and the wipe of END_OF_LIFE. -/

namespace Sys2Proof.Machine

/-! ### Programming a word -/

section
variable {s : State} {w v : Nat} {ok spare : Bool}

/-- A word that is not the owner's to program answers its code. -/
theorem State.program_refused {code : Nat} (h : otpRefusal s.life.lc w = some code) :
    s.program w v ok spare = (code, s) := by
  simp [State.program, h]

/-- A value that would clear a bit is refused NOT_SUBSET. -/
theorem State.program_notSubset (h : otpRefusal s.life.lc w = none) (hr : s.otp.repairs.contains w = false)
    (hv : v ||| s.otpWord w ≠ v) : s.program w v ok spare = (1, s) := by
  have hne : v ≠ s.otpWord w := fun he => hv (by rw [← he, Nat.or_self])
  simp only [State.program, h, hr, hne, hv, Bool.false_eq_true, if_false, ne_eq, not_false_eq_true, if_true]

/-- A value that sets bits is programmed when its row verifies. -/
theorem State.program_sets (h : otpRefusal s.life.lc w = none) (hr : s.otp.repairs.contains w = false)
    (hne : v ≠ s.otpWord w) (hv : v ||| s.otpWord w = v) : s.program w v true spare = (0, s.otpPut w v) := by
  simp only [State.program, h, hr, hne, hv, State.programRow, Bool.false_eq_true, if_false, ne_eq, not_true_eq_false,
    if_true]

end

/-- A program by the owner shows its word, and its RESULT is what the programming answers. -/
theorem exec_otpProgram_owner {s t : State} {port : Nat} {w : BitVec 10} {ok spare : Bool} {code : Nat} (ho : s.owner port)
    (hw : w.toNat < 992)
    (hp : (s.setFld F.otpCtl_WORD w.toNat).program w.toNat (s.fld F.otpData_VALUE) ok spare = (code, t)) :
    exec (.otpProgram (.reg port) w ok spare) s = .next ((t.otpEnd code).regRsp port 0 false) := by
  change execOtpProgram (.reg port) w ok spare s = _
  simp only [execOtpProgram, hw.not_ge, decide_false, State.ownerCmd_owner ho, hp]

theorem State.otpEnd_refused (s : State) {code : Nat} (h : code ≠ 0) :
    s.otpEnd code = (s.setFld F.otpCtl_RESULT code).incFld F.otpErr_REFUSED := by
  simp only [State.otpEnd, h, if_false]

/-! ### The wipe -/

/-- What no step of a fold changes, the fold does not change. -/
theorem foldl_frame {α β : Type} (π : State → β) {f : State → α → State} (h : ∀ s a, π (f s a) = π s) (l : List α)
    (s : State) : π (l.foldl f s) = π s := by
  induction l generalizing s with
  | nil => rfl
  | cons a l ih => rw [List.foldl_cons, ih, h]

/-- What programming a word does not change, programming the words of a list to one value does not change. -/
theorem foldl_otpPut_frame {β : Type} (π : State → β) (h : ∀ s w v, π (State.otpPut s w v) = π s) (l : List Nat)
    (v : Nat) (s : State) : π (l.foldl (fun s w => s.otpPut w v) s) = π s :=
  foldl_frame π (fun s w => h s w v) l s

/-- What the wipe leaves of the keys, the store, the bindings, the kept slots and the jobs, and that it ends the pair, the
flows and the ballot as it found them. -/
theorem State.wipe_erases (s : State) : s.wipe.keys.slots = [] ∧ s.wipe.keys.root = 0 ∧ s.wipe.lct.wiping = false ∧
    s.wipe.store.config = some [] ∧ s.wipe.host.bindings = [] ∧ s.wipe.kept.slots = [] ∧ s.wipe.harrow.jobs = [] ∧
    s.wipe.pair = s.pair ∧ s.wipe.links = s.links ∧ s.wipe.dom = s.dom := by
  have hk := foldl_otpPut_frame State.keys fun _ _ _ => rfl
  have hh := foldl_otpPut_frame State.host fun _ _ _ => rfl
  have hkept := foldl_otpPut_frame State.kept fun _ _ _ => rfl
  have hj := foldl_otpPut_frame State.harrow fun _ _ _ => rfl
  have hp := foldl_otpPut_frame State.pair fun _ _ _ => rfl
  have hl := foldl_otpPut_frame State.links fun _ _ _ => rfl
  have hd := foldl_otpPut_frame State.dom fun _ _ _ => rfl
  simp [State.wipe, hk, hh, hkept, hj, hp, hl, hd]

/-- Settles O14. -/
theorem otpAndLifeCycle : Obligations.OtpAndLifeCycle := by
  refine ⟨⟨fun s port w ho hw hh => ?_, fun s port w ho hlo hhi => ?_, fun s port w spare ho hw hr hrep hne hv => ?_,
    fun s port w ok spare ho hw hr hrep hv => ?_, fun s port w ok spare code ho hw hr hcode => ?_⟩,
    fun s port ho hc ht hlc u hu => ?_, fun s port code b ho hc hcode => ?_, fun s hw => ?_⟩
  · change execOtpRead port w s = _
    simp [execOtpRead, ho, hw.not_ge, otpHidden, hh, State.otpEnd]
  · have hw : ¬ 992 ≤ w.toNat := by omega
    change execOtpRead port w s = _
    simp [execOtpRead, ho, hw, otpHidden, hlo, hhi, State.regBad]
  · exact exec_otpProgram_owner ho hw (State.program_sets hr hrep hne hv)
  · rw [exec_otpProgram_owner ho hw (State.program_notSubset hr hrep hv), State.otpEnd_refused _ one_ne_zero]
  · rw [exec_otpProgram_owner ho hw (State.program_refused hr), State.otpEnd_refused _ hcode]
  · have hsig : (s.regRsp port 0 false).ownerSigns lcProduction = false := by simp [State.ownerSigns, hlc]
    have hm : (s.regRsp port 0 false).lcMailbox = s.lcMailbox := rfl
    change execLcPost port true s = _
    simp only [execLcPost, ho, hm, hc, ht, hsig, hu]
    rfl
  · have hm : (s.regRsp port 0 false).lcMailbox = s.lcMailbox := rfl
    have h8 : code ≠ 8 := by omega
    have h7 : code ≠ 7 := by omega
    change execLcPost port b s = _
    simp only [execLcPost, ho, hm, hc]
    simp
  · refine ⟨_, by change execEndOfLifeWipe s = _; simp only [execEndOfLifeWipe, hw]; rfl, ?_⟩
    obtain ⟨h1, h2, h3, h4, h5, h6, h7, hp, hl, hd⟩ := State.wipe_erases _
    exact ⟨h1, h2, h3, h4, h5, h6, h7, by rw [hp]; rfl, by rw [hl]; rfl, by rw [hl]; rfl, by rw [hd]; rfl⟩

end Sys2Proof.Machine
end

section
/-! Firmware updates and the certificate chain. -/

namespace Sys2Proof.Machine

/-- Numbers from 0 on. -/
theorem upto_zero (n : Nat) : upto 0 n = List.range n := by
  simp [upto]

theorem State.spareReeve_eq_none {s : State} (h : ∀ i < 3, (s.unitOf 4 i).role ≠ .spare) : s.spareReeve = none := by
  simpa [State.spareReeve, upto_zero] using h

theorem State.spareReeve_eq_some {s : State} {core : Nat} (hc : core < 3) (hs : (s.unitOf 4 core).role = .spare)
    (h : ∀ i < core, (s.unitOf 4 i).role ≠ .spare) : s.spareReeve = some core := by
  simpa [State.spareReeve, upto_zero, List.find?_range_eq_some, hs, hc] using h

/-- A unit that is no key-cache row takes its state and nothing else changes. -/
theorem State.setUnit_of_ne (s : State) {type : Nat} (h : type ≠ 2) (i : Nat) (u : UnitSt) :
    s.setUnit type i u = { s with units := { s.units with units := tset (unitReset type i) s.units.units (type * 65536 + i) u } } := by
  simp [State.setUnit, h]

@[simp] theorem State.pkuOwn_store (s : State) (n : Nat) : (s.pkuOwn n).store = s.store := rfl
@[simp] theorem State.pkuOwn_fwu (s : State) (n : Nat) : (s.pkuOwn n).fwu = s.fwu := rfl

section
variable {s : State} {port : Nat}

theorem State.fwuCmd_owner {f : State → State} (h : s.owner port) : s.fwuCmd port f = (f s).regRsp port 0 false :=
  State.ownerCmd_owner h

theorem exec_fwuStage_stores {r : ReadOut} (ho : s.owner port) (hst : s.fwu.st = .idle) (hlc : s.life.lc ≠ .endOfLife)
    (ha : s.argRead r 1048576 = true) (hf : s.firmwareFault r.bytes = none)
    (hv : s.fwu.running.map (·.version) ≠ some (readFirmware r.bytes).version) (hb : s.store.slotB = false) :
    exec (.fwuStage port r true) s = .next ((({ s.pkuOwn 2 with
      store := { s.store with fwB := some r.bytes },
      fwu := { s.fwu with st := .staged, staged := some (readFirmware r.bytes), boots := 0 } }).fwuEnd 0).regRsp port 0
      false) := by
  change execFwuStage port r true s = _
  simp [execFwuStage, State.fwuCmd_owner ho, hst, hlc, ha, hf, hv, hb, -Option.map_eq_some_iff]

theorem exec_fwuStart_boots {core : Nat} (ho : s.owner port) (hst : s.fwu.st = .staged) (hp : s.lct.pending = 0)
    (hsp : s.spareReeve = some core) :
    exec (.fwuStart port) s = .next ((({ s.setUnit 4 core { s.unitOf 4 core with role := .active } with
      fwu := { s.fwu with st := .booting, boots := 1, derived := false, core := some core } }).fwuEnd 0).regRsp port 0
      false) := by
  change execFwuStart port s = _
  simp [execFwuStart, State.fwuCmd_owner ho, hst, hp, hsp, State.bootSpare, State.setUnit_of_ne, State.unitOf]

end

/-- Settles O17. -/
theorem firmwareUpdates : Obligations.FirmwareUpdates := by
  refine ⟨fun s u port r ho hst hlc ha hu => ⟨fun hf hv hb st f hstore hfwu => ?_, fun code hf h3 => ?_⟩,
    fun s port ho => ⟨fun hst hp hsp => ?_, fun hst hp core hc hsp hlow f hf => ?_, fun hst => ?_, fun hst => ?_,
      fun hst f hf => ?_⟩,
    fun s u v f hf hst hd hu => ⟨fun m hm => ?_, fun hsl => ?_, fun hsl hv => ?_⟩,
    fun s hst => ⟨fun hb f hf => ?_, fun hb => ?_⟩,
    fun s => ⟨fun hst f hf => ?_, fun f x hst ha hf hx hm hr hsw => ?_, fun hst ha hb hm => ?_⟩,
    fun s f hst hf ha w hw => ?_, fun s port r ho hlc ha => ⟨fun hc st hst => ?_, fun hc => ?_, fun c hc => ?_⟩⟩
  · subst hu hstore hfwu
    exact exec_fwuStage_stores ho hst hlc ha hf hv hb
  · change execFwuStage port r true s = _
    simp [execFwuStage, State.fwuCmd_owner ho, hst, hlc, ha, hf, h3]
  · change execFwuStart port s = _
    simp [execFwuStart, State.fwuCmd_owner ho, hst, hp, State.spareReeve_eq_none hsp]
  · subst hf
    exact exec_fwuStart_boots ho hst hp (State.spareReeve_eq_some hc hsp hlow)
  · change execFwuStart port s = _
    simp [execFwuStart, State.fwuCmd_owner ho, hst]
  · change execFwuCancel port s = _
    simp only [execFwuCancel, State.fwuCmd_owner ho, hst, if_true]
  · change execFwuAbandon port s = _
    simp [execFwuAbandon, State.fwuCmd_owner ho, hst, hf]
  · change execFwuReady m s = _
    simp [execFwuReady, hf, hst, hd, hm]
  · change execFwuReady f.meas s = _
    subst hu
    simp [execFwuReady, hf, hst, hd, hsl]
  · change execFwuReady f.meas s = _
    subst hu hv
    simp [execFwuReady, hf, hst, hd, hsl]
  · change execFwuBootTimeout s = _
    simp [execFwuBootTimeout, hst, hb, hf]
  · change execFwuBootTimeout s = _
    simp [execFwuBootTimeout, hst, hb.not_gt]
  · change execFwuHandover s = _
    simp [execFwuHandover, hst, hf]
  · change execFwuHandover s = _
    simp [execFwuHandover, hst, ha, hf, hx, hm, hr, hsw]
  · change execFwuHandover s = _
    simp [execFwuHandover, hst, ha, hb, hm]
  · change execFwuStuck s = _
    simp [execFwuStuck, hst, hf, ha, hw]
  · change execCert port r true true s = _
    simp [execCert, State.fwuCmd_owner ho, hlc, hc, ha, hst]
  · change execCert port r false true s = _
    simp [execCert, State.fwuCmd_owner ho, hlc, hc, ha]
  · change execCert port r true true s = _
    simp [execCert, State.fwuCmd_owner ho, hc]

end Sys2Proof.Machine
end

section
/-! Loading, swapping and persisting a configuration image. -/

namespace Sys2Proof.Machine

@[simp] theorem State.loadEnd_cfg (s : State) (code : Nat) : (s.loadEnd code).cfg = s.cfg := by
  simp only [State.loadEnd]
  split <;> simp

theorem State.emptyShadow_cfg (s : State) :
    s.emptyShadow.cfg = { s.cfg with shadow := .empty, image := none, imageBytes := [] } := rfl

/-- An image with a fault leaves the shadow INVALID, and the active configuration as it was. -/
theorem State.loadImage_fault {s : State} {b : Bytes} {c : Nat × Nat × Nat} (h : s.emptyShadow.imageFault b = some c) :
    (s.loadImage true b).cfg.shadow = .invalid ∧ (s.loadImage true b).cfg.active = s.cfg.active := by
  simp [State.loadImage, h, State.emptyShadow_cfg]

/-- A swap of a VALID shadow is prepared. -/
theorem exec_cfgSwap_valid {s : State} {port : Nat} {persist : Bool} {x : Pesum} (ho : s.owner port)
    (hsw : s.cfg.swapping = false) (hsh : s.cfg.shadow = .valid) (hi : s.cfg.image = some x) :
    exec (.cfgSwap port persist) s =
      .next (((s.setFld F.cfgSwap_PERSIST (if persist then 1 else 0)).prepareSwap x persist).regRsp port 0 false) := by
  change execCfgSwap port persist s = _
  simp [execCfgSwap, State.ownerCmd_owner ho, hsw, hsh, hi]

/-- Settles O18. -/
theorem configuration : Obligations.Configuration := by
  refine ⟨fun s port r ho hsw => ⟨fun hlc => ?_, fun hb he hl => ?_, fun hb he hl hok hne row hrow => ?_, fun hr => ?_⟩,
    fun s port ho hr hsw hw c hc => ?_, fun s b c h => State.loadImage_fault h,
    fun s u port persist x ho hsw hsh hi hu => ⟨fun code hcode => ?_, fun v c hr hk hc hv hcf => ?_⟩,
    fun s x hsw hi => ⟨fun code hcode => ?_, fun hr hk => ?_, fun hr hk => ?_⟩, fun s u hp hu => ⟨fun st hst => ?_, ?_⟩⟩
  · change execCfgLoad port r s = _
    simp only [execCfgLoad, State.ownerCmd_owner ho, hlc, if_true]
  · change execCfgLoad port r s = _
    simp [execCfgLoad, State.ownerCmd_owner ho, hb, he, hl, hsw]
  · change execCfgLoad port r s = _
    have hne' : r.bytes.isEmpty = false := by simpa using hne
    simp [execCfgLoad, State.ownerCmd_owner ho, hb, he, hl, hsw, hrow, hok, hne']
  · change execCfgDiscard port s = _
    simp [execCfgDiscard, State.ownerCmd_owner ho, hr, hsw]
  · change execCfgDiscard port s = _
    subst hc
    simp only [execCfgDiscard, State.ownerCmd_owner ho, hr, hsw, State.holdSwap, hw, Bool.false_eq_true, if_true, if_false]
  · rw [exec_cfgSwap_valid ho hsw hsh hi, ← hu]
    simp only [State.prepareSwap, hcode]
  · have hne : (!x.keymap.isEmpty && !u.canDerive) = false := by simp [hk]
    subst hc hv
    rw [exec_cfgSwap_valid ho hsw hsh hi, ← hu]
    simp only [State.prepareSwap, hr, hne, hcf, Bool.false_eq_true, if_false]
  · change execSwapEffect s = _
    simp [execSwapEffect, hsw, hi, hcode]
  · change execSwapEffect s = _
    simp [execSwapEffect, hsw, hi, hr, hk]
  · change execSwapEffect s = _
    simp [execSwapEffect, hsw, hi, hr, hk]
  · change execCfgPersist true s = _
    simp [execCfgPersist, hp, hu, hst]
  · change execCfgPersist false s = _
    simp [execCfgPersist, hp, hu]

end Sys2Proof.Machine
end

section
/-! Aborts, engine resets, chip requests, GLEANER, rehearsal and telemetry. -/

namespace Sys2Proof.Machine

/-- Settles O19. -/
theorem abortReset : Obligations.AbortReset := by
  refine ⟨fun s port i d ho hb hi => ?_, fun s port i d ho hb hi => ?_, fun s port i d ho hb hi => ?_,
    fun s port i ho hb u rest hrest hu => ?_⟩
  · change execFltAbort port 1 i d s = _
    simp [execFltAbort, hb, State.ownerCmd_free ho, hi]
  · change execFltAbort port 1 i d s = _
    simp [execFltAbort, hb, State.ownerCmd_free ho, hi.not_ge]
  · change execFltAbort port 3 i d s = _
    simp [execFltAbort, hb, State.ownerCmd_free ho, hi.not_ge]
  · change execFltReset port 3 i true 0 s = _
    subst hu hrest
    simp [execFltReset, hb, State.ownerCmd_free ho, State.resetEngine]

/-- Settles O20. -/
theorem chipRequests : Obligations.ChipRequests := by
  refine ⟨fun s port ho hw => ?_, fun s port ho hp => ?_, fun s port ho => ?_, fun s hp hpow hd => ?_⟩
  · change execWarmReq port s = _
    simp [execWarmReq, State.ownerCmd_owner ho, State.raiseWarm, hw]
  · change execPwrReq port s = _
    simp [execPwrReq, State.ownerCmd_owner ho, hp]
  · change execPwrStop port s = _
    rw [execPwrStop, State.ownerCmd_owner ho]
  · refine ⟨(s.signEcdsa s.powerRecord).1, by simp [State.signEcdsa, padTo, zeros], ?_⟩
    change execPowerCycleSend s = _
    simp [execPowerCycleSend, hp, hpow, hd, State.signEcdsa]

/-- Settles O21. -/
theorem gleaner : Obligations.Gleaner := by
  refine ⟨fun s r rest hst hf hsev hl hr u hu => ?_, fun s r rest hst hf => ?_, fun s port ho => ⟨?_, ?_⟩,
    fun s port i ho hb hrow hk hh x hx => ?_⟩
  · change execGleanerRecord s = _
    subst hu
    simp [execGleanerRecord, State.writeRecord, hst, hf, hsev, hl, hr, Sev.code]
  · change execGleanerRecord s = _
    simp only [execGleanerRecord, State.writeRecord, hst, hf, if_true]
    rfl
  · change execFreeze port s = _
    rw [execFreeze, State.ownerCmd_owner ho]
  · change execUnfreeze port s = _
    rw [execUnfreeze, State.ownerCmd_owner ho]
  · change execPeerCopy port s = _
    subst hx
    simp only [execPeerCopy, beq_eq_false_iff_ne.2 hb, State.ownerCmd_owner ho, hrow, hk, hh]
    rfl

/-- Settles O22. -/
theorem rehearsal : Obligations.Rehearsal := by
  refine ⟨fun s port dbl tg c p ho hb hc hp u hu hperm hrate line hline => ?_, fun s i hb hk hi ht => ?_⟩
  · change execInject port 1 dbl tg s = _
    subst hu hline
    have hr : (((s.setFld F.fltInject_KIND 1).setFld F.fltInject_DOUBLE (if dbl then 1 else 0)).setFld F.fltInject_TARGET
        tg.toNat).injectRate p = false := hrate
    simp [execInject, hb, State.ownerCmd_free ho, hc, hp, hperm, hr, State.injectable]
  · change execInjectExpiry s = _
    simp [execInjectExpiry, hb, hk, hi, ht]

/-- Settles O23. -/
theorem telemetry : Obligations.Telemetry := by
  refine ⟨fun s hpow h5 h10 => ?_, fun s n a b hn hpow hl => ?_, fun s n a b h32 hn hpow hs => ?_⟩
  · change execReeveHeartbeat s = _
    simp [execReeveHeartbeat, hpow, h5, h10]
  · have h68 : n < 68 := by omega
    change execMarginSample n a b true s = _
    simp [execMarginSample, hpow, hn, hn.not_ge, h68.not_ge, hl]
  · change execMarginSample n a b true s = _
    simp [execMarginSample, hpow, h32, hn.not_ge, hs]

end Sys2Proof.Machine
end

section
/-! Memory requests, lanes and the throttle; reads, their verdicts and held writes. -/

namespace Sys2Proof.Machine

/-- Settles O24. -/
theorem memoryRequests : Obligations.MemoryRequests := by
  refine ⟨fun s u g r t hg hrdy hid hsp ht hu => ⟨fun hpre => ?_, fun x hpre => ?_⟩, fun s g r hg hrdy hid => ?_,
    fun s g r hrdy => ?_, fun s g tid u hf v hv => ?_, fun s u n cycles e t l hn hu hc he => ⟨fun hfit => ?_, fun hfit => ?_⟩,
    fun s u n cycles e m l hn hu hc he => ⟨fun hfit => ?_, fun hfit => ?_⟩, fun s u n cycles t hn hu hc => ?_,
    fun s u hu x hx => ?_⟩
  · change execMemoryRequest g r s = _
    subst ht hu
    simp [execMemoryRequest, hg.not_ge, hrdy, hid, hsp, hpre, -List.contains_eq_mem]
  · change execMemoryRequest g r s = _
    subst ht hu
    simp [execMemoryRequest, hg.not_ge, hrdy, hid, hsp, hpre, -List.contains_eq_mem]
  · change execMemoryRequest g r s = _
    simp [execMemoryRequest, hg.not_ge, hrdy, hid, -List.contains_eq_mem]
  · change execMemoryRequest g r s = _
    simp [execMemoryRequest, hrdy]
  · change execSpanPartTimeout g tid s = _
    simp only [execSpanPartTimeout, hf, hv]
  · change execLaneGrant n cycles s = _
    subst hu he
    simp [execLaneGrant, hn.not_ge, State.carryOut, hc, hfit]
  · change execLaneGrant n cycles s = _
    subst hu he
    simp [execLaneGrant, hn.not_ge, State.carryOut, hc, hfit]
  · change execLaneGrant n cycles s = _
    subst hu he
    simp [execLaneGrant, hn.not_ge, State.carryOut, hc, hfit]
  · change execLaneGrant n cycles s = _
    subst hu he
    simp [execLaneGrant, hn.not_ge, State.carryOut, hc, hfit]
  · change execLaneGrant n cycles s = _
    subst hu
    simp [execLaneGrant, hn.not_ge, State.carryOut, hc]
  · change execThrottleWindow s = _
    subst hu hx
    rfl

theorem any_isNone_ctr {ls : List LineRd} (p q : LineRd → Bool) (h : ∀ l ∈ ls, l.ctr.isSome = true) :
    (ls.any fun l => p l && l.ctr.isNone && q l) = false :=
  List.any_eq_false.2 fun l hl => by
    obtain ⟨c, hc⟩ := Option.isSome_iff_exists.1 (h l hl)
    simp [hc]

/-- A held write with nothing before it leaves, and takes its effect in the life of its region that it came in. -/
theorem stileRelease_write {s : State} {h row : Nat} {e : Held} {t : Txn} (he : s.mem.held.find? (·.id == h) = some e)
    (hdeps : e.deps = []) (hlater : s.mem.held.any (fun x => x.id < h && sameLane x e) = false)
    (hwhat : e.what = .mem t row) :
    let u := (s.heldTime e).count 457 1
    let v := u.withMem { u.mem with held := u.mem.held.filter fun x => !(x.id == h) }
    let w := v.holdLevel t.lane e.part
    execStileRelease h s =
      if (w.row row).epoch ≠ e.epoch then .next w else .next ((w.topUp t row).performWrite t row).fitCache := by
  simp only [execStileRelease, he, hdeps, hlater, hwhat, ne_eq, not_true_eq_false, Bool.false_eq_true, or_self, if_false]
  rfl

/-- Settles O25. -/
theorem readsAndVerdicts : Obligations.ReadsAndVerdicts := by
  refine ⟨fun s u g a hf hu hd hm => ?_, fun s u g a l hu hd hf hl => ?_,
    fun s u g tag b a id l rs hacc hgot hn hp hm hl hrs hu => ?_,
    fun s u g tag a id r ls hacc hgot hp hr hctr hj hearly r' hr' => ?_,
    fun s g tag a id line r ok l' hacc hp hr hv hearly u r' hu hr' => ?_, fun s u g x hx hprov hu => ?_,
    fun s u v w h row e t he hdeps hlater hwhat hu hv hw => ⟨fun hep => ?_, fun hep => ?_⟩,
    fun s u g tag line sb err a level idx hacc hp hu x hx v hv => ?_⟩
  · change execDmcAccessAccept g s = _
    subst hu
    simp [execDmcAccessAccept, hf, hd, hm, State.withMem]
  · change execDmcAccessAccept g s = _
    subst hu hl
    simp [execDmcAccessAccept, hf, hd, State.withMem]
  · change execDmcReadData g tag b s = _
    subst hu hl hrs
    simp [execDmcReadData, hacc, hgot.not_ge, hn.not_gt, hp, hm, State.withMem]
  · change execTagVerdict g tag s = _
    subst hr'
    rw [execTagVerdict, hacc]
    change ite _ _ _ = _
    rw [if_neg hgot.not_gt, hp]
    change (match s.mem.reads.find? (fun r => r.txn.id == id) with | none => _ | some r => _) = _
    rw [hr]
    change ite _ _ _ = _
    rw [if_neg (ne_true_of_eq_false (any_isNone_ctr _ _ hctr))]
    simp only [hj, hearly, Bool.false_eq_true, if_false]
    exact (apply_ite _ _ _ _).symm
  · change execRereadVerdict g tag s = _
    subst hu hr'
    simp only [execRereadVerdict, hacc, hp, hr, hv, hearly, Bool.false_eq_true, if_false]
    exact (apply_ite _ _ _ _).symm
  · change execReadRelease g s = _
    subst hu
    have hjudged : ∀ rs : List Rd, rs.find? (fun r => r.txn.id == x.id && false && !r.judged) = none :=
      fun rs => List.find?_eq_none.2 (by simp)
    cases hradio : x.radio <;>
    simp only [execReadRelease, hx, hradio, List.filter_cons, List.filter_nil, if_true, Bool.false_eq_true, if_false,
      List.foldl_cons, List.foldl_nil, hprov, hjudged] <;> rfl
  · change execStileRelease h s = _
    rw [stileRelease_write he hdeps hlater hwhat, ← hu, ← hv, ← hw, if_neg (not_not_intro hep)]
  · change execStileRelease h s = _
    rw [stileRelease_write he hdeps hlater hwhat, ← hu, ← hv, ← hw, if_pos hep]
  · change execMetadataLineArrival g tag line sb err s = _
    subst hu hx hv
    simp only [execMetadataLineArrival, hacc, hp]

end Sys2Proof.Machine
end

section
/-! Usage credits, counter lines, step commits and fences. -/

namespace Sys2Proof.Machine

/-- Settles O26. -/
theorem creditsAndCounters : Obligations.CreditsAndCounters := by
  refine ⟨fun s n slot hn hk hc => ?_, fun s u c rest hreqs hw hu huw => ?_, fun s u k hk hu => ?_, fun s u k hk hu => ?_,
    fun s u v w n page m c hm hl hf hroom hu hv hc hw => ?_, fun s level idx c hc h1 h4 => ⟨fun hp hd => ?_, fun hp => ?_⟩,
    fun s r t ht hm hcur rs hrs => ?_⟩
  · change execCreditRequest n slot s = _
    simp [execCreditRequest, hn, hk, hc]
  · change execCreditDecision s = _
    simp only [execCreditDecision, hreqs, ← hu, huw, List.foldl_nil]
    rfl
  · change execNosuccRetry s = _
    simp only [execNosuccRetry, hk, List.foldl_cons, List.foldl_nil, ← hu]
  · change execAutoStartRetry s = _
    simp only [execAutoStartRetry, hk, List.foldl_cons, List.foldl_nil, ← hu]
  · change execPageUnlock n page s = _
    have hready : ¬ (!true || !s.wbufRoom n 0) = true := by simp [hroom]
    have hminors : ((List.range 64).map fun i => if m.old.minor i ≠ 0 ∨ ([] : List (Nat × Line)).any (·.1 % 64 == i)
        then 1 else 0) = (List.range 64).map fun i => if m.old.minor i ≠ 0 then 1 else 0 := by simp
    subst hu hv hc hw
    rw [execPageUnlock, hm]
    change ite _ _ _ = _
    rw [hl, hf, hminors]
    exact if_neg hready
  · change Host.Outcome.next (s.evict level idx) = _
    have h0 : level ≠ 0 := by omega
    simp [State.evict, hc, h0, h4.not_ge, hp, hd]
  · change Host.Outcome.next (s.evict level idx) = _
    simp [State.evict, hc, hp]
  · change execNodeRetag r s = _
    have hlast : t.cursor + 1 ≠ 64 := by omega
    simp [execNodeRetag, ht, hm, State.passChild, hlast, hrs]

/-- Settles O27. -/
theorem commitsAndFences : Obligations.CommitsAndFences := by
  refine ⟨⟨fun s t hf hlc hlen hst u hu => ?_, fun s t hn hr hh ha hev hp => ?_, fun s t hn hr hh ha hp u hu => ?_,
    fun s t hc hev hp hm hw u x v hu hx hv => ?_, fun s t hst hev hm u hu => ?_⟩, fun s p => rfl,
    fun s p hh ha hout hb hc u hu => ?_, fun s p ha u hu => ?_, fun s d => rfl, fun s d hf hfd hout hb => ?_,
    fun s d hfd => ?_, fun s d hf hfd => ?_⟩
  · change execStepCommit t s = _
    simp only [execStepCommit, State.commitReady, hf, hlc, hlen, hst, hu, Bool.not_false, ne_eq, not_false_iff, true_and,
      decide_true, Bool.and_true, Bool.not_true, Bool.false_eq_true, or_self, if_false]
    rfl
  · change execStileEvent t s = _
    simp [execStileEvent, hn, hr, hh, ha, hev, hp]
  · change execStileEvent t s = _
    simp [execStileEvent, hn, hr, hh, ha, hp, hu]
  · change execStepDone t s = _
    subst hu hx hv
    simp [execStepDone, hc, hev, hm, hw, hp, StepEnt.status]
  · change execMirrorTimeout t s = _
    simp [execMirrorTimeout, hst, hev, hm, hu]
  · change execHaltAck p s = _
    simp [execHaltAck, hh, ha, hout, hb, hc, hu]
  · change execAccResume p s = _
    simp [execAccResume, ha, hu]
  · change execRdomFenced d s = _
    simp [execRdomFenced, hf, hfd, hout, hb]
  · change execRdomUnfence d s = _
    simp [execRdomUnfence, hfd]
  · change execFenceOverrun d s = _
    simp [execFenceOverrun, hf, hfd]

end Sys2Proof.Machine
end

section
/-! Self-tests, replacements and switch-overs of lanes, ports, cores and units. -/

namespace Sys2Proof.Machine

theorem State.lane_setLane_ne (s : State) {n m : Nat} (l : Lane) (h : m ≠ n) : (s.setLane n l).lane m = s.lane m :=
  tget_tset_ne _ l h

theorem State.port_setPort_ne (s : State) {n m : Nat} (x : Port) (h : m ≠ n) : (s.setPort n x).port m = s.port m :=
  tget_tset_ne _ x h

section
variable (s : State) (n : Nat)

@[simp] theorem State.record_lane (ev : Event) (src : Src) (i : Nat) (p : Option Nat) (a b : Nat) (reh : Bool) :
    (s.record ev src i p a b reh).lane n = s.lane n :=
  State.record_frame (State.lane · n) (fun _ _ _ => rfl) s ev src i p a b reh

@[simp] theorem State.record_port (ev : Event) (src : Src) (i : Nat) (p : Option Nat) (a b : Nat) (reh : Bool) :
    (s.record ev src i p a b reh).port n = s.port n :=
  State.record_frame (State.port · n) (fun _ _ _ => rfl) s ev src i p a b reh

@[simp] theorem State.trace_lane (c e src : Nat) (p : Option Nat) (x y z : Nat) (reh : Bool) :
    (s.trace c e src p x y z reh).lane n = s.lane n :=
  State.trace_frame (State.lane · n) (fun _ _ _ => rfl) s c e src p x y z reh

@[simp] theorem State.trace_port (c e src : Nat) (p : Option Nat) (x y z : Nat) (reh : Bool) :
    (s.trace c e src p x y z reh).port n = s.port n :=
  State.trace_frame (State.port · n) (fun _ _ _ => rfl) s c e src p x y z reh

end

/-- A state that differs from another in its registers and in what GLEANER holds alone. -/
def Noted (a b : State) : Prop := ∃ r f, b = { a with regs := r, faults := f }

theorem Noted.refl (a : State) : Noted a a := ⟨a.regs, a.faults, rfl⟩

theorem Noted.setFld {a b : State} (h : Noted a b) (f : Fld) (v i p : Nat) : Noted a (b.setFld f v i p) := by
  obtain ⟨r, x, rfl⟩ := h
  exact ⟨_, x, rfl⟩

theorem Noted.record {a b : State} (h : Noted a b) (ev : Event) (src : Src) (i : Nat) (p : Option Nat) (x y : Nat)
    (reh : Bool) : Noted a (b.record ev src i p x y reh) := by
  obtain ⟨r, f, rfl⟩ := h
  obtain ⟨r', f', he⟩ := State.record_eq { a with regs := r, faults := f } ev src i p x y reh
  exact ⟨r', f', he⟩

theorem Noted.ite {a b c : State} {p : Prop} [Decidable p] (hb : Noted a b) (hc : Noted a c) :
    Noted a (if p then b else c) := by
  split
  · exact hb
  · exact hc

/-- The end of a lane's draining sets its entry, and is shown and recorded. -/
theorem State.endLane_eq (s : State) (n : Nat) : s.endLane n = s ∨ ∃ l, Noted (s.setLane n l) (s.endLane n) := by
  unfold State.endLane
  split
  · exact .inl rfl
  · refine .inr ⟨{ s.lane n with role := .bypassed, group := none },
      .ite (.record (.setFld (.setFld ?_ _ _ _ _) _ _ _ _) _ _ _ _ _ _ _) ?_⟩ <;>
    exact .ite (.setFld (.setFld (.ite (.setFld (.setFld (.setFld (.refl _) _ _ _ _) _ _ _ _) _ _ _ _) (.refl _))
      _ _ _ _) _ _ _ _) (.ite (.setFld (.setFld (.setFld (.refl _) _ _ _ _) _ _ _ _) _ _ _ _) (.refl _))

theorem State.endPort_eq (s : State) (n : Nat) : s.endPort n = s ∨ ∃ x, Noted (s.setPort n x) (s.endPort n) := by
  unfold State.endPort
  split
  · exact .inl rfl
  · refine .inr ⟨{ s.port n with role := .bypassed, att := none, ranges := [] },
      .ite (.record (.setFld (.setFld ?_ _ _ _ _) _ _ _ _) _ _ _ _ _ _ _) ?_⟩ <;>
    exact .ite (.setFld (.setFld (.setFld (.refl _) _ _ _ _) _ _ _ _) _ _ _ _) (.refl _)

/-- The end of a lane's draining changes no other lane. -/
theorem State.endLane_lane_ne (s : State) {n m : Nat} (h : m ≠ n) : (s.endLane n).lane m = s.lane m := by
  obtain he | ⟨l, r, f, he⟩ := s.endLane_eq n
  · rw [he]
  · rw [he]
    exact s.lane_setLane_ne l h

theorem State.endPort_port_ne (s : State) {n m : Nat} (h : m ≠ n) : (s.endPort n).port m = s.port m := by
  obtain he | ⟨x, r, f, he⟩ := s.endPort_eq n
  · rw [he]
  · rw [he]
    exact s.port_setPort_ne x h

/-- What a lane that takes the work of another is after the switch-over: what its entry reads once it is set. -/
theorem State.steerLane_spare (s : State) {n sp : Nat} (why : Nat) (h : sp ≠ n) : (s.steerLane n sp why).lane sp =
    (s.setLane sp { s.lane sp with group := (s.lane n).group, role := .active }).lane sp := by
  simp only [State.steerLane, State.switched, State.endLane_lane_ne _ h, State.trace_lane, State.record_lane]
  exact State.lane_setLane_ne _ _ h

theorem State.steerPort_spare (s : State) {n sp : Nat} (why : Nat) (h : sp ≠ n) : (s.steerPort n sp why).port sp =
    (s.setPort sp { s.port sp with att := (s.port n).att, role := (s.port n).role, ranges := (s.port n).ranges }).port sp := by
  simp only [State.steerPort, State.switched, State.endPort_port_ne _ h, State.trace_port, State.record_port]
  exact State.port_setPort_ne _ _ h

/-- The switch-over of an ACTIVE lane whose swap is marked steers its work to the spare. -/
theorem switchover_lane {s : State} {n sp : Nat} (hn : n < 44) (hr : (s.lane n).role = .active)
    (hsw : (s.lane n).swapTo = some sp) :
    exec (.switchover ⟨1, 0⟩ n) s = .next (s.steerLane n sp (s.whyLane n)) := by
  change Host.Outcome.next (if n < 44 then s.switchLane n 0 else s) = _
  simp [hn, State.switchLane, hr, hsw]

theorem switchover_port {s : State} {n sp : Nat} (hn : n < 40) (hr : (s.port n).serves = true)
    (hsw : (s.port n).swapTo = some sp) : exec (.switchover ⟨2, 0⟩ n) s = .next (s.steerPort n sp 0) := by
  change Host.Outcome.next (if n < 40 then s.switchPort n 0 else s) = _
  simp [hn, State.switchPort, hr, hsw]

/-- A state whose table of lanes lists lane 0 twice: the entry that a switch-over to it sets equals lane 0's reset value, so
that the table drops it and shows the second. -/
def doubledLane : State :=
  { State.reset with mem := { State.reset.mem with
    lanes := [(1, { group := some 0, role := .active, swapTo := some 0 }), (0, {}), (0, { role := .bypassed })] } }

/-- Refutes O28: the statement takes every state, also one whose table of lanes lists a lane twice. There the switch-over
from lane 1 to lane 0 sets lane 0 to its reset value, which drops its first entry, and leaves it BYPASSED by its second. -/
theorem not_laneTests : ¬ Obligations.LaneTests := by
  unfold Obligations.LaneTests
  rintro ⟨-, -, hswitch, -⟩
  obtain ⟨t, ht, -, hrole, -⟩ := hswitch doubledLane 1 0 (by decide) rfl rfl (by decide)
  rw [switchover_lane (by decide) rfl (sp := 0) rfl] at ht
  cases ht
  rw [State.steerLane_spare _ _ (by decide)] at hrole
  exact absurd hrole (by decide)

/-- A state whose table of ports lists port 0 twice, for the same reason. -/
def doubledPort : State :=
  { State.reset with links := { State.reset.links with
    ports := [(1, { att := some 0, role := .fabric, swapTo := some 0 }), (0, {}), (0, { role := .bypassed })] } }

/-- Refutes O29: in a state whose table of ports lists port 0 twice, the switch-over from port 1 to port 0 sets port 0 to
its reset value, which drops its first entry, and leaves it BYPASSED by its second. -/
theorem not_portTest : ¬ Obligations.PortTest := by
  unfold Obligations.PortTest
  rintro ⟨-, -, -, hswitch⟩
  obtain ⟨t, ht, -, hrole, -⟩ := hswitch doubledPort 1 0 (by decide) rfl rfl (by decide)
  rw [switchover_port (by decide) rfl (sp := 0) rfl] at ht
  cases ht
  rw [State.steerPort_spare _ _ (by decide)] at hrole
  exact absurd hrole (by decide)

/-- Settles O30. -/
theorem coreAndUnitTests : Obligations.CoreAndUnitTests := by
  refine ⟨⟨fun s port c ho hc hb hr => ?_, fun s port c sp ho hc hsp hb hr hrs u hu => ?_, fun s c sp hc hr hsw => ?_,
    fun s port c ho hc hb hr hok => ?_⟩, fun s port ty i ho hi hb hr => ?_, fun s port ty i sp ho hi hsp hb hr hrs hf => ?_,
    fun s port ty i ho hi hb hr hok => ?_, fun s row sp hrow hsp hr hrs u hu => ?_, fun s n hn hr hsp => ?_⟩
  · change execStvBistStart port c 0 s = _
    simp -implicitDefEqProofs [execStvBistStart, State.ownerCmd_free ho, hc.not_ge, hb, hr, bistCode, State.bistFailed]
  · change execStvBistSwap port c sp 0 s = _
    simp -implicitDefEqProofs [execStvBistSwap, State.ownerCmd_free ho, hc.not_ge, hsp.not_ge, hb, hr, hrs, hu]
  · change Host.Outcome.next (if c < 68 then s.switchCore c 0 else s) = _
    simp [hc, State.switchCore, hr, hsw]
  · change execStvBistReturn port c s = _
    simp -implicitDefEqProofs [execStvBistReturn, State.ownerCmd_free ho, hc.not_ge, hb, hr, hok]
  · change execUnitBistStart port ty i 0 s = _
    simp -implicitDefEqProofs [execUnitBistStart, State.ownerCmd_free ho, hi, hb, hr, bistCode, State.bistFailed]
  · change execUnitSwap port ty i sp 0 s = _
    have hf' : ty.toNat ≠ 4 ∨ s.fwu.st = .idle := hf.imp_left fun h e => h (BitVec.eq_of_toNat_eq e)
    simp -implicitDefEqProofs [execUnitSwap, State.ownerCmd_free ho, hi, hsp, hb, hr, hrs, hf']
  · change execUnitReturn port ty i s = _
    simp -implicitDefEqProofs [execUnitReturn, State.ownerCmd_free ho, hi, hb, hr, hok]
  · change execKeyRowCheckFail row ⟨sp, 0⟩ s = _
    have hok : ∀ k ≤ 4351, unitIndexOk 2 k = true := fun k hk => by simp [unitIndexOk, unitTop, hk]
    simp -implicitDefEqProofs [execKeyRowCheckFail, hok row hrow, hok sp hsp, hr, hrs, State.faultUnit, hu]
  · change execUnitOutOfService 1 n s = _
    simp -implicitDefEqProofs [execUnitOutOfService, hn, hr, hsp]

end Sys2Proof.Machine
end

section
/-! Commands of the key manager and of the harrow. -/

namespace Sys2Proof.Machine

/-- A command register's write by the owner, with the unit free and no swap in progress, runs. -/
theorem State.regCmd_runs {s : State} {i : Instr} {port : Nat} {busy : Bool} {err busyFld : Fld} {f : State → State}
    (ho : s.owner port) (hs : s.cfg.swapping = false) (hr : s.cfg.resuming = false) (hb : busy = false) :
    s.regCmd i port busy err busyFld f = (f s).regRsp port 0 false := by
  simp only [State.regCmd, hr, Bool.false_eq_true, if_false, State.ownerCmd_free ho hb, hs]

theorem State.keyCmdOf_runs {s : State} {i : Instr} {port slot op : Nat} {f : Option Cmd → State → State}
    (ho : s.owner port) (hs : s.cfg.swapping = false) (hr : s.cfg.resuming = false) (hb : s.fld F.keyCmd_BUSY = 0) :
    s.keyCmdOf i (.reg port) slot op f = (f none (s.setFld F.keySel_SLOT slot)).regRsp port 0 false :=
  State.regCmd_runs ho hs hr (by simp [hb])

theorem State.hrwCmd_runs {s : State} {i : Instr} {port job : Nat} {f : State → State}
    (ho : s.owner port) (hs : s.cfg.swapping = false) (hr : s.cfg.resuming = false) (hb : s.fld F.hrwCtl_BUSY = 0) :
    s.hrwCmd i port job f = (f (s.setFld F.hrwCtl_JOB job)).regRsp port 0 false :=
  State.regCmd_runs ho hs hr (by simp [hb])

/-- In BLANK every command on key slots answers REFUSED_LC. -/
theorem State.keyLc_blank {s : State} (h : s.life.lc = .blank) (derives : Bool) : s.keyLc derives = true := by
  simp [State.keyLc, h]

/-- Settles O31. -/
theorem keySlots : Obligations.KeySlots := by
  refine ⟨fun s u port slot a n ho hs hr hb hu ha hlc hempty hkind hcell hslot => ?_,
    fun s u port slot ho hs hr hb hu hlc hlive k hk => ⟨fun href => ?_, fun href => ?_, fun href => ?_⟩,
    fun s u port slot i hi ho hs hr hb hu hlc => ?_⟩
  · change execKeyAlloc (.reg port) slot s = _
    have hfree : ¬ (a.slot ≠ 0 ∧ (u.slot a.slot).kind ≠ .empty) := fun h => h.2 (hempty h.1)
    simp only [execKeyAlloc, State.keyCmdOf_runs ho hs hr hb, ← hu, ← ha, State.keyAllocAt, hlc, hfree, hkind, hslot, hcell,
      Bool.not_true, Bool.false_eq_true, if_false]
  · change execKeyRef (.reg port) slot s = _
    have hmax : ¬ 2 ^ 24 - 1 ≤ (u.slot slot.toNat).dref := by rw [← hk]; exact href.not_ge
    simp only [execKeyRef, State.keyCmdOf_runs ho hs hr hb, ← hu, State.keyRefAt, hlc, hlive, hmax, hk, Bool.not_true,
      Bool.false_eq_true, if_false]
  · change execKeyUnref (.reg port) slot s = _
    have hpos : (u.slot slot.toNat).dref ≠ 0 := by rw [← hk]; exact href.ne'
    simp only [execKeyUnref, State.keyCmdOf_runs ho hs hr hb, ← hu, State.keyUnrefAt, hlc, hlive, hpos, hk, Bool.not_true,
      Bool.false_eq_true, if_false]
  · change execKeyUnref (.reg port) slot s = _
    have hzero : (u.slot slot.toNat).dref = 0 := by rw [← hk]; exact href
    simp only [execKeyUnref, State.keyCmdOf_runs ho hs hr hb, ← hu, State.keyUnrefAt, hlc, hlive, hzero, Bool.not_true,
      Bool.false_eq_true, if_false, if_true]
  · have hkeys : ∀ derives, u.keyLc derives = true := by
      subst hu
      exact State.keyLc_blank (by simpa using hlc)
    simp only [List.mem_cons, List.not_mem_nil, or_false] at hi
    obtain rfl | rfl | rfl | rfl | rfl | rfl := hi
    · change execKeyAlloc (.reg port) slot s = _
      simp only [execKeyAlloc, State.keyCmdOf_runs ho hs hr hb, ← hu, State.keyAllocAt, hkeys, if_true]
    · change execKeyRef (.reg port) slot s = _
      simp only [execKeyRef, State.keyCmdOf_runs ho hs hr hb, ← hu, State.keyRefAt, hkeys, if_true]
    · change execKeyUnref (.reg port) slot s = _
      simp only [execKeyUnref, State.keyCmdOf_runs ho hs hr hb, ← hu, State.keyUnrefAt, hkeys, if_true]
    · change execKeyRead port slot s = _
      simp only [execKeyRead, State.keyCmdOf_runs ho hs hr hb, ← hu, hkeys, if_true]
    · change execKeySucc port slot s = _
      simp only [execKeySucc, State.keyCmdOf_runs ho hs hr hb, ← hu, hkeys, if_true]
    · change execSetLimit port slot s = _
      simp only [execSetLimit, State.keyCmdOf_runs ho hs hr hb, ← hu, hkeys, if_true]

/-- Settles O32. -/
theorem keyAttributes : Obligations.KeyAttributes := by
  refine fun s u port slot k ho hs hr hb hu hk => ⟨fun hlc hkind stat hstat => ?_,
    fun hlc hlive hsucc hkind t ht hempty hlo hhi => ?_, fun hlc hlive hkind e he hlo hhi hlim => ?_⟩
  · change execKeyRead port slot s = _
    simp only [execKeyRead, State.keyCmdOf_runs ho hs hr hb, ← hu, ← hk, hlc, hkind, ← hstat, Bool.false_eq_true, if_false]
  · change execKeySucc port slot s = _
    have hrange : KeyKind.memory.range.1 ≤ t ∧ t ≤ KeyKind.memory.range.2 := hkind ▸ ⟨hlo, hhi⟩
    simp [execKeySucc, State.keyCmdOf_runs ho hs hr hb, ← hu, ← hk, hlc, hlive, ← ht, hsucc, hempty, hkind, hrange.1, hrange.2.not_gt]
  · change execSetLimit port slot s = _
    simp [execSetLimit, State.keyCmdOf_runs ho hs hr hb, ← hu, ← hk, hlc, hlive, ← he, hkind, hlo.not_gt, hhi.not_gt,
      hlim.not_gt]

/-- Settles O33. -/
theorem keyUpkeep : Obligations.KeyUpkeep := by
  refine ⟨fun s slot hk hr => ?_, fun s hw => ?_, fun s hw hv => ?_, fun s u raw test ht hu => ?_, fun s => rfl,
    fun s hes => ?_, fun s k hes hw hk => ?_⟩
  · change execSlotTeardown slot s = _
    simp [execSlotTeardown, hk, hr]
  · change execLedgerRewrap s = _
    simp [execLedgerRewrap, hw]
  · change execLedgerRewrap s = _
    simp only [execLedgerRewrap, hw, hv, Bool.false_eq_true, if_false, true_or, if_true]
  · change execEsHealthFail raw s = _
    simp only [execEsHealthFail, ht, hu]
  · change execDrbgReseed s = _
    simp [execDrbgReseed, hes]
  · change execDrbgReseed s = _
    simp [execDrbgReseed, hes, hw, State.reseed, hk]

/-- Settles O34. -/
theorem harrowJobs : Obligations.HarrowJobs := by
  refine ⟨fun s u port job ho hs hr hb hu => ⟨fun rows hscope hcheck hrows => ?_, fun hst => ?_, fun hst => ?_, fun hst => ?_,
    fun hst => ?_, fun hst => ?_, fun hst => ?_⟩, fun s n j hj hst => ?_⟩
  · change execHrwStart port job s = _
    simp [execHrwStart, State.hrwCmd_runs ho hs hr hb, ← hu, hscope, hcheck, hrows]
  · change execHrwStart port job s = _
    have hcheck : ∀ scope target new, u.startCheck job.toNat scope target new = 1 := fun _ _ _ => by
      simp [State.startCheck, hst]
    simp [execHrwStart, State.hrwCmd_runs ho hs hr hb, ← hu, hcheck]
  · change execHrwSuspend port job s = _
    simp [execHrwSuspend, State.hrwCmd_runs ho hs hr hb, ← hu, hst]
  · change execHrwSuspend port job s = _
    simp [execHrwSuspend, State.hrwCmd_runs ho hs hr hb, ← hu, hst]
  · change execHrwResume port job s = _
    simp [execHrwResume, State.hrwCmd_runs ho hs hr hb, ← hu, hst]
  · change execHrwRetire port job s = _
    simp [execHrwRetire, State.hrwCmd_runs ho hs hr hb, ← hu, hst]
  · change execHrwRetire port job s = _
    simp [execHrwRetire, State.hrwCmd_runs ho hs hr hb, ← hu, hst]
  · change execJobRun s = _
    simp [execJobRun, State.jobsRunning, hj, hst]

end Sys2Proof.Machine
end

section
/-! Pages that the harrow moves; commands of regions, and how a seal ends. -/

namespace Sys2Proof.Machine

/-- A page of a data region that is not radio, in the window of the running job and free to close: what its closing does
turns on its lines alone. -/
theorem closeData_page {s : State} {job : BitVec 4} {q abs row : Nat} {rest : List Nat} {c : CtrLine}
    (hst : (s.job job.toNat).st = .running) (hsc : (s.job job.toNat).scope ≠ .metadata)
    (htodo : (s.job job.toNat).todo = row :: rest) (hlo : (s.job job.toNat).head ≤ q) (hhi : q < (s.job job.toNat).head + 256)
    (hd : (s.job job.toNat).done.contains q = false) (hout : s.engineOut 7 = false)
    (habs : abs = (s.row row).base * pagesPerGranule + q) (hq : q < (s.row row).count * pagesPerGranule)
    (hcl : s.pageClosed abs = false) (hlock : s.pageLocked abs false = false) (h4 : s.closedOn abs < 4)
    (hrad : (s.row row).radio = false) (hctr : (s.row row).kind = .tilled → s.counterOf abs = some c)
    (hctr' : (s.row row).kind ≠ .tilled → c = {}) :
    execHarrowPageClose job q s = .next (
      if (s.moveLines row q c).length = 0 then s.pageDone job.toNat q
      else if !s.mayClose (s.homeLane abs) then s
      else if !s.fits (grantEnergy (grantCycles (s.moveLines row q c).length)) then s.withhold
      else s.closePage job.toNat abs q row ((s.job job.toNat).retry.contains q) (s.moveLines row q c).length) := by
  have hcounter : (if (s.row row).kind = .tilled then s.counterOf abs else some {}) = some c := by
    by_cases hk : (s.row row).kind = .tilled
    · rw [if_pos hk, hctr hk]
    · rw [if_neg hk, hctr' hk]
  simp only [execHarrowPageClose, hst, hlo.not_gt, hhi.not_ge, hd, hout, hsc, ne_eq, not_true_eq_false, Bool.false_eq_true,
    or_self, if_false, htodo, State.closeData, ← habs, hq.not_ge, hcl, hlock, h4.not_ge, hcounter, hrad,
    List.isEmpty_iff_length_eq_zero]

/-- Settles O35. -/
theorem harrowPages : Obligations.HarrowPages := by
  refine ⟨fun s job q abs hst hsc hlo hhi hd hout habs hq hcl h4 hacc hpar lines hl => ⟨fun h0 => ?_, fun hpos hm hfit => ?_,
      fun hpos hm hfit => ?_⟩,
    fun s job q abs row rest c hst hsc htodo hlo hhi hd hout habs hq hcl hlock h4 hrad hctr hctr' lines hl =>
      ⟨fun h0 => ?_, fun hpos hm hfit => ?_⟩,
    fun s job page abs row lines x ls hx hok => ?_, fun s job page abs row lines x ls hx hsec hbad u hu v hv => ?_,
    fun s job rows thresh hst hrad ht hat hrows hcell hth u hu hslot => ?_, fun s job hup hst hm => ?_⟩
  · change execHarrowPageClose job q s = _
    simp only [execHarrowPageClose, hst, hlo.not_gt, hhi.not_ge, hd, hout, hsc, ne_eq, not_true_eq_false, Bool.false_eq_true,
      or_self, if_false, if_true, State.closeMeta, ← habs, hq.not_ge, hcl, h4.not_ge, hacc, hpar, List.isEmpty_nil,
      Bool.not_true, ← hl, h0]
  · change execHarrowPageClose job q s = _
    simp only [execHarrowPageClose, hst, hlo.not_gt, hhi.not_ge, hd, hout, hsc, ne_eq, not_true_eq_false, Bool.false_eq_true,
      or_self, if_false, if_true, State.closeMeta, ← habs, hq.not_ge, hcl, h4.not_ge, hacc, hpar, List.isEmpty_nil,
      Bool.not_true, ← hl, hpos.ne', hm, hfit]
  · change execHarrowPageClose job q s = _
    simp only [execHarrowPageClose, hst, hlo.not_gt, hhi.not_ge, hd, hout, hsc, ne_eq, not_true_eq_false, Bool.false_eq_true,
      or_self, if_false, if_true, State.closeMeta, ← habs, hq.not_ge, hcl, h4.not_ge, hacc, hpar, List.isEmpty_nil,
      Bool.not_true, Bool.not_false, ← hl, hpos.ne', hm, hfit]
  · change execHarrowPageClose job q s = _
    rw [closeData_page hst hsc htodo hlo hhi hd hout habs hq hcl hlock h4 hrad hctr hctr', ← hl, if_pos h0]
  · change execHarrowPageClose job q s = _
    rw [closeData_page hst hsc htodo hlo hhi hd hout habs hq hcl hlock h4 hrad hctr hctr', ← hl, if_neg hpos.ne']
    simp [hm, hfit]
  · change execHarrowPageOpen job page lines s = _
    simp only [execHarrowPageOpen, hx, hok, Bool.false_eq_true, and_false, if_false]
  · change execHarrowMoveAbandon job page lines s = _
    subst hu hv
    simp only [execHarrowMoveAbandon, hx, hsec, hbad, Bool.not_true, Bool.false_eq_true, or_self, if_false] <;> rfl
  · change execTurnover job s = _
    have hlink : rows.find? (fun i => (u.row i).kidx == u.pair.radioSlot && u.pair.radioSlot != 0) = none :=
      List.find?_eq_none.2 (by simp [hslot])
    have hgo : ¬ (((s.job job.toNat).st ≠ .running ∧ (s.job job.toNat).st ≠ .suspended) ∨ (!(s.job job.toNat).radio) = true ∨
        (s.job job.toNat).turned = true ∨ s.life.time < (s.job job.toNat).turnAt) := by
      have hrun := not_and_or.2 (hst.imp not_not_intro not_not_intro)
      simp only [hrun, hrad, ht, hat.not_gt, Bool.not_true, Bool.false_eq_true, or_self, not_false_eq_true]
    refine (if_neg hgo).trans ?_
    simp only [← hrows, hcell, Bool.false_eq_true, if_false, ← hth, ← hu, hlink]
  · change execHeadlandMark job s = _
    simp [execHeadlandMark, hst, hm, State.mirrorRoots, hup]

theorem State.rgnCmd_runs {s : State} {i : Instr} {port row op : Nat} {r : ReadOut} {f : Nat → Staging → State → State}
    (ho : s.owner port) (hs : s.cfg.swapping = false) (hr : s.cfg.resuming = false) (hb : s.fld F.rgnSel_BUSY = 0) :
    s.rgnCmd i (.reg port) row op r f =
      (f row s.staged ((s.setFld F.rgnSel_INDEX row).setFld F.rgnSel_BUSY 1)).regRsp port 0 false := by
  have hfree : (s.fld F.rgnSel_BUSY == 1) = false := by simp [hb]
  simp only [State.rgnCmd, State.regCmd_runs ho hs hr hfree]

/-- A command on a FREE row is refused with code 1, as every command is before the life cycle leaves BLANK. -/
theorem State.rowCheck_free {s : State} {row : Nat} (h : (s.row row).state = .free) : s.rowCheck row = some 1 := by
  simp [State.rowCheck, h]

/-- Settles O36. -/
theorem regionCommands : Obligations.RegionCommands := by
  refine fun s u port row r ho hs hr hb hu => ⟨fun hc => ?_, fun code hc => ?_, fun v hv => ?_, fun hc hst => ?_,
    fun hc hst hk hw => ?_, fun hst _ i hi => ?_⟩
  · change execRgnCreate (.reg port) row r s = _
    simp only [execRgnCreate, State.rgnCmd_runs ho hs hr hb, ← hu, hc]
  · change execRgnCreate (.reg port) row r s = _
    simp only [execRgnCreate, State.rgnCmd_runs ho hs hr hb, ← hu, hc]
  · change execRgnRead port row s = _
    have hfree : (s.fld F.rgnSel_BUSY == 1) = false := by simp [hb]
    rw [execRgnRead, State.regCmd_runs ho hs hr hfree, hv]
  · change execRgnDestroy (.reg port) row r s = _
    simp only [execRgnDestroy, State.rgnCmd_runs ho hs hr hb, ← hu, hc, hst, if_false]
  · change execRgnReset (.reg port) row r s = _
    simp [execRgnReset, State.rgnCmd_runs ho hs hr hb, ← hu, hc, hst, hk, hw]
  · have hfree := State.rowCheck_free hst
    simp only [List.mem_cons, List.not_mem_nil, or_false] at hi
    obtain rfl | rfl | rfl | rfl := hi
    · change execRgnDestroy (.reg port) row r s = _
      simp only [execRgnDestroy, State.rgnCmd_runs ho hs hr hb, ← hu, hfree]
    · change execRgnSeal (.reg port) row r s = _
      simp only [execRgnSeal, State.rgnCmd_runs ho hs hr hb, ← hu, hfree]
    · change execRgnReset (.reg port) row r s = _
      simp only [execRgnReset, State.rgnCmd_runs ho hs hr hb, ← hu, hfree]
    · change execRgnAdvance (.reg port) row r s = _
      simp only [execRgnAdvance, State.rgnCmd_runs ho hs hr hb, ← hu, hfree]

theorem State.queueCmd_startable {s : State} {i : Instr} {q k op : Nat} {c : Cmd} {f : Cmd → State → State}
    (hs : s.cfg.swapping = false) (h : s.startable q k op c) : s.queueCmd i q k op f = f c (s.started q c) := by
  simp only [State.queueCmd, hs, Bool.false_eq_true, if_false, State.svcCmd_startable h]

/-- Settles O37. -/
theorem sealAndAdvance : Obligations.SealAndAdvance := by
  refine ⟨fun s u port row r ho hs hr hb hu hc hst => ⟨fun x hx hk => ?_, fun a x y hx hk ha hlo hhi hmax zs hzs hy => ?_⟩,
    fun s u row x y a rest hx ha hrsv hcl hu h hh hy => ?_, fun s u q k c hs hc hu hrow hcheck hmay x hx => ?_,
    fun s u q k c hs hc hu hrow hst hpos hmay x hx => ?_⟩
  · change execRgnSeal (.reg port) row r s = _
    simp [execRgnSeal, State.rgnCmd_runs ho hs hr hb, ← hu, hc, hst, hx, hk]
  · change execRgnAdvance (.reg port) row r s = _
    have hkind : ¬ (x.kind = .clear ∨ x.kind = .tilled) := by
      obtain hk | hk := hk <;> simp [hk]
    have hrange : ¬ ¬ (x.hwm < a ∧ a ≤ x.hwm + 1024 ∧ a ≤ x.count * linesPerGranule) := not_not_intro ⟨hlo, hhi, hmax⟩
    have hopen : ¬ x.state ≠ .opened := by rw [hx]; exact not_not_intro hst
    simp only [execRgnAdvance, State.rgnCmd_runs ho hs hr hb, ← hu, hc, ← hx, ← ha, hkind, hopen, hrange, if_false, ← hzs, ← hy]
  · change execAdvanceComplete row s = _
    simp only [execAdvanceComplete, ← hx, ha, hrsv, hcl, Bool.false_eq_true, or_self, if_false, ← hu, ← hh, ← hy]
  · change Host.Outcome.next (s.drvRef _ q k 0x25 true) = _
    subst hu hx
    simp only [State.drvRef, State.queueCmd_startable hs hc, hrow.not_ge, hmay, hcheck, Bool.not_true, Bool.and_false,
      Bool.false_eq_true, Option.isSome_none, and_false, false_and, or_self, if_false, if_true]
  · change Host.Outcome.next (s.drvRef _ q k 0x26 false) = _
    subst hu hx
    simp only [State.drvRef, State.queueCmd_startable hs hc, hrow.not_ge, hmay, hst, hpos.ne', Bool.not_true, Bool.and_false,
      Bool.false_eq_true, and_false, false_and, or_self, if_false]

/-- Settles O38. -/
theorem seals : Obligations.Seals := by
  refine ⟨fun s u row m chunks run hrun hw hst hout hu hm => ?_, fun s row m chunks run hrun hw hend => ?_,
    fun s row run hrun hw hg => ?_⟩
  · change execSealComplete row m chunks s = _
    simp only [execSealComplete, hrun, hw, hst, hout, Bool.false_eq_true, if_false, ← hu, hm]
  · change execSealComplete row m chunks s = _
    simp only [execSealComplete, hrun, hw, hend, if_true]
  · change execSealGatherTimeout row s = _
    simp only [execSealGatherTimeout, hrun, hw, hg, Bool.and_self, if_true]

end Sys2Proof.Machine
end

section
/-! Watches, token sessions, and stavub contexts with their segments and chunks. -/

namespace Sys2Proof.Machine

theorem State.watchCmd_runs {s : State} {port w op : Nat} {f : Nat → Option (Nat × Cmd) → State → State}
    (ho : s.owner port) (hb : s.fld F.watchCtl_BUSY = 0) :
    s.watchCmd (.reg port) w op f = (f w none (s.setFld F.watchCtl_WATCH w)).regRsp port 0 false := by
  have hfree : (s.fld F.watchCtl_BUSY == 1) = false := by simp [hb]
  simp only [State.watchCmd, State.ownerCmd_free ho hfree]

theorem State.tokCmd_runs {s : State} {port t op : Nat} {f : Nat → Option (Nat × Cmd) → State → State}
    (ho : s.owner port) (hb : s.fld F.tokCtl_BUSY = 0) :
    s.tokCmd (.reg port) t op f = (f t none (s.setFld F.tokCtl_SESSION t)).regRsp port 0 false := by
  have hfree : (s.fld F.tokCtl_BUSY == 1) = false := by simp [hb]
  simp only [State.tokCmd, State.ownerCmd_free ho hfree]

theorem State.stvCmd_runs {s : State} {cmd : Instr} {port i op : Nat} {f : Nat → State → State} (ho : s.owner port)
    (hs : s.cfg.swapping = false) (hr : s.cfg.resuming = false) (hi : i < 254) (hb : s.fld F.stvCtl_BUSY = 0) :
    s.stvCmd cmd (.reg port) i op f = (f i (s.setFld F.stvCtl_CTX i)).regRsp port 0 false := by
  have hfree : (s.fld F.stvCtl_BUSY == 1 || decide (254 ≤ i)) = false := by simp [hb, hi]
  simp only [State.stvCmd, State.regCmd_runs ho hs hr hfree]

/-- No register command is foreign to the object it names. -/
@[simp] theorem State.foreign_none (s : State) (part : Nat) : s.foreign none part = false := rfl

/-- Settles O39. -/
theorem watches : Obligations.Watches := by
  refine fun s u port w ho hb hu => ⟨fun x y hx hcfg hfree hctx hcov hkind hy => ?_, fun x v hx hst hv => ?_, fun hst => ?_,
    fun hst i hi => ?_⟩
  · change execWatchArm (.reg port) w s = _
    simp only [execWatchArm, State.watchCmd_runs ho hb, ← hu, ← hx, hcfg, hfree, hctx, hcov, hkind, List.isEmpty_nil, ne_eq,
      not_true_eq_false, Bool.not_true, Bool.false_eq_true, or_self, if_false, State.foreign_none]
    rw [hy, hx]
  · change execWatchRead (.reg port) w s = _
    simp only [execWatchRead, State.watchCmd_runs ho hb, ← hu, ← hx, hst, if_false, State.foreign_none, Bool.false_eq_true, ← hv]
  · change execWatchDisarm (.reg port) w s = _
    simp only [execWatchDisarm, State.watchCmd_runs ho hb, ← hu, hst, if_false, State.foreign_none, Bool.false_eq_true]
  · simp only [List.mem_cons, List.not_mem_nil, or_false] at hi
    obtain rfl | rfl := hi
    · change execWatchRead (.reg port) w s = _
      simp only [execWatchRead, State.watchCmd_runs ho hb, ← hu, hst, if_true]
    · change execWatchDisarm (.reg port) w s = _
      simp only [execWatchDisarm, State.watchCmd_runs ho hb, ← hu, hst, if_true]

/-- The two records of a line of an open session, in its order, chain to it, when their digests may be spent. -/
theorem tokenRecord_runs {s : State} {t : BitVec 13} {r : ReadOut} {x y z : Tok} {e : Nat} (hx : x = s.tok t.toNat)
    (hst : x.st = .opened ∨ x.closing ≠ none) (hnext : x.next < x.closing.getD (s.row x.row).hwm) (hok : r.ok = true)
    (hlen : r.bytes.length = 64) (hy : y = (x.chained (r.bytes.take 32)).chained (r.bytes.drop 32))
    (hz : z = { y with next := x.next + 1 }) (he : e = keccakEnergy (y.count - x.count)) :
    execTokenRecordChained t r s = if 0 < e ∧ !s.fits e then .next s.withhold
      else .next ((((s.spend e).count 464 (y.count - x.count)).setTok t.toNat z).tokSettle t.toNat) := by
  have hgo : ¬ ((x.st ≠ .opened ∧ x.closing.isNone = true) ∨ x.closing.getD (s.row x.row).hwm ≤ x.next ∨ (!r.ok) = true ∨
      r.bytes.length ≠ 64) := by
    have hidle : ¬ (x.st ≠ .opened ∧ x.closing.isNone = true) := fun h =>
      hst.elim h.1 fun hc => hc (Option.isNone_iff_eq_none.1 h.2)
    simp only [hidle, hnext.not_ge, hok, hlen, ne_eq, not_true_eq_false, Bool.not_true, Bool.false_eq_true, or_self,
      not_false_eq_true]
  simp only [execTokenRecordChained, ← hx, hgo, if_false, ← hy, ← he, ← hz]

theorem State.tok_setFld (s : State) (f : Fld) (v i p t : Nat) : (s.setFld f v i p).tok t = s.tok t := rfl

/-- Settles O40. -/
theorem tokenSessions : Obligations.TokenSessions := by
  refine ⟨fun s u port t ho hb hu => ⟨fun row x id hrow harg hst hk hop hany hid hx => ?_, fun x v hst hv hx => ?_,
      fun hst => ?_, fun hst hc => ?_, fun hst => ?_⟩,
    fun s t r x y z e hx hst hnext hok hlen hy hz he => ⟨fun hfit => ?_, fun hpos hfit => ?_⟩⟩
  · change execTokOpen (.reg port) t s = _
    simp only [execTokOpen, State.tokCmd_runs ho hb, ← hu, ← hrow, harg, hst, hk, hop, hany, ne_eq, not_true_eq_false,
      State.foreign_none, Bool.false_eq_true, or_self, if_false, ← hid, tokStart, ← hx]
  · change execTokClose (.reg port) t s = _
    subst hx hv
    simp -implicitDefEqProofs [execTokClose, State.tokCmd_runs ho hb, ← hu, hst, State.tokClose, State.tok_setFld]
  · change execTokRead (.reg port) t s = _
    simp only [execTokRead, State.tokCmd_runs ho hb, ← hu, hst, if_false, State.foreign_none, Bool.false_eq_true]
  · change execTokFree (.reg port) t s = _
    simp [execTokFree, State.tokCmd_runs ho hb, ← hu, hst, hc]
  · change execTokFree (.reg port) t s = _
    simp [execTokFree, State.tokCmd_runs ho hb, ← hu, hst]
  · change execTokenRecordChained t r s = _
    have hspend : ¬ (0 < e ∧ (!s.fits e) = true) := by
      obtain h0 | h1 := hfit
      · simp [h0]
      · simp [h1]
    rw [tokenRecord_runs hx hst hnext hok hlen hy hz he, if_neg hspend]
  · change execTokenRecordChained t r s = _
    rw [tokenRecord_runs hx hst hnext hok hlen hy hz he, if_pos ⟨hpos, by simp [hfit]⟩]

/-- Settles O41. -/
theorem stavubContexts : Obligations.StavubContexts := by
  refine ⟨⟨fun s u port ctx r ho hs hr hctx hb hu hne => ⟨fun c hst hchk => ?_, fun v w l hst hv hl hw => ?_,
        fun c v hc hst hv => ?_, fun hst => ?_, fun hst i hi => ?_⟩,
      fun s u ctx c hc hst hbusy hu hsh hcov hre => ?_, fun s u rec hu hok hg hm hst => ?_, fun s rec i hok h0 hhit => ?_,
      fun s ctx hst hg => ?_⟩,
    fun s w d hrdy hd hst => ?_, fun s r g hg hp hok hreg hlen => ?_, fun s n g hg hf => ?_,
    fun s n r g hg hf => ⟨fun hok hlen => ?_, fun hok => ?_, ?_⟩,
    fun s c a hc hrole hany ha l hl => ⟨fun hfit => ?_, fun hfit => ?_⟩, fun s c a ha => ?_⟩
  · change execStvOpen (.reg port) ctx r s = _
    simp only [execStvOpen, State.stvCmd_runs ho hs hr hctx hb, ← hu, hne, hst, hchk, Bool.false_eq_true, ne_eq,
      not_true_eq_false, if_false]
  · change execStvClose (.reg port) ctx s = _
    simp only [execStvClose, State.stvCmd_runs ho hs hr hctx hb, ← hu, hne, hst, Bool.false_eq_true, ne_eq,
      not_true_eq_false, if_false, ← hv, ← hl, ← hw]
  · change execStvRead (.reg port) ctx s = _
    simp only [execStvRead, State.stvCmd_runs ho hs hr hctx hb, ← hu, hne, ← hc, hst, Bool.false_eq_true, if_false, ← hv]
  · change execStvFree (.reg port) ctx s = _
    simp only [execStvFree, State.stvCmd_runs ho hs hr hctx hb, ← hu, hne, hst, Bool.false_eq_true, if_false]
  · simp only [List.mem_cons, List.not_mem_nil, or_false] at hi
    obtain rfl | rfl | rfl := hi
    · change execStvClose (.reg port) ctx s = _
      simp [execStvClose, State.stvCmd_runs ho hs hr hctx hb, ← hu, hne, hst]
    · change execStvRead (.reg port) ctx s = _
      simp [execStvRead, State.stvCmd_runs ho hs hr hctx hb, ← hu, hne, hst]
    · change execStvFree (.reg port) ctx s = _
      simp [execStvFree, State.stvCmd_runs ho hs hr hctx hb, ← hu, hne, hst]
  · change Host.Outcome.next (s.finishCtx ctx.toNat) = _
    simp only [State.finishCtx, ← hc, hst, hbusy, ne_eq, not_true_eq_false, Bool.false_eq_true, or_self, if_false, ← hu, hsh,
      hcov, hre, List.isEmpty_nil, Bool.not_false, and_self, if_true]
  · change execPartialRecord rec s = _
    simp only [execPartialRecord, hok, hg, hm, hst, Bool.not_true, Bool.false_eq_true, or_self, if_false, ← hu]
  · change execFinalRecord rec s = _
    simp only [execFinalRecord, hok, hhit, h0, List.isEmpty_cons, List.foldl_cons, List.foldl_nil, Bool.not_true,
      Bool.false_eq_true, or_self, if_false, if_true]
  · change execGatherTimeout ctx s = _
    simp only [execGatherTimeout, hst, hg, ne_eq, not_true_eq_false, if_false, if_true]
  · change execChunkDescriptor w s = _
    have hbad : (!d.fieldsOk || !d.fits (s.ctx d.ctx) || !s.chdPlace d (s.ctx d.ctx).part) =
        !(d.fieldsOk && d.fits (s.ctx d.ctx) && s.chdPlace d (s.ctx d.ctx).part) := by simp [Bool.not_and]
    simp only [execChunkDescriptor, hrdy, ← hd, hst, ne_eq, not_true_eq_false, Bool.not_true, Bool.false_eq_true, if_false,
      hbad]
    cases d.fieldsOk && d.fits (s.ctx d.ctx) && s.chdPlace d (s.ctx d.ctx).part <;> rfl
  · change execScanRead g.no r s = _
    have hopen : (upto (g.addr / 4096) ((g.addr + g.len - 1) / 4096 + 1 - g.addr / 4096)).any s.pageClosed = false :=
      List.any_eq_false.2 fun p hmem => by
        obtain ⟨hlo, hhi⟩ := mem_upto.1 hmem
        simp [hp p hlo (by omega)]
    simp [execScanRead, hg, hopen, hok, Option.isNone_eq_false_iff.2 hreg, hlen]
  · change execStraddleFetch n s = _
    simp only [execStraddleFetch, hg, hf, ne_eq, not_true_eq_false, if_false]
    exact (apply_ite _ _ _ _).symm
  · change execStraddleFetchDone n r s = _
    simp [execStraddleFetchDone, hg, hf, hok, hlen]
  · change execStraddleFetchDone n r s = _
    simp [execStraddleFetchDone, hg, hf, hok]
  · change execStraddleFetchTimeout n s = _
    simp [execStraddleFetchTimeout, hg, hf]
  · change execChunkDispatch c s = _
    simp only [execChunkDispatch, hc.not_ge, hrole, hany, ne_eq, not_true_eq_false, Bool.false_eq_true, or_self, if_false, ha,
      hfit, Bool.not_true, ← hl]
  · change execChunkDispatch c s = _
    simp only [execChunkDispatch, hc.not_ge, hrole, hany, ne_eq, not_true_eq_false, Bool.false_eq_true, or_self, if_false, ha,
      hfit, Bool.not_false, if_true]
  · change execChunkHashed c s = _
    simp only [execChunkHashed, ha]

end Sys2Proof.Machine
end

section
/-! Doorbells, service queues, sheaves and the host's interface. -/

namespace Sys2Proof.Machine

/-- A fold whose every step leaves what it has alone. -/
theorem foldl_eq_self {α β : Type} {f : β → α → β} {l : List α} (h : ∀ a ∈ l, ∀ b, f b a = b) (b : β) : l.foldl f b = b := by
  induction l with
  | nil => rfl
  | cons a l ih =>
    rw [List.foldl_cons, h a List.mem_cons_self]
    exact ih fun x hx => h x (List.mem_cons_of_mem a hx)

/-- Settles O42. -/
theorem doorbells : Obligations.Doorbells := by
  refine ⟨fun s port q v hq ho hp hst ht hn hh u hu => ?_, fun s port q v hq ho hp hst ht hh hn u hu => ?_,
    fun s port q v hq ho hp => ?_, fun s port c v hc ho hp hst ht hn => ?_, fun s port c v hc ho hp => ?_⟩
  · change execSqDoorbell port q v s = _
    subst hu hp
    have hsize : bits v.toNat 0 12 < (s.regRsp (s.fld F.svcQcfg_ATT q) 0 false).qSize q := hn
    simp only [execSqDoorbell, hq.not_ge, ho, hst, ht, hh, hsize.not_ge, ne_eq, not_true_eq_false, Bool.not_true,
      Bool.false_eq_true, or_self, if_false, if_true, reduceCtorEq]
  · change execSqDoorbell port q v s = _
    subst hu hp
    have hsize : bits v.toNat 16 12 < (s.regRsp (s.fld F.svcQcfg_ATT q) 0 false).qSize q := hn
    simp only [execSqDoorbell, hq.not_ge, ho, hst, ht, hh, hsize.not_ge, ne_eq, not_true_eq_false, Bool.not_true,
      Bool.false_eq_true, or_self, if_false, if_true, reduceCtorEq]
  · change execSqDoorbell port q v s = _
    simp only [execSqDoorbell, hq.not_ge, ho, ne_eq, hp, not_false_eq_true, Bool.not_true, Bool.false_eq_true, or_self, if_false,
      if_true]
  · change execBounceDoorbell port c v s = _
    subst hp
    have hsize : bits v.toNat 0 12 < 2 ^ (s.regRsp (s.cAtt c + 1) 0 false).fld F.hostBcfg_SIZE c := hn
    simp only [execBounceDoorbell, hc.not_ge, ho, hst, ht, hsize.not_ge, ne_eq, not_true_eq_false, Bool.not_true,
      Bool.false_eq_true, Bool.true_eq_false, or_self, if_false, reduceCtorEq]
  · change execBounceDoorbell port c v s = _
    simp only [execBounceDoorbell, hc.not_ge, ho, ne_eq, hp, not_false_eq_true, Bool.not_true, Bool.false_eq_true, or_self,
      if_false, if_true]

/-- Settles O43. -/
theorem serviceQueues : Obligations.ServiceQueues := by
  refine ⟨⟨fun s port q hq ho hst href hrad u hu x hx => ?_, fun s port q hq ho hen hst href => ?_,
      fun s port q hq ho hst hc u hu => ?_, fun s port q hq ho hst => ?_⟩,
    fun s q d hq hst hne hlen hcq hir hw hloc hring hbytes => ?_, fun s u q k c hc hst hcq hhost hput => ?_,
    fun s q k c hc hst hh how => ?_, fun s q k c hc hst hh how hop u hu => ?_, fun s q k c hc => ?_⟩
  · change execQueueEnable port q s = _
    simp [execQueueEnable, hq.not_ge, href, hst, State.ownerCmd_free ho, hrad, State.enableQueue, hu, hx]
  · change execQueueEnable port q s = _
    simp [execQueueEnable, hq.not_ge, ho.1, ho.2, hen, hst, href]
  · change execQueueDisable port q s = _
    simp [execQueueDisable, hq.not_ge, State.ownerCmd_free ho, State.disableQueue, hst, hu]
  · change execQueueDisable port q s = _
    simp [execQueueDisable, hq.not_ge, State.ownerCmd_free ho, State.disableQueue, hst]
  · change execDescriptorFetch q d s = _
    cases hok : d.ok <;>
    simp [execDescriptorFetch, hq.not_ge, hst, hne, hlen.not_ge, hcq, hir, hw, hloc, hring, hbytes, hok]
  · change execCompletionWrite q k s = _
    simp [execCompletionWrite, hc, hst, hcq, hhost, hput]
  · change execQueueTimeout q k true s = _
    simp [execQueueTimeout, hc, hst, hh, how]
  · change execQueueTimeout q k false s = _
    simp [execQueueTimeout, hc, hst, hh, how, hop, hu, scuOp, Desc.stands]
  · change execNop q k s = _
    simp only [execNop, State.svcCmd_startable hc]

/-- Settles O44. -/
theorem sheaves : Obligations.Sheaves := by
  refine ⟨fun s q k r c row j hc hok hsrc hrow hdr hj hpart hmay hcause u hu => ?_,
    fun s q k j hj hstep hout u hu hready hdrbg hdue hlen => ?_, fun s port ho => ?_, fun s hl hd hs hm => ?_,
    fun s x hl hd hs hx => ?_, fun s hl hd hs hm => ?_, fun s g hg hpred hl u hu => ?_⟩
  · change execSheaf q k r s = _
    subst hu
    simp only [execSheaf, State.svcCmd_startable hc, hdr, hsrc, Bool.false_eq_true, if_false, hrow, hok, Bool.not_true, hj,
      hpart, hmay, hcause, ne_eq, not_true_eq_false]
  · change execSheafAppend q k s = _
    have hgo : (j.waitStep && j.stepStatus.isNone) = false := by
      cases hw : j.waitStep
      · rfl
      · simpa using Option.isSome_iff_ne_none.2 (hstep hw)
    simp [execSheafAppend, hj, hgo, hout, ← hu, hready, hdrbg, hdue, hlen.not_ge]
  · change execFlush port s = _
    simp only [execFlush, State.ownerCmd_owner ho]
  · change Host.Outcome.next s.closeStook = _
    simp [State.closeStook, hl, hd, hs, hm]
  · change Host.Outcome.next s.closeStook = _
    simp [State.closeStook, hl, hd, Option.isSome_iff_ne_none.2 hs, hx]
  · change execStookClose s = _
    have hne : s.dig.shf.leaves ≠ [] := fun h => by simp [h] at hl
    simp [execStookClose, hl, State.closeStook, hne, hd, hs, hm]
  · change execStookSigned s = _
    have hgo : ¬ (s.life.lc ≠ .test ∧ (!s.predOk) = true) := fun h => by simp [hpred h.1] at h
    simp only [execStookSigned, hg, hgo, if_false, ← hu]
    refine congrArg (fun x => Host.Outcome.next (State.dueStook x)) (foldl_eq_self (fun p hp x => ?_) _)
    rw [hl p.1 (List.fst_mem_of_mem_zipIdx hp)]

/-- A host read that has ended: what the command that waited for it does with the segment. -/
theorem hostDmaReadDone_cmd {s u : State} {tag : BitVec 10} {seg : Bytes} {r : HostRead} {c : Cmd} (rerr : Bool)
    (hr : s.host.reads.find? (fun r => r.tag == tag.toNat) = some r) (hch : r.chan = false)
    (hu : u = (s.readGone r.tag).spend (hostEnergy seg.length)) (hc : u.cmd r.obj r.k = some c) (hno : c.idx = r.no)
    (hst : c.st = .running) :
    execHostDmaReadDone tag seg rerr s = .next ((match if rerr then none else u.openRead r c.input.length c.ord c.drillStep seg with
      | none => (u.incFld F.hostErr_OPEN_FAIL).svcDone r.obj r.k 1 3 c.pos 0 0
      | some b => (u.setCmd r.obj { c with input := c.input ++ b }).askSegment r.obj { c with input := c.input ++ b }
      ).moreReads.partGo r.part) := by
  simp only [execHostDmaReadDone, hr, hch, Bool.false_eq_true, if_false, ← hu, hc, Option.filter_some, hno, hst, BEq.rfl,
    decide_true, Bool.and_self, if_true] <;> rfl

/-- Settles O45. -/
theorem hostInterface : Obligations.HostInterface := by
  refine ⟨fun s att va pa perm r hr hp => ?_, fun s att va pa perm r hr => ?_, fun s att first last hatt hreads => ?_,
    fun s c d src f hc hst hx hw hout hwait => ?_, fun s c f fs hx hd => ?_,
    fun s tag seg r c hr hch u hu hc hno hst => ⟨fun b hb d hd => ?_, fun v hv => ⟨fun hb => ?_, ?_⟩⟩,
    fun s port m len hm ho hp hlo hhi u hu a ha => ?_, fun s slot hk hus hw hbox u hu => ?_⟩
  · change execAtsCompletion att va pa perm true s = _
    simp only [execAtsCompletion, hr, ne_eq, hp, not_false_eq_true, and_self, if_true]
  · change execAtsCompletion att va pa perm false s = _
    simp [execAtsCompletion, hr]
  · change execAtsInvalidate att first last s = _
    simp only [execAtsInvalidate, hatt.not_ge, if_false, hreads, List.map_nil]
  · change execBounceTransfer c d src s = _
    simp [execBounceTransfer, hc.not_ge, hst, hx.not_ge, hw, hout, hwait]
  · change execTransferComplete c s = _
    simp only [execTransferComplete, hx, hd, if_true]
  · change execHostDmaReadDone tag seg false s = _
    rw [hostDmaReadDone_cmd false hr hch hu hc hno hst, if_neg Bool.false_ne_true, hb, hd]
  · change execHostDmaReadDone tag seg false s = _
    rw [hostDmaReadDone_cmd false hr hch hu hc hno hst, if_neg Bool.false_ne_true, hb, hv]
  · change execHostDmaReadDone tag seg true s = _
    rw [hostDmaReadDone_cmd true hr hch hu hc hno hst, if_pos rfl, hv]
  · change execHostMboxGo port m len s = _
    have h0 : len.toNat ≠ 0 := by omega
    simp only [execHostMboxGo, hm.not_ge, ho, hp, h0, hhi.not_gt, Bool.not_true, Bool.false_eq_true, not_true_eq_false, or_self,
      if_false, ← hu, ← ha]
  · change execKeywarn slot s = _
    simp only [execKeywarn, hk, hus.not_gt, hw, hbox, ne_eq, not_true_eq_false, Bool.false_eq_true, OfNat.ofNat_ne_zero,
      or_self, if_false, if_true, ← hu]

end Sys2Proof.Machine
end

section
/-! Cipher commands, bursts and stripes, the public-key unit and drills. -/

namespace Sys2Proof.Machine

/-- What a command in device memory that may read its source takes from it. -/
theorem State.takeSrc_device {s : State} {q len : Nat} {c : Cmd} {r : ReadOut} (h0 : len ≠ 0) (hb : bit c.desc.src 63 = false)
    (hr : s.srcOk q c len r = true) : s.takeSrc q c len r = (r, s.readLines (s.qPart q) (c.desc.src % 2 ^ 63) len) := by
  have ho : s.operandOk q c c.desc.src len 0 = true ∧ r.ok = true ∧ r.bytes.length = len := by
    simp [State.srcOk] at hr
    exact ⟨hr.1.1, hr.1.2, hr.2⟩
  simp only [State.takeSrc, h0, hb, ho, and_self, if_true, if_false]

/-- A command whose operands both lie in device memory charges no HOST slot. -/
theorem Desc.hostUnits_device {d : Desc} {a b : Nat} (hs : bit d.src 63 = false) (hd : bit d.dst 63 = false) :
    d.hostUnits a b = 0 := by
  simp [Desc.hostUnits, hs, hd]

theorem Desc.len_pos_of_cipherOk {d : Desc} {g : Bool} (h : d.cipherOk g = true) : d.len ≠ 0 := by
  intro h0
  have hunit : 0 < if d.op ≤ 2 then 16 else unitSize d.arg1 := by
    unfold unitSize
    split <;> positivity
  simp only [Desc.cipherOk, h0, Nat.le_zero, hunit.ne', false_and, decide_false, Bool.and_false, Bool.false_and,
    Bool.false_eq_true] at h

/-- The four cipher commands start alike. -/
theorem exec_cipher {s : State} {q k op : Nat} {src : ReadOut} {c : Cmd} {i : Instr}
    (hi : (i, op) ∈ [(.aesEnc q k src, 1), (.aesDec q k src, 2), (.xtsEnc q k src, 3), (.xtsDec q k src, 4)])
    (hc : s.startable q k op c) : exec i s = .next ((s.started q c).cipherStart q c src) := by
  simp only [List.mem_cons, Prod.mk.injEq, List.not_mem_nil, or_false] at hi
  obtain ⟨rfl, rfl⟩ | ⟨rfl, rfl⟩ | ⟨rfl, rfl⟩ | ⟨rfl, rfl⟩ := hi
  all_goals exact congrArg Host.Outcome.next (State.svcCmd_startable hc)

/-- Settles O46. -/
theorem cipherStarts : Obligations.CipherStarts := by
  intro s u v q k op src c i hi hc hu hok hne
  have hop : c.desc.op = op := hc.2.1
  rw [exec_cipher hi hc, ← hu]
  have hkeys : (∀ x ∈ c.desc.charges, (u.slot x.1).kind = .service) → (3 ≤ op → c.desc.kidx ≠ c.desc.arg16) →
      (c.desc.charges.any (fun x => decide ((u.slot x.1).kind ≠ .service)) ||
        (decide (3 ≤ c.desc.op) && c.desc.kidx == c.desc.arg16)) = false := fun hserv hxts => by
    have hany : c.desc.charges.any (fun x => decide ((u.slot x.1).kind ≠ .service)) = false :=
      List.any_eq_false.2 fun x hx => by simp [hserv x hx]
    rw [hany, hop, Bool.false_or, Bool.and_eq_false_imp]
    exact fun h3 => beq_eq_false_iff_ne.2 (hxts (of_decide_eq_true h3))
  refine ⟨fun x hx hserv hxts hlim hsrc hdst hso hdo hv hread => ?_, fun hkind => ?_, fun hserv hxts hlim => ?_⟩
  · have hcharged := fun f => State.charged_device (f := f) (fun _ => ⟨hsrc, hso⟩) (fun _ => ⟨hdst, hdo⟩)
      (Desc.hostUnits_device (a := c.desc.len) (b := c.desc.len) hsrc hdst)
    subst hv hx
    simp only [State.cipherStart, hok, hne, hkeys hserv hxts, hlim, Bool.not_true, Bool.false_eq_true, if_false, hcharged, hsrc,
      Bool.false_and, State.takeSrc_device (Desc.len_pos_of_cipherOk hok) hsrc hread, State.readLines_srcOk, hread]
  · have hany : c.desc.charges.any (fun x => decide ((u.slot x.1).kind ≠ .service)) = true := by
      unfold Desc.charges
      split <;> simp [hkind]
    simp only [State.cipherStart, hok, hne, hany, Bool.not_true, Bool.false_eq_true, if_false, Bool.true_or, if_true]
  · simp only [State.cipherStart, hok, hne, hkeys hserv hxts, hlim, Bool.not_true, Bool.false_eq_true, if_false, if_true]

/-- Settles O47. -/
theorem burstsAndStripes : Obligations.BurstsAndStripes := by
  refine ⟨fun s u q n x c d hdrbg hout hpick hjob hn hu hd => ?_, fun s q k i c hc hst hg hi hin hlen d hd => ?_,
    fun s u q k i c hc hst hg hi hin hlen hdst d hd hout => ?_⟩
  · change execScuBurst s = _
    subst hu hd hn
    simp [execScuBurst, hdrbg, hout, hpick, hjob]
  · change execGangStripeDone q k i false s = _
    subst hd
    simp [execGangStripeDone, hc, hst, hg, hi.not_ge, hin, -List.contains_eq_mem, hlen]
  · change execGangStripeDone q k i true s = _
    subst hd
    simp [execGangStripeDone, hc, hst, hg, hi.not_ge, hin, -List.contains_eq_mem, hlen, hdst, hout]

/-- Whether an algorithm is known does not turn on the bytes. -/
theorem pkDigest_known {alg : Nat} {b d : Bytes} (h : pkDigest alg b = some d) (b' : Bytes) :
    ∃ d', pkDigest alg b' = some d' := by
  unfold pkDigest at h ⊢
  split at h
  case h_7 => cases h
  all_goals exact ⟨_, rfl⟩

/-- Settles O49. -/
theorem publicKeyUnit : Obligations.PublicKeyUnit := by
  intro s u w q k c src hu hadm hout hsrc hdst hlen hread hw
  refine ⟨fun d hc hdig hmax hop => ?_, fun hc hlo hhi => ?_, fun hc hn => ?_⟩
  · change execPkHash q k src s = _
    obtain ⟨d', hd'⟩ := pkDigest_known hdig []
    have hrun := fun f => State.tenantOp_runs (f := f) hadm hout hlen hsrc hread (fun _ => ⟨hdst, hop⟩)
      (Desc.hostUnits_device (a := c.desc.len) (b := pkLen c.desc.arg16) hsrc hdst)
    simp only [execPkHash, State.svcCmd_startable hc, ← hu, hd', hmax.not_gt, if_false, hrun, hdig, Option.getD_some, ← hw]
  · change execPkMldsaVerify q k src s = _
    have hrun := fun f => State.tenantOp_runs (f := f) (b := 0) hadm hout hlen hsrc hread (fun h => absurd rfl h)
      (Desc.hostUnits_device (a := c.desc.len) (b := 0) hsrc hdst)
    simp only [execPkMldsaVerify, State.svcCmd_startable hc, ← hu, hlo.not_gt, hhi.not_gt, or_self, if_false, hrun, ← hw]
  · change execPkEcdsaVerify q k src s = _
    have hrun := fun f => State.tenantOp_runs (f := f) (b := 0) hadm hout hlen hsrc hread (fun h => absurd rfl h)
      (Desc.hostUnits_device (a := c.desc.len) (b := 0) hsrc hdst)
    rw [hn] at hrun hw
    simp only [execPkEcdsaVerify, State.svcCmd_startable hc, ← hu, hn, ne_eq, not_true_eq_false, if_false, hrun, ← hw]

/-- Settles O50. -/
theorem drills : Obligations.Drills := by
  refine ⟨fun s u v q k c image x hc hu hi hlo hhi hsrc hread hok hown hfree hruns hclosed hv hx => ?_,
    fun s u q k c params lines x b rest r hc hu hx hpart hown hlen h0 hsrc hunits hread hlines hsteps v hv hadm hr d hd => ?_,
    fun s u q k c x hc hu hx hpart hruns => ?_⟩
  · change execDrillStore q k image s = _
    subst hx
    simp only [execDrillStore, State.svcCmd_startable hc, ← hu, hi.not_ge, hlo.not_gt, hhi.not_gt, hsrc, hread, hok, hown, hfree,
      hruns, hclosed, ← hv, Bool.not_true, Bool.false_and, Bool.false_eq_true, or_self, if_false] <;> rfl
  · change execDrillRun q k params lines s = _
    have hso : u.operandOk q c c.desc.src c.desc.len 0 = true := by
      simp [State.srcOk] at hread
      exact hread.1.1
    have hcharged := fun f => State.charged_device (f := f) (b := 0) (fun _ => ⟨hsrc, hso⟩) (fun h => absurd rfl h) hunits
    subst hd hr
    simp only [execDrillRun, State.svcCmd_startable hc, ← hu, hx, hpart, hown, Bool.not_true, Bool.false_eq_true, and_false,
      ← hlen, ne_eq, not_true_eq_false, if_false, hcharged, State.takeSrc_device h0 hsrc hread, State.readLines_srcOk, hread,
      hlines, ← hv, hsteps, hadm]
  · change execDrillDrop q k s = _
    simp only [execDrillDrop, State.svcCmd_startable hc, ← hu, hx, hpart, hruns, ne_eq, not_true_eq_false, Bool.false_eq_true,
      if_false]

end Sys2Proof.Machine
end

section
/-! Drain handshakes and scrubs, hedges, winnows and instance resets, and dirty bitmaps. -/

namespace Sys2Proof.Machine

/-- Settles O51. -/
theorem drainAndScrub : Obligations.DrainAndScrub := by
  refine ⟨fun s p ha hr hk => ?_, fun s p ha hr => ?_, fun s p ha hr => ?_, fun s p hr hl u hu => ?_,
    fun s p w hw h3 ha hs u hu => ?_, fun s p hs x hx => ?_, fun s p st hs => ?_, fun s p w hw hs => ?_⟩
  · change execDrainAck p s = _
    simp only [execDrainAck, ha, hr, hk, Bool.not_true, Bool.false_eq_true, if_false]
  · change execDrainAck p s = _
    simp only [execDrainAck, ha, hr, Bool.not_false, Bool.false_eq_true, if_false, if_true]
  · change execDrainAckFall p s = _
    simp only [execDrainAckFall, ha, hr, Bool.not_true, Bool.false_eq_true, if_false]
  · change execDrainOverrun p s = _
    subst hu
    simp only [execDrainOverrun, hr, hl, Bool.false_and, Bool.false_eq_true, if_false, if_true]
  · change execScrubRequest p s = _
    subst hu
    simp only [execScrubRequest, hw, h3, ha, hs, ne_eq, not_true_eq_false, Bool.not_true, Bool.false_eq_true, or_self, if_false]
  · change execScrubDone p 0 s = _
    simp only [execScrubDone, hs, Bool.not_true, Bool.false_eq_true, if_false, if_true, ← hx]
  · change execScrubDone p st s = _
    simp only [execScrubDone, hs, Bool.not_false, if_true]
  · change execScrubOverrun p s = _
    simp only [execScrubOverrun, hw, hs, Bool.not_true, Bool.false_eq_true, if_false]

theorem State.hedgeCmd_runs {s : State} {port p : Nat} {f : State → State} (ho : s.owner port)
    (hb : s.fld F.fltHedge_BUSY = 0) : s.hedgeCmd port p f = (f (s.setFld F.fltHedge_PART p)).regRsp port 0 false := by
  have hfree : (s.fld F.fltHedge_BUSY == 1) = false := by simp [hb]
  simp only [State.hedgeCmd, State.ownerCmd_free ho hfree]

theorem State.hedged_setFld (s : State) (f : Fld) (v i p n : Nat) : (s.setFld f v i p).hedged n = s.hedged n :=
  congrArg Part.hedged (State.setFld_part s f v i p n)

theorem State.plotOf_setFld (s : State) (f : Fld) (v i p n : Nat) : (s.setFld f v i p).plotOf n = s.plotOf n := rfl

/-- Settles O52. -/
theorem hedgesAndResets : Obligations.HedgesAndResets := by
  refine ⟨fun s u port p ho hb hu hc hh hs v hv => ?_, fun s u port p ho hb hu => ?_, fun s u port p ho hb hu hr => ?_,
    fun s u v port p ho hb hu hr hc hw hi hh hv w hwr => ?_, fun s v port p i squash hi ho hb hr hc hw hir hv => ?_,
    fun s port p i squash hi ho hb hc => ?_⟩
  · change execHedge port p s = _
    subst hv hu
    simp [execHedge, State.hedgeCmd_runs ho hb, State.hedged_setFld, hh, State.addCause, hc, hs]
  · change execUnhedge port p s = _
    simp only [execUnhedge, State.hedgeCmd_runs ho hb, ← hu]
  · change execWinnow port p s = _
    simp [execWinnow, State.hedgeCmd_runs ho hb, State.plotOf_setFld, hr, hu]
  · change execWinnow port p s = _
    subst hwr hv hu
    simp [execWinnow, State.hedgeCmd_runs ho hb, State.plotOf_setFld, hr, hc, hw, hi, State.hedged_setFld, hh]
  · simp only [List.mem_cons, Prod.mk.injEq, List.not_mem_nil, or_false] at hi
    obtain ⟨rfl, rfl⟩ | ⟨rfl, rfl⟩ := hi
    · change Host.Outcome.next (s.instStart port p.toNat false) = _
      simp [State.instStart, State.ownerCmd_free ho, hb, hr, hc, hw, hir, hv]
    · change Host.Outcome.next (s.instStart port p.toNat true) = _
      simp [State.instStart, State.ownerCmd_free ho, hb, hr, hc, hw, hir, hv]
  · simp only [List.mem_cons, Prod.mk.injEq, List.not_mem_nil, or_false] at hi
    obtain ⟨rfl, rfl⟩ | ⟨rfl, rfl⟩ := hi
    · change Host.Outcome.next (s.instStart port p.toNat false) = _
      simp [State.instStart, State.ownerCmd_free ho, hb, hc]
    · change Host.Outcome.next (s.instStart port p.toNat true) = _
      simp [State.instStart, State.ownerCmd_free ho, hb, hc]

/-- Settles O53. -/
theorem dirtyLogging : Obligations.DirtyLogging := by
  refine ⟨fun s port p ho hd x hx => ?_, fun s u p page old hold hdirty hok hlen base b hbase hb hput x hx v hv => ?_,
    fun s row hst hrefs hcl => ?_⟩
  · change execFlip port p s = _
    simp only [execFlip, State.ownerCmd_owner ho, hd, List.isEmpty_nil, Bool.not_true, Bool.false_eq_true, if_false, hx]
  · change execDirtyLogOr p page old s = _
    subst hx
    simp only [execDirtyLogOr, hold, hdirty, hok, hlen, Bool.or_true, Bool.not_true, Bool.false_eq_true, Bool.or_self, ne_eq,
      not_true_eq_false, if_false, ← hbase, ← hb, hput, hv, decide_false]
  · change Host.Outcome.next ((s.settleRegion row.toNat).winnowGo (s.row row.toNat).part) = _
    simp [State.settleRegion, hst, hrefs, hcl]

end Sys2Proof.Machine
end

section
/-! Requests to other units, the frames that carry them, flows, grants and arrival counters. -/

namespace Sys2Proof.Machine

/-- Settles O54. -/
theorem fabricRequests : Obligations.FabricRequests := by
  refine ⟨fun s u v i r hi hrdy hid hu => ⟨fun x hx => ?_, fun hok hv => ⟨fun hd => ?_, fun hd hp hcls => ?_,
      fun hd hgo => ?_⟩⟩, fun s i r hi hrdy hid => ?_, fun s h r o t req hout hok hreq ht hlen hadm hbytes o' ho' => ?_,
    fun s flow f hlane hf howed n u htake => ?_, fun s mtag o hout => ⟨fun hfence => ?_, fun hfence hlane => ?_⟩⟩
  · change execFabricRequest i r s = _
    simp only [execFabricRequest, hi.not_ge, hrdy, hid, Bool.true_eq_false, Bool.false_eq_true, or_self, if_false, ← hu, hx]
  · change execFabricRequest i r s = _
    simp only [execFabricRequest, hi.not_ge, hrdy, hid, Bool.true_eq_false, Bool.false_eq_true, or_self, if_false, ← hu, hok,
      ← hv, hd, if_true]
  · change execFabricRequest i r s = _
    simp only [execFabricRequest, hi.not_ge, hrdy, hid, Bool.true_eq_false, Bool.false_eq_true, or_self, if_false, ← hu, hok,
      ← hv, hd, State.openReads, ne_eq, hcls, not_false_eq_true, List.isEmpty_eq_false_iff.2 hp, Bool.not_false, and_self,
      if_true]
  · change execFabricRequest i r s = _
    have hread : ¬ (r.cls ≠ 0 ∧ (!(v.stepEnt r.step.toNat).pend.isEmpty) = true) := by
      obtain h | h := hgo <;> simp [h]
    simp only [execFabricRequest, hi.not_ge, hrdy, hid, Bool.true_eq_false, Bool.false_eq_true, or_self, if_false, ← hu, hok,
      ← hv, hd, State.openReads, hread]
  · change execFabricRequest i r s = _
    simp only [execFabricRequest, hi.not_ge, hrdy, hid, Bool.true_eq_false, or_self, if_false, if_true]
  · change execCopyLocalRead h r s = _
    subst ht hreq ho'
    simp only [execCopyLocalRead, hout, hlen.not_gt, if_false, hadm, hok, hbytes, and_self, if_true]
  · change execCreditMessage flow s = _
    simp only [execCreditMessage, hf, hlane, howed.not_gt, or_self, if_false, htake]
  · change execResponseTimeout mtag s = _
    have hno : ¬ (s.dom.fenced.contains o.req.dest.toNat = true ∧ o.lane = 1) := fun h =>
      hfence.elim (fun hf => by rw [h.1] at hf; cases hf) fun hl => hl h.2
    simp only [execResponseTimeout, hout, hno, if_false]
  · change execResponseTimeout mtag s = _
    simp only [execResponseTimeout, hout, hfence, hlane, and_self, if_true]

theorem State.rxKey_spend (s : State) (e : Nat) (f : RxFlow) : (s.spend e).rxKey f = s.rxKey f := rfl

/-- A frame of a known CONTROL flow with a sound header goes to its flow. -/
theorem frameReceive_control {s u : State} {port len fgen src seq : Nat} {fr : Frame} {h : Bytes} {f : RxFlow}
    (hport : port < 40) (hup : s.portUp port = true) (hh : h = bvBytes fr.header) (hlen : len = bits (le h 14 2) 0 13)
    (hsrc : src = bits (le h 0 4) 0 16) (hlane : bits (le h 0 4) 16 2 = 2) (hfgen : fgen = bits (le h 0 4) 18 14)
    (hseq : seq = le h 4 8) (hver : bits (le h 14 2) 14 2 = 1) (hlo : 16 ≤ len) (hhi : len ≤ 4096) (hmod : len % 16 = 0)
    (hbody : fr.body.length = len) (hdest : le h 12 2 = s.unit) (h0 : fgen ≠ 0)
    (hrx : s.links.rx.filter (fun f => f.src == src && f.lane == 2 && f.fgen == fgen) = [f]) (hf0 : f.epoch0 = false)
    (hep : f.epoch % 2 = bits (le h 14 2) 13 1) (hu : u = s.spend (portEnergy (len + 32))) :
    execFrameReceive port fr false s = .next (u.frameIn port fr seq f).retryWaiting := by
  subst hu hh
  have hmine : (s.spend (portEnergy (len + 32))).links.rx.filter (fun f => f.src == src && f.lane == 2 && f.fgen == fgen) =
      [f] := hrx
  simp only [execFrameReceive, hport.not_ge, hup, ← hlen, ← hsrc, hlane, ← hfgen, ← hseq, hver, hlo.not_gt, hhi.not_gt, hmod,
    hbody, hdest, h0, ← hep, Bool.true_eq_false, Bool.false_eq_true, ne_eq, not_true_eq_false, or_self, if_false,
    Nat.reduceEqDiff, and_false, State.frameFor, hmine, List.find?_cons, List.find?_nil, hf0, Bool.not_false,
    BEq.rfl, Bool.or_true, Bool.and_self]

/-- The INFER flow that a search by its generation and its receiver finds. -/
theorem txFlow_of_find {l : List TxFlow} {dest fgen : Nat} {f : TxFlow}
    (hf : l.find? (fun f => f.lane == 1 && f.dest == dest && f.fgen == fgen && !f.down) = some f) :
    f.lane = 1 ∧ f.dest = dest ∧ f.fgen = fgen ∧ f.down = false := by
  have h := List.find?_some hf
  simp only [Bool.and_eq_true, beq_iff_eq, Bool.not_eq_true'] at h
  obtain ⟨⟨⟨hl, hd⟩, hg⟩, hdn⟩ := h
  exact ⟨hl, hd, hg, hdn⟩

theorem TxFlow.frameMsgs_infer {f : TxFlow} {ms rest : List Msg} (hl : f.lane = 1)
    (hpack : packMsgs f.waiting.length (min 4096 f.credit) f.waiting = (ms, rest)) : f.frameMsgs = (ms, rest) := by
  simp [TxFlow.frameMsgs, hl, hpack]

/-- An INFER flow with messages to send, at a port with no RADIO frame first, closes its frame when the budget allows. -/
theorem frameClose_infer {s u : State} {flow : BitVec 32} {dest : BitVec 16} {f : TxFlow} {ms rest : List Msg}
    (hl : bits flow.toNat 16 2 = 1) (hu : u = s.collectRsps 1 dest.toNat) (hunit : flow.toNat % 65536 = u.unit)
    (hf : u.links.tx.find? (fun f => f.lane == 1 && f.dest == dest.toNat && f.fgen == bits flow.toNat 18 14 && !f.down) = some f)
    (hup : u.portUp f.port = true) (hrad : u.radioFirst f.port = false) (hset : u.life.settling = false)
    (hpack : packMsgs f.waiting.length (min 4096 f.credit) f.waiting = (ms, rest)) (hne : ms ≠ []) :
    execFrameClose flow dest s = if u.fits f.energy = true then .next (u.sealOpen f) else .next u.withhold := by
  have hmsgs := TxFlow.frameMsgs_infer (txFlow_of_find hf).1 hpack
  cases hfit : u.fits f.energy <;>
  simp [execFrameClose, hl, ← hu, hf, hup, hunit, hrad, hset, hmsgs, hne, hfit]

/-- Settles O55. -/
theorem frames : Obligations.Frames := by
  refine ⟨fun s u v w flow dest f f' ms rest payload fr hl hu hunit hf hup hrad hset hpack hne =>
      ⟨fun hfit => ?_, fun hfit h0 hlim hpay hfr hv hw hf' => ?_⟩,
    fun s port fr hp hup => ?_,
    fun s u port len fgen src seq fr h f hp hup hh hlen hsrc hlane hfgen hseq hver hlo hhi hmod hbody hdest h0 hrx hf0 hep hbr
        hdn hu => ?_⟩
  · change execFrameClose flow dest s = _
    rw [frameClose_infer hl hu hunit hf hup hrad hset hpack hne, if_neg (by simp [hfit])]
  · change execFrameClose flow dest s = _
    have hlane := (txFlow_of_find hf).1
    rw [frameClose_infer hl hu hunit hf hup hrad hset hpack hne, if_pos hfit]
    have hmsgs := TxFlow.frameMsgs_infer hlane hpack
    subst hf' hw hv hfr hpay
    simp only [State.sealOpen, hmsgs, hlane, h0, List.isEmpty_eq_false_iff.2 hne, hlim.not_gt, Bool.false_eq_true, Bool.false_or,
      or_self, not_false_eq_true, and_false, if_false, one_ne_zero, OfNat.one_ne_ofNat]
  · change execFrameReceive port fr true s = _
    simp only [execFrameReceive, hp.not_ge, hup, Bool.true_eq_false, or_self, if_false, if_true]
  · have hrun : exec (.frameReceive port fr false) s = .next (u.frameIn port fr seq f).retryWaiting :=
      frameReceive_control hp hup hh hlen hsrc hlane hfgen hseq hver hlo hhi hmod hbody hdest h0 hrx hf0 hep hu
    have hkey : u.rxKey f = s.rxKey f := by rw [hu, State.rxKey_spend]
    rw [hrun]
    refine ⟨fun hn payload hopen => ?_, fun hn hopen => ?_, fun hgap => ?_, fun hdup => ?_⟩
    · rw [hh] at hopen
      simp only [State.frameIn, hbr, hdn, hn, Nat.lt_irrefl, Bool.false_eq_true, or_self, if_false, openFrame, hkey, hopen]
    · rw [hh] at hopen
      simp only [State.frameIn, hbr, hdn, hn, Nat.lt_irrefl, Bool.false_eq_true, or_self, if_false, openFrame, hkey, hopen]
    · simp only [State.frameIn, hbr, hdn, hgap.not_gt, hgap, Bool.false_eq_true, or_self, if_false, if_true]
    · simp only [State.frameIn, hbr, hdn, hdup, Bool.false_eq_true, or_self, if_false, if_true]

end Sys2Proof.Machine
end

section
/-! Breaks, idle and worn flows, flags, links, grants and arrival counters. -/

namespace Sys2Proof.Machine

/-- A flag's store whose request is admitted, whose capability pays and whose line is at hand takes its effect. -/
theorem flagEffect_known {u v x : State} {n row : Nat} {old : ReadOut} {t : Txn} {r : Remote} {f : RxFlow} {d : Line}
    (hadm : u.admitCheck t = none) (hrow : row = u.rowOf t) (hcyc : u.cycles = (n, v))
    (hf : v.links.rx.find? (fun f => f.src == r.src && f.lane == r.lane) = some f)
    (hcap : ((v.trace 2 3 (Src.port.at r.port) (some t.req.part.toNat) r.src (flowId r.src r.lane f.fgen) n).count 475
      n).chargeCap t = (true, x))
    (hshort : x.shortfalls [t] row = []) (hline : (x.lineRead row (reqLine t.req)).st = .known d) :
    u.flagEffect t r old = x.finishAtomic t r row (some d) := by
  obtain ⟨rfl, rfl⟩ := Prod.mk.inj hcyc
  rw [State.flagEffect, hadm]
  dsimp only [State.cycles]
  rw [hf]
  dsimp only
  rw [hcap, ← hrow]
  dsimp only
  rw [hshort, List.foldl_nil, hshort, hline]
  rfl

/-- The effect of a flag that nothing of its flow goes before, on an open page. -/
theorem flagStoreEffect_runs {s : State} {w : Nat} {old : ReadOut} {t : Txn} {r : Remote}
    (ht : s.links.flags.find? (fun t => t.remote.any (·.no == w)) = some t) (hr : t.remote = some r)
    (hreqs : s.links.reqs = []) (hlock : s.pageLocked (reqPage t.req) false = false)
    (hclosed : s.pageClosed (reqPage t.req) = false) :
    execFlagStoreEffect w old s = .next ((s.withLinks { s.links with flags := s.links.flags.filter fun x => !(x.id == t.id)
      }).flagEffect t r old) := by
  simp only [execFlagStoreEffect, ht, hr, hlock, hclosed, hreqs, List.any_nil, Bool.false_eq_true, or_self, if_false]

/-- A flow is worn, and to be rekeyed, at three quarters of its key's use. -/
theorem not_worn_eq_false {u : Nat} (h : 3 * 2 ^ 38 ≤ u) : (!(!false && decide (3 * 2 ^ 38 ≤ u))) = false := by
  simp only [h, decide_true, Bool.not_false, Bool.and_self, Bool.not_true]

/-- The owner's command of a grant or a revocation, with none in progress, sends it. -/
theorem exec_grant {s : State} {port : Nat} {a : GrantArg} {i : Instr} {revoke : Bool}
    (hi : (i, revoke) ∈ [(.fabGrant (.reg port), false), (.fabRevoke (.reg port), true)]) (ho : s.owner port)
    (hg : s.links.grant = none) (ha : a = grantArg (s.rd .fabGrant)) :
    exec i s = .next ((s.sendGrant (.reg port) a revoke).regRsp port 0 false) := by
  have hfree : s.links.grant.isSome = false := by rw [hg]; rfl
  simp only [List.mem_cons, Prod.mk.injEq, List.not_mem_nil, or_false] at hi
  obtain ⟨rfl, rfl⟩ | ⟨rfl, rfl⟩ := hi
  · change Host.Outcome.next (s.grantCmd (.reg port) false) = _
    rw [State.grantCmd, State.ownerCmd_free ho hfree, ha]
  · change Host.Outcome.next (s.grantCmd (.reg port) true) = _
    rw [State.grantCmd, State.ownerCmd_free ho hfree, ha]

theorem State.actrCmd_runs {s : State} {i : Instr} {port : Nat} {f : State → State} (ho : s.owner port)
    (hs : s.cfg.swapping = false) (hr : s.cfg.resuming = false) (hb : s.fld F.fabActrSel_BUSY = 0) :
    s.actrCmd i port f = (f s).regRsp port 0 false := by
  have hfree : (s.fld F.fabActrSel_BUSY == 1) = false := by simp [hb]
  simp only [State.actrCmd, State.regCmd_runs ho hs hr hfree]

/-- Settles O56. -/
theorem flowsAndGrants : Obligations.FlowsAndGrants := by
  refine ⟨fun s u src flow q f hf hout ms hms hu => ?_,
    fun s flow dest f hf => ⟨fun hidle => ?_, fun hl h0 hworn hgen => ?_, fun hl h0 hworn hgen hask hseat => ?_⟩,
    fun s u v x w n old t r f row d ht hr hreqs hlock hclosed hu =>
      ⟨fun e hadm => ?_, fun hadm hrow hcyc hf hcap hshort hline => ?_⟩,
    fun s u att n hup hu hn => ?_, fun s att hatt => ?_,
    fun s port a i revoke hi ho hg ha => ⟨fun hk hrights m u hm hu => ?_, fun hk => ?_⟩,
    fun s g hg => ?_,
    fun s u port c x ho hs hr hb hu hx => ⟨fun y hv hy => ?_, fun hv => ?_, fun hv => ?_, fun y hv hy => ?_⟩⟩
  · change execBreakReceive src flow q s = _
    have hdest : f.dest = src.toNat := by
      have h := List.find?_some hf
      simp only [Bool.and_eq_true, beq_iff_eq] at h
      exact h.1
    subst hu hms
    have hkeep : ∀ ms : List Msg, (ms.filter fun m => !(m.mtype == 1 && ([] : List Nat).contains m.tag)) = ms :=
      fun ms => List.filter_eq_self.2 fun m _ => by simp
    rw [execBreakReceive]
    simp only [hf, hout, List.filter_nil, List.map_nil, hkeep, List.foldl_nil, hdest]
  · change execFlowIdleRelease flow dest s = _
    simp only [execFlowIdleRelease, hf, hidle, if_true]
  · change execFlowRekey flow dest s = _
    simp only [execFlowRekey, hf, hl, h0, one_ne_zero, if_false, not_worn_eq_false hworn, Bool.false_eq_true, hgen, if_true]
  · change execFlowRekey flow dest s = _
    have hstate : (s.withDom { s.dom with asked := true }).dom.state = .seat := hseat
    simp only [execFlowRekey, hf, hl, h0, one_ne_zero, if_false, not_worn_eq_false hworn, Bool.false_eq_true, hgen,
      Nat.lt_irrefl, hask, hstate, if_true]
  · change execFlagStoreEffect w old s = _
    rw [flagStoreEffect_runs ht hr hreqs hlock hclosed, ← hu, State.flagEffect, hadm]
  · change execFlagStoreEffect w old s = _
    rw [flagStoreEffect_runs ht hr hreqs hlock hclosed, ← hu, flagEffect_known hadm hrow hcyc hf hcap hshort hline]
  · change execLinkDown att s = _
    simp only [execLinkDown, hup, Bool.not_true, Bool.false_eq_true, if_false, ← hu, hn]
  · change execLinkUp att s = _
    simp only [execLinkUp, hatt.not_ge, if_false]
  · subst hm hu
    rw [exec_grant hi ho hg ha]
    simp [State.sendGrant, hk, hrights]
  · rw [exec_grant hi ho hg ha]
    simp [State.sendGrant, hk]
  · change execGrantUnreachable s = _
    simp only [execGrantUnreachable, hg]
  · change execActrConfig (.reg port) c s = _
    subst hu hy hx
    simp [execActrConfig, State.actrCmd_runs ho hs hr hb, State.actrSet, hv]
  · change execActrRead (.reg port) c s = _
    subst hu hx
    simp [execActrRead, State.actrCmd_runs ho hs hr hb, State.actrReadAt, hv]
  · change execActrRead (.reg port) c s = _
    subst hu hx
    simp [execActrRead, State.actrCmd_runs ho hs hr hb, State.actrReadAt, hv]
  · change execActrRelease (.reg port) c s = _
    subst hu hy hx
    simp [execActrRelease, State.actrCmd_runs ho hs hr hb, State.actrClear, hv]

end Sys2Proof.Machine
end

section
/-! Admission to the domain and epoch advances. -/

namespace Sys2Proof.Machine

theorem State.forgetEpoch0_dom (s : State) (peer : Nat) : (s.forgetEpoch0 peer).dom = s.dom := rfl

theorem State.record_dom (s : State) (ev : Event) (src : Src) (i : Nat) (p : Option Nat) (a b : Nat) (reh : Bool) :
    (s.record ev src i p a b reh).dom = s.dom :=
  State.record_frame State.dom (fun _ _ _ => rfl) s ev src i p a b reh

/-- The owner's command of the domain, in a state of the life cycle that has one. -/
theorem State.domCmd_runs {s : State} {port : Nat} {f : State → State} (ho : s.owner port) (hb : s.fld F.domCtl_BUSY = 0)
    (h1 : s.life.lc ≠ .blank) (h2 : s.life.lc ≠ .endOfLife) :
    s.domCmd port f = (f (s.setFld F.domCtl_BUSY 1)).regRsp port 0 false := by
  have hfree : (s.fld F.domCtl_BUSY == 1) = false := by simp [hb]
  have hlc : ¬ ((s.setFld F.domCtl_BUSY 1).life.lc = .blank ∨ (s.setFld F.domCtl_BUSY 1).life.lc = .endOfLife) :=
    fun h => h.elim h1 h2
  simp only [State.domCmd, State.ownerCmd_free ho hfree, hlc, if_false]

/-- An answer to the joiner's own exchange is shown, and does what its status says. -/
theorem admit_runs {s u : State} {src : BitVec 16} {exch : BitVec 32} {st : BitVec 8} (epoch : Word) {x : Exch}
    (hx : s.dom.exch = some x) (hpeer : x.peer = src.toNat) (hexch : x.exch = exch.toNat) (hst : s.dom.state = .joining)
    (hu : u = (s.forgetEpoch0 src.toNat).setFld F.domStat_CAUSE st.toNat) (h6 : st.toNat ≤ 6) :
    execAdmit src exch st epoch s =
      if st = 0 then .next (u.withDom { u.dom with exch := none, admitOk := true })
      else if st = 5 ∨ st = 6 then .next ((u.withDom { u.dom with exch := none }).sendHello (u.dom.cand + 1))
      else .next ((u.record .admitRefused .domain 0 none st.toNat 0).joinFailed 2) := by
  have hjoin : (u.record .admitRefused .domain 0 none st.toNat 0).dom.state = .joining := by
    rw [State.record_dom, hu, State.setFld_dom, State.forgetEpoch0_dom, hst]
  simp only [execAdmit, hx, hpeer, hexch, hst, h6.not_gt, ne_eq, not_true_eq_false, false_and, or_self, if_false, ← hu, hjoin,
    if_true]

/-- Settles O57. -/
theorem admission : Obligations.Admission := by
  refine ⟨fun s port ho hb h1 h2 => ⟨fun hst => ?_, fun hst => ?_⟩,
    fun s u v src exch body head sigs b => ⟨fun hno => ?_, fun hbal hpred hhead hsign x hx hv => ?_⟩,
    fun s u v src exch body chain head sigs x hx hpeer hexch hst hchain hbal hst' hpred hhead hsign => ?_,
    fun s u v src exch body x hx hu => ⟨fun hno => ?_, fun b r hok hbal hv hr => ?_⟩,
    fun s u src exch st epoch x hx hpeer hexch hst hu => ⟨fun h0 => ?_, fun h56 => ?_, fun hlo hhi => ?_⟩,
    fun s hst => ⟨fun hlate => ?_, fun hin hadm => ?_⟩, fun s hst => ?_⟩
  · change execDomJoin port s = _
    simp [execDomJoin, State.domCmd_runs ho hb h1 h2, hst]
  · change execDomJoin port s = _
    simp [execDomJoin, State.domCmd_runs ho hb h1 h2, hst]
  · change execHello src exch body s = _
    simp only [execHello, hno]
  · change execHello src exch body s = _
    simp only [execHello, hbal, hpred, Bool.not_true, Bool.false_eq_true, if_false, ← hhead, hsign, ← hx, ← hv]
  · change execChallenge src exch body s = _
    simp [execChallenge, hx, hpeer, hexch, hst, hchain, hbal, hst', hpred, ← hhead, hsign]
  · change execEvidence src exch body s = _
    subst hu
    simp [execEvidence, hx, hno]
  · change execEvidence src exch body s = _
    have hbal' : u.dom.ballot = some b := by rw [hu]; exact hbal
    have hcount : u.dom.lastCount = s.dom.lastCount := by rw [hu]; rfl
    simp only [execEvidence, hx, hok, ← hu, hbal', hcount, ne_eq, not_true_eq_false, if_false, if_true, ← hv, ← hr]
  · change execAdmit src exch st epoch s = _
    rw [admit_runs epoch hx hpeer hexch hst hu (by rw [h0]; decide), if_pos h0]
  · change execAdmit src exch st epoch s = _
    have h6 : st.toNat ≤ 6 := by obtain rfl | rfl := h56 <;> decide
    have h0 : st ≠ 0 := by obtain rfl | rfl := h56 <;> decide
    rw [admit_runs epoch hx hpeer hexch hst hu h6, if_neg h0, if_pos h56]
  · change execAdmit src exch st epoch s = _
    have h0 : st ≠ 0 := fun h => by rw [h] at hlo; exact absurd hlo (by decide)
    have h56 : ¬ (st = 5 ∨ st = 6) := fun h => by
      obtain rfl | rfl := h <;> exact absurd hhi (by decide)
    rw [admit_runs epoch hx hpeer hexch hst hu (by omega), if_neg h0, if_neg h56]
  · change execAdmissionTimeout s = _
    simp only [execAdmissionTimeout, hst, hlate, if_true]
  · change execAdmissionTimeout s = _
    simp only [execAdmissionTimeout, hst, hin.not_ge, hadm, Bool.false_eq_true, if_false]
  · change execFallowRetry s = _
    simp only [execFallowRetry, hst, if_true]

/-- The answer of a member to the advance in preparation is noted, and the last one brings COMMIT. -/
theorem prepared_runs {s u : State} {src : BitVec 16} {epoch : Word} {a b : Advance} (ha : s.dom.advance = some a)
    (hep : a.epoch = epoch.toNat) (hw : a.waiting = none) (hmem : a.members.contains src.toNat = true)
    (hb : b = { a with prepared := nsInsert a.prepared src.toNat }) (hu : u = s.withDom { s.dom with advance := some b }) :
    execPrepared src epoch s =
      if b.members.all fun n => n == u.unit || b.prepared.contains n then .next u.sendCommit.endIfDone else .next u := by
  have hgo : ¬ (a.epoch ≠ epoch.toNat ∨ a.waiting.isSome = true ∨ a.members.contains src.toNat = false) := by
    simp only [hep, hw, hmem, ne_eq, not_true_eq_false, Option.isSome_none, Bool.false_eq_true, Bool.true_eq_false, or_self,
      not_false_eq_true]
  subst hu hb
  simp only [execPrepared, ha, hgo, if_false]

/-- Settles O58. -/
theorem epochAdvances : Obligations.EpochAdvances := by
  refine ⟨fun s u port ho hb h1 h2 hu => ⟨fun hst hcount => ?_, fun n v hst hseat hn hv => ?_⟩,
    fun s n hst hn hmem => ⟨?_, fun hheard => ?_⟩,
    fun s u src epoch wrap key ms gens m e hst hseat hep hm hown hopen he hu => ?_,
    fun s u src epoch a b ha hep hw hmem hb hu => ⟨fun hall => ?_, fun n hn hun hno => ?_, ?_⟩,
    fun s src epoch e hseat hnext hep => ⟨?_, ?_⟩,
    fun s src epoch a w v ha hw => ⟨?_, fun hep hv u hu => ⟨fun hv0 => ?_, fun hv0 => ?_⟩⟩,
    fun s e hold htx hrx => ?_, fun s hst => ⟨fun hbusy => ?_, fun hbusy => ?_⟩⟩
  · change execDomAdvance port s = _
    have hst' : u.dom.state = .seat := by rw [hu]; exact hst
    simp only [execDomAdvance, State.domCmd_runs ho hb h1 h2, ← hu, hst', ne_eq, not_true_eq_false, if_false]
  · change execDomLeave port s = _
    have hst' : ¬ (u.dom.state ≠ .member ∧ u.dom.state ≠ .seat) := fun h => h.1 (by rw [hu]; exact hst)
    have hseat' : v.seatUnit = some n := by rw [hv]; exact hseat
    have hn' : n ≠ v.unit := by rw [hv]; exact hn
    simp only [execDomLeave, State.domCmd_runs ho hb h1 h2, ← hu, hst', if_false, ← hv, hseat', hn']
  · change execLeave n s = _
    simp only [execLeave, hst, hn, hmem, ne_eq, not_true_eq_false, Bool.true_eq_false, or_self, if_false]
  · change execMemberSilent n s = _
    have hsilent : s.dom.heard.any (fun h => h.1 == n.toNat && decide (s.life.time < h.2 + 2500000000)) = false :=
      List.any_eq_false.2 fun h hh => by
        simp only [Bool.and_eq_true, beq_iff_eq, decide_eq_true_eq, not_and, not_lt]
        exact hheard h hh
    simp only [execMemberSilent, hst, hn, hmem, hsilent, ne_eq, not_true_eq_false, Bool.true_eq_false, Bool.false_eq_true,
      or_self, if_false]
  · change execPrepare src epoch wrap ms gens s = _
    simp only [execPrepare, hst, hseat, hep.not_ge, ← hm, hown, Bool.not_true, Bool.false_eq_true, Bool.true_eq_false, ne_eq,
      not_true_eq_false, or_self, if_false, hopen]
    subst hu he
    rfl
  · change execPrepared src epoch s = _
    have hready : (b.members.all fun n => n == u.unit || b.prepared.contains n) = true :=
      List.all_eq_true.2 fun n hn => by simpa using hall n hn
    rw [prepared_runs ha hep hw hmem hb hu, if_pos hready]
  · change execPrepared src epoch s = _
    have hready : (b.members.all fun n => n == u.unit || b.prepared.contains n) = false :=
      List.all_eq_false.2 ⟨n, hn, by simp [hun, hno, -List.contains_eq_mem]⟩
    rw [prepared_runs ha hep hw hmem hb hu, if_neg (ne_true_of_eq_false hready)]
  · change execPrepareTimeout s = _
    simp only [execPrepareTimeout, ha, hw, Option.isSome_none, Bool.false_eq_true, if_false]
  · change execCommit src epoch s = _
    simp only [execCommit, hseat, hnext, hep, ne_eq, not_true_eq_false, if_false]
  · change execAbort src epoch s = _
    simp only [execAbort, hseat, hnext, hep, Option.any_some, BEq.rfl, and_self, if_true]
  · change execCommitRepeat s = _
    simp only [execCommitRepeat, ha, hw, Option.getD_some]
  · change execCommitted src epoch s = _
    simp only [execCommitted, ha, hw, not_not_intro hep, if_false, ← hv, ← hu, List.isEmpty_iff.2 hv0, if_true]
  · change execCommitted src epoch s = _
    simp only [execCommitted, ha, hw, not_not_intro hep, if_false, ← hv, ← hu, List.isEmpty_eq_false_iff.2 hv0,
      Bool.false_eq_true]
  · change execEpochGraceEnd s = _
    simp only [execEpochGraceEnd, hold, htx, hrx, List.filter_nil, List.foldl_nil]
  · change execLeaveTimeout s = _
    simp only [execLeaveTimeout, hst, hbusy, if_true]
  · change execLeaveTimeout s = _
    simp only [execLeaveTimeout, hst, hbusy, Bool.false_eq_true, if_false, if_true]

end Sys2Proof.Machine
end

section
/-! Ballots, leases and units that reset. -/

namespace Sys2Proof.Machine

/-- The flows of another unit marked as down, as its reset does first. -/
def State.flowsDown (s : State) (u : Nat) : State :=
  s.withLinks { s.links with
    tx := updWhere (fun (f : TxFlow) => f.dest == u) (fun f => { f with down := true }) s.links.tx,
    rx := updWhere (fun (f : RxFlow) => f.src == u) (fun f => { f with down := true }) s.links.rx }

theorem State.unitDown_eq (s : State) (u : Nat) : s.unitDown u =
    if s.domPlot.gentag ∨ !s.isMember u then s.flowsDown u
    else (s.flowsDown u).withDom { s.dom with fenced := nsInsert s.dom.fenced u } := rfl

theorem State.pairPlot_unitDown (s : State) (u : Nat) : (s.unitDown u).pairPlot = s.pairPlot := by
  rw [State.unitDown_eq]
  split <;> rfl

/-- The reset of a unit that is not the partner marks its flows, and no more than the fence. -/
theorem down_notPartner {s : State} {src : BitVec 16} (gen : BitVec 8) (hpair : ∀ p, s.pairPlot = some p → p.partner ≠ src.toNat) :
    execDown src gen s = .next (s.unitDown src.toNat) := by
  have hany : (s.unitDown src.toNat).pairPlot.any (fun p => p.partner == src.toNat) = false := by
    rw [State.pairPlot_unitDown]
    cases hp : s.pairPlot with
    | none => rfl
    | some p => exact beq_eq_false_iff_ne.2 (hpair p hp)
  simp only [execDown, hany, Bool.false_eq_true, false_and, if_false]

theorem State.pkuOwn_dom (s : State) (n : Nat) : (s.pkuOwn n).dom = s.dom := rfl

theorem State.pkuOwn_unit (s : State) (n : Nat) : (s.pkuOwn n).unit = s.unit := rfl

theorem State.withDom_unit (s : State) (d : Domain) : (s.withDom d).unit = s.unit := rfl

theorem State.withDom_dom (s : State) (d : Domain) : (s.withDom d).dom = d := rfl

/-- A lease from the seat sets its end, and domain time takes the offset of the seat's, at once or by slewing. -/
theorem lease_runs {s u : State} {src : BitVec 16} {echoed seatTime leaseEnd : Word} (epoch : Word) (h : Digest) {off : Int}
    (hst : s.dom.state = .member) (hseat : s.seatUnit = some src.toNat) (hin : s.life.time ≤ s.dom.leaseEnd)
    (hu : u = s.withDom { s.dom with leaseEnd := leaseEnd.toNat })
    (hoff : ((seatTime.toNat + (s.life.time - echoed.toNat) / 2 : Nat) : Int) - (s.life.time : Int) = off) :
    execLease src echoed seatTime leaseEnd epoch h s =
      if 1000000 < off then .next { u with life := { s.life with time := s.life.time + off.toNat, slew := 0 } }
      else .next { u with life := { s.life with slew := off } } := by
  have hlife : u.life = s.life := by rw [hu]; rfl
  have hmember : ¬ (s.dom.state ≠ .member ∨ s.seatUnit ≠ some src.toNat) :=
    fun hne => hne.elim (fun hs => hs hst) fun hs => hs hseat
  simp only [execLease, hmember, hin.not_gt, if_false, ← hu, hoff, hlife]

/-- Settles O59. -/
theorem ballotsAndLeases : Obligations.BallotsAndLeases := by
  refine ⟨fun s u v port code len rec ho hu => ⟨fun hlen => ?_, fun hlen htake => ?_, fun src htake => ?_⟩,
    fun s b hc hno hst hunit => ?_, fun s n hseat hst => ?_,
    fun s u src time b hst hmem hbal hunit hnb hna hsent hagain hu => ?_,
    fun s u src echoed seatTime leaseEnd epoch h hst hseat hin hecho hu =>
      ⟨fun n l hoff hn hl => ?_, fun n l hoff hn hl => ?_, fun n l hoff hl => ?_⟩,
    fun s hst => ⟨fun hlate => ?_, fun hin => ?_⟩, fun s b hbal hst => ⟨fun hlate => ?_, fun hin => ?_⟩,
    fun s u src gen hu hpair => ⟨fun hgen => ?_, fun hgen hmem => ?_⟩,
    fun s src gen p hp hpart hup hup' hp' => ?_, fun s src rec n r hseat hcand hr => ?_⟩
  · change execBallotPost port len s = _
    simp only [execBallotPost, ho, Bool.not_true, Bool.false_eq_true, if_false, ← hu, ne_eq, hlen, not_false_eq_true, if_true]
  · change execBallotPost port len s = _
    simp only [execBallotPost, ho, Bool.not_true, Bool.false_eq_true, if_false, hlen, ne_eq, not_true_eq_false]
    rw [← hlen, ← hu, hlen, htake]
  · change Host.Outcome.next (s.takeBallot rec).2 = _
    rw [htake]
  · refine ⟨((s.pkuOwn 2).withDom { s.dom with ballot := some (Ballot.parse b), lastCount := 0, ballotSent := [] }).withDom
      { s.dom with ballot := some (Ballot.parse b), lastCount := 0, ballotSent := [], state := .seat, exch := none,
                   admitOk := false }, ?_, rfl, rfl, rfl⟩
    have hown : (Ballot.parse b).unit = s.unit := hunit
    simp -implicitDefEqProofs [State.takeBallot, hc, hno, hst, hown, State.pkuOwn_dom, State.pkuOwn_unit,
      State.withDom_unit, State.withDom_dom]
  · change execHeartbeatSend s = _
    simp only [execHeartbeatSend, hseat, hst, true_or, if_true]
  · change execHeartbeat src time s = _
    have hseat : ¬ (s.dom.state ≠ .seat ∨ s.isMember src.toNat = false) :=
      fun hne => hne.elim (fun hs => hs hst) fun hs => by rw [hmem] at hs; cases hs
    have hagain' : u.dom.again = false := by rw [hu]; exact hagain
    have hbal' : u.dom.ballot = some b := by rw [hu]; exact hbal
    have hsent' : u.dom.ballotSent.contains src.toNat = true := by rw [hu]; exact hsent
    have huse : u.ballotInUse = true := by
      rw [State.ballotInUse, hbal', hu]
      exact decide_eq_true ⟨hst, hunit, hnb, hna⟩
    have hlife : u.life = s.life := by rw [hu]; rfl
    simp only [execHeartbeat, hseat, if_false, ← hu,
      State.proposeWaiting, hagain', Bool.false_eq_true, false_and, hbal', huse, Bool.not_true, hsent', if_true, hlife]
  · change execLease src echoed seatTime leaseEnd epoch h s = _
    rw [lease_runs epoch h hst hseat hin hu (off := n) (by omega), if_pos (by omega), hl, Int.toNat_natCast]
  · change execLease src echoed seatTime leaseEnd epoch h s = _
    rw [lease_runs epoch h hst hseat hin hu (off := n) (by omega), if_neg (by omega), hl]
  · change execLease src echoed seatTime leaseEnd epoch h s = _
    rw [lease_runs epoch h hst hseat hin hu (off := -n) (by omega), if_neg (by omega), hl]
  · change execLeaseExpiry s = _
    simp only [execLeaseExpiry, hst, hlate, and_self, if_true]
  · change execLeaseExpiry s = _
    simp only [execLeaseExpiry, hin.not_gt, and_false, if_false]
  · change execBallotLapse s = _
    simp only [execBallotLapse, hbal, hst, hlate, and_self, if_true]
  · change execBallotLapse s = _
    simp only [execBallotLapse, hbal, hin.not_gt, and_false, if_false]
  · change execDown src gen s = _
    have hgo : s.domPlot.gentag = true ∨ (!s.isMember src.toNat) = true := hgen.imp_right fun h => by rw [h]; rfl
    rw [down_notPartner gen hpair, State.unitDown_eq, if_pos hgo, hu, State.flowsDown]
  · change execDown src gen s = _
    have hgo : ¬ (s.domPlot.gentag = true ∨ (!s.isMember src.toNat) = true) := by simp [hgen, hmem]
    rw [down_notPartner gen hpair, State.unitDown_eq, if_neg hgo, hu, State.flowsDown]
  · change execDown src gen s = _
    simp only [execDown, hp', Option.any_some, hpart, BEq.rfl, hup', true_or, and_self, if_true]
  · change execRecords src [rec] s = _
    simp only [execRecords, hseat, hcand, ne_eq, not_true_eq_false, Bool.true_eq_false, or_self, if_false, List.foldl_cons,
      List.foldl_nil, hr]

end Sys2Proof.Machine
end

section
/-! The pair, its mirrors and its cells. -/

namespace Sys2Proof.Machine

/-- The partner that proves itself brings the pair UP, which a block in service needs no more for. -/
theorem pairBootstrap_runs {s u v w : State} {th : Bytes} {peerId : BitVec 128} {meas : Digest} {peerKey : Bytes} {e : Word}
    {cells : List (BitVec 32)} {p : PairPlot} {x : Pair} (hp : s.pairPlot = some p) (hid : peerId = p.partnerId)
    (hst : s.pair.state = .bootstrap ∨ s.pair.state = .lost)
    (hu : u = (s.freed.withPair { s.pair with conflictEpoch := 0 }).resolveCells (cells.map (·.toNat)) e.toNat)
    (hv : v = if s.pair.conflictEpoch = 0 then u else u.setFld F.pairEpoch_EPOCH (s.pair.conflictEpoch + 1))
    (hx : x = { v.pair with state := .up, txCount := 0, fullDue := true, unacked := [], partnerKey := peerKey,
                            claiming := false, evidence := meas,
                            linkKey := Config.kmac256 (bvBytes (s.freeVal 640)) th 256 (ascii "LZPAIR1") })
    (hw : w = v.withPair x) (hready : w.life.ready = true) :
    execPairBootstrap th peerId true meas peerKey e cells s = .next w := by
  have hgo : ¬ ((!true) = true ∨ peerId ≠ p.partnerId ∨ ¬ (s.pair.state = .bootstrap ∨ s.pair.state = .lost)) := by
    simp [hid, hst]
  have hfree : s.freed.pair = s.pair := rfl
  simp only [execPairBootstrap, hp, hgo, if_false, hfree, ← hu, ← hv, ← hx, ← hw, hready, if_true]

/-- The image held here goes to a partner that asks with the identity of the pair and the measurement of the image. -/
theorem answerRestore_held {s u : State} {p : PairPlot} (unit : BitVec 128)
    (hu : u = (s.forgetEpoch0 p.partner).withPair { (s.forgetEpoch0 p.partner).pair with reqWait := none })
    (hheld : u.pair.image.held = true) (hstale : u.pair.image.stale = false) :
    s.answerRestore p true unit =
      if unit = p.partnerId ∧ (u.pair.evidence = BitVec.ofNat 384 (le (itemData u.pair.image.items 1 0) 112 48) ∨
          (u.pair.evidence ≠ 0 ∧ u.pair.evidence = BitVec.ofNat 384 (le (itemData u.pair.image.items 1 0) 160 48))) then
        u.sendPair "RESTORE" 8 (recordBytes u.pair.image.seq 0 (if u.pair.image.settle then 1 else 0)
          (fullItems u.pair.image.items))
      else (u.incFld F.pairErr_RESTORE_REFUSED).sendPair "RESTORE" 8 [] := by
  have hpair : (s.forgetEpoch0 p.partner).pair = s.pair := rfl
  rw [hpair] at hu
  simp only [State.answerRestore, ← hu, hheld, hstale, Bool.not_true, Bool.and_false, Bool.false_eq_true, if_false,
    Bool.not_false, Bool.and_true, Bool.true_and, Bool.and_eq_true, decide_eq_true_eq]

/-- A partner lost while no step and no job waits for it leaves every cell PRIMARY here, under the next pair epoch. -/
theorem losePartner_idle {s u v : State} {x : Pair} {byDown : Bool}
    (hx : x = { s.pair with state := .lost, claiming := true, cells := s.pair.cells.map fun e => (e.1, e.2.map fun _ => true),
                            image := { s.pair.image with stale := s.pair.image.stale || !byDown } })
    (hu : u = s.withPair x) (hv : v = u.setFld F.pairEpoch_EPOCH (u.pairEpochNo + 1)) (hsteps : s.stile.steps = [])
    (hjobs : s.harrow.jobs = []) : s.losePartner byDown = v.record .pairLost .pair 0 none v.pairEpochNo 0 := by
  have hsteps' : v.stile.steps = [] := by rw [hv, hu]; exact hsteps
  have hjobs' : v.harrow.jobs = [] := by rw [hv, hu]; exact hjobs
  simp only [State.losePartner, ← hx, ← hu, ← hv, hsteps', hjobs', List.filter_nil, List.map_nil, List.foldl_nil]

/-- Domain time moves by a tick, which is longer while it is behind the seat's and shorter while it is ahead. -/
theorem domainTick_life (s : State) (mw : BitVec 16) : ∃ t, execDomainTick mw s = .next t ∧
    t.regs = s.regs ∧ t.mem = s.mem ∧ t.keys = s.keys ∧
    t.life = { (if s.dom.state ≠ .member then { s.life with time := s.life.time + 1000 }
      else if 0 < s.life.slew then { s.life with time := s.life.time + 1001, slew := s.life.slew - 1 }
      else if s.life.slew < 0 then { s.life with time := s.life.time + 999, slew := s.life.slew + 1 }
      else { s.life with time := s.life.time + 1000 }) with telem := if s.outsReset then 0 else mw } :=
  ⟨_, rfl, rfl, rfl, rfl, rfl⟩

/-- Settles O60. -/
theorem pairAndCells : Obligations.PairAndCells := by
  refine ⟨⟨fun s u v w th peerId meas peerKey e cells p x hp hid hst hu hv hx hw hready => ?_, fun s hup => ?_,
      fun s seq kind ok items i hup hseal hi hstale => ?_, fun s u w seq items v i hup hseal hdraw hcopy hi hw => ?_,
      fun s seq => ?_, fun s seq hno => ?_, fun s ok unit p q hp hwait hq => ?_,
      fun s u p hp hset hres hu hheld hstale => ⟨fun hev => ?_, fun unit hne => ?_⟩⟩,
    fun s mw dt ds hready hset hst hdt hds => ?_, fun s mw hst => ?_, fun s u v x byDown hst hx hu hv hsteps hjobs => ?_,
    fun s p hp hclaim hpred => ?_, fun s p b hp => ?_, fun s cell hup hcell => ?_,
    fun s u port i ho hb hu => ⟨fun c hc => ?_, fun hc => ?_⟩, fun s u port c i ho hb hu hc => ?_⟩
  · exact pairBootstrap_runs hp hid hst hu hv hx hw hready
  · change execPairHeartbeat s = _
    simp only [execPairHeartbeat, hup, if_true]
  · change execMirror seq kind (.changes ok) items s = _
    have hopen : ¬ (s.pair.state = .disabled ∨ s.sealedClosed 5 = true) := by simp [hup, hseal]
    have hkeep : (s.pair.image.stale = true ∨ (s.pair.image.held = true ∧ MirrorForm.changes ok = .changes false)) ∧
        (!decide (MirrorForm.changes ok = .full)) = true := by
      refine ⟨hstale.imp_right fun h => ⟨h.1, by rw [h.2]⟩, rfl⟩
    simp only [execMirror, hopen, if_false, hkeep, and_self, if_true, ← hi]
  · change execMirror seq 0 .full items s = _
    have hopen : ¬ (s.pair.state = .disabled ∨ s.sealedClosed 5 = true) := by simp [hup, hseal]
    have hitems : i.items = items.filter fun x => !zeroAt x.2.2 0 x.2.2.length := by rw [hi]
    simp [execMirror, hopen, hdraw, hcopy, ← hi, hw, hitems]
  · rfl
  · change execMirrorAck seq false s = _
    simp only [execMirrorAck, Bool.false_eq_true, if_false, hno]
  · change execRestoreReq ok unit s = _
    simp only [execRestoreReq, hp, hwait, if_true, hq]
  · change execRestoreReq true p.partnerId s = _
    simp only [execRestoreReq, hp, hset, hres, Bool.false_eq_true, or_self, if_false,
      answerRestore_held p.partnerId hu hheld hstale]
    rw [if_pos ⟨trivial, .inl hev⟩]
  · change execRestoreReq true unit s = _
    simp only [execRestoreReq, hp, hset, hres, Bool.false_eq_true, or_self, if_false,
      answerRestore_held unit hu hheld hstale, hne, false_and]
  · obtain ⟨t, ht, hregs, hmem, hkeys, hlife⟩ := domainTick_life s mw
    refine ⟨t, ht, ?_, hregs, hmem, hkeys⟩
    rw [hlife, hdt, hds, State.outsReset, hready, hset]
    simp only [hst, ne_eq, not_true_eq_false, if_false]
    split
    · rfl
    · split
      · rfl
      · simp
  · obtain ⟨t, ht, -, -, -, hlife⟩ := domainTick_life s mw
    refine ⟨t, ht, ?_⟩
    simp only [hlife]
    simp +contextual [hst, State.outsReset]
  · change execPartnerLost byDown s = _
    have hgo : ¬ (s.pair.state ≠ .up ∧ s.pair.state ≠ .bootstrap) := fun h => hst.elim h.1 h.2
    simp only [execPartnerLost, hgo, if_false, losePartner_idle hx hu hv hsteps hjobs]
  · change execClaimSend s = _
    simp only [execClaimSend, hp, hclaim, hpred, and_self, if_true]
  · change Host.Outcome.next (s.takeClaim b) = _
    cases hok : s.claimOk p b
    · simp only [State.takeClaim, hp, hok, Bool.not_false, Bool.false_eq_true, if_true, if_false]
    · simp only [State.takeClaim, hp, hok, Bool.not_true, Bool.false_eq_true, if_true, if_false]
  · change execHandoverReceive cell s = _
    have hgo : ¬ (s.pair.state ≠ .up ∨ (tget none s.pair.cells cell.toNat).isNone = true) := by
      simp [hup, Option.isSome_iff_ne_none.1 hcell]
    simp only [execHandoverReceive, hgo, if_false]
  · change execCellRead port i s = _
    have hfree : (s.fld F.pairCtl_BUSY == 1) = false := by simp [hb]
    simp only [execCellRead, State.ownerCmd_free ho hfree, ← hu, hc]
  · change execCellRead port i s = _
    have hfree : (s.fld F.pairCtl_BUSY == 1) = false := by simp [hb]
    simp only [execCellRead, State.ownerCmd_free ho hfree, ← hu, hc]
  · change execCellHandover port i s = _
    have hfree : (s.fld F.pairCtl_BUSY == 1) = false := by simp [hb]
    simp only [execCellHandover, State.ownerCmd_free ho hfree, ← hu, hc]

end Sys2Proof.Machine
end

section
/-! The phases of the bring-up, their failures and the restore. -/

namespace Sys2Proof.Machine

/-- A phase whose work is done and whose entropy is at hand is followed by the next, or stops the bring-up. -/
theorem bringupPhaseDone_works {s t : State} {r : ReadOut} {ok : Bool} (hpow : s.life.powered = true) (hfail : s.life.fail = 0)
    (h0 : s.life.phase ≠ 0) (h10 : s.life.phase ≠ 10) (h15 : s.life.phase ≠ 15)
    (hwait : s.life.phase = 8 → s.life.restoreWait = false) (hent : s.entropyHolds = false) (hwork : s.phaseWork r = (ok, t)) :
    execBringupPhaseDone 0 r s = .next (if ok then
      t.enterPhase (nextPhase t.life.lc (bit (t.otpWord 6) 0 || t.life.decodeFail) s.life.phase)
      else t.stopBringup s.life.phase) := by
  have hgo : ¬ ((s.life.phase = 8 ∧ s.life.restoreWait = true) ∨ s.entropyHolds = true) := by
    rw [hent]
    exact fun h => h.elim (fun h => by rw [hwait h.1] at h; exact absurd h.2 Bool.false_ne_true) Bool.false_ne_true
  have hrun : ¬ ((!s.life.powered) = true ∨ s.life.fail ≠ 0 ∨ s.life.phase = 0 ∨ s.life.phase = 15) := by
    simp [hpow, hfail, h0, h15]
  simp only [execBringupPhaseDone, hrun, h10, hgo, ne_eq, not_true_eq_false, if_false, hwork]
  cases ok <;> rfl

/-- A fault of the phase stops the bring-up with its cause. -/
theorem bringupPhaseDone_fault {s : State} {r : ReadOut} {c : BitVec 4} (hpow : s.life.powered = true) (hfail : s.life.fail = 0)
    (h0 : s.life.phase ≠ 0) (h10 : s.life.phase ≠ 10) (h15 : s.life.phase ≠ 15) (hc : c ≠ 0)
    (hcause : (stopCauses s.life.phase).contains c.toNat = true) :
    execBringupPhaseDone c r s = .next (s.stopBringup c.toNat) := by
  have hrun : ¬ ((!s.life.powered) = true ∨ s.life.fail ≠ 0 ∨ s.life.phase = 0 ∨ s.life.phase = 15) := by
    simp [hpow, hfail, h0, h15]
  simp only [execBringupPhaseDone, hrun, h10, hc, ne_eq, not_false_eq_true, if_false, if_true, hcause]

theorem State.entropyHolds_eq_false {s : State} (h2 : s.life.phase = 2 → s.keys.esFail = false)
    (hpred : s.life.phase = 6 ∨ s.life.phase = 7 ∨ s.life.phase = 9 → s.predOk = true) : s.entropyHolds = false := by
  simp only [State.entropyHolds, Bool.or_eq_false_iff, Bool.and_eq_false_iff, beq_eq_false_iff_ne, List.contains_cons,
    List.contains_nil, Bool.or_false, Bool.not_eq_false', ne_eq]
  constructor
  · exact (Decidable.em (s.life.phase = 2)).symm.imp_right h2
  · by_cases h : s.life.phase = 6 ∨ s.life.phase = 7 ∨ s.life.phase = 9
    · exact .inr (hpred h)
    · rw [not_or, not_or] at h
      exact .inl h

/-- An answer of the partner to the restore that the bring-up waits for installs its roots, or starts virgin. -/
theorem restore_runs {s u : State} (kind : BitVec 2) (empty : Bool) (items : List (Nat × Nat × Bytes))
    (ledger : List (Nat × Bytes)) (mem : List (Nat × DmcBeat)) {x : Pesum} {p : PairPlot} (hwait : s.life.restoreWait = true)
    (hup : s.pair.state = .up) (hx : s.cfg.image = some x) (hp : s.pairPlot = some p) (hu : u = s.forgetEpoch0 p.partner) :
    execRestore kind empty items ledger mem s =
      if empty = true ∨ le (itemData items 1 0) 96 8 ≠ x.version then
        .next (if s.predOk then u.virginStart.answerWaiting else u)
      else .next (u.installRoots (decide (kind = 1)) items ledger mem).answerWaiting := by
  have hpred : u.predOk = s.predOk := by rw [hu]; rfl
  simp only [execRestore, hwait, hup, Bool.not_true, Bool.false_eq_true, ne_eq, not_true_eq_false, or_self, if_false, hx, hp,
    Option.map_some, Option.getD_some, ← hu, hpred]

/-- Settles O16. -/
theorem bringupPhases : Obligations.BringupPhases := by
  refine ⟨fun s r hpow hfail h0 h10 h15 hwait h2 hpred => ⟨fun t hwork => ?_, fun t hwork => ?_, fun c hc hcause => ?_⟩,
    fun s c => ?_, fun s => ⟨fun hwait hpred => ?_, fun hno => ?_⟩,
    fun s u kind items ledger mem x p hwait hup hx hp hu => ⟨fun hpred => ?_, fun hpred hver => ?_, fun hver => ?_⟩⟩
  · exact bringupPhaseDone_works hpow hfail h0 h10 h15 hwait (State.entropyHolds_eq_false h2 hpred) hwork
  · exact bringupPhaseDone_works hpow hfail h0 h10 h15 hwait (State.entropyHolds_eq_false h2 hpred) hwork
  · exact bringupPhaseDone_fault hpow hfail h0 h10 h15 hc hcause
  · rw [State.stopBringup, State.record_life]
    exact ⟨rfl, rfl, rfl⟩
  · change execRestoreWaitTimeout s = _
    simp only [execRestoreWaitTimeout, hwait, hpred, and_self, if_true]
  · change execRestoreWaitTimeout s = _
    simp only [execRestoreWaitTimeout, hno, Bool.false_eq_true, false_and, if_false]
  · change execRestore kind true items ledger mem s = _
    rw [restore_runs kind true items ledger mem hwait hup hx hp hu, if_pos (.inl rfl), if_pos hpred]
  · change execRestore kind false items ledger mem s = _
    rw [restore_runs kind false items ledger mem hwait hup hx hp hu, if_pos (.inr hver), if_pos hpred]
  · change execRestore kind false items ledger mem s = _
    rw [restore_runs kind false items ledger mem hwait hup hx hp hu, if_neg (by simp [hver])]

end Sys2Proof.Machine
end

section
/-! What the sending of messages does to the pair: nothing. One lemma for each operation on its way, down to the keys that
frames are charged to. -/

namespace Sys2Proof.Machine

/-- A fold each of whose steps leaves the pair alone leaves it alone. -/
theorem foldl_pair {α : Type} {f : State → α → State} (h : ∀ s a, (f s a).pair = s.pair) (l : List α) (s : State) :
    (l.foldl f s).pair = s.pair := foldl_frame State.pair h l s

@[simp] theorem State.trace_pair (s : State) (c e src : Nat) (p : Option Nat) (a b d : Nat) (r : Bool) :
    (s.trace c e src p a b d r).pair = s.pair :=
  State.trace_frame State.pair (fun _ _ _ => rfl) s c e src p a b d r

@[simp] theorem State.record_pair (s : State) (ev : Event) (src : Src) (i : Nat) (p : Option Nat) (a b : Nat) (r : Bool) :
    (s.record ev src i p a b r).pair = s.pair :=
  State.record_frame State.pair (fun _ _ _ => rfl) s ev src i p a b r

/-! ### Keys -/

@[simp] theorem State.startRewrap_pair (s : State) : s.startRewrap.pair = s.pair := by
  unfold State.startRewrap
  split <;> rfl

@[simp] theorem State.writeLedger_pair (s : State) (k : Nat) : (s.writeLedger k).pair = s.pair := by
  simp only [State.writeLedger]
  split_ifs <;> simp

@[simp] theorem State.putSlot_pair (s : State) (n : Nat) (k : Slot) : (s.putSlot n k).pair = s.pair := by
  simp [State.putSlot]

@[simp] theorem State.deriveSlot_pair (s : State) (n : Nat) (kind : KeyKind) (c e : Nat) (m : Digest) (d : Nat) :
    (s.deriveSlot n kind c e m d).pair = s.pair := by
  simp [State.deriveSlot]

@[simp] theorem State.obtainSucc_pair (s : State) (n : Nat) : (s.obtainSucc n).pair = s.pair := by
  simp only [State.obtainSucc]
  split
  · rfl
  · split
    · split <;> simp
    · simp

@[simp] theorem State.fillJob_pair (s : State) (j : Nat) (sc : Scope) (a : Bool) (o n t : Nat) (rows : List Nat) :
    (s.fillJob j sc a o n t rows).pair = s.pair := rfl

@[simp] theorem State.autoStart_pair (s : State) (n : Nat) : (s.autoStart n).pair = s.pair := by
  simp only [State.autoStart]
  split
  · rfl
  · split <;> rfl

@[simp] theorem State.trigger75_pair (s : State) (n : Nat) : (s.trigger75 n).pair = s.pair := by
  unfold State.trigger75
  split
  · simp only
    split <;> simp
  · simp only
    split <;> simp
  · simp
  · rfl

@[simp] theorem State.chargeSlot_pair (s : State) (k n : Nat) : (s.chargeSlot k n).pair = s.pair := by
  simp only [State.chargeSlot]
  split <;> simp

@[simp] theorem State.touchKey_pair (s : State) (k : Nat) : (s.touchKey k).pair = s.pair := by
  simp only [State.touchKey]
  split_ifs <;> simp

@[simp] theorem State.pin_pair (s : State) (k : Nat) : (s.pin k).pair = s.pair := by
  simp only [State.pin]
  split
  · rfl
  · split
    · exact State.touchKey_pair _ _
    · exact State.incFld_pair _ _ _ _

@[simp] theorem State.grantCredit_pair (s : State) (n k : Nat) : (s.grantCredit n k).pair = s.pair := by
  simp only [State.grantCredit, State.setCredit]
  split <;> simp

@[simp] theorem State.pinCell_pair (s : State) (k : Nat) : (s.pinCell k).pair = s.pair := by
  simp only [State.pinCell]
  split
  · rfl
  · rw [foldl_pair fun s n => by split <;> simp, State.touchKey_pair]

/-! ### Flows -/

@[simp] theorem State.setTx_pair (s : State) (f : TxFlow) : (s.setTx f).pair = s.pair := rfl

@[simp] theorem State.useFlow_pair (s : State) : s.useFlow.pair = s.pair := rfl

@[simp] theorem State.spend_pair (s : State) (e : Nat) : (s.spend e).pair = s.pair := rfl

@[simp] theorem State.dropTx_pair (s : State) (f : TxFlow) : (s.dropTx f).pair = s.pair := by
  simp only [State.dropTx, State.dropFlowSlot]
  split <;> simp

@[simp] theorem State.keepPast_pair (s : State) (f : TxFlow) : (s.keepPast f).pair = s.pair := by
  unfold State.keepPast
  split <;> rfl

@[simp] theorem State.roomTx_pair (s : State) : s.roomTx.pair = s.pair := by
  simp only [State.roomTx]
  split
  · rfl
  · split <;> simp

theorem State.flowSlot_pair {s t : State} {key : Key} {k : Nat} (h : s.flowSlot key = some (k, t)) : t.pair = s.pair := by
  unfold State.flowSlot at h
  split at h
  · cases h
  · cases h
    simp

theorem State.openTx_pair {s t : State} {lane dest : Nat} {e0 : Bool} {ms : List Msg}
    (h : s.openTx lane dest e0 ms = some t) : t.pair = s.pair := by
  simp only [State.openTx] at h
  split at h
  · cases h
  split at h
  · cases h
  split at h
  · cases h
  split at h
  · split at h
    · cases h
      simp [apply_ite State.pair]
    · cases h
  split at h
  · cases h
    simp [apply_ite State.pair]
  split at h
  · cases h
  split at h
  · cases h
  next k u hslot =>
    cases h
    simp [apply_ite State.pair, State.flowSlot_pair hslot]

theorem State.needTx_pair {s t : State} {lane dest : Nat} {e0 : Bool} {f : TxFlow}
    (h : s.needTx lane dest e0 = some (f, t)) : t.pair = s.pair := by
  simp only [State.needTx] at h
  split at h
  · cases h
    rfl
  split at h
  · cases h
  next u hopen =>
    obtain ⟨g, -, hg⟩ := Option.map_eq_some_iff.1 h
    cases hg
    rw [foldl_pair fun s f => by simp, State.openTx_pair hopen]

theorem State.enterMsg_pair {s t : State} {lane dest : Nat} {e0 : Bool} {m : Msg}
    (h : s.enterMsg lane dest e0 m = some t) : t.pair = s.pair := by
  obtain ⟨⟨f, u⟩, hneed, hu⟩ := Option.map_eq_some_iff.1 h
  cases hu
  exact State.needTx_pair (t := u) hneed

@[simp] theorem State.sendCtl_pair (s : State) (dest : Nat) (e0 : Bool) (m : Msg) : (s.sendCtl dest e0 m).pair = s.pair := by
  unfold State.sendCtl
  split
  · rfl
  · refine foldl_pair (fun s x => ?_) _ _
    cases hm : s.enterMsg 2 dest e0 x with
    | none => rfl
    | some t => exact State.enterMsg_pair hm

@[simp] theorem State.sendDom_pair (s : State) (name : String) (dtype dest exch : Nat) (e0 : Bool) (body : Bytes) :
    (s.sendDom name dtype dest exch e0 body).pair = s.pair := by
  simp [State.sendDom]

/-! ### Frames -/

@[simp] theorem State.frspLines_pair (s : State) (r : FabReq) (st : Status) (data : List Line) :
    (s.frspLines r st data).2.pair = s.pair := by
  unfold State.frspLines
  split
  · rfl
  · split <;> rfl

@[simp] theorem State.frsp_pair (s : State) (i : Nat) (r : FabReq) (st : Status) (data : List Line) (prov : Bool) :
    (s.frsp i r st data prov).pair = s.pair := by
  unfold State.frsp
  split
  · rfl
  · simp [State.freeTid]

@[simp] theorem State.noteSent_pair (s : State) (f : TxFlow) (seq : Nat) (m : Msg) : (s.noteSent f seq m).pair = s.pair := by
  simp only [State.noteSent]
  split
  · rfl
  · split
    · rfl
    · split <;> simp

@[simp] theorem State.sealOpen_pair (s : State) (f : TxFlow) : (s.sealOpen f).pair = s.pair := by
  simp only [State.sealOpen]
  rw [apply_ite State.pair, foldl_pair fun s m => State.noteSent_pair s f f.seq m]
  simp [apply_ite State.pair]

/-! ### The start of a settle -/

@[simp] theorem State.sendDown_pair (s : State) : s.sendDown.pair = s.pair := by
  refine foldl_pair (fun s f => ?_) _ s
  simp only
  split
  · split <;> simp
  · simp

/-- The levels that a reset drops are outputs alone. -/
theorem State.dropLevels_frame {β : Type} (π : State → β) (h : ∀ s o, π (s.emit o) = π s) (s : State) :
    π s.dropLevels = π s := by
  have hif : ∀ (c : Bool) (s : State) (o : Out), π (if c then s.emit o else s) = π s := fun c s o => by
    cases c
    · rfl
    · exact h s o
  simp only [State.dropLevels]
  rw [foldl_frame π fun s e => hif _ s _, foldl_frame π fun s e => (hif _ _ _).trans (hif _ s _), hif]

@[simp] theorem State.dropLevels_pair (s : State) : s.dropLevels.pair = s.pair :=
  State.dropLevels_frame State.pair (fun _ _ => rfl) s

@[simp] theorem State.beginSettle_pair (s : State) : s.beginSettle.pair = s.pair :=
  (State.dropLevels_pair s.sendDown).trans s.sendDown_pair

end Sys2Proof.Machine
end

section
/-! Power-on reset, warm reset, the settle and the PLL. -/

namespace Sys2Proof.Machine

/-- A power-on reset keeps the fuses, the store and the commands that wait, and nothing else of the block. -/
theorem State.cold_keeps (s : State) : s.cold.regs = [] ∧ s.cold.life = State.reset.life ∧ s.cold.mem = State.reset.mem ∧
    s.cold.otp = s.otp ∧ s.cold.store = s.store ∧ s.cold.pending = s.pending ∧ s.cold.keys.slots = [] ∧
    s.cold.rgn.rows = [] :=
  ⟨rfl, rfl, rfl, State.dropLevels_frame State.otp (fun _ _ => rfl) s, State.dropLevels_frame State.store (fun _ _ => rfl) s,
    State.dropLevels_frame State.pending (fun _ _ => rfl) s, rfl, rfl⟩

/-- A warm reset of a powered block raises the fence and counts; a block in service with its partner then settles. -/
theorem warmReset_runs {s u : State} {l : Life} {lost : Bool} (hpow : s.life.powered = true) (hset : s.life.settling = false)
    (hreq : s.life.warmReq = false) (hlock : s.life.lockLost = false)
    (hl : l = { s.life with blkFence := true, warmReq := false, rstCause := 1,
                            warmCount := (s.life.warmCount + 1) % 2 ^ 16, settleAbandoned := false })
    (hu : u = ({ s with life := l }).beginSettle) :
    execWarmReset lost s = if s.life.ready = true ∧ s.pair.state = .up ∧ lost = false then
      .next (({ u with life := { u.life with settling := true } }).setPhase 10).settleStep
    else .next ({ u with life := { u.life with settleAbandoned := true } }).reinit := by
  have hpair : u.pair = s.pair := by
    rw [hu]
    exact State.beginSettle_pair _
  have hrun : ¬ ((!s.life.powered) = true ∨ s.life.settling = true) := by simp [hpow, hset]
  have hfall : (if s.life.warmReq = true then s.emit (.warmReq false) else s) = s := if_neg (by simp [hreq])
  have hcause : (if s.life.lockLost = true then 3 else if s.life.warmReq = true then 2 else 1) = 1 := by simp [hlock, hreq]
  have hup : (s.life.ready = true ∧ s.pair.state = .up ∧ (!s.life.lockLost) = true ∧ (!lost) = true) ↔
      (s.life.ready = true ∧ s.pair.state = .up ∧ lost = false) := by simp [hlock]
  simp only [execWarmReset, if_neg hrun, hfall, hcause, ← hl, ← hu, hpair, hup]

/-- A loss of the lock outside a settle is counted, fences the block and asks for a warm reset. -/
theorem pllLockLoss_runs {s u v : State} (hlock : s.life.pllLock = true) (hset : s.life.settling = false)
    (hu : u = s.incFld F.clkStat_LOCK_LOSS)
    (hv : v = { u with life := { u.life with pllLock := false, lockLost := true, blkFence := true } }) :
    execPllLockLoss s = .next v.raiseWarm := by
  have hset' : u.life.settling = false := by
    rw [hu]
    exact hset
  simp only [execPllLockLoss, hlock, Bool.not_true, Bool.false_eq_true, if_false, ← hu, ← hv]
  exact if_neg (by rw [hset']; exact Bool.false_ne_true)

/-- Settles O15. -/
theorem resets : Obligations.Resets := by
  refine ⟨fun s => ⟨s.cold, rfl, s.cold_keeps⟩, fun s hpow l hl => ?_,
    fun s u l hpow hset hreq hlock hl hu => ⟨fun hready hup => ?_, fun lost hready => ?_⟩, fun s hset l hl => ?_,
    fun s u v hlock hset hu hv => pllLockLoss_runs hlock hset hu hv, fun s hlock hlost l hl => ?_,
    fun s src lane => ⟨_, rfl, fun f hf h0 hsrc hlane => ?_, fun f hf h0 => ?_⟩⟩
  · change execPowerOnReset s = _
    simp only [execPowerOnReset, hpow, Bool.false_eq_true, if_false, hl]
  · change execWarmReset false s = _
    rw [warmReset_runs hpow hset hreq hlock hl hu, if_pos ⟨hready, hup, rfl⟩]
  · change execWarmReset lost s = _
    rw [warmReset_runs hpow hset hreq hlock hl hu, if_neg fun h => by rw [hready] at h; exact Bool.false_ne_true h.1]
  · change execSettleTimeout s = _
    simp only [execSettleTimeout, hset, if_true, State.abandonSettle, State.reinit, hl]
  · change execPllLockReturn s = _
    simp only [execPllLockReturn, hlock, hlost, Bool.not_true, Bool.false_eq_true, or_self, if_false, hl]
  · have hkeep := (List.mem_filter.1 hf).2
    rw [h0, hsrc, hlane, BEq.rfl, BEq.rfl] at hkeep
    exact absurd hkeep Bool.false_ne_true
  · exact List.mem_filter.2 ⟨hf, by rw [h0]; rfl⟩

end Sys2Proof.Machine
end
